-- ==== Sys2Proof/Word.lean ====
section
/-! DEFINITION. The word types of the machine (02_words R27, R35). -/

namespace Sys2Proof

/-- One instruction word (R27). -/
abbrev Word32 := BitVec 32

/-- The 64 bits of an x register, a mask register, a control register or an address (R35, R70). -/
abbrev Word := BitVec 64

/-- One byte of memory (R161). -/
abbrev Byte := BitVec 8

/-- The 1,024 bits of a v register (R35, R134). -/
abbrev VWord := BitVec 1024

end Sys2Proof
end

