-- ==== Sys2Proof/Config.lean ====
section
/-! DEFINITION. What the manual leaves open and the machine goes on with: free values.

Each is a constant without a body, so that no proof can see what it is and every statement holds for all its values. They
are applied to a counter of the state that each use advances (DESIGN CHOICE, log 4), or to the operands the value depends on. -/

namespace Sys2Proof

/-- Which of two values the manual allows, at the n-th free choice (R72, R73, R94; DESIGN CHOICE, log 4). -/
opaque Config.freeBit : Nat → Bool

/-- A count of cycles or events that the model does not count, at the n-th free choice (R268; DESIGN CHOICE, log 4, log 6). -/
opaque Config.freeCount : Nat → Word

/-- What FDUTY and which operating point the budget tree gives a core for its share of power and its demand, in milliwatts: R420 says that
the share becomes them, and not how (DESIGN CHOICE, log 4; as log 50 has it). -/
opaque Config.shareDuty : Nat → Nat → Nat
opaque Config.sharePoint : Nat → Nat → Nat

/-- The milliwatts of one unit of a rail's 10-bit converter, by rail; what a core that has issued so many instructions, on a quad whose engines
have done so much, asks for; and what keeps a partition's junctions below 105 °C, from its power at the last sample, in milliwatts
(R415, R420, R421; DESIGN CHOICE, log 4; as log 50 has it). -/
opaque Config.railStep : Nat → Nat
opaque Config.demand : Nat → Nat → Nat
opaque Config.thermalLimit : Nat → Nat

/-- A byte of an image or a log that the command processor writes in a format of its own (R255, R430), by the number of the writing and
the address (DESIGN CHOICE, log 19). -/
opaque Config.freeByte : Nat → Nat → BitVec 8

/-- SHAKE256, by which R414's measurements are taken; what it measures of the boot ROM and of the firmware images by image and version; the
part's identity key; and the certificate chain of such a key (DESIGN CHOICE, log 4; as log 47 has it). -/
opaque Config.shake256 : List (BitVec 8) → List (BitVec 8)
opaque Config.bootRom : List (BitVec 8)
opaque Config.firmware : Nat → Nat → List (BitVec 8)
opaque Config.identityKey : List (BitVec 8)
opaque Config.certificates : List (BitVec 8) → List (BitVec 8)

end Sys2Proof
end

