-- ==== Sys2Proof/Machine/Bits.lean ====
section
/-! DEFINITION. Bit fields, sign extension and the plain helpers of 03_integer that every chapter uses. -/

namespace Sys2Proof.Machine

/-- `len` bits of a word from bit `lo`, as a number. -/
def fld (w : Word) (lo len : Nat) : Nat := (w.toNat >>> lo) % 2 ^ len

/-- One bit of a word. -/
def bitAt (w : Word) (i : Nat) : Bool := w.getLsbD i

/-- SExt of 03_integer: the low `n` bits of a number read as two's complement, extended to 64 bits. -/
def sext (v : Nat) (n : Nat) : Word :=
  let m := v % 2 ^ n
  if 2 ^ n ≤ 2 * m then BitVec.ofNat 64 (m + 2 ^ 64 - 2 ^ n) else BitVec.ofNat 64 m

/-- ZExt of 03_integer. -/
def zext (v : Nat) (n : Nat) : Word := BitVec.ofNat 64 (v % 2 ^ n)

/-- The low `n` bits of a number as a signed integer (SInt). -/
def sint (v : Nat) (n : Nat) : Int :=
  let m := v % 2 ^ n
  if 2 ^ n ≤ 2 * m then (m : Int) - (2 : Int) ^ n else m

/-- A word with the field of `len` bits at `lo` replaced. -/
def setFld (w : Word) (lo len v : Nat) : Word :=
  let old := fld w lo len
  BitVec.ofNat 64 (w.toNat - old * 2 ^ lo + (v % 2 ^ len) * 2 ^ lo)

/-- A word of a number. -/
abbrev word (n : Nat) : Word := BitVec.ofNat 64 n

/-- 1 for true, as comparisons write it (R74). -/
def ofBool (b : Bool) : Word := if b then 1 else 0

/-- How many of the low `n` bits are one. -/
def popcount (v : Nat) : Nat → Nat
  | 0 => 0
  | n + 1 => (if v.testBit n then 1 else 0) + popcount v n

/-- The bits among the low `n` that are one, ascending. -/
def bitsOf (v : Nat) (n : Nat) : List Nat := (List.range n).filter fun i => v.testBit i

/-- The SInt test of R279: has `c` reached `t`? -/
def reached (c t : Word) : Bool := !(c - t).msb

/-- Rounding up to a quotient. -/
def ceilDiv (a b : Nat) : Nat := (a + b - 1) / b

end Sys2Proof.Machine
end

