-- ==== Sys2Proof/Machine/Float.lean ====
section
/-! DEFINITION. Floating-point numbers as 05_numbers lays them down: formats, exact values, and the one rounding (R107 to R116).

A finite number is computed exactly as an integer times a power of two and rounded once. A quotient, a root or a power of
two that no such number holds is given by enough leading bits and one further bit that says that more follow. -/

namespace Sys2Proof.Machine

/-- The floating formats of R107. -/
inductive Fmt where
  | f64 | f32 | f16 | bf16 | e4m3 | e5m2
deriving DecidableEq, Repr

/-- Exponent and fraction bits (R107). -/
def Fmt.ebits : Fmt → Nat
  | .f64 => 11 | .f32 => 8 | .f16 => 5 | .bf16 => 8 | .e4m3 => 4 | .e5m2 => 5
def Fmt.fbits : Fmt → Nat
  | .f64 => 52 | .f32 => 23 | .f16 => 10 | .bf16 => 7 | .e4m3 => 3 | .e5m2 => 2

/-- Width in bits. -/
def Fmt.width (f : Fmt) : Nat := 1 + f.ebits + f.fbits

/-- The exponent bias (R107). -/
def Fmt.bias (f : Fmt) : Nat := 2 ^ (f.ebits - 1) - 1

/-- Is it one of the 8-bit formats that NXM governs (R110)? -/
def Fmt.narrow : Fmt → Bool
  | .e4m3 => true | .e5m2 => true | _ => false

/-- Are all codes of the top exponent finite (R110)? -/
def Fmt.extended (f : Fmt) (nxm : Bool) : Bool := f.narrow && nxm

/-- Does the format hold infinities (R108, R110)? -/
def Fmt.hasInf (f : Fmt) (nxm : Bool) : Bool := !f.extended nxm && f != .e4m3

/-- The exponent of the smallest quantum: that of the last bit of a subnormal. -/
def Fmt.qmin (f : Fmt) : Int := 1 - (f.bias : Int) - f.fbits

/-- The exponent of the largest finite numbers (R107). -/
def Fmt.emax (f : Fmt) (nxm : Bool) : Int :=
  (if f.extended nxm then (2 ^ f.ebits - 1 : Nat) else (2 ^ f.ebits - 2 : Nat)) - (f.bias : Int)

/-- An exact value: ±0, ±m × 2^e with m > 0, ±∞ or a NaN, which may be signalling (R108). -/
inductive Val where
  | zero (neg : Bool)
  | fin (neg : Bool) (m : Nat) (e : Int)
  | inf (neg : Bool)
  | nan (signalling : Bool)
deriving DecidableEq, Repr

/-- The conditions of R136 as a number: NV 16, DZ 8, OF 4, UF 2, NX 1. -/
abbrev cNV : Nat := 16
abbrev cDZ : Nat := 8
abbrev cOF : Nat := 4
abbrev cUF : Nat := 2
abbrev cNX : Nat := 1

/-- The sign bit of a code. -/
def Fmt.signOf (f : Fmt) (bits : Nat) : Bool := bits.testBit (f.width - 1)

/-- The value of a code (R107, R108, R110). -/
def Fmt.value (f : Fmt) (nxm : Bool) (bits : Nat) : Val :=
  let neg := f.signOf bits
  let ex := bits / 2 ^ f.fbits % 2 ^ f.ebits
  let fr := bits % 2 ^ f.fbits
  if ex = 0 then (if fr = 0 then .zero neg else .fin neg fr f.qmin)
  else if ex = 2 ^ f.ebits - 1 && !f.extended nxm then
    (if f = .e4m3 then .nan (fr < 2 ^ (f.fbits - 1))
     else if fr = 0 then .inf neg else .nan (fr < 2 ^ (f.fbits - 1)))
  else .fin neg (2 ^ f.fbits + fr) (f.qmin + (ex - 1 : Nat))

/-- A code with its sign. -/
def Fmt.signed (f : Fmt) (neg : Bool) (mag : Nat) : Nat := (if neg then 2 ^ (f.width - 1) else 0) + mag

/-- The canonical NaN (R109); under NXM = 1 an FP8 format has none. -/
def Fmt.qnan (f : Fmt) : Nat :=
  if f = .e4m3 then 0x7F else (2 ^ f.ebits - 1) * 2 ^ f.fbits + 2 ^ (f.fbits - 1)

/-- The magnitude codes of infinity and of the largest finite number. -/
def Fmt.infCode (f : Fmt) : Nat := (2 ^ f.ebits - 1) * 2 ^ f.fbits
def Fmt.largest (f : Fmt) (nxm : Bool) : Nat :=
  if f.extended nxm then 2 ^ (f.width - 1) - 1 else f.infCode - 1

/-- A magnitude with its low `k` bits rounded away in one of the four modes of R136, and whether that changed it. -/
def roundShift (rm : Nat) (neg : Bool) (m k : Nat) : Nat × Bool :=
  let q := m / 2 ^ k
  let r := m % 2 ^ k
  let up := match rm with
    | 0 => decide (2 ^ k < 2 * r) || (decide (2 * r = 2 ^ k) && q % 2 == 1)
    | 1 => false
    | 2 => decide (0 < r) && !neg
    | _ => decide (0 < r) && neg
  (if up then q + 1 else q, decide (0 < r))

/-- A magnitude m × 2^e as a multiple of 2^qe, rounded. -/
def roundTo (rm : Nat) (neg : Bool) (m : Nat) (e qe : Int) : Nat × Bool :=
  if qe ≤ e then (m * 2 ^ (e - qe).toNat, false) else roundShift rm neg m (qe - e).toNat

/-- The finite part of Round (R116): the code of ±m × 2^e and its conditions. Underflow is raised for a number that is tiny
after rounding and inexact, or whenever it is tiny when TUF traps (R136). -/
def Fmt.roundFin (f : Fmt) (nxm : Bool) (rm : Nat) (tuf : Bool) (neg : Bool) (m : Nat) (e : Int) : Nat × Nat :=
  let top := e + Nat.log2 m
  let emin := f.qmin + f.fbits
  let qe := max (top - f.fbits) f.qmin
  let (q, inexact) := roundTo rm neg m e qe
  if f.emax nxm < qe + Nat.log2 q then
    let toInf := match rm with | 0 => true | 1 => false | 2 => !neg | _ => neg
    (f.signed neg (if f.hasInf nxm && toInf then f.infCode else f.largest nxm), cOF + cNX)
  else
    let tiny := decide (top < emin) &&
      !(decide (top + 1 = emin) && (roundTo rm neg m e (top - f.fbits)).1 == 2 ^ (f.fbits + 1))
    (f.signed neg ((qe - f.qmin).toNat * 2 ^ f.fbits + q),
      (if inexact then cNX else 0) + (if tiny && (inexact || tuf) then cUF else 0))

/-- Round of R116: the code in a format of an exact value. A signalling NaN raises invalid at a conversion; an arithmetic
operation has counted it already, and passes a quiet one. -/
def Fmt.round (f : Fmt) (nxm : Bool) (rm : Nat) (tuf : Bool) : Val → Nat × Nat
  | .zero neg => (f.signed neg 0, 0)
  | .fin neg m e => f.roundFin nxm rm tuf neg m e
  | .inf neg =>
    if f.hasInf nxm then (f.signed neg f.infCode, 0)
    else if f.extended nxm then (f.signed neg (f.largest nxm), cNV) else (f.qnan, cNV)
  | .nan signalling =>
    if f.extended nxm then (0, cNV) else (f.qnan, if signalling then cNV else 0)

/-! ### Exact arithmetic: the value of a result, and the conditions that the operands fix -/

/-- Is the value a NaN, a signalling one? -/
def Val.isNan : Val → Bool
  | .nan _ => true | _ => false
def Val.isSnan : Val → Bool
  | .nan s => s | _ => false

/-- A quiet NaN that takes the place of a result. -/
def Val.quiet : Val := .nan false

def Val.neg : Val → Val
  | .zero n => .zero !n
  | .fin n m e => .fin (!n) m e
  | .inf n => .inf !n
  | .nan s => .nan s

/-- A signed integer times a power of two. -/
def Val.ofInt (i : Int) (e : Int) (zeroNeg : Bool) : Val :=
  if i = 0 then .zero zeroNeg else .fin (i < 0) i.natAbs e

/-- A finite non-zero value as a signed integer at an exponent not above its own. -/
def scaled (neg : Bool) (m : Nat) (e lo : Int) : Int :=
  let v : Int := m * 2 ^ (e - lo).toNat
  if neg then -v else v

/-- Invalid for a signalling NaN among the operands. -/
def snanCond (vs : List Val) : Nat := if vs.any Val.isSnan then cNV else 0

/-- Sum (R138); an exact cancellation is +0, or −0 in the mode toward −∞ (R129). -/
def Val.add (rm : Nat) (a b : Val) : Val × Nat :=
  match a, b with
  | .nan _, _ => (.quiet, snanCond [a, b])
  | _, .nan _ => (.quiet, snanCond [a, b])
  | .inf n, .inf m => if n = m then (.inf n, 0) else (.quiet, cNV)
  | .inf n, _ => (.inf n, 0)
  | _, .inf n => (.inf n, 0)
  | .zero n, .zero m => (.zero (if n = m then n else rm == 3), 0)
  | .zero _, v => (v, 0)
  | v, .zero _ => (v, 0)
  | .fin n m e, .fin n' m' e' =>
    let t := min e e'
    (Val.ofInt (scaled n m e t + scaled n' m' e' t) t (rm == 3), 0)

/-- Product (R138). -/
def Val.mul (a b : Val) : Val × Nat :=
  match a, b with
  | .nan _, _ => (.quiet, snanCond [a, b])
  | _, .nan _ => (.quiet, snanCond [a, b])
  | .inf _, .zero _ => (.quiet, cNV)
  | .zero _, .inf _ => (.quiet, cNV)
  | .inf n, .inf m => (.inf (n != m), 0)
  | .inf n, .fin m _ _ => (.inf (n != m), 0)
  | .fin n _ _, .inf m => (.inf (n != m), 0)
  | .zero n, .zero m => (.zero (n != m), 0)
  | .zero n, .fin m _ _ => (.zero (n != m), 0)
  | .fin n _ _, .zero m => (.zero (n != m), 0)
  | .fin n m e, .fin n' m' e' => (.fin (n != n') (m * m') (e + e'), 0)

/-- Product plus addend, exactly (R141, R157): 0 × ∞ is invalid even beside a quiet NaN. -/
def Val.fma (rm : Nat) (a b c : Val) : Val × Nat :=
  let p := a.mul b
  if p.2 ≠ 0 then (.quiet, cNV)
  else
    let r := p.1.add rm c
    (r.1, r.2)

/-- Quotient (R138). `bits` are the bits that a rounding needs at most. -/
def Val.div (bits : Nat) (a b : Val) : Val × Nat :=
  match a, b with
  | .nan _, _ => (.quiet, snanCond [a, b])
  | _, .nan _ => (.quiet, snanCond [a, b])
  | .inf _, .inf _ => (.quiet, cNV)
  | .zero _, .zero _ => (.quiet, cNV)
  | .inf n, .zero m => (.inf (n != m), 0)
  | .inf n, .fin m _ _ => (.inf (n != m), 0)
  | .zero n, .inf m => (.zero (n != m), 0)
  | .zero n, .fin m _ _ => (.zero (n != m), 0)
  | .fin n _ _, .inf m => (.zero (n != m), 0)
  | .fin n _ _, .zero m => (.inf (n != m), cDZ)
  | .fin n m e, .fin n' m' e' =>
    let k := bits + 3 + Nat.log2 m'
    let t := m * 2 ^ k
    (.fin (n != n') (2 * (t / m') + (if t % m' = 0 then 0 else 1)) (e - e' - k - 1), 0)

/-- The integer square root, bit by bit from 2^n down. -/
def isqrtFrom (v : Nat) : Nat → Nat → Nat
  | 0, r => if (r + 1) * (r + 1) ≤ v then r + 1 else r
  | n + 1, r => isqrtFrom v n (if (r + 2 ^ (n + 1)) * (r + 2 ^ (n + 1)) ≤ v then r + 2 ^ (n + 1) else r)
def isqrt (v : Nat) : Nat := isqrtFrom v (Nat.log2 v / 2 + 1) 0

/-- Square root (R138); √−0 is −0. -/
def Val.sqrt (bits : Nat) (a : Val) : Val × Nat :=
  match a with
  | .nan s => (.quiet, if s then cNV else 0)
  | .zero n => (.zero n, 0)
  | .inf n => if n then (.quiet, cNV) else (.inf false, 0)
  | .fin n m e =>
    if n then (.quiet, cNV)
    else
      let k := 2 * (bits + 3) + (e % 2).toNat
      let t := m * 2 ^ k
      let r := isqrt t
      (.fin false (2 * r + (if r * r = t then 0 else 1)) ((e - k) / 2 - 1), 0)

/-- Is a value, neither NaN, less than another; are they equal (R145)? Zeros compare equal. -/
def Val.toScaled (v : Val) (t : Int) : Int :=
  match v with
  | .fin n m e => scaled n m e t
  | _ => 0
def Val.expOf : Val → Int
  | .fin _ _ e => e
  | _ => 0
def Val.lt (a b : Val) : Bool :=
  match a, b with
  | .nan _, _ => false
  | _, .nan _ => false
  | .inf n, .inf m => n && !m
  | .inf n, _ => n
  | _, .inf m => !m
  | _, _ => let t := min a.expOf b.expOf; decide (a.toScaled t < b.toScaled t)
def Val.eq (a b : Val) : Bool :=
  match a, b with
  | .nan _, _ => false
  | _, .nan _ => false
  | .inf n, .inf m => n == m
  | .inf _, _ => false
  | _, .inf _ => false
  | _, _ => let t := min a.expOf b.expOf; decide (a.toScaled t = b.toScaled t)

/-- minimumNumber and maximumNumber (R139), on codes: which operand, or the canonical NaN. −0 orders below +0. -/
def Fmt.minMax (f : Fmt) (isMax : Bool) (a b : Nat) : Nat × Nat :=
  let va := f.value false a
  let vb := f.value false b
  let c := snanCond [va, vb]
  if va.isNan then (if vb.isNan then f.qnan else b, c)
  else if vb.isNan then (a, c)
  else
    let aLess := va.lt vb || (va.eq vb && f.signOf a && !f.signOf b)
    (if aLess = isMax then b else a, c)

/-! ### Powers of two (R140) -/

/-- The precision of the interval arithmetic, in bits. -/
def expBits : Nat := 256

/-- ln 2 from below, to `expBits` bits, as the sum of 1 ÷ (k × 2^k). -/
def lnTwo : Nat := (List.range 256).foldl (fun s k => s + 2 ^ expBits / ((k + 1) * 2 ^ (k + 1))) 0

/-- The terms of the exponential series of y, from below, summed. -/
def expSeries (y : Nat) : Nat → Nat → Nat → Nat
  | 0, _, _ => 0
  | n + 1, k, t => t + expSeries y n (k + 1) (t * y / (2 ^ expBits * k))

/-- 2^f from below for a fraction f of `expBits` bits; the exact power lies less than 2^10 units of the last bit above. -/
def exp2Frac (f : Nat) : Nat := expSeries (f * lnTwo / 2 ^ expBits) 80 1 (2 ^ expBits)

/-- The square root taken k times, from below: the 2^k-th root of a natural number, from below. -/
def rootOf : Nat → Nat → Nat
  | 0, v => v
  | k + 1, v => rootOf k (isqrt v)

/-- 2^(fr ÷ 2^k) in units of 2^-64, exactly rounded down: the 2^k-th root of 2^(fr + 64 × 2^k). -/
def exp2Root (fr k : Nat) : Nat := rootOf k (2 ^ (fr + 64 * 2 ^ k))

/-- Exp2 of R140 on a code: the correctly rounded power of two. Where the two ends of the interval that holds the power round
to the same number that is the result; where they do not, the power, which is irrational, is taken to 64 bits exactly. An exact
power that is subnormal raises underflow where TUF traps, as R136 has it for every tiny result, though R140's table lists no
condition (DESIGN CHOICE, log 17). -/
def Fmt.exp2 (f : Fmt) (rm : Nat) (tuf : Bool) (bits : Nat) : Nat × Nat :=
  match f.value false bits with
  | .nan s => (f.qnan, if s then cNV else 0)
  | .inf n => if n then (0, 0) else (f.infCode, 0)
  | .zero _ => f.roundFin false rm tuf false 1 0
  | .fin neg m e =>
    if 0 ≤ e || m % 2 ^ (-e).toNat = 0 then
      let i : Int := if 0 ≤ e then m * 2 ^ e.toNat else m / 2 ^ (-e).toNat
      let i := min i 65536
      f.roundFin false rm tuf false 1 (if neg then -i else i)
    else
      let k := (-e).toNat
      -- ±m ÷ 2^k is n + fr ÷ 2^k with 0 < fr < 2^k
      let ip := min (m / 2 ^ k) 65536
      let n : Int := if neg then -(ip : Int) - 1 else ip
      let fr := if neg then 2 ^ k - m % 2 ^ k else m % 2 ^ k
      let x := if k ≤ expBits then fr * 2 ^ (expBits - k) else fr / 2 ^ (k - expBits)
      let lo := exp2Frac x
      let hi := min (lo + 2 ^ 10) (2 ^ (expBits + 1))
      let a := f.roundFin false rm tuf false (2 * lo + 1) (n - expBits - 1)
      let b := f.roundFin false rm tuf false (2 * hi - 1) (n - expBits - 1)
      if a = b then a else f.roundFin false rm tuf false (2 * exp2Root fr k + 1) (n - 65)

end Sys2Proof.Machine
end

