-- ==== Sys2Proof/Machine/Formats.lean ====
section
/-! DEFINITION. Type codes, integers and block formats, and the conversions between formats (R50, R114 to R120, R134). -/

namespace Sys2Proof.Machine

/-! ### Type codes (R50, R134) -/

/-- The floating format of a type code; the others are integers. -/
def fmtOf : Nat → Option Fmt
  | 0 => some .f64 | 1 => some .f32 | 2 => some .f16 | 3 => some .bf16 | 8 => some .e4m3 | 9 => some .e5m2 | _ => none

/-- The size of an element in bytes. -/
def elemSize : Nat → Nat
  | 0 => 8 | 1 => 4 | 2 => 2 | 3 => 2 | 4 => 8 | 5 => 4 | 6 => 2 | _ => 1

/-- The number of elements of a v register. -/
def elemCount (t : Nat) : Nat := 128 / elemSize t

/-! ### Integers (R120) -/

/-- RoundInt of R120 into the range from lo to hi. The range is tested after rounding, and a value that saturates raises invalid alone, though
it may have had a fraction (DEDUCED, log 69). -/
def roundInt (lo hi : Int) (rm : Nat) : Val → Int × Nat
  | .nan _ => (0, cNV)
  | .inf n => (if n then lo else hi, cNV)
  | .zero _ => (0, 0)
  | .fin n m e =>
    let (q, inexact) := roundTo rm n m e 0
    let i : Int := if n then -(q : Int) else q
    if i < lo then (lo, cNV) else if hi < i then (hi, cNV) else (i, if inexact then cNX else 0)

/-- An integer as a code of `n` bits. -/
def codeOf (i : Int) (n : Nat) : Nat := (i % (2 ^ n : Nat)).toNat

/-- RoundInt into a signed type of `n` bits, as a code. -/
def roundSigned (n : Nat) (rm : Nat) (v : Val) : Nat × Nat :=
  let r := roundInt (-(2 ^ (n - 1) : Nat)) ((2 ^ (n - 1) : Nat) - 1) rm v
  (codeOf r.1 n, r.2)

/-- RoundInt into an unsigned type of `n` bits. -/
def roundUnsigned (n : Nat) (rm : Nat) (v : Val) : Nat × Nat :=
  let r := roundInt 0 ((2 ^ n : Nat) - 1) rm v
  (codeOf r.1 n, r.2)

/-- Convert of R117 between two type codes. -/
def convert (src dst : Nat) (nxm : Bool) (rm : Nat) (tuf : Bool) (bits : Nat) : Nat × Nat :=
  let v := match fmtOf src with
    | some f => f.value nxm bits
    | none => Val.ofInt (sint bits (8 * elemSize src)) 0 false
  match fmtOf dst with
  | some f => f.round nxm rm tuf v
  | none => roundSigned (8 * elemSize dst) rm v

/-! ### Block formats (R114 to R119) -/

/-- Mantissa width of a block format's code: 10 Q16, 11 Q8, 12 Q4. -/
def mantBits : Nat → Nat
  | 10 => 16 | 11 => 8 | _ => 4

/-- Bytes of a block's mantissas. -/
def mantBytes (q : Nat) : Nat := mantBits q * 4

/-- The range of mantissas (R114, R118). -/
def mantLo (w : Nat) : Int := if w = 16 then -32767 else -(2 ^ (w - 1) : Nat)
def mantHi (w : Nat) : Int := (2 ^ (w - 1) : Nat) - 1

/-- Mantissa i of a block whose bytes make a number (R115); Q16's 0x8000 reads as −32,767. -/
def mantAt (w n i : Nat) : Int := max (mantLo w) (sint (n / 2 ^ (w * i)) w)

/-- The number that the mantissas of a block make. -/
def packMants (w : Nat) (ms : List Int) : Nat := ms.foldr (fun m acc => codeOf m w + 2 ^ w * acc) 0

/-- A block as Quantise leaves it: scale, mantissas, and the conditions of each element. -/
structure Block where
  scale : Nat
  mants : List Int
  conds : List Nat
deriving DecidableEq, Repr

/-- ⌊log2 |x|⌋ of a finite non-zero value. -/
def Val.log2 : Val → Option Int
  | .fin _ m e => some (e + Nat.log2 m)
  | _ => none

/-- The largest of some exponents. -/
def maxExp : List Val → Option Int
  | [] => none
  | v :: t =>
    match v.log2, maxExp t with
    | some a, some b => some (max a b)
    | some a, none => some a
    | none, r => r

/-- Quantise of R118. In a NaN block every finite element that is not zero gets mantissa 0 and so raises inexact and underflow, as the
conditions are judged over all finite elements (R118; DEDUCED, log 66). -/
def quantise (w : Nat) (nxm : Bool) (xs : List Val) : Block :=
  let emax : Int := if nxm then 255 else 254
  let special : Val → Bool
    | .nan _ => true | .inf _ => true | _ => false
  let isInf : Val → Bool
    | .inf _ => true | _ => false
  if !nxm && xs.any special then
    { scale := 255, mants := xs.map fun _ => 0, conds := xs.map fun v => if special v then cNV else match v with | .zero _ => 0 | _ => cNX + cUF }
  else
    let e : Int :=
      if xs.any isInf then emax
      else match maxExp xs with
        | none => 0
        | some l => min (max (l - (w - 2 : Nat) + 127) 0) emax
    let one (v : Val) : Int × Nat :=
      match v with
      | .nan _ => (0, cNV)
      | .inf n => (if n then mantLo w else mantHi w, cNV)
      | .zero _ => (0, 0)
      | .fin n m x =>
        let (q, inexact) := roundTo 0 n m (x + 127 - e) 0
        let i : Int := if n then -(q : Int) else q
        let c := min (max i (mantLo w)) (mantHi w)
        (c, (if inexact || c != i then cNX else 0) + (if c != i then cOF else 0) + (if c = 0 then cUF else 0))
    { scale := e.toNat, mants := xs.map fun v => (one v).1, conds := xs.map fun v => (one v).2 }

/-- Is a scale that of a NaN block (R110)? -/
def nanScale (nxm : Bool) (e : Nat) : Bool := e == 255 && !nxm

/-- Dequantise of R119: the exact value of a mantissa under a scale. -/
def dequant (nxm : Bool) (e : Nat) (m : Int) : Val :=
  if nanScale nxm e then .quiet else Val.ofInt m ((e : Int) - 127) false

/-! ### Lanes (R134, R135) -/

/-- Element i of elements of `w` bytes. -/
def lane (w : Nat) (v : VWord) (i : Nat) : Nat := v.toNat / 2 ^ (8 * w * i) % 2 ^ (8 * w)

/-- A v register made of elements of `w` bytes; lanes beyond the list are 0. -/
def ofLanes (w : Nat) (l : List Nat) : VWord :=
  BitVec.ofNat 1024 (l.foldr (fun x acc => x % 2 ^ (8 * w) + 2 ^ (8 * w) * acc) 0)

/-- Is element i of a type active under a mask (R135)? -/
def active (t : Nat) (k : Word) (i : Nat) : Bool := if elemSize t = 1 then bitAt k (i / 2) else bitAt k i

/-- The active elements of a type, ascending. -/
def activeLanes (t : Nat) (k : Word) : List Nat := (List.range (elemCount t)).filter (active t k)

end Sys2Proof.Machine
end

