-- ==== Sys2Proof/Syntax.lean ====
section
/-! DEFINITION. The instructions: one constructor for each row of spec/opcode_table.json, the rows
with an encoding first, each group in the table's order.

A row with an encoding carries its settle bit `sb` (bit 31, R34) and then its fields, each a bit vector of the width the
table gives it. A row without one is a step of the machine that no word encodes (spec/95_what_each_step_holds.md): the
unit that takes it, and what comes from outside the machine, stand in the field `ev` of the state. -/

namespace Sys2Proof

/-- The instructions and steps of the Darmor. The docstring of a constructor names the rule of spec/ it follows. -/
inductive Instr where
  /-- R74. Writes xa + xb modulo 2^64 to xd. -/
  | add (sb : Bool) (d a b : BitVec 5)
  /-- R74. Writes xa − xb modulo 2^64 to xd. -/
  | sub (sb : Bool) (d a b : BitVec 5)
  /-- R74. Writes xa AND xb to xd. -/
  | and (sb : Bool) (d a b : BitVec 5)
  /-- R74. Writes xa OR xb to xd. -/
  | or (sb : Bool) (d a b : BitVec 5)
  /-- R74. Writes xa XOR xb to xd. -/
  | xor (sb : Bool) (d a b : BitVec 5)
  /-- R74. Writes xa AND NOT xb to xd. -/
  | andn (sb : Bool) (d a b : BitVec 5)
  /-- R74. Writes xa OR NOT xb to xd. -/
  | orn (sb : Bool) (d a b : BitVec 5)
  /-- R75. Shifts xa left by xb[5:0], entering zeros. -/
  | sll (sb : Bool) (d a b : BitVec 5)
  /-- R75. Shifts xa right logically by xb[5:0]. -/
  | srl (sb : Bool) (d a b : BitVec 5)
  /-- R75. Shifts xa right arithmetically by xb[5:0]. -/
  | sra (sb : Bool) (d a b : BitVec 5)
  /-- R75. Rotates xa left by xb[5:0]. -/
  | rotl (sb : Bool) (d a b : BitVec 5)
  /-- R75. Rotates xa right by xb[5:0]. -/
  | rotr (sb : Bool) (d a b : BitVec 5)
  /-- R74. Writes 1 if xa is signed-less than xb, else 0. -/
  | slt (sb : Bool) (d a b : BitVec 5)
  /-- R74. Writes 1 if xa is unsigned-less than xb, else 0. -/
  | sltz (sb : Bool) (d a b : BitVec 5)
  /-- R74. Writes the signed minimum of xa and xb. -/
  | min (sb : Bool) (d a b : BitVec 5)
  /-- R74. Writes the signed maximum of xa and xb. -/
  | max (sb : Bool) (d a b : BitVec 5)
  /-- R74. Writes the unsigned minimum of xa and xb. -/
  | minz (sb : Bool) (d a b : BitVec 5)
  /-- R74. Writes the unsigned maximum of xa and xb. -/
  | maxz (sb : Bool) (d a b : BitVec 5)
  /-- R76. Writes the count of leading zero bits of xa. -/
  | clz (sb : Bool) (d a : BitVec 5)
  /-- R76. Writes the count of trailing zero bits of xa. -/
  | ctz (sb : Bool) (d a : BitVec 5)
  /-- R76. Writes the count of one bits of xa. -/
  | popc (sb : Bool) (d a : BitVec 5)
  /-- R77. Writes the low 64 bits of xa × xb. -/
  | mul (sb : Bool) (d a b : BitVec 5)
  /-- R77. Writes the high 64 bits of the signed product. -/
  | mulh (sb : Bool) (d a b : BitVec 5)
  /-- R77. Writes the high 64 bits of the unsigned product. -/
  | mulhz (sb : Bool) (d a b : BitVec 5)
  /-- R78. Starts a signed division on the core's divider; quotient delivered later. -/
  | div (sb : Bool) (d a b : BitVec 5)
  /-- R78. Starts an unsigned division on the core's divider; quotient delivered later. -/
  | divz (sb : Bool) (d a b : BitVec 5)
  /-- R78. Starts a signed remainder on the core's divider. -/
  | rem (sb : Bool) (d a b : BitVec 5)
  /-- R78. Starts an unsigned remainder on the core's divider. -/
  | remz (sb : Bool) (d a b : BitVec 5)
  /-- R79. Adds the sign-extended immediate to xa. -/
  | addi (sb : Bool) (d a : BitVec 5) (i : BitVec 15)
  /-- R79. ANDs xa with the sign-extended immediate. -/
  | andi (sb : Bool) (d a : BitVec 5) (i : BitVec 15)
  /-- R79. ORs xa with the sign-extended immediate. -/
  | ori (sb : Bool) (d a : BitVec 5) (i : BitVec 15)
  /-- R79. XORs xa with the sign-extended immediate. -/
  | xori (sb : Bool) (d a : BitVec 5) (i : BitVec 15)
  /-- R79. Writes 1 if xa is signed-less than the immediate. -/
  | slti (sb : Bool) (d a : BitVec 5) (i : BitVec 15)
  /-- R80. Shifts xa left by an immediate amount. -/
  | slli (sb : Bool) (d a : BitVec 5) (n : BitVec 6)
  /-- R80. Shifts xa right logically by an immediate amount. -/
  | srli (sb : Bool) (d a : BitVec 5) (n : BitVec 6)
  /-- R80. Shifts xa right arithmetically by an immediate amount. -/
  | srai (sb : Bool) (d a : BitVec 5) (n : BitVec 6)
  /-- R84. Writes the 20-bit immediate at bits [34:15], sign-extended. -/
  | lui (sb : Bool) (d : BitVec 5) (i : BitVec 20)
  /-- R85. Writes its own address plus four times the signed immediate. -/
  | addpc (sb : Bool) (d : BitVec 5) (i : BitVec 20)
  /-- R81. Writes xa + (xb << n). -/
  | adds (sb : Bool) (d a b n : BitVec 5)
  /-- R82. Writes xa if xc is non-zero, else xb. -/
  | sel (sb : Bool) (d a b c : BitVec 5)
  /-- R83. Extracts a zero-extended bit field from xa. -/
  | ext (sb : Bool) (d a : BitVec 5) (l p : BitVec 6)
  /-- R83. Inserts a bit field of xa into xd. -/
  | ins (sb : Bool) (d a : BitVec 5) (l p : BitVec 6)
  /-- R87. Branches when xa equals xb. -/
  | bEq (sb : Bool) (a b : BitVec 5) (o : BitVec 12)
  /-- R87. Branches when xa differs from xb. -/
  | bNe (sb : Bool) (a b : BitVec 5) (o : BitVec 12)
  /-- R87. Branches when xa is signed-less than xb. -/
  | bLt (sb : Bool) (a b : BitVec 5) (o : BitVec 12)
  /-- R87. Branches when xa is signed greater or equal to xb. -/
  | bGe (sb : Bool) (a b : BitVec 5) (o : BitVec 12)
  /-- R87. Branches when xa is unsigned-less than xb. -/
  | bLtz (sb : Bool) (a b : BitVec 5) (o : BitVec 12)
  /-- R87. Branches when xa is unsigned greater or equal to xb. -/
  | bGez (sb : Bool) (a b : BitVec 5) (o : BitVec 12)
  /-- R88. Jumps to a PC-relative target. -/
  | j (sb : Bool) (o : BitVec 25)
  /-- R88. Jumps to a PC-relative target and links in x1. -/
  | jal (sb : Bool) (o : BitVec 25)
  /-- R89. Jumps to xa + imm and writes the return address to xd. -/
  | jalr (sb : Bool) (d a : BitVec 5) (i : BitVec 15)
  /-- R97. Sets up hardware loop level N with count, start and end. -/
  | loop (sb : Bool) (n : BitVec 1) (a : BitVec 5) (i : BitVec 15)
  /-- R41. Does nothing. -/
  | nop (sb : Bool)
  /-- R100. Deactivates loop level N. -/
  | lbreak (sb : Bool) (n : BitVec 1)
  /-- R105. Writes the context's position to xd. -/
  | ident (sb : Bool) (d : BitVec 5)
  /-- R161. Loads a sign-extended value of 1 to 8 bytes. -/
  | ld (sb : Bool) (d a : BitVec 5) (z : BitVec 2) (p : BitVec 10)
  /-- R196. Loads with acquire order. -/
  | ldAcq (sb : Bool) (d a : BitVec 5) (z : BitVec 2) (p : BitVec 10)
  /-- R198. Loads sign-extended without allocating in any cache. -/
  | ldnc (sb : Bool) (d a : BitVec 5) (z : BitVec 2) (p : BitVec 10)
  /-- R161. Loads a pair of dwords into xd and xd+1. -/
  | ldp (sb : Bool) (d a : BitVec 5) (p : BitVec 10)
  /-- R196. Loads a pair of dwords with acquire order. -/
  | ldpAcq (sb : Bool) (d a : BitVec 5) (p : BitVec 10)
  /-- R161. Loads a zero-extended value of 1 to 4 bytes. -/
  | ldz (sb : Bool) (d a : BitVec 5) (z : BitVec 2) (p : BitVec 10)
  /-- R196. Loads zero-extended with acquire order. -/
  | ldzAcq (sb : Bool) (d a : BitVec 5) (z : BitVec 2) (p : BitVec 10)
  /-- R198. Loads zero-extended without allocating in any cache. -/
  | ldncZ (sb : Bool) (d a : BitVec 5) (z : BitVec 2) (p : BitVec 10)
  /-- R161. Stores 1 to 8 bytes of xd. -/
  | st (sb : Bool) (d a : BitVec 5) (z : BitVec 2) (p : BitVec 10)
  /-- R196. Stores with release order. -/
  | stRel (sb : Bool) (d a : BitVec 5) (z : BitVec 2) (p : BitVec 10)
  /-- R161. Stores the pair xd and xd+1. -/
  | stp (sb : Bool) (d a : BitVec 5) (p : BitVec 10)
  /-- R196. Stores a pair with release order. -/
  | stpRel (sb : Bool) (d a : BitVec 5) (p : BitVec 10)
  /-- R197. Waits until earlier accesses homed in the quad are performed. -/
  | fenceQuad (sb : Bool)
  /-- R197. Waits until earlier accesses homed in the quarter are performed. -/
  | fenceQuarter (sb : Bool)
  /-- R197. Waits until earlier accesses homed on the die are performed. -/
  | fenceDie (sb : Bool)
  /-- R197. Waits until earlier accesses homed on the module are performed. -/
  | fenceModule (sb : Bool)
  /-- R197. Waits until earlier accesses homed anywhere are performed. -/
  | fenceSystem (sb : Bool)
  /-- R199. Prefetches a line for reading. -/
  | pref (sb : Bool) (a : BitVec 5)
  /-- R199. Prefetches a line with ownership. -/
  | prefW (sb : Bool) (a : BitVec 5)
  /-- R200. Writes a dirty line back to its home. -/
  | cln (sb : Bool) (a : BitVec 5)
  /-- R200. Cleans and removes the die's copies of a line. -/
  | inv (sb : Bool) (a : BitVec 5)
  /-- R193. Gives a near-memory promotion hint for a block. -/
  | nhint (sb : Bool) (h : BitVec 2) (a : BitVec 5)
  /-- R165. Binds or releases a tile-table entry. -/
  | tacq (sb : Bool) (d a b : BitVec 5)
  /-- R166. Moves a tile from EMPTY to READY, as a release. -/
  | trdy (sb : Bool) (a : BitVec 5)
  /-- R166. Moves a tile from READY to DRAINING, as an acquire. -/
  | tdrain (sb : Bool) (a : BitVec 5)
  /-- R166. Moves a software-held DRAINING tile to EMPTY. -/
  | tfree (sb : Bool) (a : BitVec 5)
  /-- R170. Reports a tile entry, optionally waiting for a state. -/
  | tstat (sb : Bool) (d a : BitVec 5)
  /-- R172. Binds or releases a ring. -/
  | rset (sb : Bool) (a b : BitVec 5)
  /-- R173. Adds n full slots to a ring. -/
  | rpush (sb : Bool) (a b : BitVec 5)
  /-- R173. Removes the head slot from a ring. -/
  | rpop (sb : Bool) (a : BitVec 5)
  /-- R175. Reports a ring, optionally waiting for a condition. -/
  | rstat (sb : Bool) (d a : BitVec 5)
  /-- R274. Atomic add at the line's home. -/
  | amoAdd (sb : Bool) (d a b : BitVec 5) (o : BitVec 2) (w : BitVec 1)
  /-- R274. Atomic AND at the line's home. -/
  | amoAnd (sb : Bool) (d a b : BitVec 5) (o : BitVec 2) (w : BitVec 1)
  /-- R274. Atomic OR at the line's home. -/
  | amoOr (sb : Bool) (d a b : BitVec 5) (o : BitVec 2) (w : BitVec 1)
  /-- R274. Atomic XOR at the line's home. -/
  | amoXor (sb : Bool) (d a b : BitVec 5) (o : BitVec 2) (w : BitVec 1)
  /-- R274. Atomic signed minimum at the line's home. -/
  | amoMin (sb : Bool) (d a b : BitVec 5) (o : BitVec 2) (w : BitVec 1)
  /-- R274. Atomic signed maximum at the line's home. -/
  | amoMax (sb : Bool) (d a b : BitVec 5) (o : BitVec 2) (w : BitVec 1)
  /-- R274. Atomic unsigned minimum at the line's home. -/
  | amoMinz (sb : Bool) (d a b : BitVec 5) (o : BitVec 2) (w : BitVec 1)
  /-- R274. Atomic unsigned maximum at the line's home. -/
  | amoMaxz (sb : Bool) (d a b : BitVec 5) (o : BitVec 2) (w : BitVec 1)
  /-- R274. Atomic swap at the line's home. -/
  | amoSwap (sb : Bool) (d a b : BitVec 5) (o : BitVec 2) (w : BitVec 1)
  /-- R275. Atomic floating add at the line's home, in the carried rounding mode. -/
  | amoFadd (sb : Bool) (d a b : BitVec 5) (o : BitVec 2) (w : BitVec 1)
  /-- R276. Atomic compare and swap at the line's home. -/
  | amoCas (sb : Bool) (d a b c : BitVec 5) (o : BitVec 2) (w : BitVec 1)
  /-- R278. Adds an amount to a counter at its home. -/
  | cadd (sb : Bool) (d a b : BitVec 5)
  /-- R278. Adds to a counter as a release. -/
  | caddRel (sb : Bool) (d a b : BitVec 5)
  /-- R281. Hands out one chunk of an index range. -/
  | grab (sb : Bool) (d a b : BitVec 5)
  /-- R288. Removes an armed trigger by its handle. -/
  | disarm (sb : Bool) (d a b : BitVec 5)
  /-- R283. Arms a trigger on a counter with a threshold and a task record. -/
  | arm (sb : Bool) (d a b c : BitVec 5)
  /-- R292. Opens a transaction level and checkpoints registers. -/
  | tbegin (sb : Bool) (d : BitVec 5)
  /-- R293. Closes the innermost level, committing at level 1. -/
  | tend (sb : Bool)
  /-- R294. Ends the current branch and scans to the level's tend. -/
  | otherwise (sb : Bool)
  /-- R295. Abandons the branch, runs an alternative or sleeps on the read set. -/
  | retry (sb : Bool)
  /-- R301. Writes the transaction state word. -/
  | tstatX (sb : Bool) (d : BitVec 5)
  /-- R296. Hard-aborts the attempt with a code. -/
  | tabort (sb : Bool) (c : BitVec 8)
  /-- R310. Waits at the home for a counter to reach a value, as an acquire. -/
  | waitge (sb : Bool) (d a b : BitVec 5)
  /-- R311. Arrives at a barrier by adding 1 with release and opens the fuzzy region. -/
  | barr (sb : Bool) (d a : BitVec 5)
  /-- R312. Waits until a counter reaches a value, as an acquire. -/
  | bwait (sb : Bool) (a b : BitVec 5)
  /-- R219. Sends an active message to a core. -/
  | amsend (sb : Bool) (d a b : BitVec 5) (n : BitVec 3)
  /-- R229. Sends a reply to the source of the message being handled. -/
  | amreply (sb : Bool) (b : BitVec 5) (n : BitVec 3)
  /-- R211. Reads a task record and enqueues it on the core's run queue. -/
  | spawn (sb : Bool) (a : BitVec 5)
  /-- R231. Posts a record to a work queue. -/
  | enq (sb : Bool) (d a b : BitVec 5)
  /-- R231. Takes a record from a work queue. -/
  | deq (sb : Bool) (d a : BitVec 5)
  /-- R231. Posts a record to a host queue and signals its vector. -/
  | hostpost (sb : Bool) (d a b : BitVec 5)
  /-- R232. Writes the task's own view to xd. -/
  | taskid (sb : Bool) (d : BitVec 5)
  /-- R210. Moves the round-robin pointer past the context. -/
  | yield (sb : Bool)
  /-- R216. Ends a task or handler once its side effects are performed. -/
  | halt (sb : Bool)
  /-- R177. Ends a task and records a bank retention. -/
  | haltK (sb : Bool) (a b : BitVec 5)
  /-- R217. Frees the context and hands its side effects to the retirement tracker. -/
  | tail (sb : Bool)
  /-- R235. Reads a control register. -/
  | ctlrd (sb : Bool) (d : BitVec 5) (x : BitVec 12)
  /-- R235. Writes a control register. -/
  | ctlwr (sb : Bool) (a : BitVec 5) (x : BitVec 12)
  /-- R235. Sets bits of a control register and returns the old value. -/
  | ctlset (sb : Bool) (d a : BitVec 5) (x : BitVec 12)
  /-- R235. Clears bits of a control register and returns the old value. -/
  | ctlclr (sb : Bool) (d a : BitVec 5) (x : BitVec 12)
  /-- R323. Checks the shadow set and starts a copy operation on context n. -/
  | cpgoRead (sb : Bool) (d : BitVec 5) (n : BitVec 2)
  /-- R244. Returns from a trap to TPC and restores SYS. -/
  | eret (sb : Bool)
  /-- R104. Waits for local stores and discards the instruction buffer. -/
  | ifence (sb : Bool)
  /-- R266. Removes a page's translation from every TLB of the partition. -/
  | tlbinv (sb : Bool) (a : BitVec 5)
  /-- R267. Removes every translation of a PASID. -/
  | tlbinvAs (sb : Bool) (a : BitVec 5)
  /-- R268. Reads a performance counter. -/
  | perfrd (sb : Bool) (d a : BitVec 5)
  /-- R245. Raises the breakpoint cause. -/
  | brk (sb : Bool)
  /-- R245. Raises cause 0x0C with a code. -/
  | trap (sb : Bool) (c : BitVec 12)
  /-- R332. Fills a copy context's shadow set from a tensor shape record. -/
  | cprec (sb : Bool) (a b : BitVec 5)
  /-- R333. Invalidates the quad's record cache. -/
  | rcfence (sb : Bool)
  /-- R334. Starts a gather of table rows into the local window. -/
  | gather (sb : Bool) (d a b : BitVec 5)
  /-- R334. Starts a scatter of local rows into a table. -/
  | scatter (sb : Bool) (d a b : BitVec 5)
  /-- R331. Stops a copy context's unretired operations at the next element boundary. -/
  | cpabort (sb : Bool) (a : BitVec 5)
  /-- R329. Reads a timeline item, clearing the status word when read. -/
  | tlrd (sb : Bool) (d a : BitVec 5)
  /-- R349. Queues a load of the gang's buffer G. -/
  | mldb (sb : Bool) (a b : BitVec 5)
  /-- R350. Arrives at the gang's wired barrier for a gang operation. -/
  | mgang (sb : Bool) (d a b : BitVec 5)
  /-- R364. Makes the named key's OPEN instances DUE. -/
  | mflush (sb : Bool) (a : BitVec 5)
  /-- R365. Flushes and waits for the context's matrix work to settle. -/
  | mdrain (sb : Bool)
  /-- R363. Reads a matrix identifier's status. -/
  | mstat (sb : Bool) (d a : BitVec 5)
  /-- R364. Reports the instance a one-row member would join. -/
  | mkey (sb : Bool) (d a : BitVec 5)
  /-- R353. Submits a small matrix member to the gang's stacker. -/
  | mms (sb : Bool) (d a b c : BitVec 5)
  /-- R371. Loads a weight set from a weight record. -/
  | wset (sb : Bool) (a b : BitVec 5)
  /-- R378. Starts a restriction from the four children into the quad. -/
  | rstr (sb : Bool) (d a b : BitVec 5)
  /-- R381. Starts a folded restriction within the quad. -/
  | rstrF (sb : Bool) (d a b : BitVec 5)
  /-- R379. Starts a prolongation from the quad into its children. -/
  | prlg (sb : Bool) (d a b : BitVec 5)
  /-- R381. Starts a folded prolongation within the quad. -/
  | prlgF (sb : Bool) (d a b : BitVec 5)
  /-- R386. Reports a weight set or the transfer engine. -/
  | xstat (sb : Bool) (d a : BitVec 5)
  /-- R138. Element-wise addition. -/
  | vadd (sb : Bool) (v a b : BitVec 5) (k t : BitVec 3)
  /-- R138. Element-wise subtraction. -/
  | vsub (sb : Bool) (v a b : BitVec 5) (k t : BitVec 3)
  /-- R138. Element-wise multiplication. -/
  | vmul (sb : Bool) (v a b : BitVec 5) (k t : BitVec 3)
  /-- R138. Element-wise floating division on the vector divider. -/
  | vdiv (sb : Bool) (v a b : BitVec 5) (k : BitVec 3) (t : BitVec 2)
  /-- R138. Element-wise minimum. -/
  | vmin (sb : Bool) (v a b : BitVec 5) (k t : BitVec 3)
  /-- R138. Element-wise maximum. -/
  | vmax (sb : Bool) (v a b : BitVec 5) (k t : BitVec 3)
  /-- R138. Element-wise absolute value. -/
  | vabs (sb : Bool) (v a : BitVec 5) (k t : BitVec 3)
  /-- R138. Element-wise negation. -/
  | vneg (sb : Bool) (v a : BitVec 5) (k t : BitVec 3)
  /-- R138. Element-wise square root on the vector divider. -/
  | vsqrt (sb : Bool) (v a : BitVec 5) (k : BitVec 3) (t : BitVec 2)
  /-- R140. Element-wise correctly rounded 2^x. -/
  | vexp2 (sb : Bool) (v a : BitVec 5) (k : BitVec 3) (t : BitVec 2)
  /-- R141. Element-wise fused multiply-add into vd. -/
  | vfma (sb : Bool) (v a b : BitVec 5) (k t : BitVec 3)
  /-- R143. Pairwise-tree sum reduction. -/
  | vredsum (sb : Bool) (v a : BitVec 5) (k t : BitVec 3)
  /-- R143. Pairwise-tree maximum reduction. -/
  | vredmax (sb : Bool) (v a : BitVec 5) (k t : BitVec 3)
  /-- R143. Pairwise-tree minimum reduction. -/
  | vredmin (sb : Bool) (v a : BitVec 5) (k t : BitVec 3)
  /-- R143. Pairwise-tree dot product. -/
  | vdot (sb : Bool) (v a b : BitVec 5) (k t : BitVec 3)
  /-- R142. Element-wise bitwise AND. -/
  | vand (sb : Bool) (v a b : BitVec 5) (k : BitVec 3) (t : BitVec 2)
  /-- R142. Element-wise bitwise OR. -/
  | vor (sb : Bool) (v a b : BitVec 5) (k : BitVec 3) (t : BitVec 2)
  /-- R142. Element-wise bitwise XOR. -/
  | vxor (sb : Bool) (v a b : BitVec 5) (k : BitVec 3) (t : BitVec 2)
  /-- R142. Element-wise left shift. -/
  | vshl (sb : Bool) (v a b : BitVec 5) (k : BitVec 3) (t : BitVec 2)
  /-- R142. Element-wise arithmetic right shift. -/
  | vshr (sb : Bool) (v a b : BitVec 5) (k : BitVec 3) (t : BitVec 2)
  /-- R144. Permutes elements by indices. -/
  | vperm (sb : Bool) (v a b : BitVec 5) (k t : BitVec 3)
  /-- R144. Broadcasts an x register into elements. -/
  | vbcast (sb : Bool) (v a : BitVec 5) (k t : BitVec 3)
  /-- R144. Slides elements by an x-register amount. -/
  | vslide (sb : Bool) (v a b : BitVec 5) (k t : BitVec 3)
  /-- R144. Packs active elements to the front. -/
  | vcompress (sb : Bool) (v a : BitVec 5) (k t : BitVec 3)
  /-- R144. Spreads leading elements to active positions. -/
  | vexpand (sb : Bool) (v a : BitVec 5) (k t : BitVec 3)
  /-- R144. Selects elements from va or vb by a mask. -/
  | vsel (sb : Bool) (v a b : BitVec 5) (k t : BitVec 3)
  /-- R145. Compares elements for equality into a mask. -/
  | vcmpEq (sb : Bool) (d : BitVec 3) (a b : BitVec 5) (k t : BitVec 3)
  /-- R145. Compares elements for inequality into a mask. -/
  | vcmpNe (sb : Bool) (d : BitVec 3) (a b : BitVec 5) (k t : BitVec 3)
  /-- R145. Compares elements less-than into a mask. -/
  | vcmpLt (sb : Bool) (d : BitVec 3) (a b : BitVec 5) (k t : BitVec 3)
  /-- R145. Compares elements greater-or-equal into a mask. -/
  | vcmpGe (sb : Bool) (d : BitVec 3) (a b : BitVec 5) (k t : BitVec 3)
  /-- R145. Compares elements less-or-equal into a mask. -/
  | vcmpLe (sb : Bool) (d : BitVec 3) (a b : BitVec 5) (k t : BitVec 3)
  /-- R145. Compares elements greater-than into a mask. -/
  | vcmpGt (sb : Bool) (d : BitVec 3) (a b : BitVec 5) (k t : BitVec 3)
  /-- R146. ANDs two mask registers. -/
  | kand (sb : Bool) (d a b : BitVec 3)
  /-- R146. ORs two mask registers. -/
  | kor (sb : Bool) (d a b : BitVec 3)
  /-- R146. Inverts a mask register. -/
  | knot (sb : Bool) (d a : BitVec 3)
  /-- R146. Counts the one bits of a mask into an x register. -/
  | kpop (sb : Bool) (d : BitVec 5) (a : BitVec 3)
  /-- R147. Converts elements between IEEE and integer types. -/
  | vcvt (sb : Bool) (v a b : BitVec 5) (k t : BitVec 3)
  /-- R148. Converts IEEE elements to E4M3 or E5M2 bytes. -/
  | vcvtFp8 (sb : Bool) (v a : BitVec 5) (e : BitVec 1) (k : BitVec 3) (t : BitVec 2)
  /-- R149. Quantises elements into one Q block with its scale. -/
  | vqpack (sb : Bool) (v a q : BitVec 5) (k : BitVec 3) (t : BitVec 2)
  /-- R150. Dequantises one Q block into IEEE elements. -/
  | vqunpack (sb : Bool) (v a q : BitVec 5) (k : BitVec 3) (t : BitVec 2)
  /-- R151. Loads a contiguous vector from the local window. -/
  | vld (sb : Bool) (v a : BitVec 5) (k t : BitVec 3)
  /-- R151. Stores a contiguous vector to the local window. -/
  | vst (sb : Bool) (v a : BitVec 5) (k t : BitVec 3)
  /-- R151. Loads a strided vector. -/
  | vlds (sb : Bool) (v a b : BitVec 5) (k t : BitVec 3)
  /-- R151. Stores a strided vector. -/
  | vsts (sb : Bool) (v a b : BitVec 5) (k t : BitVec 3)
  /-- R151. Loads an indexed vector. -/
  | vldx (sb : Bool) (v a b : BitVec 5) (k t : BitVec 3)
  /-- R151. Stores an indexed vector. -/
  | vstx (sb : Bool) (v a b : BitVec 5) (k t : BitVec 3)
  /-- R154. Scalar floating addition. -/
  | fadd (sb : Bool) (d a b : BitVec 5) (f : BitVec 2)
  /-- R154. Scalar floating subtraction. -/
  | fsub (sb : Bool) (d a b : BitVec 5) (f : BitVec 2)
  /-- R154. Scalar floating multiplication. -/
  | fmul (sb : Bool) (d a b : BitVec 5) (f : BitVec 2)
  /-- R154. Scalar floating division on the core's FP divider. -/
  | fdiv (sb : Bool) (d a b : BitVec 5) (f : BitVec 2)
  /-- R154. Scalar square root on the core's FP divider. -/
  | fsqrt (sb : Bool) (d a : BitVec 5) (f : BitVec 2)
  /-- R154. Scalar minimumNumber. -/
  | fmin (sb : Bool) (d a b : BitVec 5) (f : BitVec 2)
  /-- R154. Scalar maximumNumber. -/
  | fmax (sb : Bool) (d a b : BitVec 5) (f : BitVec 2)
  /-- R154. Scalar equality comparison. -/
  | fcmpEq (sb : Bool) (d a b : BitVec 5) (f : BitVec 2)
  /-- R154. Scalar less-than comparison. -/
  | fcmpLt (sb : Bool) (d a b : BitVec 5) (f : BitVec 2)
  /-- R154. Scalar less-or-equal comparison. -/
  | fcmpLe (sb : Bool) (d a b : BitVec 5) (f : BitVec 2)
  /-- R155. Converts a scalar from a floating format to another format or integer. -/
  | fcvt (sb : Bool) (d a b : BitVec 5) (f : BitVec 2)
  /-- R155. Converts a 64-bit integer to a floating format. -/
  | fcvtInt (sb : Bool) (d a : BitVec 5) (b : BitVec 1) (f : BitVec 2)
  /-- R154. Classifies a scalar floating value. -/
  | fclass (sb : Bool) (d a : BitVec 5) (f : BitVec 2)
  /-- R154. Replaces the sign of xa with that of xb. -/
  | fsgnj (sb : Bool) (d a b : BitVec 5) (f : BitVec 2)
  /-- R156. Moves element 0 of a v register to an x register. -/
  | fmvx (sb : Bool) (d a : BitVec 5) (f : BitVec 2)
  /-- R156. Moves an x register into element 0 of a v register. -/
  | fmvf (sb : Bool) (d a : BitVec 5) (f : BitVec 2)
  /-- R157. Scalar fused multiply-add. -/
  | fma (sb : Bool) (d a b c : BitVec 5) (f : BitVec 2)
  /-- R32. An illegal word reaching issue raises the illegal-instruction trap with no effect. -/
  | illegalInstruction
  /-- R271. The home slice removes other copies and applies an atomic, counter or grab request in one step. -/
  | homeAtomicApply
  /-- R283. The home slice fires at once, places the trigger entry, or reports the table full. -/
  | homeArmApply
  /-- R288. The home slice removes the named trigger entry or reports it absent. -/
  | homeDisarmApply
  /-- R186. A write enters its line's single order at the home slice and is performed. -/
  | homeWrite
  /-- R285. Four cycles after firing, the home sends the trigger's task-kind message. -/
  | triggerMessageSend
  /-- R212. The answer to a trigger message arrives; a FAULT posts a lost-delivery record. -/
  | triggerMessageStatus
  /-- R212. After a backoff interval the home resends a refused trigger message. -/
  | triggerResend
  /-- R310. The home answers a waitge or makes a jack and tests again at each write. -/
  | homeWaitgeEval
  /-- R304. After the backoff the context issues the outermost tbegin again. -/
  | conflictBackoffExpiry
  /-- R305. The quarter's irrevocability token passes to the next waiter. -/
  | tokenGrant
  /-- R221. The destination accepts, refuses or faults an arriving message. -/
  | messageArrival
  /-- R220. The status of a message reaches the sender's xd. -/
  | amsendStatusReturn
  /-- R229. A refused reply is sent again 64 cycles later. -/
  | replyResend
  /-- R231. The descriptor's home performs an enq, deq or hostpost indivisibly. -/
  | homeQueueApply
  /-- R217. A tracker entry frees once its stores, atomics and launches are done. -/
  | retirementEntryFree
  /-- R103. Sets the quad's execute-only bound or refuses with an access fault. -/
  | xboundWrite
  /-- R327. Waits for engines, translates the base and writes current timeline values. -/
  | tlbaseWrite
  /-- R210. Stores a clamped dispatch threshold. -/
  | dispthWrite
  /-- R225. Stores a clamped request-mailbox depth. -/
  | mbdepthWrite
  /-- R99. A write of lc, ls or le changes the loop in program order and decides EBN. -/
  | loopRegisterWrite
  /-- R253. A write of TPC discards the rest of a pending replay and clears RPL. -/
  | tpcWrite
  /-- R242. After outstanding results arrive, enters the handler or kills the context. -/
  | trapEntry
  /-- R317. A queued copy, gather or scatter begins once the previous has performed its writes. -/
  | copyOperationStart
  /-- R335. An owner's network interface serves a posted sub-list of rows. -/
  | gatherSublistService
  /-- R326. An operation retires in order, sets DONE and writes its timeline word. -/
  | copyRetire
  /-- R349. A buffer-G load finishes, its identity becomes current and the completion word advances. -/
  | bufferGLoad
  /-- R356. An OPEN instance reaches its hold expiry and becomes DUE. -/
  | holdExpiry
  /-- R358. The free array chooses the highest-ranked DUE instance or completed mgang. -/
  | arraySelect
  /-- R358. An instance's stationary image finishes loading into S0 or S1. -/
  | stationaryImageRead
  /-- R360. After streaming, each member writes its rows, changes its tiles, records DONE and advances its word. -/
  | memberRetire
  /-- R382. A queued transfer begins once the previous one has performed its writes. -/
  | transferOperationStart
  /-- R383. A transfer retires, sets DONE and writes the transfer timeline word. -/
  | transferRetire
  /-- R94. A long-latency result arrives and is written to its destination register. -/
  | resultArrival
  /-- R308. A wake reaches a sleeping context, which reissues its waiting instruction. -/
  | contextWake
  /-- R206. A free context takes the highest-priority record from the run queue and starts it. -/
  | taskStart
  /-- R208. An idle handler context starts the next reply or request message. -/
  | handlerStart
  /-- R207. A record waiting 65,536 cycles at one priority is promoted one level. -/
  | recordPromotion
  /-- R213. Every 16 cycles an idle core steals from its quad siblings. -/
  | stealProbeQuad
  /-- R214. An idle core sends a probe to another quad of its layer within its quarter. -/
  | stealProbeLayer
  /-- R214. A cross-quad probe returns, possibly with a portable stealable record. -/
  | stealProbeReply
  /-- R259. A TLB miss walk reads entries level by level and fills the TLB or faults. -/
  | pageWalk
  /-- R192. The hardware promotes a 64 KiB block into the promotion area. -/
  | blockPromotion
  /-- R192. The hardware evicts a promoted block, writing it back if dirty. -/
  | blockEviction
  /-- R176. A first access to a powered-down bank powers it up after 1 µs, reading as zero. -/
  | bankPowerUp
  /-- R247. A partition timer period expires and raises cause 0x12 in every task context. -/
  | timerExpiry
  /-- R250. The last context of a pre-empted partition halts once its side effects are accepted. -/
  | partitionHalted
  /-- R396. After accepted side effects are performed, the partition is reported stopped. -/
  | preemptReport
  /-- R399. A host CXL.mem access enters at the hub and is ordered at the line's home. -/
  | hostMemoryAccess
  /-- R189. A host CXL.cache snoop reaches the remote-data caches and their L1 copies. -/
  | hostSnoop
  /-- R401. Writes the module number and domain, or sets LOCK. -/
  | modidWrite
  /-- R403. The host reports the count of entries placed in a queue. -/
  | doorbell
  /-- R410. The host answers a translation record RESUME. -/
  | fqansResume
  /-- R410. The host answers a translation record DECLINE. -/
  | fqansDecline
  /-- R410. The host answers a translation record KILL. -/
  | fqansKill
  /-- R410. Places the fault queue, releasing waiting records into it. -/
  | fqctlWrite
  /-- R404. Enables queue 0 if its placement is valid and stores 0 to its completion word. -/
  | aqctlEnable
  /-- R404. Stops fetching on queue 0 and clears EN after fetched entries complete. -/
  | aqctlDisable
  /-- R400. Writes a host register that has no behaviour of its own. -/
  | hostRegisterWrite
  /-- R412. Unmasking a vector with a pending bit sends one interrupt. -/
  | vectorUnmask
  /-- R412. A vector's coalescing timer reaches TIME and the interrupt is sent. -/
  | coalesceTimerExpiry
  /-- R402. The event queue hands the oldest event to an idle firmware core. -/
  | cpEventDispatch
  /-- R403. The command processor fetches a covered queue entry as a SYSTEM acquire. -/
  | entryFetch
  /-- R407. Reads and checks a launch record, places images, sets XBOUND and seeds records. -/
  | launch
  /-- R209. A drain event resumes a paused placement of records. -/
  | launchPlacementResume
  /-- R407. A target quad becoming free resumes a parked launch's image placement. -/
  | launchQuadFree
  /-- R397. When tasks, tracker entries and timelines are done, the status and completion value are stored. -/
  | launchComplete
  /-- R405. A marker entry does nothing else and completes. -/
  | marker
  /-- R409. Forms a partition from free present quarters. -/
  | form
  /-- R409. Kills every context, clears the quarters and removes the partition's triggers. -/
  | dissolve
  /-- R248. Stops every context of the partition at an instruction boundary. -/
  | preempt
  /-- R252. Resumes a pre-empted partition, replaying each context's window. -/
  | resume
  /-- R255. Pre-empts, stops engines, saves the partition image and clears the quarters. -/
  | switchOut
  /-- R257. Restores a partition to its quarters and resumes it. -/
  | switchIn
  /-- R409. Sets a PASID's root node and table-node homing for a partition. -/
  | setPasid
  /-- R411. Stops queues, kills contexts, aborts engines, removes triggers and invalidates a PASID. -/
  | teardown
  /-- R411. Teardown completes at the last outstanding response or after 2 ms. -/
  | teardownComplete
  /-- R409. Binds and enables a submission queue and stores 0 to its completion word. -/
  | bindQueue
  /-- R409. Sets a partition's timer period. -/
  | setTimer
  /-- R409. Sets the bank release mask for a layer of a partition. -/
  | setRelease
  /-- R409. Joins a partition to remote quarters for message permission. -/
  | join
  /-- R410. The command processor writes a fault record to the fault queue and signals its vector. -/
  | faultRecordPost
  /-- R421. Every 500 ns every rail current is sampled. -/
  | railSample
  /-- R420. Every 10 µs the budget tree redivides power and sets FDUTY and PCAPCAUSE. -/
  | budgetRedivision
  /-- R424. The sequencer completes one voltage or clock step toward the target point. -/
  | operatingPointStep
  /-- R417. Jidjasol accepts, ignores or discards a multicast cap message. -/
  | capMessage
  /-- R418. The lease of the message in force expires and the safe cap applies. -/
  | capLeaseExpiry
  /-- R415. System management sets a partition's cap through Jidjasol. -/
  | setPartitionCap
  /-- R415. System management sets the module cap through Jidjasol. -/
  | setModuleCap
  /-- R415. System management sets a partition's shedding rank. -/
  | setPartitionRank
  /-- R418. System management configures SAFECAP and SAFERANK. -/
  | setSafeCap
  /-- R426. Patrol scrubbing reads every SRAM and DRAM word once per 24 hours. -/
  | patrolScrub
  /-- R428. Jidjasol judges a quarter failed and posts a unit-failure record. -/
  | quarterFailure
  /-- R430. Enables recording for a pre-empted partition from a switch-out image. -/
  | recordModeEnable
  /-- R431. Restores the starting image and enforces every logged order. -/
  | replay
  /-- R413. The boot ROM measures and verifies both firmware images and activates a staged update. -/
  | reset
  /-- R413. Stages and verifies a firmware image for activation at the next reset. -/
  | firmwareUpdate
  /-- R414. The DOE mailbox's SPDM responder answers a request. -/
  | spdmRequest
  /-- R188. A line is evicted from an L1 or remote-data cache, invalidating the L1 copies it covers, so that a later plain load of a PC = 1 line reads the home. -/
  | cacheLineEviction
deriving DecidableEq, Repr

end Sys2Proof
end

