-- ==== Sys2Proof/WellFormed.lean ====
section
/-! DEFINITION. What makes an instruction well formed: the operand values that the opcode tables limit (R31, fourth point).

Field widths do the rest. A step without an encoding is always well formed: what it may do is said where it is given its
meaning. -/

namespace Sys2Proof

/-- The four go registers, which only a read reaches (R36 GO, R38). Its read has a row of its own. -/
def isGoIndex (x : BitVec 12) : Bool := x == 0x08F || x == 0x0AF || x == 0x0CF || x == 0x0EF

/-- Is every operand in the range its table gives it? The checks are: the all-zero word (R31); pos + len at most 64 and
the loop count and register of R40 and R41; even pair registers and the sizes of R42; source and destination types of R51
and R52, and those that R158 calls illegal. -/
def Instr.wellFormed : Instr → Bool
  | .add sb d a b => sb || d != 0 || a != 0 || b != 0
  | .ext _ _ _ l p => decide (p.toNat + l.toNat + 1 ≤ 64)
  | .ins _ _ _ l p => decide (p.toNat + l.toNat + 1 ≤ 64)
  | .loop _ _ _ i => i != 0 && !i.msb
  | .ldp _ d _ _ => !d.getLsbD 0
  | .ldpAcq _ d _ _ => !d.getLsbD 0
  | .ldz _ _ _ z _ => z != 3
  | .ldzAcq _ _ _ z _ => z != 3
  | .ldncZ _ _ _ z _ => z != 3
  | .stp _ d _ _ => !d.getLsbD 0
  | .stpRel _ d _ _ => !d.getLsbD 0
  | .ctlrd _ _ x => !isGoIndex x
  | .vcvt _ _ _ b _ t => decide (b.toNat ≤ 9) && decide (b.toNat ≠ t.toNat) && !decide (4 ≤ b.toNat ∧ b.toNat ≤ 7 ∧ 4 ≤ t.toNat)
  | .vqpack _ _ _ q _ _ => decide (10 ≤ q.toNat ∧ q.toNat ≤ 12)
  | .vqunpack _ _ _ q _ _ => decide (10 ≤ q.toNat ∧ q.toNat ≤ 12)
  | .fadd _ _ _ _ f => f != 3
  | .fsub _ _ _ _ f => f != 3
  | .fmul _ _ _ _ f => f != 3
  | .fdiv _ _ _ _ f => f != 3
  | .fsqrt _ _ _ f => f != 3
  | .fmin _ _ _ _ f => f != 3
  | .fmax _ _ _ _ f => f != 3
  | .fcmpEq _ _ _ _ f => f != 3
  | .fcmpLt _ _ _ _ f => f != 3
  | .fcmpLe _ _ _ _ f => f != 3
  | .fcvt _ _ _ b f => f != 3 && decide (b.toNat ∈ [0, 1, 2, 4, 5]) && decide (b.toNat ≠ f.toNat)
  | .fcvtInt _ _ _ _ f => f != 3
  | .fclass _ _ _ f => f != 3
  | .fsgnj _ _ _ _ f => f != 3
  | .fmvx _ _ _ f => f != 3
  | .fmvf _ _ _ f => f != 3
  | .fma _ _ _ _ _ f => f != 3
  | .sub _ _ _ _ => true
  | .and _ _ _ _ => true
  | .or _ _ _ _ => true
  | .xor _ _ _ _ => true
  | .andn _ _ _ _ => true
  | .orn _ _ _ _ => true
  | .sll _ _ _ _ => true
  | .srl _ _ _ _ => true
  | .sra _ _ _ _ => true
  | .rotl _ _ _ _ => true
  | .rotr _ _ _ _ => true
  | .slt _ _ _ _ => true
  | .sltz _ _ _ _ => true
  | .min _ _ _ _ => true
  | .max _ _ _ _ => true
  | .minz _ _ _ _ => true
  | .maxz _ _ _ _ => true
  | .clz _ _ _ => true
  | .ctz _ _ _ => true
  | .popc _ _ _ => true
  | .mul _ _ _ _ => true
  | .mulh _ _ _ _ => true
  | .mulhz _ _ _ _ => true
  | .div _ _ _ _ => true
  | .divz _ _ _ _ => true
  | .rem _ _ _ _ => true
  | .remz _ _ _ _ => true
  | .addi _ _ _ _ => true
  | .andi _ _ _ _ => true
  | .ori _ _ _ _ => true
  | .xori _ _ _ _ => true
  | .slti _ _ _ _ => true
  | .slli _ _ _ _ => true
  | .srli _ _ _ _ => true
  | .srai _ _ _ _ => true
  | .lui _ _ _ => true
  | .addpc _ _ _ => true
  | .adds _ _ _ _ _ => true
  | .sel _ _ _ _ _ => true
  | .bEq _ _ _ _ => true
  | .bNe _ _ _ _ => true
  | .bLt _ _ _ _ => true
  | .bGe _ _ _ _ => true
  | .bLtz _ _ _ _ => true
  | .bGez _ _ _ _ => true
  | .j _ _ => true
  | .jal _ _ => true
  | .jalr _ _ _ _ => true
  | .nop _ => true
  | .lbreak _ _ => true
  | .ident _ _ => true
  | .ld _ _ _ _ _ => true
  | .ldAcq _ _ _ _ _ => true
  | .ldnc _ _ _ _ _ => true
  | .st _ _ _ _ _ => true
  | .stRel _ _ _ _ _ => true
  | .fenceQuad _ => true
  | .fenceQuarter _ => true
  | .fenceDie _ => true
  | .fenceModule _ => true
  | .fenceSystem _ => true
  | .pref _ _ => true
  | .prefW _ _ => true
  | .cln _ _ => true
  | .inv _ _ => true
  | .nhint _ _ _ => true
  | .tacq _ _ _ _ => true
  | .trdy _ _ => true
  | .tdrain _ _ => true
  | .tfree _ _ => true
  | .tstat _ _ _ => true
  | .rset _ _ _ => true
  | .rpush _ _ _ => true
  | .rpop _ _ => true
  | .rstat _ _ _ => true
  | .amoAdd _ _ _ _ _ _ => true
  | .amoAnd _ _ _ _ _ _ => true
  | .amoOr _ _ _ _ _ _ => true
  | .amoXor _ _ _ _ _ _ => true
  | .amoMin _ _ _ _ _ _ => true
  | .amoMax _ _ _ _ _ _ => true
  | .amoMinz _ _ _ _ _ _ => true
  | .amoMaxz _ _ _ _ _ _ => true
  | .amoSwap _ _ _ _ _ _ => true
  | .amoFadd _ _ _ _ _ _ => true
  | .amoCas _ _ _ _ _ _ _ => true
  | .cadd _ _ _ _ => true
  | .caddRel _ _ _ _ => true
  | .grab _ _ _ _ => true
  | .disarm _ _ _ _ => true
  | .arm _ _ _ _ _ => true
  | .tbegin _ _ => true
  | .tend _ => true
  | .otherwise _ => true
  | .retry _ => true
  | .tstatX _ _ => true
  | .tabort _ _ => true
  | .waitge _ _ _ _ => true
  | .barr _ _ _ => true
  | .bwait _ _ _ => true
  | .amsend _ _ _ _ _ => true
  | .amreply _ _ _ => true
  | .spawn _ _ => true
  | .enq _ _ _ _ => true
  | .deq _ _ _ => true
  | .hostpost _ _ _ _ => true
  | .taskid _ _ => true
  | .yield _ => true
  | .halt _ => true
  | .haltK _ _ _ => true
  | .tail _ => true
  | .ctlwr _ _ _ => true
  | .ctlset _ _ _ _ => true
  | .ctlclr _ _ _ _ => true
  | .cpgoRead _ _ _ => true
  | .eret _ => true
  | .ifence _ => true
  | .tlbinv _ _ => true
  | .tlbinvAs _ _ => true
  | .perfrd _ _ _ => true
  | .brk _ => true
  | .trap _ _ => true
  | .cprec _ _ _ => true
  | .rcfence _ => true
  | .gather _ _ _ _ => true
  | .scatter _ _ _ _ => true
  | .cpabort _ _ => true
  | .tlrd _ _ _ => true
  | .mldb _ _ _ => true
  | .mgang _ _ _ _ => true
  | .mflush _ _ => true
  | .mdrain _ => true
  | .mstat _ _ _ => true
  | .mkey _ _ _ => true
  | .mms _ _ _ _ _ => true
  | .wset _ _ _ => true
  | .rstr _ _ _ _ => true
  | .rstrF _ _ _ _ => true
  | .prlg _ _ _ _ => true
  | .prlgF _ _ _ _ => true
  | .xstat _ _ _ => true
  | .vadd _ _ _ _ _ _ => true
  | .vsub _ _ _ _ _ _ => true
  | .vmul _ _ _ _ _ _ => true
  | .vdiv _ _ _ _ _ _ => true
  | .vmin _ _ _ _ _ _ => true
  | .vmax _ _ _ _ _ _ => true
  | .vabs _ _ _ _ _ => true
  | .vneg _ _ _ _ _ => true
  | .vsqrt _ _ _ _ _ => true
  | .vexp2 _ _ _ _ _ => true
  | .vfma _ _ _ _ _ _ => true
  | .vredsum _ _ _ _ _ => true
  | .vredmax _ _ _ _ _ => true
  | .vredmin _ _ _ _ _ => true
  | .vdot _ _ _ _ _ _ => true
  | .vand _ _ _ _ _ _ => true
  | .vor _ _ _ _ _ _ => true
  | .vxor _ _ _ _ _ _ => true
  | .vshl _ _ _ _ _ _ => true
  | .vshr _ _ _ _ _ _ => true
  | .vperm _ _ _ _ _ _ => true
  | .vbcast _ _ _ _ _ => true
  | .vslide _ _ _ _ _ _ => true
  | .vcompress _ _ _ _ t => t != 7
  | .vexpand _ _ _ _ t => t != 7
  | .vsel _ _ _ _ _ _ => true
  | .vcmpEq _ _ _ _ _ t => t != 7
  | .vcmpNe _ _ _ _ _ t => t != 7
  | .vcmpLt _ _ _ _ _ t => t != 7
  | .vcmpGe _ _ _ _ _ t => t != 7
  | .vcmpLe _ _ _ _ _ t => t != 7
  | .vcmpGt _ _ _ _ _ t => t != 7
  | .kand _ _ _ _ => true
  | .kor _ _ _ _ => true
  | .knot _ _ _ => true
  | .kpop _ _ _ => true
  | .vcvtFp8 _ _ _ _ _ _ => true
  | .vld _ _ _ _ _ => true
  | .vst _ _ _ _ _ => true
  | .vlds _ _ _ _ _ _ => true
  | .vsts _ _ _ _ _ _ => true
  | .vldx _ _ _ _ _ _ => true
  | .vstx _ _ _ _ _ _ => true
  | .illegalInstruction => true
  | .homeAtomicApply => true
  | .homeArmApply => true
  | .homeDisarmApply => true
  | .homeWrite => true
  | .triggerMessageSend => true
  | .triggerMessageStatus => true
  | .triggerResend => true
  | .homeWaitgeEval => true
  | .conflictBackoffExpiry => true
  | .tokenGrant => true
  | .messageArrival => true
  | .amsendStatusReturn => true
  | .replyResend => true
  | .homeQueueApply => true
  | .retirementEntryFree => true
  | .xboundWrite => true
  | .tlbaseWrite => true
  | .dispthWrite => true
  | .mbdepthWrite => true
  | .loopRegisterWrite => true
  | .tpcWrite => true
  | .trapEntry => true
  | .copyOperationStart => true
  | .gatherSublistService => true
  | .copyRetire => true
  | .bufferGLoad => true
  | .holdExpiry => true
  | .arraySelect => true
  | .stationaryImageRead => true
  | .memberRetire => true
  | .transferOperationStart => true
  | .transferRetire => true
  | .resultArrival => true
  | .contextWake => true
  | .taskStart => true
  | .handlerStart => true
  | .recordPromotion => true
  | .stealProbeQuad => true
  | .stealProbeLayer => true
  | .stealProbeReply => true
  | .pageWalk => true
  | .blockPromotion => true
  | .blockEviction => true
  | .bankPowerUp => true
  | .timerExpiry => true
  | .partitionHalted => true
  | .preemptReport => true
  | .hostMemoryAccess => true
  | .hostSnoop => true
  | .modidWrite => true
  | .doorbell => true
  | .fqansResume => true
  | .fqansDecline => true
  | .fqansKill => true
  | .fqctlWrite => true
  | .aqctlEnable => true
  | .aqctlDisable => true
  | .hostRegisterWrite => true
  | .vectorUnmask => true
  | .coalesceTimerExpiry => true
  | .cpEventDispatch => true
  | .entryFetch => true
  | .launch => true
  | .launchPlacementResume => true
  | .launchQuadFree => true
  | .launchComplete => true
  | .marker => true
  | .form => true
  | .dissolve => true
  | .preempt => true
  | .resume => true
  | .switchOut => true
  | .switchIn => true
  | .setPasid => true
  | .teardown => true
  | .teardownComplete => true
  | .bindQueue => true
  | .setTimer => true
  | .setRelease => true
  | .join => true
  | .faultRecordPost => true
  | .railSample => true
  | .budgetRedivision => true
  | .operatingPointStep => true
  | .capMessage => true
  | .capLeaseExpiry => true
  | .setPartitionCap => true
  | .setModuleCap => true
  | .setPartitionRank => true
  | .setSafeCap => true
  | .patrolScrub => true
  | .quarterFailure => true
  | .recordModeEnable => true
  | .replay => true
  | .reset => true
  | .firmwareUpdate => true
  | .spdmRequest => true
  | .cacheLineEviction => true

end Sys2Proof
end

