-- ==== Sys2Proof/Decode.lean ====
section
/-! DEFINITION. Instruction words: the decoder, total on all 32-bit words and rejecting by name, and after it the encoder.

Both follow the opcode map of 02_words (R27 to R52) and R31: bit 31 is the settle bit, bits [30:25] the major opcode, and
the major opcode alone fixes where the fields of bits [24:0] (the body `b`) lie. -/

namespace Sys2Proof

/-- Why a word is illegal (R31). -/
inductive DecodeError where
  /-- The all-zero word. -/
  | zeroWord
  /-- A major opcode the map of R39 leaves unassigned. -/
  | unassignedMajor
  /-- A function code, condition, size, order or type that the tables do not assign. -/
  | unassignedCode
  /-- A non-zero value in a field the instruction does not use, or one the tables mark zero. -/
  | unusedNotZero
  /-- A value out of the range the tables give a field. -/
  | reservedOperand
deriving DecidableEq, Repr

/-- What the decoder answers: the instruction a word stands for, or why the word is illegal. -/
inductive Decoded where
  | ok (i : Instr)
  | illegal (e : DecodeError)
deriving DecidableEq, Repr

/-- A decoded instruction, or the refusal of an operand value that R31's fourth point makes illegal. -/
def checked (i : Instr) : Decoded :=
  if i.wellFormed then .ok i else .illegal .reservedOperand

/-- Major 0x00, integer ALU (R40). -/
def decodeAlu (sb : Bool) (b : BitVec 25) : Decoded :=
  match b.extractLsb' 0 10 with
  | 0x0#10 => checked (.add sb (b.extractLsb' 20 5) (b.extractLsb' 15 5) (b.extractLsb' 10 5))
  | 0x1#10 => checked (.sub sb (b.extractLsb' 20 5) (b.extractLsb' 15 5) (b.extractLsb' 10 5))
  | 0x2#10 => checked (.and sb (b.extractLsb' 20 5) (b.extractLsb' 15 5) (b.extractLsb' 10 5))
  | 0x3#10 => checked (.or sb (b.extractLsb' 20 5) (b.extractLsb' 15 5) (b.extractLsb' 10 5))
  | 0x4#10 => checked (.xor sb (b.extractLsb' 20 5) (b.extractLsb' 15 5) (b.extractLsb' 10 5))
  | 0x5#10 => checked (.andn sb (b.extractLsb' 20 5) (b.extractLsb' 15 5) (b.extractLsb' 10 5))
  | 0x6#10 => checked (.orn sb (b.extractLsb' 20 5) (b.extractLsb' 15 5) (b.extractLsb' 10 5))
  | 0x8#10 => checked (.sll sb (b.extractLsb' 20 5) (b.extractLsb' 15 5) (b.extractLsb' 10 5))
  | 0x9#10 => checked (.srl sb (b.extractLsb' 20 5) (b.extractLsb' 15 5) (b.extractLsb' 10 5))
  | 0xA#10 => checked (.sra sb (b.extractLsb' 20 5) (b.extractLsb' 15 5) (b.extractLsb' 10 5))
  | 0xB#10 => checked (.rotl sb (b.extractLsb' 20 5) (b.extractLsb' 15 5) (b.extractLsb' 10 5))
  | 0xC#10 => checked (.rotr sb (b.extractLsb' 20 5) (b.extractLsb' 15 5) (b.extractLsb' 10 5))
  | 0x10#10 => checked (.slt sb (b.extractLsb' 20 5) (b.extractLsb' 15 5) (b.extractLsb' 10 5))
  | 0x11#10 => checked (.sltz sb (b.extractLsb' 20 5) (b.extractLsb' 15 5) (b.extractLsb' 10 5))
  | 0x12#10 => checked (.min sb (b.extractLsb' 20 5) (b.extractLsb' 15 5) (b.extractLsb' 10 5))
  | 0x13#10 => checked (.max sb (b.extractLsb' 20 5) (b.extractLsb' 15 5) (b.extractLsb' 10 5))
  | 0x14#10 => checked (.minz sb (b.extractLsb' 20 5) (b.extractLsb' 15 5) (b.extractLsb' 10 5))
  | 0x15#10 => checked (.maxz sb (b.extractLsb' 20 5) (b.extractLsb' 15 5) (b.extractLsb' 10 5))
  | 0x18#10 =>
    if b.extractLsb' 10 5 = 0 then checked (.clz sb (b.extractLsb' 20 5) (b.extractLsb' 15 5)) else .illegal .unusedNotZero
  | 0x19#10 =>
    if b.extractLsb' 10 5 = 0 then checked (.ctz sb (b.extractLsb' 20 5) (b.extractLsb' 15 5)) else .illegal .unusedNotZero
  | 0x1A#10 =>
    if b.extractLsb' 10 5 = 0 then checked (.popc sb (b.extractLsb' 20 5) (b.extractLsb' 15 5)) else .illegal .unusedNotZero
  | 0x20#10 => checked (.mul sb (b.extractLsb' 20 5) (b.extractLsb' 15 5) (b.extractLsb' 10 5))
  | 0x21#10 => checked (.mulh sb (b.extractLsb' 20 5) (b.extractLsb' 15 5) (b.extractLsb' 10 5))
  | 0x22#10 => checked (.mulhz sb (b.extractLsb' 20 5) (b.extractLsb' 15 5) (b.extractLsb' 10 5))
  | 0x24#10 => checked (.div sb (b.extractLsb' 20 5) (b.extractLsb' 15 5) (b.extractLsb' 10 5))
  | 0x25#10 => checked (.divz sb (b.extractLsb' 20 5) (b.extractLsb' 15 5) (b.extractLsb' 10 5))
  | 0x26#10 => checked (.rem sb (b.extractLsb' 20 5) (b.extractLsb' 15 5) (b.extractLsb' 10 5))
  | 0x27#10 => checked (.remz sb (b.extractLsb' 20 5) (b.extractLsb' 15 5) (b.extractLsb' 10 5))
  | _ => .illegal .unassignedCode

/-- Major 0x06, shift immediate (R40). -/
def decodeShiftImm (sb : Bool) (b : BitVec 25) : Decoded :=
  match b.extractLsb' 12 3 with
  | 0x0#3 =>
    if b.extractLsb' 6 6 = 0 then
      checked (.slli sb (b.extractLsb' 20 5) (b.extractLsb' 15 5) (b.extractLsb' 0 6))
    else .illegal .unusedNotZero
  | 0x1#3 =>
    if b.extractLsb' 6 6 = 0 then
      checked (.srli sb (b.extractLsb' 20 5) (b.extractLsb' 15 5) (b.extractLsb' 0 6))
    else .illegal .unusedNotZero
  | 0x2#3 =>
    if b.extractLsb' 6 6 = 0 then
      checked (.srai sb (b.extractLsb' 20 5) (b.extractLsb' 15 5) (b.extractLsb' 0 6))
    else .illegal .unusedNotZero
  | _ => .illegal .unassignedCode

/-- Major 0x10, branches (R41). -/
def decodeBranch (sb : Bool) (b : BitVec 25) : Decoded :=
  match b.extractLsb' 12 3 with
  | 0x0#3 => checked (.bEq sb (b.extractLsb' 20 5) (b.extractLsb' 15 5) (b.extractLsb' 0 12))
  | 0x1#3 => checked (.bNe sb (b.extractLsb' 20 5) (b.extractLsb' 15 5) (b.extractLsb' 0 12))
  | 0x2#3 => checked (.bLt sb (b.extractLsb' 20 5) (b.extractLsb' 15 5) (b.extractLsb' 0 12))
  | 0x3#3 => checked (.bGe sb (b.extractLsb' 20 5) (b.extractLsb' 15 5) (b.extractLsb' 0 12))
  | 0x4#3 => checked (.bLtz sb (b.extractLsb' 20 5) (b.extractLsb' 15 5) (b.extractLsb' 0 12))
  | 0x5#3 => checked (.bGez sb (b.extractLsb' 20 5) (b.extractLsb' 15 5) (b.extractLsb' 0 12))
  | _ => .illegal .unassignedCode

/-- Major 0x15, control misc (R41). -/
def decodeControlMisc (sb : Bool) (b : BitVec 25) : Decoded :=
  match b.extractLsb' 0 10 with
  | 0x0#10 =>
    if b.extractLsb' 20 5 = 0 ∧ b.extractLsb' 15 5 = 0 ∧ b.extractLsb' 10 5 = 0 then checked (.nop sb) else .illegal .unusedNotZero
  | 0x1#10 =>
    if b.extractLsb' 21 4 = 0 ∧ b.extractLsb' 15 5 = 0 ∧ b.extractLsb' 10 5 = 0 then
      checked (.lbreak sb (b.extractLsb' 20 1))
    else .illegal .unusedNotZero
  | 0x2#10 =>
    if b.extractLsb' 15 5 = 0 ∧ b.extractLsb' 10 5 = 0 then checked (.ident sb (b.extractLsb' 20 5)) else .illegal .unusedNotZero
  | _ => .illegal .unassignedCode

/-- Major 0x16, ld (R42). -/
def decodeLd (sb : Bool) (b : BitVec 25) : Decoded :=
  match b.extractLsb' 10 2 with
  | 0#2 =>
    if b.extractLsb' 14 1 = 0 then checked (.ld sb (b.extractLsb' 20 5) (b.extractLsb' 15 5) (b.extractLsb' 12 2) (b.extractLsb' 0 10))
    else if b.extractLsb' 12 3 = 4 then checked (.ldp sb (b.extractLsb' 20 5) (b.extractLsb' 15 5) (b.extractLsb' 0 10))
    else .illegal .unassignedCode
  | 1#2 =>
    if b.extractLsb' 14 1 = 0 then checked (.ldAcq sb (b.extractLsb' 20 5) (b.extractLsb' 15 5) (b.extractLsb' 12 2) (b.extractLsb' 0 10))
    else if b.extractLsb' 12 3 = 4 then checked (.ldpAcq sb (b.extractLsb' 20 5) (b.extractLsb' 15 5) (b.extractLsb' 0 10))
    else .illegal .unassignedCode
  | 3#2 =>
    if b.extractLsb' 14 1 = 0 then checked (.ldnc sb (b.extractLsb' 20 5) (b.extractLsb' 15 5) (b.extractLsb' 12 2) (b.extractLsb' 0 10))
    else .illegal .unassignedCode
  | _ => .illegal .unassignedCode

/-- Major 0x17, ldz (R42). -/
def decodeLdz (sb : Bool) (b : BitVec 25) : Decoded :=
  match b.extractLsb' 10 2 with
  | 0#2 =>
    if b.extractLsb' 14 1 = 0 then checked (.ldz sb (b.extractLsb' 20 5) (b.extractLsb' 15 5) (b.extractLsb' 12 2) (b.extractLsb' 0 10))
    else .illegal .unassignedCode
  | 1#2 =>
    if b.extractLsb' 14 1 = 0 then checked (.ldzAcq sb (b.extractLsb' 20 5) (b.extractLsb' 15 5) (b.extractLsb' 12 2) (b.extractLsb' 0 10))
    else .illegal .unassignedCode
  | 3#2 =>
    if b.extractLsb' 14 1 = 0 then checked (.ldncZ sb (b.extractLsb' 20 5) (b.extractLsb' 15 5) (b.extractLsb' 12 2) (b.extractLsb' 0 10))
    else .illegal .unassignedCode
  | _ => .illegal .unassignedCode

/-- Major 0x18, st (R42). -/
def decodeSt (sb : Bool) (b : BitVec 25) : Decoded :=
  match b.extractLsb' 10 2 with
  | 0#2 =>
    if b.extractLsb' 14 1 = 0 then checked (.st sb (b.extractLsb' 20 5) (b.extractLsb' 15 5) (b.extractLsb' 12 2) (b.extractLsb' 0 10))
    else if b.extractLsb' 12 3 = 4 then checked (.stp sb (b.extractLsb' 20 5) (b.extractLsb' 15 5) (b.extractLsb' 0 10))
    else .illegal .unassignedCode
  | 2#2 =>
    if b.extractLsb' 14 1 = 0 then checked (.stRel sb (b.extractLsb' 20 5) (b.extractLsb' 15 5) (b.extractLsb' 12 2) (b.extractLsb' 0 10))
    else if b.extractLsb' 12 3 = 4 then checked (.stpRel sb (b.extractLsb' 20 5) (b.extractLsb' 15 5) (b.extractLsb' 0 10))
    else .illegal .unassignedCode
  | _ => .illegal .unassignedCode

/-- Major 0x19, memory order and maintenance (R42). -/
def decodeMemOrder (sb : Bool) (b : BitVec 25) : Decoded :=
  match b.extractLsb' 0 10 with
  | 0x0#10 =>
    if b.extractLsb' 20 5 = 0 ∧ b.extractLsb' 15 5 = 0 ∧ b.extractLsb' 10 5 = 0 then
      checked (.fenceQuad sb)
    else .illegal .unusedNotZero
  | 0x1#10 =>
    if b.extractLsb' 20 5 = 0 ∧ b.extractLsb' 15 5 = 0 ∧ b.extractLsb' 10 5 = 0 then
      checked (.fenceQuarter sb)
    else .illegal .unusedNotZero
  | 0x2#10 =>
    if b.extractLsb' 20 5 = 0 ∧ b.extractLsb' 15 5 = 0 ∧ b.extractLsb' 10 5 = 0 then
      checked (.fenceDie sb)
    else .illegal .unusedNotZero
  | 0x3#10 =>
    if b.extractLsb' 20 5 = 0 ∧ b.extractLsb' 15 5 = 0 ∧ b.extractLsb' 10 5 = 0 then
      checked (.fenceModule sb)
    else .illegal .unusedNotZero
  | 0x4#10 =>
    if b.extractLsb' 20 5 = 0 ∧ b.extractLsb' 15 5 = 0 ∧ b.extractLsb' 10 5 = 0 then
      checked (.fenceSystem sb)
    else .illegal .unusedNotZero
  | 0x10#10 =>
    if b.extractLsb' 20 5 = 0 ∧ b.extractLsb' 10 5 = 0 then checked (.pref sb (b.extractLsb' 15 5)) else .illegal .unusedNotZero
  | 0x11#10 =>
    if b.extractLsb' 20 5 = 0 ∧ b.extractLsb' 10 5 = 0 then checked (.prefW sb (b.extractLsb' 15 5)) else .illegal .unusedNotZero
  | 0x18#10 =>
    if b.extractLsb' 20 5 = 0 ∧ b.extractLsb' 10 5 = 0 then checked (.cln sb (b.extractLsb' 15 5)) else .illegal .unusedNotZero
  | 0x19#10 =>
    if b.extractLsb' 20 5 = 0 ∧ b.extractLsb' 10 5 = 0 then checked (.inv sb (b.extractLsb' 15 5)) else .illegal .unusedNotZero
  | 0x20#10 =>
    if b.extractLsb' 22 3 = 0 ∧ b.extractLsb' 10 5 = 0 then
      checked (.nhint sb (b.extractLsb' 20 2) (b.extractLsb' 15 5))
    else .illegal .unusedNotZero
  | _ => .illegal .unassignedCode

/-- Major 0x1A, tiles (R42). -/
def decodeTiles (sb : Bool) (b : BitVec 25) : Decoded :=
  match b.extractLsb' 0 10 with
  | 0x0#10 => checked (.tacq sb (b.extractLsb' 20 5) (b.extractLsb' 15 5) (b.extractLsb' 10 5))
  | 0x1#10 =>
    if b.extractLsb' 20 5 = 0 ∧ b.extractLsb' 10 5 = 0 then checked (.trdy sb (b.extractLsb' 15 5)) else .illegal .unusedNotZero
  | 0x2#10 =>
    if b.extractLsb' 20 5 = 0 ∧ b.extractLsb' 10 5 = 0 then checked (.tdrain sb (b.extractLsb' 15 5)) else .illegal .unusedNotZero
  | 0x3#10 =>
    if b.extractLsb' 20 5 = 0 ∧ b.extractLsb' 10 5 = 0 then checked (.tfree sb (b.extractLsb' 15 5)) else .illegal .unusedNotZero
  | 0x4#10 =>
    if b.extractLsb' 10 5 = 0 then checked (.tstat sb (b.extractLsb' 20 5) (b.extractLsb' 15 5)) else .illegal .unusedNotZero
  | _ => .illegal .unassignedCode

/-- Major 0x1B, rings (R42). -/
def decodeRings (sb : Bool) (b : BitVec 25) : Decoded :=
  match b.extractLsb' 0 10 with
  | 0x0#10 =>
    if b.extractLsb' 20 5 = 0 then checked (.rset sb (b.extractLsb' 15 5) (b.extractLsb' 10 5)) else .illegal .unusedNotZero
  | 0x1#10 =>
    if b.extractLsb' 20 5 = 0 then checked (.rpush sb (b.extractLsb' 15 5) (b.extractLsb' 10 5)) else .illegal .unusedNotZero
  | 0x2#10 =>
    if b.extractLsb' 20 5 = 0 ∧ b.extractLsb' 10 5 = 0 then checked (.rpop sb (b.extractLsb' 15 5)) else .illegal .unusedNotZero
  | 0x3#10 =>
    if b.extractLsb' 10 5 = 0 then checked (.rstat sb (b.extractLsb' 20 5) (b.extractLsb' 15 5)) else .illegal .unusedNotZero
  | _ => .illegal .unassignedCode

/-- Major 0x1C, amo (R43). -/
def decodeAmo (sb : Bool) (b : BitVec 25) : Decoded :=
  match b.extractLsb' 0 7 with
  | 0x0#7 => checked (.amoAdd sb (b.extractLsb' 20 5) (b.extractLsb' 15 5) (b.extractLsb' 10 5) (b.extractLsb' 8 2) (b.extractLsb' 7 1))
  | 0x1#7 => checked (.amoAnd sb (b.extractLsb' 20 5) (b.extractLsb' 15 5) (b.extractLsb' 10 5) (b.extractLsb' 8 2) (b.extractLsb' 7 1))
  | 0x2#7 => checked (.amoOr sb (b.extractLsb' 20 5) (b.extractLsb' 15 5) (b.extractLsb' 10 5) (b.extractLsb' 8 2) (b.extractLsb' 7 1))
  | 0x3#7 => checked (.amoXor sb (b.extractLsb' 20 5) (b.extractLsb' 15 5) (b.extractLsb' 10 5) (b.extractLsb' 8 2) (b.extractLsb' 7 1))
  | 0x4#7 => checked (.amoMin sb (b.extractLsb' 20 5) (b.extractLsb' 15 5) (b.extractLsb' 10 5) (b.extractLsb' 8 2) (b.extractLsb' 7 1))
  | 0x5#7 => checked (.amoMax sb (b.extractLsb' 20 5) (b.extractLsb' 15 5) (b.extractLsb' 10 5) (b.extractLsb' 8 2) (b.extractLsb' 7 1))
  | 0x6#7 => checked (.amoMinz sb (b.extractLsb' 20 5) (b.extractLsb' 15 5) (b.extractLsb' 10 5) (b.extractLsb' 8 2) (b.extractLsb' 7 1))
  | 0x7#7 => checked (.amoMaxz sb (b.extractLsb' 20 5) (b.extractLsb' 15 5) (b.extractLsb' 10 5) (b.extractLsb' 8 2) (b.extractLsb' 7 1))
  | 0x8#7 => checked (.amoSwap sb (b.extractLsb' 20 5) (b.extractLsb' 15 5) (b.extractLsb' 10 5) (b.extractLsb' 8 2) (b.extractLsb' 7 1))
  | 0xC#7 => checked (.amoFadd sb (b.extractLsb' 20 5) (b.extractLsb' 15 5) (b.extractLsb' 10 5) (b.extractLsb' 8 2) (b.extractLsb' 7 1))
  | _ => .illegal .unassignedCode

/-- Major 0x1E, counters (R43). -/
def decodeCounters (sb : Bool) (b : BitVec 25) : Decoded :=
  match b.extractLsb' 0 10 with
  | 0x0#10 => checked (.cadd sb (b.extractLsb' 20 5) (b.extractLsb' 15 5) (b.extractLsb' 10 5))
  | 0x1#10 => checked (.caddRel sb (b.extractLsb' 20 5) (b.extractLsb' 15 5) (b.extractLsb' 10 5))
  | 0x10#10 => checked (.grab sb (b.extractLsb' 20 5) (b.extractLsb' 15 5) (b.extractLsb' 10 5))
  | 0x21#10 => checked (.disarm sb (b.extractLsb' 20 5) (b.extractLsb' 15 5) (b.extractLsb' 10 5))
  | _ => .illegal .unassignedCode

/-- Major 0x20, transactions (R44). -/
def decodeTransactions (sb : Bool) (b : BitVec 25) : Decoded :=
  match b.extractLsb' 0 10 with
  | 0x0#10 =>
    if b.extractLsb' 15 5 = 0 ∧ b.extractLsb' 10 5 = 0 then checked (.tbegin sb (b.extractLsb' 20 5)) else .illegal .unusedNotZero
  | 0x1#10 =>
    if b.extractLsb' 20 5 = 0 ∧ b.extractLsb' 15 5 = 0 ∧ b.extractLsb' 10 5 = 0 then checked (.tend sb) else .illegal .unusedNotZero
  | 0x2#10 =>
    if b.extractLsb' 20 5 = 0 ∧ b.extractLsb' 15 5 = 0 ∧ b.extractLsb' 10 5 = 0 then
      checked (.otherwise sb)
    else .illegal .unusedNotZero
  | 0x3#10 =>
    if b.extractLsb' 20 5 = 0 ∧ b.extractLsb' 15 5 = 0 ∧ b.extractLsb' 10 5 = 0 then
      checked (.retry sb)
    else .illegal .unusedNotZero
  | 0x4#10 =>
    if b.extractLsb' 15 5 = 0 ∧ b.extractLsb' 10 5 = 0 then checked (.tstatX sb (b.extractLsb' 20 5)) else .illegal .unusedNotZero
  | _ => .illegal .unassignedCode

/-- Major 0x22, waiting (R44). -/
def decodeWaiting (sb : Bool) (b : BitVec 25) : Decoded :=
  match b.extractLsb' 0 10 with
  | 0x0#10 => checked (.waitge sb (b.extractLsb' 20 5) (b.extractLsb' 15 5) (b.extractLsb' 10 5))
  | 0x10#10 =>
    if b.extractLsb' 10 5 = 0 then checked (.barr sb (b.extractLsb' 20 5) (b.extractLsb' 15 5)) else .illegal .unusedNotZero
  | 0x11#10 =>
    if b.extractLsb' 20 5 = 0 then checked (.bwait sb (b.extractLsb' 15 5) (b.extractLsb' 10 5)) else .illegal .unusedNotZero
  | _ => .illegal .unassignedCode

/-- Major 0x25, tasks (R45). -/
def decodeTasks (sb : Bool) (b : BitVec 25) : Decoded :=
  if b.extractLsb' 3 7 = 0 then
    if b.extractLsb' 20 5 = 0 ∧ b.extractLsb' 15 5 = 0 then checked (.amreply sb (b.extractLsb' 10 5) (b.extractLsb' 0 3)) else .illegal .unusedNotZero
  else
    match b.extractLsb' 0 10 with
    | 0x10#10 =>
      if b.extractLsb' 20 5 = 0 ∧ b.extractLsb' 10 5 = 0 then checked (.spawn sb (b.extractLsb' 15 5)) else .illegal .unusedNotZero
    | 0x20#10 => checked (.enq sb (b.extractLsb' 20 5) (b.extractLsb' 15 5) (b.extractLsb' 10 5))
    | 0x30#10 =>
      if b.extractLsb' 10 5 = 0 then checked (.deq sb (b.extractLsb' 20 5) (b.extractLsb' 15 5)) else .illegal .unusedNotZero
    | 0x40#10 => checked (.hostpost sb (b.extractLsb' 20 5) (b.extractLsb' 15 5) (b.extractLsb' 10 5))
    | 0x50#10 =>
      if b.extractLsb' 15 5 = 0 ∧ b.extractLsb' 10 5 = 0 then checked (.taskid sb (b.extractLsb' 20 5)) else .illegal .unusedNotZero
    | 0x60#10 =>
      if b.extractLsb' 20 5 = 0 ∧ b.extractLsb' 15 5 = 0 ∧ b.extractLsb' 10 5 = 0 then
        checked (.yield sb)
      else .illegal .unusedNotZero
    | _ => .illegal .unassignedCode

/-- Major 0x26, retirement (R45). -/
def decodeRetirement (sb : Bool) (b : BitVec 25) : Decoded :=
  match b.extractLsb' 0 10 with
  | 0x0#10 =>
    if b.extractLsb' 20 5 = 0 ∧ b.extractLsb' 15 5 = 0 ∧ b.extractLsb' 10 5 = 0 then checked (.halt sb) else .illegal .unusedNotZero
  | 0x1#10 =>
    if b.extractLsb' 20 5 = 0 then checked (.haltK sb (b.extractLsb' 15 5) (b.extractLsb' 10 5)) else .illegal .unusedNotZero
  | 0x2#10 =>
    if b.extractLsb' 20 5 = 0 ∧ b.extractLsb' 15 5 = 0 ∧ b.extractLsb' 10 5 = 0 then checked (.tail sb) else .illegal .unusedNotZero
  | _ => .illegal .unassignedCode

/-- Major 0x28, control registers (R46). -/
def decodeControl (sb : Bool) (b : BitVec 25) : Decoded :=
  match b.extractLsb' 0 3 with
  | 0x0#3 =>
    if b.extractLsb' 15 5 = 0 then
      if b.extractLsb' 10 5 = 1 ∧ b.extractLsb' 3 5 = 0xF then checked (.cpgoRead sb (b.extractLsb' 20 5) (b.extractLsb' 8 2))
      else checked (.ctlrd sb (b.extractLsb' 20 5) (b.extractLsb' 3 12))
    else .illegal .unusedNotZero
  | 0x1#3 =>
    if b.extractLsb' 20 5 = 0 then checked (.ctlwr sb (b.extractLsb' 15 5) (b.extractLsb' 3 12)) else .illegal .unusedNotZero
  | 0x2#3 => checked (.ctlset sb (b.extractLsb' 20 5) (b.extractLsb' 15 5) (b.extractLsb' 3 12))
  | 0x3#3 => checked (.ctlclr sb (b.extractLsb' 20 5) (b.extractLsb' 15 5) (b.extractLsb' 3 12))
  | _ => .illegal .unassignedCode

/-- Major 0x29, system (R46). -/
def decodeSystem (sb : Bool) (b : BitVec 25) : Decoded :=
  match b.extractLsb' 0 10 with
  | 0x0#10 =>
    if b.extractLsb' 20 5 = 0 ∧ b.extractLsb' 15 5 = 0 ∧ b.extractLsb' 10 5 = 0 then checked (.eret sb) else .illegal .unusedNotZero
  | 0x1#10 =>
    if b.extractLsb' 20 5 = 0 ∧ b.extractLsb' 15 5 = 0 ∧ b.extractLsb' 10 5 = 0 then
      checked (.ifence sb)
    else .illegal .unusedNotZero
  | 0x2#10 =>
    if b.extractLsb' 20 5 = 0 ∧ b.extractLsb' 10 5 = 0 then checked (.tlbinv sb (b.extractLsb' 15 5)) else .illegal .unusedNotZero
  | 0x3#10 =>
    if b.extractLsb' 20 5 = 0 ∧ b.extractLsb' 10 5 = 0 then checked (.tlbinvAs sb (b.extractLsb' 15 5)) else .illegal .unusedNotZero
  | 0x4#10 =>
    if b.extractLsb' 10 5 = 0 then checked (.perfrd sb (b.extractLsb' 20 5) (b.extractLsb' 15 5)) else .illegal .unusedNotZero
  | 0x5#10 =>
    if b.extractLsb' 20 5 = 0 ∧ b.extractLsb' 15 5 = 0 ∧ b.extractLsb' 10 5 = 0 then checked (.brk sb) else .illegal .unusedNotZero
  | _ => .illegal .unassignedCode

/-- Major 0x2C, copy and gather (R47). -/
def decodeCopy (sb : Bool) (b : BitVec 25) : Decoded :=
  match b.extractLsb' 0 10 with
  | 0x0#10 =>
    if b.extractLsb' 20 5 = 0 then checked (.cprec sb (b.extractLsb' 15 5) (b.extractLsb' 10 5)) else .illegal .unusedNotZero
  | 0x1#10 =>
    if b.extractLsb' 20 5 = 0 ∧ b.extractLsb' 15 5 = 0 ∧ b.extractLsb' 10 5 = 0 then
      checked (.rcfence sb)
    else .illegal .unusedNotZero
  | 0x2#10 => checked (.gather sb (b.extractLsb' 20 5) (b.extractLsb' 15 5) (b.extractLsb' 10 5))
  | 0x3#10 => checked (.scatter sb (b.extractLsb' 20 5) (b.extractLsb' 15 5) (b.extractLsb' 10 5))
  | 0x4#10 =>
    if b.extractLsb' 20 5 = 0 ∧ b.extractLsb' 10 5 = 0 then checked (.cpabort sb (b.extractLsb' 15 5)) else .illegal .unusedNotZero
  | 0x5#10 =>
    if b.extractLsb' 10 5 = 0 then checked (.tlrd sb (b.extractLsb' 20 5) (b.extractLsb' 15 5)) else .illegal .unusedNotZero
  | _ => .illegal .unassignedCode

/-- Major 0x30, matrix (R48). -/
def decodeMatrix (sb : Bool) (b : BitVec 25) : Decoded :=
  match b.extractLsb' 0 10 with
  | 0x0#10 =>
    if b.extractLsb' 20 5 = 0 then checked (.mldb sb (b.extractLsb' 15 5) (b.extractLsb' 10 5)) else .illegal .unusedNotZero
  | 0x1#10 => checked (.mgang sb (b.extractLsb' 20 5) (b.extractLsb' 15 5) (b.extractLsb' 10 5))
  | 0x2#10 =>
    if b.extractLsb' 20 5 = 0 ∧ b.extractLsb' 10 5 = 0 then checked (.mflush sb (b.extractLsb' 15 5)) else .illegal .unusedNotZero
  | 0x3#10 =>
    if b.extractLsb' 20 5 = 0 ∧ b.extractLsb' 15 5 = 0 ∧ b.extractLsb' 10 5 = 0 then
      checked (.mdrain sb)
    else .illegal .unusedNotZero
  | 0x4#10 =>
    if b.extractLsb' 10 5 = 0 then checked (.mstat sb (b.extractLsb' 20 5) (b.extractLsb' 15 5)) else .illegal .unusedNotZero
  | 0x5#10 =>
    if b.extractLsb' 10 5 = 0 then checked (.mkey sb (b.extractLsb' 20 5) (b.extractLsb' 15 5)) else .illegal .unusedNotZero
  | _ => .illegal .unassignedCode

/-- Major 0x34, transfer (R49). -/
def decodeTransfer (sb : Bool) (b : BitVec 25) : Decoded :=
  match b.extractLsb' 0 10 with
  | 0x0#10 =>
    if b.extractLsb' 20 5 = 0 then checked (.wset sb (b.extractLsb' 15 5) (b.extractLsb' 10 5)) else .illegal .unusedNotZero
  | 0x1#10 => checked (.rstr sb (b.extractLsb' 20 5) (b.extractLsb' 15 5) (b.extractLsb' 10 5))
  | 0x2#10 => checked (.rstrF sb (b.extractLsb' 20 5) (b.extractLsb' 15 5) (b.extractLsb' 10 5))
  | 0x3#10 => checked (.prlg sb (b.extractLsb' 20 5) (b.extractLsb' 15 5) (b.extractLsb' 10 5))
  | 0x4#10 => checked (.prlgF sb (b.extractLsb' 20 5) (b.extractLsb' 15 5) (b.extractLsb' 10 5))
  | 0x5#10 =>
    if b.extractLsb' 10 5 = 0 then checked (.xstat sb (b.extractLsb' 20 5) (b.extractLsb' 15 5)) else .illegal .unusedNotZero
  | _ => .illegal .unassignedCode

/-- Major 0x36, vector arithmetic (R51). -/
def decodeVecArith (sb : Bool) (b : BitVec 25) : Decoded :=
  match b.extractLsb' 0 4 with
  | 0x0#4 => checked (.vadd sb (b.extractLsb' 20 5) (b.extractLsb' 15 5) (b.extractLsb' 10 5) (b.extractLsb' 7 3) (b.extractLsb' 4 3))
  | 0x1#4 => checked (.vsub sb (b.extractLsb' 20 5) (b.extractLsb' 15 5) (b.extractLsb' 10 5) (b.extractLsb' 7 3) (b.extractLsb' 4 3))
  | 0x2#4 => checked (.vmul sb (b.extractLsb' 20 5) (b.extractLsb' 15 5) (b.extractLsb' 10 5) (b.extractLsb' 7 3) (b.extractLsb' 4 3))
  | 0x3#4 =>
    if b.extractLsb' 6 1 = 0 then
      checked (.vdiv sb (b.extractLsb' 20 5) (b.extractLsb' 15 5) (b.extractLsb' 10 5) (b.extractLsb' 7 3) (b.extractLsb' 4 2))
    else .illegal .unusedNotZero
  | 0x4#4 => checked (.vmin sb (b.extractLsb' 20 5) (b.extractLsb' 15 5) (b.extractLsb' 10 5) (b.extractLsb' 7 3) (b.extractLsb' 4 3))
  | 0x5#4 => checked (.vmax sb (b.extractLsb' 20 5) (b.extractLsb' 15 5) (b.extractLsb' 10 5) (b.extractLsb' 7 3) (b.extractLsb' 4 3))
  | 0x6#4 =>
    if b.extractLsb' 10 5 = 0 then
      checked (.vabs sb (b.extractLsb' 20 5) (b.extractLsb' 15 5) (b.extractLsb' 7 3) (b.extractLsb' 4 3))
    else .illegal .unusedNotZero
  | 0x7#4 =>
    if b.extractLsb' 10 5 = 0 then
      checked (.vneg sb (b.extractLsb' 20 5) (b.extractLsb' 15 5) (b.extractLsb' 7 3) (b.extractLsb' 4 3))
    else .illegal .unusedNotZero
  | 0x8#4 =>
    if b.extractLsb' 10 5 = 0 ∧ b.extractLsb' 6 1 = 0 then
      checked (.vsqrt sb (b.extractLsb' 20 5) (b.extractLsb' 15 5) (b.extractLsb' 7 3) (b.extractLsb' 4 2))
    else .illegal .unusedNotZero
  | 0x9#4 =>
    if b.extractLsb' 10 5 = 0 ∧ b.extractLsb' 6 1 = 0 then
      checked (.vexp2 sb (b.extractLsb' 20 5) (b.extractLsb' 15 5) (b.extractLsb' 7 3) (b.extractLsb' 4 2))
    else .illegal .unusedNotZero
  | _ => .illegal .unassignedCode

/-- Major 0x37, vector fused and reduce (R51). -/
def decodeVecFused (sb : Bool) (b : BitVec 25) : Decoded :=
  match b.extractLsb' 0 4 with
  | 0x0#4 => checked (.vfma sb (b.extractLsb' 20 5) (b.extractLsb' 15 5) (b.extractLsb' 10 5) (b.extractLsb' 7 3) (b.extractLsb' 4 3))
  | 0x1#4 =>
    if b.extractLsb' 10 5 = 0 then
      checked (.vredsum sb (b.extractLsb' 20 5) (b.extractLsb' 15 5) (b.extractLsb' 7 3) (b.extractLsb' 4 3))
    else .illegal .unusedNotZero
  | 0x2#4 =>
    if b.extractLsb' 10 5 = 0 then
      checked (.vredmax sb (b.extractLsb' 20 5) (b.extractLsb' 15 5) (b.extractLsb' 7 3) (b.extractLsb' 4 3))
    else .illegal .unusedNotZero
  | 0x3#4 =>
    if b.extractLsb' 10 5 = 0 then
      checked (.vredmin sb (b.extractLsb' 20 5) (b.extractLsb' 15 5) (b.extractLsb' 7 3) (b.extractLsb' 4 3))
    else .illegal .unusedNotZero
  | 0x4#4 => checked (.vdot sb (b.extractLsb' 20 5) (b.extractLsb' 15 5) (b.extractLsb' 10 5) (b.extractLsb' 7 3) (b.extractLsb' 4 3))
  | _ => .illegal .unassignedCode

/-- Major 0x38, vector logic and permute (R51). -/
def decodeVecLogic (sb : Bool) (b : BitVec 25) : Decoded :=
  match b.extractLsb' 0 4 with
  | 0x0#4 =>
    if b.extractLsb' 6 1 = 1 then
      checked (.vand sb (b.extractLsb' 20 5) (b.extractLsb' 15 5) (b.extractLsb' 10 5) (b.extractLsb' 7 3) (b.extractLsb' 4 2))
    else .illegal .unusedNotZero
  | 0x1#4 =>
    if b.extractLsb' 6 1 = 1 then
      checked (.vor sb (b.extractLsb' 20 5) (b.extractLsb' 15 5) (b.extractLsb' 10 5) (b.extractLsb' 7 3) (b.extractLsb' 4 2))
    else .illegal .unusedNotZero
  | 0x2#4 =>
    if b.extractLsb' 6 1 = 1 then
      checked (.vxor sb (b.extractLsb' 20 5) (b.extractLsb' 15 5) (b.extractLsb' 10 5) (b.extractLsb' 7 3) (b.extractLsb' 4 2))
    else .illegal .unusedNotZero
  | 0x3#4 =>
    if b.extractLsb' 6 1 = 1 then
      checked (.vshl sb (b.extractLsb' 20 5) (b.extractLsb' 15 5) (b.extractLsb' 10 5) (b.extractLsb' 7 3) (b.extractLsb' 4 2))
    else .illegal .unusedNotZero
  | 0x4#4 =>
    if b.extractLsb' 6 1 = 1 then
      checked (.vshr sb (b.extractLsb' 20 5) (b.extractLsb' 15 5) (b.extractLsb' 10 5) (b.extractLsb' 7 3) (b.extractLsb' 4 2))
    else .illegal .unusedNotZero
  | 0x5#4 => checked (.vperm sb (b.extractLsb' 20 5) (b.extractLsb' 15 5) (b.extractLsb' 10 5) (b.extractLsb' 7 3) (b.extractLsb' 4 3))
  | 0x6#4 =>
    if b.extractLsb' 10 5 = 0 then
      checked (.vbcast sb (b.extractLsb' 20 5) (b.extractLsb' 15 5) (b.extractLsb' 7 3) (b.extractLsb' 4 3))
    else .illegal .unusedNotZero
  | 0x7#4 => checked (.vslide sb (b.extractLsb' 20 5) (b.extractLsb' 15 5) (b.extractLsb' 10 5) (b.extractLsb' 7 3) (b.extractLsb' 4 3))
  | 0x8#4 =>
    if b.extractLsb' 10 5 = 0 then
      checked (.vcompress sb (b.extractLsb' 20 5) (b.extractLsb' 15 5) (b.extractLsb' 7 3) (b.extractLsb' 4 3))
    else .illegal .unusedNotZero
  | 0x9#4 =>
    if b.extractLsb' 10 5 = 0 then
      checked (.vexpand sb (b.extractLsb' 20 5) (b.extractLsb' 15 5) (b.extractLsb' 7 3) (b.extractLsb' 4 3))
    else .illegal .unusedNotZero
  | 0xA#4 => checked (.vsel sb (b.extractLsb' 20 5) (b.extractLsb' 15 5) (b.extractLsb' 10 5) (b.extractLsb' 7 3) (b.extractLsb' 4 3))
  | _ => .illegal .unassignedCode

/-- Major 0x39, vector compare and mask (R51). -/
def decodeVecCompare (sb : Bool) (b : BitVec 25) : Decoded :=
  match b.extractLsb' 0 4 with
  | 0x0#4 =>
    if b.extractLsb' 23 2 = 0 then
      checked (.vcmpEq sb (b.extractLsb' 20 3) (b.extractLsb' 15 5) (b.extractLsb' 10 5) (b.extractLsb' 7 3) (b.extractLsb' 4 3))
    else .illegal .unusedNotZero
  | 0x1#4 =>
    if b.extractLsb' 23 2 = 0 then
      checked (.vcmpNe sb (b.extractLsb' 20 3) (b.extractLsb' 15 5) (b.extractLsb' 10 5) (b.extractLsb' 7 3) (b.extractLsb' 4 3))
    else .illegal .unusedNotZero
  | 0x2#4 =>
    if b.extractLsb' 23 2 = 0 then
      checked (.vcmpLt sb (b.extractLsb' 20 3) (b.extractLsb' 15 5) (b.extractLsb' 10 5) (b.extractLsb' 7 3) (b.extractLsb' 4 3))
    else .illegal .unusedNotZero
  | 0x3#4 =>
    if b.extractLsb' 23 2 = 0 then
      checked (.vcmpGe sb (b.extractLsb' 20 3) (b.extractLsb' 15 5) (b.extractLsb' 10 5) (b.extractLsb' 7 3) (b.extractLsb' 4 3))
    else .illegal .unusedNotZero
  | 0x4#4 =>
    if b.extractLsb' 23 2 = 0 then
      checked (.vcmpLe sb (b.extractLsb' 20 3) (b.extractLsb' 15 5) (b.extractLsb' 10 5) (b.extractLsb' 7 3) (b.extractLsb' 4 3))
    else .illegal .unusedNotZero
  | 0x5#4 =>
    if b.extractLsb' 23 2 = 0 then
      checked (.vcmpGt sb (b.extractLsb' 20 3) (b.extractLsb' 15 5) (b.extractLsb' 10 5) (b.extractLsb' 7 3) (b.extractLsb' 4 3))
    else .illegal .unusedNotZero
  | 0x8#4 =>
    if b.extractLsb' 23 2 = 0 ∧ b.extractLsb' 18 2 = 0 ∧ b.extractLsb' 13 2 = 0 ∧ b.extractLsb' 7 3 = 0 ∧ b.extractLsb' 4 3 = 0 then
      checked (.kand sb (b.extractLsb' 20 3) (b.extractLsb' 15 3) (b.extractLsb' 10 3))
    else .illegal .unusedNotZero
  | 0x9#4 =>
    if b.extractLsb' 23 2 = 0 ∧ b.extractLsb' 18 2 = 0 ∧ b.extractLsb' 13 2 = 0 ∧ b.extractLsb' 7 3 = 0 ∧ b.extractLsb' 4 3 = 0 then
      checked (.kor sb (b.extractLsb' 20 3) (b.extractLsb' 15 3) (b.extractLsb' 10 3))
    else .illegal .unusedNotZero
  | 0xA#4 =>
    if b.extractLsb' 23 2 = 0 ∧ b.extractLsb' 18 2 = 0 ∧ b.extractLsb' 13 2 = 0 ∧ b.extractLsb' 10 3 = 0 ∧ b.extractLsb' 7 3 = 0 ∧ b.extractLsb' 4 3 = 0 then
      checked (.knot sb (b.extractLsb' 20 3) (b.extractLsb' 15 3))
    else .illegal .unusedNotZero
  | 0xB#4 =>
    if b.extractLsb' 18 2 = 0 ∧ b.extractLsb' 13 2 = 0 ∧ b.extractLsb' 10 3 = 0 ∧ b.extractLsb' 7 3 = 0 ∧ b.extractLsb' 4 3 = 0 then
      checked (.kpop sb (b.extractLsb' 20 5) (b.extractLsb' 15 3))
    else .illegal .unusedNotZero
  | _ => .illegal .unassignedCode

/-- Major 0x3A, vector conversion (R51). -/
def decodeVecConvert (sb : Bool) (b : BitVec 25) : Decoded :=
  match b.extractLsb' 0 4 with
  | 0x0#4 => checked (.vcvt sb (b.extractLsb' 20 5) (b.extractLsb' 15 5) (b.extractLsb' 10 5) (b.extractLsb' 7 3) (b.extractLsb' 4 3))
  | 0x1#4 =>
    if b.extractLsb' 11 4 = 4 ∧ b.extractLsb' 6 1 = 0 then
      checked (.vcvtFp8 sb (b.extractLsb' 20 5) (b.extractLsb' 15 5) (b.extractLsb' 10 1) (b.extractLsb' 7 3) (b.extractLsb' 4 2))
    else .illegal .unusedNotZero
  | 0x2#4 =>
    if b.extractLsb' 6 1 = 0 then
      checked (.vqpack sb (b.extractLsb' 20 5) (b.extractLsb' 15 5) (b.extractLsb' 10 5) (b.extractLsb' 7 3) (b.extractLsb' 4 2))
    else .illegal .unusedNotZero
  | 0x3#4 =>
    if b.extractLsb' 6 1 = 0 then
      checked (.vqunpack sb (b.extractLsb' 20 5) (b.extractLsb' 15 5) (b.extractLsb' 10 5) (b.extractLsb' 7 3) (b.extractLsb' 4 2))
    else .illegal .unusedNotZero
  | _ => .illegal .unassignedCode

/-- Major 0x3B, vector memory (R51). -/
def decodeVecMemory (sb : Bool) (b : BitVec 25) : Decoded :=
  match b.extractLsb' 0 4 with
  | 0x0#4 =>
    if b.extractLsb' 10 5 = 0 then
      checked (.vld sb (b.extractLsb' 20 5) (b.extractLsb' 15 5) (b.extractLsb' 7 3) (b.extractLsb' 4 3))
    else .illegal .unusedNotZero
  | 0x1#4 =>
    if b.extractLsb' 10 5 = 0 then
      checked (.vst sb (b.extractLsb' 20 5) (b.extractLsb' 15 5) (b.extractLsb' 7 3) (b.extractLsb' 4 3))
    else .illegal .unusedNotZero
  | 0x2#4 => checked (.vlds sb (b.extractLsb' 20 5) (b.extractLsb' 15 5) (b.extractLsb' 10 5) (b.extractLsb' 7 3) (b.extractLsb' 4 3))
  | 0x3#4 => checked (.vsts sb (b.extractLsb' 20 5) (b.extractLsb' 15 5) (b.extractLsb' 10 5) (b.extractLsb' 7 3) (b.extractLsb' 4 3))
  | 0x4#4 => checked (.vldx sb (b.extractLsb' 20 5) (b.extractLsb' 15 5) (b.extractLsb' 10 5) (b.extractLsb' 7 3) (b.extractLsb' 4 3))
  | 0x5#4 => checked (.vstx sb (b.extractLsb' 20 5) (b.extractLsb' 15 5) (b.extractLsb' 10 5) (b.extractLsb' 7 3) (b.extractLsb' 4 3))
  | _ => .illegal .unassignedCode

/-- Major 0x3C, scalar FP (R52). -/
def decodeScalarFp (sb : Bool) (b : BitVec 25) : Decoded :=
  match b.extractLsb' 0 8 with
  | 0x0#8 => checked (.fadd sb (b.extractLsb' 20 5) (b.extractLsb' 15 5) (b.extractLsb' 10 5) (b.extractLsb' 8 2))
  | 0x1#8 => checked (.fsub sb (b.extractLsb' 20 5) (b.extractLsb' 15 5) (b.extractLsb' 10 5) (b.extractLsb' 8 2))
  | 0x2#8 => checked (.fmul sb (b.extractLsb' 20 5) (b.extractLsb' 15 5) (b.extractLsb' 10 5) (b.extractLsb' 8 2))
  | 0x3#8 => checked (.fdiv sb (b.extractLsb' 20 5) (b.extractLsb' 15 5) (b.extractLsb' 10 5) (b.extractLsb' 8 2))
  | 0x4#8 =>
    if b.extractLsb' 10 5 = 0 then
      checked (.fsqrt sb (b.extractLsb' 20 5) (b.extractLsb' 15 5) (b.extractLsb' 8 2))
    else .illegal .unusedNotZero
  | 0x5#8 => checked (.fmin sb (b.extractLsb' 20 5) (b.extractLsb' 15 5) (b.extractLsb' 10 5) (b.extractLsb' 8 2))
  | 0x6#8 => checked (.fmax sb (b.extractLsb' 20 5) (b.extractLsb' 15 5) (b.extractLsb' 10 5) (b.extractLsb' 8 2))
  | 0x8#8 => checked (.fcmpEq sb (b.extractLsb' 20 5) (b.extractLsb' 15 5) (b.extractLsb' 10 5) (b.extractLsb' 8 2))
  | 0x9#8 => checked (.fcmpLt sb (b.extractLsb' 20 5) (b.extractLsb' 15 5) (b.extractLsb' 10 5) (b.extractLsb' 8 2))
  | 0xA#8 => checked (.fcmpLe sb (b.extractLsb' 20 5) (b.extractLsb' 15 5) (b.extractLsb' 10 5) (b.extractLsb' 8 2))
  | 0x10#8 => checked (.fcvt sb (b.extractLsb' 20 5) (b.extractLsb' 15 5) (b.extractLsb' 10 5) (b.extractLsb' 8 2))
  | 0x11#8 =>
    if b.extractLsb' 11 4 = 2 then
      checked (.fcvtInt sb (b.extractLsb' 20 5) (b.extractLsb' 15 5) (b.extractLsb' 10 1) (b.extractLsb' 8 2))
    else .illegal .unusedNotZero
  | 0x18#8 =>
    if b.extractLsb' 10 5 = 0 then
      checked (.fclass sb (b.extractLsb' 20 5) (b.extractLsb' 15 5) (b.extractLsb' 8 2))
    else .illegal .unusedNotZero
  | 0x19#8 => checked (.fsgnj sb (b.extractLsb' 20 5) (b.extractLsb' 15 5) (b.extractLsb' 10 5) (b.extractLsb' 8 2))
  | 0x20#8 =>
    if b.extractLsb' 10 5 = 0 then
      checked (.fmvx sb (b.extractLsb' 20 5) (b.extractLsb' 15 5) (b.extractLsb' 8 2))
    else .illegal .unusedNotZero
  | 0x21#8 =>
    if b.extractLsb' 10 5 = 0 then
      checked (.fmvf sb (b.extractLsb' 20 5) (b.extractLsb' 15 5) (b.extractLsb' 8 2))
    else .illegal .unusedNotZero
  | _ => .illegal .unassignedCode

/-- The instruction of a settle bit, a major opcode and a body (R39). -/
def decodeBody (sb : Bool) (major : BitVec 6) (b : BitVec 25) : Decoded :=
  match major with
  | 0x00#6 => decodeAlu sb b
  | 0x01#6 => checked (.addi sb (b.extractLsb' 20 5) (b.extractLsb' 15 5) (b.extractLsb' 0 15))
  | 0x02#6 => checked (.andi sb (b.extractLsb' 20 5) (b.extractLsb' 15 5) (b.extractLsb' 0 15))
  | 0x03#6 => checked (.ori sb (b.extractLsb' 20 5) (b.extractLsb' 15 5) (b.extractLsb' 0 15))
  | 0x04#6 => checked (.xori sb (b.extractLsb' 20 5) (b.extractLsb' 15 5) (b.extractLsb' 0 15))
  | 0x05#6 => checked (.slti sb (b.extractLsb' 20 5) (b.extractLsb' 15 5) (b.extractLsb' 0 15))
  | 0x06#6 => decodeShiftImm sb b
  | 0x07#6 => checked (.lui sb (b.extractLsb' 20 5) (b.extractLsb' 0 20))
  | 0x08#6 => checked (.addpc sb (b.extractLsb' 20 5) (b.extractLsb' 0 20))
  | 0x09#6 => if b.extractLsb' 5 5 = 0 then checked (.adds sb (b.extractLsb' 20 5) (b.extractLsb' 15 5) (b.extractLsb' 10 5) (b.extractLsb' 0 5)) else .illegal .unusedNotZero
  | 0x0A#6 => if b.extractLsb' 0 5 = 0 then checked (.sel sb (b.extractLsb' 20 5) (b.extractLsb' 15 5) (b.extractLsb' 10 5) (b.extractLsb' 5 5)) else .illegal .unusedNotZero
  | 0x0B#6 => if b.extractLsb' 12 3 = 0 then checked (.ext sb (b.extractLsb' 20 5) (b.extractLsb' 15 5) (b.extractLsb' 6 6) (b.extractLsb' 0 6)) else .illegal .unusedNotZero
  | 0x0C#6 => if b.extractLsb' 12 3 = 0 then checked (.ins sb (b.extractLsb' 20 5) (b.extractLsb' 15 5) (b.extractLsb' 6 6) (b.extractLsb' 0 6)) else .illegal .unusedNotZero
  | 0x10#6 => decodeBranch sb b
  | 0x11#6 => checked (.j sb (b.extractLsb' 0 25))
  | 0x12#6 => checked (.jal sb (b.extractLsb' 0 25))
  | 0x13#6 => checked (.jalr sb (b.extractLsb' 20 5) (b.extractLsb' 15 5) (b.extractLsb' 0 15))
  | 0x14#6 => if b.extractLsb' 21 4 = 0 then checked (.loop sb (b.extractLsb' 20 1) (b.extractLsb' 15 5) (b.extractLsb' 0 15)) else .illegal .unusedNotZero
  | 0x15#6 => decodeControlMisc sb b
  | 0x16#6 => decodeLd sb b
  | 0x17#6 => decodeLdz sb b
  | 0x18#6 => decodeSt sb b
  | 0x19#6 => decodeMemOrder sb b
  | 0x1A#6 => decodeTiles sb b
  | 0x1B#6 => decodeRings sb b
  | 0x1C#6 => decodeAmo sb b
  | 0x1D#6 => if b.extractLsb' 0 2 = 0 then checked (.amoCas sb (b.extractLsb' 20 5) (b.extractLsb' 15 5) (b.extractLsb' 10 5) (b.extractLsb' 5 5) (b.extractLsb' 3 2) (b.extractLsb' 2 1)) else .illegal .unusedNotZero
  | 0x1E#6 => decodeCounters sb b
  | 0x1F#6 => if b.extractLsb' 0 5 = 0 then checked (.arm sb (b.extractLsb' 20 5) (b.extractLsb' 15 5) (b.extractLsb' 10 5) (b.extractLsb' 5 5)) else .illegal .unusedNotZero
  | 0x20#6 => decodeTransactions sb b
  | 0x21#6 => if b.extractLsb' 20 5 = 0 ∧ b.extractLsb' 15 5 = 0 ∧ b.extractLsb' 8 7 = 0 then checked (.tabort sb (b.extractLsb' 0 8)) else .illegal .unusedNotZero
  | 0x22#6 => decodeWaiting sb b
  | 0x24#6 => if b.extractLsb' 3 7 = 0 then checked (.amsend sb (b.extractLsb' 20 5) (b.extractLsb' 15 5) (b.extractLsb' 10 5) (b.extractLsb' 0 3)) else .illegal .unusedNotZero
  | 0x25#6 => decodeTasks sb b
  | 0x26#6 => decodeRetirement sb b
  | 0x28#6 => decodeControl sb b
  | 0x29#6 => decodeSystem sb b
  | 0x2A#6 => if b.extractLsb' 20 5 = 0 ∧ b.extractLsb' 15 5 = 0 ∧ b.extractLsb' 12 3 = 0 then checked (.trap sb (b.extractLsb' 0 12)) else .illegal .unusedNotZero
  | 0x2C#6 => decodeCopy sb b
  | 0x30#6 => decodeMatrix sb b
  | 0x31#6 => if b.extractLsb' 0 5 = 0 then checked (.mms sb (b.extractLsb' 20 5) (b.extractLsb' 15 5) (b.extractLsb' 10 5) (b.extractLsb' 5 5)) else .illegal .unusedNotZero
  | 0x34#6 => decodeTransfer sb b
  | 0x36#6 => decodeVecArith sb b
  | 0x37#6 => decodeVecFused sb b
  | 0x38#6 => decodeVecLogic sb b
  | 0x39#6 => decodeVecCompare sb b
  | 0x3A#6 => decodeVecConvert sb b
  | 0x3B#6 => decodeVecMemory sb b
  | 0x3C#6 => decodeScalarFp sb b
  | 0x3D#6 => if b.extractLsb' 0 3 = 0 then checked (.fma sb (b.extractLsb' 20 5) (b.extractLsb' 15 5) (b.extractLsb' 10 5) (b.extractLsb' 5 5) (b.extractLsb' 3 2)) else .illegal .unusedNotZero
  | _ => .illegal .unassignedMajor

/-- The instruction that a word stands for, or why it is illegal (R27, R31). -/
def decode (w : Word32) : Decoded :=
  if w = 0 then .illegal .zeroWord
  else decodeBody (w.getLsbD 31) (w.extractLsb' 25 6) (w.extractLsb' 0 25)

/-- A word from its settle bit, major opcode and body (R27). The body is given as its fields joined, 25 bits in all. -/
def pack {n : Nat} (sb : Bool) (major : BitVec 6) (b : BitVec n) : Word32 :=
  BitVec.ofBool sb ++ major ++ b.setWidth 25

/-- The word of an instruction, from the encoding tables of R40 to R52; none for a step that no word encodes. -/
def encode : Instr → Option Word32
  | .add sb d a b => some (pack sb 0x00 (d ++ a ++ b ++ 0#10))
  | .sub sb d a b => some (pack sb 0x00 (d ++ a ++ b ++ 1#10))
  | .and sb d a b => some (pack sb 0x00 (d ++ a ++ b ++ 2#10))
  | .or sb d a b => some (pack sb 0x00 (d ++ a ++ b ++ 3#10))
  | .xor sb d a b => some (pack sb 0x00 (d ++ a ++ b ++ 4#10))
  | .andn sb d a b => some (pack sb 0x00 (d ++ a ++ b ++ 5#10))
  | .orn sb d a b => some (pack sb 0x00 (d ++ a ++ b ++ 6#10))
  | .sll sb d a b => some (pack sb 0x00 (d ++ a ++ b ++ 8#10))
  | .srl sb d a b => some (pack sb 0x00 (d ++ a ++ b ++ 9#10))
  | .sra sb d a b => some (pack sb 0x00 (d ++ a ++ b ++ 0xA#10))
  | .rotl sb d a b => some (pack sb 0x00 (d ++ a ++ b ++ 0xB#10))
  | .rotr sb d a b => some (pack sb 0x00 (d ++ a ++ b ++ 0xC#10))
  | .slt sb d a b => some (pack sb 0x00 (d ++ a ++ b ++ 0x10#10))
  | .sltz sb d a b => some (pack sb 0x00 (d ++ a ++ b ++ 0x11#10))
  | .min sb d a b => some (pack sb 0x00 (d ++ a ++ b ++ 0x12#10))
  | .max sb d a b => some (pack sb 0x00 (d ++ a ++ b ++ 0x13#10))
  | .minz sb d a b => some (pack sb 0x00 (d ++ a ++ b ++ 0x14#10))
  | .maxz sb d a b => some (pack sb 0x00 (d ++ a ++ b ++ 0x15#10))
  | .clz sb d a => some (pack sb 0x00 (d ++ a ++ 0#5 ++ 0x18#10))
  | .ctz sb d a => some (pack sb 0x00 (d ++ a ++ 0#5 ++ 0x19#10))
  | .popc sb d a => some (pack sb 0x00 (d ++ a ++ 0#5 ++ 0x1A#10))
  | .mul sb d a b => some (pack sb 0x00 (d ++ a ++ b ++ 0x20#10))
  | .mulh sb d a b => some (pack sb 0x00 (d ++ a ++ b ++ 0x21#10))
  | .mulhz sb d a b => some (pack sb 0x00 (d ++ a ++ b ++ 0x22#10))
  | .div sb d a b => some (pack sb 0x00 (d ++ a ++ b ++ 0x24#10))
  | .divz sb d a b => some (pack sb 0x00 (d ++ a ++ b ++ 0x25#10))
  | .rem sb d a b => some (pack sb 0x00 (d ++ a ++ b ++ 0x26#10))
  | .remz sb d a b => some (pack sb 0x00 (d ++ a ++ b ++ 0x27#10))
  | .addi sb d a i => some (pack sb 0x01 (d ++ a ++ i))
  | .andi sb d a i => some (pack sb 0x02 (d ++ a ++ i))
  | .ori sb d a i => some (pack sb 0x03 (d ++ a ++ i))
  | .xori sb d a i => some (pack sb 0x04 (d ++ a ++ i))
  | .slti sb d a i => some (pack sb 0x05 (d ++ a ++ i))
  | .slli sb d a n => some (pack sb 0x06 (d ++ a ++ 0#3 ++ 0#6 ++ n))
  | .srli sb d a n => some (pack sb 0x06 (d ++ a ++ 1#3 ++ 0#6 ++ n))
  | .srai sb d a n => some (pack sb 0x06 (d ++ a ++ 2#3 ++ 0#6 ++ n))
  | .lui sb d i => some (pack sb 0x07 (d ++ i))
  | .addpc sb d i => some (pack sb 0x08 (d ++ i))
  | .adds sb d a b n => some (pack sb 0x09 (d ++ a ++ b ++ 0#5 ++ n))
  | .sel sb d a b c => some (pack sb 0x0A (d ++ a ++ b ++ c ++ 0#5))
  | .ext sb d a l p => some (pack sb 0x0B (d ++ a ++ 0#3 ++ l ++ p))
  | .ins sb d a l p => some (pack sb 0x0C (d ++ a ++ 0#3 ++ l ++ p))
  | .bEq sb a b o => some (pack sb 0x10 (a ++ b ++ 0#3 ++ o))
  | .bNe sb a b o => some (pack sb 0x10 (a ++ b ++ 1#3 ++ o))
  | .bLt sb a b o => some (pack sb 0x10 (a ++ b ++ 2#3 ++ o))
  | .bGe sb a b o => some (pack sb 0x10 (a ++ b ++ 3#3 ++ o))
  | .bLtz sb a b o => some (pack sb 0x10 (a ++ b ++ 4#3 ++ o))
  | .bGez sb a b o => some (pack sb 0x10 (a ++ b ++ 5#3 ++ o))
  | .j sb o => some (pack sb 0x11 (o))
  | .jal sb o => some (pack sb 0x12 (o))
  | .jalr sb d a i => some (pack sb 0x13 (d ++ a ++ i))
  | .loop sb n a i => some (pack sb 0x14 (0#4 ++ n ++ a ++ i))
  | .nop sb => some (pack sb 0x15 (0#5 ++ 0#5 ++ 0#5 ++ 0#10))
  | .lbreak sb n => some (pack sb 0x15 (0#4 ++ n ++ 0#5 ++ 0#5 ++ 1#10))
  | .ident sb d => some (pack sb 0x15 (d ++ 0#5 ++ 0#5 ++ 2#10))
  | .ld sb d a z p => some (pack sb 0x16 (d ++ a ++ 0#1 ++ z ++ 0#2 ++ p))
  | .ldAcq sb d a z p => some (pack sb 0x16 (d ++ a ++ 0#1 ++ z ++ 1#2 ++ p))
  | .ldnc sb d a z p => some (pack sb 0x16 (d ++ a ++ 0#1 ++ z ++ 3#2 ++ p))
  | .ldp sb d a p => some (pack sb 0x16 (d ++ a ++ 4#3 ++ 0#2 ++ p))
  | .ldpAcq sb d a p => some (pack sb 0x16 (d ++ a ++ 4#3 ++ 1#2 ++ p))
  | .ldz sb d a z p => some (pack sb 0x17 (d ++ a ++ 0#1 ++ z ++ 0#2 ++ p))
  | .ldzAcq sb d a z p => some (pack sb 0x17 (d ++ a ++ 0#1 ++ z ++ 1#2 ++ p))
  | .ldncZ sb d a z p => some (pack sb 0x17 (d ++ a ++ 0#1 ++ z ++ 3#2 ++ p))
  | .st sb d a z p => some (pack sb 0x18 (d ++ a ++ 0#1 ++ z ++ 0#2 ++ p))
  | .stRel sb d a z p => some (pack sb 0x18 (d ++ a ++ 0#1 ++ z ++ 2#2 ++ p))
  | .stp sb d a p => some (pack sb 0x18 (d ++ a ++ 4#3 ++ 0#2 ++ p))
  | .stpRel sb d a p => some (pack sb 0x18 (d ++ a ++ 4#3 ++ 2#2 ++ p))
  | .fenceQuad sb => some (pack sb 0x19 (0#5 ++ 0#5 ++ 0#5 ++ 0#10))
  | .fenceQuarter sb => some (pack sb 0x19 (0#5 ++ 0#5 ++ 0#5 ++ 1#10))
  | .fenceDie sb => some (pack sb 0x19 (0#5 ++ 0#5 ++ 0#5 ++ 2#10))
  | .fenceModule sb => some (pack sb 0x19 (0#5 ++ 0#5 ++ 0#5 ++ 3#10))
  | .fenceSystem sb => some (pack sb 0x19 (0#5 ++ 0#5 ++ 0#5 ++ 4#10))
  | .pref sb a => some (pack sb 0x19 (0#5 ++ a ++ 0#5 ++ 0x10#10))
  | .prefW sb a => some (pack sb 0x19 (0#5 ++ a ++ 0#5 ++ 0x11#10))
  | .cln sb a => some (pack sb 0x19 (0#5 ++ a ++ 0#5 ++ 0x18#10))
  | .inv sb a => some (pack sb 0x19 (0#5 ++ a ++ 0#5 ++ 0x19#10))
  | .nhint sb h a => some (pack sb 0x19 (0#3 ++ h ++ a ++ 0#5 ++ 0x20#10))
  | .tacq sb d a b => some (pack sb 0x1A (d ++ a ++ b ++ 0#10))
  | .trdy sb a => some (pack sb 0x1A (0#5 ++ a ++ 0#5 ++ 1#10))
  | .tdrain sb a => some (pack sb 0x1A (0#5 ++ a ++ 0#5 ++ 2#10))
  | .tfree sb a => some (pack sb 0x1A (0#5 ++ a ++ 0#5 ++ 3#10))
  | .tstat sb d a => some (pack sb 0x1A (d ++ a ++ 0#5 ++ 4#10))
  | .rset sb a b => some (pack sb 0x1B (0#5 ++ a ++ b ++ 0#10))
  | .rpush sb a b => some (pack sb 0x1B (0#5 ++ a ++ b ++ 1#10))
  | .rpop sb a => some (pack sb 0x1B (0#5 ++ a ++ 0#5 ++ 2#10))
  | .rstat sb d a => some (pack sb 0x1B (d ++ a ++ 0#5 ++ 3#10))
  | .amoAdd sb d a b o w => some (pack sb 0x1C (d ++ a ++ b ++ o ++ w ++ 0#7))
  | .amoAnd sb d a b o w => some (pack sb 0x1C (d ++ a ++ b ++ o ++ w ++ 1#7))
  | .amoOr sb d a b o w => some (pack sb 0x1C (d ++ a ++ b ++ o ++ w ++ 2#7))
  | .amoXor sb d a b o w => some (pack sb 0x1C (d ++ a ++ b ++ o ++ w ++ 3#7))
  | .amoMin sb d a b o w => some (pack sb 0x1C (d ++ a ++ b ++ o ++ w ++ 4#7))
  | .amoMax sb d a b o w => some (pack sb 0x1C (d ++ a ++ b ++ o ++ w ++ 5#7))
  | .amoMinz sb d a b o w => some (pack sb 0x1C (d ++ a ++ b ++ o ++ w ++ 6#7))
  | .amoMaxz sb d a b o w => some (pack sb 0x1C (d ++ a ++ b ++ o ++ w ++ 7#7))
  | .amoSwap sb d a b o w => some (pack sb 0x1C (d ++ a ++ b ++ o ++ w ++ 8#7))
  | .amoFadd sb d a b o w => some (pack sb 0x1C (d ++ a ++ b ++ o ++ w ++ 0xC#7))
  | .amoCas sb d a b c o w => some (pack sb 0x1D (d ++ a ++ b ++ c ++ o ++ w ++ 0#2))
  | .cadd sb d a b => some (pack sb 0x1E (d ++ a ++ b ++ 0#10))
  | .caddRel sb d a b => some (pack sb 0x1E (d ++ a ++ b ++ 1#10))
  | .grab sb d a b => some (pack sb 0x1E (d ++ a ++ b ++ 0x10#10))
  | .disarm sb d a b => some (pack sb 0x1E (d ++ a ++ b ++ 0x21#10))
  | .arm sb d a b c => some (pack sb 0x1F (d ++ a ++ b ++ c ++ 0#5))
  | .tbegin sb d => some (pack sb 0x20 (d ++ 0#5 ++ 0#5 ++ 0#10))
  | .tend sb => some (pack sb 0x20 (0#5 ++ 0#5 ++ 0#5 ++ 1#10))
  | .otherwise sb => some (pack sb 0x20 (0#5 ++ 0#5 ++ 0#5 ++ 2#10))
  | .retry sb => some (pack sb 0x20 (0#5 ++ 0#5 ++ 0#5 ++ 3#10))
  | .tstatX sb d => some (pack sb 0x20 (d ++ 0#5 ++ 0#5 ++ 4#10))
  | .tabort sb c => some (pack sb 0x21 (0#5 ++ 0#5 ++ 0#7 ++ c))
  | .waitge sb d a b => some (pack sb 0x22 (d ++ a ++ b ++ 0#10))
  | .barr sb d a => some (pack sb 0x22 (d ++ a ++ 0#5 ++ 0x10#10))
  | .bwait sb a b => some (pack sb 0x22 (0#5 ++ a ++ b ++ 0x11#10))
  | .amsend sb d a b n => some (pack sb 0x24 (d ++ a ++ b ++ 0#7 ++ n))
  | .amreply sb b n => some (pack sb 0x25 (0#5 ++ 0#5 ++ b ++ 0#7 ++ n))
  | .spawn sb a => some (pack sb 0x25 (0#5 ++ a ++ 0#5 ++ 0x10#10))
  | .enq sb d a b => some (pack sb 0x25 (d ++ a ++ b ++ 0x20#10))
  | .deq sb d a => some (pack sb 0x25 (d ++ a ++ 0#5 ++ 0x30#10))
  | .hostpost sb d a b => some (pack sb 0x25 (d ++ a ++ b ++ 0x40#10))
  | .taskid sb d => some (pack sb 0x25 (d ++ 0#5 ++ 0#5 ++ 0x50#10))
  | .yield sb => some (pack sb 0x25 (0#5 ++ 0#5 ++ 0#5 ++ 0x60#10))
  | .halt sb => some (pack sb 0x26 (0#5 ++ 0#5 ++ 0#5 ++ 0#10))
  | .haltK sb a b => some (pack sb 0x26 (0#5 ++ a ++ b ++ 1#10))
  | .tail sb => some (pack sb 0x26 (0#5 ++ 0#5 ++ 0#5 ++ 2#10))
  | .ctlrd sb d x => some (pack sb 0x28 (d ++ 0#5 ++ x ++ 0#3))
  | .ctlwr sb a x => some (pack sb 0x28 (0#5 ++ a ++ x ++ 1#3))
  | .ctlset sb d a x => some (pack sb 0x28 (d ++ a ++ x ++ 2#3))
  | .ctlclr sb d a x => some (pack sb 0x28 (d ++ a ++ x ++ 3#3))
  | .cpgoRead sb d n => some (pack sb 0x28 (d ++ 0#5 ++ 1#5 ++ n ++ 0xF#5 ++ 0#3))
  | .eret sb => some (pack sb 0x29 (0#5 ++ 0#5 ++ 0#5 ++ 0#10))
  | .ifence sb => some (pack sb 0x29 (0#5 ++ 0#5 ++ 0#5 ++ 1#10))
  | .tlbinv sb a => some (pack sb 0x29 (0#5 ++ a ++ 0#5 ++ 2#10))
  | .tlbinvAs sb a => some (pack sb 0x29 (0#5 ++ a ++ 0#5 ++ 3#10))
  | .perfrd sb d a => some (pack sb 0x29 (d ++ a ++ 0#5 ++ 4#10))
  | .brk sb => some (pack sb 0x29 (0#5 ++ 0#5 ++ 0#5 ++ 5#10))
  | .trap sb c => some (pack sb 0x2A (0#5 ++ 0#5 ++ 0#3 ++ c))
  | .cprec sb a b => some (pack sb 0x2C (0#5 ++ a ++ b ++ 0#10))
  | .rcfence sb => some (pack sb 0x2C (0#5 ++ 0#5 ++ 0#5 ++ 1#10))
  | .gather sb d a b => some (pack sb 0x2C (d ++ a ++ b ++ 2#10))
  | .scatter sb d a b => some (pack sb 0x2C (d ++ a ++ b ++ 3#10))
  | .cpabort sb a => some (pack sb 0x2C (0#5 ++ a ++ 0#5 ++ 4#10))
  | .tlrd sb d a => some (pack sb 0x2C (d ++ a ++ 0#5 ++ 5#10))
  | .mldb sb a b => some (pack sb 0x30 (0#5 ++ a ++ b ++ 0#10))
  | .mgang sb d a b => some (pack sb 0x30 (d ++ a ++ b ++ 1#10))
  | .mflush sb a => some (pack sb 0x30 (0#5 ++ a ++ 0#5 ++ 2#10))
  | .mdrain sb => some (pack sb 0x30 (0#5 ++ 0#5 ++ 0#5 ++ 3#10))
  | .mstat sb d a => some (pack sb 0x30 (d ++ a ++ 0#5 ++ 4#10))
  | .mkey sb d a => some (pack sb 0x30 (d ++ a ++ 0#5 ++ 5#10))
  | .mms sb d a b c => some (pack sb 0x31 (d ++ a ++ b ++ c ++ 0#5))
  | .wset sb a b => some (pack sb 0x34 (0#5 ++ a ++ b ++ 0#10))
  | .rstr sb d a b => some (pack sb 0x34 (d ++ a ++ b ++ 1#10))
  | .rstrF sb d a b => some (pack sb 0x34 (d ++ a ++ b ++ 2#10))
  | .prlg sb d a b => some (pack sb 0x34 (d ++ a ++ b ++ 3#10))
  | .prlgF sb d a b => some (pack sb 0x34 (d ++ a ++ b ++ 4#10))
  | .xstat sb d a => some (pack sb 0x34 (d ++ a ++ 0#5 ++ 5#10))
  | .vadd sb v a b k t => some (pack sb 0x36 (v ++ a ++ b ++ k ++ t ++ 0#4))
  | .vsub sb v a b k t => some (pack sb 0x36 (v ++ a ++ b ++ k ++ t ++ 1#4))
  | .vmul sb v a b k t => some (pack sb 0x36 (v ++ a ++ b ++ k ++ t ++ 2#4))
  | .vdiv sb v a b k t => some (pack sb 0x36 (v ++ a ++ b ++ k ++ 0#1 ++ t ++ 3#4))
  | .vmin sb v a b k t => some (pack sb 0x36 (v ++ a ++ b ++ k ++ t ++ 4#4))
  | .vmax sb v a b k t => some (pack sb 0x36 (v ++ a ++ b ++ k ++ t ++ 5#4))
  | .vabs sb v a k t => some (pack sb 0x36 (v ++ a ++ 0#5 ++ k ++ t ++ 6#4))
  | .vneg sb v a k t => some (pack sb 0x36 (v ++ a ++ 0#5 ++ k ++ t ++ 7#4))
  | .vsqrt sb v a k t => some (pack sb 0x36 (v ++ a ++ 0#5 ++ k ++ 0#1 ++ t ++ 8#4))
  | .vexp2 sb v a k t => some (pack sb 0x36 (v ++ a ++ 0#5 ++ k ++ 0#1 ++ t ++ 9#4))
  | .vfma sb v a b k t => some (pack sb 0x37 (v ++ a ++ b ++ k ++ t ++ 0#4))
  | .vredsum sb v a k t => some (pack sb 0x37 (v ++ a ++ 0#5 ++ k ++ t ++ 1#4))
  | .vredmax sb v a k t => some (pack sb 0x37 (v ++ a ++ 0#5 ++ k ++ t ++ 2#4))
  | .vredmin sb v a k t => some (pack sb 0x37 (v ++ a ++ 0#5 ++ k ++ t ++ 3#4))
  | .vdot sb v a b k t => some (pack sb 0x37 (v ++ a ++ b ++ k ++ t ++ 4#4))
  | .vand sb v a b k t => some (pack sb 0x38 (v ++ a ++ b ++ k ++ 1#1 ++ t ++ 0#4))
  | .vor sb v a b k t => some (pack sb 0x38 (v ++ a ++ b ++ k ++ 1#1 ++ t ++ 1#4))
  | .vxor sb v a b k t => some (pack sb 0x38 (v ++ a ++ b ++ k ++ 1#1 ++ t ++ 2#4))
  | .vshl sb v a b k t => some (pack sb 0x38 (v ++ a ++ b ++ k ++ 1#1 ++ t ++ 3#4))
  | .vshr sb v a b k t => some (pack sb 0x38 (v ++ a ++ b ++ k ++ 1#1 ++ t ++ 4#4))
  | .vperm sb v a b k t => some (pack sb 0x38 (v ++ a ++ b ++ k ++ t ++ 5#4))
  | .vbcast sb v a k t => some (pack sb 0x38 (v ++ a ++ 0#5 ++ k ++ t ++ 6#4))
  | .vslide sb v a b k t => some (pack sb 0x38 (v ++ a ++ b ++ k ++ t ++ 7#4))
  | .vcompress sb v a k t => some (pack sb 0x38 (v ++ a ++ 0#5 ++ k ++ t ++ 8#4))
  | .vexpand sb v a k t => some (pack sb 0x38 (v ++ a ++ 0#5 ++ k ++ t ++ 9#4))
  | .vsel sb v a b k t => some (pack sb 0x38 (v ++ a ++ b ++ k ++ t ++ 0xA#4))
  | .vcmpEq sb d a b k t => some (pack sb 0x39 (0#2 ++ d ++ a ++ b ++ k ++ t ++ 0#4))
  | .vcmpNe sb d a b k t => some (pack sb 0x39 (0#2 ++ d ++ a ++ b ++ k ++ t ++ 1#4))
  | .vcmpLt sb d a b k t => some (pack sb 0x39 (0#2 ++ d ++ a ++ b ++ k ++ t ++ 2#4))
  | .vcmpGe sb d a b k t => some (pack sb 0x39 (0#2 ++ d ++ a ++ b ++ k ++ t ++ 3#4))
  | .vcmpLe sb d a b k t => some (pack sb 0x39 (0#2 ++ d ++ a ++ b ++ k ++ t ++ 4#4))
  | .vcmpGt sb d a b k t => some (pack sb 0x39 (0#2 ++ d ++ a ++ b ++ k ++ t ++ 5#4))
  | .kand sb d a b => some (pack sb 0x39 (0#2 ++ d ++ 0#2 ++ a ++ 0#2 ++ b ++ 0#3 ++ 0#3 ++ 8#4))
  | .kor sb d a b => some (pack sb 0x39 (0#2 ++ d ++ 0#2 ++ a ++ 0#2 ++ b ++ 0#3 ++ 0#3 ++ 9#4))
  | .knot sb d a => some (pack sb 0x39 (0#2 ++ d ++ 0#2 ++ a ++ 0#2 ++ 0#3 ++ 0#3 ++ 0#3 ++ 0xA#4))
  | .kpop sb d a => some (pack sb 0x39 (d ++ 0#2 ++ a ++ 0#2 ++ 0#3 ++ 0#3 ++ 0#3 ++ 0xB#4))
  | .vcvt sb v a b k t => some (pack sb 0x3A (v ++ a ++ b ++ k ++ t ++ 0#4))
  | .vcvtFp8 sb v a e k t => some (pack sb 0x3A (v ++ a ++ 4#4 ++ e ++ k ++ 0#1 ++ t ++ 1#4))
  | .vqpack sb v a q k t => some (pack sb 0x3A (v ++ a ++ q ++ k ++ 0#1 ++ t ++ 2#4))
  | .vqunpack sb v a q k t => some (pack sb 0x3A (v ++ a ++ q ++ k ++ 0#1 ++ t ++ 3#4))
  | .vld sb v a k t => some (pack sb 0x3B (v ++ a ++ 0#5 ++ k ++ t ++ 0#4))
  | .vst sb v a k t => some (pack sb 0x3B (v ++ a ++ 0#5 ++ k ++ t ++ 1#4))
  | .vlds sb v a b k t => some (pack sb 0x3B (v ++ a ++ b ++ k ++ t ++ 2#4))
  | .vsts sb v a b k t => some (pack sb 0x3B (v ++ a ++ b ++ k ++ t ++ 3#4))
  | .vldx sb v a b k t => some (pack sb 0x3B (v ++ a ++ b ++ k ++ t ++ 4#4))
  | .vstx sb v a b k t => some (pack sb 0x3B (v ++ a ++ b ++ k ++ t ++ 5#4))
  | .fadd sb d a b f => some (pack sb 0x3C (d ++ a ++ b ++ f ++ 0#8))
  | .fsub sb d a b f => some (pack sb 0x3C (d ++ a ++ b ++ f ++ 1#8))
  | .fmul sb d a b f => some (pack sb 0x3C (d ++ a ++ b ++ f ++ 2#8))
  | .fdiv sb d a b f => some (pack sb 0x3C (d ++ a ++ b ++ f ++ 3#8))
  | .fsqrt sb d a f => some (pack sb 0x3C (d ++ a ++ 0#5 ++ f ++ 4#8))
  | .fmin sb d a b f => some (pack sb 0x3C (d ++ a ++ b ++ f ++ 5#8))
  | .fmax sb d a b f => some (pack sb 0x3C (d ++ a ++ b ++ f ++ 6#8))
  | .fcmpEq sb d a b f => some (pack sb 0x3C (d ++ a ++ b ++ f ++ 8#8))
  | .fcmpLt sb d a b f => some (pack sb 0x3C (d ++ a ++ b ++ f ++ 9#8))
  | .fcmpLe sb d a b f => some (pack sb 0x3C (d ++ a ++ b ++ f ++ 0xA#8))
  | .fcvt sb d a b f => some (pack sb 0x3C (d ++ a ++ b ++ f ++ 0x10#8))
  | .fcvtInt sb d a b f => some (pack sb 0x3C (d ++ a ++ 2#4 ++ b ++ f ++ 0x11#8))
  | .fclass sb d a f => some (pack sb 0x3C (d ++ a ++ 0#5 ++ f ++ 0x18#8))
  | .fsgnj sb d a b f => some (pack sb 0x3C (d ++ a ++ b ++ f ++ 0x19#8))
  | .fmvx sb d a f => some (pack sb 0x3C (d ++ a ++ 0#5 ++ f ++ 0x20#8))
  | .fmvf sb d a f => some (pack sb 0x3C (d ++ a ++ 0#5 ++ f ++ 0x21#8))
  | .fma sb d a b c f => some (pack sb 0x3D (d ++ a ++ b ++ c ++ f ++ 0#3))
  | .illegalInstruction => none
  | .homeAtomicApply => none
  | .homeArmApply => none
  | .homeDisarmApply => none
  | .homeWrite => none
  | .triggerMessageSend => none
  | .triggerMessageStatus => none
  | .triggerResend => none
  | .homeWaitgeEval => none
  | .conflictBackoffExpiry => none
  | .tokenGrant => none
  | .messageArrival => none
  | .amsendStatusReturn => none
  | .replyResend => none
  | .homeQueueApply => none
  | .retirementEntryFree => none
  | .xboundWrite => none
  | .tlbaseWrite => none
  | .dispthWrite => none
  | .mbdepthWrite => none
  | .loopRegisterWrite => none
  | .tpcWrite => none
  | .trapEntry => none
  | .copyOperationStart => none
  | .gatherSublistService => none
  | .copyRetire => none
  | .bufferGLoad => none
  | .holdExpiry => none
  | .arraySelect => none
  | .stationaryImageRead => none
  | .memberRetire => none
  | .transferOperationStart => none
  | .transferRetire => none
  | .resultArrival => none
  | .contextWake => none
  | .taskStart => none
  | .handlerStart => none
  | .recordPromotion => none
  | .stealProbeQuad => none
  | .stealProbeLayer => none
  | .stealProbeReply => none
  | .pageWalk => none
  | .blockPromotion => none
  | .blockEviction => none
  | .bankPowerUp => none
  | .timerExpiry => none
  | .partitionHalted => none
  | .preemptReport => none
  | .hostMemoryAccess => none
  | .hostSnoop => none
  | .modidWrite => none
  | .doorbell => none
  | .fqansResume => none
  | .fqansDecline => none
  | .fqansKill => none
  | .fqctlWrite => none
  | .aqctlEnable => none
  | .aqctlDisable => none
  | .hostRegisterWrite => none
  | .vectorUnmask => none
  | .coalesceTimerExpiry => none
  | .cpEventDispatch => none
  | .entryFetch => none
  | .launch => none
  | .launchPlacementResume => none
  | .launchQuadFree => none
  | .launchComplete => none
  | .marker => none
  | .form => none
  | .dissolve => none
  | .preempt => none
  | .resume => none
  | .switchOut => none
  | .switchIn => none
  | .setPasid => none
  | .teardown => none
  | .teardownComplete => none
  | .bindQueue => none
  | .setTimer => none
  | .setRelease => none
  | .join => none
  | .faultRecordPost => none
  | .railSample => none
  | .budgetRedivision => none
  | .operatingPointStep => none
  | .capMessage => none
  | .capLeaseExpiry => none
  | .setPartitionCap => none
  | .setModuleCap => none
  | .setPartitionRank => none
  | .setSafeCap => none
  | .patrolScrub => none
  | .quarterFailure => none
  | .recordModeEnable => none
  | .replay => none
  | .reset => none
  | .firmwareUpdate => none
  | .spdmRequest => none
  | .cacheLineEviction => none

/-- The word of an instruction that has one: what TVAL holds of a word whose form is illegal where it stands (R32). -/
def Instr.word (i : Instr) : Word32 := (encode i).getD 0

/-- The bytes of a word as memory holds them, the lowest address first (R27). -/
def wordBytes (w : Word32) : List Byte :=
  [w.extractLsb' 0 8, w.extractLsb' 8 8, w.extractLsb' 16 8, w.extractLsb' 24 8]

/-- The word that four bytes of memory hold (R27). -/
def wordOfBytes : List Byte → Word32
  | [b0, b1, b2, b3] => b3 ++ b2 ++ b1 ++ b0
  | _ => 0

/-- The decoder on the table's numbering of bits: words are 32 bits, the bits above `nbits` are 0. -/
def decodeTableWord (nbits w : Nat) : Option Instr :=
  match decode (wordOfBytes (wordBytes (BitVec.ofNat 32 (w % 2 ^ nbits)))) with
  | .ok i => some i
  | .illegal _ => none

end Sys2Proof
end

