-- ==== Sys2Proof/Machine/Map.lean ====
section
/-! DEFINITION. Tables of the state: lists of key and value pairs sorted by key, read with a default for a key not listed. -/

namespace Sys2Proof.Machine

/-- A sparse table: key and value pairs, keys rising. -/
abbrev Map (α : Type) := List (Nat × α)

/-- The entry at a key, or the default. -/
def Map.get {α : Type} (m : Map α) (dflt : α) (k : Nat) : α :=
  match m with
  | [] => dflt
  | (j, v) :: t => if k = j then v else Map.get t dflt k

/-- The table with the entry at a key set. -/
def Map.put {α : Type} (m : Map α) (k : Nat) (v : α) : Map α :=
  match m with
  | [] => [(k, v)]
  | (j, w) :: t =>
    if k < j then (k, v) :: (j, w) :: t
    else if k = j then (k, v) :: t
    else (j, w) :: Map.put t k v

/-- The table with the entry at a key removed. -/
def Map.drop {α : Type} (m : Map α) (k : Nat) : Map α := m.filter fun e => e.1 != k

/-- The entries whose keys pass a test. -/
def Map.keep {α : Type} (m : Map α) (ok : Nat → Bool) : Map α := m.filter fun e => ok e.1

/-- Is the key listed? -/
def Map.has {α : Type} (m : Map α) (k : Nat) : Bool := m.any fun e => e.1 == k

/-- A function applied to every entry. -/
def Map.mapVals {α : Type} (f : Nat → α → α) (m : Map α) : Map α := m.map fun e => (e.1, f e.1 e.2)

/-- Are the keys strictly rising? -/
def Map.sorted {α : Type} : Map α → Bool
  | [] => true
  | [_] => true
  | (j, _) :: (k, w) :: t => decide (j < k) && Map.sorted ((k, w) :: t)

end Sys2Proof.Machine
end

