-- ==== Sys2Proof/Machine/Memory.lean ====
section
/-! DEFINITION. Memory: a list of (address, byte) pairs in one canonical form, for physical memory (R180) and for the local
memory of each quad (R159). Addresses rise strictly and no entry holds the byte an unlisted address reads as. -/

namespace Sys2Proof.Machine

/-- Memory, as data. -/
abbrev Memory := List Host.Cell

/-- What a byte that nothing has written reads as (DESIGN CHOICE, logs 7 and 8; R176 for a bank powered up again). -/
def Memory.unlisted : Byte := 0

/-- The byte at an address. -/
def Memory.get (m : Memory) (a : Nat) : Byte :=
  match m with
  | [] => Memory.unlisted
  | (j, v) :: t => if a = j then v else Memory.get t a

/-- Memory with the byte at an address written; writing the unlisted byte removes the entry. -/
def Memory.set (m : Memory) (a : Nat) (b : Byte) : Memory :=
  match m with
  | [] => if b = Memory.unlisted then [] else [(a, b)]
  | (j, w) :: t =>
    if a < j then (if b = Memory.unlisted then (j, w) :: t else (a, b) :: (j, w) :: t)
    else if a = j then (if b = Memory.unlisted then t else (a, b) :: t)
    else (j, w) :: Memory.set t a b

/-- The canonical form: addresses strictly rising, no entry equal to the unlisted byte. -/
def Memory.wf : Memory → Bool
  | [] => true
  | [(_, v)] => v != Memory.unlisted
  | (j, v) :: (k, w) :: t => v != Memory.unlisted && decide (j < k) && Memory.wf ((k, w) :: t)

/-- `n` bytes from an address up, the lowest first. -/
def Memory.read (m : Memory) (a : Nat) : Nat → List Byte
  | 0 => []
  | n + 1 => m.get a :: Memory.read m (a + 1) n

/-- Bytes written from an address up, the lowest first. -/
def Memory.write (m : Memory) (a : Nat) : List Byte → Memory
  | [] => m
  | b :: bs => Memory.write (m.set a b) (a + 1) bs

/-- Memory with the bytes from `lo` up to but not including `hi` no longer listed (R176, R255). -/
def Memory.clear (m : Memory) (lo hi : Nat) : Memory := m.filter fun c => decide (c.1 < lo) || decide (hi ≤ c.1)

/-- The number that bytes hold, little-endian (R161). -/
def natOfBytes : List Byte → Nat
  | [] => 0
  | b :: bs => b.toNat + 256 * natOfBytes bs

/-- The low `n` bytes of a number, little-endian (R161). -/
def bytesOfNat : Nat → Nat → List Byte
  | 0, _ => []
  | n + 1, v => BitVec.ofNat 8 v :: bytesOfNat n (v / 256)

end Sys2Proof.Machine
end

