-- ==== Sys2Proof/Machine/Types.lean ====
section
/-! DEFINITION. The parts of the state that belong to a context, a core and a home slice.

Keys of the tables: a core is named by bits [13:0] of its ident value (R105, R219), that is
((die*4 + layer)*16 + y)*16 + x)*4 + core; a quad by that number without the two core bits; a context by 8 * core + 0 to 3
for a task context and + 4 for the handler context (R202); a quarter by 0 to 15 (R10); a gang by die*128 + y*8 + g (R12). -/

namespace Sys2Proof.Machine

/-- The registers of a context: x, v and k (R35). A register that is not listed holds 0. -/
structure Regs where
  x : Map Word := []
  v : Map VWord := []
  k : Map Word := []
deriving DecidableEq, Repr

/-- One level of hardware loop (R97 to R101): the three registers and the latched state. -/
structure LoopLevel where
  lc : Word := 0
  /-- START, a byte address with bits [21:2] (R101) -/
  ls : Word := 0
  /-- END, a byte address with bits [21:2] -/
  le : Word := 0
  act : Bool := false
  eb : Bool := false
  asn : Word := 0
  aen : Word := 0
deriving DecidableEq, Repr

/-- The control registers of context scope (R37, R136, R111, R342 to R345, R238, R239). -/
structure Ctl where
  fpctl : Word := 0
  nmode : Word := 0
  mfmta : Word := 0
  mfmtb : Word := 0
  mfmtc : Word := 0
  mscl : Word := 0
  tvec : Word := 0
  tpc : Word := 0
  tcause : Word := 0
  tval : Word := 0
  /-- TSTATUS.PASID, 20 bits (R238, R258) -/
  pasid : Nat := 0
  rpl : Bool := false
  intrap : Bool := false
  psys : Bool := false
  sys : Bool := false
deriving DecidableEq, Repr

/-- A register that an outstanding result will write (R93). -/
inductive Dst where
  | x (d : BitVec 5)
  | v (d : BitVec 5)
deriving DecidableEq, Repr

/-- A value for a register. -/
inductive RegWrite where
  | x (d : BitVec 5) (w : Word)
  | v (d : BitVec 5) (w : VWord)
deriving DecidableEq, Repr

/-- A value that stands behind an outstanding result (R73): the write, and the number of the first access that comes after the instruction
that wrote it, or of the access itself whose result it is. -/
structure Standing where
  by_ : Nat
  w : RegWrite
deriving DecidableEq, Repr

/-- What a register checkpoint holds (R292): the registers and the loop levels. A window keeps the control registers as well (R251), and
the values of R73 that stand behind outstanding results. -/
structure Snap where
  regs : Regs := {}
  lp0 : LoopLevel := {}
  lp1 : LoopLevel := {}
  ctl : Ctl := {}
  later : List Standing := []
deriving DecidableEq, Repr

/-- A checked memory byte address: a window offset of the context's quad, or a physical address (R161, R179, R180). -/
structure Ref where
  isLocal : Bool
  addr : Nat
  /-- the core whose slice is the line's home (R183); for a local address unused -/
  home : Nat := 0
  /-- the page's PC bit (R182) -/
  pc1 : Bool := false
deriving DecidableEq, Repr

/-- A floating-point exception that waits to be taken (R137): conditions, lane and the address of its instruction. -/
structure Deferred where
  cond : Word
  lane : Nat
  addr : Word
  /-- its place in program order -/
  seq : Nat := 0
  /-- FPCTL's enables when its instruction issued -/
  en : Nat := 0
deriving DecidableEq, Repr

/-- How the bytes a load returns become register values (R151, R161). -/
inductive LoadFin where
  /-- one x register: sign-extended or not -/
  | scalar (d : BitVec 5) (signed : Bool)
  /-- two x registers, d and d + 1 -/
  | pair (d : BitVec 5)
  /-- the given lanes of a v register, each of `bytes` bytes; the other lanes keep the value given -/
  | lanes (d : BitVec 5) (bytes : Nat) (ls : List Nat) (old : VWord)
deriving DecidableEq, Repr

/-- The operations of the amo forms (R274, R276), of cadd and barr (R278, R311) and of grab (R281). -/
inductive AmoOp where
  | add | and | or | xor | min | max | minz | maxz | swap | fadd | cas | cadd | grab
deriving DecidableEq, Repr

/-- A trigger record as arm captured it (R282, R283). -/
structure Trigger where
  /-- physical address of the counter -/
  addr : Nat
  threshold : Word
  entry : Word
  pri : Nat
  dest : Word
  args : List Word
  nxm : Bool
  pasid : Nat
  part : Nat
  slot : Nat
  serial : Nat
deriving DecidableEq, Repr

/-- An active message, or its answer on the way back (R219 to R224, R286). -/
structure Msg where
  /-- the header of R224 that the receiver's x3 takes -/
  header : Word
  /-- destination core -/
  dst : Nat
  dstModule : Nat
  chan : Nat
  isTask : Bool
  pri : Nat
  entry : Word
  payload : List Word
  nxm : Bool
  pasid : Nat
  reply : Bool := false
  /-- the context whose amsend waits for the status, and the number of the access -/
  sender : Option (Nat × Nat) := none
  /-- the home slice that sent it for a trigger -/
  slice : Option Nat := none
  /-- the counter's physical address, for the record of a lost delivery (R432) -/
  counter : Nat := 0
  destWord : Word := 0
  /-- the status word, once the destination has decided (R220) -/
  answer : Option Word := none
deriving DecidableEq, Repr

/-- What an issued access or operation still has to do. -/
inductive OutOp where
  /-- nothing: its result is computed (R72, R138) -/
  | value
  | load (at_ : List Ref) (fin : LoadFin) (nc : Bool)
  | store (cells : List (Ref × Byte))
  | amo (r : Ref) (op : AmoOp) (bytes : Nat) (d : BitVec 5) (b c : Word) (rm : Word) (va : Word)
  | waitge (r : Ref) (d : BitVec 5) (b : Word)
  | arm (r : Ref) (d : BitVec 5) (t : Trigger)
  | disarm (r : Ref) (d : BitVec 5) (handle : Word)
  /-- `pageEnd` is where the descriptor's page ends, `upTo` where the queue's slots did at issue -/
  | enq (r : Ref) (d : BitVec 5) (record : List Byte) (host : Bool) (pageEnd upTo : Nat)
  | deq (r : Ref) (d : BitVec 5) (pageEnd upTo : Nat)
  | send (d : BitVec 5)
  /-- a reply that is to leave once the accesses before it are performed (R223, R229) -/
  | reply (m : Msg)
  /-- the fence.quad that the acquire and release forms act as at a local address (R196), of a context of the quad -/
  | fence (quad : Nat)
  /-- the release towards an operation or a task that the context, of this number, has started (R211, R328, R366, R384): nothing is left to
  do once every earlier access has been performed -/
  | start (ctx : Nat)
deriving DecidableEq, Repr

/-- The release of a context that an operation or a task has still to see performed before its first access (R211, R328, R366, R384): the
context and the number of the release. There is none where every earlier access had been performed at issue. -/
abbrev Gate := Option (Nat × Nat)

/-- The result of an operation: register values, floating-point conditions to record, a counter carry (R275, R278). -/
structure Ans where
  writes : List RegWrite
  fp : Option Deferred := none
  carry : Option Word := none
deriving DecidableEq, Repr

/-- An access or operation that has issued and whose result has not been written, or that is not yet performed
(R92 to R94, R163, R195). `seq` is its place in the context's program order. -/
structure Out where
  seq : Nat
  pc : Word
  op : OutOp
  dsts : List Dst := []
  ans : Option Ans := none
  acq : Bool := false
  rel : Bool := false
  /-- a pure result, which a pre-emption abandons (R248) -/
  pure : Bool := false
  /-- bytes of one element of a store (R152) -/
  vsize : Nat := 0
  /-- bytes of a load that are bound already, by their place in the load (R151, R162) -/
  bound : List (Nat × Byte) := []
  /-- a waitge has been tested and found unsatisfied: it is tested again at each write of its line (R310) -/
  tested : Bool := false
  /-- performed again by a replay: its result is held back to the first settle point at or after the halt position (R252) -/
  held : Bool := false
deriving DecidableEq, Repr

/-- What a sleeping context waits for besides its jacks (R167, R308): a tile entry or ring of its quad, or the stacker of its
gang. -/
inductive WaitOn where
  | tile (n : Nat)
  | ring (n : Nat)
  | gang
deriving DecidableEq, Repr

/-- What a context is doing (R202, R243, R263, R304, R305). A handler context that is free is idle; `ending` is a killed context whose
side effects are not all complete. -/
inductive Status where
  | free
  | ending
  | running
  | sleeping (w : List WaitOn)
  | suspended
  | backoff
  | token
deriving DecidableEq, Repr

/-- One byte an attempt has written: where, its value, and whether its store replaces the byte's whole 64-bit word (R427). -/
structure BufByte where
  r : Ref
  b : Byte
  whole : Bool := false
deriving DecidableEq, Repr

/-- One level of an attempt (R290, R298). Lines are numbered as `lineOf` numbers them. -/
structure Level where
  tbpc : Word
  branchPc : Word
  alt : Bool := false
  ck : Snap
  reads : List Nat := []
  writes : List Nat := []
  /-- newest first -/
  buf : List BufByte := []
deriving DecidableEq, Repr

/-- An open attempt (R290 to R306), innermost level first. -/
structure Attempt where
  levels : List Level
  stamp : Nat
  /-- xd of the outermost tbegin -/
  xd : BitVec 5
  irrevocable : Bool := false
  unprot : Bool := false
  wrote : Bool := false
  /-- traps entered within it and not returned from (R246) -/
  traps : Nat := 0
  /-- tile entries and rings in the retry set (R167) -/
  extra : List WaitOn := []
  /-- the home slices of the lines it has read and written (R430) -/
  homes : List Nat := []
deriving DecidableEq, Repr

/-- A series of conflict aborts (R304): how many so far, and the stamp it keeps. -/
structure Series where
  count : Nat
  stamp : Nat
deriving DecidableEq, Repr

/-- Facts of a task (R204, R215, R232, R397). -/
structure TaskFacts where
  pri : Nat := 0
  portable : Bool := false
  stolen : Bool := false
  /-- SRC of R232 -/
  src : Nat := 0
  seq : Nat := 0
  launch : Option Nat := none
deriving DecidableEq, Repr

/-- A task record in a run queue (R203, R205, R206). -/
structure Record where
  entry : Word
  pri : Nat
  flags : Nat
  /-- x3 at the start -/
  x3 : Word
  /-- x4 upward at the start -/
  args : List Word
  nxm : Bool
  pasid : Nat
  src : Nat
  launch : Option Nat := none
  stolen : Bool := false
  /-- the release of the spawn that made it (R211) -/
  gate : Gate := none
deriving DecidableEq, Repr

/-- A translation as a TLB holds it (R260, R261). -/
structure Tlb where
  pasid : Nat
  /-- the page's virtual base -/
  base : Nat
  /-- log2 of its size -/
  bits : Nat
  pa : Nat
  homing : Nat
  w : Bool
  r : Bool
deriving DecidableEq, Repr

/-- A completion word as mldb, mgang and mms take it (R349, R351, R353): none for 0. -/
abbrev CWord := Option Ref

/-- The key of an instance (R355). -/
structure Key where
  pb : Nat
  fmt : Nat
  bscl : Nat
  ofmt : Nat
  rm : Nat
  nxm : Bool
  domain : Nat
deriving DecidableEq, Repr

/-- What one core brings to an operation: a member of an instance (R353) or an arrival at the barrier (R350, R351). -/
structure Member where
  core : Nat
  /-- the context that submitted it, while its task goes on -/
  ctx : Option Nat
  /-- the number of the access that submitted it -/
  seq : Nat
  ident : Nat
  rows : Nat
  row0 : Nat := 0
  stile : Nat
  dtile : Nat
  consume : Bool := false
  cin : Bool
  ascl : Nat
  cscl : Nat := 0
  cword : CWord
  pri : Nat
  hold : Nat := 0
  /-- the translation of its image (R361) -/
  page : Tlb := { pasid := 0, base := 0, bits := 0, pa := 0, homing := 0, w := false, r := false }
  /-- the launch whose task submitted it (R397) -/
  launch : Option Nat := none
  /-- the space in which its completion word was translated (R266) -/
  pasid : Nat := 0
  /-- the release of the instruction that brought it (R366) -/
  gate : Gate := none
deriving DecidableEq, Repr

/-- An mms, which its context issues again when a pre-emption withdraws its member (R254): its place, the registers as they stood, the
registers that it names and its identifier. -/
structure Resub where
  seq : Nat
  pc : Word
  snap : Snap
  d : BitVec 5
  a : BitVec 5
  b : BitVec 5
  c : BitVec 5
  ident : Nat
deriving DecidableEq, Repr

/-- A result that has returned in a window (R251): after how many of its positions, of which access, the registers that waited for it, and
what it gave. -/
structure Buffered where
  at_ : Nat
  seq : Nat
  dsts : List Dst
  ans : Ans
deriving DecidableEq, Repr

/-- A position of a window (R251): its address, the number of its first access and how many it issued, whether it is a settle point, whether
it was an accepted side effect, and then the value it gave a register at issue. -/
structure Pos where
  pc : Word
  seq : Nat
  n : Nat
  settles : Bool
  done : Bool
  writes : List RegWrite := []
deriving DecidableEq, Repr

/-- The entry state of a window (R251), as it stood before the instruction at its first position issued, with what was pending and the
counts of that moment. -/
structure Entry where
  snap : Snap := {}
  prevPc : Word := 0
  seq : Nat := 0
  deferred : Option Deferred := none
  carry : Option Word := none
  free : Nat := 0
  issued : Nat := 0
  window : Nat := 0
deriving DecidableEq, Repr

/-- A window that is replayed (R252): how many positions it has passed, those still to come, the results that are still to arrive from the
buffer, and how far the context had come when it was last halted. `at_` is the address at which a cause has interrupted it (R253). -/
structure Strip where
  at_ : Word := 0
  pos : Nat := 0
  trail : List Pos
  arrivals : List Buffered
  stop : Nat
  /-- for a withdrawn mms of an earlier window: where the context stood, with its registers then and at the mms -/
  back : Option (Word × Snap × Snap) := none
  /-- results that an interrupted replay holds back or that have come from the buffer too early for their registers, and the values that
  stand behind outstanding results: both stay with it (R252, R253) -/
  outs : List Out := []
  later : List Standing := []
deriving DecidableEq, Repr

/-- The replays of a context (R252, R253): the one that goes on, and those that a cause has interrupted, the latest first. -/
structure Replay where
  active : Option Strip
  cuts : List Strip := []
deriving DecidableEq, Repr

/-- What the outermost tbegin of an attempt that a pre-emption has aborted is to write in place of opening an attempt (R313): the
status, the address of that tbegin, and INTRAP there. -/
structure Preempted where
  status : Word
  at_ : Word
  intrap : Bool
deriving DecidableEq, Repr

/-- One context (R35, R202). -/
structure Ctx where
  regs : Regs := {}
  lp0 : LoopLevel := {}
  lp1 : LoopLevel := {}
  ctl : Ctl := {}
  pc : Word := 0
  status : Status := .free
  /-- halted by a pre-emption (R248) -/
  halted : Bool := false
  /-- the mark of an attempt that a pre-emption has aborted (R313) -/
  preempted : Option Preempted := none
  /-- the address issued before (R102) -/
  prevPc : Word := 0
  /-- instructions issued in the open settle window (R95) -/
  window : Nat := 0
  /-- the window's state (R251): at its entry, its positions, and the results that have returned in it -/
  entry : Entry := {}
  trail : List Pos := []
  buffer : List Buffered := []
  /-- the next instruction opens a window -/
  opens : Bool := true
  /-- `window` and `opens` as they were before the instruction whose turn it is was counted (R95, R240; DESIGN CHOICE, log 1) -/
  uncounted : Nat × Bool := (0, true)
  /-- the split instruction buffer: word addresses and words (R91, R104) -/
  ibuf : Map Word32 := []
  /-- in program order -/
  outs : List Out := []
  /-- values that later instructions wrote to registers with a result outstanding (R73) -/
  later : List Standing := []
  /-- number of the next access -/
  nextSeq : Nat := 0
  deferred : Option Deferred := none
  carry : Option Word := none
  timers : Nat := 0
  power : Option Word := none
  attempt : Option Attempt := none
  series : Option Series := none
  /-- lines of the attempt or wait for which a jack stands (R307) -/
  jacks : List Nat := []
  /-- a jack has sprung, or another wake is on its way (R307, R308) -/
  wake : Bool := false
  /-- the time base when it went to sleep, for the order of wakes (R167; DEDUCED, log 64) -/
  since : Nat := 0
  /-- what it has been woken on and has not issued for yet (R167) -/
  woke : List WaitOn := []
  fuzzy : Option Word := none
  task : TaskFacts := {}
  msg : Option Msg := none
  replay : Option Replay := none
  /-- mms whose members wait in a stacker (R254) -/
  subs : List Resub := []
  /-- the stacker has made its oldest OPEN instance DUE for an mms that waits for room: the instructions issued before that one (R356) -/
  asked : Option Nat := none
  /-- mms that a pre-emption has withdrawn and that are still to be issued again (R254) -/
  resubs : List Resub := []
  /-- the translation fault on which the context is suspended: its reason and address -/
  faulted : Nat × Word := (0, 0)
  /-- a translation fault that the host has declined (R263): its reason and address -/
  declined : Option (Nat × Word) := none
  /-- counters 1 and 6 of R268 -/
  issued : Nat := 0
  slept : Nat := 0
  /-- what every earlier access must have passed before a later one is performed is in `outs`; this is the free choice
  number (DESIGN CHOICE, log 4) -/
  free : Nat := 0
deriving DecidableEq, Repr

/-- One core (R205, R210, R217, R225). -/
structure Core where
  queue : List Record := []
  requests : List Msg := []
  replies : List Msg := []
  /-- replies refused or on their way (R229) -/
  sending : List Msg := []
  mbdepth : Nat := 16
  thresh : Nat := 28
  mkeydom : Word := 0
  fduty : Nat := 16
  rr : Nat := 0
  starts : Nat := 0
  /-- the retention of halt.k: bank mask and entry (R177) -/
  retain : Option (Word × Word) := none
  /-- the outstanding accesses of tailed tasks, one list an entry, with the launch they belong to (R217) -/
  tracker : List (Option Nat × List Out) := []
  /-- a probe of R214: the victim, and the record it took once it has reached it -/
  probe : Option (Nat × Option Record) := none
  missued : Nat := 0
  /-- MISSUED's status entries (R362), 64 at most, by identifier modulo 64 -/
  mstatus : Map Word := []
  refusals : Nat := 0
  /-- requested operating point (R9) -/
  point : Nat := 0
  /-- instructions issued since the last redivision (R420) -/
  issues : Nat := 0
deriving DecidableEq, Repr

/-- A trigger's message that no core has accepted yet (R285, R286, R212): is it on its way, has it been refused? -/
structure Fired where
  msg : Msg
  sent : Bool := false
  refused : Bool := false
  /-- the teardown of its PASID has begun (R411) -/
  torn : Bool := false
deriving DecidableEq, Repr

/-- One home slice (R282, R285, R307, R309). -/
structure Slice where
  /-- jacks: line and context -/
  jacks : List (Nat × Nat) := []
  overflow : List Nat := []
  triggers : List Trigger := []
  /-- SERIAL count of each partition -/
  serials : Map Nat := []
  /-- in firing order -/
  fired : List Fired := []
deriving DecidableEq, Repr

/-- A tile entry's state (R164). -/
inductive TileState where
  | empty | filling | ready | draining
deriving DecidableEq, Repr

/-- A bound tile (R164). -/
structure Tile where
  off : Nat
  size : Nat
  st : TileState
  eng : Bool := false
deriving DecidableEq, Repr

/-- A bound ring (R171, R174). `pushes` and `pops` are the reservations and claims in flight, oldest first, by number, with how
each has ended. -/
structure Ring where
  base : Nat
  size : Nat
  count : Nat
  head : Nat
  occ : Nat
  res : Nat := 0
  clm : Nat := 0
  pushes : List (Nat × Option Bool) := []
  pops : List (Nat × Bool) := []
  next : Nat := 0
deriving DecidableEq, Repr

end Sys2Proof.Machine
end

