-- ==== Sys2Proof/Machine/Engines.lean ====
section
/-! DEFINITION. The parts of the state that belong to a quad, its engines, a gang, a quarter and a die. -/

namespace Sys2Proof.Machine

/-- The shadow set of a copy context, and the working set that an operation latches (R38, R318, R319). -/
structure CopyRegs where
  src : Word := 0
  dst : Word := 0
  ext : List Word := [1, 1, 1, 1]
  sstride : List Word := [0, 0, 0, 0]
  dstride : List Word := [0, 0, 0, 0]
  fmt : Word := 0
deriving DecidableEq, Repr

/-- The descriptor of a gather or scatter (R334). -/
structure GatherRegs where
  scatter : Bool
  index : Word
  count : Nat
  rowsize : Nat
  table : Word
  extent : Nat
  local_ : Word
  lkind : Nat
  lobj : Nat
deriving DecidableEq, Repr

/-- What an operation of a copy context does. -/
inductive CopyWork where
  | copy (r : CopyRegs)
  | gather (g : GatherRegs)
deriving DecidableEq, Repr

/-- Bytes that an operation places in one aligned 8-byte word, which it writes in one access (R337): the word's address, and the quad
of a local one; the address that FADDR names where it cannot be written; the bytes by their place in the word. -/
structure Placed where
  quad : Nat := 0
  dword : Word
  first : Word
  bytes : List (Nat × Byte)
deriving DecidableEq, Repr

/-- A word's bytes with others that a later element places there. -/
def Placed.overlaid (p : Placed) (bs : List (Nat × Byte)) : Placed := { p with bytes := bs.foldl (fun l b => b :: l.filter (·.1 != b.1)) p.bytes }

/-- One more placing in an operation's list, which holds each word once, in the order in which elements first reached them. -/
def Placed.put (p : Placed) : List Placed → List Placed
  | [] => [p]
  | x :: t => if x.quad = p.quad ∧ x.dword = p.dword then x.overlaid p.bytes :: t else x :: p.put t

/-- One operation in a copy context's queue (R317, R323): its number, its sampled state and how far it has come. -/
structure CopyOp where
  num : Nat
  work : CopyWork
  sbase : Word
  dbase : Word
  rm : Word
  nxm : Bool
  pasid : Nat
  /-- claim of a ring source, reservation of a ring destination -/
  sslot : Option Nat := none
  dslot : Option Nat := none
  started : Bool := false
  /-- elements, blocks or positions read and converted, in walk order -/
  next : Nat := 0
  /-- the aligned words that a copy has read, each once (R337), by `Ref.wordKey` -/
  seen : Map (List Byte) := []
  /-- its walk is over: no further element starts -/
  walked : Bool := false
  /-- what it is still to write -/
  buf : List Placed := []
  finished : Bool := false
  /-- cpabort has stopped it (R331) -/
  abort : Bool := false
  /-- REASON and address of the failure that ended it (R325) -/
  fail : Option (Nat × Word) := none
  cond : Word := 0
  oor : Bool := false
  /-- the launch whose task issued it (R397) -/
  launch : Option Nat := none
  /-- the release of the instruction that issued it (R328) -/
  gate : Gate := none
deriving DecidableEq, Repr

/-- A copy context (R317, R330). -/
structure CopyCtx where
  regs : CopyRegs := {}
  queue : List CopyOp := []
  issued : Nat := 0
  done : Nat := 0
  status : Word := 0
  faddr : Word := 0
deriving DecidableEq, Repr

/-- A loaded weight set: rows, cols and nine FP32 weights, row by row (R370). -/
structure WeightSet where
  rows : Nat
  cols : Nat
  w : List Word
deriving DecidableEq, Repr

/-- The four transfer forms (R374). -/
inductive TransferKind where
  | rstr | rstrF | prlg | prlgF
deriving DecidableEq, Repr

/-- One operation in a transfer engine's queue (R374, R382). -/
structure TransferOp where
  num : Nat
  kind : TransferKind
  xa : Word
  xb : Word
  set : WeightSet
  rm : Word
  started : Bool := false
  /-- outputs computed -/
  next : Nat := 0
  /-- elements read, each once (R382): by quad and offset, with whether they were poisoned -/
  seen : Map (Nat × Bool) := []
  /-- what it is still to write -/
  buf : List Placed := []
  finished : Bool := false
  /-- a teardown has stopped it (R411) -/
  abort : Bool := false
  pasid : Nat := 0
  cond : Word := 0
  launch : Option Nat := none
  /-- the release of the instruction that issued it (R384) -/
  gate : Gate := none
deriving DecidableEq, Repr

/-- A record held by the record cache (R333), most recently used first in the cache's list. -/
structure CachedRecord where
  pasid : Nat
  va : Word
  bytes : List Byte
deriving DecidableEq, Repr

/-- One quad (R9, R103, R159, R164, R171, R176, R261, R317, R327, R333, R370, R374, R424). -/
structure Quad where
  mem : Memory := []
  xbound : Word := 0
  tiles : Map Tile := []
  rings : Map Ring := []
  /-- banks without power -/
  down : Word := 0
  release : Word := 0
  copy : Map CopyCtx := []
  tlbase : Word := 0
  tlpasid : Nat := 0
  records : List CachedRecord := []
  weights : Map WeightSet := []
  tq : List TransferOp := []
  tissued : Nat := 0
  tdone : Nat := 0
  tstatus : Word := 0
  tlb : List Tlb := []
  /-- misses of its TLB, by core (R268) -/
  misses : Map Nat := []
  /-- local words whose stored check fails (R427), by byte offset divided by 8 -/
  poison : List Nat := []
  /-- the images a launch last placed: code address, bytes, data address, bytes, offset, XBOUND (R407) -/
  images : Option (List Word) := none
  /-- banks powered down since then -/
  lost : Word := 0
  /-- what its engines have done since the last redivision: elements, outputs, words and rows (R420) -/
  work : Nat := 0
  point : Nat := 0
  target : Nat := 0
  /-- a power emergency holds it (R422) -/
  emerg : Bool := false
  /-- last sample of its junction sensor, in degrees Celsius (R415, R422) -/
  temp : Nat := 0
deriving DecidableEq, Repr

/-- The identity of a stationary buffer (R349). -/
structure BufId where
  pa : Nat
  fmt : Nat
  bscl : Nat
  nxm : Bool
deriving DecidableEq, Repr

/-- A stationary buffer: its identity and its image, mantissas then scales (R341, R347). `bad` lists the columns in which a
poisoned word was read (R427). -/
structure Buffer where
  id : BufId
  mant : List Byte
  scales : List Byte
  bad : List Nat := []
deriving DecidableEq, Repr

/-- A load of buffer G that has been accepted (R349), with the time it reached the gang. -/
structure BufLoad where
  /-- the core that issued it -/
  core : Nat
  id : BufId
  cword : CWord
  made : Nat
  /-- the context that issued it, while its task goes on, for mdrain (R365) -/
  ctx : Option Nat
  launch : Option Nat := none
  /-- the address of its completion word, for the carry that its issuer takes (R278) -/
  va : Word := 0
  /-- accepted before a full context switch: its identity never becomes current (R352) -/
  old : Bool := false
  /-- the space in which its image and its completion word were translated (R266) -/
  pasid : Nat := 0
  /-- the release of the mldb (R366) -/
  gate : Gate := none
deriving DecidableEq, Repr

/-- The states of an instance (R356); a FREE instance is not listed. -/
inductive InstState where
  | isOpen | due | running
deriving DecidableEq, Repr

/-- An instance of the stacker (R356). `due` is the time it became DUE, `made` the time it was opened. -/
structure Inst where
  key : Key
  st : InstState := .isOpen
  members : List Member
  made : Nat
  due : Nat := 0
  /-- it has reached 64 rows and takes no more members (R356) -/
  full : Bool := false
  /-- its image, once it is in S0 or S1 (R358) -/
  image : Option Buffer := none
deriving DecidableEq, Repr

/-- An arrival at the wired barrier (R350, R352), with what core 0 gives the operation: the format, the output format, the
rounding mode, NXM. -/
structure Arrival where
  m : Member
  fmt : Nat
  ofmt : Nat
  rm : Nat
  nxm : Bool
deriving DecidableEq, Repr

/-- A member's part of an operation that has streamed: its output by local offset, its conditions, and whether an element is
NaN; for mgang, whether buffer G was empty. -/
structure Streamed where
  m : Member
  cells : List (Nat × Byte)
  cond : Nat
  nan : Bool
  nobuf : Bool := false
  /-- a byte that it has read lies in the code region or is not backed (R15, R160) -/
  barred : Bool := false
  /-- its source tile is its own: not of cores 1 to 7 of an mgang -/
  source : Bool := true
deriving DecidableEq, Repr

/-- An operation that the array has taken (R341, R360): the instance it belongs to, and the members still to retire. -/
structure Run where
  inst : Option Nat
  left : List Streamed
deriving DecidableEq, Repr

/-- A gang (R12, R341, R350, R356). -/
structure Gang where
  bufG : Option Buffer := none
  loads : List BufLoad := []
  /-- the identity of the latest load accepted, which a context switch keeps though it empties buffer G (R351, R352) -/
  latest : Option BufId := none
  /-- by gang core -/
  arrivals : Map Arrival := []
  /-- mgang operations whose barrier has completed, oldest first, with the completion time -/
  ready : List (Nat × Map Arrival) := []
  insts : Map Inst := []
  /-- operations that have streamed and whose members have not all retired, in the order in which the array took them: it is free again once
  one has streamed (R341, R358, R360) -/
  runs : List Run := []
deriving DecidableEq, Repr

/-- A quarter (R10, R261, R305, R421, R428). The token's holder is a context. -/
structure Quarter where
  tlb : List Tlb := []
  /-- translations that its TLBs have held since they were last invalidated: accesses may still use them (R194, R266) -/
  used : List Tlb := []
  token : Option Nat := none
  waiters : List Nat := []
  failed : Bool := false
  /-- last sample of its logic rail, ballast included (R421, R423) -/
  rail : Nat := 0
deriving DecidableEq, Repr

/-- A die (R185, R188, R192, R193). -/
structure Die where
  promoted : List Nat := []
  /-- hints by 64 KiB block: 1 hot, 2 keep, with the partition that gave it -/
  hints : Map (Nat × Nat) := []
  /-- copies of PC = 1 lines in the remote-data cache: line number and bytes -/
  rdc : Map (List Byte) := []
  /-- last samples of its SRAM-tier, DRAM-tier and HBM4 rails (R421) -/
  rails : List Nat := []
deriving DecidableEq, Repr

end Sys2Proof.Machine
end

