-- ==== Sys2Proof/Machine/HostTypes.lean ====
section
/-! DEFINITION. The parts of the state that belong to a partition, the command processor, the host registers and Jidjasol. -/

namespace Sys2Proof.Machine

/-- An address space of a partition (R258, R409): its root node, the homing of its table nodes, and a teardown under way. -/
structure Pasid where
  root : Nat
  homing : Nat
  tearing : Bool := false
  /-- the entry of queue 0 that asked for the teardown -/
  entry : Nat := 0
deriving DecidableEq, Repr

/-- What a switched-out partition keeps (R255): the state of its contexts, cores, quads and gangs. -/
structure SavedImage where
  ctxs : Map Ctx := []
  cores : Map Core := []
  quads : Map Quad := []
  gangs : Map Gang := []
  /-- tokens and their waiters (R305) -/
  quarters : Map Quarter := []
deriving DecidableEq, Repr

/-- Where a partition stands (R248, R255). -/
inductive PartMode where
  | running
  | stopping
  | preempted
  | out
deriving DecidableEq, Repr

/-- A join of R409: a remote module and its quarter mask. -/
structure Join where
  module : Nat
  quarters : Nat
deriving DecidableEq, Repr

/-- The window of 1 ms over which a limit is met on average, counted from when the limit took effect (R421): the setting that took effect,
the sum and number of samples, and the average of the last whole window, in milliwatts. -/
structure PowerWindow where
  setting : Nat := 0
  energy : Nat := 0
  samples : Nat := 0
  average : Nat := 0
deriving DecidableEq, Repr

/-- A partition (R11, R258, R409, R415, R419). -/
structure Part where
  quarters : Nat
  save : List Word
  mode : PartMode := .running
  pasids : Map Pasid := []
  timer : Nat := 0
  joins : List Join := []
  /-- release masks by layer (R176, R409) -/
  release : Map Word := []
  image : SavedImage := {}
  /-- queue 0's entry that waits for the report of R396 -/
  report : Option Nat := none
  /-- the report is followed by the rest of a switch-out (R255) -/
  switching : Bool := false
  cap : Option Nat := none
  rank : Nat := 0
  epochs : Nat := 0
  last : Nat := 0
  emerg : Bool := false
  cur : Nat := 0
  /-- its power at the last sample, in milliwatts; its part of each rail's sample, ballast included (R421, R423) -/
  power : Nat := 0
  levels : List Nat := []
  /-- the windows of its limits, by code (R421) -/
  windows : Map PowerWindow := []
  /-- the lowest of its limits at the last redivision (R415, R420), in milliwatts -/
  budget : Option Nat := none
  /-- ballast runs for it, and for how many samples it has while the partition was over its budget (R423) -/
  ballast : Bool := false
  overrun : Nat := 0
deriving DecidableEq, Repr

/-- What holds a launch up (R209, R407). -/
inductive LaunchState where
  | images
  | placing
  | running
  | done
deriving DecidableEq, Repr

/-- A launch the command processor has begun (R407, R397). -/
structure Launch where
  queue : Nat
  entry : Nat
  part : Nat
  pasid : Nat
  record : List Byte
  st : LaunchState := .images
  /-- target quads still to be given their images -/
  todo : List Nat := []
  /-- records placed so far, and tasks of them not yet ended -/
  placed : Nat := 0
  live : Nat := 0
  /-- a record has left the queue of a target since placing paused (R205, R209) -/
  drained : Bool := false
  kills : Bool := false
deriving DecidableEq, Repr

/-- A submission queue (R403 to R406). -/
structure HQueue where
  bound : Bool := false
  log2n : Nat := 0
  vector : Nat := 0
  pasid : Nat := 0
  part : Nat := 0
  base : Word := 0
  cpl : Word := 0
  sts : Word := 0
  rung : Nat := 0
  fetched : Nat := 0
  /-- entries fetched and not yet started, each with its 64 bytes -/
  entries : List (Nat × List Byte) := []
  /-- entries started and not completed: number and NOINT -/
  running : List (Nat × Bool) := []
  /-- numbers of completed entries beyond the completion value -/
  finished : List Nat := []
  value : Nat := 0
  dead : Bool := false
  failed : Bool := false
  /-- AQCTL.EN has been written 0 and entries are still to complete (R404) -/
  stopping : Bool := false
deriving DecidableEq, Repr

/-- A fault record (R264). -/
structure FaultRec where
  va : Word
  val : Word := 0
  pasid : Nat
  kind : Nat
  reason : Nat
  access : Nat := 0
  count : Nat := 1
  origin : Word
  /-- contexts suspended on it -/
  covers : List Nat := []
deriving DecidableEq, Repr

/-- An MSI-X vector (R399, R412): its table entry's message address and data, its coalescing register, events gathered, mask and the
interrupts sent. -/
structure Vect where
  addr : Word := 0
  data : Nat := 0
  count : Nat := 32
  time : Nat := 4
  gathered : Nat := 0
  /-- after reset a vector is masked (PRESUMED, log 63) -/
  masked : Bool := true
  pending : Bool := false
  sent : Nat := 0
deriving DecidableEq, Repr

/-- What the command processor is to store for a queue, or to signal, in order (R397, R404, R406, R412). -/
inductive CpStore where
  /-- the status of an entry that has completed -/
  | status (q n code : Nat)
  /-- the completion value, where it rises -/
  | value (q : Nat)
  /-- 0 to the completion word of a queue that has just been enabled -/
  | zero (q : Nat)
  /-- COUNT of a fault record that the host holds -/
  | count (n : Nat)
  | signal (vector : Nat)
deriving DecidableEq, Repr

/-- The command processor and the host register block (R400 to R412). -/
structure Cp where
  fwstat : Nat := 1
  modid : Word := 0
  fqbase : Word := 0
  fqctl : Word := 0
  fqtail : Nat := 0
  fqhead : Nat := 0
  aqbase : Word := 0
  aqctl : Word := 0
  aqcpl : Word := 0
  aqsts : Word := 0
  queues : Map HQueue := []
  vectors : Map Vect := []
  /-- steps that the event queue will hand out, oldest first, with their arguments (R402) -/
  events : List (Instr × List Nat) := []
  /-- what the firmware cores that are not idle process, twelve at most (R402) -/
  cores : List (Instr × List Nat) := []
  /-- stores still to be performed, oldest first: an irrevocable attempt may hold a line (R306) -/
  stores : List CpStore := []
  launches : List Launch := []
  /-- records inside the command processor that the fault queue has not taken -/
  waiting : List FaultRec := []
  /-- translation records posted and not answered, by number -/
  outstanding : Map FaultRec := []
  /-- staged firmware: versions by image; and fused minimum versions (R413) -/
  staged : Map Nat := []
  fused : Map Nat := []
  /-- versions of the firmware images that run -/
  versions : Map Nat := []
  /-- the answer of the last SPDM request: accepted or error (R414) -/
  spdm : Option Bool := none
  /-- what the responder last answered with: a measurement, the certificate chain (R414) -/
  spdmData : List Byte := []
  /-- bytes of the last CXL.mem read, and whether poison came with them (R399, R427) -/
  hostData : List Byte := []
  hostPoison : Bool := false
deriving DecidableEq, Repr

/-- A cap message in force (R416, R417). -/
structure CapMsg where
  rankth : Nat
  cap : Nat
  lease : Nat
  seq : Word
  /-- its lease has not expired -/
  live : Bool := true
deriving DecidableEq, Repr

/-- Where an error arises (R425): a tier of a die, or the link from it to the next one. -/
inductive ErrorUnit where
  | tier (die n : Nat)
  | link (die n : Nat)
deriving DecidableEq, Repr

/-- A report of an error (R425, R426): where, and whether it could be corrected. -/
structure ErrorReport where
  unit : ErrorUnit
  corrected : Bool
deriving DecidableEq, Repr

/-- Jidjasol (R415 to R418, R422, R425, R426, R428, R430). -/
structure Jid where
  group : Nat := 0
  last : Option CapMsg := none
  safecap : Nat := 0
  saferank : Nat := 8
  modcap : Option Nat := none
  malformed : Nat := 0
  /-- errors counted by unit, and their reports, oldest first -/
  counts : List (ErrorUnit × Nat) := []
  reports : List ErrorReport := []
  /-- transfers over a link that have had one parity error and are retried: the word they carry -/
  retries : List (ErrorUnit × Nat × Nat) := []
  failed : Nat := 0
  /-- its firmware has failed verification and does not run (R413) -/
  down : Bool := false
  /-- a power emergency holds (R422) -/
  emergency : Bool := false
  /-- a sample since the last redivision was out of bounds -/
  outOfBounds : Bool := false
  /-- what ballast still draws of each rail for partitions that have been dissolved (R423) -/
  fallen : List (List Nat) := []
deriving DecidableEq, Repr

/-- The orders that a recording logs (R430): records as a launch places them, host input, arrivals at a mailbox, groupings of a
stacker, commits and atomics at a home slice, triggers, timer and power causes. -/
inductive Order where
  | launch | host | mailbox | grouping | home | trigger | async
deriving DecidableEq, Repr

/-- One entry of a recording (R430): the kind of order, the object whose order it is, and what came. For a launch: a core and the record it
is given; a quad, an offset and the bytes of an image; a quad and XBOUND. For host input: the address and the bytes. For an asynchronous
cause: a context, its issue position, the cause's code and TVAL. -/
structure LogEntry where
  kind : Order
  who : Nat
  what : Nat
  record : Option Record := none
  bytes : List Byte := []
deriving DecidableEq, Repr

/-- Recording of a partition (R430, R431). -/
structure Recording where
  part : Nat
  /-- IDENT's part code when the recording began -/
  code : Nat := 0
  start : SavedImage
  log : List LogEntry := []
  /-- entries that the log area still has room for -/
  room : Nat := 0
  truncated : Bool := false
  /-- in a replay: the orders still to come, oldest first -/
  replaying : Bool := false
  todo : List LogEntry := []
deriving DecidableEq, Repr

/-- Bytes of physical memory that the command processor has written in a format of its own (R255, R430), with the number of the writing. -/
structure Area where
  lo : Nat
  hi : Nat
  serial : Nat
deriving DecidableEq, Repr

/-- The part (R1, R4 to R6, R400): IDENT's code, present quarters, enabled pseudo-channels by stack 0 to 7. -/
structure Build where
  code : Nat := 0
  quarters : Nat := 0xFFFF
  channels : List Nat := [256, 256, 256, 256, 256, 256, 256, 256]
  /-- rated values of the rails, in units of their converters (R421): the sixteen logic rails, then each die's SRAM, DRAM and HBM4 rails (R422, R423);
  one that is not listed is never exceeded (DESIGN CHOICE, log 13) -/
  rated : List Nat := []
deriving DecidableEq, Repr

/-- Which step comes next, when something other than the core's own order decides (DESIGN CHOICE, log 1). -/
inductive Turn where
  /-- a context issues its next instruction -/
  | turn (ctx : Nat)
  /-- a step without an encoding is taken, with its arguments -/
  | event (i : Instr) (args : List Nat)
deriving DecidableEq, Repr

end Sys2Proof.Machine
end

