-- ==== Sys2Proof/Machine/State.lean ====
section
/-! DEFINITION. The state of the module, as plain data, and the state after reset.

It holds one whole module: every context, core, home slice, quad, gang, quarter and die, physical memory, the command
processor, the host registers and Jidjasol. A table lists only what differs from the unit's reset value, which is the
default of its structure. -/

namespace Sys2Proof.Machine

/-- The state of the machine. -/
structure State where
  /-- contexts, by 8 * core + number (R202) -/
  ctxs : Map Ctx := []
  cores : Map Core := []
  slices : Map Slice := []
  quads : Map Quad := []
  gangs : Map Gang := []
  quarters : Map Quarter := []
  dies : Map Die := []
  parts : Map Part := []
  /-- physical memory, by 52-bit address (R180) -/
  mem : Memory := []
  /-- images and logs in physical memory whose bytes the manual does not give: what has not been written since reads as a free value (R255, R430;
  DESIGN CHOICE, log 19) -/
  areas : List Area := []
  /-- poisoned 64-bit words of physical memory, by address divided by 8 (R427) -/
  poison : List Nat := []
  build : Build := {}
  /-- host words, by address divided by 8, whose accesses the host answers with an error or refuses (R180) -/
  hostRefuses : List Nat := []
  /-- the modules in the load-store domain besides this one: domain index and module number (R21, R180, R286) -/
  domain : Map Nat := []
  /-- modules of the system that messages reach, by number, with what they are built of (R4, R5, R21, R220) -/
  modules : Map Build := []
  cp : Cp := {}
  jid : Jid := {}
  /-- messages and their answers on the way (R220, R221) -/
  net : List Msg := []
  /-- what is recorded or replayed, one at most of each partition (R430, R431) -/
  recordings : List Recording := []
  /-- the module's time base (R292), which every step advances (DESIGN CHOICE, log 6) -/
  now : Nat := 0
  /-- the context that takes its turn; its core takes the next turn too unless `agenda` says otherwise (DESIGN CHOICE, log 1) -/
  cur : Nat := 0
  /-- steps that come next before the current core's own (DESIGN CHOICE, log 1) -/
  agenda : List Turn := []
  /-- the arguments of the step without an encoding that is being taken (DESIGN CHOICE, log 1) -/
  ev : List Nat := []
  /-- the number of the next free choice outside a context (DESIGN CHOICE, log 4) -/
  free : Nat := 0
deriving DecidableEq, Repr

/-- Why the machine stops. Only the model's own scheduling raises one. -/
inductive Fault where
  /-- `agenda` gives a turn to a context of a core that the part lacks (R4, R5). Raised by `step`. Safe: the manual gives
  such a core no step. -/
  | absentCore
deriving DecidableEq, Repr

/-- Why an instruction is refused. -/
inductive Refusal where
  /-- The instruction has no meaning in the model yet. Raised by `exec`. Safe: nothing is claimed of it. -/
  | notModelled (mnemonic : String)
deriving DecidableEq, Repr

/-- The machine right after reset: a full CYD-4M (DESIGN CHOICE, log 11) on which nothing is formed and no task runs. Every register that
the manual gives a reset value holds it, by the defaults of the structures; the others hold the values of logs 7 to 13 and 63 (DESIGN CHOICE, and PRESUMED for log 63). -/
def State.reset : State := {}

end Sys2Proof.Machine
end

