-- ==== Sys2Proof/Machine/Topology.lean ====
section
/-! DEFINITION. Where units lie (00_scope R1 to R6, 01_machine R7 to R20), and the sizes and distances that follow. -/

namespace Sys2Proof.Machine

/-- The core of a context key, and the quad of a core key. -/
def coreOf (ctx : Nat) : Nat := ctx / 8
def quadOfCore (core : Nat) : Nat := core / 4
def quadOf (ctx : Nat) : Nat := ctx / 32

/-- Is it the handler context (R202)? -/
def isHandler (ctx : Nat) : Bool := ctx % 8 == 4

/-- Coordinates of a quad (R8). -/
def quadX (q : Nat) : Nat := q % 16
def quadY (q : Nat) : Nat := q / 16 % 16
def quadLayer (q : Nat) : Nat := q / 256 % 4
def quadDie (q : Nat) : Nat := q / 1024

/-- The quad at a place (R8). -/
def quadAt (die layer y x : Nat) : Nat := ((die * 4 + layer) * 16 + y) * 16 + x

/-- How many quads a side of a layer's grid has (R8). -/
def gridSide (layer : Nat) : Nat := 16 / 2 ^ layer

/-- The quarter of a quad (R10, R105): 4d + 2y' + x' of its L3 ancestor. -/
def quarterOf (q : Nat) : Nat :=
  let s := 2 ^ (3 - quadLayer q)
  4 * quadDie q + 2 * (quadY q / s % 2) + quadX q / s % 2

/-- Does the part have the quarter (R5)? -/
def Build.hasQuarter (b : Build) (q : Nat) : Bool := b.quarters.testBit q

/-- Does the part have the quad: inside its layer's grid, in a present quarter (R5, R8)? -/
def Build.hasQuad (b : Build) (q : Nat) : Bool :=
  decide (q < 4096) && decide (quadX q < gridSide (quadLayer q)) && decide (quadY q < gridSide (quadLayer q)) &&
    b.hasQuarter (quarterOf q)

/-- Does the part have the core? -/
def Build.hasCore (b : Build) (core : Nat) : Bool := b.hasQuad (quadOfCore core)

/-- Is the die present: does it have enabled channels (R4, R400)? -/
def Build.hasDie (b : Build) (die : Nat) : Bool := decide (0 < b.channels.getD (2 * die) 0 + b.channels.getD (2 * die + 1) 0)

/-- The local-memory capacity of a layer in bytes (R15). -/
def capacity : Nat → Nat
  | 0 => 0x280000
  | 1 => 0x100000
  | 2 => 0x80000
  | _ => 0x40000

/-- Banks of a quad of a layer (R159). -/
def bankCount (layer : Nat) : Nat := capacity layer / 0x10000

/-- The end of the local window (R15). -/
def windowEnd : Nat := 0x400000

/-- The bytes of HBM4 that a die has enabled (R180). -/
def Build.hbmBytes (b : Build) (die : Nat) : Nat :=
  (b.channels.getD (2 * die) 0 + b.channels.getD (2 * die + 1) 0) * (192 * 2 ^ 20)

/-- The channel and the channel address of an HBM4 offset, for a die with `n` enabled channels (R181). -/
def channelOf (n off : Nat) : Nat × Nat := (off / 256 % n, off / (256 * n) * 256 + off % 256)

/-- The four children of a quad above L0, in the order of R8. -/
def childrenOf (q : Nat) : List Nat :=
  let d := quadDie q
  let l := quadLayer q - 1
  let x := 2 * quadX q
  let y := 2 * quadY q
  [quadAt d l y x, quadAt d l y (x + 1), quadAt d l (y + 1) x, quadAt d l (y + 1) (x + 1)]

/-- The gang of an L0 core, and its number in it (R12). -/
def gangOf (core : Nat) : Nat :=
  let q := quadOfCore core
  quadDie q * 128 + quadY q * 8 + quadX q / 2
def gangCore (core : Nat) : Nat := quadOfCore core % 2 * 4 + core % 4

/-- The core that stands in a gang at a number. -/
def coreOfGang (gang j : Nat) : Nat :=
  quadAt (gang / 128) 0 (gang / 8 % 16) (2 * (gang % 8) + j / 4) * 4 + j % 4

/-- The quads of a quarter, layer by layer (R10), of those the numbering has. -/
def quadsOfQuarter (quarter : Nat) : List Nat :=
  (List.range 1024).filterMap fun i =>
    let q := quarter / 4 * 1024 + i
    if quadX q < gridSide (quadLayer q) && quadY q < gridSide (quadLayer q) && quarterOf q == quarter then some q else none

/-- A quad's node on the module's grid of L0 positions (R16). -/
def nodeOf (q : Nat) : Nat × Nat :=
  let s := 2 ^ quadLayer q
  (quadX q * s + 16 * (quadDie q % 2), quadY q * s + 16 * (quadDie q / 2))

/-- The distance between two nodes of the module's grid (R19). -/
def nodeDistance (a b : Nat × Nat) : Nat := (a.1 - b.1) + (b.1 - a.1) + ((a.2 - b.2) + (b.2 - a.2))

/-- Hops between two quads of one module (R19), and die crossings (R17). -/
def hops (a b : Nat) : Nat := nodeDistance (nodeOf a) (nodeOf b)
def crossings (a b : Nat) : Nat :=
  (if quadDie a % 2 = quadDie b % 2 then 0 else 1) + (if quadDie a / 2 = quadDie b / 2 then 0 else 1)

/-- The unloaded latency of R19 in nanoseconds. -/
def latencyNs (h c s : Nat) : Nat := 38 + 2 * h + 55 * c + 410 * s

/-! ### The port hub (R18) -/

/-- The node at which the hub is joined to a die: that of its inner-corner L0 quad. -/
def innerCorner (die : Nat) : Nat × Nat := (15 + die % 2, 15 + die / 2)

/-- Hops from a quad to the hub through its own die: to the inner corner, and the step from there (R18). -/
def hubHops (q : Nat) : Nat := nodeDistance (nodeOf q) (innerCorner (quadDie q)) + 1

/-- Crossings from a die to the hub. -/
def hubCrossings : Nat := 1

/-- The latency of a remote load within the module, and to a quad of a peer module through some switches: out by the hub of the
requester's die, in by the hub on the home die (R18, R19). -/
def remoteNs (a b : Nat) : Nat := latencyNs (hops a b) (crossings a b) 0
def peerNs (a b switches : Nat) : Nat := latencyNs (hubHops a + hubHops b) (hubCrossings + hubCrossings) switches

/-- The time of a pre-emption request from the hub to a quad (R250). -/
def requestNs (q : Nat) : Nat := latencyNs (hubHops q) hubCrossings 0

/-- The ident value of a context (R105). -/
def identOf (module ctx : Nat) : Word :=
  let core := coreOf ctx
  word (module * 2 ^ 32 + (if isHandler ctx then 2 ^ 18 else ctx % 8 * 2 ^ 19) + quarterOf (quadOfCore core) * 2 ^ 14 + core)

/-- Does a destination's low 14 bits name a core inside the grid (R219, R220)? They are the core's key. -/
def inGrid (core : Nat) : Bool :=
  let q := quadOfCore core
  decide (quadX q < gridSide (quadLayer q)) && decide (quadY q < gridSide (quadLayer q))

end Sys2Proof.Machine
end

