-- ==== Sys2Proof/Machine/Ops.lean ====
section
/-! DEFINITION. The named operations on the state: its parts, a context's registers, moving on to the next instruction. -/

namespace Sys2Proof.Machine

/-! ### Parts of the state -/

def State.ctx (s : State) (k : Nat) : Ctx := s.ctxs.get {} k
def State.core (s : State) (k : Nat) : Core := s.cores.get {} k
def State.slice (s : State) (k : Nat) : Slice := s.slices.get {} k
def State.quad (s : State) (k : Nat) : Quad := s.quads.get {} k
def State.gang (s : State) (k : Nat) : Gang := s.gangs.get {} k
def State.quarter (s : State) (k : Nat) : Quarter := s.quarters.get {} k
def State.die (s : State) (k : Nat) : Die := s.dies.get {} k

def State.onCtx (s : State) (k : Nat) (f : Ctx → Ctx) : State := { s with ctxs := s.ctxs.put k (f (s.ctx k)) }
def State.onCore (s : State) (k : Nat) (f : Core → Core) : State := { s with cores := s.cores.put k (f (s.core k)) }
def State.onSlice (s : State) (k : Nat) (f : Slice → Slice) : State := { s with slices := s.slices.put k (f (s.slice k)) }
def State.onQuad (s : State) (k : Nat) (f : Quad → Quad) : State := { s with quads := s.quads.put k (f (s.quad k)) }
def State.onGang (s : State) (k : Nat) (f : Gang → Gang) : State := { s with gangs := s.gangs.put k (f (s.gang k)) }
def State.onQuarter (s : State) (k : Nat) (f : Quarter → Quarter) : State :=
  { s with quarters := s.quarters.put k (f (s.quarter k)) }
def State.onDie (s : State) (k : Nat) (f : Die → Die) : State := { s with dies := s.dies.put k (f (s.die k)) }
def State.onCp (s : State) (f : Cp → Cp) : State := { s with cp := f s.cp }

/-- The context whose turn it is, its core and its quad. -/
def State.me (s : State) : Ctx := s.ctx s.cur
def State.onMe (s : State) (f : Ctx → Ctx) : State := s.onCtx s.cur f
def State.myCore (s : State) : Nat := coreOf s.cur
def State.myQuad (s : State) : Nat := quadOf s.cur
def State.myLayer (s : State) : Nat := quadLayer s.myQuad

/-- An argument of the step without an encoding that is being taken (DESIGN CHOICE, log 1). -/
def State.arg (s : State) (i : Nat) : Nat := s.ev.getD i 0

/-- The partition that stands on a quarter (R11), if one does, with its number: not one that is switched out. -/
def State.partOfQuarter (s : State) (q : Nat) : Option (Nat × Part) :=
  s.parts.find? fun p => p.2.quarters.testBit q && p.2.mode != .out

/-- The partition to which a message to a quarter goes: the one that stands on it, or else one switched out from it. -/
def State.partFor (s : State) (q : Nat) : Option (Nat × Part) :=
  (s.partOfQuarter q).or (s.parts.find? fun p => p.2.quarters.testBit q)

/-- The partition of a context's quarter. -/
def State.partOf (s : State) (ctx : Nat) : Option (Nat × Part) := s.partOfQuarter (quarterOf (quadOf ctx))

def State.onPart (s : State) (p : Nat) (f : Part → Part) : State :=
  { s with parts := s.parts.map fun e => if e.1 = p then (e.1, f e.2) else e }

/-- The module number and domain index (R401). -/
def State.module (s : State) : Nat := fld s.cp.modid 0 12
def State.domainIx (s : State) : Nat := fld s.cp.modid 16 6

/-- The quads of a partition. -/
def Part.quads (p : Part) : List Nat := (bitsOf p.quarters 16).flatMap quadsOfQuarter

/-! ### Registers of a context (R35, R30) -/

/-- An x register; x0 reads zero. -/
def Ctx.getX (c : Ctx) (r : BitVec 5) : Word := if r = 0 then 0 else c.regs.x.get 0 r.toNat

/-- A v register. -/
def Ctx.getV (c : Ctx) (r : BitVec 5) : VWord := c.regs.v.get 0 r.toNat

/-- A k register; k0 reads all ones (R135). -/
def Ctx.getK (c : Ctx) (r : BitVec 3) : Word := if r = 0 then BitVec.allOnes 64 else c.regs.k.get 0 r.toNat

/-- Does an outstanding result target the register (R93)? -/
def Ctx.awaits (c : Ctx) (d : Dst) : Bool := c.outs.any fun o => o.dsts.contains d

/-- The register that a write names. -/
def RegWrite.dst : RegWrite → Dst
  | .x d _ => .x d
  | .v d _ => .v d

/-- A register set as it stands; x0 discards it. -/
def Ctx.poke (c : Ctx) : RegWrite → Ctx
  | .x d w => if d = 0 then c else { c with regs := { c.regs with x := c.regs.x.put d.toNat w } }
  | .v d w => { c with regs := { c.regs with v := c.regs.v.put d.toNat w } }

/-- A later instruction's write of a register. When a result for it is outstanding, what the register reads as until the
next settle point is a free choice, and the value written stands from there on; a value that stood behind a result no longer does, nor
does it show (R73; DESIGN CHOICE, log 4). -/
def Ctx.write (c : Ctx) (w : RegWrite) : Ctx :=
  let c' := { c with later := c.later.filter fun l => l.w.dst != w.dst }
  if c.awaits w.dst then
    let c' := { c' with later := { by_ := c.nextSeq, w } :: c'.later, free := c'.free + 1 }
    if Config.freeBit (c'.free - 1) || c.later.any (fun l => l.w.dst == w.dst) then c'.poke w else c'
  else c'.poke w

/-- xd ← w. -/
def Ctx.setX (c : Ctx) (d : BitVec 5) (w : Word) : Ctx := c.write (.x d w)

/-- vd ← w. -/
def Ctx.setV (c : Ctx) (d : BitVec 5) (w : VWord) : Ctx := c.write (.v d w)

/-- kd ← w; k0 discards it (R135). -/
def Ctx.setK (c : Ctx) (d : BitVec 3) (w : Word) : Ctx :=
  if d = 0 then c else { c with regs := { c.regs with k := c.regs.k.put d.toNat w } }

/-! ### TSTATUS and FPCTL -/

/-- TSTATUS as it reads (R238). -/
def Ctx.tstatus (c : Ctx) : Word :=
  word (c.ctl.pasid * 2 ^ 32 + (if c.ctl.rpl then 256 else 0) + (if c.ctl.intrap then 4 else 0) +
    (if c.ctl.psys then 2 else 0) + (if c.ctl.sys then 1 else 0))

/-! ### Moving on: sequence, branches and loop ends (R87, R98) -/

/-- LoopEnd of R98: the level after it, and where the context continues, with whether that is back at the start. -/
def LoopLevel.ends (l : LoopLevel) : LoopLevel × Word × Bool :=
  if l.eb || decide (l.le.toNat < l.ls.toNat) then ({ l with act := false, eb := false }, l.aen + 4, false)
  else
    let l := { l with asn := l.ls, aen := l.le }
    if l.lc = 0 then ({ l with act := false }, l.aen + 4, false) else ({ l with lc := l.lc - 1 }, l.asn, true)

/-- Is the context at the latched end of an active level? -/
def LoopLevel.atEnd (l : LoopLevel) (pc : Word) : Bool := l.act && l.aen == pc

/-- The instruction completes and control is not transferred: the next instruction is the next word, or what the loop ends
at this word say (R98). -/
def Ctx.advance (c : Ctx) : Ctx :=
  let pc := c.pc
  let outer (c : Ctx) (dflt : Word) : Ctx :=
    if c.lp0.atEnd pc then
      let r := c.lp0.ends
      { c with lp0 := r.1, pc := r.2.1, prevPc := pc }
    else { c with pc := dflt, prevPc := pc }
  if c.lp1.atEnd pc then
    let r := c.lp1.ends
    let c := { c with lp1 := r.1 }
    if r.2.2 then { c with pc := r.2.1, prevPc := pc } else outer c r.2.1
  else outer c (pc + 4)

/-- Control is transferred (R87 to R89). -/
def Ctx.goTo (c : Ctx) (target : Word) : Ctx := { c with pc := target, prevPc := c.pc }

/-- The instruction does not issue after all: it leaves the window as it was and comes again (R95, R167, R240). -/
def Ctx.again (c : Ctx) : Ctx := { c with window := c.uncounted.1, opens := c.uncounted.2, issued := c.issued - 1 }

/-- The next instruction opens a settle window (R95). -/
def Ctx.openWindow (c : Ctx) : Ctx := { c with opens := true, trail := [], buffer := [] }

/-- An instruction of one context that completes at issue: its effect on the context, then on to the next. -/
def State.step1 (s : State) (f : Ctx → Ctx) : State := s.onMe fun c => (f c).advance

/-- The same for one that writes only xd. -/
def State.writesX (s : State) (d : BitVec 5) (w : Word) : State := s.step1 fun c => c.setX d w

/-- The registers as they stand, for a checkpoint (R292) or a window (R251). -/
def Ctx.snap (c : Ctx) : Snap := { regs := c.regs, lp0 := c.lp0, lp1 := c.lp1, ctl := c.ctl, later := c.later }

/-- The registers as they stood at the entry of a window restored (R252): x, v, k, loop and control registers. -/
def Ctx.restore (c : Ctx) (k : Snap) : Ctx := { c with regs := k.regs, lp0 := k.lp0, lp1 := k.lp1, ctl := k.ctl, later := k.later }

/-- A checkpoint restored by an attempt: the v registers keep what was written (R292). -/
def Ctx.restoreCk (c : Ctx) (k : Snap) : Ctx :=
  { c with regs := { k.regs with v := c.regs.v }, lp0 := k.lp0, lp1 := k.lp1, later := [] }

/-! ### Outstanding results -/

/-- The conditions of a result recorded: FPCTL flags, and the exception deferred where a trap was enabled at issue (R136); two pending ones
are united, under the lane and address of the earlier in program order (R137, R275). -/
def Ctx.recordFp (c : Ctx) (d : Deferred) : Ctx :=
  let ctl := { c.ctl with fpctl := c.ctl.fpctl ||| (d.cond <<< 4) }
  let deferred :=
    if d.en &&& d.cond.toNat = 0 then c.deferred
    else match c.deferred with
      | none => some d
      | some e => some { (if d.seq < e.seq then d else e) with cond := d.cond ||| e.cond }
  { c with ctl, deferred }

/-- An access joins the context's outstanding ones, in program order. What earlier instructions wrote to its registers no longer stands
behind them (R73). -/
def Ctx.issue (c : Ctx) (op : OutOp) (dsts : List Dst) (pure acq rel : Bool) (ans : Option Ans := none)
    (vsize : Nat := 0) : Ctx :=
  let dsts := dsts.filter fun d => d != .x 0
  { c with
    nextSeq := c.nextSeq + 1
    later := c.later.filter fun l => !dsts.contains l.w.dst
    outs := c.outs ++ [{ seq := c.nextSeq, pc := c.pc, op, dsts, ans, acq, rel, pure, vsize }] }

/-- The outstanding access of a number. -/
def Ctx.out (c : Ctx) (seq : Nat) : Option Out := c.outs.find? fun o => o.seq == seq

/-- A change to the outstanding access of a number. -/
def Ctx.onOut (c : Ctx) (seq : Nat) (f : Out → Out) : Ctx :=
  { c with outs := c.outs.map fun o => if o.seq = seq then f o else o }

/-- The outstanding access of a number taken away. -/
def Ctx.dropOut (c : Ctx) (seq : Nat) : Ctx := { c with outs := c.outs.filter fun o => o.seq != seq }

/-- One register value of the result of number `seq` arrives: where a later instruction has written the register, whether it shows
is a free choice; else it takes the place of what stood there, and where an earlier result is still outstanding it stands behind that one (R73). -/
def Ctx.arrive (seq : Nat) (c : Ctx) (w : RegWrite) : Ctx :=
  if c.later.any (fun l => l.w.dst == w.dst && decide (seq < l.by_)) then
    let c := { c with free := c.free + 1 }
    if Config.freeBit (c.free - 1) then c.poke w else c
  else
    let c := { c with later := c.later.filter fun l => l.w.dst != w.dst }
    if c.outs.any fun o => decide (o.seq < seq) && o.dsts.contains w.dst then { c with later := { by_ := seq, w } :: c.later }.poke w
    else c.poke w

/-- A result arrives and is written to its registers (R94), with its conditions and its carry (R275, R278). One context has one carry
pending: where a second comes before it is taken, the address is that of the one delivered last (DESIGN CHOICE, log 71). -/
def Ctx.deliver (c : Ctx) (o : Out) : Ctx :=
  match o.ans with
  | none => c
  | some a =>
    let c := a.writes.foldl (Ctx.arrive o.seq) (c.dropOut o.seq)
    let c := { c with buffer := c.buffer ++ [{ at_ := c.trail.length, seq := o.seq, dsts := o.dsts, ans := a }] }
    let c := match a.fp with | none => c | some d => if d.cond = 0 then c else c.recordFp d
    match a.carry with | none => c | some v => { c with carry := some v }

/-- The results that are known are written to their registers, in program order. -/
def Ctx.deliverAll (c : Ctx) : Ctx := c.outs.foldl Ctx.deliver c

/-- The same, but for those that a replay holds back (R252). -/
def Ctx.deliverReady (c : Ctx) : Ctx := (c.outs.filter fun o => !o.held).foldl Ctx.deliver c

/-- The settle point has been reached: registers written while a result was outstanding hold the later value (R73). -/
def Ctx.settleLater (c : Ctx) : Ctx := { (c.later.map (·.w)).foldl Ctx.poke c with later := [] }

/-! ### Recording (R430, R431) -/

/-- The recording of a partition, if there is one. -/
def State.recordingOf (s : State) (p : Nat) : Option Recording := s.recordings.find? fun r => r.part == p

/-- A recording after an order of its partition has come about: it is logged, until the log area is full, or struck off in a replay. -/
def Recording.note (r : Recording) (e : LogEntry) : Recording :=
  if r.replaying then { r with todo := r.todo.erase e }
  else if r.truncated then r
  else if r.room = 0 then { r with truncated := true }
  else { r with log := r.log ++ [e], room := r.room - 1 }

/-- An order of a partition comes about (R430, R431). -/
def State.noteOrder (s : State) (part : Option (Nat × Part)) (e : LogEntry) : State :=
  match part with
  | some (p, _) => { s with recordings := s.recordings.map fun r => if r.part = p then r.note e else r }
  | none => s

/-- The recording that a partition replays, if it does (R431). -/
def State.replayOf (s : State) (part : Option (Nat × Part)) : Option Recording :=
  part.bind fun p => (s.recordingOf p.1).filter (·.replaying)

/-- In a replay, has the turn of an entry come: is it the next of its kind at its object (R431)? -/
def State.mayOrder (s : State) (part : Option (Nat × Part)) (e : LogEntry) : Bool :=
  match s.replayOf part with
  | some r =>
    match r.todo.find? fun f => f.kind == e.kind && f.who == e.who with
    | some f => f == e
    | none => true
  | none => true

/-! ### Number of a step's free choice outside a context -/

/-- The next free choice of the module (DESIGN CHOICE, log 4). -/
def State.choose (s : State) : Bool × State := (Config.freeBit s.free, { s with free := s.free + 1 })

end Sys2Proof.Machine
end

