-- ==== Sys2Proof/Machine/Access.lean ====
section
/-! DEFINITION. Memory as the agents reach it: pages and homes (R179 to R184, R259 to R261), reads, and the one operation by
which a write enters its line's order, with everything that a write sets off (R186, R271, R285, R303, R307). -/

namespace Sys2Proof.Machine

/-! ### Lines -/

/-- The number of a line as attempts and jacks track it (R298): physical address ÷ 128, or the quad and offset ÷ 128. -/
def lineOf (quad : Nat) (r : Ref) : Nat := if r.isLocal then 2 ^ 45 + quad * 2 ^ 15 + r.addr / 128 else r.addr / 128

/-! ### Homes -/

/-- The cores that a hashed homing field selects on a die, in R183's order. -/
def hashedSlices (die layers quarters : Nat) : List Nat :=
  (bitsOf quarters 4).flatMap fun q =>
    (bitsOf layers 4).flatMap fun l =>
      let s := gridSide l / 2
      (List.range s).flatMap fun y =>
        (List.range s).flatMap fun x =>
          (List.range 4).map fun c => quadAt die l (q / 2 * s + y) (q % 2 * s + x) * 4 + c

/-- Home of R183: the core whose slice is home to the line of a physical address, on the address's own module. -/
def homeOf (homing pa : Nat) : Nat :=
  let die := pa / 2 ^ 37 % 4
  if homing.testBit 15 then
    let ss := hashedSlices die (homing / 16 % 16) (homing % 16)
    let l := pa / 128
    let h := ((l % 2 ^ 32) ^^^ (l / 2 ^ 32)) * 0x9E3779B1 % 2 ^ 32
    ss.getD (h * ss.length / 2 ^ 32) 0
  else die * 4096 + homing % 4096

/-- The key of the slice of a core on the peer module of a domain index (R180, R188): no core of this module has it. -/
def peerSlice (md core : Nat) : Nat := 2 ^ 14 * (md + 1) + core

/-- The slice that is home to a physical address: of this module by the key of its core, of a peer module apart (R188, R271). -/
def State.home (s : State) (homing pa : Nat) : Nat :=
  if pa / 2 ^ 46 = s.domainIx then homeOf homing pa else peerSlice (pa / 2 ^ 46) (homeOf homing pa)

/-- What the module of a domain index is built of: this part, or a peer of the load-store domain (R4 to R6, R180, R184). -/
def State.buildOf (s : State) (md : Nat) : Build := if md = s.domainIx then s.build else s.modules.get {} (s.domain.get 0 md)

/-- Is the homing field of a page at a physical address valid, for a partition with the given quarters (R182, R184)? Of a peer module
any slice that it has may be named, as R184's partition holds quarters of this module only (DEDUCED, log 65). -/
def homingValid (s : State) (quarters homing pa : Nat) : Bool :=
  let md := pa / 2 ^ 46
  let die := pa / 2 ^ 37 % 4
  let peer := md != s.domainIx
  let b := s.buildOf md
  homing / 2 ^ 12 % 4 == 0 && (peer || !homing.testBit 14) &&
  (if pa.testBit 45 then homing % 4096 == 0 && !homing.testBit 15
   else if homing.testBit 15 then
     homing / 256 % 16 == 0 && homing / 16 % 16 != 0 && homing % 16 != 0 &&
       (bitsOf homing 4).all fun q => b.hasQuarter (4 * die + q) && (peer || quarters.testBit (4 * die + q))
   else
     let core := die * 4096 + homing % 4096
     inGrid core && b.hasCore core && (peer || quarters.testBit (quarterOf (quadOfCore core))))

/-- Is the physical address backed (R180)? -/
def backed (s : State) (pa : Nat) : Bool :=
  let md := pa / 2 ^ 46
  (md == s.domainIx || s.domain.has md) &&
  (pa.testBit 45 || (pa / 2 ^ 39 % 64 == 0 && decide (pa % 2 ^ 37 < (s.buildOf md).hbmBytes (pa / 2 ^ 37 % 4))))

/-! ### Reading -/

/-- The number of the writing that gave a byte its free value, if one did. -/
def serialAt (pa : Nat) : List Area → Option Nat
  | [] => none
  | x :: t => if x.lo ≤ pa ∧ pa < x.hi then some x.serial else serialAt pa t

/-- The byte at a physical address as the line's order has it. -/
def State.gbyte (s : State) (pa : Nat) : Byte :=
  match serialAt pa s.areas with
  | some n => Config.freeByte n pa
  | none => s.mem.get pa

/-- Consecutive bytes of physical memory. -/
def State.gread (s : State) (pa n : Nat) : List Byte :=
  if s.areas.isEmpty then s.mem.read pa n else (List.range n).map fun i => s.gbyte (pa + i)

/-- An area without one byte, which has been written since. -/
def Area.without (pa : Nat) (x : Area) : List Area :=
  if x.lo ≤ pa ∧ pa < x.hi then [{ x with hi := pa }, { x with lo := pa + 1 }].filter fun y => decide (y.lo < y.hi) else [x]

/-- The areas without the bytes that a write gives. -/
def carve (areas : List Area) (cells : List (Nat × Byte)) : List Area :=
  if areas.isEmpty then areas else cells.foldl (fun l c => l.flatMap (Area.without c.1)) areas

/-- The 64-bit number at a physical address. -/
def State.gdword (s : State) (pa : Nat) : Nat := natOfBytes (s.gread pa 8)

/-- Does the 64-bit word at a physical address carry poison (R427), or does the host answer its read with an error, which acts as
poison does (R180)? -/
def State.poisonedAt (s : State) (pa : Nat) : Bool := s.poison.contains (pa / 8) || s.hostRefuses.contains (pa / 8)

/-- The cells of a write without those that the host refuses, which are dropped (R180). -/
def State.served (s : State) (cells : List (Ref × Byte)) : List (Ref × Byte) :=
  if s.hostRefuses.isEmpty then cells else cells.filter fun c => c.1.isLocal || !s.hostRefuses.contains (c.1.addr / 8)

/-- Does the host answer a store to a reference's word with an error (R180)? -/
def State.refuses (s : State) (r : Ref) : Bool := !r.isLocal && s.hostRefuses.contains (r.addr / 8)

/-- The byte a context reads: from its quad's memory, from a copy of a PC = 1 line where one may serve it (R188), or from
the home. -/
def State.readByte (s : State) (quad : Nat) (bypass : Bool) (r : Ref) : Byte :=
  if r.isLocal then (s.quad quad).mem.get r.addr
  else if r.pc1 && !bypass then
    match (s.die (quadDie quad)).rdc.find? fun e => e.1 == r.addr / 128 with
    | some e => e.2.getD (r.addr % 128) 0
    | none => s.gbyte r.addr
  else s.gbyte r.addr

/-- Does the 64-bit word of a reference carry poison? -/
def State.poisonRef (s : State) (quad : Nat) (r : Ref) : Bool :=
  if r.isLocal then (s.quad quad).poison.contains (r.addr / 8) else s.poisonedAt r.addr

/-! ### Translation (R259, R260) -/

/-- The outcome of a translation. -/
inductive Xlate where
  | page (t : Tlb)
  | fault (reason : Nat)
deriving DecidableEq, Repr

/-- Is the entry read at a level malformed (R260)? -/
def malformed (level e : Nat) : Bool :=
  if e.testBit 1 then
    decide (3 ≤ level) || e / 16 % 256 != 0 ||
      (level == 1 && e / 2 ^ 12 % 2 ^ 5 != 0) || (level == 2 && e / 2 ^ 12 % 2 ^ 14 != 0)
  else level == 0 || e / 2 ^ 56 != 0 || e / 4 % 2 ^ 10 != 0 || (decide (2 ≤ level) && e / 2 ^ 12 % 16 != 0)

/-- Bits of a virtual address below the index of a level (R259). -/
def levelShift (level : Nat) : Nat := if level = 0 then 16 else 12 + 9 * level

/-- What an entry of a node comes to: a fault with its reason, a page with its homing field and permissions, or the next node. -/
inductive NodeEntry where
  | fault (reason : Nat)
  | page (pa homing : Nat) (w r : Bool)
  | node (at_ : Nat)
deriving DecidableEq, Repr

/-- The entry at an address, of a node of a level (R259), its faults in the order of R260; `quarters` are those of the partition. -/
def nodeEntry (s : State) (quarters level ea : Nat) : NodeEntry :=
  let e := s.gdword ea
  if s.poisonedAt ea || !e.testBit 0 then .fault 0
  else if malformed level e then .fault 3
  else if e.testBit 1 then
    let pa := e / 2 ^ 12 % 2 ^ 36 * 2 ^ 16
    let homing := e / 2 ^ 48
    if !homingValid s quarters homing pa then .fault 1
    else if !(backed s pa && backed s (pa + 2 ^ levelShift level - 1)) then .fault 2
    else .page pa homing (e.testBit 3) (e.testBit 2)
  else
    let next := e / 2 ^ 12 % 2 ^ 44 * 2 ^ 8
    if !backed s next then .fault 2 else .node next

/-- Entries of a node of a level (R259). -/
def nodeSize (level : Nat) : Nat := if level = 0 then 32 else 512

/-- The walk from a node, level by level down (R259); `quarters` are those of the partition. -/
def walkFrom (s : State) (quarters pasid va : Nat) : List Nat → Nat → Xlate
  | [], _ => .fault 3
  | level :: rest, node =>
    let sh := levelShift level
    match nodeEntry s quarters level (node + 8 * (va / 2 ^ sh % nodeSize level)) with
    | .fault r => .fault r
    | .page pa homing w r => .page { pasid, base := va / 2 ^ sh * 2 ^ sh, bits := sh, pa, homing, w, r }
    | .node next => walkFrom s quarters pasid va rest next

/-- A range of physical memory with the homing field that its lines have: a page, or a node of the tables. -/
structure Homed where
  lo : Nat
  hi : Nat
  homing : Nat
  node : Bool := false
deriving DecidableEq, Repr

/-- What the tables from a node down say of homes: of the pages that they map, each by its entry (R182), and of their own nodes, whose homing is
the address space's (R259, R409). -/
def homedFrom (s : State) (quarters homing : Nat) : List Nat → Nat → List Homed
  | [], _ => []
  | level :: rest, node =>
    { lo := node, hi := node + 8 * nodeSize level, homing, node := true } ::
      (List.range (nodeSize level)).flatMap fun i =>
        match nodeEntry s quarters level (node + 8 * i) with
        | .fault _ => []
        | .page pa h _ _ => [{ lo := pa, hi := pa + 2 ^ levelShift level, homing := h }]
        | .node next => homedFrom s quarters homing rest next

/-- What the address spaces of a partition say of homes. -/
def Part.homed (p : Part) (s : State) : List Homed :=
  p.pasids.flatMap fun e => if backed s e.2.root then homedFrom s p.quarters e.2.homing [4, 3, 2, 1, 0] e.2.root else []

/-- A walk of an address space of a partition. A root node that is not backed is taken as an entry that points to one: REASON 2
(R260; DEDUCED, log 65). -/
def walkSpace (s : State) (p : Part) (pasid va : Nat) : Xlate :=
  match p.pasids.find? fun e => e.1 == pasid with
  | none => .fault 0
  | some e => if backed s e.2.root then walkFrom s p.quarters pasid va [4, 3, 2, 1, 0] e.2.root else .fault 2

/-- A walk for a quad. A space whose teardown has begun answers none: its response is discarded (R411). -/
def walk (s : State) (p : Part) (pasid va : Nat) : Xlate :=
  if p.pasids.any fun e => e.1 == pasid && e.2.tearing then .fault 0 else walkSpace s p pasid va

/-- The page that holds a virtual address in a TLB. -/
def tlbFind (l : List Tlb) (pasid va : Nat) : Option Tlb :=
  l.find? fun t => t.pasid == pasid && decide (t.base ≤ va) && decide (va < t.base + 2 ^ t.bits)

/-- An entry put into a TLB of a capacity; which entry leaves a full one is the hardware's (DESIGN CHOICE, log 14). -/
def tlbPut (l : List Tlb) (cap : Nat) (t : Tlb) : List Tlb := (t :: l.filter (· != t)).take cap

/-- Translation of a 57-bit virtual address for a quad (R261): its TLB, its quarter's, then a walk, which fills both. -/
def translate (s : State) (quad pasid va : Nat) : Xlate × State :=
  let qr := quarterOf quad
  match tlbFind (s.quad quad).tlb pasid va with
  | some t => (.page t, s)
  | none =>
    match tlbFind (s.quarter qr).tlb pasid va with
    | some t => (.page t, s.onQuad quad fun q => { q with tlb := tlbPut q.tlb 128 t })
    | none =>
      match s.partOfQuarter qr with
      | none => (.fault 0, s)
      | some (_, p) =>
        match walk s p pasid va with
        | .fault r => (.fault r, s)
        | .page t =>
          (.page t, (s.onQuad quad fun q => { q with tlb := tlbPut q.tlb 128 t }).onQuarter qr fun q =>
            { q with tlb := tlbPut q.tlb 4096 t, used := if q.used.contains t then q.used else t :: q.used })

/-- The reference to a byte of a page. A PC = 1 page of a peer's host memory is as any other PC = 1 page: a copy may serve a plain load (R188),
though the peer's host may have written the line since (DEDUCED, log 73). -/
def State.pageRef (s : State) (t : Tlb) (va : Nat) : Ref :=
  let pa := t.pa + (va - t.base)
  { isLocal := false, addr := pa, home := s.home t.homing pa, pc1 := t.homing.testBit 14 }

/-! ### What a write sets off -/

/-- Jacks of a context released, on every slice (R307, R309). -/
def State.freeJacks (s : State) (k : Nat) : State :=
  { s.onCtx k (fun c => { c with jacks := [] }) with
    slices := s.slices.mapVals fun _ sl =>
      { sl with jacks := sl.jacks.filter (fun j => j.2 != k), overflow := sl.overflow.filter (· != k) } }

/-- A jack made for a context at a line (R307, R309): on the home slice, in its overflow list when its 512 are in use, or on
the context itself for a local line. -/
def State.makeJack (s : State) (k line : Nat) (r : Ref) : State :=
  if r.isLocal then s.onCtx k fun c => { c with jacks := if c.jacks.contains line then c.jacks else line :: c.jacks }
  else s.onSlice r.home fun sl =>
    if sl.jacks.contains (line, k) then sl
    else if sl.jacks.length < 512 then { sl with jacks := sl.jacks ++ [(line, k)] }
    else if sl.overflow.contains k then sl
    else { sl with overflow := sl.overflow ++ [k] }

/-- The token of a quarter given back; TOKEN_GRANT passes it on (R305). -/
def State.dropToken (s : State) (k : Nat) : State :=
  let q := quarterOf (quadOf k)
  let t := s.quarter q
  if t.token = some k || t.waiters.contains k then
    s.onQuarter q fun t => { t with token := if t.token = some k then none else t.token, waiters := t.waiters.filter (· != k) }
  else s

/-- A conflict abort (R303, R304): the attempt is discarded, CK(1) restored, and the context backs off from its tbegin. A carry that
was pending before the attempt stays pending (R241, R278). -/
def State.conflictAbort (s : State) (k : Nat) : State :=
  let c := s.ctx k
  match c.attempt with
  | none => s
  | some a =>
    match a.levels.getLast? with
    | none => s
    | some l =>
      (s.freeJacks k).onCtx k fun c =>
        { c.deliverAll.settleLater.restoreCk l.ck with
          attempt := none, outs := [], trail := [], buffer := [], deferred := none, pc := l.tbpc, status := .backoff, wake := false
          series := some { count := (match c.series with | some r => r.count | none => 0) + 1, stamp := a.stamp } }

/-- The open attempt of a context that is not irrevocable. -/
def Ctx.openAttempt (c : Ctx) : Option Attempt :=
  match c.attempt with
  | some a => if a.irrevocable then none else some a
  | none => none

def Attempt.reads (a : Attempt) : List Nat := a.levels.flatMap (·.reads)
def Attempt.writes (a : Attempt) : List Nat := a.levels.flatMap (·.writes)

/-- The age of an attempt: its stamp, then the ident value of its context (R304). The lesser is the older. -/
def olderThan (module : Nat) (a : Attempt) (k : Nat) (b : Attempt) (j : Nat) : Bool :=
  decide (a.stamp < b.stamp) || (a.stamp == b.stamp && decide ((identOf module k).toNat < (identOf module j).toNat))

/-- Does an irrevocable attempt of a context hold a line against a write (R306)? `by_` is the writing context. -/
def State.holds (s : State) (by_ : Option Nat) (line : Nat) (e : Nat × Ctx) : Bool :=
  match e.2.attempt with
  | some a =>
    a.irrevocable && (a.reads.contains line || a.writes.contains line) &&
      match by_.bind fun j => (s.ctx j).attempt.map fun b => (j, b) with
      | some (j, b) => !b.irrevocable || olderThan s.module a e.1 b j
      | none => true
  | none => false

/-- Is it the number of a line of a local memory (R298)? -/
def isLocalLine (line : Nat) : Bool := line.testBit 45

/-- The attempts of partitions that are switched out; an irrevocable one lives on (R254, R305). -/
def State.outCtxs (s : State) : List (Nat × Ctx) := s.parts.flatMap fun p => p.2.image.ctxs

/-- Does an irrevocable attempt of another agent hold a line against a write (R306)? One of a partition that is switched out
holds its lines too (R254, R305), but for those of its local memories, which are in its image. -/
def State.heldAgainst (s : State) (by_ : Option Nat) (line : Nat) : Bool :=
  s.ctxs.any (fun e => some e.1 != by_ && s.holds by_ line e) ||
    (!isLocalLine line && s.outCtxs.any fun e => s.holds by_ line e)

/-- UNPROT set where an irrevocable attempt of the context holds the line. -/
def Ctx.unprotect (line : Nat) (c : Ctx) : Ctx :=
  match c.attempt with
  | some a =>
    if a.irrevocable && (a.reads.contains line || a.writes.contains line) then { c with attempt := some { a with unprot := true } } else c
  | none => c

/-- A write by an irrevocable attempt passes a younger holder, whose UNPROT is set (R306). -/
def State.markUnprot (s : State) (by_ : Option Nat) (line : Nat) : State :=
  { s with
    ctxs := s.ctxs.mapVals fun k c => if some k = by_ then c else c.unprotect line
    parts := s.parts.mapVals fun _ p =>
      if isLocalLine line then p else { p with image := { p.image with ctxs := p.image.ctxs.mapVals fun _ c => c.unprotect line } } }

/-- The contexts whose open attempts a write to a line by another agent aborts (R303). -/
def State.conflictsWith (s : State) (by_ : Option Nat) (line : Nat) : List Nat :=
  s.ctxs.filterMap fun e =>
    if some e.1 = by_ then none
    else match e.2.openAttempt with
      | some a => if a.reads.contains line || a.writes.contains line then some e.1 else none
      | none => none

/-- The home slices of the lines of a range of device memory (R182, R183): as the page tables have them, and the translations that contexts have
used and may still use (R266). -/
def State.homesIn (s : State) (lo hi : Nat) : List Nat :=
  if lo.testBit 45 then []
  else
    let used := s.quarters.flatMap fun e => e.2.used.map fun t => ({ lo := t.pa, hi := t.pa + 2 ^ t.bits, homing := t.homing } : Homed)
    (used ++ s.parts.flatMap fun p => p.2.homed s).flatMap fun p =>
      let first := max lo p.lo / 128
      (List.range (ceilDiv (min hi p.hi) 128 - first)).map fun i => s.home p.homing (128 * (first + i))

/-- Which overflow lists a write of a range meets (R309): those of slices that hold lines of it. -/
def State.homeMet (s : State) (home : Option Nat) (lo hi slice : Nat) : Bool :=
  match home with
  | some h => h == slice
  | none => (s.homesIn lo hi).contains slice

/-- The jacks at a line spring (R307), and the overflow lists that a write meets wake their contexts and meet their attempts (R309).
With `all`, those of the other slices are woken too, as R308 allows, but meet no attempt. -/
def State.springIn (s : State) (by_ : Option Nat) (met : Nat → Bool) (all : Bool) (line : Nat) : State :=
  let others (l : List Nat) : List Nat := l.filter fun k => some k != by_
  let local_ := s.ctxs.filterMap fun e => if e.2.jacks.contains line then some e.1 else none
  let far := s.slices.flatMap fun e => (e.2.jacks.filter fun j => j.1 == line).map (·.2)
  let spilled := s.slices.flatMap fun e => if !e.2.overflow.isEmpty && met e.1 then others e.2.overflow else []
  let extra := if all then s.slices.flatMap fun e => others e.2.overflow else []
  let gone (h k : Nat) : Bool := some k != by_ && (met h || (all && (s.ctx k).openAttempt.isNone))
  let s := { s with
    slices := s.slices.mapVals fun h sl =>
      { sl with jacks := sl.jacks.filter (fun j => j.1 != line), overflow := sl.overflow.filter fun k => !gone h k } }
  let s := (local_ ++ far ++ spilled ++ extra).foldl (fun s k => s.onCtx k fun c =>
    { c with wake := true, jacks := c.jacks.filter (· != line) }) s
  spilled.foldl (fun s k => match (s.ctx k).openAttempt with | some _ => s.conflictAbort k | none => s) s

/-- The same for a write to one line. One whose slice is not given wakes every slice's list, and meets the attempts in that of its home
(DESIGN CHOICE, log 26). -/
def State.spring (s : State) (by_ : Option Nat) (home : Option Nat) (line : Nat) : State :=
  s.springIn by_ (s.homeMet home (128 * line) (128 * line + 128)) home.isNone line

/-- The module of a slice (R286): this one, or the peer of its domain index. -/
def sliceModule (s : State) (home : Nat) : Nat := if home < 2 ^ 14 then s.module else s.domain.get 0 (home / 2 ^ 14 - 1)

/-- The header of a trigger's message (R286). -/
def triggerHeader (s : State) (home : Nat) (nxm : Bool) : Word :=
  identOf (sliceModule s home) (home % 2 ^ 14 * 8) + word (3 * 2 ^ 27 + 7 * 2 ^ 24 + (if nxm then 2 ^ 23 else 0))

/-- The message of a trigger that fires at a value of its counter (R285, R286). -/
def triggerMsg (s : State) (home : Nat) (t : Trigger) (value : Word) : Msg :=
  { header := triggerHeader s home t.nxm, dst := t.dest.toNat % 2 ^ 14, dstModule := fld t.dest 32 12, chan := 3
    isTask := true, pri := t.pri, entry := t.entry, payload := t.args ++ [value], nxm := t.nxm, pasid := t.pasid
    slice := some home, counter := t.addr, destWord := t.dest }

/-- The turn of a trigger among those of its home slice, as a recording logs it (R430). -/
def triggerTurn (home : Nat) (t : Trigger) : LogEntry := { kind := .trigger, who := home, what := t.addr }

/-- The partition in whose recording the firings at a home slice stand. -/
def firingPart (s : State) (home : Nat) : Option (Nat × Part) := s.partOfQuarter (quarterOf (quadOfCore home))

/-- A trigger fires: its message waits to be sent. -/
def State.fire (s : State) (home : Nat) (t : Trigger) (value : Word) : State :=
  (s.onSlice home fun sl => { sl with fired := sl.fired ++ [{ msg := triggerMsg s home t value }] }).noteOrder
    (firingPart s home) (triggerTurn home t)

/-- An armed entry fires: it is gone (R285). -/
def State.fireArmed (s : State) (home : Nat) (t : Trigger) (value : Word) : State :=
  (s.fire home t value).onSlice home fun sl => { sl with triggers := sl.triggers.filter (· != t) }

/-- A trigger put into its place in ascending SERIAL order. -/
def insertSerial (t : Nat × Trigger) : List (Nat × Trigger) → List (Nat × Trigger)
  | [] => [t]
  | u :: r => if t.2.serial ≤ u.2.serial then t :: u :: r else u :: insertSerial t r

/-- The armed entries of a dword that its new value reaches, tested after a write (R285). -/
def State.testTriggers (s : State) (dword : Nat) : State :=
  let v : Word := word (s.gdword dword)
  let hit := s.slices.flatMap fun e => (e.2.triggers.filter fun t => t.addr == dword && reached v t.threshold).map fun t => (e.1, t)
  (hit.foldr insertSerial []).foldl (fun s t => s.fireArmed t.1 t.2 v) s

/-- A list without repeats, in the order of first appearance. -/
def dedup (l : List Nat) : List Nat := l.foldl (fun acc a => if acc.contains a then acc else acc ++ [a]) []

/-- Copies of PC = 1 lines on the writing die take the new bytes (R188). -/
def State.updateCopies (s : State) (die : Nat) (cells : List (Nat × Byte)) : State :=
  if (s.die die).rdc.isEmpty then s
  else
    let upd (line : Nat) (bs : List Byte) : List Byte :=
      cells.foldl (fun bs c => if c.1 / 128 = line then bs.set (c.1 % 128) c.2 else bs) bs
    s.onDie die fun d => { d with rdc := d.rdc.mapVals upd }

/-- The 64-bit words that cells cover whole: a write that replaces the word ends its poison (R427). -/
def wholeWords (cells : List (Nat × Byte)) : List Nat :=
  (dedup (cells.map fun c => c.1 / 8)).filter fun w => (List.range 8).all fun i => cells.any fun c => c.1 == 8 * w + i

/-- Do cells cover the whole 64-bit word of a byte? -/
def coversWord (cells : List (Ref × Byte)) (r : Ref) : Bool :=
  (List.range 8).all fun i => cells.any fun c => c.1.isLocal == r.isLocal && c.1.addr == r.addr / 8 * 8 + i

/-- Words that are poisoned before a write and that it does not replace by a full-word store stay so (R427): those that a test selects, of
physical memory and of a quad's. -/
def State.keepPoison (t s : State) (quad : Nat) (keep : Bool → Nat → Bool) : State :=
  let t := { t with poison := t.poison ++ s.poison.filter fun w => keep false w && !t.poison.contains w }
  let old := (s.quad quad).poison
  if old.isEmpty then t
  else t.onQuad quad fun q => { q with poison := q.poison ++ old.filter fun w => keep true w && !q.poison.contains w }

/-- In a replay, have the turns come of the triggers that a write would fire (R431)? -/
def State.mayFire (s : State) (cells : List (Nat × Byte)) : Bool :=
  if s.recordings.any (·.replaying) then
    let value (w : Nat) : Word :=
      word (natOfBytes (cells.foldl (fun bs c => if c.1 / 8 = w then bs.set (c.1 % 8) c.2 else bs) (s.gread (8 * w) 8)))
    let fires (w : Nat) : List (Nat × Trigger) := (s.slices.flatMap fun e =>
      (e.2.triggers.filter fun t => t.addr == 8 * w && reached (value w) t.threshold).map fun t => (e.1, t)).foldr insertSerial []
    ((dedup (cells.map fun c => c.1 / 8)).flatMap fires).foldl (fun (acc : State × Bool) t =>
      let part := firingPart s t.1
      let turn := triggerTurn t.1 t.2
      (acc.1.noteOrder part turn, acc.2 && acc.1.mayOrder part turn)) (s, true) |>.2
  else true

/-- May the cells be written now: does no irrevocable attempt hold a line of theirs (R306), and do the triggers that they fire come in their
turn? -/
def State.mayWrite (s : State) (by_ : Option Nat) (cells : List (Nat × Byte)) : Bool :=
  ((dedup (cells.map fun c => c.1 / 128)).all fun l => !s.heldAgainst by_ l) && s.mayFire cells

/-- The dword of a waitge that waits at its home for a later write of its line (R310). -/
def Out.awaitedDword (o : Out) : Option (Ref × BitVec 5 × Word) :=
  match o.op with
  | .waitge r d b => if o.tested && o.ans.isNone then some (r, d, b) else none
  | _ => none

/-- An unanswered waitge of the written lines is tested again: the first value that passes is its answer (R310). -/
def Out.retest (lines : List Nat) (value : Nat → Word) (o : Out) : Out :=
  match o.awaitedDword with
  | some (r, d, b) =>
    if lines.contains (r.addr / 128) && reached (value r.addr) b then { o with ans := some { writes := [.x d (value r.addr)] } } else o
  | none => o

/-- The same for every context that is not halted (R310, R315). -/
def State.retestWaits (s : State) (lines : List Nat) : State :=
  let value (pa : Nat) : Word := word (s.gdword pa)
  { s with ctxs := s.ctxs.mapVals fun _ c => if c.halted then c else { c with outs := c.outs.map (Out.retest lines value) } }

/-- Stands for no die: the write touches no copy of a PC = 1 line (R271). -/
def noDie : Nat := 4

/-- A write to physical memory enters its lines' orders in one step (R186 to R190, R271): the bytes, then conflicts with
open attempts, jacks, and waits. `by_` is the writing context; `die` the die whose copies take the bytes; `home` a line's home slice
where it is known. -/
def State.gwriteQuiet (s : State) (by_ : Option Nat) (die : Nat) (home : Nat → Option Nat) (cells : List (Nat × Byte)) : State :=
  let lines := dedup (cells.map fun c => c.1 / 128)
  let words := wholeWords cells
  let s := { s with
    mem := cells.foldl (fun (m : Memory) (c : Nat × Byte) => m.set c.1 c.2) s.mem
    areas := carve s.areas cells
    poison := s.poison.filter fun w => !words.contains w }
  let s := s.updateCopies die cells
  let s := lines.foldl (fun s l => (s.conflictsWith by_ l).foldl State.conflictAbort (s.markUnprot by_ l)) s
  let s := lines.foldl (fun s l => s.spring by_ (home l) l) s
  s.retestWaits lines

/-- Such a write of the kinds that count for triggers (R285), which are tested after it, dword by dword in the order in which the write names
them (DESIGN CHOICE, log 74). -/
def State.gwrite (s : State) (by_ : Option Nat) (die : Nat) (home : Nat → Option Nat) (cells : List (Nat × Byte)) : State :=
  (dedup (cells.map fun c => c.1 / 8)).foldl (fun s w => s.testTriggers (8 * w)) (s.gwriteQuiet by_ die home cells)

/-- Lines of physical memory of a range that an attempt, a jack or a waiting waitge holds; and its first line, for the overflow lists. -/
def State.watchedLines (s : State) (lo hi : Nat) : List Nat :=
  let inside (l : Nat) : Bool := !isLocalLine l && decide (lo / 128 ≤ l) && decide (128 * l < hi)
  let ofCtx (c : Ctx) : List Nat :=
    (match c.attempt with | some a => a.reads ++ a.writes | none => []) ++
      c.outs.filterMap fun o => o.awaitedDword.map fun w => w.1.addr / 128
  dedup (lo / 128 :: ((s.ctxs ++ s.outCtxs).flatMap (fun e => ofCtx e.2) ++ s.slices.flatMap fun e => e.2.jacks.map (·.1)).filter inside)

/-- May the command processor write a range now: does no irrevocable attempt hold a line of it (R306)? -/
def State.mayWriteArea (s : State) (lo hi : Nat) : Bool := decide (hi ≤ lo) || (s.watchedLines lo hi).all fun l => !s.heldAgainst none l

/-- The command processor writes a range in a format of its own (R255, R430): its bytes are free values from now on. The write meets attempts,
jacks and waits as any other agent's does (R303, R307 to R310). -/
def State.writeArea (s : State) (lo hi : Nat) : State :=
  if hi ≤ lo then s
  else
    let lines := s.watchedLines lo hi
    let s := { s with
      mem := s.mem.clear lo hi, areas := { lo, hi, serial := s.free } :: s.areas, free := s.free + 1
      poison := s.poison.filter fun w => !(decide (lo ≤ 8 * w) && decide (8 * w < hi)) }
    let s := lines.foldl (fun s l => (s.conflictsWith none l).foldl State.conflictAbort (s.markUnprot none l)) s
    (lines.foldl (fun s l => s.springIn none (s.homeMet none lo hi) true l) s).retestWaits lines

/-- A write of consecutive bytes to physical memory. -/
def State.gwriteBytes (s : State) (by_ : Option Nat) (die : Nat) (home : Option Nat) (pa : Nat) (bs : List Byte) : State :=
  s.gwrite by_ die (fun _ => home) ((List.range bs.length).zip bs |>.map fun e => (pa + e.1, e.2))

/-- The command processor's write of bytes to host memory, without those that the host refuses, which are dropped (R180). -/
def State.hostBytes (s : State) (pa : Nat) (bs : List Byte) : State :=
  let cells := ((List.range bs.length).zip bs |>.map fun e => (pa + e.1, e.2)).filter fun c => !s.hostRefuses.contains (c.1 / 8)
  s.gwrite none (pa / 2 ^ 37 % 4) (fun _ => none) cells

/-- Stands for the home slice of a local line: no slice has this number. -/
def noSlice : Nat := 2 ^ 21

/-- The line number of a local byte. -/
def localLine (quad off : Nat) : Nat := 2 ^ 45 + quad * 2 ^ 15 + off / 128

/-- May local cells be written now (R306)? -/
def State.mayWriteLocal (s : State) (by_ : Option Nat) (quad : Nat) (cells : List (Nat × Byte)) : Bool :=
  (dedup (cells.map fun c => localLine quad c.1)).all fun l => !s.heldAgainst by_ l

/-- A write to a quad's local memory, with its conflicts and jacks (R162, R303, R307). -/
def State.lwrite (s : State) (by_ : Option Nat) (quad : Nat) (cells : List (Nat × Byte)) : State :=
  let lines := dedup (cells.map fun c => localLine quad c.1)
  let words := wholeWords cells
  let s := s.onQuad quad fun q =>
    { q with
      mem := cells.foldl (fun (m : Memory) (c : Nat × Byte) => m.set c.1 c.2) q.mem
      poison := q.poison.filter fun w => !words.contains w
      down := cells.foldl (fun d c => setFld d (c.1 / 0x10000) 1 0) q.down }
  let s := lines.foldl (fun s l => (s.conflictsWith by_ l).foldl State.conflictAbort (s.markUnprot by_ l)) s
  lines.foldl (fun s l => s.spring by_ (some noSlice) l) s

/-- Cells of one write, local ones and global ones apart. -/
def localCells (cs : List (Ref × Byte)) : List (Nat × Byte) := cs.filterMap fun c => if c.1.isLocal then some (c.1.addr, c.2) else none
def globalCells (cs : List (Ref × Byte)) : List (Nat × Byte) := cs.filterMap fun c => if c.1.isLocal then none else some (c.1.addr, c.2)

/-- The home slice of a line, as one of the references of a write names it. -/
def homeIn? (cs : List (Ref × Byte)) (line : Nat) : Option Nat := (cs.find? fun c => !c.1.isLocal && c.1.addr / 128 == line).map (·.1.home)

/-- A write of a context, to whichever memory its references name. -/
def State.writeCells (s : State) (k : Nat) (cs : List (Ref × Byte)) : State :=
  let s := if (localCells cs).isEmpty then s else s.lwrite (some k) (quadOf k) (localCells cs)
  if (globalCells cs).isEmpty then s else s.gwrite (some k) (quadDie (quadOf k)) (homeIn? cs) (globalCells cs)

/-- The write of an atomic at its home: copies of PC = 1 lines stay as they are (R271). It replaces no word by a store: poison stays (R427). -/
def State.atomicCells (s : State) (k : Nat) (cs : List (Ref × Byte)) : State :=
  if (globalCells cs).isEmpty then s
  else (s.gwrite (some k) noDie (homeIn? cs) (globalCells cs)).keepPoison s (quadOf k) fun l _ => !l

/-- The writes of a work queue's home (R231), which are not among those that fire triggers (R285). The step of its count, at an address,
replaces no word by a store: poison stays there (R427). -/
def State.queueCells (s : State) (k : Nat) (cs : List (Ref × Byte)) (count : Nat) : State :=
  if (globalCells cs).isEmpty then s
  else (s.gwriteQuiet (some k) noDie (homeIn? cs) (globalCells cs)).keepPoison s (quadOf k) fun l w => !l && w == count / 8

/-- May a context's write be performed now? -/
def State.mayWriteCells (s : State) (k : Nat) (cs : List (Ref × Byte)) : Bool :=
  s.mayWriteLocal (some k) (quadOf k) (localCells cs) && s.mayWrite (some k) (globalCells cs)

/-- A first access to a powered-down bank powers it up; it reads as zero (R176). -/
def State.powerUp (s : State) (quad bank : Nat) : State :=
  s.onQuad quad fun q => { q with down := setFld q.down bank 1 0 }

/-- The banks of local references that are read are powered up (R176, R382). -/
def State.powerUps (s : State) (quad : Nat) (rs : List Ref) : State :=
  if (s.quad quad).down = 0 then s
  else rs.foldl (fun s r => if r.isLocal then s.powerUp quad (r.addr / 0x10000) else s) s

end Sys2Proof.Machine
end

