-- ==== Sys2Proof/Machine/Check.lean ====
section
/-! DEFINITION. The checks of data addresses (R151, R160, R161, R179, R215, R270) and the access they grant or deny. -/

namespace Sys2Proof.Machine

/-- Codes of R240. -/
abbrev cIllegal : Nat := 0x01
abbrev cMisaligned : Nat := 0x02
abbrev cAccess : Nat := 0x03
abbrev cTranslation : Nat := 0x04
abbrev cFloat : Nat := 0x05
abbrev cDivide : Nat := 0x06
abbrev cWindow : Nat := 0x07
abbrev cOverlay : Nat := 0x08
abbrev cMismatch : Nat := 0x09
abbrev cCarry : Nat := 0x0A
abbrev cNested : Nat := 0x0B
abbrev cTrap : Nat := 0x0C
abbrev cBreak : Nat := 0x0D
abbrev cPower : Nat := 0x11
abbrev cTimer : Nat := 0x12

/-- Why an access is denied: a cause with its TVAL, or a translation fault with its reason, address and kind of access
(R263, R264). -/
inductive Denied where
  | trap (code : Nat) (tval : Word)
  | translation (reason : Nat) (va : Word) (access : Nat)
deriving DecidableEq, Repr

/-- The outcome of a check. -/
inductive Chk (α : Type) where
  | ok (a : α)
  | no (d : Denied)
deriving DecidableEq, Repr

/-- The kinds of access of R264, with the permission that R260 and R270 ask for. -/
inductive Kind where
  | load | store | atomic
deriving DecidableEq, Repr

/-- ACCESS of R264. -/
def Kind.code : Kind → Nat
  | .load => 0 | .store => 1 | .atomic => 2

/-- Does the page allow the kind of access (R260)? -/
def Kind.allowed (k : Kind) (t : Tlb) : Bool :=
  match k with
  | .load => t.r | .store => t.w | .atomic => t.r && t.w

/-- Is the address in the local window (R161)? -/
def isLocal (a : Word) : Bool := decide (a.toNat < windowEnd)

/-- The byte `n` further on. -/
def Ref.plus (r : Ref) (n : Nat) : Ref := { r with addr := r.addr + n }

/-- The references of `n` bytes from one up. -/
def Ref.span (r : Ref) (n : Nat) : List Ref := (List.range n).map r.plus

/-- Does any of `n` bytes lie in a poisoned word (R427)? -/
def State.poisonSpan (s : State) (quad : Nat) (r : Ref) (n : Nat) : Bool :=
  (List.range (ceilDiv n 8)).any fun i => s.poisonRef quad (r.plus (8 * i))

/-- A local address of the context's quad, from the address alone (R160, R215). -/
def localOk (s : State) (k : Nat) (a : Word) : Bool :=
  !(s.ctx k).task.portable && decide ((s.quad (quadOf k)).xbound.toNat ≤ a.toNat) && decide (a.toNat < capacity (quadLayer (quadOf k)))

/-- Do two references name one byte? -/
def Ref.same (a b : Ref) : Bool := a.isLocal == b.isLocal && a.addr == b.addr

/-- The bytes that a context has stored and not yet performed, or that its attempt holds back. -/
def Ctx.ownBytes (c : Ctx) : List Ref :=
  c.outs.flatMap (fun o => match o.op with | .store cells => cells.map (·.1) | _ => []) ++
    match c.attempt with | some a => a.levels.flatMap fun l => l.buf.map (·.r) | none => []

/-- Has one of a context's own stores, not yet performed or held back by its attempt, replaced the whole word of a byte? -/
def Ctx.replaces (c : Ctx) (r : Ref) : Bool :=
  c.outs.any (fun o => match o.op with | .store cells => coversWord cells r | _ => false) ||
    match c.attempt with
    | some a => a.levels.any fun l => l.buf.any fun b => b.whole && b.r.isLocal == r.isLocal && b.r.addr / 8 == r.addr / 8
    | none => false

/-- Does a context read poison in `n` bytes? Not where its own earlier store replaces the whole word (R427, R162). -/
def State.poisonSeen (s : State) (k : Nat) (r : Ref) (n : Nat) : Bool :=
  s.poisonSpan (quadOf k) r n &&
    (List.range (ceilDiv n 8)).any fun i => s.poisonRef (quadOf k) (r.plus (8 * i)) && !(s.ctx k).replaces (r.plus (8 * i))

/-- The poison of the `n` bytes granted ends the access of a consumer (R427; DEDUCED, log 21). -/
def consume (s : State) (k : Nat) (kind : Kind) (a : Word) (n : Nat) (r : Ref) : Chk Ref :=
  if kind != .store && s.poisonSeen k r n then .no (.trap cAccess a) else .ok r

/-- Translation for a context; a miss of its quad's TLB is counted for its core (R268). -/
def State.translateFor (s : State) (k : Nat) (a : Word) : Xlate × State :=
  let quad := quadOf k
  let pasid := (s.ctx k).ctl.pasid
  let s := match tlbFind (s.quad quad).tlb pasid a.toNat with
    | some _ => s
    | none => s.onQuad quad fun q => { q with misses := q.misses.put (coreOf k % 4) (q.misses.get 0 (coreOf k % 4) + 1) }
  translate s quad pasid a.toNat

/-- Translate of R179: bits [63:57], the translation, the permission. -/
def globalCheck (s : State) (k : Nat) (kind : Kind) (a : Word) (n : Nat) : Chk Ref × State :=
  if fld a 57 7 ≠ 0 then (.no (.trap cAccess a), s)
  else
    match s.translateFor k a with
    | (.fault r, s) => (.no (.translation r a kind.code), s)
    | (.page t, s) =>
      if !kind.allowed t then (.no (.trap cAccess a), s) else (consume s k kind a n (s.pageRef t a.toNat), s)

/-- The checks of an access of `n` bytes at an address, which is to be a multiple of `align` (R161, R179, R215). -/
def checkAccess (s : State) (k : Nat) (kind : Kind) (a : Word) (n align : Nat) : Chk Ref × State :=
  if a.toNat % align ≠ 0 then (.no (.trap cMisaligned a), s)
  else if isLocal a then
    (if localOk s k a then consume s k kind a n { isLocal := true, addr := a.toNat } else .no (.trap cAccess a), s)
  else globalCheck s k kind a n

/-- The checks of R270: global device memory only. `kind` is .load for arm, disarm, waitge and bwait. -/
def checkAtomic (s : State) (k : Nat) (kind : Kind) (a : Word) (n : Nat) : Chk Ref × State :=
  if a.toNat % n ≠ 0 then (.no (.trap cMisaligned a), s)
  else if isLocal a then (.no (.trap cAccess a), s)
  else
    match globalCheck s k kind a n with
    | (.ok r, s) => (if r.addr.testBit 45 then .no (.trap cAccess a) else .ok r, s)
    | x => x

/-- One of several addresses that an instruction checks: its alignment, and whether only global memory will do. -/
structure Asked where
  a : Word
  align : Nat
  globalOnly : Bool := false
  kind : Kind := .load
deriving DecidableEq, Repr

/-- The fault that an address alone shows (R160, R179, R215). -/
def aloneFault (s : State) (k : Nat) (x : Asked) : Option Denied :=
  if isLocal x.a then (if x.globalOnly || !localOk s k x.a then some (.trap cAccess x.a) else none)
  else if fld x.a 57 7 ≠ 0 then some (.trap cAccess x.a) else none

/-- The first translation fault among several addresses. -/
def pretranslate (s : State) (k : Nat) : List Asked → Option Denied × State
  | [] => (none, s)
  | x :: t =>
    if isLocal x.a then pretranslate s k t
    else match s.translateFor k x.a with
      | (.fault r, s) => (some (.translation r x.a x.kind.code), s)
      | (.page _, s) => pretranslate s k t

/-- What several addresses of one instruction show before any translation, in the order of R241: misalignment, then what the addresses
alone show. -/
def prealone (s : State) (k : Nat) (l : List Asked) : Option Denied :=
  match l.findSome? (fun x => if x.a.toNat % x.align ≠ 0 then some (Denied.trap cMisaligned x.a) else none) with
  | some d => some d
  | none => l.findSome? (aloneFault s k)

/-- The causes that several addresses of one instruction raise, in the order of R241: misalignment, then what the addresses
alone show, then translation. Permissions are checked with each access. -/
def precheck (s : State) (k : Nat) (l : List Asked) : Option Denied × State :=
  match prealone s k l with
  | some d => (some d, s)
  | none => pretranslate s k l

/-- The end of the page that holds a translated address. -/
def pageEnd (s : State) (k : Nat) (a : Word) : Nat :=
  match (translate s (quadOf k) (s.ctx k).ctl.pasid a.toNat).1 with
  | .page t => t.pa + 2 ^ t.bits
  | .fault _ => 0

/-- The `n` bytes that the context reads now at a checked reference, past no copy when `bypass`. -/
def State.readRef (s : State) (k : Nat) (bypass : Bool) (r : Ref) (n : Nat) : List Byte :=
  (r.span n).map (s.readByte (quadOf k) bypass)

/-- Cells of a number of `n` bytes at a reference, little-endian. -/
def cellsOf (r : Ref) (n v : Nat) : List (Ref × Byte) := (r.span n).zip (bytesOfNat n v)

/-- A byte after the stores in cells, the latest last. -/
def overlay (cells : List (Ref × Byte)) (r : Ref) (b : Byte) : Byte :=
  match cells.reverse.find? fun c => c.1.same r with
  | some c => c.2
  | none => b

end Sys2Proof.Machine
end

