-- ==== Sys2Proof/Machine/Messages.lean ====
section
/-! DEFINITION. Active messages, run-queue records, fault records and interrupts as shared operations (R203 to R212, R219 to
R229, R263, R264, R412). -/

namespace Sys2Proof.Machine

/-! ### Interrupts (R412) -/

/-- The interrupt of a vector is sent, or stays pending while the vector is masked. -/
def Vect.send (v : Vect) : Vect :=
  if v.masked then { v with pending := true, gathered := 0 } else { v with sent := v.sent + 1, gathered := 0 }

/-- One event on a vector. -/
def Vect.event (v : Vect) : Vect :=
  let v := { v with gathered := v.gathered + 1 }
  if v.time = 0 || decide (v.count ≤ v.gathered) then v.send else v

/-- An event on one of the 2,048 vectors (R399, R412). -/
def State.signal (s : State) (vector : Nat) : State :=
  if 2048 ≤ vector then s
  else s.onCp fun c => { c with vectors := c.vectors.put vector (c.vectors.get {} vector).event }

/-! ### Fault records (R263, R264, R410, R432) -/

/-- A record enters the command processor; FAULT_RECORD_POST hands it to the host's fault queue. One that is no translation fault enters also
where 4,096 wait (R410; DEDUCED, log 60). -/
def State.report (s : State) (r : FaultRec) : State := s.onCp fun c => { c with waiting := c.waiting ++ [r] }

/-- May a further fault of a PASID and granule join the record (R263)? -/
def FaultRec.joins (r : FaultRec) (pasid : Nat) (va : Word) : Bool :=
  r.kind == 0 && r.pasid == pasid && r.va.toNat / 65536 == va.toNat / 65536

/-- One more fault joins the record; `k` is the context it suspends, if it suspends one. -/
def FaultRec.join (r : FaultRec) (k : Option Nat) : FaultRec :=
  { r with count := min 255 (r.count + 1), covers := match k with | some j => r.covers ++ [j] | none => r.covers }

/-- The physical address of a host physical address (R180), which is taken modulo 2^45 (DEDUCED, log 42). -/
def hostPa (s : State) (hpa : Nat) : Nat := s.domainIx * 2 ^ 46 + 2 ^ 45 + hpa % 2 ^ 45

/-- The place of byte `off` of the record of a number in the host's fault queue (R410). -/
def fqPlace (s : State) (k off : Nat) : Nat := hostPa s (s.cp.fqbase.toNat + 32 * ((k - 1) % 2 ^ fld s.cp.fqctl 0 4) + off)

/-- COUNT of a record in its slot of the fault queue, while the slot is the record's (DEDUCED, log 60); none where the write must wait, because
an irrevocable attempt holds the line (R306). -/
def State.countStore (s : State) (n : Nat) : Option State :=
  match s.cp.outstanding.find? fun e => e.1 == n with
  | none => some s
  | some e =>
    if (s.cp.fqtail % 2 ^ 32 + 2 ^ 32 - n) % 2 ^ 32 < 2 ^ fld s.cp.fqctl 0 4 then
      let at_ := fqPlace s (n + 2 ^ 32) 0x17
      if s.mayWrite none [(at_, 0)] then some (s.hostBytes at_ (bytesOfNat 1 e.2.count)) else none
    else some s

/-- COUNT of a record that the host holds rises in its slot too (R263, R264), at once or once the line is free. -/
def State.raiseCount (s : State) (e : Nat × FaultRec) : State :=
  (s.countStore e.1).getD (s.onCp fun c => { c with stores := c.stores ++ [.count e.1] })

/-- The record of a translation fault. Answers false where 4,096 records wait and the command processor declines (R410). -/
def State.reportTranslation (s : State) (k : Nat) (suspends : Bool) (reason : Nat) (va : Word) (access : Nat) : State × Bool :=
  let pasid := (s.ctx k).ctl.pasid
  let who := if suspends then some k else none
  if s.cp.waiting.any (·.joins pasid va) then
    (s.onCp fun c => { c with waiting := c.waiting.map fun r => if r.joins pasid va then r.join who else r }, true)
  else if s.cp.outstanding.any (fun e => e.2.joins pasid va) then
    let s := s.onCp fun c => { c with outstanding := c.outstanding.mapVals fun _ r => if r.joins pasid va then r.join who else r }
    ((s.cp.outstanding.filter fun e => e.2.joins pasid va).foldl State.raiseCount s, true)
  else if 4096 ≤ s.cp.waiting.length then (s, false)
  else
    (s.report { va, pasid, kind := 0, reason, access, origin := identOf s.module k, covers := who.toList }, true)

/-! ### Run queues (R205 to R207) -/

/-- May a record of a priority enter a queue (R205)? -/
def queueHasRoom (occ pri : Nat) : Bool := if pri < 3 then decide (occ < 28) else decide (occ < 32)

/-- A record put at the tail of a core's queue. -/
def State.enqueue (s : State) (core : Nat) (r : Record) : State := s.onCore core fun c => { c with queue := c.queue ++ [r] }

/-- The record of highest priority that a test admits, the longest standing first (R206, R213). The queue keeps the order of
standing at a priority. -/
def bestRecord (ok : Record → Bool) (q : List Record) : Option Record :=
  [3, 2, 1, 0].findSome? fun p => q.find? fun r => r.pri == p && ok r

/-- The first occurrence of a record taken away. -/
def dropRecord (q : List Record) (r : Record) : List Record := q.erase r

/-- Can a record be stolen (R214): in its quad, and beyond it? -/
def Record.stealable (r : Record) : Bool := r.flags.testBit 0
def Record.isPortable (r : Record) : Bool := r.flags.testBit 1

/-! ### Messages -/

/-- The status words of R220. -/
def accepted : Word := 0
def refused (reason : Nat) : Word := word (1 + 256 * reason)
def faulted (reason : Nat) : Word := word (2 + 256 * reason)

/-- Is the destination word's field of zeros, and the descriptor, well formed (R219)? -/
def descriptorOk (xb : Word) : Bool := fld xb 38 26 == 0 && !bitAt xb 35 && fld xb 0 2 == 0

/-- Does the part have the core a destination word names (R220)? -/
def destExists (s : State) (dst : Word) : Bool :=
  let core := fld dst 0 14
  let m := fld dst 32 12
  if m = s.module then inGrid core && s.build.hasCore core
  else inGrid core && s.modules.has m && (s.modules.get {} m).hasCore core

/-- May a context of a quarter send to the destination (R220)? -/
def destAllowed (s : State) (quarter : Nat) (dst : Word) : Bool :=
  let core := fld dst 0 14
  let m := fld dst 32 12
  match s.partOfQuarter quarter with
  | none => false
  | some (_, p) =>
    if m = s.module then p.quarters.testBit (quarterOf (quadOfCore core))
    else p.joins.any fun j => j.module == m && j.quarters.testBit (quarterOf (quadOfCore core))

/-- The tests of R220 at the sender: the reason of a FAULT, reasons 3, 1 and 2 in that order. -/
def senderFault (s : State) (k : Nat) (xa xb : Word) : Option Nat :=
  if fld xa 44 20 ≠ 0 || !descriptorOk xb then some 3
  else if !destExists s xa then some 1
  else if !destAllowed s (quarterOf (quadOf k)) xa then some 2
  else none

/-- The handler context of a core. -/
def handlerOf (core : Nat) : Nat := 8 * core + 4

/-- Messages that a core's request mailbox and its reply mailbox hold, the one being handled included (R225, R229) (DESIGN CHOICE, log 27). -/
def State.requestOcc (s : State) (core : Nat) : Nat :=
  (s.core core).requests.length + (match (s.ctx (handlerOf core)).msg with | some m => if m.reply then 0 else 1 | none => 0)
def State.replyOcc (s : State) (core : Nat) : Nat :=
  (s.core core).replies.length + (match (s.ctx (handlerOf core)).msg with | some m => if m.reply then 1 else 0 | none => 0)

/-- Does the partition hold the PASID, and not tear it down (R258, R411)? -/
def Part.holds (p : Part) (pasid : Nat) : Bool := p.pasids.any fun e => e.1 == pasid && !e.2.tearing

/-- The record that a task-kind message makes (R221). -/
def Msg.record (m : Msg) : Record :=
  { entry := m.entry, pri := m.pri, flags := 0, x3 := m.header, args := m.payload, nxm := m.nxm, pasid := m.pasid
    src := if m.slice.isSome then 3 else 2 }

/-- Arrive of R221 at a core of a partition: the status. -/
def State.verdict (s : State) (p : Part) (m : Msg) : Word :=
  let c := s.core m.dst
  if !p.holds m.pasid then faulted 2
  else if p.mode != .running then refused 3
  else if m.reply then (if 4 ≤ s.replyOcc m.dst then refused 1 else accepted)
  else if !m.isTask then (if c.mbdepth ≤ s.requestOcc m.dst then refused 1 else accepted)
  else if !queueHasRoom c.queue.length m.pri then refused 2
  else accepted

/-- An accepted message stands in its mailbox, or as a record in the run queue (R221). -/
def State.accept (s : State) (m : Msg) : State :=
  if m.reply then s.onCore m.dst fun c => { c with replies := c.replies ++ [m] }
  else if !m.isTask then s.onCore m.dst fun c => { c with requests := c.requests ++ [m] }
  else s.enqueue m.dst m.record

/-- An arrival with its status, as a recording logs it (R430). -/
def mailboxEntry (m : Msg) (w : Word) : LogEntry := { kind := .mailbox, who := m.dst, what := m.header.toNat * 2 ^ 16 + w.toNat }

/-- In a replay, the next arrival that is logged at a message's core: its header and its status (R431). -/
def State.nextArrival (s : State) (m : Msg) : Option (Nat × Word) :=
  (s.replayOf (s.partFor (quarterOf (quadOfCore m.dst)))).bind fun r =>
    (r.todo.find? fun e => e.kind == .mailbox && e.who == m.dst).map fun e => (e.what / 2 ^ 16, word (e.what % 2 ^ 16))

/-- May a message be decided now? In a replay its logged turn has come, and one that was accepted has room (R431). -/
def State.mayDecide (s : State) (m : Msg) : Bool :=
  match s.nextArrival m with
  | none => true
  | some (h, w) => h == m.header.toNat && (w != accepted || match s.partFor (quarterOf (quadOfCore m.dst)) with
    | some (_, p) => s.verdict p m == accepted
    | none => true)

/-- The destination core decides (R221); in a replay as the log has it (R431; DESIGN CHOICE, log 49). -/
def State.decideMsg (s : State) (m : Msg) : Word × State :=
  match s.partFor (quarterOf (quadOfCore m.dst)) with
  | none => (faulted 2, s)
  | some (i, p) =>
    let w := match s.nextArrival m with
      | some (h, w) => if h = m.header.toNat then w else s.verdict p m
      | none => s.verdict p m
    let s := s.noteOrder (some (i, p)) (mailboxEntry m w)
    (w, if w = accepted then s.accept m else s)

/-- The header that a message's receiver takes (R224). -/
def headerOf (s : State) (k chan n : Nat) (nxm reply : Bool) : Word :=
  word (s.module * 2 ^ 32 + chan * 2 ^ 27 + n * 2 ^ 24 + (if nxm then 2 ^ 23 else 0) + (if reply then 2 ^ 22 else 0)) |||
    (identOf 0 k)

/-- The status of a message to another module, whose decision lies outside the model: one of those that R220 gives (DESIGN CHOICE, log 12). -/
def freeStatus (n : Word) : Word :=
  [accepted, refused 1, refused 2, refused 3, faulted 2, faulted 4].getD (n.toNat % 6) accepted

/-- A refusal that a core receives, as counter 7 of R268 counts it. -/
def State.countRefusal (s : State) (core : Nat) (w : Word) : State :=
  if fld w 0 2 = 1 then s.onCore core fun c => { c with refusals := c.refusals + 1 } else s

/-- Does a message go to a core of this module? -/
def Msg.here (s : State) (m : Msg) : Bool := m.dstModule == s.module

/-- Is it the message of the access? -/
def Msg.isOf (m : Msg) (k seq : Nat) : Bool := m.sender == some (k, seq)

/-- The source that a header names, without COUNT and NXM (R224). -/
def sourceOf (h : Word) : Word := setFld h 23 4 0

/-- Does a message wait behind another of one source, destination and channel (R222)? -/
def Msg.behind (m e : Msg) : Bool :=
  sourceOf m.header == sourceOf e.header && m.dst == e.dst && m.dstModule == e.dstModule && m.chan == e.chan && m.reply == e.reply

end Sys2Proof.Machine
end

