-- ==== Sys2Proof/Machine/Perform.lean ====
section
/-! DEFINITION. How issued accesses are performed and in which order they may be (R92, R94, R162, R190, R195, R196, R271 to
R288, R310), and the waits of settle points and fences for them. -/

namespace Sys2Proof.Machine

/-! ### Atomics (R274 to R281) -/

/-- What an atomic operation answers: the new operand where it writes, the bytes written, xd, conditions, a carry. -/
structure AmoRes where
  write : Option Nat
  bytes : Nat
  x : Word
  cond : Nat := 0
  carry : Bool := false
deriving DecidableEq, Repr

/-- The floating sum of amo.fadd (R275). -/
def amoFadd (bytes : Nat) (fpctl : Word) (old v : Nat) : Nat × Nat :=
  let f : Fmt := if bytes = 8 then .f64 else .f32
  let rm := fld fpctl 0 2
  let r := (f.value false old).add rm (f.value false v)
  let q := f.round false rm (bitAt fpctl 13) r.1
  (q.1, r.2 ||| q.2)

/-- The operation of R274 to R281 on an operand of `bytes` bytes. For grab the operand is NEXT and END. -/
def amoApply (op : AmoOp) (bytes : Nat) (b c fpctl : Word) (old : Nat) : AmoRes :=
  let n := 8 * bytes
  let v := b.toNat % 2 ^ n
  let signed : Word := sext old n
  let plain (new : Nat) : AmoRes := { write := some (new % 2 ^ n), bytes, x := signed }
  match op with
  | .add => plain (old + v)
  | .and => plain (old &&& v)
  | .or => plain (old ||| v)
  | .xor => plain (old ^^^ v)
  | .min => plain (if sint v n < sint old n then v else old)
  | .max => plain (if sint old n < sint v n then v else old)
  | .minz => { plain (min old v) with x := word old }
  | .maxz => { plain (max old v) with x := word old }
  | .swap => plain v
  | .fadd =>
    let r := amoFadd bytes fpctl old v
    { write := some r.1, bytes, x := word old, cond := r.2 }
  | .cas => { write := if old = v then some (c.toNat % 2 ^ n) else none, bytes, x := signed }
  | .cadd =>
    let new := old + b.toNat % 2 ^ 32
    if 2 ^ 64 ≤ new then { write := none, bytes, x := word old, carry := true } else { write := some new, bytes, x := word old }
  | .grab =>
    let next := old % 2 ^ 64
    let end_ := old / 2 ^ 64
    let mn := max (fld b 0 32) 1
    let dv := max (fld b 32 16) 1
    let rem := end_ - next
    let size := min (min (max mn (ceilDiv rem dv)) rem) (2 ^ 24 - 1)
    { write := if size = 0 then none else some (next + size), bytes := 8, x := word (size * 2 ^ 40 + next % 2 ^ 40) }

/-- The answer that an atomic's result delivers (R274, R275, R278). -/
def AmoRes.ans (r : AmoRes) (d : BitVec 5) (fpctl va : Word) (o : Out) : Ans :=
  { writes := [.x d r.x]
    fp := if r.cond = 0 then none
          else some { cond := word r.cond, lane := 0, addr := o.pc, seq := o.seq, en := fld fpctl 12 5 }
    carry := if r.carry then some va else none }

/-! ### Loads (R151, R161) -/

/-- The register values that the bytes of a load make. -/
def LoadFin.writes (fin : LoadFin) (bs : List Byte) : List RegWrite :=
  match fin with
  | .scalar d signed =>
    let v := natOfBytes bs
    [.x d (if signed then sext v (8 * bs.length) else word v)]
  | .pair d => [.x d (word (natOfBytes (bs.take 8))), .x (d + 1) (word (natOfBytes (bs.drop 8)))]
  | .lanes d w ls old =>
    let part (j : Nat) : Nat := natOfBytes ((bs.drop (w * j)).take w)
    let vals := (List.range (128 / w)).map fun i => match ls.idxOf? i with | some j => part j | none => lane w old i
    [.v d (ofLanes w vals)]

/-! ### Work queues (R230, R231) -/

/-- A work-queue descriptor as its 64 bytes give it. -/
structure QueueDesc where
  head : Nat
  tail : Nat
  log2cap : Nat
  flags : Nat
  vector : Nat
  reserved : Nat
deriving DecidableEq, Repr

def QueueDesc.of (bs : List Byte) : QueueDesc :=
  let n := natOfBytes bs
  { head := n % 2 ^ 64, tail := n / 2 ^ 64 % 2 ^ 64, log2cap := n / 2 ^ 128 % 256, flags := n / 2 ^ 136 % 256
    vector := n / 2 ^ 144 % 2 ^ 16, reserved := n / 2 ^ 160 }

def QueueDesc.cap (q : QueueDesc) : Nat := 2 ^ q.log2cap

/-- Records in the queue. -/
def QueueDesc.used (q : QueueDesc) : Nat := (q.tail + 2 ^ 64 - q.head) % 2 ^ 64

/-- Where the slots of a queue end whose descriptor lies at an address; the descriptor alone where the capacity is none of R230's. -/
def QueueDesc.reach (q : QueueDesc) (pa pageEnd : Nat) : Nat :=
  if q.log2cap == 0 || decide (9 < q.log2cap) then pa + 64 else min pageEnd (pa + 64 + 64 * q.cap)

/-- Is the descriptor at an address BAD (R230)? -/
def QueueDesc.bad (q : QueueDesc) (pa pageEnd : Nat) (host : Bool) : Bool :=
  q.log2cap == 0 || decide (9 < q.log2cap) || decide (1 < q.flags) || q.reserved != 0 || decide (q.cap < q.used) ||
    (q.flags == 1) != host || decide (pageEnd < pa + 64 + 64 * q.cap)

/-- The fields of a record of R203, as its bytes give them. -/
structure RecFields where
  entry : Nat
  pri : Nat
  flags : Nat
  argc : Nat
  zero : Nat
  tag : Word
  args : List Word
deriving DecidableEq, Repr

def RecFields.of (bs : List Byte) : RecFields :=
  let n := natOfBytes bs
  let at_ (off len : Nat) : Nat := n / 2 ^ (8 * off) % 2 ^ (8 * len)
  { entry := at_ 0 4, pri := at_ 4 1, flags := at_ 5 1, argc := at_ 6 1, zero := at_ 7 1, tag := word (at_ 8 8)
    args := (List.range 6).map fun i => word (at_ (16 + 8 * i) 8) }

/-- Does the record keep the limits of R203? -/
def RecFields.ok (r : RecFields) : Bool :=
  decide (r.pri ≤ 3) && decide (r.flags < 4) && decide (r.argc ≤ 6) && r.entry % 4 == 0 && r.zero == 0

/-- ARG0 to ARG5 with the words at and beyond ARGC zero (R204). -/
def RecFields.argsUsed (r : RecFields) : List Word :=
  (List.range 6).map fun i => if i < r.argc then r.args.getD i 0 else 0

/-! ### What an access touches, and what it must wait for -/

/-- The bytes an outstanding operation reads or writes, as ranges: is it local, from, to. -/
def Out.ranges (o : Out) : List (Bool × Nat × Nat) :=
  let one (r : Ref) (n : Nat) : Bool × Nat × Nat := (r.isLocal, r.addr, r.addr + n)
  match o.op with
  | .value => []
  | .load at_ _ _ => at_.map fun r => one r 1
  | .store cells => cells.map fun c => one c.1 1
  | .amo r _ n _ _ _ _ _ => [one r n]
  | .waitge r _ _ => [one r 8]
  | .arm r _ _ => [one r 8]
  | .disarm r _ _ => [one r 8]
  | .enq r _ _ _ _ upTo => [(r.isLocal, r.addr, upTo)]
  | .deq r _ _ upTo => [(r.isLocal, r.addr, upTo)]
  | .send _ => []
  | .reply _ => []
  | .fence _ => []
  | .start _ => []

def Out.isStore (o : Out) : Bool := match o.op with | .store _ => true | _ => false
def Out.isLoad (o : Out) : Bool := match o.op with | .load _ _ _ => true | _ => false

/-- Is it a message on its way: an amsend without its status, or a reply that has not left? -/
def Out.isMsg (o : Out) : Bool := match o.op with | .send _ => true | .reply _ => true | _ => false

/-- Has it retired at issue, with no result to come: a store, a reply (R229), or the release of a start? -/
def Out.retires (o : Out) : Bool := o.isStore || match o.op with | .reply _ => true | .start _ => true | _ => false

/-- Does a reply stand before another of its handler on the same channel, which keeps their order (R222)? -/
def Out.sameReply (p o : Out) : Bool := match p.op, o.op with | .reply m, .reply n => m.chan == n.chan | _, _ => false

/-- Does it bind a value by reading memory alone: a load or a waitge (R195)? -/
def Out.binds (o : Out) : Bool := match o.op with | .load _ _ _ => true | .waitge _ _ _ => true | _ => false

/-- Is an outstanding access one to the local window? -/
def Out.isLocal (o : Out) : Bool := o.ranges.any fun r => r.1

/-- The references of an outstanding access. -/
def Out.refs (o : Out) : List Ref :=
  match o.op with
  | .value => []
  | .load at_ _ _ => at_
  | .store cells => cells.map (·.1)
  | .amo r _ _ _ _ _ _ _ => [r]
  | .waitge r _ _ => [r]
  | .arm r _ _ => [r]
  | .disarm r _ _ => [r]
  | .enq r _ _ _ _ _ => [r]
  | .deq r _ _ _ => [r]
  | .send _ => []
  | .reply _ => []
  | .fence _ => []
  | .start _ => []

/-- Is a byte the quad's own: in its local window, or homed in a slice of its cores (R195)? -/
def Ref.ofQuad (r : Ref) (quad : Nat) : Bool := r.isLocal || (!r.addr.testBit 45 && quadOfCore r.home == quad)

/-- Must the fence of a quad wait for an earlier access: a load, or one whose home is the quad's (R197)? -/
def Out.beforeFence (p : Out) (quad : Nat) : Bool := p.binds || p.refs.any fun r => r.ofQuad quad

/-- Do two operations touch a common byte? -/
def Out.overlaps (o p : Out) : Bool :=
  o.ranges.any fun a => p.ranges.any fun b => a.1 == b.1 && decide (a.2.1 < b.2.2) && decide (b.2.1 < a.2.2)

/-- Has the operation still to be performed? -/
def Out.pending (o : Out) : Bool := o.ans.isNone

/-- Must `p`, earlier in program order, be performed before `o` (R162, R196, R272, R283)? A load may read the bytes of the
context's own earlier store before that store is performed. A message on its way orders nothing that comes after it (R223, R395), but for
a reply's place among those of its channel. -/
def Out.blocks (p o : Out) : Bool :=
  p.pending && (p.acq || (o.rel && !p.isMsg) || p.sameReply o || (p.overlaps o && !(p.isStore && o.isLoad)) ||
    match o.op with | .fence quad => p.beforeFence quad | _ => false)

/-- The release of a context that starts an operation or a task, of the number that is `ahead` from the next: none where every earlier access
has been performed. A message is no access (R392, R395). -/
def Ctx.gate (c : Ctx) (k ahead : Nat) : Gate :=
  if c.outs.any fun p => p.pending && !p.isMsg then some (k, c.nextSeq + ahead) else none

/-- The release takes its place in program order. -/
def Ctx.issueGate (g : Gate) (c : Ctx) : Ctx :=
  match g with
  | some (k, _) => c.issue (.start k) [] false false true
  | none => c

/-- Is it the release of a gate? -/
def Out.opens (g : Nat × Nat) (o : Out) : Bool := o.seq == g.2 && match o.op with | .start k => k == g.1 | _ => false

/-- The operations that must be performed so that all those a test wants are, in program order. -/
def neededOuts (want : Out → Bool) (l : List Out) : List Out :=
  l.foldr (fun o acc => if o.pending && (want o || acc.any (o.blocks ·)) then o :: acc else acc) []

/-- May an operation be performed now? (DEDUCED, log 5). -/
def Ctx.mayPerform (c : Ctx) (o : Out) : Bool := c.outs.all fun p => decide (o.seq ≤ p.seq) || !p.blocks o

/-! ### Performing -/

/-- The bytes of the context's earlier stores that are not yet performed, the latest last. -/
def Ctx.earlierCells (c : Ctx) (seq : Nat) : List (Ref × Byte) :=
  c.outs.flatMap fun p => if p.seq < seq then (match p.op with | .store cells => cells | _ => []) else []

/-- Lines that a die's remote-data cache of 32 MiB holds (R14, R185). -/
def rdcLines : Nat := 2 ^ 18

/-- A copy put into a remote-data cache; which line leaves a full one is the hardware's (DEDUCED, log 15). -/
def rdcPut (m : Map (List Byte)) (line : Nat) (bs : List Byte) : Map (List Byte) :=
  if m.length < rdcLines then m.put line bs else Map.put (m.eraseIdx 0) line bs

/-- Does a line hold a poisoned word? -/
def State.poisonLine (s : State) (line : Nat) : Bool := s.poison.any fun w => w / 16 == line

/-- A copy of each PC = 1 line that a plain load reads comes into the die's remote-data cache (R188; DEDUCED, log 15). No copy is kept of a
line with a poisoned word: poison would go with it (R427), and R188 keeps no copy in any case. -/
def State.fillCopies (s : State) (k : Nat) (rs : List Ref) : State :=
  let die := quadDie (quadOf k)
  (dedup (rs.filterMap fun r => if !r.isLocal && r.pc1 then some (r.addr / 128) else none)).foldl (fun s l =>
    if (s.die die).rdc.has l || s.poisonLine l then s else s.onDie die fun d => { d with rdc := rdcPut d.rdc l (s.gread (128 * l) 128) }) s

/-- The answer of an operation is known. -/
def State.answer (s : State) (k seq : Nat) (a : Ans) : State :=
  s.onCtx k fun c => c.onOut seq fun o => { o with ans := some a }

/-- The dword at a reference. -/
def State.dwordAt (s : State) (r : Ref) : Word := word (s.gdword r.addr)

/-- The lowest slot of a trigger table that no entry of a partition holds (R283). -/
def freeSlot (l : List Trigger) (part : Nat) : Nat :=
  ((List.range 256).find? fun i => !l.any fun t => t.part == part && t.slot == i).getD 256

/-- Arm at the counter's home (R283): the status word of R284. -/
def State.armAt (s : State) (r : Ref) (t : Trigger) : Word × State :=
  let v := s.dwordAt r
  if reached v t.threshold then (1, s.fire r.home t v)
  else
    let sl := s.slice r.home
    let slot := freeSlot sl.triggers t.part
    if 256 ≤ slot then (2, s)
    else
      let serial := sl.serials.get 0 t.part
      (word (serial * 2 ^ 40 + slot * 2 ^ 32), s.onSlice r.home fun sl =>
        { sl with
          triggers := sl.triggers ++ [{ t with slot, serial }]
          serials := sl.serials.put t.part ((serial + 1) % 2 ^ 16) })

/-- Disarm at the counter's home (R288). -/
def State.disarmAt (s : State) (part : Nat) (r : Ref) (handle : Word) : Word × State :=
  let hit (t : Trigger) : Bool :=
    t.part == part && t.slot == fld handle 32 8 && t.serial == fld handle 40 16 && t.addr == r.addr
  if (s.slice r.home).triggers.any hit then
    (0, s.onSlice r.home fun sl => { sl with triggers := sl.triggers.filter fun t => !hit t })
  else (1, s)

/-- Global cells of bytes at a physical address, with the home of a reference. -/
def cellsAt (r : Ref) (pa : Nat) (bs : List Byte) : List (Ref × Byte) :=
  (List.range bs.length).zip bs |>.map fun e => ({ r with addr := pa + e.1 }, e.2)

/-- Enq and hostpost at the descriptor's home (R231): none while an irrevocable attempt holds a line it would write. -/
def State.enqAt (s : State) (k : Nat) (r : Ref) (record : List Byte) (host : Bool) (pageEnd : Nat) : Option (Word × State) :=
  let q := QueueDesc.of (s.gread r.addr 64)
  if q.bad r.addr pageEnd host then some (3, s)
  else if q.used = q.cap then some (1, s)
  else
    let slot := r.addr + 64 + 64 * (q.tail % q.cap)
    let cells := cellsAt r slot record ++ cellsAt r (r.addr + 8) (bytesOfNat 8 (q.tail + 1))
    if !s.mayWriteCells k cells then none
    else
      let s := s.queueCells k (s.served cells) (r.addr + 8)
      some (0, if host then s.signal q.vector else s)

/-- Deq at the descriptor's home (R231): the registers it writes. -/
def State.deqAt (s : State) (k : Nat) (r : Ref) (d : BitVec 5) (pageEnd : Nat) : Option (List RegWrite × State) :=
  let q := QueueDesc.of (s.gread r.addr 64)
  if q.bad r.addr pageEnd false then some ([.x d 3], s)
  else if q.used = 0 then some ([.x d 1], s)
  else
    let f := RecFields.of (s.gread (r.addr + 64 + 64 * (q.head % q.cap)) 64)
    let cells := cellsAt r r.addr (bytesOfNat 8 (q.head + 1))
    if !s.mayWriteCells k cells then none
    else
      let args := if f.ok then f.argsUsed else f.args
      let st := if f.ok then f.entry * 2 ^ 32 + f.argc * 2 ^ 12 + f.flags * 2 ^ 10 + f.pri * 2 ^ 8 else f.entry * 2 ^ 32 + 2
      let regs : List RegWrite := (List.range 6).map fun i => .x (BitVec.ofNat 5 (4 + i)) (args.getD i 0)
      some (.x 3 f.tag :: regs ++ [.x d (word st)], s.queueCells k (s.served cells) r.addr)

/-- A message is taken out of the fabric (DEDUCED, log 46). -/
def State.dropMsg (s : State) (k seq : Nat) : State := { s with net := s.net.filter fun m => !m.isOf k seq }

/-- In a replay, has the turn of an amsend come that is not answered yet (R431)? -/
def State.sendTurn (s : State) (k seq : Nat) : Bool :=
  match s.net.find? fun m => m.isOf k seq with
  | none => true
  | some m => m.answer.isSome || !m.here s || s.mayDecide m

/-- The status of an amsend (R220): decided at the destination now, if it has not been. -/
def State.sendStatus (s : State) (k seq : Nat) : Word × State :=
  match s.net.find? fun m => m.isOf k seq with
  | none => (faulted 4, s)
  | some m =>
    let s := s.dropMsg k seq
    match m.answer with
    | some w => (w, s)
    | none => if m.here s then s.decideMsg m else (freeStatus (Config.freeCount s.free), { s with free := s.free + 1 })

def Ctx.onAttempt (c : Ctx) (f : Attempt → Attempt) : Ctx := { c with attempt := c.attempt.map f }

/-- The attempt has written (R306). -/
def State.markWrote (s : State) (k : Nat) : State := s.onCtx k fun c => c.onAttempt fun a => { a with wrote := true }

/-- A byte of a load: bound already, or the context's own earlier store's, or memory's. -/
def State.loadByte (s : State) (k : Nat) (o : Out) (own : List (Ref × Byte)) (nc : Bool) (e : Ref × Nat) : Byte :=
  match o.bound.find? fun b => b.1 == e.2 with
  | some b => b.2
  | none => overlay own e.1 (s.readByte (quadOf k) (nc || o.acq) e.1)

/-- One aligned 8-byte word of a load is bound, that of its j-th byte (R152, R162): an instruction is atomic only element by element. -/
def State.bindPart (s : State) (k : Nat) (o : Out) (j : Nat) : State :=
  match o.op with
  | .load at_ _ nc =>
    match at_[j]? with
    | none => s
    | some r =>
      let own := (s.ctx k).earlierCells o.seq
      let here := at_.zipIdx.filter fun e => e.1.isLocal == r.isLocal && e.1.addr / 8 == r.addr / 8
      let new := here.map fun e => (e.2, s.loadByte k o own nc e)
      let s := (if nc || o.acq then s else s.fillCopies k (here.map (·.1))).powerUps (quadOf k) (here.map (·.1))
      s.onCtx k fun c => c.onOut o.seq fun o => { o with bound := new ++ o.bound }
  | _ => s

/-- The first `n` elements of a store are performed, in ascending order (R152); nothing where they cannot be yet. Of an stp that is the low
dword (R162; DEDUCED, log 5). -/
def State.storePart (s : State) (k : Nat) (o : Out) (n : Nat) : State :=
  match o.op with
  | .store cells =>
    let part := cells.take (n * o.vsize)
    if o.vsize = 0 ∨ cells.length ≤ n * o.vsize ∨ !s.mayWriteCells k part then s
    else (s.writeCells k (s.served part)).onCtx k fun c => c.onOut o.seq fun o => { o with op := .store (cells.drop (n * o.vsize)) }
  | _ => s

/-- An outstanding operation is performed. Answers false where it cannot be yet: an irrevocable attempt holds a line it
would write (R306), or a waitge is not satisfied (R310). -/
def State.perform (s : State) (k : Nat) (o : Out) : State × Bool :=
  let x (d : BitVec 5) (w : Word) (s : State) : State × Bool := (s.answer k o.seq { writes := [.x d w] }, true)
  match o.op with
  | .value => (s, true)
  | .load at_ fin nc =>
    let own := (s.ctx k).earlierCells o.seq
    let bs := at_.zipIdx.map (s.loadByte k o own nc)
    let s := (if nc || o.acq then s else s.fillCopies k at_).powerUps (quadOf k) at_
    (s.answer k o.seq { writes := fin.writes bs }, true)
  | .store cells =>
    if s.mayWriteCells k cells then ((s.writeCells k (s.served cells)).onCtx k fun c => c.dropOut o.seq, true) else (s, false)
  | .amo r op n d b c fpctl va =>
    let res := amoApply op n b c fpctl (natOfBytes (s.gread r.addr n))
    let cells := match res.write with | none => [] | some v => cellsOf r res.bytes v
    let turn : LogEntry := { kind := .home, who := r.home, what := k }
    if !s.mayWriteCells k cells || !s.mayOrder (s.partOf k) turn then (s, false)
    else
      let s' := if res.write.isSome then s.markWrote k else s
      (((s'.atomicCells k cells).answer k o.seq (res.ans d fpctl va o)).noteOrder (s.partOf k) turn, true)
  | .waitge r d b =>
    let v := s.dwordAt r
    if reached v b then
      x d v (s.onSlice r.home fun sl => { sl with jacks := sl.jacks.filter (· != (lineOf (quadOf k) r, k)) })
    else ((s.makeJack k (lineOf (quadOf k) r) r).onCtx k fun c => c.onOut o.seq fun o => { o with tested := true }, false)
  | .arm r d t =>
    let turn : LogEntry := { kind := .home, who := r.home, what := k }
    let fires := reached (s.dwordAt r) t.threshold
    if !s.mayOrder (s.partOf k) turn || (fires && !s.mayOrder (firingPart s r.home) (triggerTurn r.home t)) then (s, false)
    else
      let a := s.armAt r t
      x d a.1 (a.2.noteOrder (s.partOf k) turn)
  | .disarm r d h =>
    let turn : LogEntry := { kind := .home, who := r.home, what := k }
    if !s.mayOrder (s.partOf k) turn then (s, false)
    else
      let a := s.disarmAt (match s.partOf k with | some p => p.1 | none => 16) r h
      x d a.1 (a.2.noteOrder (s.partOf k) turn)
  | .enq r d record host pageEnd _ =>
    match s.enqAt k r record host pageEnd with
    | none => (s, false)
    | some a => x d a.1 a.2
  | .deq r d pageEnd _ =>
    match s.deqAt k r d pageEnd with
    | none => (s, false)
    | some a => (a.2.answer k o.seq { writes := a.1 }, true)
  | .send d =>
    if !s.sendTurn k o.seq then (s, false)
    else
      let a := s.sendStatus k o.seq
      x d a.1 (a.2.countRefusal (coreOf k) a.1)
  | .reply m =>
    let s := (s.onCore (coreOf k) fun c => { c with sending := c.sending ++ [m] }).onCtx k fun c => c.dropOut o.seq
    ({ s with net := s.net ++ [m] }, true)
  | .fence _ => (s.onCtx k fun c => c.dropOut o.seq, true)
  | .start _ => (s.onCtx k fun c => c.dropOut o.seq, true)

/-- Operations performed one after another, as far as they can be. -/
def State.performList (s : State) (k : Nat) : List Out → State × Bool
  | [] => (s, true)
  | o :: t =>
    match s.perform k o with
    | (s, true) => s.performList k t
    | (s, false) => (s, false)

/-- The operations of a context that a test wants are performed, with all that must come before them. -/
def State.require (s : State) (k : Nat) (want : Out → Bool) : State × Bool :=
  s.performList k (neededOuts want (s.ctx k).outs)

/-- Is it an atomic that the context does not read: no register takes its result (R92, R93, R270)? -/
def Out.unread (o : Out) : Bool :=
  o.dsts.isEmpty && match o.op with
    | .amo _ _ _ _ _ _ _ _ => true
    | .arm _ _ _ => true
    | .disarm _ _ _ => true
    | _ => false

/-- Is it waited for by a settle point: not a store or a reply, nor an atomic that the context does not read (R92)? -/
def Out.waited (o : Out) : Bool := !o.retires && !o.unread && match o.op with | .fence _ => false | _ => true

/-- The wait of a settle point (R92): every result is performed and written. -/
def State.settle (s : State) (k : Nat) : State × Bool :=
  match s.require k Out.waited with
  | (s, true) => (s.onCtx k fun c => c.deliverAll.settleLater, true)
  | (s, false) => (s.onCtx k Ctx.deliverReady, false)

/-- The wait for every earlier access (R197 at SYSTEM scope, R211, R216, R292) (DESIGN CHOICE, log 3). -/
def State.performAll (s : State) (k : Nat) : State × Bool := s.require k fun _ => true

end Sys2Proof.Machine
end

