-- ==== Sys2Proof/Machine/Stacker.lean ====
section
/-! DEFINITION. Changes to tiles, rings and the stacker that the end of a context and a pre-emption make (R166, R167, R357), and how a
stacker's members join and are logged (R356, R430). -/

namespace Sys2Proof.Machine

/-! ### Sleepers, tiles and rings -/

/-- Contexts that wait on a tile entry, a ring or a stacker are to be woken, and attempts that hold it in their retry set do
not sleep (R167). `inScope` says whose contexts are meant. -/
def State.wakeOn (s : State) (inScope : Nat → Bool) (w : WaitOn) : State :=
  { s with ctxs := s.ctxs.mapVals fun k c =>
      let waits := match c.status with | .sleeping ws => ws.contains w | _ => false
      let holds := match c.attempt with | some a => a.extra.contains w | none => false
      if inScope k && (waits || holds) then { c with wake := true } else c }

/-- The contexts of the quad that sleep on an entry or ring are woken (R167). -/
def State.wakeQuad (s : State) (quad : Nat) (w : WaitOn) : State := s.wakeOn (fun k => quadOf k == quad) w

/-- A tile entry set, with the wake of its sleepers. -/
def State.setTile (s : State) (quad n : Nat) (t : Tile) : State :=
  (s.onQuad quad fun q => { q with tiles := q.tiles.put n t }).wakeQuad quad (.tile n)

/-- A tile entry unbound. -/
def State.dropTile (s : State) (quad n : Nat) : State :=
  (s.onQuad quad fun q => { q with tiles := q.tiles.drop n }).wakeQuad quad (.tile n)

/-- A bound tile entry, if it is one. -/
def Quad.tile? (q : Quad) (n : Nat) : Option Tile := (q.tiles.find? fun e => e.1 == n).map (·.2)

/-- A bound ring, if it is one. -/
def Quad.ring? (q : Quad) (n : Nat) : Option Ring := (q.rings.find? fun e => e.1 == n).map (·.2)

/-- A ring set, with the wake of its sleepers (R173). -/
def State.setRing (s : State) (quad n : Nat) (r : Ring) : State :=
  (s.onQuad quad fun q => { q with rings := q.rings.put n r }).wakeQuad quad (.ring n)

/-- A ring unbound. -/
def State.dropRing (s : State) (quad n : Nat) : State :=
  (s.onQuad quad fun q => { q with rings := q.rings.drop n }).wakeQuad quad (.ring n)

/-! ### Members of the stacker (R357, R362) -/

/-- A status word (R362). ROWS 64 is written 0. -/
def memberStatus (m : Member) (state flags : Nat) : Word :=
  word (m.ident % 2 ^ 32 * 2 ^ 32 + m.row0 % 64 * 2 ^ 20 + m.rows % 64 * 2 ^ 14 + state * 256 + flags)

/-- The status entry of a member set, where its identifier is among its core's last 64 (R362). -/
def State.setStatus (s : State) (m : Member) (state flags : Nat) : State :=
  s.onCore m.core fun c =>
    if c.missued < m.ident + 64 then { c with mstatus := c.mstatus.put (m.ident % 64) (memberStatus m state flags) } else c

/-- The rows of an instance: those that its members present take, from the first (DEDUCED, log 34). -/
def Inst.rows (i : Inst) : Nat := (i.members.map fun m => m.row0 + m.rows).foldl max 0

/-- Instances not yet running without the members that a test selects; one that none is left of is FREE. -/
def dropMembers (l : Map Inst) (gone : Member → Bool) : Map Inst :=
  (l.mapVals fun _ i => if i.st = .running then i else { i with members := i.members.filter fun m => !gone m }).filter
    fun e => !e.2.members.isEmpty

/-- An OPEN instance becomes DUE. -/
def Inst.makeDue (i : Inst) (now : Nat) : Inst := if i.st = .isOpen then { i with st := .due, due := now } else i

/-- May the oldest load of buffer G run: has every mgang whose barrier completed before it reached the gang streamed (R349)? -/
def Gang.loadRuns (g : Gang) : Bool :=
  match g.loads with
  | [] => false
  | l :: _ => !g.ready.any fun r => decide (r.1 < l.made)

/-- The members of a context that wait in a stacker. -/
def Gang.waiting (g : Gang) (k : Nat) : List (Key × Member) :=
  g.insts.flatMap fun e => if e.2.st = .running then [] else (e.2.members.filter fun m => m.ctx == some k).map fun m => (e.2.key, m)

/-- A tile taken back by a failed operation: to a state, no engine's any more (R166). -/
def State.tileBack (s : State) (quad n : Nat) (st : TileState) : State :=
  match (s.quad quad).tile? n with
  | some t => s.setTile quad n { t with st, eng := false }
  | none => s

/-- A member is withdrawn (R357): its tiles take their failure transitions, its status records WITHDRAWN. -/
def State.withdraw (s : State) (m : Member) : State :=
  let quad := quadOfCore m.core
  let s := s.onGang (gangOf m.core) fun g => { g with insts := dropMembers g.insts fun x => x.core == m.core && x.ident == m.ident }
  (((s.tileBack quad m.stile .ready).tileBack quad m.dtile .empty)).setStatus m 2 0

/-- The members of a context that wait in its gang's stacker are withdrawn. -/
def State.withdrawAll (s : State) (k : Nat) : State :=
  ((s.gang (gangOf (coreOf k))).waiting k).foldl (fun s e => s.withdraw e.2) s

/-- Members, loads and arrivals of a context that ends are held without it (R352, R357). -/
def State.orphan (s : State) (k : Nat) : State :=
  let m (x : Member) : Member := if x.ctx = some k then { x with ctx := none } else x
  s.onGang (gangOf (coreOf k)) fun g => { g with
    loads := g.loads.map fun l => if l.ctx = some k then { l with ctx := none } else l
    arrivals := g.arrivals.mapVals fun _ a => { a with m := m a.m }
    ready := g.ready.map fun r => (r.1, r.2.mapVals fun _ a => { a with m := m a.m })
    insts := g.insts.mapVals fun _ i => { i with members := i.members.map m }
    runs := g.runs.map fun r => { r with left := r.left.map fun x => { x with m := m x.m } } }

/-- The same, for a core of L0, which alone has a gang. -/
def State.release (s : State) (k : Nat) : State := if quadLayer (quadOf k) = 0 then s.orphan k else s

/-! ### The stacker (R355, R356) -/

/-- The oldest OPEN or DUE instance of a key that has room for rows. -/
def Gang.joinable (g : Gang) (key : Key) (rows : Nat) : Option (Nat × Inst) :=
  (g.insts.filter fun e => e.2.key == key && e.2.st != .running && !e.2.full && decide (e.2.rows + rows ≤ 64)).foldl
    (fun (best : Option (Nat × Inst)) e => match best with
      | some b => if b.2.made ≤ e.2.made then best else some e
      | none => some e) none

/-- The free instance that a new key takes: the lowest (R356; DESIGN CHOICE, log 75). -/
def Gang.freeInst (g : Gang) : Option Nat := (List.range 16).find? fun i => !g.insts.has i

/-- Member entries in use. -/
def Gang.memberCount (g : Gang) : Nat := (g.insts.map fun e => e.2.members.length).foldl (· + ·) 0

/-- Is there an instance and a member entry for a member? -/
def Gang.hasRoom (g : Gang) (key : Key) (rows : Nat) : Bool :=
  decide (g.memberCount < 32) && ((g.joinable key rows).isSome || g.freeInst.isSome)

/-- Instances that a test selects become DUE. -/
def State.makeDue (s : State) (gang : Nat) (sel : Inst → Bool) : State :=
  s.onGang gang fun g => { g with insts := g.insts.mapVals fun _ i => if sel i then i.makeDue s.now else i }

/-- The oldest OPEN instance becomes DUE. -/
def State.oldestDue (s : State) (gang : Nat) : State :=
  let opens := (s.gang gang).insts.filter fun e => e.2.st == .isOpen
  match opens.map (·.2.made) with
  | [] => s
  | a :: t => let m := t.foldl min a; s.makeDue gang fun i => i.made == m

/-- A member as a logged grouping names it. -/
def Member.code (m : Member) : Nat := m.core * 2 ^ 32 + m.ident % 2 ^ 32

/-- A stacker's grouping, as a recording logs it (R430): the members of an instance in their order, when one joins it and, with `taken`, when
the array takes it. -/
def groupingOf (gang : Nat) (l : List Member) (taken : Bool) : LogEntry :=
  { kind := .grouping, who := gang, what := 2 * (l.map Member.code).foldl (fun n c => n * 2 ^ 46 + c) 0 + if taken then 1 else 0 }

/-- The partition in whose recording a gang's groupings stand. -/
def State.gangPart (s : State) (gang : Nat) : Option (Nat × Part) := s.partOfQuarter (quarterOf (quadOfCore (coreOfGang gang 0)))

/-- A member joins the stacker of a core's gang (R356): its tiles change, MISSUED rises; the identifier and the machine. What the operation
reads it reads after the member's earlier accesses (R366, R392): an image read before is read again. -/
def State.join (s : State) (key : Key) (m : Member) : Nat × State :=
  let core := m.core
  let quad := quadOfCore core
  let gang := gangOf core
  let ident := (s.core core).missued + 1
  let g := s.gang gang
  let now := s.now
  let place : Option (Nat × Inst) := match g.joinable key m.rows with
    | some e => some e
    | none => g.freeInst.map fun i => (i, { key, members := [], made := now })
  match place with
  | none => (ident, s)
  | some (i, inst) =>
    let m := { m with ident, row0 := inst.rows }
    let inst := { inst with members := inst.members ++ [m], image := none }
    let inst := if 64 ≤ inst.rows then { inst.makeDue now with full := true } else inst
    let s := s.noteOrder (s.gangPart gang) (groupingOf gang inst.members false)
    let s := (s.onGang gang fun g => { g with insts := g.insts.put i inst }).onCore core fun c => { c with missued := ident }
    let take (s : State) (n : Nat) (st : TileState) : State :=
      match (s.quad quad).tile? n with
      | some t => s.setTile quad n { t with st, eng := true }
      | none => s
    (ident, ((take (take s m.stile .draining) m.dtile .filling).setStatus m 0 0))

/-- A tile's state. -/
def Quad.tileIs (q : Quad) (n : Nat) (st : TileState) : Bool := match q.tile? n with | some t => t.st == st | none => false

/-- The tile that a member waits for first (R353). -/
def memberWait (q : Quad) (stile dtile : Nat) : Option WaitOn :=
  if !q.tileIs stile .ready then some (.tile stile) else if !q.tileIs dtile .empty then some (.tile dtile) else none

end Sys2Proof.Machine
end

