-- ==== Sys2Proof/Machine/Trap.lean ====
section
/-! DEFINITION. Taking an exception and its neighbours: the scan and the hard abort of an attempt (R291, R300), the end of a
context (R176, R216, R243), trap entry (R242), the return from it (R244, R253) and the suspension by a translation fault
(R263); and what an engine's operation or a spawned task waits for (R211, R328, R366, R384). -/

namespace Sys2Proof.Machine

/-! ### The scan (R291) -/

/-- The word at a local address of a quad. -/
def codeWord (s : State) (quad addr : Nat) : Word32 := BitVec.ofNat 32 (natOfBytes ((s.quad quad).mem.read addr 4))

/-- What the scan counts. -/
inductive Mark where
  | open_ | close | alt | other
deriving DecidableEq, Repr

def markOf (w : Word32) : Mark :=
  match decode w with
  | .ok (.tbegin _ _) => .open_
  | .ok (.tend _) => .close
  | .ok (.otherwise _) => .alt
  | _ => .other

/-- Where a scan ended. -/
inductive ScanEnd where
  | tend (addr : Nat)
  | alt (addr : Nat)
  | fails
deriving DecidableEq, Repr

/-- The scan from an address up, with a count of words still allowed, at a depth. -/
def scanFrom (s : State) (quad : Nat) (toTend : Bool) : Nat → Nat → Nat → ScanEnd
  | 0, _, _ => .fails
  | n + 1, addr, d =>
    if (s.quad quad).xbound.toNat ≤ addr then .fails
    else
      match markOf (codeWord s quad addr) with
      | .open_ => scanFrom s quad toTend n (addr + 4) (d + 1)
      | .close => if d = 0 then .tend addr else scanFrom s quad toTend n (addr + 4) (d - 1)
      | .alt => if d = 0 && !toTend then .alt addr else scanFrom s quad toTend n (addr + 4) d
      | .other => scanFrom s quad toTend n (addr + 4) d

/-- Scan(from, goal) of R291. -/
def scan (s : State) (quad : Nat) (from_ : Word) (toTend : Bool) : ScanEnd :=
  scanFrom s quad toTend 4096 (from_.toNat + 4) 0

/-! ### The end of a context (R176, R177, R216, R243) -/

/-- Do any of the bytes of a range belong to a bank? -/
def inBank (bank off size : Nat) : Bool := decide (off < (bank + 1) * 0x10000) && decide (bank * 0x10000 < off + size) && decide (0 < size)

/-- Is an engine operation of the quad outstanding: copy, gather, transfer, or a matrix member or arrival of its cores? -/
def engineBusy (s : State) (quad : Nat) : Bool :=
  let q := s.quad quad
  q.copy.any (fun e => !e.2.queue.isEmpty) || !q.tq.isEmpty ||
    (quadLayer quad == 0 &&
      let g := s.gang (gangOf (4 * quad))
      g.loads.any (fun l => quadOfCore l.core == quad) ||
      g.insts.any (fun e => e.2.members.any fun m => quadOfCore m.core == quad) ||
      g.arrivals.any (fun e => quadOfCore e.2.m.core == quad) ||
      g.runs.any (fun r => r.left.any fun x => quadOfCore x.m.core == quad) ||
      g.ready.any fun e => e.2.any fun a => quadOfCore a.2.m.core == quad)

/-- Is a context of the quad running, sleeping or suspended? -/
def contextBusy (s : State) (quad : Nat) : Bool :=
  s.ctxs.any fun e => quadOf e.1 == quad && e.2.status != .free

/-- The bank mask that retentions of the quad's cores keep (R177). -/
def retained (s : State) (quad : Nat) : Word :=
  (List.range 4).foldl (fun m i => match (s.core (4 * quad + i)).retain with | some r => m ||| r.1 | none => m) (0 : Word)

/-- May a bank be powered down (R176)? -/
def bankIdle (q : Quad) (kept : Word) (b : Nat) : Bool :=
  bitAt q.release b && !bitAt q.down b && !bitAt kept b && decide (q.xbound.toNat ≤ b * 0x10000) &&
    !q.tiles.any (fun e => inBank b e.2.off e.2.size) && !q.rings.any fun e => inBank b e.2.base (e.2.count * e.2.size)

/-- The banks of a quad powered down once nothing runs there (R176); they lose their contents (DEDUCED, log 58). -/
def State.restBanks (s : State) (quad : Nat) : State :=
  if contextBusy s quad || engineBusy s quad then s
  else
    let kept := retained s quad
    s.onQuad quad fun q =>
      ((List.range (bankCount (quadLayer quad))).filter (bankIdle q kept)).foldl (fun q b =>
        { q with
          down := setFld q.down b 1 1
          lost := setFld q.lost b 1 1
          mem := q.mem.clear (b * 0x10000) ((b + 1) * 0x10000)
          poison := q.poison.filter fun w => w / 0x2000 != b }) q

/-- One task of a launch has ended, killed or not (R397, R406). -/
def State.launchTaskEnded (s : State) (l : Option Nat) (killed : Bool) : State :=
  match l with
  | none => s
  | some i => s.onCp fun c =>
      { c with launches := c.launches.mapIdx fun j e =>
          if j = i then { e with live := e.live - 1, kills := e.kills || killed } else e }

/-- The attempt of a context ends: its jacks, its token and its series go (R300, R305, R307). -/
def State.endAttempt (s : State) (k : Nat) : State :=
  ((s.freeJacks k).dropToken k).onCtx k fun c => { c with attempt := none, series := none }

/-- What is left of a context that ends (R202, R216). -/
def Ctx.freed (c : Ctx) : Ctx :=
  { c with
    status := .free, outs := [], later := [], trail := [], buffer := [], woke := [], deferred := none, carry := none, timers := 0, power := none, wake := false
    fuzzy := none, msg := none, replay := none, subs := [], resubs := [], asked := none, declined := none, window := 0, opens := true, ibuf := [], preempted := none
    attempt := none, series := none, task := { c.task with launch := none } }

/-- The context becomes free, or the handler context idle (R202, R216). -/
def State.freeContext (s : State) (k : Nat) : State :=
  (((s.endAttempt k).release k).onCtx k Ctx.freed).restBanks (quadOf k)

/-- A side effect that the end of a context leaves to be completed, or a fence that orders such ones. -/
def Out.sideEffect (o : Out) : Bool :=
  o.pending && match o.op with
    | .value => false
    | .load _ _ _ => false
    | .waitge _ _ _ => false
    | _ => true

/-- Replies of the handler are accepted by their destinations, as far as they will be now (R216, R229); in a replay each waits for its turn
(R431). -/
def State.flushReplies (s : State) (core : Nat) : State :=
  (s.core core).sending.foldl (fun s m =>
    if m.here s && !s.mayDecide m then s
    else
      let s := { s with net := s.net.filter (· != m) }
      let r : Word × State := if m.here s then s.decideMsg m else (accepted, s)
      let s := r.2.countRefusal core r.1
      if fld r.1 0 2 = 1 then s else s.onCore core fun c => { c with sending := c.sending.erase m }) s

/-- Has a killed context nothing left that its end waits for: its side effects, and a handler's replies (R216, R243)? -/
def State.mayFree (s : State) (k : Nat) : Bool :=
  (s.ctx k).status == .ending && !(s.ctx k).outs.any Out.sideEffect && !(isHandler k && !(s.core (coreOf k)).sending.isEmpty)

/-- A killed context whose side effects are complete is freed (R243). -/
def State.endIfDone (s : State) (k : Nat) : State :=
  if s.mayFree k then (s.launchTaskEnded (s.ctx k).task.launch true).freeContext k else s

/-- A kill (R243): the context issues nothing more, and is freed once its outstanding side effects are complete, as halt has it (R216).
`report` is the cause to report. -/
def State.kill (s : State) (k : Nat) (report : Option (Nat × Nat × Word × Word)) : State :=
  let c := s.ctx k
  let s := match report with
    | none => s
    | some (kind, code, tval, pc) =>
      s.report { va := pc, val := tval, pasid := c.ctl.pasid, kind, reason := code, origin := identOf s.module k }
  let s := ((if quadLayer (quadOf k) = 0 then s.withdrawAll k else s).endAttempt k).onCtx k fun c =>
    { c with
      status := .ending, outs := c.outs.filter Out.sideEffect, later := [], trail := [], buffer := [], deferred := none, carry := none, wake := false, replay := none
      resubs := [], subs := [], declined := none, preempted := none }
  let s := (s.require k Out.sideEffect).1
  (if isHandler k then s.flushReplies (coreOf k) else s).endIfDone k

/-! ### The retirement tracker (R217) -/

/-- The place where the accesses of ended tasks of a core are performed: no context has this number. -/
def trackerCtx (core : Nat) : Nat := 8 * core + 5

/-- What an ended task left in an entry of a core's tracker is performed; once all of it is, the entry frees and the task counts as
ended (R217, R397). -/
def State.retireEntry (s : State) (core i : Nat) : State :=
  let k := trackerCtx core
  match (s.core core).tracker[i]? with
  | none => s
  | some (l, outs) =>
    let r := (s.onCtx k fun _ => { outs }).performAll k
    let left := (r.1.ctx k).outs.filter Out.pending
    let s := { r.1 with ctxs := r.1.ctxs.drop k }
    if r.2 then (s.onCore core fun c => { c with tracker := c.tracker.eraseIdx i }).launchTaskEnded l false
    else s.onCore core fun c => { c with tracker := c.tracker.set i (l, left) }

/-! ### What an operation or a task waits for (R211, R328, R366, R384) -/

/-- Which entry of a core's tracker holds the release of a gate. -/
def Core.tracks (c : Core) (g : Nat × Nat) : Option Nat := c.tracker.findIdx? fun e => e.2.any (Out.opens g)

/-- What the release of a gate waits for is performed, whether its context or the retirement tracker holds it; false where it cannot be yet. -/
def State.openGate (s : State) : Gate → State × Bool
  | none => (s, true)
  | some g =>
    let core := coreOf g.1
    if (s.ctx g.1).outs.any (Out.opens g) then
      let r := s.require g.1 (Out.opens g)
      (r.1.endIfDone g.1, r.2)
    else match (s.core core).tracks g with
      | some i => let s := s.retireEntry core i; (s, ((s.core core).tracks g).isNone)
      | none => (s, true)

/-- The same for some gates. -/
def State.openGates (s : State) (gs : List Gate) : State × Bool :=
  gs.foldl (fun (acc : State × Bool) g => let r := acc.1.openGate g; (r.1, acc.2 && r.2)) (s, true)

/-- What comes after a gate is done, once it is open. -/
def State.pastGates (s : State) (gs : List Gate) (f : State → State) : State :=
  match s.openGates gs with
  | (s, true) => f s
  | (s, false) => s

/-! ### Hard abort (R300) -/

/-- The status word of R300. -/
def abortStatus (level confl detail cause : Nat) : Word :=
  word (level * 2 ^ 24 + confl * 2 ^ 16 + detail * 2 ^ 8 + cause)

/-- The context goes on after the tend at an address, as though it had completed there (R293, R300). The tend has not issued: the window
goes on, as R95 lists none that opens there, and the address issued before stays (R102). -/
def Ctx.afterTend (c : Ctx) (addr : Nat) : Ctx :=
  { ({ c with pc := word addr } : Ctx).advance with prevPc := c.prevPc, trail := [], buffer := [] }

/-- A kill for a scan that finds no tend (R291): KIND 2 where INTRAP was 1 (R243). -/
def State.killScan (s : State) (k : Nat) : State :=
  let c := s.ctx k
  s.kill k (some (if c.ctl.intrap then 2 else 1, cIllegal, word (codeWord s (quadOf k) c.pc.toNat).toNat, c.pc))

/-- HardAbort of R300 (DESIGN CHOICE, log 16). A carry that was pending before the attempt stays pending (R241, R278). -/
def State.hardAbort (s : State) (k cause detail : Nat) : State :=
  let c := s.ctx k
  match c.attempt with
  | none => s
  | some a =>
    match a.levels.getLast? with
    | none => s
    | some l =>
      let confl := match c.series with | some r => min 7 r.count | none => 0
      let st := abortStatus a.levels.length confl detail cause
      let s := (s.endAttempt k).onCtx k fun c =>
        let c := { c.deliverAll.settleLater.restoreCk l.ck with deferred := none }
        c.setX a.xd st
      match scan s (quadOf k) l.tbpc true with
      | .tend addr => s.onCtx k fun c => { c.afterTend addr with status := .running, wake := false }
      | _ => s.killScan k

/-! ### Trap entry and return (R242 to R244) -/

/-- Is the code that of an asynchronous cause (R240)? -/
def asyncCode (code : Nat) : Bool := code == cPower || code == cTimer

/-- A trap is entered within an attempt (R246). -/
def Attempt.entered (a : Attempt) : Attempt := { a with traps := a.traps + 1 }

/-- A handler entered within an attempt returns (R246). -/
def Attempt.left (a : Attempt) : Attempt := { a with traps := a.traps - 1 }

/-- What trap entry writes (R242). The trapped word has not issued (R240): the address issued before stays (R102). -/
def Ctx.enter (c : Ctx) (code detail : Nat) (tval ret : Word) : Ctx :=
  { c with
    attempt := c.attempt.map Attempt.entered
    ctl := { c.ctl with
      tpc := setFld ret 0 2 0
      tcause := word ((if asyncCode code then 2 ^ 63 else 0) + detail * 256 + code)
      tval
      psys := c.ctl.sys, sys := true, intrap := true }
    pc := setFld c.ctl.tvec 0 2 0 }.openWindow

/-- TrapEntry of R242, once results have been waited for: discarded, killed, or entered. -/
def State.enterTrap (s : State) (k code detail : Nat) (tval ret : Word) : State :=
  let c := s.ctx k
  if asyncCode code && !bitAt c.ctl.tvec 0 then s
  else if !bitAt c.ctl.tvec 0 || c.ctl.intrap then
    s.kill k (some (if c.ctl.intrap then 2 else 1, code, tval, ret))
  else s.onCtx k fun c => c.enter code detail tval ret

/-- TVAL of a floating-point exception (R137). -/
def floatTval (addr : Option Word) (lane cond : Nat) : Word :=
  word ((match addr with | some a => fld a 0 22 * 2 ^ 16 + 2 ^ 15 | none => 0) + lane % 128 * 256 + cond)

/-- A pending floating-point exception, then a pending carry, taken in place of an instruction that waits for results
(R137, R241, R278). `kills` is set for halt, halt.k and tail, which take a carry even in a trap handler. -/
def State.takePending (s : State) (k : Nat) (kills : Bool) : Option State :=
  let c := s.ctx k
  let take (code : Nat) (tval : Word) (s : State) : State :=
    if (s.ctx k).openAttempt.isSome then s.hardAbort k 5 code else s.enterTrap k code 0 tval (s.ctx k).pc
  match c.deferred with
  | some d => some (take cFloat (floatTval (some d.addr) d.lane d.cond.toNat) (s.onCtx k fun c => { c with deferred := none }))
  | none =>
    match c.carry with
    | some a =>
      if c.ctl.intrap && !kills then none
      else some (take cCarry a (s.onCtx k fun c => { c with carry := none }))
    | none => none

/-- A cause once results have been waited for: what is pending is taken first; inside an attempt that is not irrevocable a
synchronous cause is a hard abort (R246). -/
def State.takeCause (s : State) (k code detail : Nat) (tval ret : Word) : State :=
  match s.takePending k false with
  | some s => s
  | none => if (s.ctx k).openAttempt.isSome then s.hardAbort k 5 code else s.enterTrap k code detail tval ret

/-- The replay that goes on. -/
def Ctx.strip (c : Ctx) : Option Strip := c.replay.bind (·.active)

/-- Does a replay go on that has positions still to come? -/
def Ctx.inReplay (c : Ctx) : Bool := match c.strip with | some t => !t.trail.isEmpty | none => false

/-- The wait for results of a cause (R241, R242, R263). Within a replay what it holds back reaches no register, so that these are as they
stood when the instruction first issued (R252, R253). -/
def State.settleCause (s : State) (k : Nat) : State × Bool :=
  if (s.ctx k).inReplay then
    let r := s.require k Out.waited
    (r.1.onCtx k Ctx.deliverReady, r.2)
  else s.settle k

/-- Taking a cause (R241, R242): results are waited for. -/
def State.takeTrap (s : State) (k code detail : Nat) (tval ret : Word) : State :=
  match s.settleCause k with
  | (s, false) => s.onCtx k Ctx.again
  | (s, true) => s.takeCause k code detail tval ret

/-- A cause of the context whose turn it is, taken at its own instruction. The word has not issued (R137, R240) and is taken off the
counts, unless it is done (`done`) and nothing pending takes its place. `mark` is what the word does where its own cause is taken. -/
def State.cause (s : State) (code : Nat) (tval ret : Word) (done : Bool) (mark : Ctx → Ctx := id) : State :=
  match s.settleCause s.cur with
  | (s, false) => s.onMe Ctx.again
  | (s, true) =>
    if takesNow s.me then (s.onMe Ctx.again).takeCause s.cur code 0 tval ret
    else (s.onMe fun c => mark (if done then { c with prevPc := c.pc } else c.again)).takeCause s.cur code 0 tval ret
where
  /-- Does something pending come first (R241)? -/
  takesNow (c : Ctx) : Bool := c.deferred.isSome || (c.carry.isSome && !c.ctl.intrap)

/-- A trap of the context whose turn it is, at its own instruction. -/
def State.trap (s : State) (code : Nat) (tval : Word) (mark : Ctx → Ctx := id) : State := s.cause code tval s.me.pc false mark

/-- The illegal-instruction trap, whose TVAL is the word (R32). -/
def State.illegal (s : State) (w : Word32) : State := s.trap cIllegal (word w.toNat)

/-- A translation fault of an instruction (R246, R263): a record goes to the command processor and the context is suspended
at the instruction; inside an attempt it is a hard abort; where the record cannot be kept it is declined (R410). What is pending comes
first (R241). -/
def State.suspend (s : State) (k reason : Nat) (va : Word) (access : Nat) : State :=
  match s.settleCause k with
  | (s, false) => s.onCtx k Ctx.again
  | (s, true) =>
    match (s.onCtx k Ctx.again).takePending k false with
    | some s => s
    | none =>
    if (s.ctx k).openAttempt.isSome then
      let s := (s.reportTranslation k false reason va access).1
      (s.onCtx k Ctx.again).hardAbort k 5 cTranslation
    else
      match s.reportTranslation k true reason va access with
      | (s, true) => s.onCtx k fun c => { c.again with status := .suspended, faulted := (reason, va) }
      | (s, false) => (s.onCtx k Ctx.again).takeCause k cTranslation reason va (s.ctx k).pc

/-- What a denied access does to the context whose turn it is. -/
def State.deny (s : State) : Denied → State
  | .trap code tval => s.trap code tval
  | .translation reason va access => s.suspend s.cur reason va access

/-- A step that acts as an instruction of the context whose turn it is does, without being issued: where an effect hands the issue
back, nothing is taken off the counts. -/
def State.alone (s : State) (f : State → State) : State :=
  let n := s.me.issued
  let was := s.me.uncounted
  (f (s.onMe fun c => { c with window := c.window + 1, issued := c.issued + 1, uncounted := (c.window, c.opens) })).onMe fun c =>
    { (if c.issued = n then c else { c with window := if c.opens then c.window else c.uncounted.1, issued := c.issued - 1 }) with
      uncounted := was }

/-! ### Replays that a cause interrupts (R253) -/

/-- A replay of a context, or none where nothing is left of it. -/
def Ctx.replaying (c : Ctx) (active : Option Strip) (cuts : List Strip) : Ctx :=
  { c with replay := if active.isNone && cuts.isEmpty then none else some { active, cuts } }

/-- The replays that causes have interrupted, the latest first. -/
def Ctx.cuts (c : Ctx) : List Strip := match c.replay with | some r => r.cuts | none => []

/-- A result that waits for its place in a replay. -/
def Out.kept (o : Out) : Bool := o.held && !o.pending

/-- A cause is taken at a position of a replay, at an address: the rest of the replay is kept, with the results that it holds back, and RPL is
set (R253). One that has no position left is over. -/
def Ctx.cut (c : Ctx) (at_ : Word) : Ctx :=
  match c.strip with
  | some t =>
    if t.trail.isEmpty then { c.replaying none c.cuts with ctl := { c.ctl with rpl := !c.cuts.isEmpty } }
    else
      let t := { t with at_, outs := c.outs.filter Out.kept, later := c.later }
      { c.replaying none (t :: c.cuts) with
        outs := c.outs.filter (fun o => !o.kept), later := [], ctl := { c.ctl with rpl := true } }
  | none => c

/-- Results come back among the outstanding ones, in program order. -/
def Ctx.bringBack (c : Ctx) (l : List Out) : Ctx :=
  let before (o : Out) : Bool := l.all fun p => decide (o.seq < p.seq)
  { c with outs := c.outs.filter before ++ l ++ c.outs.filter fun o => !before o }

/-- The rest of an interrupted replay is discarded (R253). -/
def Ctx.dropReplay (c : Ctx) : Ctx :=
  match c.cuts with
  | [] => c
  | _ :: rest => { c.replaying c.strip rest with resubs := [], ctl := { c.ctl with rpl := !rest.isEmpty } }

/-- Of a field's values now, at the place of an mms and at the halt: what the instructions between them have written stands, or else what
stands now (R253; DEDUCED, log 18). -/
def mergeOf {α : Type} [DecidableEq α] (now base halt : α) : α := if halt = base then now else halt

/-- The same for the first `n` entries of a table. -/
def mergeTable {α : Type} [DecidableEq α] (dflt : α) (n : Nat) (now base halt : Map α) : Map α :=
  (List.range n).foldl (fun m i => if halt.get dflt i = base.get dflt i then m else m.put i (halt.get dflt i)) now

/-- The context comes back to where it stood when a withdrawn mms of an earlier window was issued again (R253, R254): what a handler has
changed stands, but for what the instructions after the mms had written. -/
def Ctx.comeBack (c : Ctx) (pc : Word) (h b : Snap) : Ctx :=
  { c with
    regs := { x := mergeTable 0 32 c.regs.x b.regs.x h.regs.x, v := mergeTable 0 32 c.regs.v b.regs.v h.regs.v
              k := mergeTable 0 8 c.regs.k b.regs.k h.regs.k }
    lp0 := mergeOf c.lp0 b.lp0 h.lp0, lp1 := mergeOf c.lp1 b.lp1 h.lp1
    ctl := { c.ctl with
      fpctl := mergeOf c.ctl.fpctl b.ctl.fpctl h.ctl.fpctl, nmode := mergeOf c.ctl.nmode b.ctl.nmode h.ctl.nmode
      mfmta := mergeOf c.ctl.mfmta b.ctl.mfmta h.ctl.mfmta, mfmtb := mergeOf c.ctl.mfmtb b.ctl.mfmtb h.ctl.mfmtb
      mfmtc := mergeOf c.ctl.mfmtc b.ctl.mfmtc h.ctl.mfmtc, mscl := mergeOf c.ctl.mscl b.ctl.mscl h.ctl.mscl
      tvec := mergeOf c.ctl.tvec b.ctl.tvec h.ctl.tvec, tpc := mergeOf c.ctl.tpc b.ctl.tpc h.ctl.tpc }
    pc, later := [] }

/-- An interrupted replay goes on at its place (R253); RPL stays set until it has ended. -/
def Ctx.takeUp (c : Ctx) (t : Strip) (rest : List Strip) : Ctx :=
  match t.back with
  | some (pc, h, b) =>
    let c := (c.comeBack pc h b).replaying none rest
    { c with ctl := { c.ctl with rpl := !rest.isEmpty } }
  | none => { (c.bringBack t.outs).replaying (some { t with outs := [], later := [] }) rest with later := t.later ++ c.later }

/-- The effect of eret (R244); an eret to the place of an interrupted replay goes on with it, and one to another place discards it (R253). -/
def Ctx.leave (c : Ctx) : Ctx :=
  let target := setFld c.ctl.tpc 0 2 0
  let c := { c with
    ctl := { c.ctl with sys := c.ctl.psys, intrap := false }, prevPc := c.pc, pc := target
    attempt := c.attempt.map Attempt.left }.openWindow
  match c.cuts with
  | t :: rest => if t.at_ = target then c.takeUp t rest else c.dropReplay
  | [] => c

/-! ### The window of a context and its replay (R251, R252) -/

/-- The entry state of a window whose first position has been counted and now issues (R251). -/
def Ctx.entryState (c : Ctx) : Entry :=
  { snap := c.snap, prevPc := c.prevPc, seq := c.nextSeq, deferred := c.deferred, carry := c.carry, free := c.free
    issued := c.issued - 1, window := c.window - 1 }

/-- Is a position a settle point with a short-latency result alone? -/
def Pos.isShort (p : Pos) : Bool := p.settles && p.n == 0 && !p.done

/-- A position joins the window; `pre` is the context as it was counted. The first one of a window, or of what can be replayed of it,
starts the window state; the entry state of a window that a settle point with a short-latency result opens includes that result, and its
replay issues from the next instruction on (R251, R252). -/
def Ctx.pass (pre : Ctx) (p : Pos) (c : Ctx) : Ctx :=
  if pre.window = 1 ∨ pre.trail.isEmpty then
    if p.isShort then { c with trail := [], buffer := [] }
    else { c with
      entry := pre.entryState, trail := [p]
      buffer := (c.buffer.drop pre.buffer.length).map fun e => { e with at_ := 0 } }
  else { c with trail := c.trail ++ [p] }

/-- A replay without the position it has passed. -/
def Strip.next (t : Strip) : Strip := { t with pos := t.pos + 1, trail := t.trail.drop 1 }

/-- The replay that goes on is changed. -/
def Ctx.onStrip (f : Strip → Strip) (c : Ctx) : Ctx :=
  { c with replay := c.replay.map fun r => { r with active := r.active.map f } }

/-- The replay that goes on ends, or is given up; RPL stays set while another one is interrupted (R253). -/
def Ctx.endReplay (c : Ctx) : Ctx :=
  { c.replaying none c.cuts with ctl := { c.ctl with rpl := !c.cuts.isEmpty } }

/-- An abandoned result of an earlier window: it is had again, and held back to the next settle point (R248, R252; DEDUCED, log 18). -/
def Out.abandoned (o : Out) : Out :=
  if !o.pure then o
  else match o.op with
    | .value => { o with held := true }
    | _ => { o with ans := none, bound := [], tested := false, held := true }

/-- A result that comes from the buffer, outstanding (R252). -/
def Buffered.out (e : Buffered) (pc : Word) : Out := { seq := e.seq, pc, op := .value, dsts := e.dsts, ans := some e.ans, held := true }

/-- Is an access one of a position's? -/
def Pos.owns (p : Pos) (seq : Nat) : Bool := decide (p.seq ≤ seq) && decide (seq < p.seq + p.n)

/-- Has a result raised an exception whose trap was enabled at issue (R137)? -/
def Ans.raises (a : Ans) : Bool := match a.fp with | some d => d.en &&& d.cond.toNat != 0 | none => false

/-- The results of the buffer that stay. One that raised the pending exception is abandoned with it, and its instruction issues again
(R137); an atomic does not issue again, and its result comes from the buffer with its exception (R252, R275). -/
def Ctx.kept (c : Ctx) : List Buffered :=
  c.buffer.filter fun a => !(a.ans.raises && c.trail.any fun p => p.owns a.seq && !p.done)

/-- Is it an amsend that is not answered, and so not accepted (R249)? -/
def Out.unsent (o : Out) : Bool := o.pending && match o.op with | .send _ => true | _ => false

/-- Is it an operation of the context's window? -/
def Ctx.inWindow (c : Ctx) (seq : Nat) : Bool := !c.trail.isEmpty && decide (c.entry.seq ≤ seq)

/-- The context at the entry of its window, with the window to be replayed (R252): its registers as they stood, the positions it has issued
and those that an unfinished replay has still to issue, and what has returned, each result at its place. What the side effects of the window
have answered since comes at the halt position. A window of which nothing has issued, or nothing can be replayed, goes on as it stands. -/
def Ctx.rewound (c : Ctx) : Ctx :=
  let rest : Strip := c.strip.getD { trail := [], arrivals := [], stop := 0 }
  if c.trail.isEmpty then { c with outs := c.outs.map Out.abandoned }
  else
    let e := c.entry
    let n := c.trail.length
    let trail := c.trail.map (fun p => if c.outs.any fun o => p.owns o.seq && o.unsent then { p with done := false } else p) ++ rest.trail
    let known (o : Out) : Bool := rest.arrivals.any fun a => a.seq == o.seq
    let late := (c.outs.filter fun o => !o.pure && !known o).filterMap fun o =>
      o.ans.map fun ans => ({ at_ := trail.length, seq := o.seq, dsts := o.dsts, ans } : Buffered)
    let early := (c.buffer.filter fun a => decide (a.seq < e.seq)).map fun a => a.out c.entry.prevPc
    let kept := (c.outs.filter fun o => decide (o.seq < e.seq)).map fun o => { o.abandoned with held := o.pure || o.ans.isSome }
    let still := c.outs.filter fun o => decide (e.seq ≤ o.seq) && o.pending && !o.pure && !o.unsent
    let t : Strip :=
      { trail, stop := n
        arrivals := c.kept ++ (rest.arrivals.map fun a => { a with at_ := a.at_ - rest.pos + n }) ++ late }
    { (c.restore e.snap).replaying (some t) c.cuts with
      ctl := { e.snap.ctl with rpl := !c.cuts.isEmpty }
      pc := (trail.head?.map (·.pc)).getD c.pc, prevPc := e.prevPc, deferred := e.deferred, carry := e.carry, free := e.free
      issued := e.issued, window := e.window, opens := false, outs := early ++ kept ++ still, trail := [], buffer := [] }

end Sys2Proof.Machine
end

