-- ==== Sys2Proof/Machine/Txn.lean ====
section
/-! DEFINITION. Accesses as an instruction makes them, in an open attempt and outside one: read and write sets, conflicts,
retry and sleep (R277, R295, R298, R303 to R308). -/

namespace Sys2Proof.Machine

/-! ### Lines of an attempt -/

/-- Is the line of a reference homed on another module or in host memory (R298)? -/
def foreignLine (s : State) (r : Ref) : Bool := !r.isLocal && (r.addr.testBit 45 || r.addr / 2 ^ 46 != s.domainIx)

/-- Is the line homed on another die of the module? -/
def otherDie (k : Nat) (r : Ref) : Bool := !r.isLocal && r.addr / 2 ^ 37 % 4 != quadDie (quadOf k)

/-- Lines of a list of references, each with one of its references, in order. -/
def linesOf (quad : Nat) (rs : List Ref) : List (Nat × Ref) :=
  rs.foldl (fun (acc : List (Nat × Ref)) r => let l := lineOf quad r; if acc.any (fun e => e.1 == l) then acc else acc ++ [(l, r)]) []

/-- A change to the innermost level. -/
def Attempt.onTop (a : Attempt) (f : Level → Level) : Attempt :=
  match a.levels with
  | [] => a
  | l :: t => { a with levels := f l :: t }

/-- How many lines the attempt's read and write sets hold (R298). -/
def Attempt.readCount (a : Attempt) : Nat := (dedup a.reads).length
def Attempt.writeCount (a : Attempt) : Nat := (dedup a.writes).length

/-- The byte as the attempt sees it: its own latest write, or memory. -/
def State.viewByte (s : State) (k : Nat) (bypass : Bool) (r : Ref) : Byte :=
  let own : List BufByte := match (s.ctx k).openAttempt with | some a => a.levels.flatMap (·.buf) | none => []
  match own.find? fun w => w.r.same r with
  | some w => w.b
  | none => s.readByte (quadOf k) bypass r

/-- Has an attempt written a line that a slice homes? -/
def Attempt.writesHome (a : Attempt) (home : Nat) : Bool := a.levels.any fun l => l.buf.any fun b => !b.r.isLocal && b.r.home == home

/-- Is a context in the overflow list of a line's home slice (R309)? Its attempt then meets every write in the slice. -/
def State.listed (s : State) (k : Nat) (r : Ref) : Bool := !r.isLocal && (s.slice r.home).overflow.contains k

/-- Attempts of other contexts that a read, or a write, of a line by an attempt meets (R303, R309), those that live on in a partition that
is switched out among them (R305). -/
def State.meets (s : State) (k : Nat) (isWrite : Bool) (line : Nat) (r : Ref) : List (Nat × Attempt) :=
  (s.ctxs ++ if isLocalLine line then [] else s.outCtxs).filterMap fun e =>
    if e.1 = k then none
    else match e.2.attempt with
      | some a =>
        let met := a.writes.contains line ||
          (if isWrite then a.reads.contains line || s.listed e.1 r else s.listed k r && a.writesHome r.home)
        if met then some (e.1, a) else none
      | none => none

/-- The instruction at the pc has issued and ends its attempt: it is the one issued before what comes next (R102). -/
def Ctx.issuedHere (c : Ctx) : Ctx := { c with prevPc := c.pc }

/-- A hard abort that an executed instruction of a context makes (R298 to R300). -/
def State.abortHere (s : State) (k cause detail : Nat) : State := (s.onCtx k Ctx.issuedHere).hardAbort k cause detail

/-- An attempt meets others at a line: the younger of two open ones aborts; the one that is not irrevocable aborts (R303,
R304). Answers false when the attempt itself has been aborted. -/
def State.meet (s : State) (k : Nat) (isWrite : Bool) (line : Nat) (r : Ref) : State × Bool :=
  match (s.ctx k).attempt with
  | none => (s, true)
  | some a =>
    let others := s.meets k isWrite line r
    if !a.irrevocable && others.any (fun e => e.2.irrevocable || !olderThan s.module a k e.2 e.1) then ((s.onCtx k Ctx.issuedHere).conflictAbort k, false)
    else ((others.filter fun e => !e.2.irrevocable).foldl (fun s e => s.conflictAbort e.1) s, true)

/-- What tracking the lines of an access comes to. -/
inductive Tracked where
  | ok
  /-- the attempt has been aborted; nothing more of the instruction happens -/
  | gone
deriving DecidableEq, Repr

/-- The home of a line that the attempt reads or writes is noted. -/
def Attempt.reach (r : Ref) (a : Attempt) : Attempt :=
  if r.isLocal || a.homes.contains r.home then a else { a with homes := a.homes ++ [r.home] }

/-- The lines of an access join the sets of the context's attempt, one by one (R298, R306, R307). Of several causes for which one line aborts it,
the first counts of another module or die, a full set, a conflict (DESIGN CHOICE, log 78). -/
def State.track (s : State) (k : Nat) (isWrite : Bool) : List (Nat × Ref) → State × Tracked
  | [] => (s, .ok)
  | (line, r) :: rest =>
    match (s.ctx k).attempt with
    | none => (s, .ok)
    | some a =>
      let known := if isWrite then a.writes.contains line else a.reads.contains line
      let full := if isWrite then decide (32 ≤ a.writeCount) else decide (64 ≤ a.readCount)
      let add (l : Level) : Level := if isWrite then { l with writes := line :: l.writes } else { l with reads := line :: l.reads }
      if a.irrevocable then
        let s := if isWrite then s else s.makeJack k line r
        let s := (s.meet k isWrite line r).1.onCtx k fun c => c.onAttempt (Attempt.reach r)
        let s := if known then s
          else if full then s.onCtx k fun c => c.onAttempt fun a => { a with unprot := true }
          else s.onCtx k fun c => c.onAttempt fun a => a.onTop add
        s.track k isWrite rest
      else if foreignLine s r then (s.abortHere k 4 2, .gone)
      else if isWrite && otherDie k r then (s.abortHere k 4 1, .gone)
      else if !known && full then (s.abortHere k (if isWrite then 2 else 1) 0, .gone)
      else
        match (if isWrite then s else s.makeJack k line r).meet k isWrite line r with
        | (s, false) => (s, .gone)
        | (s, true) =>
          let s := if known then s else s.onCtx k fun c => c.onAttempt fun a => (a.onTop add).reach r
          s.track k isWrite rest

/-- Cells join the attempt's buffer, newest first. -/
def State.buffer (s : State) (k : Nat) (cells : List (Ref × Byte)) : State :=
  s.onCtx k fun c => c.onAttempt fun a => a.onTop fun l =>
    { l with buf := (cells.map fun e => { r := e.1, b := e.2, whole := coversWord cells e.1 }).reverse ++ l.buf }

/-! ### Loads and stores of an instruction -/

/-- The registers that a load writes. -/
def LoadFin.dsts : LoadFin → List Dst
  | .scalar d _ => [.x d]
  | .pair d => [.x d, .x (d + 1)]
  | .lanes d _ _ _ => [.v d]

/-- The fence.quad that a local acquire or release form acts as (R196) takes its place in program order. -/
def Ctx.fenceQuad (c : Ctx) (quad : Nat) : Ctx := c.issue (.fence quad) [] false true false

/-- Is a byte of the references local? -/
def anyLocal (rs : List Ref) : Bool := rs.any (·.isLocal)

/-- A load of checked references issues (R93, R163); in an open attempt its value is bound at once. A local acquire form is the plain
load and a fence.quad (R196). -/
def State.issueLoad (s : State) (refs : List Ref) (fin : LoadFin) (nc acq : Bool) : State :=
  let k := s.cur
  match s.track k false (linesOf (quadOf k) refs) with
  | (s, .gone) => s
  | (s, .ok) =>
    if s.me.openAttempt.isSome then
      let bs := refs.map (s.viewByte k (nc || acq))
      s.onMe fun c => (c.issue .value fin.dsts true acq false (some { writes := fin.writes bs })).advance
    else
      let here := acq && anyLocal refs
      s.onMe fun c =>
        let c := c.issue (.load refs fin nc) fin.dsts true (acq && !here) false none
        (if here then c.fenceQuad (quadOf k) else c).advance

/-- A store of cells issues (R163), element by element of `size` bytes (R152); in an open attempt it is held until commit (R298). A
local release form is a fence.quad and the plain store (R196). -/
def State.issueStore (s : State) (cells : List (Ref × Byte)) (rel : Bool) (size : Nat) : State :=
  let k := s.cur
  match s.track k true (linesOf (quadOf k) (cells.map (·.1))) with
  | (s, .gone) => s
  | (s, .ok) =>
    if s.me.openAttempt.isSome then (s.buffer k cells).onMe Ctx.advance
    else
      let here := rel && anyLocal (cells.map (·.1))
      (s.markWrote k).onMe fun c =>
        ((if here then c.fenceQuad (quadOf k) else c).issue (.store cells) [] false false (rel && !here) none size).advance

/-- An atomic issues (R271, R277): in an open attempt it acts on the attempt's view; a carry, or an enabled condition, is a
synchronous cause there. -/
def State.issueAtomic (s : State) (r : Ref) (op : AmoOp) (bytes : Nat) (d : BitVec 5) (b c : Word) (acq rel : Bool) (va : Word) :
    State :=
  let k := s.cur
  let fpctl := s.me.ctl.fpctl
  match s.track k false [(lineOf (quadOf k) r, r)] with
  | (s, .gone) => s
  | (s, .ok) =>
    match s.track k true [(lineOf (quadOf k) r, r)] with
    | (s, .gone) => s
    | (s, .ok) =>
      if s.me.openAttempt.isSome then
        let old := natOfBytes ((r.span bytes).map (s.viewByte k true))
        let res := amoApply op bytes b c fpctl old
        if res.carry then (s.onMe Ctx.again).hardAbort k 5 cCarry
        else if fld fpctl 12 5 &&& res.cond ≠ 0 then
          (s.onMe fun c => { c.again with ctl := { c.ctl with fpctl := c.ctl.fpctl ||| word (16 * res.cond) } }).hardAbort k 5 cFloat
        else
          let s := match res.write with | none => s | some v => s.buffer k (cellsOf r res.bytes v)
          s.onMe fun c =>
            let o : Out := { seq := c.nextSeq, pc := c.pc, op := .value }
            (c.issue .value [.x d] false acq rel (some (res.ans d fpctl va o))).advance
      else s.onMe fun x => (x.issue (.amo r op bytes d b c fpctl va) [.x d] false acq rel).advance

/-! ### Waking and sleeping (R167, R307, R308) -/

/-- A woken context runs again; the jacks of its sleep are released (R307). -/
def State.wakeUp (s : State) (k : Nat) : State :=
  (s.freeJacks k).onCtx k fun c => { c with status := .running, wake := false }

/-- The context sleeps and comes again to the same instruction (R167, R312). -/
def State.sleepOn (s : State) (w : List WaitOn) : State :=
  s.onMe fun c => { c.again with status := .sleeping w, wake := false, since := s.now }

/-- Where an instruction would put the handler context to sleep, or it sleeps (R226). -/
def State.sleepOrTrap (s : State) (word : Word32) (w : List WaitOn) : State :=
  if isHandler s.cur then s.illegal word else s.sleepOn w

/-! ### Retry (R295) -/

/-- The sleep of a retry that reaches the outermost level: the attempt is over, the jacks stay, the outermost tbegin comes
again; a sprung jack keeps it from sleeping (R307). In a handler it traps (R314). -/
def State.retrySleep (s : State) (w : Word32) : State :=
  let k := s.cur
  match s.me.attempt with
  | none => s
  | some a =>
    match a.levels.getLast? with
    | none => s
    | some l =>
      let at_ := s.me.pc
      let s := (s.dropToken k).onMe fun c => { c.restoreCk l.ck with attempt := none, series := none }
      if isHandler k then
        let s := (s.freeJacks k).onMe fun c => { c with pc := at_ }
        s.illegal w
      else
        s.onMe fun c =>
          { c with pc := l.tbpc, prevPc := at_, opens := true, trail := [], buffer := [], slept := if c.wake then c.slept else c.slept + 1
                   status := if c.wake then .running else .sleeping a.extra, wake := false, since := s.now }

/-- Retry of R295 over the levels from the innermost out; `inner` is the read set that closed levels leave. -/
def State.retryLevels (s : State) (w : Word32) (inner : List Nat) : List Level → State
  | [] => s
  | l :: rest =>
    let k := s.cur
    let l := { l with reads := inner ++ l.reads, writes := [], buf := [] }
    let s := s.onMe fun c => { c.restoreCk l.ck with attempt := c.attempt.map fun a => { a with levels := l :: rest } }
    match scan s (quadOf k) l.branchPc false with
    | .alt o => s.onMe fun c =>
        { (c.onAttempt fun a => a.onTop fun l => { l with branchPc := word o, alt := true }) with
          prevPc := c.pc, pc := word (o + 4) }
    | .fails => s.abortHere k 10 0
    | .tend _ => if rest.isEmpty then s.retrySleep w else s.retryLevels w l.reads rest

/-- Retry of R295. -/
def State.retry (s : State) (w : Word32) : State :=
  match s.me.attempt with
  | none => s
  | some a => s.retryLevels w [] a.levels

/-- Results are waited for before an attempt ends or goes back (R92); of an irrevocable one also the atomics that it does not read,
which tell whether it has written (R306). -/
def State.settleAttempt (s : State) : State × Bool :=
  match s.require s.cur Out.unread with
  | (s, true) => s.settle s.cur
  | (s, false) => (s, false)

/-- A hard abort that an irrevocable attempt refuses once it has written: it traps, and the attempt ends with its writes in
place (R306) (DEDUCED, log 53). -/
def State.abortOrTrap (s : State) (cause detail : Nat) (w : Word32) : State :=
  match s.settleAttempt with
  | (s, false) => s.onMe Ctx.again
  | (s, true) =>
    match s.me.attempt with
    | some a => if a.irrevocable && a.wrote then (s.endAttempt s.cur).illegal w else s.abortHere s.cur cause detail
    | none => s

/-- An instruction that acts as retry in an attempt: results are waited for (R92); an irrevocable attempt that has written
traps instead (R306). `extra` joins the retry set (R167). -/
def State.retryOrTrap (s : State) (w : Word32) (extra : List WaitOn) : State :=
  match s.settleAttempt with
  | (s, false) => s.onMe Ctx.again
  | (s, true) =>
    match s.me.attempt with
    | some a =>
      if a.irrevocable && a.wrote then (s.endAttempt s.cur).illegal w
      else (s.onMe fun c => c.onAttempt fun a => { a with extra := extra ++ a.extra }).retry w
    | none => s

/-- An instruction that an attempt forbids (R299): a hard abort in an attempt, its effect outside one. -/
def State.unlessAttempt (s : State) (w : Word32) (effect : State → State) : State :=
  if s.me.attempt.isSome then s.abortOrTrap 8 (w.toNat / 2 ^ 25 % 64) w else effect s

end Sys2Proof.Machine
end

