-- ==== Sys2Proof/Machine/Operands.lean ====
section
/-! DEFINITION. The operand forms of 02_words R28: immediates, scaled displacements, branch targets, addresses. -/

namespace Sys2Proof.Machine

/-- What a meaning answers. -/
abbrev Result := Host.Outcome State Fault Refusal

/-- A signed immediate field, extended to 64 bits (R28, R79). -/
def simm {n : Nat} (i : BitVec n) : Word := i.signExtend 64

/-- A zero-extended field. -/
def zimm {n : Nat} (i : BitVec n) : Word := i.setWidth 64

/-- The shift amount in a register: bits [5:0] (R75). -/
def amount (b : Word) : Nat := b.toNat % 64

/-- A target `offset` words from an address (R87, R88). -/
def target {n : Nat} (pc : Word) (o : BitVec n) : Word := pc + simm o <<< 2

/-- The unit of a size code of 0 to 3 in bytes (R42). -/
def unitOf (z : BitVec 2) : Nat := 2 ^ z.toNat

/-- The address of a displacement form: xa + SExt(disp, 10) × unit (R161). -/
def dispAddr (xa : Word) (p : BitVec 10) (unit : Nat) : Word := xa + simm p * word unit

/-- Width in bytes of an atomic's operand: 8 for .d, 4 for .w (R274). -/
def amoBytes (w : BitVec 1) : Nat := if w = 0 then 8 else 4

/-- The acquire and the release half of an order form (R272). -/
def ordAcq (o : BitVec 2) : Bool := o.getLsbD 0
def ordRel (o : BitVec 2) : Bool := o.getLsbD 1

/-- The mask of `len` ones at `pos` (R83). -/
def fieldMask (len pos : Nat) : Word := word ((2 ^ len - 1) * 2 ^ pos)

/-- The high half of a product (R77). -/
def mulHigh (p : Int) : Word := BitVec.ofInt 64 (p / 2 ^ 64)

end Sys2Proof.Machine
end

