-- ==== Sys2Proof/Machine/Flags.lean ====
section
/-! DEFINITION. FPCTL: rounding mode, trap enables, sticky flags, and the floating-point exception trap (R136, R137). The
machine has no other condition flags (R74). -/

namespace Sys2Proof.Machine

/-- FPCTL.RM (R136). -/
def Ctx.rm (c : Ctx) : Nat := fld c.ctl.fpctl 0 2

/-- FPCTL's trap enables in the order of the conditions (R136). -/
def Ctx.enables (c : Ctx) : Nat := fld c.ctl.fpctl 12 5

/-- FPCTL.TUF. -/
def Ctx.tuf (c : Ctx) : Bool := bitAt c.ctl.fpctl 13

/-- NMODE.NXM (R111). -/
def Ctx.nxm (c : Ctx) : Bool := bitAt c.ctl.nmode 0

/-- FPCTL as a write stores it: the ignored bits are discarded (R136). -/
def fpctlStored (w : Word) : Word := w &&& 0x1F1F3

/-- Conditions recorded in the sticky flags (R137). -/
def Ctx.raise (c : Ctx) (cond : Nat) : Ctx :=
  { c with ctl := { c.ctl with fpctl := c.ctl.fpctl ||| word (cond % 32 * 16) } }

/-- The union of the conditions of elements. -/
def unionCond (l : List Nat) : Nat := l.foldl (· ||| ·) 0

/-- The lowest element that raised an enabled condition; `l` pairs elements with conditions (R137). -/
def firstLane (enables : Nat) (l : List (Nat × Nat)) : Nat :=
  match (l.filter fun e => e.2 &&& enables != 0).map (·.1) with
  | [] => 0
  | x :: t => t.foldl min x

/-- A floating instruction whose conditions are known at issue (R137): the flags are set; where an enabled condition is met
the exception is taken at the instruction, nothing is written; else its effect happens and the context moves on. Where something
pending comes before that exception, the word has not issued and sets no flag. -/
def State.floatOp (s : State) (conds : List (Nat × Nat)) (effect : Ctx → Ctx) : State :=
  let cond := unionCond (conds.map (·.2))
  let en := s.me.enables
  if cond &&& en = 0 then (s.onMe fun c => c.raise cond).step1 effect
  else s.trap cFloat (floatTval none (firstLane en conds) cond) fun c => c.raise cond

/-- A division or square root (R93, R137): where a condition that the operands fix is enabled the exception is taken at the
instruction; else every condition is recorded when the result arrives, and one that rounding finds is deferred where enabled
(DEDUCED, log 54). The conditions are the union over the elements in both cases. -/
def State.floatLong (s : State) (known rounded : List (Nat × Nat)) (w : RegWrite) : State :=
  let both := known ++ rounded
  let cond := unionCond (both.map (·.2))
  let en := s.me.enables
  if unionCond (known.map (·.2)) &&& en ≠ 0 then
    s.trap cFloat (floatTval none (firstLane en both) cond) fun c => c.raise cond
  else
    s.step1 fun c =>
      let fp : Option Deferred :=
        if cond = 0 then none else some { cond := word cond, lane := firstLane en both, addr := c.pc, seq := c.nextSeq, en }
      c.issue .value [w.dst] true false false (some { writes := [w], fp })

end Sys2Proof.Machine
end

