-- ==== Sys2Proof/Machine/Local.lean ====
section
/-! DEFINITION. Loads and stores, tiles and rings (07_local R161 to R175). -/

namespace Sys2Proof.Machine

/-! ### Loads and stores (R161, R196, R198) -/

/-- A load of one register: `unit` bytes (R161). -/
def loadOne (signed nc acq : Bool) (d a : BitVec 5) (z : BitVec 2) (p : BitVec 10) (s : State) : Result :=
  let n := unitOf z
  let va := dispAddr (s.me.getX a) p n
  match checkAccess s s.cur .load va n n with
  | (.no e, s) => .next (s.deny e)
  | (.ok r, s) => .next (s.issueLoad (r.span n) (.scalar d signed) nc acq)

/-- A load of two registers: one aligned access of 16 bytes (R161). -/
def loadPair (acq : Bool) (d a : BitVec 5) (p : BitVec 10) (s : State) : Result :=
  let va := dispAddr (s.me.getX a) p 16
  match checkAccess s s.cur .load va 16 16 with
  | (.no e, s) => .next (s.deny e)
  | (.ok r, s) => .next (s.issueLoad (r.span 16) (.pair d) false acq)

/-- A store of one register. -/
def storeOne (rel : Bool) (d a : BitVec 5) (z : BitVec 2) (p : BitVec 10) (s : State) : Result :=
  let n := unitOf z
  let va := dispAddr (s.me.getX a) p n
  let v := (s.me.getX d).toNat
  match checkAccess s s.cur .store va n n with
  | (.no e, s) => .next (s.deny e)
  | (.ok r, s) => .next (s.issueStore (cellsOf r n v) rel n)

/-- A store of two registers. -/
def storePair (rel : Bool) (d a : BitVec 5) (p : BitVec 10) (s : State) : Result :=
  let va := dispAddr (s.me.getX a) p 16
  let v := (s.me.getX d).toNat + 2 ^ 64 * (s.me.getX (d + 1)).toNat
  match checkAccess s s.cur .store va 16 16 with
  | (.no e, s) => .next (s.deny e)
  | (.ok r, s) => .next (s.issueStore (cellsOf r 16 v) rel 8)

/-- R161. -/
def execLd (d a : BitVec 5) (z : BitVec 2) (p : BitVec 10) (s : State) : Result := loadOne true false false d a z p s
/-- R196. -/
def execLdAcq (d a : BitVec 5) (z : BitVec 2) (p : BitVec 10) (s : State) : Result := loadOne true false true d a z p s
/-- R198. -/
def execLdnc (d a : BitVec 5) (z : BitVec 2) (p : BitVec 10) (s : State) : Result := loadOne true true false d a z p s
/-- R161. -/
def execLdz (d a : BitVec 5) (z : BitVec 2) (p : BitVec 10) (s : State) : Result := loadOne false false false d a z p s
/-- R196. -/
def execLdzAcq (d a : BitVec 5) (z : BitVec 2) (p : BitVec 10) (s : State) : Result := loadOne false false true d a z p s
/-- R198. -/
def execLdncZ (d a : BitVec 5) (z : BitVec 2) (p : BitVec 10) (s : State) : Result := loadOne false true false d a z p s
/-- R161. -/
def execLdp (d a : BitVec 5) (p : BitVec 10) (s : State) : Result := loadPair false d a p s
/-- R196. -/
def execLdpAcq (d a : BitVec 5) (p : BitVec 10) (s : State) : Result := loadPair true d a p s
/-- R161. -/
def execSt (d a : BitVec 5) (z : BitVec 2) (p : BitVec 10) (s : State) : Result := storeOne false d a z p s
/-- R196. -/
def execStRel (d a : BitVec 5) (z : BitVec 2) (p : BitVec 10) (s : State) : Result := storeOne true d a z p s
/-- R161. -/
def execStp (d a : BitVec 5) (p : BitVec 10) (s : State) : Result := storePair false d a p s
/-- R196. -/
def execStpRel (d a : BitVec 5) (p : BitVec 10) (s : State) : Result := storePair true d a p s

/-! ### Changes to the tile table and the rings -/

/-- Do two regions overlap? -/
def regionsMeet (a n b m : Nat) : Bool := decide (a < b + m) && decide (b < a + n)

/-- Does a region overlap a bound tile or the slots of a bound ring, ring `skip` apart (R165, R172)? -/
def Quad.taken (q : Quad) (off size : Nat) : Bool :=
  q.tiles.any (fun e => regionsMeet off size e.2.off e.2.size) ||
    q.rings.any fun e => regionsMeet off size e.2.base (e.2.count * e.2.size)

/-- STATE of R164. -/
def TileState.code : TileState → Nat
  | .empty => 0 | .filling => 1 | .ready => 2 | .draining => 3

/-- The form of an entry that tstat reports (R164). -/
def tileForm (t : Option Tile) : Word :=
  match t with
  | none => 0
  | some t => word (t.size * 2 ^ 32 + t.off * 2 ^ 8 + (if t.eng then 8 else 0) + 4 + t.st.code)

/-- The index of a ring's tail slot (R171). -/
def Ring.tail (r : Ring) : Nat := (r.head + r.occ) % r.count

/-- The window offset of a slot. -/
def Ring.slot (r : Ring) (i : Nat) : Nat := r.base + i % r.count * r.size

/-- The form of a ring that rstat reports (R171). -/
def ringForm (r : Option Ring) : Word :=
  match r with
  | none => 0
  | some r => word (2 ^ 63 + r.occ * 2 ^ 50 + r.slot r.tail * 2 ^ 22 + r.slot r.head)

/-- The portable rule of R215 for instructions that name a tile, a ring or an engine: an access fault with the given TVAL. -/
def State.unlessPortable (s : State) (tval : Word) (effect : State → Result) : Result :=
  if s.me.task.portable then .next (s.trap cAccess tval) else effect s

/-- A tile or ring instruction that changes state: forbidden in an attempt (R167, R299), an access fault in a portable task
(R215). -/
def tileChange (w : Word32) (a : BitVec 5) (effect : State → State) (s : State) : Result :=
  let xa := s.me.getX a
  .next (s.unlessAttempt w fun s => if s.me.task.portable then s.trap cAccess xa else effect s)

/-- A wait of R167 that is not met: the context sleeps on the entry and issues the instruction again; in an attempt it acts
as retry with the entry in the retry set; a handler traps. -/
def State.waitOn (s : State) (w : Word32) (on : WaitOn) : State :=
  if s.me.attempt.isSome then s.retryOrTrap w [on] else s.sleepOrTrap w [on]

/-- An instruction that is a release at QUAD scope: it issues once earlier accesses that a test wants are performed (R168). -/
def State.afterOuts (s : State) (want : Out → Bool) (effect : State → State) : State :=
  match s.require s.cur want with
  | (s, true) => effect s
  | (s, false) => s.onMe Ctx.again

/-- Tacq of R165: the status, and the machine after it. -/
def tacq (s : State) (xa xb : Word) : Word × State :=
  let quad := s.myQuad
  let q := s.quad quad
  let n := fld xa 56 8
  let off := fld xa 0 32
  let sz := fld xa 32 24
  if 63 < n then (2, s)
  else if sz = 0 then
    match q.tile? n with
    | none => (5, s)
    | some t => if t.st = .filling ∨ t.st = .draining then (1, s) else (0, s.dropTile quad n)
  else if (q.tile? n).isSome then (1, s)
  else if off % 64 ≠ 0 ∨ sz % 64 ≠ 0 ∨ off < q.xbound.toNat ∨ capacity s.myLayer < off + sz then (2, s)
  else if q.taken off sz then (3, s)
  else if xb = 0 then (0, s.setTile quad n { off, size := sz, st := .empty })
  else if xb = 2 then (0, s.setTile quad n { off, size := sz, st := .ready })
  else (4, s)

/-- R165. -/
def execTacq (sb : Bool) (d a b : BitVec 5) (s : State) : Result :=
  let xa := s.me.getX a
  let xb := s.me.getX b
  tileChange (Instr.tacq sb d a b).word a (fun s => let r := tacq s xa xb; r.2.writesX d r.1) s

/-- A change that waits for a state of a bound entry (R166): `from_` the state awaited, `goal` the state after. A release issues once the
context's earlier local accesses are performed, stores (R168) and loads (R392, R394); `loads` says that all loads are (R168). -/
def tileMove (w : Word32) (a : BitVec 5) (from_ goal : TileState) (software release loads : Bool) (s : State) : Result :=
  let xa := s.me.getX a
  let n := fld xa 0 6
  tileChange w a (fun s =>
    match (s.quad s.myQuad).tile? n with
    | none => s.trap cAccess xa
    | some t =>
      if t.st != from_ || (software && t.eng) then s.waitOn w (.tile n)
      else
        s.afterOuts (fun o => (release && o.isLocal) || (loads && o.binds)) fun s =>
          (s.setTile s.myQuad n { t with st := goal, eng := false }).step1 id) s

/-- R166, R168: a release. -/
def execTrdy (sb : Bool) (a : BitVec 5) (s : State) : Result :=
  tileMove (Instr.trdy sb a).word a .empty .ready false true false s
/-- R166. -/
def execTdrain (sb : Bool) (a : BitVec 5) (s : State) : Result :=
  tileMove (Instr.tdrain sb a).word a .ready .draining false false false s
/-- R166, R168: a release that waits for earlier loads too. -/
def execTfree (sb : Bool) (a : BitVec 5) (s : State) : Result :=
  tileMove (Instr.tfree sb a).word a .draining .empty true true true s

/-- R170. -/
def execTstat (sb : Bool) (d a : BitVec 5) (s : State) : Result :=
  let xa := s.me.getX a
  let n := fld xa 0 6
  s.unlessPortable xa fun s =>
    let t := (s.quad s.myQuad).tile? n
    let met := match t with | some t => t.st.code == fld xa 9 2 | none => false
    if bitAt xa 8 && !met then .next (s.waitOn (Instr.tstat sb d a).word (.tile n)) else .next (s.writesX d (tileForm t))

/-- R172. Where RES or CLM is not 0, rset waits before any access fault of a binding but that of the ring number is looked at (DEDUCED,
log 65). -/
def rset (w : Word32) (s : State) (xa xb : Word) : State :=
  let quad := s.myQuad
  let q := s.quad quad
  let n := fld xa 56 8
  let base := fld xa 0 32
  let size := 64 * fld xa 32 16
  let count := fld xa 48 8
  let r := q.ring? n
  let busy := match r with | some r => r.res != 0 || r.clm != 0 | none => false
  if 7 < n then s.trap cAccess xa
  else if busy then s.waitOn w (.ring n)
  else if size = 0 then (if r.isSome then s.dropRing quad n else s).step1 id
  else if r.isSome ∨ count < 2 ∨ 64 < count ∨ base % 64 ≠ 0 ∨ base < q.xbound.toNat ∨ capacity s.myLayer < base + count * size ∨
      q.taken base (count * size) ∨ count < xb.toNat then s.trap cAccess xa
  else (s.setRing quad n { base, size, count, head := 0, occ := xb.toNat }).step1 id

/-- R172. -/
def execRset (sb : Bool) (a b : BitVec 5) (s : State) : Result :=
  let xa := s.me.getX a
  let xb := s.me.getX b
  tileChange (Instr.rset sb a b).word a (fun s => rset (Instr.rset sb a b).word s xa xb) s

/-- R173: a release, as trdy. -/
def execRpush (sb : Bool) (a b : BitVec 5) (s : State) : Result :=
  let xa := s.me.getX a
  let xb := s.me.getX b
  let w := (Instr.rpush sb a b).word
  let i := fld xa 0 3
  tileChange w a (fun s =>
    match (s.quad s.myQuad).ring? i with
    | none => s.trap cAccess xa
    | some r =>
      if r.count < xb.toNat then s.trap cAccess xb
      else if xb = 0 then s.step1 id
      else if r.res ≠ 0 ∨ r.count < r.occ + xb.toNat then s.waitOn w (.ring i)
      else s.afterOuts Out.isLocal fun s =>
        (s.setRing s.myQuad i { r with occ := r.occ + xb.toNat }).step1 id) s

/-- R173: a release, as tfree. -/
def execRpop (sb : Bool) (a : BitVec 5) (s : State) : Result :=
  let xa := s.me.getX a
  let w := (Instr.rpop sb a).word
  let i := fld xa 0 3
  tileChange w a (fun s =>
    match (s.quad s.myQuad).ring? i with
    | none => s.trap cAccess xa
    | some r =>
      if r.clm ≠ 0 ∨ r.occ = 0 then s.waitOn w (.ring i)
      else s.afterOuts (fun o => o.isLocal || o.binds) fun s =>
        (s.setRing s.myQuad i { r with head := (r.head + 1) % r.count, occ := r.occ - 1 }).step1 id) s

/-- R175. With WAIT and COND set on a ring that is not bound it sleeps until one is (DEDUCED, log 65). -/
def execRstat (sb : Bool) (d a : BitVec 5) (s : State) : Result :=
  let xa := s.me.getX a
  let i := fld xa 0 3
  s.unlessPortable xa fun s =>
    let r := (s.quad s.myQuad).ring? i
    let met := match r with
      | some r => if bitAt xa 9 then decide (r.occ + r.res < r.count) else decide (r.clm < r.occ)
      | none => false
    if bitAt xa 8 && !met then .next (s.waitOn (Instr.rstat sb d a).word (.ring i)) else .next (s.writesX d (ringForm r))

end Sys2Proof.Machine
end

