-- ==== Sys2Proof/Machine/Engine.lean ====
section
/-! DEFINITION. What the engines of a quad share: the roles of tiles and rings (R166, R174), their accesses (R160, R179, R325),
timelines (R326, R327). -/

namespace Sys2Proof.Machine

/-! ### Roles -/

/-- How an operation uses its source or its destination: an address, or an object in a role (R166, R174). -/
inductive Role where
  | addr
  | fill (n : Nat)
  | consume (n : Nat)
  | keep (n : Nat)
  | push (n : Nat)
  | pop (n : Nat)
deriving DecidableEq, Repr

/-- The tile or ring of a role. -/
def Role.object : Role → Option WaitOn
  | .addr => none
  | .fill n => some (.tile n)
  | .consume n => some (.tile n)
  | .keep n => some (.tile n)
  | .push n => some (.ring n)
  | .pop n => some (.ring n)

/-- Is the object bound? -/
def Role.bound (q : Quad) : Role → Bool
  | .addr => true
  | .fill n => (q.tile? n).isSome
  | .consume n => (q.tile? n).isSome
  | .keep n => (q.tile? n).isSome
  | .push n => (q.ring? n).isSome
  | .pop n => (q.ring? n).isSome

/-- Does the state hold that the launch waits for? -/
def Role.met (q : Quad) (r : Role) : Bool :=
  let tile (n : Nat) (st : TileState) : Bool := match q.tile? n with | some t => t.st == st | none => false
  match r with
  | .addr => true
  | .fill n => tile n .empty
  | .consume n => tile n .ready
  | .keep n => tile n .ready
  | .push n => match q.ring? n with | some g => decide (g.occ + g.res < g.count) | none => false
  | .pop n => match q.ring? n with | some g => decide (g.clm < g.occ) | none => false

/-- The size of the tile or slot of a role. -/
def Role.size (q : Quad) : Role → Nat
  | .addr => 0
  | .fill n => match q.tile? n with | some t => t.size | none => 0
  | .consume n => match q.tile? n with | some t => t.size | none => 0
  | .keep n => match q.tile? n with | some t => t.size | none => 0
  | .push n => match q.ring? n with | some g => g.size | none => 0
  | .pop n => match q.ring? n with | some g => g.size | none => 0

/-- The launch takes the object (R324): the machine after it, the region's base, and the number of a claim or reservation. A push takes the
slot of R174's formula, also after a failed push with younger ones in flight (DEDUCED, log 23). -/
def State.takeRole (s : State) (quad : Nat) (r : Role) : State × Nat × Option Nat :=
  let q := s.quad quad
  let tile (n : Nat) (st : TileState) : State × Nat × Option Nat :=
    match q.tile? n with
    | some t => (s.setTile quad n { t with st, eng := true }, t.off, none)
    | none => (s, 0, none)
  match r with
  | .addr => (s, 0, none)
  | .fill n => tile n .filling
  | .consume n => tile n .draining
  | .keep n => tile n .draining
  | .push n =>
    match q.ring? n with
    | some g =>
      (s.setRing quad n { g with res := g.res + 1, pushes := g.pushes ++ [(g.next, none)], next := g.next + 1 },
        g.slot (g.tail + g.res), some g.next)
    | none => (s, 0, none)
  | .pop n =>
    match q.ring? n with
    | some g =>
      (s.setRing quad n { g with clm := g.clm + 1, pops := g.pops ++ [(g.next, false)], next := g.next + 1 },
        g.slot (g.head + g.clm), some g.next)
    | none => (s, 0, none)

/-- Reservations that have ended leave a ring in their order (R174; DEDUCED, log 23). -/
def Ring.settlePushes (r : Ring) : List (Nat × Option Bool) → Ring
  | (_, some ok) :: t => { r with res := r.res - 1, occ := if ok then r.occ + 1 else r.occ }.settlePushes t
  | l => { r with pushes := l }

/-- Claims that have ended leave a ring in their order (R174). -/
def Ring.settlePops (r : Ring) : List (Nat × Bool) → Ring
  | (_, true) :: t => { r with clm := r.clm - 1, occ := r.occ - 1, head := (r.head + 1) % r.count }.settlePops t
  | l => { r with pops := l }

/-- The operation's end gives the object back (R166, R174). -/
def State.giveRole (s : State) (quad : Nat) (r : Role) (id : Option Nat) (ok : Bool) : State :=
  let q := s.quad quad
  let tile (n : Nat) (good bad : TileState) : State :=
    match q.tile? n with
    | some t => s.setTile quad n { t with st := if ok then good else bad, eng := false }
    | none => s
  match r with
  | .addr => s
  | .fill n => tile n .ready .empty
  | .consume n => tile n .empty .ready
  | .keep n => tile n .ready .ready
  | .push n =>
    match q.ring? n with
    | some g => s.setRing quad n (g.settlePushes (g.pushes.map fun e => if some e.1 = id then (e.1, some ok) else e))
    | none => s
  | .pop n =>
    match q.ring? n with
    | some g => s.setRing quad n (g.settlePops (g.pops.map fun e => if some e.1 = id then (e.1, true) else e))
    | none => s

/-! ### Accesses of an engine -/

/-- Why an engine's access fails: REASON of R330. -/
inductive EngineFault where
  | access | translation | misaligned
deriving DecidableEq, Repr

def EngineFault.code : EngineFault → Nat
  | .access => 1 | .translation => 2 | .misaligned => 3

/-- The checks of an engine's access of `n` bytes (R160, R179, R325): no permission of the code region is asked for. -/
def engineCheck (s : State) (quad pasid : Nat) (a : Word) (n align : Nat) (write host : Bool) : Except EngineFault Ref × State :=
  if a.toNat % align ≠ 0 then (.error .misaligned, s)
  else if isLocal a then
    let r : Ref := { isLocal := true, addr := a.toNat }
    if capacity (quadLayer quad) < a.toNat + n then (.error .access, s)
    else if !write && s.poisonSpan quad r n then (.error .access, s)
    else (.ok r, s)
  else if fld a 57 7 ≠ 0 then (.error .access, s)
  else match translate s quad pasid a.toNat with
    | (.fault _, s) => (.error .translation, s)
    | (.page t, s) =>
      let r := s.pageRef t a.toNat
      if !(if write then t.w else t.r) || (!host && r.addr.testBit 45) then (.error .access, s)
      else if !write && s.poisonSpan quad r n then (.error .access, s)
      else (.ok r, s)

/-- The bytes an engine reads; it never uses a PC = 1 copy (R325). -/
def State.engineRead (s : State) (quad : Nat) (r : Ref) (n : Nat) : List Byte := (r.span n).map (s.readByte quad true)

/-- Bytes from an address on, which stay within one aligned word. -/
def Placed.of (quad : Nat) (first a : Word) (bs : List Byte) : Placed :=
  { quad, dword := setFld a 0 3 0, first, bytes := bs.zipIdx.map fun e => (fld a 0 3 + e.2, e.1) }

/-- Cells that an engine of a quad writes, without those that the host refuses, which are dropped (R180); false while an irrevocable
attempt holds a line (R306). -/
def State.engineWrite (s : State) (quad : Nat) (cells : List (Ref × Byte)) : State × Bool :=
  let cells := s.served cells
  let l := localCells cells
  let g := globalCells cells
  if !(s.mayWriteLocal none quad l && s.mayWrite none g) then (s, false)
  else
    let s := if l.isEmpty then s else s.lwrite none quad l
    let s := if g.isEmpty then s
      else s.gwrite none (quadDie quad) (fun l => (cells.find? fun c => !c.1.isLocal && c.1.addr / 128 == l).map (·.1.home)) g
    (s, true)

/-- A quad's engines have done so much (R420). -/
def State.works (s : State) (quad n : Nat) : State := s.onQuad quad fun q => { q with work := q.work + n }

/-! ### Timelines (R326, R327) -/

/-- A timeline's word is written with its new value, where TLBASE places it: the machine after it, and whether the write could not be
performed and was skipped (TLF): for its translation, its page, or a host that refuses the word. None while an irrevocable attempt holds the line. -/
def State.timelineStore (s : State) (quad index value : Nat) : Option (State × Bool) :=
  let q := s.quad quad
  if q.tlbase = 0 then some (s, false)
  else match engineCheck s quad q.tlpasid (q.tlbase + word (8 * index)) 8 8 true true with
    | (.error _, s) => some (s, true)
    | (.ok r, s) =>
      if s.refuses r then some (s, true)
      else match s.engineWrite quad (cellsOf r 8 value) with
      | (s, true) => some (s, false)
      | (_, false) => none

end Sys2Proof.Machine
end

