-- ==== Sys2Proof/Machine/Control.lean ====
section
/-! DEFINITION. Branches, jumps, hardware loops and identity (04_control R87 to R105, 02_words R41). -/

namespace Sys2Proof.Machine

/-- The instruction transfers control (R87, R88). -/
def State.jump (s : State) (t : Word) : State := s.onMe fun c => c.goTo t

/-- A conditional branch (R87): taken, or on in sequence. -/
def branch (cond : Word → Word → Bool) (a b : BitVec 5) (o : BitVec 12) (s : State) : Result :=
  if cond (s.me.getX a) (s.me.getX b) then .next (s.jump (target s.me.pc o)) else .next (s.step1 id)

/-- R87. -/
def execBEq (a b : BitVec 5) (o : BitVec 12) (s : State) : Result := branch (· == ·) a b o s
/-- R87. -/
def execBNe (a b : BitVec 5) (o : BitVec 12) (s : State) : Result := branch (· != ·) a b o s
/-- R87. -/
def execBLt (a b : BitVec 5) (o : BitVec 12) (s : State) : Result := branch BitVec.slt a b o s
/-- R87. -/
def execBGe (a b : BitVec 5) (o : BitVec 12) (s : State) : Result := branch (fun x y => y.sle x) a b o s
/-- R87. -/
def execBLtz (a b : BitVec 5) (o : BitVec 12) (s : State) : Result := branch BitVec.ult a b o s
/-- R87. -/
def execBGez (a b : BitVec 5) (o : BitVec 12) (s : State) : Result := branch (fun x y => y.ule x) a b o s

/-- R88. -/
def execJ (o : BitVec 25) (s : State) : Result := .next (s.jump (target s.me.pc o))
/-- R88. -/
def execJal (o : BitVec 25) (s : State) : Result :=
  .next (s.onMe fun c => (c.setX 1 (c.pc + 4)).goTo (target c.pc o))
/-- R89. -/
def execJalr (d a : BitVec 5) (i : BitVec 15) (s : State) : Result :=
  let t := s.me.getX a + simm i
  if fld t 0 2 ≠ 0 then .next (s.trap cMisaligned t) else .next (s.onMe fun c => (c.setX d (c.pc + 4)).goTo t)

/-- A change to a loop level: 0 the outer, 1 the inner (R97). -/
def Ctx.onLevel (c : Ctx) (n : BitVec 1) (f : LoopLevel → LoopLevel) : Ctx :=
  if n = 0 then { c with lp0 := f c.lp0 } else { c with lp1 := f c.lp1 }

/-- R97. A loop that is entered transfers control, so that no loop end of the other level occurs at it, where it stands at that level's
latched end (R98; DEDUCED, log 57). -/
def execLoop (n : BitVec 1) (a : BitVec 5) (i : BitVec 15) (s : State) : Result :=
  .next (s.onMe fun c =>
    let count := c.getX a
    let start := c.pc + 4
    let stop := c.pc + simm i <<< 2
    let c := c.onLevel n fun _ =>
      { lc := if count = 0 then 0 else count - 1, ls := start, le := stop, act := count != 0, eb := false, asn := start, aen := stop }
    c.goTo (if count = 0 then stop + 4 else start))

/-- R41: no effect. -/
def execNop (s : State) : Result := .next (s.step1 id)

/-- R100. -/
def execLbreak (n : BitVec 1) (s : State) : Result :=
  .next (s.step1 fun c => c.onLevel n fun l => { l with act := false, eb := false })

/-- R105. -/
def execIdent (d : BitVec 5) (s : State) : Result := .next (s.writesX d (identOf s.module s.cur))

end Sys2Proof.Machine
end

