-- ==== Sys2Proof/Machine/Atomics.lean ====
section
/-! DEFINITION. Atomics, counters, grab, arm and disarm (11_atomics R270 to R288). -/

namespace Sys2Proof.Machine

/-- An atomic on a checked operand (R270, R271). -/
def atomic (op : AmoOp) (bytes : Nat) (d a : BitVec 5) (b c : Word) (acq rel : Bool) (s : State) : Result :=
  let va := s.me.getX a
  match checkAtomic s s.cur .atomic va bytes with
  | (.no e, s) => .next (s.deny e)
  | (.ok r, s) => .next (s.issueAtomic r op bytes d b c acq rel va)

/-- An amo of R274. -/
def amo (op : AmoOp) (d a b : BitVec 5) (o : BitVec 2) (w : BitVec 1) (s : State) : Result :=
  atomic op (amoBytes w) d a (s.me.getX b) 0 (ordAcq o) (ordRel o) s

/-- R274. -/
def execAmoAdd (d a b : BitVec 5) (o : BitVec 2) (w : BitVec 1) (s : State) : Result := amo .add d a b o w s
/-- R274. -/
def execAmoAnd (d a b : BitVec 5) (o : BitVec 2) (w : BitVec 1) (s : State) : Result := amo .and d a b o w s
/-- R274. -/
def execAmoOr (d a b : BitVec 5) (o : BitVec 2) (w : BitVec 1) (s : State) : Result := amo .or d a b o w s
/-- R274. -/
def execAmoXor (d a b : BitVec 5) (o : BitVec 2) (w : BitVec 1) (s : State) : Result := amo .xor d a b o w s
/-- R274. -/
def execAmoMin (d a b : BitVec 5) (o : BitVec 2) (w : BitVec 1) (s : State) : Result := amo .min d a b o w s
/-- R274. -/
def execAmoMax (d a b : BitVec 5) (o : BitVec 2) (w : BitVec 1) (s : State) : Result := amo .max d a b o w s
/-- R274. -/
def execAmoMinz (d a b : BitVec 5) (o : BitVec 2) (w : BitVec 1) (s : State) : Result := amo .minz d a b o w s
/-- R274. -/
def execAmoMaxz (d a b : BitVec 5) (o : BitVec 2) (w : BitVec 1) (s : State) : Result := amo .maxz d a b o w s
/-- R274. -/
def execAmoSwap (d a b : BitVec 5) (o : BitVec 2) (w : BitVec 1) (s : State) : Result := amo .swap d a b o w s
/-- R275. -/
def execAmoFadd (d a b : BitVec 5) (o : BitVec 2) (w : BitVec 1) (s : State) : Result := amo .fadd d a b o w s
/-- R276. -/
def execAmoCas (d a b c : BitVec 5) (o : BitVec 2) (w : BitVec 1) (s : State) : Result :=
  atomic .cas (amoBytes w) d a (s.me.getX b) (s.me.getX c) (ordAcq o) (ordRel o) s
/-- R278. -/
def execCadd (d a b : BitVec 5) (s : State) : Result := atomic .cadd 8 d a (s.me.getX b) 0 false false s
/-- R278. -/
def execCaddRel (d a b : BitVec 5) (s : State) : Result := atomic .cadd 8 d a (s.me.getX b) 0 false true s
/-- R281. -/
def execGrab (d a b : BitVec 5) (s : State) : Result := atomic .grab 16 d a (s.me.getX b) 0 false false s

/-- An operation of one xd issues and the context moves on. -/
def State.issueX (s : State) (op : OutOp) (d : BitVec 5) (pure acq rel : Bool) : State :=
  s.step1 fun c => c.issue op [.x d] pure acq rel

/-- A result for one xd that is known at issue but belongs to the long-latency class (R93). -/
def State.issueXValue (s : State) (d : BitVec 5) (w : Word) : State :=
  s.step1 fun c => c.issue .value [.x d] false false false (some { writes := [.x d w] })

/-- The same of an instruction that starts an operation, with its release (R328, R366, R384). -/
def State.issueStart (s : State) (d : BitVec 5) (w : Word) (g : Gate) : State :=
  s.step1 fun c => (c.issue .value [.x d] false false false (some { writes := [.x d w] })).issueGate g

/-- A record of `n` bytes is read at issue (R211, R231, R283): checked as a load is, after the context's own earlier accesses to
its bytes and its earlier acquires (R196, R272, R310, R390). -/
def State.readRecord (s : State) (a : Word) (n : Nat) (cont : List Byte → State → State) : State :=
  match checkAccess s s.cur .load a n n with
  | (.no e, s) => s.deny e
  | (.ok r, s) =>
    s.afterOuts (fun o => o.acq || o.ranges.any fun x => x.1 == r.isLocal && decide (x.2.1 < r.addr + n) && decide (r.addr < x.2.2))
      fun s => cont (s.readRef s.cur false r n) s

/-- An instruction with several addresses goes on once none of them raises a cause of its own (R241). -/
def State.afterChecks (s : State) (l : List Asked) (effect : State → State) : State :=
  match precheck s s.cur l with
  | (some e, s) => s.deny e
  | (none, s) => effect s

/-- Does a trigger record break a limit of R283? FLAGS is ignored. -/
def armRecordBad (f : RecFields) : Bool :=
  f.entry % 4 != 0 || decide (3 < f.pri) || decide (6 < f.argc) || f.zero != 0 || fld f.tag 44 20 != 0

/-- The partition number of a context; 16 stands for none. -/
def State.partNo (s : State) (k : Nat) : Nat := match s.partOf k with | some p => p.1 | none => 16

/-- R283. DEST stands where a task record has its TAG. -/
def execArm (sb : Bool) (d a b c : BitVec 5) (s : State) : Result :=
  let xa := s.me.getX a
  let xb := s.me.getX b
  let xc := s.me.getX c
  .next (s.unlessAttempt (Instr.arm sb d a b c).word fun s =>
    s.afterChecks [{ a := xa, align := 8, globalOnly := true }, { a := xc, align := 64 }] fun s =>
    match checkAtomic s s.cur .load xa 8 with
    | (.no e, s) => s.deny e
    | (.ok r, s) =>
      s.readRecord xc 64 fun bs s =>
        let f := RecFields.of bs
        let refusedBy (n : Nat) : State := s.issueXValue d (word (3 + 256 * n))
        if armRecordBad f then refusedBy 1
        else if !destExists s f.tag then refusedBy 2
        else if !destAllowed s (quarterOf s.myQuad) f.tag then refusedBy 3
        else
          let t : Trigger :=
            { addr := r.addr, threshold := xb, entry := word f.entry, pri := f.pri, dest := f.tag, args := f.argsUsed
              nxm := s.me.nxm, pasid := s.me.ctl.pasid, part := s.partNo s.cur, slot := 0, serial := 0 }
          s.issueX (.arm r d t) d false false true)

/-- R288. -/
def execDisarm (sb : Bool) (d a b : BitVec 5) (s : State) : Result :=
  let xa := s.me.getX a
  let xb := s.me.getX b
  .next (s.unlessAttempt (Instr.disarm sb d a b).word fun s =>
    match checkAtomic s s.cur .load xa 8 with
    | (.no e, s) => s.deny e
    | (.ok r, s) => s.issueX (.disarm r d xb) d false false false)

end Sys2Proof.Machine
end

