-- ==== Sys2Proof/Machine/Tasks.lean ====
section
/-! DEFINITION. Tasks, active messages and work queues (09_tasks R210 to R232). -/

namespace Sys2Proof.Machine

/-- The payload registers x4 upward (R219). -/
def Ctx.payload (c : Ctx) (n : Nat) : List Word := (List.range n).map fun i => c.getX (BitVec.ofNat 5 (4 + i))

/-- Does the handler context run a reply (R229)? -/
def Ctx.inReply (c : Ctx) : Bool := match c.msg with | some m => m.reply | none => false

/-- Does it run a request? -/
def Ctx.inRequest (c : Ctx) : Bool := match c.msg with | some m => !m.reply | none => false

/-- An amsend that has passed the tests at the sender leaves for its destination (R219, R222, R223). -/
def State.send (s : State) (d : BitVec 5) (xa xb : Word) (n : Nat) : State :=
  let k := s.cur
  let c := s.me
  let m : Msg :=
    { header := headerOf s k (fld xb 32 2) n c.nxm false, dst := fld xa 0 14, dstModule := fld xa 32 12, chan := fld xb 32 2
      isTask := bitAt xb 34, pri := fld xb 36 2, entry := word (fld xb 0 32), payload := c.payload n, nxm := c.nxm
      pasid := c.ctl.pasid, sender := some (k, c.nextSeq) }
  { s.issueX (.send d) d false false true with net := s.net ++ [m] }

/-- Is an outstanding operation an amsend to the same core on the same channel (R222)? -/
def sameChannel (s : State) (k : Nat) (xa xb : Word) (o : Out) : Bool :=
  match s.net.find? fun m => m.isOf k o.seq with
  | some m => m.dst == fld xa 0 14 && m.dstModule == fld xa 32 12 && m.chan == fld xb 32 2
  | none => false

/-- R219, R220, R222. What the sender's core answers itself waits for no earlier amsend (DEDUCED, log 46). In an attempt it is forbidden before
it is illegal in the handler of a reply (R229, R299; DEDUCED, log 53). -/
def execAmsend (sb : Bool) (d a b : BitVec 5) (n : BitVec 3) (s : State) : Result :=
  let w := (Instr.amsend sb d a b n).word
  let xa := s.me.getX a
  let xb := s.me.getX b
  let k := s.cur
  .next (s.unlessAttempt w fun s =>
    if s.me.inReply then s.illegal w
    else
      match senderFault s k xa xb with
      | some r => s.issueXValue d (faulted r)
      | none => s.afterOuts (sameChannel s k xa xb) fun s => s.send d xa xb n.toNat)

/-- The reply that amreply sends to the source of the request (R229). -/
def replyMsg (s : State) (req : Msg) (xb : Word) (n : Nat) : Msg :=
  let c := s.me
  { header := headerOf s s.cur (fld xb 32 2) n c.nxm true, dst := fld req.header 0 14, dstModule := fld req.header 32 12
    chan := fld xb 32 2, isTask := false, pri := 0, entry := word (fld xb 0 32), payload := c.payload n, nxm := c.nxm
    pasid := c.ctl.pasid, reply := true }

/-- R229: it retires at issue, and the reply leaves once every earlier access has been performed (R223). In an attempt it is forbidden before it
is illegal outside the handler of a request (R229, R299; DEDUCED, log 53). -/
def execAmreply (sb : Bool) (b : BitVec 5) (n : BitVec 3) (s : State) : Result :=
  let w := (Instr.amreply sb b n).word
  let xb := s.me.getX b
  .next (s.unlessAttempt w fun s =>
    match s.me.msg with
    | none => s.illegal w
    | some req =>
      if req.reply then s.illegal w
      else if !descriptorOk xb then s.trap cAccess xb
      else s.step1 fun c => c.issue (.reply (replyMsg s req xb n.toNat)) [] false false true)

/-- The record that spawn enqueues (R211). -/
def spawnRecord (c : Ctx) (f : RecFields) (gate : Gate) : Record :=
  { entry := word f.entry, pri := f.pri, flags := f.flags, x3 := f.tag, args := f.argsUsed, nxm := c.nxm, pasid := c.ctl.pasid
    src := 1, gate }

/-- R211: a release, which the task's first access waits for. -/
def execSpawn (sb : Bool) (a : BitVec 5) (s : State) : Result :=
  let xa := s.me.getX a
  .next (s.unlessAttempt (Instr.spawn sb a).word fun s =>
    s.readRecord xa 64 fun bs s =>
      let f := RecFields.of bs
      if !f.ok then s.trap cAccess (xa + 2)
      else if !queueHasRoom (s.core s.myCore).queue.length f.pri then s.trap cAccess (xa + 1)
      else
        let g := s.me.gate s.cur 0
        (s.enqueue s.myCore (spawnRecord s.me f g)).step1 (Ctx.issueGate g))

/-- Where the slots of the queue at a descriptor end, as the context sees the descriptor when it issues (DEDUCED, log 5). -/
def queueReach (s : State) (r : Ref) (pageEnd : Nat) : Nat :=
  let own := s.me.earlierCells s.me.nextSeq
  (QueueDesc.of ((r.span 64).map fun b => overlay own b (s.readByte s.myQuad true b))).reach r.addr pageEnd

/-- Enq and hostpost (R231). A poisoned word of the descriptor is an access fault (R427; DEDUCED, log 21). -/
def post (host : Bool) (w : Word32) (d a b : BitVec 5) (s : State) : Result :=
  let xa := s.me.getX a
  let xb := s.me.getX b
  .next (s.unlessAttempt w fun s =>
    s.afterChecks [{ a := xa, align := 64, globalOnly := true, kind := .store }, { a := xb, align := 64 }] fun s =>
    match checkAccess s s.cur .store xa 64 64 with
    | (.no e, s) => s.deny e
    | (.ok r, s) =>
      let e := pageEnd s s.cur xa
      if s.poisonSeen s.cur r 64 then s.trap cAccess xa else
      s.readRecord xb 64 fun bs s => s.issueX (.enq r d bs host e (queueReach s r e)) d false false true)

/-- R231. -/
def execEnq (sb : Bool) (d a b : BitVec 5) (s : State) : Result := post false (Instr.enq sb d a b).word d a b s
/-- R231. -/
def execHostpost (sb : Bool) (d a b : BitVec 5) (s : State) : Result := post true (Instr.hostpost sb d a b).word d a b s

/-- The registers that deq writes (R231). -/
def deqDsts (d : BitVec 5) : List Dst := ((List.range 7).map fun i => Dst.x (BitVec.ofNat 5 (3 + i))) ++ [.x d]

/-- Where the record lies that a deq would take as the queue stands, from its descriptor; none of an empty queue, or of a descriptor that
it answers with 3 (R230, R231). -/
def headSlot (s : State) (r : Ref) (pageEnd : Nat) : Option Nat :=
  let q := QueueDesc.of (s.gread r.addr 64)
  if q.bad r.addr pageEnd false || q.used == 0 then none else some (64 + 64 * (q.head % q.cap))

/-- R231: an acquire; d from 3 to 9 is illegal. A poisoned word of the descriptor or of the record that is to be taken is an access fault
(R427; DEDUCED, log 21). -/
def execDeq (sb : Bool) (d a : BitVec 5) (s : State) : Result :=
  let w := (Instr.deq sb d a).word
  let xa := s.me.getX a
  if 3 ≤ d.toNat ∧ d.toNat ≤ 9 then .next (s.illegal w)
  else .next (s.unlessAttempt w fun s =>
    s.afterChecks [{ a := xa, align := 64, globalOnly := true, kind := .store }] fun s =>
    match checkAccess s s.cur .store xa 64 64 with
    | (.no e, s) => s.deny e
    | (.ok r, s) =>
      let e := pageEnd s s.cur xa
      if s.poisonSeen s.cur r 64 then s.trap cAccess xa else
      match (headSlot s r e).filter fun n => s.poisonSeen s.cur (r.plus n) 64 with
      | some n => s.trap cAccess (xa + word n)
      | none => s.step1 fun c => c.issue (.deq r d e (queueReach s r e)) (deqDsts d) false true false)

/-- The word of taskid (R232). -/
def taskidWord (s : State) : Word :=
  let k := s.cur
  let occ := (s.core s.myCore).queue.length
  let f := s.me.task
  if isHandler k then word (occ * 2 ^ 36 + 3 * 2 ^ 34 + 7 * 2 ^ 30)
  else word (occ * 2 ^ 36 + f.pri * 2 ^ 34 + (if f.stolen then 2 ^ 33 else 0) + f.src * 2 ^ 30 + k % 8 * 2 ^ 28 + f.seq)

/-- R232. -/
def execTaskid (d : BitVec 5) (s : State) : Result := .next (s.writesX d (taskidWord s))

/-- R210: the core's round-robin pointer moves past the context. -/
def execYield (s : State) : Result := .next ((s.onCore s.myCore fun c => { c with rr := s.cur % 8 + 1 }).step1 id)

/-- halt of R216: side effects are completed, results abandoned, the context becomes free. So the add of a cadd that is outstanding is performed
and its carry goes with the result, where one that is known already is taken first (R278; DESIGN CHOICE, log 71). -/
def State.halt (s : State) (before : State → State) : State :=
  let k := s.cur
  s.afterOuts Out.sideEffect fun s =>
    let s := if isHandler k then s.flushReplies s.myCore else s
    if isHandler k && !(s.core s.myCore).sending.isEmpty then s.onMe Ctx.again
    else ((before s).launchTaskEnded s.me.task.launch false).freeContext k

/-- R216. -/
def execHalt (sb : Bool) (s : State) : Result :=
  .next (s.unlessAttempt (Instr.halt sb).word fun s => s.halt id)

/-- R177, R216. In an attempt it is forbidden before it is illegal in a handler (R218, R299; DEDUCED, log 53). -/
def execHaltK (sb : Bool) (a b : BitVec 5) (s : State) : Result :=
  let w := (Instr.haltK sb a b).word
  let banks := s.me.getX a
  let entry := s.me.getX b
  .next (s.unlessAttempt w fun s =>
    if isHandler s.cur then s.illegal w
    else s.halt fun s => s.onCore s.myCore fun c =>
      { c with retain := some (banks &&& fieldMask (bankCount s.myLayer) 0, entry) })

/-- tail of R217: unfinished side effects go to the retirement tracker, the context becomes free. -/
def State.tail (s : State) : State :=
  let k := s.cur
  let core := s.myCore
  s.afterOuts (fun o => match o.op with | .send _ => true | _ => false) fun s =>
    if 8 ≤ (s.core core).tracker.length then s.onMe Ctx.again
    else
      let outs := s.me.outs.filter Out.sideEffect
      let l := s.me.task.launch
      let s := if outs.isEmpty then s.launchTaskEnded l false
        else s.onCore core fun c => { c with tracker := c.tracker ++ [(l, outs)] }
      s.freeContext k

/-- R217. In an attempt it is forbidden before it is illegal in a handler (R218, R299; DEDUCED, log 53). -/
def execTail (sb : Bool) (s : State) : Result :=
  let w := (Instr.tail sb).word
  .next (s.unlessAttempt w fun s => if isHandler s.cur then s.illegal w else s.tail)

end Sys2Proof.Machine
end

