-- ==== Sys2Proof/Machine/System.lean ====
section
/-! DEFINITION. Control registers, traps, translation control and counters (10_system R235 to R268; 02_words R36 to R38; the bit
maps of R101, R103, R106, R111, R136, R210, R225, R238, R239, R318, R319, R327, R342 to R346, R419, R424). -/

namespace Sys2Proof.Machine

/-! ### The register map (R37, R38) -/

/-- The control registers. Loop registers carry their level, copy registers their context and offset. -/
inductive CtlReg where
  | fpctl | nmode | mfmta | mfmtb | mfmtc | mscl
  | lc (n : BitVec 1) | ls (n : BitVec 1) | le (n : BitVec 1)
  | layerid | quadid | coreid | pcapcause
  | tlbase
  | copy (n off : Nat)
  | go (n : Nat)
  | tvec | tpc | tcause | tval | tstatus
  | xbound | mkeydom | mbdepth | dispth | fduty
deriving DecidableEq, Repr

/-- The register of an index (R37, R38). -/
def ctlReg (x : Nat) : Option CtlReg :=
  if 0x080 ≤ x ∧ x < 0x100 then
    let off := x % 32
    if off < 15 then some (.copy (x / 32 - 4) off) else if off = 15 then some (.go (x / 32 - 4)) else none
  else match x with
    | 0x000 => some .fpctl | 0x001 => some .nmode
    | 0x002 => some .mfmta | 0x003 => some .mfmtb | 0x004 => some .mfmtc | 0x005 => some .mscl
    | 0x010 => some (.lc 0) | 0x011 => some (.ls 0) | 0x012 => some (.le 0)
    | 0x013 => some (.lc 1) | 0x014 => some (.ls 1) | 0x015 => some (.le 1)
    | 0x020 => some .layerid | 0x021 => some .quadid | 0x022 => some .coreid | 0x023 => some .pcapcause
    | 0x030 => some .tlbase
    | 0x200 => some .tvec | 0x201 => some .tpc | 0x202 => some .tcause | 0x203 => some .tval | 0x204 => some .tstatus
    | 0x210 => some .xbound | 0x211 => some .mkeydom | 0x212 => some .mbdepth | 0x213 => some .dispth | 0x214 => some .fduty
    | _ => none

/-- Access classes (R36). -/
inductive AccessClass where
  | rw | ro | rws | go
deriving DecidableEq, Repr

def CtlReg.access : CtlReg → AccessClass
  | .layerid => .ro | .quadid => .ro | .coreid => .ro | .pcapcause => .ro | .tcause => .ro | .tval => .ro | .fduty => .ro
  | .tlbase => .rws | .tstatus => .rws | .mkeydom => .rws | .mbdepth => .rws | .dispth => .rws
  | .go _ => .go
  | _ => .rw

/-- Is the register of core, quad or partition scope (R37)? -/
def CtlReg.wide : CtlReg → Bool
  | .tlbase => true | .copy _ _ => true | .go _ => true | .xbound => true | .mkeydom => true | .mbdepth => true
  | .dispth => true | .layerid => true | .quadid => true | .coreid => true | .pcapcause => true | .fduty => true
  | _ => false

/-! ### Reading -/

/-- A loop level's register (R101). -/
def Ctx.level (c : Ctx) (n : BitVec 1) : LoopLevel := if n = 0 then c.lp0 else c.lp1

/-- le of R101. -/
def LoopLevel.leWord (l : LoopLevel) : Word := l.le ||| (if l.act then 1 <<< 63 else 0) ||| (if l.eb then 1 <<< 62 else 0)

/-- A register of a shadow set, by its offset (R38). -/
def CopyRegs.get (r : CopyRegs) (off : Nat) : Word :=
  if off = 0 then r.src
  else if off = 1 then r.dst
  else if off < 6 then r.ext.getD (off - 2) 0
  else if off < 10 then r.sstride.getD (off - 6) 0
  else if off < 14 then r.dstride.getD (off - 10) 0
  else r.fmt

/-- The same, written with the ignored bits discarded (R318, R319). -/
def CopyRegs.set (r : CopyRegs) (off : Nat) (v : Word) : CopyRegs :=
  let addr := v &&& fieldMask 57 0
  let half := v &&& fieldMask 32 0
  if off = 0 then { r with src := addr }
  else if off = 1 then { r with dst := addr }
  else if off < 6 then { r with ext := r.ext.set (off - 2) half }
  else if off < 10 then { r with sstride := r.sstride.set (off - 6) half }
  else if off < 14 then { r with dstride := r.dstride.set (off - 10) half }
  else { r with fmt := v &&& 0x7FFFF7F }

/-- PCAPCAUSE (R419). -/
def Part.pcapcause (p : Part) : Word :=
  word (p.epochs % 2 ^ 32 * 2 ^ 32 + p.last * 256 + (if p.emerg then 32 else 0) + p.cur)

/-- A copy context of a quad. -/
def Quad.copyCtx (q : Quad) (n : Nat) : CopyCtx := q.copy.get {} n

/-- Read of R235. -/
def ctlRead (s : State) (r : CtlReg) : Word :=
  let c := s.me
  let q := s.quad s.myQuad
  let co := s.core s.myCore
  match r with
  | .fpctl => c.ctl.fpctl
  | .nmode => c.ctl.nmode
  | .mfmta => c.ctl.mfmta
  | .mfmtb => c.ctl.mfmtb
  | .mfmtc => c.ctl.mfmtc
  | .mscl => c.ctl.mscl
  | .lc n => (c.level n).lc
  | .ls n => (c.level n).ls
  | .le n => (c.level n).leWord
  | .layerid => word s.myLayer
  | .quadid => word (quarterOf s.myQuad * 1024 + quadDie s.myQuad * 256 + quadY s.myQuad * 16 + quadX s.myQuad)
  | .coreid => word (s.myCore % 4)
  | .pcapcause => match s.partOf s.cur with | some (_, p) => p.pcapcause | none => 0
  | .tlbase => q.tlbase
  | .copy n off => (q.copyCtx n).regs.get off
  | .go _ => 0
  | .tvec => c.ctl.tvec
  | .tpc => c.ctl.tpc
  | .tcause => c.ctl.tcause
  | .tval => c.ctl.tval
  | .tstatus => c.tstatus
  | .xbound => q.xbound
  | .mkeydom => co.mkeydom
  | .mbdepth => word (s.requestOcc s.myCore * 256 + co.mbdepth)
  | .dispth => word (co.queue.length * 256 + co.thresh)
  | .fduty => word co.fduty

/-! ### Writing -/

/-- A write of a field with its stored clamp: 0 is stored as 1, more than `most` as `most` (R210, R225). -/
def clamped (v : Word) (most : Nat) : Nat := max 1 (min most (fld v 0 5))

/-- A write of a loop register (R99, R101); `at_` is the writing instruction's address. -/
def LoopLevel.writeLe (l : LoopLevel) (at_ v : Word) : LoopLevel :=
  let e := v &&& 0x3FFFFC
  { l with le := e, eb := l.act && decide (e.toNat < at_.toNat) }

/-- The register write of a context-scope register, and of those of wider scope that no rule refuses. -/
def ctlWrite (s : State) (r : CtlReg) (v : Word) : State :=
  let onCtl (f : Ctl → Ctl) : State := s.onMe fun c => { c with ctl := f c.ctl }
  match r with
  | .fpctl => onCtl fun c => { c with fpctl := fpctlStored v }
  | .nmode => onCtl fun c => { c with nmode := v &&& 1 }
  | .mfmta => onCtl fun c => { c with mfmta := v &&& 3 }
  | .mfmtb => onCtl fun c => { c with mfmtb := v &&& 3 }
  | .mfmtc => onCtl fun c => { c with mfmtc := v &&& 0x1D7 }
  | .mscl => onCtl fun c => { c with mscl := v &&& fieldMask 48 0 }
  | .lc n => s.onMe fun c => c.onLevel n fun l => { l with lc := v }
  | .ls n => s.onMe fun c => c.onLevel n fun l => { l with ls := v &&& 0x3FFFFC }
  | .le n => s.onMe fun c => c.onLevel n fun l => l.writeLe c.pc v
  | .copy n off => s.onQuad s.myQuad fun q =>
      let x := q.copyCtx n
      { q with copy := q.copy.put n { x with regs := x.regs.set off v } }
  | .tvec => onCtl fun c => { c with tvec := v &&& 0x3FFFFD }
  | .tpc => s.onMe fun c => { c with ctl := { c.ctl with tpc := setFld v 0 2 0 } }.dropReplay
  | .tstatus => onCtl fun c => { c with sys := bitAt v 0, psys := bitAt v 1, intrap := bitAt v 2 }
  | .xbound => s.onQuad s.myQuad fun q => { q with xbound := v }
  | .mkeydom => s.onCore s.myCore fun c => { c with mkeydom := v &&& 0xFFFF }
  | .mbdepth => s.onCore s.myCore fun c => { c with mbdepth := clamped v 16 }
  | .dispth => s.onCore s.myCore fun c => { c with thresh := clamped v 28 }
  | _ => s

/-- Is a value refused by XBOUND (R103)? -/
def xboundBad (layer : Nat) (v : Word) : Bool := fld v 0 12 != 0 || fld v 22 42 != 0 || decide (capacity layer < v.toNat)

/-- Is a value refused by TLBASE (R327)? -/
def tlbaseBad (v : Word) : Bool :=
  fld v 57 7 != 0 || fld v 0 7 != 0 || (v != 0 && decide (v.toNat < windowEnd))

/-- The DONE values of the five timelines of a quad (R327). -/
def Quad.dones (q : Quad) : List Nat := (List.range 4).map (fun n => (q.copyCtx n).done) ++ [q.tdone]

/-- A timeline whose word could not be written has TLF in its status word (R327); the fifth is the transfer engine's. -/
def Quad.markTlf (q : Quad) (n : Nat) : Quad :=
  if n = 4 then { q with tstatus := q.tstatus ||| (1 <<< 8) }
  else
    let x := q.copyCtx n
    { q with copy := q.copy.put n { x with status := x.status ||| (1 <<< 8) } }

/-- A write of TLBASE (R327): after the quad's engines, translated as a store; then each timeline's word is written. -/
def tlbaseWrite (s : State) (v : Word) (done : State → State) : State :=
  let quad := s.myQuad
  let q := s.quad quad
  if q.copy.any (fun e => !e.2.queue.isEmpty) || !q.tq.isEmpty then s.onMe Ctx.again
  else if v = 0 then done (s.onQuad quad fun q => { q with tlbase := 0 })
  else match globalCheck s s.cur .store v 0 with
    | (.no e, s) => s.deny e
    | (.ok r, s) =>
      let cells := q.dones.zipIdx.flatMap fun e => cellsOf (r.plus (8 * e.2)) 8 e.1
      if !s.mayWriteCells s.cur cells then s.onMe Ctx.again
      else
        let pasid := s.me.ctl.pasid
        let refused := (List.range 5).filter fun n => s.refuses (r.plus (8 * n))
        done ((s.writeCells s.cur (s.served cells)).onQuad quad fun q => refused.foldl Quad.markTlf { q with tlbase := v, tlpasid := pasid })

/-- Write of R235, with the refusals of XBOUND and TLBASE; `done` is what follows a write that is not refused. -/
def ctlStore (s : State) (r : CtlReg) (v : Word) (done : State → State) : State :=
  match r with
  | .xbound => if xboundBad s.myLayer v then s.trap cAccess v else done (ctlWrite s r v)
  | .tlbase => if tlbaseBad v then s.trap cAccess v else tlbaseWrite s v done
  | _ => done (ctlWrite s r v)

/-- May the register be written by the context (R36, R237)? -/
def CtlReg.writable (r : CtlReg) (sys : Bool) : Bool :=
  match r.access with
  | .rw => true | .rws => sys | .ro => false | .go => false

/-- A write form (R235, R269, R299): its value from the old one, and xd where it has one. -/
def ctlForm (w : Word32) (x : BitVec 12) (d : Option (BitVec 5)) (f : Word → Word) (s : State) : Result :=
  match ctlReg x.toNat with
  | none => .next (s.illegal w)
  | some r =>
    if !r.writable s.me.ctl.sys then .next (s.illegal w)
    else
      let old := ctlRead s r
      let effect (s : State) : State := ctlStore s r (f old) fun s => s.step1 fun c => match d with | none => c | some d => c.setX d old
      if r.wide then .next (s.unlessAttempt w effect) else .next (effect s)

/-- R235. -/
def execCtlrd (sb : Bool) (d : BitVec 5) (x : BitVec 12) (s : State) : Result :=
  match ctlReg x.toNat with
  | none => .next (s.illegal (Instr.ctlrd sb d x).word)
  | some (.go _) => .next (s.illegal (Instr.ctlrd sb d x).word)
  | some r => .next (s.writesX d (ctlRead s r))

/-- R235. -/
def execCtlwr (sb : Bool) (a : BitVec 5) (x : BitVec 12) (s : State) : Result :=
  let xa := s.me.getX a
  ctlForm (Instr.ctlwr sb a x).word x none (fun _ => xa) s

/-- R235. -/
def execCtlset (sb : Bool) (d a : BitVec 5) (x : BitVec 12) (s : State) : Result :=
  let xa := s.me.getX a
  ctlForm (Instr.ctlset sb d a x).word x (some d) (fun old => old ||| xa) s

/-- R235. -/
def execCtlclr (sb : Bool) (d a : BitVec 5) (x : BitVec 12) (s : State) : Result :=
  let xa := s.me.getX a
  ctlForm (Instr.ctlclr sb d a x).word x (some d) (fun old => old &&& ~~~xa) s

/-! ### Traps and translation control -/

/-- Does the context run a handler that was entered within its irrevocable attempt (R246)? -/
def Ctx.inHandler (c : Ctx) : Bool := match c.attempt with | some a => a.irrevocable && decide (0 < a.traps) | none => false

/-- R244: it needs system state (R237). In an irrevocable attempt, whose traps are taken as outside one, it returns, and the attempt goes
on (R246) (DEDUCED, log 53). -/
def execEret (sb : Bool) (s : State) : Result :=
  let w := (Instr.eret sb).word
  if !s.me.ctl.sys then .next (s.illegal w)
  else if s.me.inHandler then .next (s.onMe Ctx.leave)
  else .next (s.unlessAttempt w fun s => s.onMe Ctx.leave)

/-- R104: it waits for the context's stores to the local window, then empties its instruction buffer. -/
def execIfence (sb : Bool) (s : State) : Result :=
  .next (s.unlessAttempt (Instr.ifence sb).word fun s =>
    s.afterOuts (fun o => o.isStore && o.isLocal) fun s => s.step1 fun c => { c with ibuf := [] })

/-- TLB entries and cached records that a test selects leave every quad and quarter of a partition (R266, R267, R333). -/
def State.flushTlb (s : State) (quarters : Nat) (hit : Tlb → Bool) (hitRecord : CachedRecord → Bool) : State :=
  { s with
    quads := s.quads.mapVals fun k q =>
      if quarters.testBit (quarterOf k) then
        { q with tlb := q.tlb.filter fun t => !hit t, records := q.records.filter fun r => !hitRecord r }
      else q
    quarters := s.quarters.mapVals fun k q =>
      if quarters.testBit k then { q with tlb := q.tlb.filter fun t => !hit t, used := q.used.filter fun t => !hit t } else q }

/-- The promoted blocks of a page are written back and discarded (R194). -/
def State.demote (s : State) (lo hi : Nat) : State :=
  { s with dies := s.dies.mapVals fun _ d => { d with
      promoted := d.promoted.filter fun b => decide ((b + 1) * 65536 ≤ lo) || decide (hi ≤ b * 65536)
      hints := d.hints.filter fun e => decide ((e.1 + 1) * 65536 ≤ lo) || decide (hi ≤ e.1 * 65536) } }

/-- The pages whose translations an invalidation removes: those that the TLBs of a partition hold, or have held since their last
invalidation (R194, R266). -/
def cachedPages (s : State) (quarters : Nat) (hit : Tlb → Bool) : List Tlb :=
  (s.quads.flatMap fun e => if quarters.testBit (quarterOf e.1) then e.2.tlb.filter hit else []) ++
    s.quarters.flatMap fun e => if quarters.testBit e.1 then (e.2.tlb ++ e.2.used).filter hit else []

/-- Does an outstanding access use a page? -/
def Out.uses (o : Out) (t : Tlb) : Bool :=
  o.pending && o.ranges.any fun r => !r.1 && decide (t.pa ≤ r.2.1) && decide (r.2.1 < t.pa + 2 ^ t.bits)

/-- Every access by a context of the partition that used one of the pages is performed (R266); false where one cannot be. -/
def State.drainContexts (s : State) (quarters : Nat) (pages : List Tlb) : State × Bool :=
  s.ctxs.foldl (fun (acc : State × Bool) e =>
    if quarters.testBit (quarterOf (quadOf e.1)) then
      let ours := pages.filter fun t => t.pasid == e.2.ctl.pasid
      let r := acc.1.require e.1 fun o => !(e.2.halted && o.pure) && ours.any o.uses
      (r.1.endIfDone e.1, acc.2 && r.2)
    else acc) (s, true)

/-- The same for the accesses that ended tasks have left in the retirement trackers (R217). -/
def State.drainTrackers (s : State) (quarters : Nat) (pages : List Tlb) : State × Bool :=
  let uses (t : Option Nat × List Out) : Bool := t.2.any fun o => pages.any o.uses
  let ours (e : Nat × Core) : Bool := quarters.testBit (quarterOf (quadOfCore e.1))
  let s := (s.cores.filter fun e => ours e && e.2.tracker.any uses).foldl (fun s e =>
    (List.range e.2.tracker.length).reverse.foldl (fun s i => s.retireEntry e.1 i) s) s
  (s, !s.cores.any fun e => ours e && e.2.tracker.any uses)

/-- Every access by a context or an ended task of the partition that used one of the pages is performed (R194, R266). -/
def State.drainPages (s : State) (quarters : Nat) (pages : List Tlb) : State × Bool :=
  let r := s.drainContexts quarters pages
  let q := r.1.drainTrackers quarters pages
  (q.1, r.2 && q.2)

/-- Is a gang in one of some quarters? -/
def gangIn (quarters gang : Nat) : Bool := quarters.testBit (quarterOf (quadOfCore (coreOfGang gang 0)))

/-- Does a page hold a physical address? -/
def Tlb.covers (t : Tlb) (pa : Nat) : Bool := decide (t.pa ≤ pa) && decide (pa < t.pa + 2 ^ t.bits)

/-- Was a physical address reached through one of some pages of a space? -/
def reachedBy (pages : List Tlb) (pasid pa : Nat) : Bool := pages.any fun t => t.pasid == pasid && t.covers pa

/-- Was a completion word reached so? -/
def cwordBy (pages : List Tlb) (pasid : Nat) (c : CWord) : Bool := match c with | some r => reachedBy pages pasid r.addr | none => false

/-- Is a member's completion word still to be added to through one of some pages? -/
def Member.uses (pages : List Tlb) (m : Member) : Bool := cwordBy pages m.pasid m.cword

/-- Has a gang accepted an operation that is still to read or write through one of some pages: a load of buffer G, a member, or an
mgang past the barrier or, with `barrier`, at it (R266)? -/
def Gang.uses (g : Gang) (pages : List Tlb) (barrier : Bool) : Bool :=
  g.loads.any (fun l => reachedBy pages l.pasid l.id.pa || cwordBy pages l.pasid l.cword) ||
    g.insts.any (fun e => e.2.members.any (·.uses pages)) ||
    (barrier && g.arrivals.any fun e => e.2.m.uses pages) || g.ready.any (fun r => r.2.any fun e => e.2.m.uses pages) ||
    g.runs.any fun r => r.left.any fun x => x.m.uses pages

/-- Every instance with a member whose image was translated through a page that goes becomes DUE (R361). -/
def State.dueThrough (s : State) (quarters : Nat) (hit : Tlb → Bool) : State :=
  let now := s.now
  { s with gangs := s.gangs.mapVals fun k g =>
      if gangIn quarters k then
        { g with insts := g.insts.mapVals fun _ i => if i.members.any (fun m => hit m.page) then i.makeDue now else i }
      else g }

/-- Has such an instance still to read its image? -/
def unreadThrough (s : State) (quarters : Nat) (hit : Tlb → Bool) : Bool :=
  s.gangs.any fun e => gangIn quarters e.1 && e.2.insts.any fun i => i.2.image.isNone && i.2.members.any fun m => hit m.page

/-- Instances with a member whose completion word lies in one of some pages become DUE (DEDUCED, log 67). -/
def State.dueWords (s : State) (quarters : Nat) (pages : List Tlb) : State :=
  let now := s.now
  { s with gangs := s.gangs.mapVals fun k g =>
      if gangIn quarters k then
        { g with insts := g.insts.mapVals fun _ i => if i.members.any (·.uses pages) then i.makeDue now else i }
      else g }

/-- Does an open attempt of a context of the partition hold back a store through one of some pages (R194, R266, R298)? -/
def heldBack (s : State) (quarters : Nat) (pages : List Tlb) : Bool :=
  s.ctxs.any fun e => quarters.testBit (quarterOf (quadOf e.1)) && match e.2.openAttempt with
    | some a => a.levels.any fun l => l.buf.any fun b => !b.r.isLocal && reachedBy pages e.2.ctl.pasid b.r.addr
    | none => false

/-- What used the translations that a test selects comes to an end, as far as it can now: accesses are performed, instances become DUE; and
whether all of it has (R194, R266, R361). With `barrier`, arrivals at a barrier that is not complete count too. -/
def State.pagesDone (s : State) (quarters : Nat) (hit : Tlb → Bool) (barrier : Bool) : State × Bool :=
  let pages := cachedPages s quarters hit
  match s.drainPages quarters pages with
  | (s, false) => (s, false)
  | (s, true) =>
    let s := (s.dueThrough quarters hit).dueWords quarters pages
    (s, !(heldBack s quarters pages || unreadThrough s quarters hit || s.gangs.any fun e => gangIn quarters e.1 && e.2.uses pages barrier))

/-- The translations that a test selects go, and promoted blocks under their pages (R194, R266). -/
def State.dropPages (s : State) (quarters : Nat) (hit : Tlb → Bool) (hitRecord : CachedRecord → Bool) : State :=
  (cachedPages s quarters hit).foldl (fun s t => s.demote t.pa (t.pa + 2 ^ t.bits)) (s.flushTlb quarters hit hitRecord)

/-- An invalidation by the context whose turn it is: what it selects goes, after the accesses that used it and the image reads
of the stackers (R194, R266, R361). -/
def State.invalidate (s : State) (hit : Tlb → Bool) (hitRecord : CachedRecord → Bool) : State :=
  match s.partOf s.cur with
  | none => s.step1 id
  | some (_, p) =>
    match s.pagesDone p.quarters hit true with
    | (s, false) => s.onMe Ctx.again
    | (s, true) => (s.dropPages p.quarters hit hitRecord).step1 id

/-- R266. -/
def execTlbinv (sb : Bool) (a : BitVec 5) (s : State) : Result :=
  let w := (Instr.tlbinv sb a).word
  let xa := s.me.getX a
  if !s.me.ctl.sys then .next (s.illegal w)
  else .next (s.unlessAttempt w fun s =>
    if isLocal xa then s.step1 id
    else if fld xa 57 7 ≠ 0 then s.trap cAccess xa
    else
      let pasid := s.me.ctl.pasid
      let inPage (lo n : Nat) : Bool := decide (lo ≤ xa.toNat) && decide (xa.toNat < lo + n)
      let hit (t : Tlb) : Bool := t.pasid == pasid && inPage t.base (2 ^ t.bits)
      let bits := ((cachedPages s 0xFFFF hit).map (·.bits)).foldl max 16
      let lo := xa.toNat / 2 ^ bits * 2 ^ bits
      s.invalidate hit fun r => r.pasid == pasid && decide (lo ≤ r.va.toNat) && decide (r.va.toNat < lo + 2 ^ bits))

/-- R267. -/
def execTlbinvAs (sb : Bool) (a : BitVec 5) (s : State) : Result :=
  let w := (Instr.tlbinvAs sb a).word
  let xa := s.me.getX a
  if !s.me.ctl.sys then .next (s.illegal w)
  else .next (s.unlessAttempt w fun s =>
    let held := match s.partOf s.cur with | some (_, p) => p.pasids.any (fun e => e.1 == xa.toNat) | none => false
    if fld xa 20 44 ≠ 0 || !held then s.trap cAccess xa
    else s.invalidate (fun t => t.pasid == xa.toNat) fun r => r.pasid == xa.toNat)

/-- Instructions issued by a core: by its five contexts (R268). -/
def coreIssued (s : State) (core : Nat) : Nat := ((List.range 5).map fun i => (s.ctx (8 * core + i)).issued).foldl (· + ·) 0

/-- Counter n of R268. Cycles and L1 misses are counts that the model does not make: free values (DESIGN CHOICE, log 6). -/
def perfCounter (s : State) (n : Nat) : Word :=
  match n with
  | 0 => Config.freeCount s.free
  | 1 => word s.me.issued
  | 2 => word (coreIssued s s.myCore)
  | 3 => Config.freeCount s.free
  | 4 => Config.freeCount s.free
  | 5 => word ((s.quad s.myQuad).misses.get 0 (s.myCore % 4))
  | 6 => word s.me.slept
  | 7 => word (s.core s.myCore).refusals
  | 8 => Config.freeCount s.free
  | _ => 0

/-- R268: the counter of number xa[7:0] (that bits [63:8] select none, and that counters run on across tasks: DESIGN CHOICE, log 24). -/
def execPerfrd (d a : BitVec 5) (s : State) : Result :=
  let v := perfCounter s (fld (s.me.getX a) 0 8)
  .next (({ s with free := s.free + 1 } : State).writesX d v)

/-- R245. -/
def execBrk (s : State) : Result := .next (s.trap cBreak 0)

/-- R245: TPC is the address of the next word. -/
def execTrap (c : BitVec 12) (s : State) : Result :=
  .next (s.cause cTrap (zimm c) (s.me.pc + 4) true)

end Sys2Proof.Machine
end

