-- ==== Sys2Proof/Machine/Copy.lean ====
section
/-! DEFINITION. The copy engine: copies, gathers, scatters, their records and timelines (13_copy R317 to R339). -/

namespace Sys2Proof.Machine

/-! ### Conversions of a copy (R320) -/

/-- One side of a copy: raw elements of a size, elements of a floating type code, or blocks of a block code. -/
inductive Side where
  | raw (bytes : Nat)
  | elem (t : Nat)
  | block (q : Nat)
deriving DecidableEq, Repr

/-- The type code of FP8 code e. -/
def fp8 (e : Nat) : Nat := 8 + e

/-- The two sides of a conversion code; none where it is unassigned. -/
def convSides (c : Nat) : Option (Side × Side) :=
  if c < 4 then some (.raw (2 ^ c), .raw (2 ^ c))
  else if c < 0x10 then none
  else if c < 0x20 then
    let s := (c - 0x10) / 4
    let d := c % 4
    if s = d then none else some (.elem s, .elem d)
  else if c < 0x28 then some (.elem (c % 4), .elem (fp8 (c / 4 % 2)))
  else if c < 0x30 then some (.elem (fp8 (c / 4 % 2)), .elem (c % 4))
  else if c = 0x30 then some (.elem 8, .elem 9)
  else if c = 0x31 then some (.elem 9, .elem 8)
  else if c < 0x40 then none
  else if c < 0x4C then some (.elem (c % 4), .block (10 + (c - 0x40) / 4))
  else if c < 0x50 then none
  else if c < 0x56 then some (.elem (fp8 (c % 2)), .block (10 + (c - 0x50) / 2))
  else if c < 0x60 then none
  else if c < 0x6C then some (.block (10 + (c - 0x60) / 4), .elem (c % 4))
  else if c < 0x70 then none
  else if c < 0x76 then some (.block (10 + (c - 0x70) / 2), .elem (fp8 (c % 2)))
  else none

/-- Bytes of an element of a side; of a block side, 1. -/
def Side.bytes : Side → Nat
  | .raw n => n
  | .elem t => elemSize t
  | .block _ => 1

def Side.isBlock : Side → Bool
  | .block _ => true | _ => false

/-! ### The fields of CPFMT (R319) -/

def CopyRegs.conv (r : CopyRegs) : Nat := fld r.fmt 0 7

/-- The role that SMODE and SOBJ, and DMODE and DOBJ, give. -/
def CopyRegs.srcRole (r : CopyRegs) : Role :=
  let o := fld r.fmt 8 6
  match fld r.fmt 14 2 with | 0 => .addr | 1 => .consume o | 2 => .keep o | _ => .pop o
def CopyRegs.dstRole (r : CopyRegs) : Role :=
  let o := fld r.fmt 16 6
  match fld r.fmt 22 2 with | 0 => .addr | 1 => .fill o | 3 => .push o | _ => .addr

/-- The effective rounding mode: RM with USERM, else that of the launching context. -/
def CopyRegs.mode (r : CopyRegs) (rm : Nat) : Nat := if bitAt r.fmt 26 then fld r.fmt 24 2 else rm

/-! ### The check of a launch (R323) -/

def CopyRegs.extents (r : CopyRegs) : List Nat := r.ext.map BitVec.toNat

/-- The offset of the first register of a list that fails a test. -/
def firstBad (l : List (Nat × Bool)) : Option Nat := (l.find? fun e => e.2).map (·.1)

/-- The bytes that a walk reaches below and above its base offset: the least offset, and one past the greatest (R323 step 8). -/
def walkSpan (base : Word) (ext strides : List Word) (bytes : Nat) : Int × Int :=
  let steps := (ext.zip strides).map fun e => ((e.1.toNat : Int) - 1) * sint e.2.toNat 32
  let lo := (steps.map fun x => min x 0).foldl (· + ·) (base.toNat : Int)
  let hi := (steps.map fun x => max x 0).foldl (· + ·) (base.toNat : Int)
  (lo, hi + bytes)

/-- The tests of R323 in their order: the offset in the shadow set of the register that fails first. -/
def CopyRegs.check (r : CopyRegs) (q : Quad) : Option Nat :=
  let ringBad : Role → Bool
    | .push n => decide (7 < n) | .pop n => decide (7 < n) | _ => false
  match convSides r.conv with
  | none => some 14
  | some (a, b) =>
    let src := r.src.toNat
    let dst := r.dst.toNat
    let inside (role : Role) (base : Word) (strides : List Word) (bytes : Nat) : Bool :=
      role.object.isNone ||
        (let w := walkSpan base r.ext strides bytes
         decide (0 ≤ w.1) && decide (w.2 ≤ role.size q))
    let unit (sd : Side) (i : Nat) (strides : List Word) : List (Nat × Bool) :=
      if sd.isBlock then [] else strides.zipIdx.map fun e => (i + e.2, e.1.toNat % sd.bytes != 0)
    let aligned (sd : Side) (at_ : Nat) : Bool := match sd with | .block q => at_ % mantBytes q != 0 | _ => false
    let anyBlock := a.isBlock || b.isBlock
    if fld r.fmt 22 2 = 2 || ringBad r.srcRole || ringBad r.dstRole then some 14
    else if !r.srcRole.bound q || !r.dstRole.bound q then some 14
    else (firstBad (r.extents.zipIdx.map fun e => (2 + e.2, e.1 == 0))).or <|
      if 2 ^ 40 ≤ r.extents.foldl (· * ·) 1 then some 5
      else (firstBad [(0, src % a.bytes != 0), (1, dst % b.bytes != 0)]).or <|
        (firstBad (unit a 6 r.sstride ++ unit b 10 r.dstride)).or <|
          (if anyBlock then
            firstBad [(14, (a.isBlock && r.srcRole.object.isSome) || (b.isBlock && r.dstRole.object.isSome)),
              (2, r.extents.getD 0 1 % 32 != 0), (5, r.extents.getD 3 1 != 1), (0, aligned a src), (1, aligned b dst)]
          else none).or <|
            if (a.isBlock || inside r.srcRole r.src r.sstride a.bytes) && (b.isBlock || inside r.dstRole r.dst r.dstride b.bytes)
            then none else some 14

/-! ### Launches -/

/-- The next operation of a copy context is latched (R323, R334): roles taken, ISSUED raised, xd the number. -/
def State.latch (s : State) (n : Nat) (d : BitVec 5) (src dst : Role) (sAddr dAddr : Word) (rm : Nat) (work : CopyWork) : State :=
  let quad := s.myQuad
  let (s, sb, sid) := s.takeRole quad src
  let (s, db, did) := s.takeRole quad dst
  let c := s.me
  let num := ((s.quad quad).copyCtx n).issued + 1
  let op : CopyOp :=
    { num, work, sbase := word sb + sAddr, dbase := word db + dAddr, rm := word rm, nxm := c.nxm, pasid := c.ctl.pasid
      sslot := sid, dslot := did, launch := c.task.launch, gate := c.gate s.cur 1 }
  (s.onQuad quad fun q =>
    let x := q.copyCtx n
    { q with copy := q.copy.put n { x with queue := x.queue ++ [op], issued := num } }).issueStart d (word num) op.gate

/-- The waits of a launch (R166, R174, R323): the first role that is not met is slept on; a full queue is waited for. Earlier accesses are not:
the operation's first access waits for them (R328). -/
def State.launchWait (s : State) (w : Word32) (n : Nat) (src dst : Role) (effect : State → State) : State :=
  let q := s.quad s.myQuad
  match (if src.met q then none else src.object).or (if dst.met q then none else dst.object) with
  | some o => s.waitOn w o
  | none =>
    if 4 ≤ (q.copyCtx n).queue.length then s.onMe Ctx.again else effect s

/-- ctlrd of CPGO0 to CPGO3 (R323): a release (R328). -/
def execCpgoRead (sb : Bool) (d : BitVec 5) (n : BitVec 2) (s : State) : Result :=
  let w := (Instr.cpgoRead sb d n).word
  let index := 0x80 + 0x20 * n.toNat
  .next (s.unlessAttempt w fun s =>
    if s.me.task.portable then s.trap cAccess (word (index + 15))
    else
      let q := s.quad s.myQuad
      let r := (q.copyCtx n.toNat).regs
      match r.check q with
      | some off => s.trap cAccess (word (index + off))
      | none =>
        let src := r.srcRole
        let dst := r.dstRole
        s.launchWait w n.toNat src dst fun s => s.latch n.toNat d src dst r.src r.dst (r.mode s.me.rm) (.copy r))

/-! ### Shape records (R332, R333) -/

/-- The shadow set that a record of R68 gives, over the set it replaces. -/
def CopyRegs.ofRecord (old : CopyRegs) (bs : List Byte) : CopyRegs :=
  let n := natOfBytes bs
  let at_ (off len : Nat) : Nat := n / 2 ^ (8 * off) % 2 ^ (8 * len)
  let four (off : Nat) : List Word := (List.range 4).map fun i => word (at_ (off + 4 * i) 4)
  { src := word (at_ 0 8 % 2 ^ 57), dst := word (at_ 8 8 % 2 ^ 57), ext := four 0x10, sstride := four 0x20, dstride := four 0x30
    fmt := setFld old.fmt 0 7 (at_ 0 8 / 2 ^ 57) }

/-- A record put at the head of the cache of 16 entries, the least recently used replaced (R333). -/
def cacheRecord (l : List CachedRecord) (r : CachedRecord) : List CachedRecord :=
  (r :: l.filter fun e => !(e.pasid == r.pasid && e.va == r.va)).take 16

/-- The shadow set is filled from a record (R332). -/
def State.fillShadow (s : State) (xa : Word) (n : Nat) (bs : List Byte) : State :=
  if natOfBytes (bs.drop 8) / 2 ^ 57 % 128 ≠ 0 then s.trap cAccess (xa + 8)
  else (s.onQuad s.myQuad fun q =>
    let x := q.copyCtx n
    { q with copy := q.copy.put n { x with regs := x.regs.ofRecord bs } }).step1 id

/-- R332. A hit in the record cache reads no memory, so that it finds no fault of the record's address either, such as that of a portable
task at a local one (DEDUCED, log 72). -/
def execCprec (sb : Bool) (a b : BitVec 5) (s : State) : Result :=
  let xa := s.me.getX a
  let n := fld (s.me.getX b) 0 2
  let quad := s.myQuad
  .next (s.unlessAttempt (Instr.cprec sb a b).word fun s =>
    let pasid := s.me.ctl.pasid
    let enter (bs : List Byte) (s : State) : State :=
      (s.onQuad quad fun q => { q with records := cacheRecord q.records { pasid, va := xa, bytes := bs } }).fillShadow xa n bs
    if xa.toNat % 64 ≠ 0 then s.trap cMisaligned xa
    else match (s.quad quad).records.find? fun r => r.pasid == pasid && r.va == xa with
      | some r => enter r.bytes s
      | none => s.readRecord xa 64 enter)

/-- R333. -/
def execRcfence (sb : Bool) (s : State) : Result :=
  .next (s.unlessAttempt (Instr.rcfence sb).word fun s =>
    (s.onQuad s.myQuad fun q => { q with records := [] }).step1 id)

/-! ### Gather and scatter (R334) -/

/-- The descriptor as its 64 bytes give it. -/
def GatherRegs.of (scatter : Bool) (bs : List Byte) : GatherRegs :=
  let n := natOfBytes bs
  let at_ (off len : Nat) : Nat := n / 2 ^ (8 * off) % 2 ^ (8 * len)
  { scatter, index := word (at_ 0 8), count := at_ 8 4, rowsize := at_ 0xC 4, table := word (at_ 0x10 8), extent := at_ 0x18 8
    local_ := word (at_ 0x20 8), lkind := at_ 0x28 1, lobj := at_ 0x29 1 }

/-- The role of the local side. -/
def GatherRegs.role (g : GatherRegs) : Role :=
  if g.scatter then (match g.lkind with | 1 => .consume g.lobj | 2 => .keep g.lobj | 3 => .pop g.lobj | _ => .addr)
  else (match g.lkind with | 1 => .fill g.lobj | 3 => .push g.lobj | _ => .addr)

/-- The offset of the first field that breaks a limit (R334): of several the lowest, and with an LKIND or an LOBJ that breaks its own there
is no region to hold LOCAL against; a tile or ring in range that is not bound breaks the limit of LOBJ (DEDUCED, log 30). -/
def GatherRegs.bad (g : GatherRegs) (q : Quad) (layer : Nat) (reserved : Nat) : Option Nat :=
  let region := if g.lkind = 0 then capacity layer else g.role.size q
  let kindBad := decide (3 < g.lkind) || (!g.scatter && g.lkind == 2)
  let objBad := g.lkind != 0 && (decide ((if g.lkind = 3 then 7 else 63) < g.lobj) || !g.role.bound q)
  firstBad [(0x00, g.index.toNat % 8 != 0), (0x08, g.count == 0 || decide (2 ^ 20 < g.count)),
    (0x0C, g.rowsize % 8 != 0 || decide (g.rowsize < 8) || decide (65536 < g.rowsize)),
    (0x10, g.table.toNat % 8 != 0 || isLocal g.table), (0x18, g.extent == 0),
    (0x20, g.local_.toNat % 8 != 0 || (!kindBad && !objBad && decide (region < g.local_.toNat + g.count * g.rowsize))),
    (0x28, kindBad), (0x29, objBad), (0x2A, reserved != 0)]

/-- A gather or scatter (R334). -/
def gatherOp (scatter : Bool) (w : Word32) (d a b : BitVec 5) (s : State) : Result :=
  let xa := s.me.getX a
  let n := fld (s.me.getX b) 0 2
  .next (s.unlessAttempt w fun s =>
    if s.me.task.portable then s.trap cAccess xa
    else s.readRecord xa 64 fun bs s =>
      let g := GatherRegs.of scatter bs
      match g.bad (s.quad s.myQuad) s.myLayer (natOfBytes (bs.drop 0x2A)) with
      | some off => s.trap cAccess (xa + word off)
      | none => s.launchWait w n g.role .addr fun s => s.latch n d g.role .addr g.local_ 0 s.me.rm (.gather g))

/-- R334. -/
def execGather (sb : Bool) (d a b : BitVec 5) (s : State) : Result := gatherOp false (Instr.gather sb d a b).word d a b s
/-- R334. -/
def execScatter (sb : Bool) (d a b : BitVec 5) (s : State) : Result := gatherOp true (Instr.scatter sb d a b).word d a b s

/-- R331. -/
def execCpabort (sb : Bool) (a : BitVec 5) (s : State) : Result :=
  let n := fld (s.me.getX a) 0 2
  .next (s.unlessAttempt (Instr.cpabort sb a).word fun s =>
    (s.onQuad s.myQuad fun q =>
      let x := q.copyCtx n
      { q with copy := q.copy.put n { x with queue := x.queue.map fun o => if o.finished then o else { o with abort := true } } }).step1 id)

/-- R329: item 2 clears the status word that it returns. -/
def execTlrd (sb : Bool) (d a : BitVec 5) (s : State) : Result :=
  let xa := s.me.getX a
  let t := fld xa 0 3
  let w := fld xa 8 2
  .next (s.unlessAttempt (Instr.tlrd sb d a).word fun s =>
    let q := s.quad s.myQuad
    if 4 < t then s.trap cAccess xa
    else if t = 4 then
      let v : Word := match w with | 0 => word q.tdone | 1 => word q.tissued | 2 => q.tstatus | _ => 0
      (if w = 2 then s.onQuad s.myQuad fun q => { q with tstatus := 0 } else s).issueXValue d v
    else
      let x := q.copyCtx t
      let v : Word := match w with | 0 => word x.done | 1 => word x.issued | 2 => x.status | _ => if bitAt x.status 16 then x.faddr else 0
      (if w = 2 then s.onQuad s.myQuad fun q => { q with copy := q.copy.put t { x with status := 0 } } else s).issueXValue d v)

/-! ### The engine at work (R321, R322, R325, R335) -/

/-- The offset of element k of a walk (R321). -/
def walkOffset (ext strides : List Word) (k : Nat) : Word :=
  ((ext.zip strides).foldl (fun (acc : Nat × Word) e =>
    (acc.1 / e.1.toNat, acc.2 + word (acc.1 % e.1.toNat) * sext e.2.toNat 32)) (k, 0)).2

/-- How many elements, blocks or positions an operation has. -/
def CopyOp.total (o : CopyOp) : Nat :=
  match o.work with
  | .gather g => g.count
  | .copy r =>
    let n := r.extents.foldl (· * ·) 1
    match convSides r.conv with
    | some (a, b) => if a.isBlock || b.isBlock then n / 32 else n
    | none => 0

/-- What one element, block or position comes to: what it places, its conditions and OOR, and the words that the operation has read
by then; or its failure, with what it places and the conditions before that (R121, R325). -/
inductive Moved where
  | done (s : State) (new : List Placed) (cond : Nat) (oor : Bool) (seen : Map (List Byte))
  | failed (s : State) (f : EngineFault) (at_ : Word) (new : List Placed) (cond : Nat)

/-- A list of checks of an engine, in order: references, or the first failure with its address. -/
def engineChecks (s : State) (quad pasid : Nat) (write host : Bool) (n : Nat) : List Word → (Except (EngineFault × Word) (List Ref)) × State
  | [] => (.ok [], s)
  | a :: t =>
    match engineCheck s quad pasid a n n write host with
    | (.error f, s) => (.error (f, a), s)
    | (.ok r, s) =>
      match engineChecks s quad pasid write host n t with
      | (.ok l, s) => (.ok (r :: l), s)
      | (.error e, s) => (.error e, s)

/-- Bytes as 64-bit pieces of at most 8 bytes, with their addresses; a piece does not cross a dword. -/
def pieces (a : Word) (n : Nat) : List Word := (List.range (ceilDiv n 8)).map fun i => a + word (8 * i)

/-- A value of `n` bytes placed at an address, which is the one that FADDR names. -/
def placeAt (a : Word) (n v : Nat) : Placed := Placed.of 0 a a (bytesOfNat n v)

/-- The pieces of a longer value, 8 bytes at a time; FADDR names `first` of each. -/
def placePieces (first : Word → Word) (a : Word) (n v : Nat) : List Placed :=
  (pieces a n).zipIdx.map fun e => Placed.of 0 (first e.1) e.1 (bytesOfNat 8 (v / 2 ^ (64 * e.2)))

/-- The bytes of a reference as an engine reads them, and the machine with its banks powered up (R176). -/
def State.engineTake (s : State) (quad : Nat) (rs : List Ref) (n : Nat) : List Nat × State :=
  let s := s.powerUps quad rs
  (rs.map fun r => natOfBytes (s.engineRead quad r n), s)

/-! An aligned word that a copy reads for several elements is read once (R337): the words read so far stand in `CopyOp.seen`. -/

/-- The place of a reference's aligned 8-byte word among the words read. -/
def Ref.wordKey (r : Ref) : Nat := 2 * (r.addr / 8) + if r.isLocal then 1 else 0

/-- The bytes of a reference's aligned 8-byte word. -/
def State.engineWord (s : State) (quad : Nat) (r : Ref) : List Byte := s.engineRead quad { r with addr := r.addr / 8 * 8 } 8

/-- The words read so far, with those of some references. -/
def wordsOnce (s : State) (quad : Nat) (seen : Map (List Byte)) (rs : List Ref) : Map (List Byte) :=
  rs.foldl (fun m r => if m.has r.wordKey then m else m.put r.wordKey (s.engineWord quad r)) seen

/-- The value of an element of `n` bytes within one word: of the word as it was first read. -/
def State.readWithin (s : State) (quad : Nat) (seen : Map (List Byte)) (n : Nat) (r : Ref) : Nat :=
  natOfBytes (((seen.get (s.engineWord quad r) r.wordKey).drop (r.addr % 8)).take n)

/-- One element of a plain or converting copy (R321). -/
def copyElement (s : State) (quad : Nat) (o : CopyOp) (r : CopyRegs) (a b : Side) : Moved :=
  let sa := o.sbase + walkOffset r.ext r.sstride o.next
  let da := o.dbase + walkOffset r.ext r.dstride o.next
  match engineCheck s quad o.pasid sa a.bytes a.bytes false true with
  | (.error f, s) => .failed s f sa [] 0
  | (.ok src, s) =>
    match engineCheck s quad o.pasid da b.bytes b.bytes true true with
    | (.error f, s) => .failed s f da [] 0
    | (.ok _, s) =>
      let v := s.readWithin quad o.seen a.bytes src
      let c := match a, b with
        | .elem t, .elem u => convert t u o.nxm o.rm.toNat false v
        | _, _ => (v, 0)
      .done (s.powerUps quad [src]) [placeAt da b.bytes c.1] c.2 false (wordsOnce s quad o.seen [src])

/-- The addresses of the 32 elements of block b on the walked side. -/
def blockElems (base : Word) (ext strides : List Word) (b : Nat) : List Word :=
  (List.range 32).map fun i => base + walkOffset ext strides (32 * b + i)

/-- One block quantised (R118, R322). -/
def quantiseBlock (s : State) (quad : Nat) (o : CopyOp) (r : CopyRegs) (t q : Nat) : Moved :=
  match engineChecks s quad o.pasid false true (elemSize t) (blockElems o.sbase r.ext r.sstride o.next) with
  | (.error e, s) => .failed s e.1 e.2 [] 0
  | (.ok srcs, s) =>
    let ma := o.dbase + word (o.next * mantBytes q)
    let ea := o.dbase + sext (r.dstride.getD 3 0).toNat 32 + word o.next
    match engineChecks s quad o.pasid true true 8 (pieces ma (mantBytes q)) with
    | (.error e, s) => .failed s e.1 e.2 [] 0
    | (.ok _, s) =>
      match engineCheck s quad o.pasid ea 1 1 true true with
      | (.error f, s) => .failed s f ea [] 0
      | (.ok _, s) =>
        let f := (fmtOf t).getD .f64
        let blk := quantise (mantBits q) o.nxm (srcs.map fun e => f.value o.nxm (s.readWithin quad o.seen (elemSize t) e))
        .done (s.powerUps quad srcs) (placePieces id ma (mantBytes q) (packMants (mantBits q) blk.mants) ++ [placeAt ea 1 blk.scale])
          (blk.conds.foldl (· ||| ·) 0) false (wordsOnce s quad o.seen srcs)

/-- Elements of a dequantised block placed one by one, up to the first that fails (R325), with the conditions so far (R121). -/
def dequantElems (s : State) (quad : Nat) (o : CopyOp) (t : Nat) (seen : Map (List Byte)) (new : List Placed) (cond : Nat) :
    List (Word × Val) → Moved
  | [] => .done s new cond false seen
  | (a, v) :: rest =>
    match engineCheck s quad o.pasid a (elemSize t) (elemSize t) true true with
    | (.error f, s) => .failed s f a new cond
    | (.ok _, s) =>
      let c := ((fmtOf t).getD .f64).round o.nxm o.rm.toNat false v
      dequantElems s quad o t seen (new ++ [placeAt a (elemSize t) c.1]) (cond ||| c.2) rest

/-- One block dequantised (R119, R322). -/
def dequantiseBlock (s : State) (quad : Nat) (o : CopyOp) (r : CopyRegs) (q t : Nat) : Moved :=
  let ma := o.sbase + word (o.next * mantBytes q)
  let ea := o.sbase + sext (r.sstride.getD 3 0).toNat 32 + word o.next
  match engineChecks s quad o.pasid false true 8 (pieces ma (mantBytes q)) with
  | (.error e, s) => .failed s e.1 e.2 [] 0
  | (.ok ms, s) =>
    match engineCheck s quad o.pasid ea 1 1 false true with
    | (.error f, s) => .failed s f ea [] 0
    | (.ok er, s) =>
      let mants := ms.foldr (fun m acc => s.readWithin quad o.seen 8 m + 2 ^ 64 * acc) 0
      let vals := (List.range 32).map fun i => dequant o.nxm (s.readWithin quad o.seen 1 er) (mantAt (mantBits q) mants i)
      dequantElems (s.powerUps quad (ms ++ [er])) quad o t (wordsOnce s quad o.seen (ms ++ [er])) [] 0 ((blockElems o.dbase r.ext r.dstride o.next).zip vals)

/-- One position of a gather or scatter (R335, R336). A row whose address wraps into the local window is an access fault of the operation
(DEDUCED, log 72). -/
def gatherPosition (s : State) (quad : Nat) (o : CopyOp) (g : GatherRegs) : Moved :=
  let ia := g.index + word (8 * o.next)
  match engineCheck s quad o.pasid ia 8 8 false true with
  | (.error f, s) => .failed s f ia [] 0
  | (.ok ir, s) =>
    let (i, s) := s.engineTake quad [ir] 8
    let idx := i.getD 0 0
    let la := o.sbase + word (o.next * g.rowsize)
    let row := g.table + word (idx * g.rowsize)
    if g.extent ≤ idx then
      if g.scatter then .done s [] 0 true o.seen
      else match engineChecks s quad o.pasid true true 8 (pieces la g.rowsize) with
        | (.error e, s) => .failed s e.1 e.2 [] 0
        | (.ok _, s) => .done s (placePieces id la g.rowsize 0) 0 true o.seen
    else if isLocal row then .failed s .access row [] 0
    else match engineChecks s quad o.pasid g.scatter false 8 (pieces row g.rowsize) with
      | (.error e, s) => .failed s e.1 row [] 0
      | (.ok rs, s) =>
        match engineChecks s quad o.pasid (!g.scatter) true 8 (pieces la g.rowsize) with
        | (.error e, s) => .failed s e.1 e.2 [] 0
        | (.ok ls, s) =>
          let (v, s) := s.engineTake quad (if g.scatter then ls else rs) 8
          let to_ := if g.scatter then row else la
          .done s (v.zipIdx.map fun e =>
            let a := to_ + word (8 * e.2)
            Placed.of 0 (if g.scatter then row else a) a (bytesOfNat 8 e.1)) 0 false o.seen

/-- The next element, block or position of an operation. -/
def CopyOp.move (o : CopyOp) (s : State) (quad : Nat) : Moved :=
  match o.work with
  | .gather g => gatherPosition s quad o g
  | .copy r =>
    match convSides r.conv with
    | some (.elem t, .block q) => quantiseBlock s quad o r t q
    | some (.block q, .elem t) => dequantiseBlock s quad o r q t
    | some (a, b) => copyElement s quad o r a b
    | none => .done s [] 0 false o.seen

/-- A change to the first operation of a copy context's queue. -/
def State.onCopyOp (s : State) (quad n : Nat) (f : CopyOp → CopyOp) : State :=
  s.onQuad quad fun q =>
    let x := q.copyCtx n
    { q with copy := q.copy.put n { x with queue := match x.queue with | [] => [] | o :: t => f o :: t } }

/-- What elements place, added in walk order to what an operation is still to write. -/
def CopyOp.place (o : CopyOp) (new : List Placed) : CopyOp := { o with buf := o.buf ++ new }

/-- The words that later elements of a copy will still reach. -/
def CopyOp.laterWords (o : CopyOp) : List Word :=
  match o.work with
  | .gather _ => []
  | .copy r =>
    let ks := (List.range (o.total - o.next)).map (o.next + ·)
    (match convSides r.conv with
      | some (.elem _, .block q) => ks.flatMap fun k =>
        (o.dbase + sext (r.dstride.getD 3 0).toNat 32 + word k) :: pieces (o.dbase + word (k * mantBytes q)) (mantBytes q)
      | some (.block _, .elem _) => ks.flatMap (blockElems o.dbase r.ext r.dstride)
      | _ => ks.map fun k => o.dbase + walkOffset r.ext r.dstride k).map fun a => setFld a 0 3 0

/-- An operation is through once its walk is over and everything is written. -/
def CopyOp.through (o : CopyOp) : CopyOp := { o with finished := o.walked && o.buf.isEmpty }

/-- The word that an aligned address names as an engine would write it now. -/
def State.wordAt (s : State) (quad pasid : Nat) (a : Word) : Option Nat :=
  match (engineCheck s quad pasid a 8 8 true true).1 with
  | .ok r => some r.wordKey
  | .error _ => none

/-- Do two aligned addresses name one word now, through one mapping or two? -/
def State.oneWord (s : State) (quad pasid : Nat) (a b : Word) : Bool :=
  a == b || ((s.wordAt quad pasid a).isSome && s.wordAt quad pasid a == s.wordAt quad pasid b)

/-- Does a later placing join the word that is written now? A copy writes each word once (R337), the later element over the earlier
(R321); a row of a gather or scatter is written once for each position (R336). -/
def CopyOp.joins (o : CopyOp) (s : State) (quad : Nat) (p q : Placed) : Bool :=
  match o.work with
  | .gather _ => false
  | .copy _ => s.oneWord quad o.pasid p.dword q.dword

/-- May the word of a placing be written: the walk is over or, with `early`, no later element reaches it? -/
def CopyOp.ripe (o : CopyOp) (s : State) (quad : Nat) (early : Bool) (p : Placed) : Bool :=
  o.walked || (early && !o.laterWords.any (s.oneWord quad o.pasid p.dword))

/-- The first placing with those that join it, in walk order. -/
def CopyOp.wordOut (o : CopyOp) (s : State) (quad : Nat) (p : Placed) : Placed :=
  ((o.buf.drop 1).filter (o.joins s quad p)).foldl (fun x q => x.overlaid q.bytes) p

/-- What is still to be written after them. -/
def CopyOp.bufAfter (o : CopyOp) (s : State) (quad : Nat) (p : Placed) : List Placed := (o.buf.drop 1).filter fun q => !o.joins s quad p q

/-- May the words that an operation writes lie in host memory? Not the rows of a scatter's table (R335). -/
def CopyOp.toHost (o : CopyOp) : Bool := match o.work with | .gather g => !g.scatter | .copy _ => true

/-- A word is written by an engine in one access (R337): the machine and no failure, or the failure, which a host's refusal is too
(R180; DEDUCED, log 72); none while an irrevocable attempt holds its line. -/
def State.placeOut (s : State) (quad pasid : Nat) (host : Bool) (p : Placed) : Option (State × Option EngineFault) :=
  match engineCheck s quad pasid p.dword 8 8 true host with
  | (.error f, s) => some (s, some f)
  | (.ok r, s) =>
    if s.refuses r then some (s, some .access)
    else match s.engineWrite quad (p.bytes.map fun b => ({ r with addr := r.addr + b.1 }, b.2)) with
      | (s, true) => some (s, none)
      | (_, false) => none

/-- The operation at the head of a context's queue goes on by at most `k` elements or words. Its elements are read and converted in walk
order, up to the first failure or an abort (R325, R331); its words are written when the walk is over, or, with `early`, as soon as no
later element reaches them (DESIGN CHOICE, log 16). The first word that cannot be written ends it instead. -/
def copyRun (quad n : Nat) (early : Bool) : Nat → State → State
  | 0, s => s
  | k + 1, s =>
    match ((s.quad quad).copyCtx n).queue with
    | [] => s
    | o :: _ =>
      if o.finished then s
      else
        match o.buf.head?.filter (o.ripe s quad early) with
        | some p =>
          let rest := o.bufAfter s quad p
          match s.placeOut quad o.pasid o.toHost (o.wordOut s quad p) with
          | none => s
          | some (s, none) => copyRun quad n early k ((s.works quad 1).onCopyOp quad n fun o => { o with buf := rest }.through)
          | some (s, some f) =>
            s.onCopyOp quad n fun o => { o with walked := true, buf := [], fail := some (f.code, p.first) }.through
        | none =>
          if o.abort || o.walked then
            copyRun quad n early k (s.onCopyOp quad n fun o =>
              { o with started := true, walked := true, fail := if o.walked then o.fail else some (4, 0) }.through)
          else match o.move s quad with
            | .failed s f a new c =>
              copyRun quad n early k ((s.works quad 1).onCopyOp quad n fun o =>
                { o.place new with started := true, walked := true, fail := some (f.code, a), cond := o.cond ||| word c }.through)
            | .done s new c oor seen =>
              copyRun quad n early k ((s.works quad 1).onCopyOp quad n fun o =>
                { o.place new with
                  started := true, next := o.next + 1, seen, walked := decide (o.total ≤ o.next + 1)
                  cond := o.cond ||| word c, oor := o.oor || oor }.through)

/-- The status word after an operation retires (R330). -/
def CopyCtx.record (x : CopyCtx) (o : CopyOp) (tlf : Bool) : CopyCtx :=
  let st := x.status ||| o.cond ||| (if o.oor then 1 <<< 9 else 0) ||| (if tlf then 1 <<< 8 else 0)
  match o.fail with
  | none => { x with status := st }
  | some (reason, at_) =>
    if bitAt x.status 16 then { x with status := st }
    else { x with status := st ||| (1 <<< 16) ||| word (reason * 2 ^ 20 + o.num % 2 ^ 32 * 2 ^ 32), faddr := at_ }

/-- The roles of an operation. -/
def CopyOp.roles (o : CopyOp) : Role × Role :=
  match o.work with
  | .copy r => (r.srcRole, r.dstRole)
  | .gather g => (g.role, .addr)

/-- The first operation of a context retires once it has finished (R326): DONE, the timeline word, its tiles and rings. A ring that has to
wait for an earlier reservation changes later (R174), which the retirement does not wait for (DEDUCED, log 23). -/
def copyRetire (s : State) (quad n : Nat) : State :=
  let x := (s.quad quad).copyCtx n
  match x.queue with
  | [] => s
  | o :: rest =>
    if !o.finished then s
    else match s.timelineStore quad n o.num with
      | none => s
      | some (s, tlf) =>
        let s := s.onQuad quad fun q =>
          let x := q.copyCtx n
          { q with copy := q.copy.put n ({ x with queue := rest, done := o.num }.record o tlf) }
        let s := s.giveRole quad o.roles.1 o.sslot o.fail.isNone
        s.giveRole quad o.roles.2 o.dslot o.fail.isNone

end Sys2Proof.Machine
end

