-- ==== Sys2Proof/Machine/Global.lean ====
section
/-! DEFINITION. Fences, prefetches, cache and placement hints (08_global R193, R197 to R200). -/

namespace Sys2Proof.Machine

/-- The scopes of fence.S (R197). -/
inductive Scope where
  | quad | quarter | die | module | system
deriving DecidableEq, Repr

/-- Does the home of a reference lie within a scope of a context (R195, R197)? -/
def homeIn (s : State) (k : Nat) (sc : Scope) (r : Ref) : Bool :=
  if r.isLocal then true
  else
    let ours := !r.addr.testBit 45 && r.addr / 2 ^ 46 == s.domainIx
    match sc with
    | .quad => ours && quadOfCore r.home == quadOf k
    | .quarter => ours && quarterOf (quadOfCore r.home) == quarterOf (quadOf k)
    | .die => ours && quadDie (quadOfCore r.home) == quadDie (quadOf k)
    | .module => ours
    | .system => true

/-- Does fence.S wait for an outstanding access: a load wherever its home, another where its home lies in the scope (R197)? An atomic, though
it reads, is one of the others (DEDUCED, log 5). -/
def Out.fenced (s : State) (k : Nat) (sc : Scope) (o : Out) : Bool := o.binds || o.refs.any (homeIn s k sc)

/-- fence.S (R197): it issues once the earlier loads are bound and the other accesses homed in its scope are performed. -/
def fence (sc : Scope) (s : State) : Result := .next (s.afterOuts (Out.fenced s s.cur sc) fun s => s.step1 id)

/-- R197. -/
def execFenceQuad (s : State) : Result := fence .quad s
/-- R197. -/
def execFenceQuarter (s : State) : Result := fence .quarter s
/-- R197. -/
def execFenceDie (s : State) : Result := fence .die s
/-- R197. -/
def execFenceModule (s : State) : Result := fence .module s
/-- R197. -/
def execFenceSystem (s : State) : Result := fence .system s

/-- A translation as far as the quad TLB holds it, for an address with bits [63:57] clear: one that the quarter's TLB alone holds counts
as a miss of nhint and of a prefetch (R193, R199; DEDUCED, log 65). -/
def tlbHit (s : State) (k : Nat) (a : Word) : Option Tlb :=
  if isLocal a || fld a 57 7 ≠ 0 then none else tlbFind (s.quad (quadOf k)).tlb (s.ctx k).ctl.pasid a.toNat

/-- A prefetch brings the line of a PC = 1 page into the die's remote-data cache; no other copy is visible (R188, R199; log
15). It never faults. -/
def prefetch (a : BitVec 5) (s : State) : Result :=
  let xa := s.me.getX a
  let s' := match tlbHit s s.cur xa with
    | some t => if t.r then s.fillCopies s.cur [s.pageRef t xa.toNat] else s
    | none => s
  .next (s'.step1 id)

/-- R199. -/
def execPref (a : BitVec 5) (s : State) : Result := prefetch a s
/-- R199: an ownership of a line is not visible, so that it acts as pref (DEDUCED, log 15). -/
def execPrefW (a : BitVec 5) (s : State) : Result := prefetch a s

/-- cln and inv act on the line of an address, which they translate as a load does (R200). -/
def lineOp (effect : State → Ref → State) (a : BitVec 5) (s : State) : Result :=
  let xa := s.me.getX a
  if isLocal xa then .next (s.step1 id)
  else match globalCheck s s.cur .load xa 0 with
    | (.no e, s) => .next (s.deny e)
    | (.ok r, s) => .next ((effect s r).step1 id)

/-- R200: every copy of a line homed on the module is clean in the model, so the write-back changes no byte (DEDUCED, log 15). -/
def execCln (a : BitVec 5) (s : State) : Result := lineOp (fun s _ => s) a s

/-- R200: the issuing die's copy of the line goes. -/
def execInv (a : BitVec 5) (s : State) : Result :=
  lineOp (fun s r => s.onDie (quadDie s.myQuad) fun d => { d with rdc := d.rdc.drop (r.addr / 128) }) a s

/-- How many blocks of 64 KiB besides one a partition keeps on a die (R193). -/
def keepsOf (s : State) (die part block : Nat) : Nat := ((s.die die).hints.filter fun e => e.2 == (2, part) && e.1 != block).length

/-- How many it may keep there: 320 MiB for each of its quarters on the die (R193). -/
def keepLimit (p : Part) (die : Nat) : Nat := 5120 * ((bitsOf p.quarters 16).filter fun q => q / 4 == die).length

/-- Does a block have a keep hint? -/
def Die.keeps (d : Die) (b : Nat) : Bool := (d.hints.get (0, 0) b).1 == 2

/-- A hint given by a partition to a block of 64 KiB (R193). A keep hint ends at a cold or clear hint, and at no hot one; `full` says that
the partition keeps as many other blocks as it may. -/
def Die.hint (d : Die) (h block part : Nat) (full : Bool) : Die :=
  if h = 0 then { d with hints := d.hints.drop block }
  else if h = 3 then { d with hints := d.hints.drop block, promoted := d.promoted.filter (· != block) }
  else if h = 2 && !full then { d with hints := d.hints.put block (2, part) }
  else if d.keeps block then d
  else { d with hints := d.hints.put block (1, part) }

/-- R193: it never faults, and is ignored where the rule says so (DESIGN CHOICE, log 62). -/
def execNhint (h : BitVec 2) (a : BitVec 5) (s : State) : Result :=
  let xa := s.me.getX a
  let die := quadDie s.myQuad
  let s' := match tlbHit s s.cur xa with
    | some t =>
      let pa := (s.pageRef t xa.toNat).addr
      if !pa.testBit 45 && pa / 2 ^ 46 == s.domainIx && pa / 2 ^ 37 % 4 == die then
        match s.partOf s.cur with
        | none => s
        | some (n, p) => s.onDie die fun d => d.hint h.toNat (pa / 65536) n (decide (keepLimit p die ≤ keepsOf s die n (pa / 65536)))
      else s
    | none => s
  .next (s'.step1 id)

end Sys2Proof.Machine
end

