-- ==== Sys2Proof/Machine/MatArith.lean ====
section
/-! DEFINITION. The arithmetic of the matrix path: residues, the extended accumulator, one output element (R122 to R129). -/

namespace Sys2Proof.Machine

/-! ### Residues (R122, R123) -/

/-- The moduli and their product. -/
abbrev mod1 : Nat := 4095
abbrev mod2 : Nat := 4096
abbrev mod3 : Nat := 4097
abbrev modM : Nat := 68719472640

/-- A sum of products modulo m: every factor is first taken to 0 to m − 1. -/
def residue (m : Nat) (l : List (Int × Int)) : Nat :=
  (l.foldl (fun (acc : Int) p => acc + p.1 % (m : Int) * (p.2 % (m : Int))) 0 % (m : Int)).toNat

/-- CRT of R123. -/
def crt (c1 c2 c3 : Nat) : Nat := (c1 * 2048 * 16781312 + c2 * 4095 * 16777215 + c3 * 2049 * 16773120) % modM

/-- BlockSum of R122. -/
def blockSum (l : List (Int × Int)) : Int :=
  let x := crt (residue mod1 l) (residue mod2 l) (residue mod3 l)
  if modM ≤ 2 * x then (x : Int) - modM else x

/-- The sum that the residues stand for (R124). -/
def exactSum (l : List (Int × Int)) : Int := l.foldl (fun (acc : Int) p => acc + p.1 * p.2) 0

/-! ### The accumulator (R125, R126) -/

/-- The kinds of an accumulator. -/
inductive AccKind where
  | finite | posInf | negInf | nan
deriving DecidableEq, Repr

/-- An accumulator: its kind, significand, exponent and zero sign. -/
structure Acc where
  kind : AccKind := .finite
  a : Int := 0
  f : Int := 0
  z : Bool := false
deriving DecidableEq, Repr

/-- The accumulator that an element of C initialises (R125). -/
def Acc.init : Val → Acc
  | .zero n => { z := n }
  | .fin n m e => { a := if n then -(m : Int) else m, f := e }
  | .inf n => { kind := if n then .negInf else .posInf }
  | .nan _ => { kind := .nan }

/-- Does a significand fit in 96 bits? -/
def fits96 (v : Int) : Bool := decide (-(2 ^ 95 : Int) ≤ v) && decide (v ≤ 2 ^ 95 - 1)

/-- v ÷ 2^k rounded to nearest even. -/
def roundEvenShift (v : Int) (k : Nat) : Int :=
  let q := (roundShift 0 (decide (v < 0)) v.natAbs k).1
  if v < 0 then -(q : Int) else q

/-- The least shift from zero up after which a value fits in 96 bits. -/
def leastShift (v : Int) : Nat :=
  let k := Nat.log2 v.natAbs - 95
  ([k, k + 1].find? fun j => fits96 (roundEvenShift v j)).getD (k + 2)

/-- Accumulate of R126. -/
def Acc.add (acc : Acc) (s g : Int) : Acc :=
  if acc.kind ≠ .finite ∨ s = 0 then acc
  else
    let f0 := if acc.a ≠ 0 then min acc.f g else g
    let v := acc.a * 2 ^ (acc.f - f0).toNat + s * 2 ^ (g - f0).toNat
    if v = 0 then { acc with a := 0, z := false }
    else
      let k := leastShift v
      { acc with a := roundEvenShift v k, f := f0 + k }

/-- The exact value of an accumulator. -/
def Acc.val (acc : Acc) : Val :=
  match acc.kind with
  | .posInf => .inf false
  | .negInf => .inf true
  | .nan => .quiet
  | .finite => Val.ofInt acc.a acc.f acc.z

/-! ### One element (R127) -/

/-- A block as an operation reads it: its scale and its 32 mantissas. -/
structure QBlock where
  scale : Nat
  mants : List Int
deriving DecidableEq, Repr

/-- The 32 mantissas that the bytes of a block hold (R115). -/
def mantissas (q : Nat) (bs : List Byte) : List Int :=
  let n := natOfBytes bs
  (List.range 32).map (mantAt (mantBits q) n)

/-- MatElement of R127, before the final rounding: the accumulator after the blocks in ascending order. -/
def matAcc (nxm : Bool) (start : Acc) (bs : List (QBlock × QBlock)) : Acc :=
  bs.foldl (fun acc b =>
    if nanScale nxm b.1.scale || nanScale nxm b.2.scale then { acc with kind := .nan }
    else acc.add (blockSum (b.1.mants.zip b.2.mants)) (((b.1.scale : Int) - 127) + ((b.2.scale : Int) - 127))) start

end Sys2Proof.Machine
end

