-- ==== Sys2Proof/Machine/Matrix.lean ====
section
/-! DEFINITION. Matrix instructions, the stacker and the array of a gang (14_matrix R341 to R368). -/

namespace Sys2Proof.Machine

/-! ### What an instruction samples (R342 to R345) -/

/-- The format and scale registers, NXM and the effective rounding mode, sampled at issue. -/
structure Sampled where
  fmtA : Nat
  fmtB : Nat
  ofmt : Nat
  rm : Nat
  cin : Bool
  ascl : Nat
  cscl : Nat
  bscl : Nat
  nxm : Bool
deriving DecidableEq, Repr

def Ctx.sampled (c : Ctx) : Sampled :=
  let k := c.ctl
  { fmtA := fld k.mfmta 0 2, fmtB := fld k.mfmtb 0 2, ofmt := fld k.mfmtc 0 3
    rm := if bitAt k.mfmtc 8 then fld k.mfmtc 6 2 else c.rm
    cin := bitAt k.mfmtc 4, ascl := fld k.mscl 0 16, cscl := fld k.mscl 16 16, bscl := fld k.mscl 32 16, nxm := c.nxm }

/-- Blocks of a row or column (K ÷ 32), and the block code of a format (R341, R347). -/
def rowBlocks (fmt : Nat) : Nat := 2 ^ fmt
def blockCode (fmt : Nat) : Nat := 10 + fmt

/-- Is the output format a Q format, its block code, its element size (R343, R347)? -/
def isQOut (ofmt : Nat) : Bool := decide (3 ≤ ofmt)
def outCode (ofmt : Nat) : Nat := 7 + ofmt
def outSize (ofmt : Nat) : Nat := if ofmt = 0 then 4 else 2
def outFmt (ofmt : Nat) : Fmt := (fmtOf (ofmt + 1)).getD .f32

/-! ### The checks of R353 -/

/-- CheckConfig: the index of the first refused register. Where MFMTA and MFMTB hold formats of their own that differ, it is MFMTB's
(DEDUCED, log 30). -/
def Sampled.refused (c : Sampled) (gang : Bool) : Option Nat :=
  if c.fmtA = 3 then some 2
  else if c.fmtB = 3 ∨ c.fmtA ≠ c.fmtB then some 3
  else if 6 ≤ c.ofmt || (isQOut c.ofmt && (c.cin || gang)) then some 4
  else none

/-- CheckDesc (R353); for mgang HOLD and CONS are 0 and ROWS may be (R350). -/
def descBad (x : Word) (gang : Bool) : Bool :=
  fld x 40 24 != 0 || fld x 25 3 != 0 || fld x 22 2 != 0 || fld x 14 2 != 0 || fld x 6 2 != 0 ||
    (if gang then fld x 28 12 != 0 || bitAt x 24 else fld x 16 6 == 0)

/-- The rows of a descriptor; 0 means 64. -/
def descRows (x : Word) : Nat := if fld x 16 6 = 0 then 64 else fld x 16 6
def descStile (x : Word) : Nat := fld x 0 6
def descDtile (x : Word) : Nat := fld x 8 6

/-- CheckTiles: TVAL of the fault. `source` says whether the source tile is the instruction's own; `cols` columns are written. -/
def tilesBad (q : Quad) (c : Sampled) (x : Word) (source : Bool) (cols : Nat) : Option Word :=
  let h := descRows x
  let st := q.tile? (descStile x)
  let dt := q.tile? (descDtile x)
  if source && st.isNone then some (word (descStile x))
  else match dt with
    | none => some (word (descDtile x))
    | some d =>
      let srcSize := match st with | some t => t.size | none => 0
      let srcBad := source && (descStile x == descDtile x || decide (srcSize < c.ascl + rowBlocks c.fmtA * h) || decide (c.ascl < 64 * h))
      let out :=
        if isQOut c.ofmt then decide (c.cscl < 4 * h * mantBytes (outCode c.ofmt)) || decide (d.size < c.cscl + 4 * h)
        else decide (d.size < cols * h * outSize c.ofmt)
      if srcBad || out then some x else none

/-- CheckImage with the translation (R353): the image's reference and the page that holds it. -/
def checkImage (s : State) (xa : Word) (c : Sampled) : Chk (Ref × Tlb) × State :=
  let k := s.cur
  if xa.toNat % 128 ≠ 0 then (.no (.trap cMisaligned xa), s)
  else if isLocal xa then (.no (.trap cAccess xa), s)
  else match globalCheck s k .load xa 0 with
    | (.no e, s) => (.no e, s)
    | (.ok r, s) =>
      match (translate s (quadOf k) (s.ctx k).ctl.pasid xa.toNat).1 with
      | .fault n => (.no (.translation n xa 0), s)
      | .page t =>
        let stop := t.pa + 2 ^ t.bits
        if r.addr.testBit 45 || decide (stop < r.addr + 8192) || decide (stop < r.addr + c.bscl + 128 * rowBlocks c.fmtB) then
          (.no (.trap cAccess xa), s)
        else (.ok (r, t), s)

/-- The check of a completion word, as cadd checks its counter (R270); 0 is none. -/
def checkCword (s : State) (x : Word) : Chk CWord × State :=
  if x = 0 then (.ok none, s)
  else match checkAtomic s s.cur .atomic x 8 with
    | (.no e, s) => (.no e, s)
    | (.ok r, s) => (.ok (some r), s)

/-- The priority of a member (R354). -/
def State.memberPri (s : State) : Nat := if isHandler s.cur then 3 else s.me.task.pri

/-- A matrix instruction: legal on L0 only (R33), forbidden in an attempt (R299). -/
def matrixOp (w : Word32) (effect : State → State) (s : State) : Result :=
  if s.myLayer ≠ 0 then .next (s.illegal w) else .next (s.unlessAttempt w effect)

/-- The gang of the context whose turn it is. -/
def State.myGang (s : State) : Nat := gangOf s.myCore

/-! ### Completion words (R349, R360) -/

/-- The cells of adding 1 to a completion word, and whether the add would carry. -/
def cwordCells (s : State) (c : CWord) : List (Ref × Byte) × Bool :=
  match c with
  | none => ([], false)
  | some r => let v := s.gdword r.addr + 1; if 2 ^ 64 ≤ v then ([], true) else (cellsOf r 8 v, false)

/-- The turn of a completion add at its home slice, as a recording logs it (R430): an atomic there, of the core whose operation is done. -/
def cwordTurn (c : CWord) (core : Nat) : Option LogEntry := c.map fun r => { kind := .home, who := r.home, what := 8 * core }

/-- May a completion add be performed now (R306, R431)? -/
def State.mayComplete (s : State) (quad : Nat) (c : CWord) (core : Nat) : Bool :=
  s.mayWrite none (globalCells (cwordCells s c).1) &&
    match cwordTurn c core with | some e => s.mayOrder (s.partOfQuarter (quarterOf quad)) e | none => true

/-- The completion add is performed: an atomic at the word's home, which leaves its poison (R349, R360, R427), logged there (R430). -/
def State.complete (s : State) (quad : Nat) (c : CWord) (core : Nat) : State :=
  let t := (s.engineWrite quad (cwordCells s c).1).1.keepPoison s quad fun l _ => !l
  match cwordTurn c core with | some e => t.noteOrder (s.partOfQuarter (quarterOf quad)) e | none => t

/-! ### The stacker (R353 to R357) -/

/-- The key that a context's registers form for an image (R364). -/
def formKey (s : State) (sm : Sampled) (pb : Nat) : Key :=
  { pb, fmt := sm.fmtB, bscl := sm.bscl, ofmt := sm.ofmt, rm := sm.rm, nxm := sm.nxm, domain := fld (s.core s.myCore).mkeydom 0 16 }

/-- What the checks of an mms come to (R353): a cause, a wait for a tile, or its key and its member. -/
inductive MmsChk where
  | no (d : Denied)
  | wait (w : WaitOn)
  | ok (key : Key) (m : Member)
deriving DecidableEq, Repr

/-- The checks of R353 in their order, on sampled registers and the values of xa, xb and xc. -/
def mmsCheck (s : State) (sm : Sampled) (xa xb xc : Word) : MmsChk × State :=
  let refuse (v : Word) : MmsChk × State := (.no (.trap cAccess v), s)
  if s.me.task.portable then refuse xa
  else match sm.refused false with
  | some i => refuse (word i)
  | none =>
    if descBad xb false then refuse xb
    else match tilesBad (s.quad s.myQuad) sm xb true 128 with
    | some v => refuse v
    | none =>
      match checkImage s xa sm with
      | (.no e, s) => (.no e, s)
      | (.ok (r, page), s) =>
        match checkCword s xc with
        | (.no e, s) => (.no e, s)
        | (.ok cword, s) =>
          match memberWait (s.quad s.myQuad) (descStile xb) (descDtile xb) with
          | some o => (.wait o, s)
          | none =>
            (.ok (formKey s sm r.addr)
              { core := s.myCore, ctx := some s.cur, seq := s.me.nextSeq, ident := 0, rows := descRows xb, stile := descStile xb
                dtile := descDtile xb, consume := bitAt xb 24, cin := sm.cin, ascl := sm.ascl, cscl := sm.cscl, cword
                pri := s.memberPri, hold := if fld xb 28 12 = 0 then 256 else fld xb 28 12, page, launch := s.me.task.launch, pasid := s.me.ctl.pasid
                gate := s.me.gate s.cur 1 }, s)

/-- The mms of a context whose members still wait in the stacker, for a pre-emption (R254). -/
def Ctx.waitingSubs (c : Ctx) (g : Gang) (k : Nat) : List Resub :=
  let w := g.waiting k
  c.subs.filter fun r => w.any fun e => e.2.ident == r.ident

/-- The members that an instance would hold with one more, which takes the next identifier of its core. -/
def State.joinedBy (s : State) (gang : Nat) (key : Key) (m : Member) : List Member :=
  (match (s.gang gang).joinable key m.rows with | some (_, i) => i.members | none => []) ++
    [{ m with ident := (s.core m.core).missued + 1 }]

/-- May a member join now? In a replay its logged turn has come, at an instance that holds the members that it held before (R431; DESIGN CHOICE,
log 49). -/
def State.mayGroup (s : State) (gang : Nat) (key : Key) (m : Member) : Bool :=
  s.mayOrder (s.gangPart gang) (groupingOf gang (s.joinedBy gang key m) false)

/-- The mms of the context whose turn it is finds no room: the oldest OPEN instance of its stacker becomes DUE, once for each wait (R356). -/
def State.askRoom (s : State) : State :=
  let c := s.me
  if c.asked = some c.issued then s else (s.oldestDue s.myGang).onMe fun c => { c with asked := some c.issued }

/-- R353 (DEDUCED, log 30). -/
def execMms (sb : Bool) (d a b c : BitVec 5) (s : State) : Result :=
  let w := (Instr.mms sb d a b c).word
  let xa := s.me.getX a
  let xb := s.me.getX b
  let xc := s.me.getX c
  let k := s.cur
  let sm := s.me.sampled
  matrixOp w (fun s =>
    match mmsCheck s sm xa xb xc with
    | (.no e, s) => s.deny e
    | (.wait o, s) => s.waitOn w o
    | (.ok key m, s) =>
      if !s.mayGroup s.myGang key m then s.onMe Ctx.again
      else if (s.gang s.myGang).hasRoom key m.rows then
        let before := s.me
        let r := s.join key m
        let sub : Resub := { seq := before.nextSeq, pc := before.pc, snap := before.snap, d, a, b, c, ident := r.1 }
        (r.2.issueStart d (word r.1) m.gate).onMe fun c => { c with subs := before.waitingSubs (s.gang s.myGang) k ++ [sub] }
      else s.askRoom.onMe Ctx.again) s

/-- Did a context submit a member? -/
def Member.isOf (m : Member) (k : Nat) : Bool := m.ctx == some k

/-- R364. -/
def execMflush (sb : Bool) (a : BitVec 5) (s : State) : Result :=
  let xa := s.me.getX a
  let sm := s.me.sampled
  let k := s.cur
  matrixOp (Instr.mflush sb a).word (fun s =>
    if xa = 0 then (s.makeDue s.myGang fun i => i.members.any (·.isOf k)).step1 id
    else match sm.refused false with
    | some i => s.trap cAccess (word i)
    | none =>
      match checkImage s xa sm with
      | (.no e, s) => s.deny e
      | (.ok (r, _), s) => (s.makeDue s.myGang fun i => i.key == formKey s sm r.addr).step1 id) s

/-- The word of mkey (R364). How much of a hold is left is a time: a free value within the least HOLD (DESIGN CHOICE, log 6). -/
def mkeyWord (i : Nat) (t : Inst) (left : Word) : Word :=
  let most := match t.members.map (·.hold) with | [] => 0 | a :: r => r.foldl min a
  let l := if t.st = .due then 0 else left.toNat % (min most 4095 + 1)
  word (2 ^ 63 + i * 2 ^ 32 + t.rows % 64 * 2 ^ 24 + t.members.length * 2 ^ 16 + (if t.st = .due then 2 ^ 12 else 0) + l)

/-- R364. -/
def execMkey (sb : Bool) (d a : BitVec 5) (s : State) : Result :=
  let xa := s.me.getX a
  let sm := s.me.sampled
  matrixOp (Instr.mkey sb d a).word (fun s =>
    match sm.refused false with
    | some i => s.trap cAccess (word i)
    | none =>
      match checkImage s xa sm with
      | (.no e, s) => s.deny e
      | (.ok (r, _), s) =>
        let v := match (s.gang s.myGang).joinable (formKey s sm r.addr) 1 with
          | some (i, t) => mkeyWord i t (Config.freeCount s.free)
          | none => 0
        ({ s with free := s.free + 1 } : State).writesX d v) s

/-- Has a context an operation of its gang that has not retired, or a load that is not current (R365)? -/
def Gang.pending (g : Gang) (k : Nat) : Bool :=
  g.insts.any (fun e => e.2.members.any (·.isOf k)) || g.arrivals.any (fun e => e.2.m.isOf k) ||
    g.ready.any (fun r => r.2.any fun e => e.2.m.isOf k) || g.loads.any (fun l => l.ctx == some k) ||
    g.runs.any fun r => r.left.any fun x => x.m.isOf k

/-- R365. -/
def execMdrain (sb : Bool) (s : State) : Result :=
  let k := s.cur
  matrixOp (Instr.mdrain sb).word (fun s =>
    let s := s.makeDue s.myGang fun i => i.members.any (·.isOf k)
    if (s.gang s.myGang).pending k then s.onMe Ctx.again else s.step1 id) s

/-- The word of mstat (R363). -/
def mstatWord (c : Core) (x : Word) : Word :=
  let n := x.toNat
  if n = 0 ∨ c.missued < n ∨ n + 64 ≤ c.missued then word (n % 2 ^ 32 * 2 ^ 32 + 3 * 256) else c.mstatus.get 0 (n % 64)

/-- R363. -/
def execMstat (sb : Bool) (d a : BitVec 5) (s : State) : Result :=
  let xa := s.me.getX a
  matrixOp (Instr.mstat sb d a).word (fun s => s.writesX d (mstatWord (s.core s.myCore) xa)) s

/-- R349: xb is checked before xa is translated. -/
def execMldb (sb : Bool) (a b : BitVec 5) (s : State) : Result :=
  let xa := s.me.getX a
  let xb := s.me.getX b
  let sm := s.me.sampled
  let k := s.cur
  matrixOp (Instr.mldb sb a b).word (fun s =>
    if sm.fmtB = 3 then s.trap cAccess 3
    else match prealone s k ({ a := xa, align := 128, globalOnly := true } ::
        if xb = 0 then [] else [{ a := xb, align := 8, globalOnly := true, kind := .atomic }]) with
    | some e => s.deny e
    | none =>
    match checkCword s xb with
    | (.no e, s) => s.deny e
    | (.ok cword, s) =>
      match checkImage s xa sm with
      | (.no e, s) => s.deny e
      | (.ok (r, _), s) =>
        if 2 ≤ (s.gang s.myGang).loads.length then s.onMe Ctx.again
        else
          let l : BufLoad :=
            { core := s.myCore, id := { pa := r.addr, fmt := sm.fmtB, bscl := sm.bscl, nxm := sm.nxm }, cword, made := s.now
              ctx := some k, launch := s.me.task.launch, va := xb, pasid := s.me.ctl.pasid, gate := s.me.gate k 0 }
          (s.onGang s.myGang fun g => { g with loads := g.loads ++ [l], latest := some l.id }).step1 (Ctx.issueGate l.gate)) s

/-! ### The wired barrier (R350 to R352) -/

/-- Does an identity agree with a core's format and NXM (R351)? (DEDUCED, log 31). -/
def BufId.agrees (i : BufId) (fmt : Nat) (nxm : Bool) : Bool := i.fmt == fmt && i.nxm == nxm

/-- Does the identity of buffer G, or of the latest load accepted, agree? -/
def Gang.agrees (g : Gang) (fmt : Nat) (nxm : Bool) : Bool :=
  (match g.bufG with | some b => b.id.agrees fmt nxm | none => false) ||
    match g.latest with | some i => i.agrees fmt nxm | none => false

/-- A core arrives (R350); the eighth arrival completes the barrier and wakes those that wait for it. Its status has the ROWS of its own
descriptor until it retires, with those of core 0 (R351, R362; DEDUCED, log 31). -/
def State.arrive (s : State) (d : BitVec 5) (a : Arrival) : State :=
  let core := s.myCore
  let gang := s.myGang
  let j := gangCore core
  let ident := (s.core core).missued + 1
  let m := { a.m with ident }
  let s := s.onCore core fun c => { c with missued := ident }
  let take (s : State) (n : Nat) (st : TileState) : State :=
    match (s.quad s.myQuad).tile? n with
    | some t => s.setTile s.myQuad n { t with st, eng := true }
    | none => s
  let s := take (if j = 0 then take s m.stile .draining else s) m.dtile .filling
  let s := s.setStatus m 0 0
  let now := s.now
  let s := s.onGang gang fun g =>
    let arr := g.arrivals.put j { a with m }
    if arr.length = 8 then { g with arrivals := [], ready := g.ready ++ [(now, arr)] } else { g with arrivals := arr }
  let s := if (s.gang gang).arrivals.isEmpty then
      s.wakeOn (fun k => quadLayer (quadOf k) == 0 && gangOf (coreOf k) == gang) .gang
    else s
  s.issueStart d (word ident) m.gate

/-- R350. Each core's destination tile is checked by the core's own ROWS and OFMT (DEDUCED, log 31). -/
def execMgang (sb : Bool) (d a b : BitVec 5) (s : State) : Result :=
  let w := (Instr.mgang sb d a b).word
  let xa := s.me.getX a
  let xb := s.me.getX b
  let sm := s.me.sampled
  let k := s.cur
  matrixOp w (fun s =>
    let first := gangCore s.myCore == 0
    if s.me.task.portable then s.trap cAccess xa
    else match sm.refused true with
    | some i => s.trap cAccess (word i)
    | none =>
      if !(s.gang s.myGang).agrees sm.fmtB sm.nxm then s.trap cAccess 3
      else if descBad xa true then s.trap cAccess xa
      else match tilesBad (s.quad s.myQuad) sm xa first 16 with
      | some v => s.trap cAccess v
      | none =>
        match checkCword s xb with
        | (.no e, s) => s.deny e
        | (.ok cword, s) =>
          let q := s.quad s.myQuad
          if (s.gang s.myGang).arrivals.has (gangCore s.myCore) then s.waitOn w .gang
          else if first && !q.tileIs (descStile xa) .ready then s.waitOn w (.tile (descStile xa))
          else if !q.tileIs (descDtile xa) .empty then s.waitOn w (.tile (descDtile xa))
          else
            s.arrive d
              { m := { core := s.myCore, ctx := some k, seq := s.me.nextSeq, ident := 0, rows := descRows xa, stile := descStile xa
                       dtile := descDtile xa, cin := sm.cin, ascl := sm.ascl, cword, pri := s.memberPri, launch := s.me.task.launch
                       pasid := s.me.ctl.pasid, gate := s.me.gate k 1 }
                fmt := sm.fmtA, ofmt := sm.ofmt, rm := sm.rm, nxm := sm.nxm }) s

/-! ### Images and streaming (R347, R348) -/

/-- The image of an identity as memory holds it now, with the columns that a poisoned word reaches (R427). -/
def readImage (s : State) (id : BufId) : Buffer :=
  let kb := rowBlocks id.fmt
  let n := 128 * kb
  { id, mant := s.gread id.pa 8192, scales := s.gread (id.pa + id.bscl) n
    bad := ((List.range 128).filter fun c => (List.range 8).any fun w => s.poisonedAt (id.pa + 64 * c + 8 * w)) ++
      ((List.range n).filter fun b => s.poisonedAt (id.pa + id.bscl + b)).map (· / kb) }

/-- Bytes of a list from a place. -/
def sliceOf (l : List Byte) (at_ n : Nat) : List Byte := (l.drop at_).take n

/-- The blocks of a row or column: mantissas 64 bytes a row, scales `kb` bytes a row (R347). -/
def rowBlocksOf (fmt : Nat) (mant scales : List Byte) (i : Nat) : List QBlock :=
  let kb := rowBlocks fmt
  let bb := mantBytes (blockCode fmt)
  (List.range kb).map fun b =>
    { scale := ((scales.drop (kb * i + b)).headD 0).toNat
      mants := mantissas (blockCode fmt) (sliceOf mant (64 * i + bb * b) bb) }

/-- What an operation gives each of its members. -/
structure OpFacts where
  fmt : Nat
  ofmt : Nat
  rm : Nat
  nxm : Bool
  h : Nat
deriving DecidableEq, Repr

/-- A tile's offset in a quad. -/
def Quad.tileOff (q : Quad) (n : Nat) : Nat := match q.tile? n with | some t => t.off | none => 0

/-- The local bytes of an engine's read. -/
def State.lbytes (s : State) (quad at_ n : Nat) : List Byte := (s.quad quad).mem.read at_ n

/-- Do local bytes of a quad reach into the code region, or to offsets that nothing backs: an access fault of the engine (R15, R160)? -/
def Quad.bars (q : Quad) (quad at_ n : Nat) : Bool := decide (at_ < q.xbound.toNat) || decide (capacity (quadLayer quad) < at_ + n)

/-- Does an engine's read of local bytes meet poison? -/
def State.lpoison (s : State) (quad at_ n : Nat) : Bool := (List.range n).any fun i => (s.quad quad).poison.contains ((at_ + i) / 8)

/-- One output row's values: the accumulators of its columns, or NaN throughout for a member that read poison (R427). -/
def rowValues (f : OpFacts) (poisoned : Bool) (a : List QBlock) (cols : List (List QBlock)) (c : List Val) : List Val :=
  if poisoned then cols.map fun _ => Val.quiet
  else (cols.zip c).map fun e => (matAcc f.nxm (Acc.init e.2) (a.zip e.1)).val

/-- The output of a row in a floating format: bytes, conditions, and whether an element is NaN. An accumulator that is not zero and rounds to
zero keeps its sign (DEDUCED, log 33). -/
def floatRow (f : OpFacts) (vs : List Val) : List Byte × Nat × Bool :=
  let r := vs.map ((outFmt f.ofmt).round false f.rm false)
  (r.flatMap fun e => bytesOfNat (outSize f.ofmt) e.1, unionCond (r.map (·.2)), vs.any Val.isNan)

/-- Consecutive cells. -/
def cellRun (at_ : Nat) (bs : List Byte) : List (Nat × Byte) := (List.range bs.length).zip bs |>.map fun e => (at_ + e.1, e.2)

/-- The four blocks of a row of a Q output (R347). -/
def quantRow (f : OpFacts) (base cscl i : Nat) (vs : List Val) : List (Nat × Byte) × Nat × Bool :=
  let q := outCode f.ofmt
  let bb := mantBytes q
  (List.range 4).foldl (fun (acc : List (Nat × Byte) × Nat × Bool) p =>
    let b := quantise (mantBits q) f.nxm ((vs.drop (32 * p)).take 32)
    (acc.1 ++ cellRun (base + (4 * i + p) * bb) (bytesOfNat bb (packMants (mantBits q) b.mants)) ++
        [(base + cscl + 4 * i + p, BitVec.ofNat 8 b.scale)],
      acc.2.1 ||| unionCond b.conds, acc.2.2 || nanScale f.nxm b.scale)) ([], 0, false)

/-- The part of a member streams (R348): `aq`, `am` are the quad and member that give A, `cols` its columns. -/
def stream (s : State) (f : OpFacts) (buf : Buffer) (aq : Nat) (am m : Member) (cin : Bool) (cols : List Nat) : Streamed :=
  let quad := quadOfCore m.core
  let abase := (s.quad aq).tileOff am.stile
  let dbase := (s.quad quad).tileOff m.dtile
  let kb := rowBlocks f.fmt
  let mant := s.lbytes aq abase (64 * f.h)
  let scales := s.lbytes aq (abase + am.ascl) (kb * f.h)
  let w := outSize f.ofmt
  let n := cols.length
  let cbytes := if cin then s.lbytes quad dbase (n * f.h * w) else []
  let poisoned := s.lpoison aq abase (64 * f.h) || s.lpoison aq (abase + am.ascl) (kb * f.h) ||
    (cin && s.lpoison quad dbase (n * f.h * w)) || cols.any buf.bad.contains
  let bcols := cols.map (rowBlocksOf f.fmt buf.mant buf.scales)
  let rows := (List.range f.h).map fun i =>
    let c := (List.range n).map fun j =>
      if cin then (outFmt f.ofmt).value false (natOfBytes (sliceOf cbytes ((n * i + j) * w) w)) else Val.zero false
    let vs := rowValues f poisoned (rowBlocksOf f.fmt mant scales i) bcols c
    if isQOut f.ofmt then quantRow f dbase m.cscl i vs
    else
      let r := floatRow f vs
      (cellRun (dbase + n * i * w) r.1, r.2.1, r.2.2)
  { m, cells := rows.flatMap (·.1), cond := unionCond (rows.map (·.2.1)), nan := poisoned || rows.any (·.2.2)
    barred := (s.quad aq).bars aq abase (64 * f.h) || (s.quad aq).bars aq (abase + am.ascl) (kb * f.h) ||
      (cin && (s.quad quad).bars quad dbase (n * f.h * w)) }

/-- A stacked operation's members in ROW0 order. -/
def insertRow0 (m : Member) : List Member → List Member
  | [] => [m]
  | x :: t => if m.row0 ≤ x.row0 then m :: x :: t else x :: insertRow0 m t

/-- A stacked operation streams (DESIGN CHOICE, log 32). -/
def streamInst (s : State) (i : Inst) (buf : Buffer) : List Streamed :=
  (i.members.foldr insertRow0 []).map fun m =>
    stream s { fmt := i.key.fmt, ofmt := i.key.ofmt, rm := i.key.rm, nxm := i.key.nxm, h := m.rows } buf (quadOfCore m.core) m m m.cin
      (List.range 128)

/-- An mgang streams on buffer G; with no buffer of its format it computes nothing (R351) (DEDUCED, log 31). -/
def streamGang (s : State) (g : Gang) (arr : Map Arrival) : List Streamed :=
  match arr with
  | [] => []
  | (_, z) :: _ =>
    let f : OpFacts := { fmt := z.fmt, ofmt := z.ofmt, rm := z.rm, nxm := z.nxm, h := z.m.rows }
    arr.map fun e =>
      let m := { e.2.m with rows := f.h }
      let r : Streamed := match g.bufG with
        | some b =>
          if b.id.agrees f.fmt f.nxm then
            stream s f b (quadOfCore z.m.core) z.m m z.m.cin ((List.range 16).map fun j => 16 * e.1 + j)
          else { m, cells := [], cond := 0, nan := false, nobuf := true }
        | none => { m, cells := [], cond := 0, nan := false, nobuf := true }
      { r with source := e.1 == 0 }

/-! ### The steps of a gang (R349, R356, R358, R360) -/

/-- The carry of an issuer's completion add is pending in its context, while its task goes on (R278, R349). -/
def State.carryTo (s : State) (k : Option Nat) (va : Word) : State :=
  match k with
  | some k => s.onCtx k fun c => { c with carry := some va }
  | none => s

/-- The oldest load of buffer G is done, after the accesses that its issuer made before it (R366): the identity is current, then its completion
word rises (R349). The identity of a load accepted
before a full context switch never becomes current (R352), and its word rises when its turn has come (DEDUCED, log 31). -/
def loadBuffer (s : State) (gang : Nat) : State :=
  let g := s.gang gang
  match g.loads with
  | [] => s
  | l :: rest =>
    if !g.loadRuns then s
    else s.pastGates [l.gate] fun s =>
      if !s.mayComplete (gangQuad gang) l.cword l.core then s
      else
        let b := readImage s l.id
        let s := s.onGang gang fun g => { g with bufG := if l.old then g.bufG else some b, loads := rest }
        let carry := (cwordCells s l.cword).2
        let s := s.complete (gangQuad gang) l.cword l.core
        if carry then s.carryTo l.ctx l.va else s
where
  /-- A quad of the gang. -/
  gangQuad (gang : Nat) : Nat := quadOfCore (coreOfGang gang 0)

/-- A candidate of the array: priority, due time, creation, and the instance, if it is one. -/
structure Cand where
  pri : Nat
  due : Nat
  made : Nat
  inst : Option Nat
deriving DecidableEq, Repr

/-- Does a candidate rank ahead of another (R358)? -/
def Cand.ahead (a b : Cand) : Bool :=
  decide (b.pri < a.pri) || (a.pri == b.pri && (decide (a.due < b.due) || (a.due == b.due && decide (a.made < b.made))))

/-- The candidates as they stand; the first mgang waits for loads that reached the gang before its barrier completed (R349). -/
def Gang.candidates (g : Gang) : List Cand :=
  (match g.ready with
    | [] => []
    | (t, arr) :: _ =>
      if g.loads.any fun l => decide (l.made < t) then []
      else [{ pri := match arr with | [] => 0 | (_, a) :: _ => a.m.pri, due := t, made := t, inst := none }]) ++
    g.insts.filterMap fun e =>
      if e.2.st = .due then
        some { pri := (e.2.members.map (·.pri)).foldl max 0, due := e.2.due, made := e.2.made, inst := some e.1 }
      else none

/-- A free choice for each of some candidates. -/
def chooseAll (s : State) : List Cand → List (Cand × Bool) × State
  | [] => ([], s)
  | c :: t =>
    let r := s.choose
    let q := chooseAll r.2 t
    ((c, r.1) :: q.1, q.2)

/-- Whether a candidate has been due for 4,096 L0 cycles, and so ranks with priority 3, is a matter of time: a free choice
(DESIGN CHOICE, log 6). One that has been due as long as another has aged where that one has. -/
def ageAll (s : State) (l : List Cand) : List Cand × State :=
  let r := chooseAll s l
  (l.map fun c => if r.1.any fun e => e.2 && decide (c.due ≤ e.1.due) then { c with pri := 3 } else c, r.2)

/-- The best of some candidates. -/
def bestCand : List Cand → Option Cand
  | [] => none
  | c :: t => match bestCand t with
    | none => some c
    | some b => some (if b.ahead c then b else c)

/-- The image of an instance. -/
def Inst.readImage (i : Inst) (s : State) : Buffer :=
  match i.image with
  | some b => b
  | none => Machine.readImage s { pa := i.key.pb, fmt := i.key.fmt, bscl := i.key.bscl, nxm := i.key.nxm }

/-- The candidates that may be taken: in a replay, of the instances the one whose logged turn has come (R431). -/
def State.candidatesNow (s : State) (gang : Nat) : List Cand :=
  let g := s.gang gang
  g.candidates.filter fun c => match c.inst.bind fun n => g.insts.find? fun e => e.1 == n with
    | some (_, i) => s.mayOrder (s.gangPart gang) (groupingOf gang i.members true)
    | none => true

/-- The releases that an operation has to see before it reads anything (R366): of an instance's members, or of an mgang's eight arrivals. -/
def Gang.gatesOf (g : Gang) (inst : Option Nat) : List Gate :=
  match inst with
  | some n => (match g.insts.find? fun e => e.1 == n with | some (_, i) => i.members.map (·.gate) | none => [])
  | none => (match g.ready with | (_, arr) :: _ => arr.map fun e => e.2.m.gate | [] => [])

/-- A candidate that the array has taken streams: the array is free again, and its members are to retire (R358, R360). -/
def State.streamCand (s : State) (gang : Nat) (inst : Option Nat) : State :=
  let g := s.gang gang
  match inst with
  | none =>
    match g.ready with
    | [] => s
    | (_, arr) :: rest =>
      let out := streamGang s g arr
      s.onGang gang fun g => { g with ready := rest, runs := g.runs ++ [{ inst := none, left := out }] }
  | some n =>
    match g.insts.find? fun e => e.1 == n with
    | none => s
    | some (_, i) =>
      let b := i.readImage s
      let out := streamInst s i b
      (s.noteOrder (s.gangPart gang) (groupingOf gang i.members true)).onGang gang fun g => { g with
        insts := g.insts.put n { i with st := .running, image := some b }, runs := g.runs ++ [{ inst := some n, left := out }] }

/-- ARRAY_SELECT: the array, which is free once the operation that it took before has streamed, takes the candidate of highest rank (R341,
R358). It streams after the accesses that its issuers made before (R366). -/
def selectArray (s : State) (gang : Nat) : State :=
  if (s.gang gang).candidates.isEmpty then s
  else
    let r := ageAll s (s.candidatesNow gang)
    match bestCand r.1 with
    | none => r.2
    | some c => r.2.pastGates (((r.2).gang gang).gatesOf c.inst) fun s => s.streamCand gang c.inst

/-- STATIONARY_IMAGE_READ: the image of the highest-ranked DUE instance comes into the buffer that the operation in flight does not use;
any other instance's image in it is replaced (R358). -/
def prereadImage (s : State) (gang n : Nat) : State :=
  match (s.gang gang).insts.find? fun e => e.1 == n with
  | none => s
  | some (_, i) =>
    let r := ageAll s ((s.gang gang).candidates.filter fun c => c.inst.isSome)
    let s := r.2
    match bestCand r.1 with
    | none => s
    | some c =>
    if i.st != .due || c.inst != some n then s
    else s.pastGates (i.members.map (·.gate)) fun s =>
      let b := i.readImage s
      s.onGang gang fun g => { g with insts := g.insts.mapVals fun j x =>
        if j = n then { x with image := some b } else if x.st = .running then x else { x with image := none } }

/-- HOLD_EXPIRY of an OPEN instance (R356). -/
def holdExpires (s : State) (gang n : Nat) : State :=
  let now := s.now
  s.onGang gang fun g => { g with insts := g.insts.mapVals fun j i => if j = n then i.makeDue now else i }

/-- The flags of a status word of a member that has retired (R362). -/
def Streamed.flags (x : Streamed) (carry : Bool) : Nat :=
  (if x.nobuf then 2048 else 0) + (if carry then 1024 else 0) + (if x.nan then 32 else 0) + x.cond % 32

/-- Does the part of a member meet the code region or unbacked offsets, in what it has read or in what it would write (R15, R160)? -/
def Streamed.faults (x : Streamed) (q : Quad) (quad : Nat) : Bool := x.barred || x.cells.any fun c => q.bars quad c.1 1

/-- A member whose tiles a later write of XBOUND has covered, or whose output core 0's rows take past the capacity, faults and so ends (R15,
R160): nothing is written, its tiles take their failure transitions. The flags of its status and whether its completion word rises are free values: the manual states neither (DESIGN CHOICE,
log 35). -/
def State.retireBarred (s : State) (x : Streamed) (carry : Bool) : State :=
  let quad := quadOfCore x.m.core
  let r := s.choose
  let flags := (Config.freeCount r.2.free).toNat % 64 + if carry && r.1 then 1024 else 0
  let s : State := { r.2 with free := r.2.free + 1 }
  let s := if x.source then s.giveRole quad (if x.m.consume then .consume x.m.stile else .keep x.m.stile) none false else s
  let s := (s.giveRole quad (.fill x.m.dtile) none false).setStatus x.m 1 flags
  if r.1 then s.complete quad x.m.cword x.m.core else s

/-- Can the oldest load of buffer G be done now? -/
def State.loadReady (s : State) (gang : Nat) : Bool :=
  (s.gang gang).loadRuns && match (s.gang gang).loads with
    | l :: _ => (s.openGate l.gate).2 && s.mayComplete (loadBuffer.gangQuad gang) l.cword l.core
    | [] => false

/-- May a member that has streamed retire now: can its rows be written and its completion word be added to (R306, R431)? -/
def State.mayRetire (s : State) (x : Streamed) : Bool :=
  let quad := quadOfCore x.m.core
  s.mayComplete quad x.m.cword x.m.core && (x.faults (s.quad quad) quad || s.mayWriteLocal none quad x.cells)

/-- One member retires (R360): its rows, its tiles, its status, its completion word. -/
def State.retireOne (s : State) (x : Streamed) : State :=
  let quad := quadOfCore x.m.core
  let carry := (cwordCells s x.m.cword).2
  let s :=
    if x.faults (s.quad quad) quad then s.retireBarred x carry
    else
      let s := (s.engineWrite quad (x.cells.map fun c => ({ isLocal := true, addr := c.1 }, c.2))).1
      let s := if x.source then s.giveRole quad (if x.m.consume then .consume x.m.stile else .keep x.m.stile) none true else s
      let s := (s.giveRole quad (.fill x.m.dtile) none !x.nobuf).setStatus x.m 1 (x.flags carry)
      s.complete quad x.m.cword x.m.core
  s.works quad x.m.rows

/-- The members of an operation among which the next one to retire may be chosen: of an instance the first, as they retire in ROW0 order; of
an mgang each core's part, as no rule gives the eight an order (R360; DESIGN CHOICE, log 77). -/
def Run.next (r : Run) (j : Nat) : Option Streamed := r.left[if r.inst.isSome then 0 else j]?

/-- A gang without a member that has retired; an instance whose last member has is FREE (R360). -/
def Gang.retired (g : Gang) (n : Nat) (inst : Option Nat) (x : Streamed) : Gang :=
  let same (m : Member) : Bool := m.core == x.m.core && m.ident == x.m.ident
  { g with
    runs := (g.runs.modify n fun r => { r with left := r.left.erase x }).filter fun r => !r.left.isEmpty
    insts := (g.insts.mapVals fun j i =>
      if some j = inst then { i with members := i.members.filter fun m => !same m } else i).filter fun e => !e.2.members.isEmpty }

/-- MEMBER_RETIRE: a member of the n-th operation that has streamed retires (R360): the first, or of an mgang the j-th of those left. -/
def retireMember (s : State) (gang n j : Nat) : State :=
  match (s.gang gang).runs[n]? with
  | none => s
  | some run =>
    match run.next j with
    | none => s
    | some x => if s.mayRetire x then (s.retireOne x).onGang gang fun g => g.retired n run.inst x else s

/-- A member of a gang that may retire now: its operation and its place there. -/
def State.retirable (s : State) (gang : Nat) : Option (Nat × Nat) :=
  (s.gang gang).runs.zipIdx.findSome? fun r =>
    ((List.range r.1.left.length).find? fun j => match r.1.next j with
      | some x => s.mayRetire x
      | none => false).map fun j => (r.2, j)

end Sys2Proof.Machine
end

