-- ==== Sys2Proof/Machine/Issue.lean ====
section
/-! DEFINITION. The turn of a context: the issue of an instruction up to its own effect, and which contexts are ready: fetch, the causes of R241, settle
points and windows (R91, R92, R95, R102, R206, R208, R241, R252, R253). -/

namespace Sys2Proof.Machine

/-! ### Fetch (R91, R102, R104) -/

/-- The target of a word that is a branch or jump with an offset, for the second half of the buffer. -/
def branchTarget (pc : Nat) (w : Word32) : Option Nat :=
  match decode w with
  | .ok (.bEq _ _ _ o) => some (target (word pc) o).toNat
  | .ok (.bNe _ _ _ o) => some (target (word pc) o).toNat
  | .ok (.bLt _ _ _ o) => some (target (word pc) o).toNat
  | .ok (.bGe _ _ _ o) => some (target (word pc) o).toNat
  | .ok (.bLtz _ _ _ o) => some (target (word pc) o).toNat
  | .ok (.bGez _ _ _ o) => some (target (word pc) o).toNat
  | .ok (.j _ o) => some (target (word pc) o).toNat
  | .ok (.jal _ o) => some (target (word pc) o).toNat
  | _ => none

/-- Eight words of a quad's code from an address up. -/
def codeRun (s : State) (quad addr : Nat) : List (Nat × Word32) :=
  (List.range 8).map fun i => (addr + 4 * i, codeWord s quad (addr + 4 * i))

/-- The buffer after a fetch at an address that it does not hold: eight words from there, and eight from the target of the
first branch among them (R91; DESIGN CHOICE, log 22). -/
def refill (s : State) (quad pc : Nat) : Map Word32 :=
  let a := codeRun s quad pc
  let m := a.foldl (fun (m : Map Word32) e => m.put e.1 e.2) []
  match a.findSome? fun e => branchTarget e.1 e.2 with
  | some t => if t < windowEnd then (codeRun s quad t).foldl (fun (m : Map Word32) e => if m.has e.1 then m else m.put e.1 e.2) m else m
  | none => m

/-- The word at a context's pc, from its buffer or fetched, and the machine after it. -/
def fetch (s : State) : Word32 × State :=
  let c := s.me
  let pc := c.pc.toNat
  if c.ibuf.has pc then (c.ibuf.get 0 pc, s)
  else
    let m := refill s s.myQuad pc
    (m.get 0 pc, s.onMe fun c => { c with ibuf := m })

/-! ### Settle points (R92) -/

/-- Is the instruction, decoded from a word, a settle point? -/
def isSettle (w : Word32) (i : Instr) : Bool :=
  w.msb || match i with
    | .tbegin _ _ => true
    | .tend _ => true
    | .retry _ => true
    | _ => false

/-- Does the instruction end its context, and so take a pending exception (R137, R278)? -/
def isEnd : Instr → Bool
  | .halt _ => true
  | .haltK _ _ _ => true
  | .tail _ => true
  | _ => false

/-! ### What comes of a turn -/

/-- An instruction or a step without an encoding is executed on a state, the machine is only moved on, or the turn comes to nothing,
since the context waits for results. -/
inductive Pick where
  | run (i : Instr) (s : State)
  | wait (s : State)
  | idle (s : State)
  | stop (f : Fault)
deriving DecidableEq, Repr

/-- TRAP_ENTRY of a cause, once results have been waited for (R242): code, TVAL, and the address for TPC. -/
def entering (s : State) (code : Nat) (tval ret : Word) : Pick :=
  match s.settleCause s.cur with
  | (s, false) => .wait s
  | (s, true) => .run .trapEntry { s with ev := [code, 0, tval.toNat, ret.toNat] }

/-- A cause is pending that the instruction takes in its place: results have been waited for, or the context ends. -/
def takesPending (c : Ctx) (ends : Bool) : Bool := c.deferred.isSome || (c.carry.isSome && (ends || !c.ctl.intrap))

/-- The instruction issues: it is counted, in its window too (R95). -/
def Ctx.counted (settles : Bool) (c : Ctx) : Ctx :=
  { c with
    window := if c.opens || settles then 1 else c.window + 1, opens := false, uncounted := (c.window, c.opens), woke := []
    issued := c.issued + 1 }

def State.counted (s : State) (settles : Bool) : State := s.onMe (Ctx.counted settles)

/-- Is the instruction a memory access of its context: a load, a store or an atomic, scalar or vector, or a form that reads a record? -/
def isAccess (i : Instr) : Bool :=
  match i with
  | .ld .. => true | .ldAcq .. => true | .ldnc .. => true | .ldz .. => true | .ldzAcq .. => true | .ldncZ .. => true
  | .ldp .. => true | .ldpAcq .. => true | .st .. => true | .stRel .. => true | .stp .. => true | .stpRel .. => true
  | .vld .. => true | .vst .. => true | .vlds .. => true | .vsts .. => true | .vldx .. => true | .vstx .. => true
  | .amoAdd .. => true | .amoAnd .. => true | .amoOr .. => true | .amoXor .. => true | .amoMin .. => true | .amoMax .. => true
  | .amoMinz .. => true | .amoMaxz .. => true | .amoSwap .. => true | .amoFadd .. => true | .amoCas .. => true
  | .cadd .. => true | .caddRel .. => true | .grab .. => true | .arm .. => true | .disarm .. => true | .waitge .. => true
  | .barr .. => true | .bwait .. => true | .spawn .. => true | .enq .. => true | .deq .. => true | .hostpost .. => true
  | _ => false

/-- Is it a waitge without its answer? -/
def Out.unanswered (o : Out) : Bool := o.pending && match o.op with | .waitge _ _ _ => true | _ => false

/-- Does the instruction start an operation of an engine that makes accesses (R317, R341, R374)? -/
def startsOperation (i : Instr) : Bool :=
  match i with
  | .cpgoRead .. => true | .gather .. => true | .scatter .. => true | .mldb .. => true | .mgang .. => true | .mms .. => true
  | .rstr .. => true | .rstrF .. => true | .prlg .. => true | .prlgF .. => true
  | _ => false

/-- A memory access does not proceed before the answer of an earlier waitge: the context waits there (R310). So does the start of an
operation, whose accesses come after the answer (DEDUCED, log 5). -/
def afterWaitge (s : State) (i : Instr) : State × Bool :=
  if (isAccess i || startsOperation i) && s.me.outs.any Out.unanswered then s.require s.cur Out.unanswered else (s, true)

/-- A decoded instruction reaches issue: a settle point waits for results (R92), what is pending is taken in its place. -/
def issueDecoded (s : State) (w : Word32) (i : Instr) : Pick :=
  if isSettle w i then
    match s.settle s.cur with
    | (s, false) => .wait s
    | (s, true) => if takesPending s.me (isEnd i) then entering s cFloat 0 s.me.pc else .run i (s.counted true)
  else if isEnd i && takesPending s.me true then entering s cFloat 0 s.me.pc
  else match afterWaitge s i with
    | (s, false) => .wait s
    | (s, true) => .run i (s.counted false)

/-- The cause that a fetch at the context's pc raises before its word is known, or the word's place in its window: overlay fetch
(R102), WINDOW (R95), which comes before any cause of the word itself (R241), the poison of the word (R427) (DEDUCED, log 55). A fetch at
an unbacked offset takes the overlay-fetch cause, as R102 and R160 have it, and not the access fault of R15, which the manual does not
settle (DEDUCED, log 55). -/
def fetchCause (s : State) : Option (Nat × Word) :=
  let c := s.me
  if (s.quad s.myQuad).xbound.toNat ≤ c.pc.toNat then some (cOverlay, c.prevPc)
  else if !c.opens && decide (32 ≤ c.window) && !wordSettles (fetch s).1 then some (cWindow, 32)
  else if s.poisonRef s.myQuad { isLocal := true, addr := c.pc.toNat } then some (cAccess, c.pc)
  else none
where
  /-- Is a word a settle point, legal or not? -/
  wordSettles (w : Word32) : Bool := match decode w with | .ok i => isSettle w i | .illegal _ => w.msb

/-- The word at the context's pc reaches issue: the causes of its fetch, then an illegal word, then the instruction (R241). -/
def issueFetch (s : State) : Pick :=
  match fetchCause s with
  | some (code, tval) => entering s code tval s.me.pc
  | none =>
    let r := fetch s
    match decode r.1 with
    | .illegal _ => .run .illegalInstruction r.2
    | .ok i => issueDecoded r.2 r.1 i

/-- The issue position of an asynchronous cause, as a recording logs it (R430). -/
def asyncEntry (s : State) (code : Nat) (tval : Word) : LogEntry :=
  { kind := .async, who := s.cur, what := s.me.issued, bytes := bytesOfNat 1 code ++ bytesOfNat 8 tval.toNat }

/-- Does an asynchronous cause wait that may be taken now, power before timer (R241)? A replay takes those that are logged, at their
positions and at no others (R431). None comes between the positions of a window that is replayed (R252). -/
def asyncCause (s : State) : Option (Nat × Word) :=
  let c := s.me
  if c.inReplay then none
  else match s.replayOf (s.partOf s.cur) with
  | some r =>
    (r.todo.find? fun e => e.kind == .async && e.who == s.cur).bind fun e =>
      if e.what = c.issued then some (natOfBytes (e.bytes.take 1), word (natOfBytes (e.bytes.drop 1))) else none
  | none =>
    if c.ctl.intrap then none
    else match c.power with
      | some v => some (cPower, v)
      | none => if c.timers = 0 then none else some (cTimer, word c.timers)

/-- An asynchronous cause at the boundary before an instruction (R241, R246): in an attempt that may abort it does, and the
cause stays pending. -/
def issueAsync (s : State) : Pick :=
  match asyncCause s with
  | none => issueFetch s
  | some (code, tval) => if s.me.openAttempt.isSome then .idle (s.hardAbort s.cur 9 0) else entering s code tval s.me.pc

/-! ### Replay (R252, R253) -/

/-- The round-robin pointer of a core moves past a context that issues (R208). -/
def State.pastTurn (s : State) (k : Nat) : State := s.onCore (coreOf k) fun co => { co with rr := k % 8 + 1 }

/-- An instruction of a context has issued (R208, R420). -/
def State.pastIssue (s : State) (k : Nat) : State := s.onCore (coreOf k) fun co => { co with rr := k % 8 + 1, issues := co.issues + 1 }


/-- The results of the buffer whose place has come reach their registers (R252). -/
def Ctx.returned (t : Strip) (c : Ctx) : Ctx :=
  let due (a : Buffered) : Bool := decide (a.at_ ≤ t.pos) && (c.out a.seq).isSome
  ((t.arrivals.filter due).foldl (fun c a => match c.out a.seq with | some o => c.deliver o | none => c) c).onStrip fun t =>
    { t with arrivals := t.arrivals.filter fun a => !due a }

/-- Is a position of a replay not performed again: an accepted side effect, or one whose result is in the buffer (R252)? -/
def Strip.skips (t : Strip) (p : Pos) : Bool := p.done || t.arrivals.any fun a => p.owns a.seq

/-- A position of a replay that is not performed again: what it wrote at issue is written, a result in the buffer becomes outstanding, to
come at its place, and the context goes on as it did (R252). -/
def Ctx.skip (t : Strip) (p : Pos) (c : Ctx) : Ctx :=
  let pre := c.counted p.settles
  let seq := pre.nextSeq
  let c := p.writes.foldl Ctx.write pre
  let c := match t.arrivals.find? fun a => p.owns a.seq with
    | some a => (c.issue .value a.dsts false false false (some a.ans)).onOut seq fun o => { o with held := true }
    | none => c
  (pre.pass { p with seq, n := c.nextSeq - seq } c.advance).onStrip fun t =>
    { t.next with arrivals := t.arrivals.map fun a => if p.owns a.seq then { a with seq } else a }

/-- The next position of a replay (R252): skipped, or issued again; no asynchronous cause comes between. A replay that has passed its last
position is over, and one whose path a handler has changed is given up (DEDUCED, log 18). -/
def replayTurn (s : State) (t : Strip) : Pick :=
  let s := s.onMe (Ctx.returned t)
  let t := s.me.strip.getD t
  match t.trail with
  | [] => .idle (s.onMe Ctx.endReplay)
  | p :: _ =>
    if p.pc ≠ s.me.pc then .idle (s.onMe Ctx.endReplay)
    else if t.skips p then .idle ((s.onMe (Ctx.skip t p)).pastTurn s.cur)
    else issueFetch s

/-- A withdrawn mms of an earlier window that raises a cause when it is issued again takes it at its own position, with the registers as
they stood there (R253); results are waited for first. -/
def State.resubDenied (s : State) (r : Resub) (e : Denied) : State :=
  match s.settle s.cur with
  | (s, false) => s
  | (s, true) =>
    let t (c : Ctx) : Strip := { at_ := r.pc, trail := [], arrivals := [], stop := 0, back := some (c.pc, c.snap, r.snap) }
    (s.onMe fun c =>
      { (c.restore r.snap).replaying none (t c :: c.cuts) with
        pc := r.pc, trail := [], buffer := [], ctl := { r.snap.ctl with rpl := true } }).alone fun s => s.deny e

/-- The new identifier of a withdrawn mms: in its outstanding result, or in its register where that still holds the old one. -/
def Ctx.renumber (c : Ctx) (r : Resub) (ident : Nat) : Ctx :=
  let c := { c with asked := none, resubs := c.resubs.drop 1, subs := c.subs ++ [{ r with ident }] }
  if c.outs.any (fun o => o.seq == r.seq) then c.onOut r.seq fun o => { o with ans := some { writes := [.x r.d (word ident)] } }
  else if c.getX r.d = word r.ident then c.poke (.x r.d (word ident)) else c

/-- The first withdrawn mms issues again (R254, R357): with the registers as they stood, its checks, its key and its member are made anew
(R353, R355), and its tiles are waited for (R167) (DEDUCED, log 18). -/
def State.resubmit (s : State) (r : Resub) : State :=
  let c := s.me.restore r.snap
  match mmsCheck s c.sampled (c.getX r.a) (c.getX r.b) (c.getX r.c) with
  | (.no e, s) => s.resubDenied r e
  | (.wait o, s) =>
    if isHandler s.cur then s.resubDenied r (.trap cIllegal (word (codeWord s s.myQuad r.pc.toNat).toNat))
    else s.onMe fun c => { c with status := .sleeping [o], wake := false, since := s.now }
  | (.ok key m, s) =>
    if !s.mayGroup s.myGang key m then s
    else if (s.gang s.myGang).hasRoom key m.rows then
      let gate := s.me.gate s.cur 0
      let j := s.join key { m with seq := r.seq, gate }
      j.2.onMe fun c => (c.renumber r j.1).issueGate gate
    else s.askRoom

/-! ### The turn of a context and of a core -/

/-- The context whose turn it is comes to issue. A replay comes first, up to where the context was halted; then a translation fault that the
host has declined, then a withdrawn mms. -/
def turn (s : State) : Pick :=
  let c := s.me
  let replays : Option Strip := c.strip.filter fun t => c.declined.isNone || t.trail.isEmpty || decide (t.pos < t.stop)
  if c.status != .running || c.halted then .idle s
  else match replays, c.declined with
  | some t, _ => replayTurn s t
  | none, some (_, va) => entering s cTranslation va c.pc
  | none, none =>
    match c.resubs with
    | r :: _ => if c.replay.isNone then .idle (s.resubmit r) else issueAsync s
    | [] => issueAsync s

/-- May the partition of a core start tasks and handlers? -/
def coreRuns (s : State) (core : Nat) : Bool :=
  match s.partOfQuarter (quarterOf (quadOfCore core)) with
  | some (_, p) => p.mode == .running
  | none => false

/-- The lowest free task context of a core (R202). -/
def freeTask (s : State) (core : Nat) : Option Nat :=
  (List.range 4).find? fun i => (s.ctx (8 * core + i)).status == .free

/-- The contexts of a core in round-robin order from its pointer (R208). -/
def roundRobin (s : State) (core : Nat) : List Nat :=
  (List.range 5).map fun i => 8 * core + ((s.core core).rr + i) % 5

/-- What a sleeping context waits on. -/
def Ctx.waits (c : Ctx) : List WaitOn := match c.status with | .sleeping w => w | _ => []

/-- Is a context asleep, with a wake on its way? -/
def Ctx.called (c : Ctx) : Bool := c.wake && !c.halted && match c.status with | .sleeping _ => true | _ => false

/-- Do the entries of two contexts, of which one waits or has just waited on each, have one in common? -/
def sharesEntry (j k : Nat) (a b : List WaitOn) : Bool :=
  a.any fun w => b.contains w &&
    match w with
    | .gang => gangOf (coreOf j) == gangOf (coreOf k)
    | _ => quadOf j == quadOf k

/-- Would the context issue if its turn came? -/
def wouldIssue (s : State) (k : Nat) : Bool :=
  (s.ctx k).status == .running && !(s.ctx k).halted && match turn { s with cur := k } with | .wait _ => false | _ => true

/-- Does a context stand before another that is to wake: did it go to sleep earlier on the same entry, and is it to wake too, or awake
and ready but not yet issued (R167)? -/
def wakesBefore (s : State) (j k : Nat) (c d : Ctx) : Bool :=
  decide (c.since < d.since) &&
    ((c.called && sharesEntry j k c.waits d.waits) || (sharesEntry j k c.woke d.waits && wouldIssue s j))

/-- May a context wake now (R167)? -/
def State.mayWake (s : State) (k : Nat) : Bool :=
  (s.ctx k).called && !s.ctxs.any fun e => wakesBefore s e.1 k e.2 (s.ctx k)

/-- A sleeping context that has been woken. -/
def woken (s : State) : Option Nat := (s.ctxs.find? fun e => s.mayWake e.1).map (·.1)

/-- The i-th message of the fabric can be decided now: nothing of its source, destination and channel stands before it (R222),
what its sending releases has been performed (R223), and in a replay its turn has come (R431). -/
def arrivalReady (s : State) (i : Nat) : Bool :=
  match s.net[i]? with
  | none => false
  | some m =>
    m.answer.isNone && m.here s && !(s.net.take i).any (fun e => e.answer.isNone && m.behind e) &&
    s.mayDecide m &&
    match m.sender with
    | some (k, seq) =>
      (match (s.ctx k).out seq with
      | some o => (s.ctx k).mayPerform o
      | none => (s.core (coreOf k)).tracker.isEmpty)
    | none =>
      if m.reply then !(((s.core (fld m.header 0 14)).sending.takeWhile (· != m)).any fun e => m.behind e) else true

/-- Do two messages go to the same core? -/
def Msg.sameDst (m e : Msg) : Bool := m.dst == e.dst && m.dstModule == e.dstModule

/-- Which fired trigger of a slice is sent next: the first that is not sent and has no earlier one to its core before it, which
would be one not yet accepted (R286). -/
def nextFired : List Fired → List Fired → Option Nat
  | _, [] => none
  | before, f :: t =>
    if !f.sent && !before.any (fun e => e.msg.sameDst f.msg) then some before.length else nextFired (before ++ [f]) t

/-- Is it the message, whatever has been answered? -/
def Msg.isMsg (m e : Msg) : Bool := ({ e with answer := none } : Msg) == { m with answer := none }

end Sys2Proof.Machine
end

