-- ==== Sys2Proof/Machine/HomeEvents.lean ====
section
/-! DEFINITION. Steps of contexts, home slices and caches that no instruction word encodes: causes, results, register writes,
requests at home slices, messages, translation and near memory.

Each takes its arguments from `ev` (DESIGN CHOICE, log 1). One that its unit cannot take as the machine stands changes nothing (DESIGN CHOICE, log 2). -/

namespace Sys2Proof.Machine

/-- A step is taken where a test holds; elsewhere nothing changes (DESIGN CHOICE, log 2). -/
def State.when_ (s : State) (b : Bool) (f : State → State) : Result := .next (if b then f s else s)

/-- Does the context whose turn it is issue? -/
def State.live (s : State) : Bool := s.me.status == .running && !s.me.halted

/-! ### Causes (R32, R137, R242, R246) -/

/-- R32: the word at the context's pc is illegal (DEDUCED, log 61). -/
def execIllegalInstruction (s : State) : Result :=
  let r := fetch s
  s.when_ (s.live && match decode r.1 with | .ok _ => false | .illegal _ => true) fun _ => r.2.alone fun s => s.illegal r.1

/-- A power or timer cause is taken (R241, R246): results are waited for, what is pending comes first, and the cause is no longer
pending once it has entered or been discarded. -/
def State.takeAsync (s : State) (code : Nat) (tval : Word) : State :=
  let k := s.cur
  match s.settle k with
  | (s, false) => s
  | (s, true) =>
    match s.takePending k false with
    | some s => s
    | none =>
      let turn := asyncEntry s code tval
      let s := s.onMe fun c => if code = cPower then { c with power := none } else { c with timers := 0 }
      (s.noteOrder (s.partOf k) turn).enterTrap k code 0 tval s.me.pc

/-- The declined translation fault of a context is taken (R263) (DEDUCED, log 36). -/
def State.takeDeclined (s : State) (reason : Nat) (va : Word) : State :=
  (s.onMe fun c => { c with declined := none }).alone fun s => s.takeTrap s.cur cTranslation reason va s.me.pc

/-- What is pending is taken in place of the instruction at the context's pc, where that is one that waits for results: a settle point, or
halt, halt.k or tail, which take a carry even in a trap handler (R137, R278). -/
def State.takeWaiting (s : State) : State :=
  let w := (fetch s).1
  match decode w with
  | .illegal _ => s
  | .ok i =>
    if (fetchCause s).isSome || !(isSettle w i || isEnd i) then s
    else match s.settle s.cur with
      | (_, false) => s
      | (t, true) => (t.takePending s.cur (isEnd i)).getD s

/-- TRAP_ENTRY (R242) for the causes that no instruction's own meaning takes: what is pending (R137, R278), asynchronous causes, a
declined translation fault, and the causes of a fetch. `ev` names the cause (DEDUCED, log 61). -/
def execTrapEntry (s : State) : Result :=
  let code := s.arg 0
  s.when_ s.live fun s =>
    match s.me.declined with
    | some (reason, va) => if code = cTranslation then s.takeDeclined reason va else s
    | none =>
      if code = cFloat then s.takeWaiting
      else
        match asyncCause s with
        | some (c, tval) =>
          if c ≠ code then s else if s.me.openAttempt.isSome then s.hardAbort s.cur 9 0 else s.takeAsync c tval
        | none =>
          match fetchCause s with
          | some (c, tval) => if c = code then s.alone fun s => s.takeTrap s.cur c 0 tval s.me.pc else s
          | none => s

/-! ### Results (R92, R94, R220) -/

/-- Is an operation performed when its result arrives: a read, a fence, the release of a start, or a reply, which then leaves (R229)? -/
def OutOp.isRead : OutOp → Bool
  | .load _ _ _ => true
  | .waitge _ _ _ => true
  | .fence _ => true
  | .start _ => true
  | .reply _ => true
  | _ => false

/-- R94: a read whose value is not bound yet is bound, as a whole or in the aligned 8-byte word of the byte that the third argument
names from 1 (R152, R162); a result that is known is written, unless a replay holds it back (R252). A halted context takes no result
that a pre-emption abandons (R248) (DESIGN CHOICE, log 3). -/
def execResultArrival (s : State) : Result :=
  let k := s.arg 0
  let c := s.ctx k
  let part := s.arg 2
  match c.out (s.arg 1) with
  | none => .next s
  | some o =>
    if c.halted && o.pure then .next s
    else if !o.pending then .next (if o.held then s else (s.onCtx k fun c => c.deliver o).endIfDone k)
    else s.when_ (o.op.isRead && c.mayPerform o) fun s =>
      if part = 0 then (s.perform k o).1.endIfDone k else s.bindPart k o (part - 1)

/-- A request of a context comes to its home (R186, R271, R283, R288, R231): the operation is performed where it is of the kind and
its turn has come. -/
def homeStep (kind : OutOp → Bool) (s : State) : Result :=
  let k := s.arg 0
  let c := s.ctx k
  match c.out (s.arg 1) with
  | none => .next s
  | some o => s.when_ (kind o.op && o.pending && c.mayPerform o && !(c.halted && o.pure)) fun s => (s.perform k o).1.endIfDone k

/-- R186: a store is performed as a whole, or its first elements, as many as the third argument says (R152). -/
def execHomeWrite (s : State) : Result :=
  let k := s.arg 0
  let c := s.ctx k
  let n := s.arg 2
  if n = 0 then homeStep (fun o => match o with | .store _ => true | _ => false) s
  else match c.out (s.arg 1) with
    | none => .next s
    | some o => s.when_ (o.pending && c.mayPerform o) fun s => s.storePart k o n
/-- R271. -/
def execHomeAtomicApply (s : State) : Result := homeStep (fun o => match o with | .amo _ _ _ _ _ _ _ _ => true | _ => false) s
/-- R283. -/
def execHomeArmApply (s : State) : Result := homeStep (fun o => match o with | .arm _ _ _ => true | _ => false) s
/-- R288. -/
def execHomeDisarmApply (s : State) : Result := homeStep (fun o => match o with | .disarm _ _ _ => true | _ => false) s
/-- R310. -/
def execHomeWaitgeEval (s : State) : Result := homeStep (fun o => match o with | .waitge _ _ _ => true | _ => false) s
/-- R231. -/
def execHomeQueueApply (s : State) : Result :=
  homeStep (fun o => match o with | .enq _ _ _ _ _ _ => true | .deq _ _ _ _ => true | _ => false) s

/-- R220: the status of a message whose destination has decided, or that has gone to another module, reaches its sender. A
status that no context waits for any more is dropped. -/
def execAmsendStatusReturn (s : State) : Result :=
  let k := s.arg 0
  let seq := s.arg 1
  match s.net.find? fun m => m.isOf k seq with
  | none => .next s
  | some m =>
    match (s.ctx k).out seq with
    | none => s.when_ m.answer.isSome fun s => s.dropMsg k seq
    | some o => s.when_ (o.pending && (s.ctx k).mayPerform o && (m.answer.isSome || !m.here s)) fun s => (s.perform k o).1.endIfDone k

/-! ### Waking (R167, R304, R305, R308) -/

/-- R308: the context is ready again. Until it has issued, no later sleeper on the same entry is woken, so that they issue in the order
in which they went to sleep (R167; DEDUCED, log 64). -/
def execContextWake (s : State) : Result :=
  let k := s.arg 0
  s.when_ (s.mayWake k) fun s => (s.onCtx k fun c => { c with woke := c.waits }).wakeUp k

/-- R304. -/
def execConflictBackoffExpiry (s : State) : Result :=
  let k := s.arg 0
  s.when_ ((s.ctx k).status == .backoff) fun s => s.onCtx k fun c => { c with status := .running, opens := true }

/-- R305: the first waiter has the token, and issues its tbegin again. -/
def execTokenGrant (s : State) : Result :=
  let qr := s.arg 0
  let q := s.quarter qr
  match q.token, q.waiters with
  | none, k :: rest =>
    .next ((s.onQuarter qr fun q => { q with token := some k, waiters := rest }).onCtx k fun c =>
      if c.status = .token then { c with status := .running } else c)
  | _, _ => .next s

/-! ### Register writes (R99, R103, R210, R225, R253, R327) -/

/-- The write of a control register, as a write form of the context whose turn it is makes it (R235) (DEDUCED, log 61). -/
def writeStep (r : CtlReg) (v : Word) (s : State) : Result :=
  s.when_ (s.live && r.writable s.me.ctl.sys) fun s => s.alone fun s => ctlStore s r v id

/-- R103. -/
def execXboundWrite (s : State) : Result := writeStep .xbound (word (s.arg 0)) s
/-- R327. -/
def execTlbaseWrite (s : State) : Result := writeStep .tlbase (word (s.arg 0)) s
/-- R210. -/
def execDispthWrite (s : State) : Result := writeStep .dispth (word (s.arg 0)) s
/-- R225. -/
def execMbdepthWrite (s : State) : Result := writeStep .mbdepth (word (s.arg 0)) s
/-- R253. -/
def execTpcWrite (s : State) : Result := writeStep .tpc (word (s.arg 0)) s
/-- R99, R101: `ev` gives the index, which is one of the six loop registers', and the value. -/
def execLoopRegisterWrite (s : State) : Result :=
  match ctlReg (s.arg 0) with
  | some (.lc n) => writeStep (.lc n) (word (s.arg 1)) s
  | some (.ls n) => writeStep (.ls n) (word (s.arg 1)) s
  | some (.le n) => writeStep (.le n) (word (s.arg 1)) s
  | _ => .next s

/-! ### Messages (R212, R221, R222, R229, R285, R286) -/

/-- A reply has been decided: one refused stays to be sent again, any other is done (R229). -/
def State.replyDecided (s : State) (m : Msg) (w : Word) : State :=
  let core := fld m.header 0 14
  let s := ({ s with net := s.net.erase m } : State).countRefusal core w
  if fld w 0 2 = 1 then s else (s.onCore core fun c => { c with sending := c.sending.erase m }).endIfDone (handlerOf core)

/-- R221: the destination core decides. A status goes back to a context or to a home slice. -/
def execMessageArrival (s : State) : Result :=
  let i := s.arg 0
  match s.net[i]? with
  | none => .next s
  | some m =>
    s.when_ (arrivalReady s i) fun s =>
      let r := s.decideMsg m
      let s := r.2
      if m.reply then s.replyDecided m r.1
      else
        match m.sender with
        | some (k, seq) =>
          if ((s.ctx k).out seq).isSome then { s with net := s.net.set i { m with answer := some r.1 } } else s.dropMsg k seq
        | none => { s with net := s.net.set i { m with answer := some r.1 } }

/-- R229. -/
def execReplyResend (s : State) : Result :=
  match (s.core (s.arg 0)).sending[s.arg 1]? with
  | none => .next s
  | some m => s.when_ (!s.net.contains m) fun s => { s with net := s.net ++ [m] }

/-- A change to the i-th fired trigger of a slice. -/
def State.onFired (s : State) (slice i : Nat) (f : Fired → Fired) : State :=
  s.onSlice slice fun sl => { sl with fired := sl.fired.modify i f }

/-- R285, R286. -/
def execTriggerMessageSend (s : State) : Result :=
  let h := s.arg 0
  match nextFired [] (s.slice h).fired with
  | none => .next s
  | some i =>
    match (s.slice h).fired[i]? with
    | none => .next s
    | some f =>
      let s := s.onFired h i fun f => { f with sent := true }
      .next { s with net := s.net ++ [f.msg] }

/-- The record of a lost trigger message (R432) (DEDUCED, log 52). -/
def lostTrigger (s : State) (h : Nat) (f : Fired) (reason : Nat) : FaultRec :=
  { va := word f.msg.counter, val := word (fld f.msg.destWord 0 44 * 256 + reason), pasid := f.msg.pasid, kind := 4, reason := 1
    access := 1, origin := identOf s.module (8 * h) }

/-- The answer to a trigger's message reaches its home slice (R212): accepted, it is done; refused, it is sent again; a FAULT is
reported, but for that of a PASID whose teardown has begun. -/
def State.triggerAnswered (s : State) (h i : Nat) (f : Fired) (w : Word) : State :=
  match fld w 0 2 with
  | 0 => s.onSlice h fun sl => { sl with fired := sl.fired.eraseIdx i }
  | 1 => s.onFired h i fun f => { f with refused := true }
  | _ =>
    let reason := fld w 8 8
    let s := s.onSlice h fun sl => { sl with fired := sl.fired.eraseIdx i }
    if reason = 2 ∧ f.torn then s else s.report (lostTrigger s h f reason)

/-- R212. The status of a message to another module is one of those that R220 gives (DESIGN CHOICE, log 12). -/
def execTriggerMessageStatus (s : State) : Result :=
  let h := s.arg 0
  let i := s.arg 1
  match (s.slice h).fired[i]? with
  | none => .next s
  | some f =>
    match s.net.find? fun m => f.msg.isMsg m with
    | none => .next s
    | some m =>
      let t : State := { s with net := s.net.erase m }
      match m.answer with
      | some w => .next (t.triggerAnswered h i f w)
      | none =>
        if m.here s then .next s
        else .next (({ t with free := t.free + 1 } : State).triggerAnswered h i f (freeStatus (Config.freeCount s.free)))

/-- R212. -/
def execTriggerResend (s : State) : Result :=
  let h := s.arg 0
  let i := s.arg 1
  match (s.slice h).fired[i]? with
  | none => .next s
  | some f =>
    s.when_ f.refused fun s =>
      let s := s.onFired h i fun f => { f with refused := false }
      { s with net := s.net ++ [f.msg] }

/-! ### The retirement tracker (R217) -/

/-- R217. -/
def execRetirementEntryFree (s : State) : Result := .next (s.retireEntry (s.arg 0) (s.arg 1))

/-! ### Translation, near memory, caches (R176, R188, R189, R192, R259, R261) -/

/-- R259, R261: a walk that finds a page fills the TLBs. A walk that fails leaves what it means to the access that asked. -/
def execPageWalk (s : State) : Result :=
  let quad := s.arg 0
  let va := s.arg 2
  s.when_ (s.build.hasQuad quad && decide (va < 2 ^ 57)) fun s => (translate s quad (s.arg 1) va).2

/-- Blocks of 64 KiB that a die's promotion area holds (R14, R192). -/
def promotionBlocks : Nat := 5 * 2 ^ 30 / 65536

/-- The first address of a die's HBM4. -/
def dieBase (s : State) (die : Nat) : Nat := s.domainIx * 2 ^ 46 + die * 2 ^ 37

/-- Is a block of 64 KiB in the HBM4 of the die? -/
def blockOfDie (s : State) (die block : Nat) : Bool :=
  decide (dieBase s die ≤ 65536 * block) && decide (65536 * (block + 1) ≤ dieBase s die + s.build.hbmBytes die)

/-- R192. -/
def execBlockPromotion (s : State) : Result :=
  let die := s.arg 0
  let b := s.arg 1
  let d := s.die die
  s.when_ (blockOfDie s die b && !d.promoted.contains b && decide (d.promoted.length < promotionBlocks)) fun s =>
    s.onDie die fun d => { d with promoted := b :: d.promoted }

/-- R192, R193: a block with a keep hint goes only after every block without one. -/
def execBlockEviction (s : State) : Result :=
  let die := s.arg 0
  let b := s.arg 1
  let d := s.die die
  s.when_ (d.promoted.contains b && (!d.keeps b || d.promoted.all d.keeps)) fun s =>
    s.onDie die fun d => { d with promoted := d.promoted.filter (· != b) }

/-- R176 (DEDUCED, log 58). -/
def execBankPowerUp (s : State) : Result :=
  let quad := s.arg 0
  let b := s.arg 1
  s.when_ (s.build.hasQuad quad && decide (b < bankCount (quadLayer quad))) fun s => s.powerUp quad b

/-- R188: the copy of a PC = 1 line leaves a die's remote-data cache. -/
def execCacheLineEviction (s : State) : Result :=
  .next (s.onDie (s.arg 0) fun d => { d with rdc := d.rdc.drop (s.arg 1) })

/-- Is it an address of this module's host memory? -/
def isHostPa (s : State) (pa : Nat) : Bool := pa / 2 ^ 46 == s.domainIx && pa.testBit 45

/-- R189: no copy of the line is left on the module; the host, which then owns the line, writes the bytes that `ev` gives after
the address into its own memory (DESIGN CHOICE, log 13). It waits while an irrevocable attempt holds the line (R306). -/
def execHostSnoop (s : State) : Result :=
  let pa := s.arg 0
  let bs : List Byte := (s.ev.drop 1).map (BitVec.ofNat 8)
  s.when_ (isHostPa s pa && decide (pa % 128 + bs.length ≤ 128) && s.mayWrite none [(pa, 0)]) fun s =>
    let s := { s with dies := s.dies.mapVals fun _ d => { d with rdc := d.rdc.drop (pa / 128) } }
    s.gwriteBytes none (pa / 2 ^ 37 % 4) none pa bs

end Sys2Proof.Machine
end

