-- ==== Sys2Proof/Machine/Transfer.lean ====
section
/-! DEFINITION. Weight sets, restrict and prolong (15_pyramid R369 to R387). -/

namespace Sys2Proof.Machine

/-! ### The operand words (R372, R373) -/

/-- The shape of a transfer. -/
structure Shape where
  pitchC : Nat
  pitchF : Nat
  ny : Nat
  nx : Nat
  fmt : Nat
  add : Bool
  two : Bool
  geo : Bool
  set : Nat
deriving DecidableEq, Repr

def Shape.of (x : Word) : Shape :=
  { pitchC := fld x 40 12, pitchF := fld x 28 12, ny := fld x 20 8, nx := fld x 8 12, fmt := fld x 6 2, add := bitAt x 5
    two := bitAt x 4, geo := bitAt x 3, set := fld x 0 3 }

/-- Element size, H, V, and the offsets of the regions. -/
def Shape.e (h : Shape) : Nat := elemSize h.fmt
def Shape.half (h : Shape) : Nat := h.nx / 2
def Shape.vert (h : Shape) : Nat := h.ny / 2
def fineOff (x : Word) : Nat := fld x 0 22
def coarseOff (x : Word) : Nat := fld x 32 22

/-- Fold forms. -/
def TransferKind.fold : TransferKind → Bool
  | .rstrF => true | .prlgF => true | _ => false
/-- Coarsening forms. -/
def TransferKind.up : TransferKind → Bool
  | .rstr => true | .rstrF => true | _ => false
/-- KIND of R386. -/
def TransferKind.code : TransferKind → Nat
  | .rstr => 1 | .rstrF => 2 | .prlg => 3 | .prlgF => 4

/-! ### Footprints (R376) -/

/-- A rectangle of elements: first column and row, columns, rows. -/
structure Rect where
  x : Int
  y : Int
  w : Nat
  h : Nat
deriving DecidableEq, Repr

/-- The fine and the coarse side of an operation. -/
def fineRect (k : TransferKind) (h : Shape) : Rect :=
  if !h.geo && k.up then
    if h.two then { x := -1, y := -1, w := h.nx + 2, h := h.ny + 2 } else { x := -1, y := 0, w := h.nx + 2, h := 1 }
  else { x := 0, y := 0, w := h.nx, h := h.ny }
def coarseRect (k : TransferKind) (h : Shape) : Rect :=
  let r (w hh : Nat) : Rect := { x := 0, y := 0, w, h := if h.two then hh else 1 }
  if h.geo then r h.nx h.ny
  else match k with
    | .rstr => r (if h.two then h.nx else 2 * h.nx) h.ny
    | .rstrF => r h.half h.vert
    | .prlg => r ((if h.two then h.nx else 2 * h.nx) + 1) (h.ny + 1)
    | .prlgF => r (h.half + 1) (h.vert + 1)

/-- The first byte of a rectangle, and one past its last. -/
def Rect.span (r : Rect) (off pitch e : Nat) : Int × Int :=
  ((off : Int) + (r.y * pitch + r.x) * e, (off : Int) + ((r.y + r.h - 1) * pitch + r.x + r.w) * e)

/-- The rows of a rectangle as byte ranges. -/
def Rect.rows (r : Rect) (off pitch e : Nat) : List (Int × Int) :=
  (List.range r.h).map fun (i : Nat) =>
    let a : Int := (off : Int) + ((r.y + i) * pitch + r.x) * e
    (a, a + r.w * e)

/-! ### The check (R375) -/

/-- The checks that the shape word fails. -/
def shapeBad (k : TransferKind) (x : Word) (q : Quad) : Bool :=
  let h := Shape.of x
  let set := (q.weights.find? fun e => e.1 == h.set).map (·.2)
  fld x 52 12 != 0 || h.nx == 0 || h.ny == 0 || (!h.two && (h.ny != 1 || h.pitchC != 0 || h.pitchF != 0)) ||
    (!h.geo && (h.nx % 2 == 1 || (h.two && h.ny % 2 == 1))) || (h.geo && k.fold) ||
    (match set with
      | none => true
      | some w => (!h.geo && !h.two && w.rows != 1) || (h.geo && (w.rows != 2 || w.cols != 2))) ||
    (h.two && (decide (h.pitchF < (fineRect k h).w) || decide (h.pitchC < (coarseRect k h).w)))

/-- The checks that the offsets word fails, for a quad of a layer. -/
def offsetsBad (k : TransferKind) (layer : Nat) (xa xb : Word) : Bool :=
  let h := Shape.of xa
  let f := (fineRect k h).span (fineOff xb) h.pitchF h.e
  let c := (coarseRect k h).span (coarseOff xb) h.pitchC h.e
  let fineCap := capacity (if k.fold then layer else layer - 1)
  fld xb 54 10 != 0 || fld xb 22 10 != 0 || fineOff xb % h.e != 0 || coarseOff xb % h.e != 0 ||
    decide (f.1 < 0) || decide ((fineCap : Int) < f.2) || decide (c.1 < 0) || decide ((capacity layer : Int) < c.2) ||
    (k.fold && ((fineRect k h).rows (fineOff xb) h.pitchF h.e).any fun a =>
      ((coarseRect k h).rows (coarseOff xb) h.pitchC h.e).any fun b => decide (a.1 < b.2) && decide (b.1 < a.2))

/-! ### Instructions -/

/-- A transfer instruction (R374): illegal on L0 but for the fold forms (R33), forbidden in an attempt (R299). One that waits for room in the
queue makes its checks again at each try, of the weight set as it stands then (DESIGN CHOICE, log 76). -/
def transfer (k : TransferKind) (w : Word32) (d a b : BitVec 5) (s : State) : Result :=
  let xa := s.me.getX a
  let xb := s.me.getX b
  if s.myLayer = 0 ∧ !k.fold then .next (s.illegal w)
  else .next (s.unlessAttempt w fun s =>
    let q := s.quad s.myQuad
    if s.me.task.portable then s.trap cAccess xb
    else if shapeBad k xa q then s.trap cAccess xa
    else if offsetsBad k s.myLayer xa xb then s.trap cAccess xb
    else if 4 ≤ q.tq.length then s.onMe Ctx.again
    else
      let num := q.tissued + 1
      let op : TransferOp :=
        { num, kind := k, xa, xb, set := q.weights.get { rows := 1, cols := 1, w := [] } (Shape.of xa).set, rm := word s.me.rm
          pasid := s.me.ctl.pasid, launch := s.me.task.launch, gate := s.me.gate s.cur 1 }
      (s.onQuad s.myQuad fun q => { q with tq := q.tq ++ [op], tissued := num }).issueStart d (word num) op.gate)

/-- R374, R378, R380. -/
def execRstr (sb : Bool) (d a b : BitVec 5) (s : State) : Result := transfer .rstr (Instr.rstr sb d a b).word d a b s
/-- R374, R381. -/
def execRstrF (sb : Bool) (d a b : BitVec 5) (s : State) : Result := transfer .rstrF (Instr.rstrF sb d a b).word d a b s
/-- R374, R379, R380. -/
def execPrlg (sb : Bool) (d a b : BitVec 5) (s : State) : Result := transfer .prlg (Instr.prlg sb d a b).word d a b s
/-- R374, R381. -/
def execPrlgF (sb : Bool) (d a b : BitVec 5) (s : State) : Result := transfer .prlgF (Instr.prlgF sb d a b).word d a b s

/-- The references of the five dwords of a weight record, or the first denial (DEDUCED, log 56). -/
def checkDwords (s : State) (a : Word) : Nat → Chk (List Ref) × State
  | 0 => (.ok [], s)
  | n + 1 =>
    match checkAccess s s.cur .load a 8 8 with
    | (.no e, s) => (.no e, s)
    | (.ok r, s) =>
      match checkDwords s (a + 8) n with
      | (.ok l, s) => (.ok (r :: l), s)
      | (.no e, s) => (.no e, s)

/-- The set that a record's 40 bytes give (R67, R371); none where they break its limits. -/
def weightsOf (bs : List Byte) : Option WeightSet :=
  let at_ (i : Nat) : Nat := (bs.getD i 0).toNat
  let rows := at_ 0
  let cols := at_ 1
  if rows = 0 ∨ 3 < rows ∨ cols = 0 ∨ 3 < cols ∨ at_ 3 ≠ 0 then none
  else
    let w (i j : Nat) : Word := if i < rows ∧ j < cols then word (natOfBytes ((bs.drop (4 + 4 * (3 * i + j))).take 4)) else 0
    some { rows, cols, w := (List.range 9).map fun n => w (n / 3) (n % 3) }

/-- R371. The record is read as a load, after the context's own earlier accesses to its bytes and its earlier acquires (R196, R310). -/
def execWset (sb : Bool) (a b : BitVec 5) (s : State) : Result :=
  let xa := s.me.getX a
  let n := fld (s.me.getX b) 0 3
  .next (s.unlessAttempt (Instr.wset sb a b).word fun s =>
    match checkDwords s xa 5 with
    | (.no e, s) => s.deny e
    | (.ok refs, s) =>
      let touched (o : Out) : Bool := o.acq || o.ranges.any fun x => refs.any fun r =>
        x.1 == r.isLocal && decide (x.2.1 < r.addr + 8) && decide (r.addr < x.2.2)
      s.afterOuts touched fun s =>
        match weightsOf (refs.flatMap fun r => s.readRef s.cur false r 8) with
        | none => s.trap cAccess xa
        | some set => (s.onQuad s.myQuad fun q => { q with weights := q.weights.put n set }).step1 id)

/-- The word of xstat (R386). -/
def xstatWord (q : Quad) (x : Word) : Word :=
  if bitAt x 3 then
    word ((match q.tq with | o :: _ => if o.started then o.kind.code * 16 else 0 | [] => 0) + q.tq.length)
  else match q.weights.find? fun e => e.1 == fld x 0 3 with
    | some (_, w) => word (256 + w.rows * 16 + w.cols)
    | none => 0

/-- R386. -/
def execXstat (sb : Bool) (d a : BitVec 5) (s : State) : Result :=
  let xa := s.me.getX a
  .next (s.unlessAttempt (Instr.xstat sb d a).word fun s => s.writesX d (xstatWord (s.quad s.myQuad) xa))

/-! ### One output element (R377) -/

/-- The exact sum of terms, with invalid where R377 says so (DEDUCED, log 33). -/
def sumTerms (rm : Nat) (ts : List Val) : Val × Nat :=
  let infs := ts.filterMap fun v => match v with | .inf n => some n | _ => none
  if ts.any Val.isNan then (.quiet, cNV)
  else if infs.contains true && infs.contains false then (.quiet, cNV)
  else match infs with
    | n :: _ => (.inf n, 0)
    | [] =>
      let fins := ts.filter fun v => match v with | .fin _ _ _ => true | _ => false
      match fins with
      | [] => (.zero (!ts.isEmpty && ts.all fun v => v == .zero true), 0)
      | f :: rest =>
        let t := rest.foldl (fun t v => min t v.expOf) f.expOf
        (Val.ofInt (fins.foldl (fun acc v => acc + v.toScaled t) 0) t (rm == 3), 0)

/-- One product of a stencil: a weight, and the quad and offset of an element. -/
structure Term where
  weight : Word
  src : Nat
  at_ : Nat
deriving DecidableEq, Repr

/-- An output of an operation: its terms and where it goes. -/
structure Output where
  terms : List Term
  dst : Nat
  at_ : Nat
deriving DecidableEq, Repr

/-- The elements that an output reads: those of its terms, and under ADD its destination. -/
def Output.reads (o : Output) (h : Shape) : List (Nat × Nat) :=
  (o.terms.map fun t => (t.src, t.at_)) ++ if h.add then [(o.dst, o.at_)] else []

/-- An element's place among those read. -/
def elementKey (e : Nat × Nat) : Nat := e.1 * 2 ^ 22 + e.2

/-- The elements of `n` bytes in the aligned 8-byte word of an element. -/
def wordMates (n : Nat) (e : Nat × Nat) : List (Nat × Nat) := (List.range (8 / n)).map fun i => (e.1, e.2 / 8 * 8 + n * i)

/-- The elements read so far with those of one more list, each read once (R382), and with it its whole aligned 8-byte word (R337): an
element's code, and whether it is poisoned. -/
def readOnce (s : State) (n : Nat) (seen : Map (Nat × Bool)) (es : List (Nat × Nat)) : Map (Nat × Bool) :=
  es.foldl (fun m e =>
    if m.has (elementKey e) then m
    else (wordMates n e).foldl (fun m e =>
      m.put (elementKey e) (natOfBytes ((s.quad e.1).mem.read e.2 n), (s.quad e.1).poison.contains (e.2 / 8))) m) seen

/-- Out of R377: the code of an output and its conditions; the canonical NaN where it read a poisoned word (R427); a sum
that is not zero and rounds to zero keeps its sign (DEDUCED, logs 21, 33). -/
def outElement (seen : Map (Nat × Bool)) (h : Shape) (rm : Nat) (o : Output) : Nat × Nat :=
  let f := (fmtOf h.fmt).getD .f32
  let elem (q a : Nat) : Nat × Bool := seen.get (0, false) (elementKey (q, a))
  let read (q a : Nat) : Val := f.value false (elem q a).1
  if (o.reads h).any fun e => (elem e.1 e.2).2 then (f.qnan, cNV)
  else
    let v := sumTerms rm ((o.terms.map fun t => ((Fmt.f32.value false t.weight.toNat).mul (read t.src t.at_)).1) ++
      if h.add then [read o.dst o.at_] else [])
    let r := f.round false rm false v.1
    (r.1, v.2 ||| r.2)

/-- The child of a transfer by number; the quad itself in a fold. -/
def TransferKind.childQuad (k : TransferKind) (quad i : Nat) : Nat := if k.fold then quad else (childrenOf quad).getD i quad

/-- Weight w(i, j) of a set. -/
def WeightSet.at (w : WeightSet) (i j : Nat) : Word := w.w.getD (3 * i + j) 0

/-- The number of outputs of an operation: children, rows and columns. -/
def outDims (k : TransferKind) (h : Shape) : Nat × Nat × Nat :=
  let kids := if k.fold then 1 else 4
  if h.geo then (if k.up then 1 else 4, h.ny, h.nx)
  else if k.up then (kids, if h.two then h.vert else 1, h.half)
  else (kids, if h.two then h.ny else 1, h.nx)

/-- Output n of an operation of a quad (R378 to R381). -/
def outputOf (o : TransferOp) (quad n : Nat) : Output :=
  let h := Shape.of o.xa
  let (_, rows, cols) := outDims o.kind h
  let x := n % cols
  let y := n / cols % rows
  let kid := n / (cols * rows)
  let fineAt (a b : Int) : Nat := ((fineOff o.xb : Int) + (b * h.pitchF + a) * h.e).toNat
  let coarseAt (a b : Int) : Nat := ((coarseOff o.xb : Int) + (b * h.pitchC + a) * h.e).toNat
  let cx : Int := if o.set.cols = 3 then 1 else 0
  let cy : Int := if o.set.rows = 3 then 1 else 0
  let places := (List.range o.set.rows).flatMap fun i => (List.range o.set.cols).map fun j => (i, j)
  let x0 : Int := if o.kind.fold then 0 else if h.two then (kid % 2 * h.half : Nat) else (kid * h.half : Nat)
  let y0 : Int := if o.kind.fold then 0 else if h.two then (kid / 2 * h.vert : Nat) else 0
  let child := o.kind.childQuad quad kid
  if h.geo then
    if o.kind.up then
      { terms := (List.range 4).map fun k =>
          { weight := o.set.at (k / 2) (k % 2), src := o.kind.childQuad quad k, at_ := fineAt x y }
        dst := quad, at_ := coarseAt x y }
    else
      { terms := [{ weight := o.set.at (kid / 2) (kid % 2), src := quad, at_ := coarseAt x y }], dst := child, at_ := fineAt x y }
  else if o.kind.up then
    { terms := places.map fun p =>
        { weight := o.set.at p.1 p.2, src := child, at_ := fineAt (2 * (x : Int) + p.2 - cx) (2 * (y : Int) + p.1 - cy) }
      dst := quad, at_ := coarseAt (x0 + x) (y0 + y) }
  else
    let even (p : Nat × Nat) : Bool := ((x : Int) - p.2 + cx) % 2 == 0 && ((y : Int) - p.1 + cy) % 2 == 0
    { terms := (places.filter even).map fun p =>
        { weight := o.set.at p.1 p.2, src := quad
          at_ := coarseAt (x0 + ((x : Int) - p.2 + cx) / 2) (y0 + ((y : Int) - p.1 + cy) / 2) }
      dst := child, at_ := fineAt x y }

/-! ### The engine (R382, R383) -/

/-- How many outputs an operation has. -/
def TransferOp.total (o : TransferOp) : Nat := let d := outDims o.kind (Shape.of o.xa); d.1 * (d.2.1 * d.2.2)

/-- A change to the first operation of the queue. -/
def State.onTransfer (s : State) (quad : Nat) (f : TransferOp → TransferOp) : State :=
  s.onQuad quad fun q => { q with tq := match q.tq with | [] => [] | o :: t => f o :: t }

/-- What an operation reads whatever its weights, as byte ranges in a quad: the fine side of a coarsening in each child, halo and all, or
the coarse side of a refining (R376). -/
def TransferOp.footprint (o : TransferOp) (quad : Nat) : List (Nat × List (Int × Int)) :=
  let h := Shape.of o.xa
  if o.kind.up then
    (if o.kind.fold then [quad] else childrenOf quad).map fun c => (c, (fineRect o.kind h).rows (fineOff o.xb) h.pitchF h.e)
  else [(quad, (coarseRect o.kind h).rows (coarseOff o.xb) h.pitchC h.e)]

/-- A byte in each bank that a byte range touches. -/
def bankRefs (r : Int × Int) : List Ref :=
  ((List.range (ceilDiv (r.2 - r.1).toNat 0x10000)).map fun i => ({ isLocal := true, addr := r.1.toNat + 0x10000 * i } : Ref)) ++
    [{ isLocal := true, addr := (r.2 - 1).toNat }]

/-- The banks that hold an operation's footprint are powered up (R382). -/
def State.powerFootprint (s : State) (quad : Nat) (o : TransferOp) : State :=
  (o.footprint quad).foldl (fun s e => s.powerUps e.1 (e.2.flatMap bankRefs)) s

/-- The first operation goes on by at most `k` outputs or words: its elements are read as its outputs are computed, each once (R382);
when all are computed it writes each aligned word once (R337), so that under ADD a write between the read and the write of a word is
lost (R384) (DESIGN CHOICE, log 32). One that a teardown stops computes no further output (R331, R411). -/
def transferRun (quad : Nat) : Nat → State → State
  | 0, s => s
  | k + 1, s =>
    match (s.quad quad).tq with
    | [] => s
    | o :: _ =>
      if o.finished then s
      else if o.next < o.total && !o.abort then
        let h := Shape.of o.xa
        let out := outputOf o quad o.next
        let reads := out.reads h
        let seen := readOnce s h.e o.seen reads
        let r := outElement seen h o.rm.toNat out
        let p := Placed.of out.dst 0 (word out.at_) (bytesOfNat h.e r.1)
        let s := if o.started then s else s.powerFootprint quad o
        let s := reads.foldl (fun s e => s.powerUps e.1 [{ isLocal := true, addr := e.2 }]) s
        transferRun quad k ((s.works quad 1).onTransfer quad fun o =>
          { o with started := true, next := o.next + 1, seen, buf := p.put o.buf, cond := o.cond ||| word r.2 })
      else match o.buf with
        | [] => s.onTransfer quad fun o => { o with started := true, finished := true }
        | p :: rest =>
          match s.engineWrite p.quad (p.bytes.map fun b => ({ isLocal := true, addr := p.dword.toNat + b.1 }, b.2)) with
          | (_, false) => s
          | (s, true) => transferRun quad k ((s.works quad 1).onTransfer quad fun o => { o with buf := rest, finished := rest.isEmpty })

/-- The first operation retires once it has finished (R383). -/
def transferRetire (s : State) (quad : Nat) : State :=
  match (s.quad quad).tq with
  | [] => s
  | o :: rest =>
    if !o.finished then s
    else match s.timelineStore quad 4 o.num with
      | none => s
      | some (s, tlf) =>
        s.onQuad quad fun q =>
          { q with tq := rest, tdone := o.num, tstatus := q.tstatus ||| o.cond ||| (if tlf then 1 <<< 8 else 0) }

end Sys2Proof.Machine
end

