-- ==== Sys2Proof/Machine/EngineEvents.lean ====
section
/-! DEFINITION. The steps of copy, gather, matrix and transfer engines (13_copy R317, R326, R335; 14_matrix R349, R356, R358, R360;
15_pyramid R382, R383). Engines of a partition that is switched out stand still (R255): their state is in its image. -/

namespace Sys2Proof.Machine

/-- The elements or words that a step of an engine does: as many as `ev` says, and at least one. A 1 after that number has a copy write
words before its walk is over. -/
def stepCount (n : Nat) : Nat := max 1 n

/-- The release that the first operation of a copy context has still to see before its first access (R328); one that is stopped makes none. -/
def copyGate (s : State) (quad n : Nat) : Gate :=
  match ((s.quad quad).copyCtx n).queue with
  | o :: _ => if o.started || o.abort then none else o.gate
  | [] => none

/-- The same of a transfer (R384). -/
def transferGate (s : State) (quad : Nat) : Gate :=
  match (s.quad quad).tq with
  | o :: _ => if o.started || o.abort then none else o.gate
  | [] => none

/-- R317, R320 to R325. -/
def execCopyOperationStart (s : State) : Result :=
  .next (s.pastGates [copyGate s (s.arg 0) (s.arg 1)] (copyRun (s.arg 0) (s.arg 1) (s.arg 3 == 1) (stepCount (s.arg 2))))

/-- Is the operation at the head of a copy context's queue a gather or a scatter? -/
def headGathers (s : State) (quad n : Nat) : Bool :=
  match ((s.quad quad).copyCtx n).queue with
  | o :: _ => (match o.work with | .gather _ => true | .copy _ => false)
  | [] => false

/-- R335, R336: positions of a gather or scatter are served, in the order of the list. -/
def execGatherSublistService (s : State) : Result :=
  s.when_ (headGathers s (s.arg 0) (s.arg 1)) fun s =>
    s.pastGates [copyGate s (s.arg 0) (s.arg 1)] (copyRun (s.arg 0) (s.arg 1) (s.arg 3 == 1) (stepCount (s.arg 2)))

/-- R326. -/
def execCopyRetire (s : State) : Result := .next (copyRetire s (s.arg 0) (s.arg 1))
/-- R349. -/
def execBufferGLoad (s : State) : Result := .next (loadBuffer s (s.arg 0))
/-- R356. -/
def execHoldExpiry (s : State) : Result := .next (holdExpires s (s.arg 0) (s.arg 1))
/-- R358. -/
def execArraySelect (s : State) : Result := .next (selectArray s (s.arg 0))
/-- R358. -/
def execStationaryImageRead (s : State) : Result := .next (prereadImage s (s.arg 0) (s.arg 1))
/-- R360. -/
def execMemberRetire (s : State) : Result := .next (retireMember s (s.arg 0) (s.arg 1) (s.arg 2))
/-- R377 to R382. -/
def execTransferOperationStart (s : State) : Result :=
  .next (s.pastGates [transferGate s (s.arg 0)] (transferRun (s.arg 0) (stepCount (s.arg 1))))
/-- R383. -/
def execTransferRetire (s : State) : Result := .next (transferRetire s (s.arg 0))

end Sys2Proof.Machine
end

