-- ==== Sys2Proof/Machine/LaunchRecord.lean ====
section
/-! DEFINITION. The launch record and the cores that it selects (02_words R69; 09_tasks R209). -/

namespace Sys2Proof.Machine

/-! ### The launch record (R69) -/

/-- The fields of a launch record. -/
structure LaunchRec where
  kind : Nat
  size : Nat
  layer : Nat
  pri : Nat
  flags : Nat
  cores : Nat
  quarters : Nat
  count : Nat
  argc : Nat
  entry : Nat
  quads : Nat
  code : Nat
  codeBytes : Nat
  xbound : Nat
  data : Nat
  dataBytes : Nat
  dataOff : Nat
  args : List Word
  reserved : Nat
deriving DecidableEq, Repr

def LaunchRec.of (bs : List Byte) : LaunchRec :=
  let at_ (off len : Nat) : Nat := natOfBytes ((bs.drop off).take len)
  { kind := at_ 0 2, size := at_ 2 2, layer := at_ 4 1, pri := at_ 5 1, flags := at_ 6 1, cores := at_ 7 1, quarters := at_ 8 2
    count := at_ 0xA 1, argc := at_ 0xB 1, entry := at_ 0xC 4, quads := at_ 0x10 8, code := at_ 0x18 8, codeBytes := at_ 0x20 4
    xbound := at_ 0x24 4, data := at_ 0x28 8, dataBytes := at_ 0x30 4, dataOff := at_ 0x34 4
    args := (List.range 6).map fun i => word (at_ (0x40 + 8 * i) 8), reserved := at_ 0x38 8 + at_ 0x70 16 }

/-- The side of a quarter's grid on a layer (R69). -/
def sideOf (layer : Nat) : Nat := 2 ^ (3 - layer)

/-- Is it a global virtual address (R69, R179)? -/
def isGlobalVa (a : Nat) : Bool := decide (windowEnd ≤ a) && decide (a < 2 ^ 57)

/-- The quad that a bit of the quad mask selects in a quarter (R69). -/
def maskQuad (layer quarter bit : Nat) : Nat :=
  let s := sideOf layer
  quadAt (quarter / 4) layer (quarter / 2 % 2 * s + bit / s) (quarter % 2 * s + bit % s)

/-- The target quads: quarters ascending, then mask bits ascending (R209). -/
def LaunchRec.targetQuads (r : LaunchRec) : List Nat :=
  (bitsOf r.quarters 16).flatMap fun q => (bitsOf r.quads (sideOf r.layer ^ 2)).map fun b => maskQuad r.layer q b

/-- The target cores in the order of R209. -/
def LaunchRec.targets (r : LaunchRec) : List Nat := r.targetQuads.flatMap fun q => (bitsOf r.cores 4).map fun c => 4 * q + c

end Sys2Proof.Machine
end

