-- ==== Sys2Proof/Machine/HostQueues.lean ====
section
/-! DEFINITION. The host register block, submission queues and their completion, interrupts (17_host R399 to R406, R412, R432). -/

namespace Sys2Proof.Machine

/-! ### The command processor's accesses -/

/-- The partition that holds a PASID, with its number. -/
def State.partOfPasid (s : State) (pasid : Nat) : Option (Nat × Part) := s.parts.find? fun p => p.2.pasids.any fun e => e.1 == pasid

/-- The reference to a byte of a queue's address space: host physical for queue 0 (R404), and none from 2^45 on, virtual under its PASID
for another (R406). `write` says which permission is asked for (DEDUCED, log 42). A teardown does not keep the ABORTED of its queues from being
stored (R406, R411; DEDUCED, log 44). -/
def cpRef (s : State) (q : Nat) (a : Nat) (write : Bool) : Option Ref :=
  if q = 0 then (if a < 2 ^ 45 then some { isLocal := false, addr := hostPa s a } else none)
  else
    let pasid := (s.cp.queues.get {} q).pasid
    match s.partOfPasid pasid with
    | none => none
    | some (_, p) =>
      if a < windowEnd ∨ 2 ^ 57 ≤ a then none
      else match walkSpace s p pasid a with
        | .fault _ => none
        | .page t => if if write then t.w else t.r then some (s.pageRef t a) else none

/-- Bytes that the command processor reads, one aligned 8-byte word after another; none where a word cannot be read or carries poison
(DEDUCED, log 43). -/
def cpRead (s : State) (q a n : Nat) : Option (List Byte) :=
  (List.range (if n = 0 then 0 else ceilDiv (a + n) 8 - a / 8)).foldl (fun (acc : Option (List Byte)) i =>
    let word := 8 * (a / 8 + i)
    let first := max a word
    match acc, cpRef s q first false with
    | some bs, some r => if s.poisonedAt r.addr then none else some (bs ++ s.gread r.addr (min (a + n) (word + 8) - first))
    | _, _ => none) (some [])

/-- A dword that the command processor stores; none where it cannot be stored, or where the host answers with an error (R406). -/
def cpStore (s : State) (q a v : Nat) : Option State :=
  match cpRef s q a true with
  | none => none
  | some r =>
    if s.hostRefuses.contains (r.addr / 8) then none
    else some (s.gwriteBytes none (r.addr / 2 ^ 37 % 4) (some r.home) r.addr (bytesOfNat 8 v))

/-- Must a store wait, because an irrevocable attempt holds its line (R306)? -/
def cpHeld (s : State) (q a : Nat) : Bool :=
  match cpRef s q a true with
  | none => false
  | some r => !s.mayWrite none [(r.addr, 0)]

def State.queue (s : State) (q : Nat) : HQueue := s.cp.queues.get {} q
def State.onQueue (s : State) (q : Nat) (f : HQueue → HQueue) : State :=
  s.onCp fun c => { c with queues := c.queues.put q (f (c.queues.get {} q)) }

/-! ### Completion (R406) -/

/-- Codes of the status dword (R406). -/
abbrev stDone : Nat := 0
abbrev stMalformed : Nat := 1
abbrev stDenied : Nat := 2
abbrev stFault : Nat := 3
abbrev stBusy : Nat := 4
abbrev stAborted : Nat := 5

/-- A store of a queue's fails: the first failure is reported (R432), and the queue is to be marked dead. -/
def State.storeFailed (s : State) (q a reason : Nat) : State :=
  let x := s.queue q
  let s := if x.failed then s
    else s.report { va := word a, val := word q, pasid := x.pasid, kind := 4, reason, access := 1, origin := 0 }
  s.onQueue q fun x => { x with failed := true }

/-- The completion value after some numbers have completed: it rises over consecutive ones. -/
def riseTo (v : Nat) (done : List Nat) : Nat → Nat
  | 0 => v
  | n + 1 => if done.contains (v + 1) then riseTo (v + 1) done n else v

/-- The completion value rises where it can, and is stored. -/
def State.raiseValue (s : State) (q : Nat) : State :=
  let x := s.queue q
  let v := riseTo x.value x.finished x.finished.length
  if v = x.value then s
  else
    let s := s.onQueue q fun x => { x with value := v, finished := x.finished.filter fun n => decide (v < n) }
    match cpStore s q x.cpl.toNat (v % 2 ^ 64) with
    | some s => s
    | none => s.storeFailed q x.cpl.toNat 2

/-- Where entry n of a queue has its status dword. -/
def HQueue.statusAt (x : HQueue) (n : Nat) : Nat := x.sts.toNat + 8 * ((n - 1) % 2 ^ x.log2n)

/-- One entry completes: its status, then the completion value, then its event are to follow (R406, R412) (DEDUCED, log 51). -/
def State.finishEntry (s : State) (q n status : Nat) (noint : Bool) : State :=
  let x := s.queue q
  (s.onQueue q fun x => { x with running := x.running.filter fun e => e.1 != n }).onCp fun c =>
    { c with stores := c.stores ++ [.status q n status, .value q] ++ if noint then [] else [.signal x.vector] }

/-- NOINT and BARRIER of an entry (R405). -/
def entryFlags (bs : List Byte) : Nat := (bs.getD 2 0).toNat
def entryNoint (bs : List Byte) : Bool := (entryFlags bs).testBit 1
def entryBarrier (bs : List Byte) : Bool := (entryFlags bs).testBit 0
def entryOpcode (bs : List Byte) : Nat := natOfBytes (bs.take 2)
def entryArgs (bs : List Byte) : List Word := (List.range 7).map fun i => word (natOfBytes ((bs.drop (8 + 8 * i)).take 8))

/-- The queue of a store. -/
def CpStore.queue : CpStore → Option Nat
  | .status q _ _ => some q
  | .value q => some q
  | .zero q => some q
  | .count _ => none
  | .signal _ => none

/-- Does the command processor still have something to store for a queue? -/
def State.storesFor (s : State) (q : Nat) : Bool := s.cp.stores.any fun i => i.queue == some q

/-- Queue 0 that has been told to stop is disabled once its last entry has completed (R404). -/
def State.settleStop (s : State) (q : Nat) : State :=
  let x := s.queue q
  if q = 0 ∧ x.stopping ∧ x.entries.isEmpty ∧ x.running.isEmpty ∧ !s.storesFor 0 then
    (s.onQueue 0 fun x => { x with bound := false, stopping := false }).onCp fun c => { c with aqctl := setFld c.aqctl 63 1 0 }
  else s

/-- The queue is marked dead: what is fetched and not completed ends ABORTED, in order (R406) (DEDUCED, log 38). -/
def State.markDead (s : State) (q : Nat) : State :=
  let x := s.queue q
  if x.dead then s
  else
    let opens := x.running ++ x.entries.map fun e => (e.1, entryNoint e.2)
    let s := s.onQueue q fun x => { x with dead := true, entries := [] }
    opens.foldl (fun s e => s.finishEntry q e.1 stAborted e.2) s

/-- One store or signal; none where it must wait. -/
def State.storeItem (s : State) : CpStore → Option State
  | .status q n code =>
    let at_ := (s.queue q).statusAt n
    if cpHeld s q at_ then none
    else some ((match cpStore s q at_ code with
      | some s => s
      | none => s.storeFailed q at_ 3).onQueue q fun x => { x with finished := x.finished ++ [n] })
  | .value q => if cpHeld s q (s.queue q).cpl.toNat then none else some (s.raiseValue q)
  | .zero q =>
    let at_ := (s.queue q).cpl.toNat
    if cpHeld s q at_ then none
    else some (match cpStore s q at_ 0 with
      | some s => s
      | none => s.storeFailed q at_ 2)
  | .count n => s.countStore n
  | .signal v => some (s.signal v)

/-- After a store of a queue's: a failure marks it dead, and it stops where it has been told to. -/
def State.afterStore (s : State) (i : CpStore) : State :=
  match i.queue with
  | none => s
  | some q => (if (s.queue q).failed then s.markDead q else s).settleStop q

/-- Stores and signals in order, up to the first that must wait; `n` of them at most. -/
def State.drainStores : Nat → State → State
  | 0, s => s
  | n + 1, s =>
    match s.cp.stores with
    | [] => s
    | i :: t =>
      match (s.onCp fun c => { c with stores := t }).storeItem i with
      | none => s
      | some s => drainStores n (s.afterStore i)

/-- What can be stored and signalled now is. -/
def State.drainAll (s : State) : State := s.drainStores (2 ^ 16)

/-- The queue is marked dead, and its entries end. -/
def State.killQueue (s : State) (q : Nat) : State := ((s.markDead q).settleStop q).drainAll

/-- An entry that has started completes; one that a dead queue has ended already does not again. -/
def State.completeEntry (s : State) (q n status : Nat) : State :=
  match (s.queue q).running.find? fun e => e.1 == n with
  | none => s
  | some (_, noint) => (s.finishEntry q n status noint).drainAll

/-- The first entry of a queue that is fetched and not started, if it may start: its BARRIER waits for every earlier one (R405). -/
def State.headEntry (s : State) (q : Nat) : Option (Nat × List Byte) :=
  let x := s.queue q
  match x.entries with
  | [] => none
  | (n, bs) :: _ => if x.dead ∨ (entryBarrier bs ∧ x.value + 1 ≠ n) then none else some (n, bs)

/-- The first entry starts. -/
def State.startEntry (s : State) (q : Nat) : State :=
  s.onQueue q fun x => match x.entries with
    | [] => x
    | (n, bs) :: t => { x with entries := t, running := x.running ++ [(n, entryNoint bs)] }

/-- The command processor runs: its firmware has passed verification (R413). -/
def cpRuns (s : State) : Bool := s.cp.fwstat == 1

/-! ### Doorbells and fetching (R402, R403) -/

/-- An event enters the event queue (R402). -/
def State.raise (s : State) (i : Instr) (args : List Nat) : State := s.onCp fun c => { c with events := c.events ++ [(i, args)] }

/-- Is a PASID being torn down? -/
def tearingDown (s : State) (pasid : Nat) : Bool := s.parts.any fun p => p.2.pasids.any fun e => e.1 == pasid && e.2.tearing

/-- The difference of two counts, by wrapping subtraction (R279, R403). -/
def countDiff (a b : Nat) : Int := ((word a) - (word b)).toInt

/-- A write of DOORBELL q (R401, R403, R404, R411). -/
def State.ring (s : State) (q v : Nat) : State :=
  let x := s.queue q
  if !bitAt s.cp.modid 31 || !x.bound || x.stopping || x.dead || (q != 0 && tearingDown s x.pasid) then s
  else if countDiff v x.fetched ≤ 0 then s
  else if (2 ^ x.log2n : Int) < countDiff v x.value then s.killQueue q
  else (s.onQueue q fun x => { x with rung := max x.rung (x.fetched + (countDiff v x.fetched).toNat) }).raise .entryFetch [q]

/-- R403. -/
def execDoorbell (s : State) : Result := s.when_ (decide (s.arg 0 < 256)) fun s => s.ring (s.arg 0) (s.arg 1)

/-- Is an OPCODE assigned for a queue (R405, R409)? -/
def opcodeOk (q op : Nat) : Bool :=
  if q = 0 then decide (0x10 ≤ op) && decide (op ≤ 0x1B) else op == 1 || op == 2

/-- Is an entry malformed (R405)? -/
def entryBad (q : Nat) (bs : List Byte) : Bool :=
  !opcodeOk q (entryOpcode bs) || decide (4 ≤ entryFlags bs) || natOfBytes ((bs.drop 3).take 5) != 0

/-- The step that an opcode starts. -/
def opcodeStep (q op : Nat) : Instr :=
  if q = 0 then
    match op with
    | 0x10 => .form | 0x11 => .dissolve | 0x12 => .preempt | 0x13 => .resume | 0x14 => .switchOut | 0x15 => .switchIn
    | 0x16 => .setPasid | 0x17 => .teardown | 0x18 => .bindQueue | 0x19 => .setTimer | 0x1A => .setRelease | _ => .join
  else if op = 1 then .launch else .marker

/-- Does a queue have a launch that is still placing images or records (R408)? -/
def queueParked (s : State) (q : Nat) : Bool := s.cp.launches.any fun l => l.queue == q && (l.st == .images || l.st == .placing)

/-- R403: the next entry that a doorbell covers is fetched, once. The entries of a queue are processed one at a time (R402), so the
one before has started, and its launch is not parked. A malformed one completes with no other effect (R405); one
that cannot be read completes with FAULT (DEDUCED, log 40). -/
def execEntryFetch (s : State) : Result :=
  let q := s.arg 0
  let x := s.queue q
  let n := x.fetched + 1
  s.when_ (cpRuns s && x.bound && !x.dead && !x.stopping && decide (x.fetched < x.rung) && x.entries.isEmpty && !queueParked s q &&
      !s.cp.stores.contains (.zero q)) fun s =>
    let s := s.onQueue q fun x => { x with fetched := n }
    let s := if n < x.rung then s.raise .entryFetch [q] else s
    match cpRead s q (x.base.toNat + 64 * ((n - 1) % 2 ^ x.log2n)) 64 with
    | none => (s.onQueue q fun x => { x with running := x.running ++ [(n, false)] }).completeEntry q n stFault
    | some bs =>
      if entryBad q bs then
        (s.onQueue q fun x => { x with running := x.running ++ [(n, entryNoint bs)] }).completeEntry q n stMalformed
      else (s.onQueue q fun x => { x with entries := x.entries ++ [(n, bs)] }).raise (opcodeStep q (entryOpcode bs)) [q]

/-- R402: the oldest event goes to an idle firmware core, one of twelve. Stores that had to wait go on. -/
def execCpEventDispatch (s : State) : Result :=
  s.when_ (cpRuns s) fun s =>
    match s.drainAll.cp.events with
    | [] => s.drainAll
    | e :: rest =>
      if 12 ≤ s.drainAll.cp.cores.length then s.drainAll
      else s.drainAll.onCp fun c => { c with events := rest, cores := c.cores ++ [e] }

/-- R405. It waits for earlier launches of its queue to have placed their records (R402, R408). -/
def execMarker (s : State) : Result :=
  let q := s.arg 0
  match s.headEntry q with
  | none => .next s
  | some (n, bs) => s.when_ (cpRuns s && q != 0 && entryOpcode bs == 2 && !queueParked s q) fun s => (s.startEntry q).completeEntry q n stDone

/-! ### Queue 0 (R404) -/

/-- Is the placement of queue 0 valid? -/
def aqPlaced (s : State) (v : Word) : Bool :=
  bitAt s.cp.modid 31 && decide (4 ≤ fld v 0 4) && decide (fld v 0 4 ≤ 12) && fld s.cp.aqbase 0 12 == 0 &&
    fld s.cp.aqcpl 0 3 == 0 && fld s.cp.aqsts 0 3 == 0

/-- The fields of AQCTL that a write sets. -/
def aqFields (v : Word) : Word := v &&& 0x07FF000F

/-- What commands of an earlier life of queue 0 have begun goes on; their entries have ended, and no entry of the new life has the number 0
(R404, R406). -/
def State.forgetEntries (s : State) : State :=
  { s with parts := s.parts.mapVals fun _ x =>
      { x with report := x.report.map fun _ => 0, pasids := x.pasids.mapVals fun _ e => { e with entry := 0 } } }

/-- Enabling: the counts start at 0 and 0 is stored to the completion word; where that fails the queue is dead (R406). -/
def State.enableAq (s : State) (v : Word) : State :=
  let s := s.forgetEntries
  let c := s.cp
  let q : HQueue :=
    { bound := true, log2n := fld v 0 4, vector := fld v 16 11, base := c.aqbase, cpl := c.aqcpl, sts := c.aqsts }
  ((s.onQueue 0 fun _ => q).onCp fun c => { c with aqctl := setFld (aqFields v) 63 1 1, stores := c.stores ++ [.zero 0] }).drainAll

/-- A write of AQCTL. Only firmware that runs enables the queue (R413). -/
def State.writeAqctl (s : State) (v : Word) : State :=
  if (s.queue 0).bound then
    if bitAt v 63 then s else (s.onQueue 0 fun x => { x with stopping := true }).settleStop 0
  else if bitAt v 63 && aqPlaced s v && cpRuns s then s.enableAq v
  else s.onCp fun c => { c with aqctl := aqFields v }

/-- R404. -/
def execAqctlEnable (s : State) : Result := s.when_ (bitAt (word (s.arg 0)) 63) fun s => s.writeAqctl (word (s.arg 0))
/-- R404. -/
def execAqctlDisable (s : State) : Result := s.when_ (s.queue 0).bound fun s => s.writeAqctl 0

/-! ### Host registers (R400, R401, R410, R412) -/

/-- A write of MODID (R401). -/
def modidStored (old v : Word) : Word :=
  if bitAt old 31 then old else v &&& 0x803F0FFF

/-- R401. -/
def execModidWrite (s : State) : Result := .next (s.onCp fun c => { c with modid := modidStored c.modid (word (s.arg 0)) })

/-- A write of FQCTL (R400, R410). -/
def execFqctlWrite (s : State) : Result := .next (s.onCp fun c => { c with fqctl := word (s.arg 0) &&& 0x07FF000F })

/-- A write of COALESCE v (R412). -/
def Vect.coalesce (x : Vect) (v : Word) : Vect := { x with count := max 1 (fld v 8 8), time := min 64 (fld v 0 7) }

/-- COALESCE as it reads. -/
def Vect.word (x : Vect) : Word := Machine.word (x.count * 256 + x.time)

/-- HBMCH d as it reads. -/
def Build.hbmch (b : Build) (d : Nat) : Word := word (b.channels.getD (2 * d + 1) 0 * 2 ^ 16 + b.channels.getD (2 * d) 0)

/-- What a host read of a register gives (R400); one of any other size than 8 bytes reads as 0. -/
def hostRead (s : State) (off size : Nat) : Word :=
  let c := s.cp
  if size ≠ 8 then 0
  else if off = 0x0000 then word (s.build.code * 2 ^ 16 + s.build.quarters)
  else if off = 0x0008 then c.modid
  else if off = 0x0010 then word c.fwstat
  else if 0x0018 ≤ off ∧ off ≤ 0x0030 ∧ off % 8 = 0 then s.build.hbmch ((off - 0x18) / 8)
  else if off = 0x0100 then c.fqbase
  else if off = 0x0108 then c.fqctl
  else if off = 0x0110 then word c.fqtail
  else if off = 0x0118 then word c.fqhead
  else if off = 0x0200 then c.aqbase
  else if off = 0x0208 then c.aqctl
  else if off = 0x0210 then c.aqcpl
  else if off = 0x0218 then c.aqsts
  else if 0x4000 ≤ off ∧ off < 0x8000 ∧ off % 8 = 0 then (c.vectors.get {} ((off - 0x4000) / 8)).word
  else 0

/-- A host write of 8 bytes to a register (R400). FQANS is the one whose writes are steps of their own alone (R410). -/
def hostWrite (s : State) (off : Nat) (v : Word) : State :=
  let free := !(s.queue 0).bound
  if off = 0x0008 then s.onCp fun c => { c with modid := modidStored c.modid v }
  else if off = 0x0108 then s.onCp fun c => { c with fqctl := v &&& 0x07FF000F }
  else if 0x1000 ≤ off ∧ off < 0x1800 ∧ off % 8 = 0 then s.ring ((off - 0x1000) / 8) v.toNat
  else if off = 0x0100 then s.onCp fun c => { c with fqbase := v }
  else if off = 0x0118 then s.onCp fun c => { c with fqhead := v.toNat }
  else if off = 0x0200 then (if free then s.onCp fun c => { c with aqbase := v } else s)
  else if off = 0x0208 then s.writeAqctl v
  else if off = 0x0210 then (if free then s.onCp fun c => { c with aqcpl := v } else s)
  else if off = 0x0218 then (if free then s.onCp fun c => { c with aqsts := v } else s)
  else if 0x4000 ≤ off ∧ off < 0x8000 ∧ off % 8 = 0 then
    s.onCp fun c => { c with vectors := c.vectors.put ((off - 0x4000) / 8) ((c.vectors.get {} ((off - 0x4000) / 8)).coalesce v) }
  else s

/-- R400: `ev` gives the offset, the value and the size of the access; one of any other size than 8 bytes is ignored. -/
def execHostRegisterWrite (s : State) : Result := s.when_ (s.arg 2 == 8) fun s => hostWrite s (s.arg 0) (word (s.arg 1))

def State.onVector (s : State) (v : Nat) (f : Vect → Vect) : State :=
  s.onCp fun c => { c with vectors := c.vectors.put v (f (c.vectors.get {} v)) }

/-- A vector is unmasked: one that is pending sends its interrupt (R412). -/
def Vect.unmask (x : Vect) : Vect :=
  let x := { x with masked := false }
  if x.pending then { x with pending := false, sent := x.sent + 1 } else x

/-- R399, R412: the host writes a vector's entry of the MSI-X table. `ev` gives the vector and, after it, 1 where the entry is masked
instead, or 2 with the message's address and data. -/
def execVectorUnmask (s : State) : Result :=
  let v := s.arg 0
  s.when_ (decide (v < 2048)) fun s => s.onVector v fun x =>
    match s.arg 1 with
    | 0 => x.unmask
    | 1 => { x with masked := true }
    | _ => { x with addr := word (s.arg 2), data := s.arg 3 % 2 ^ 32 }

/-- R412. -/
def execCoalesceTimerExpiry (s : State) : Result :=
  let v := s.arg 0
  s.when_ (decide (0 < (s.cp.vectors.get {} v).gathered)) fun s => s.onVector v Vect.send

/-! ### The host's accesses to device memory (R399) -/

/-- The host answers accesses to a word of its memory with an error from now on, or serves them again (R180). -/
def State.hostServes (s : State) (pa : Nat) (serves : Bool) : State :=
  let rest := s.hostRefuses.filter (· != pa / 8)
  if pa.testBit 45 then { s with hostRefuses := if serves then rest else pa / 8 :: rest } else s

/-- Is a physical address in the memory of a partition: does one of its address spaces map it? -/
def Part.maps (p : Part) (s : State) (pa : Nat) : Bool := (p.homed s).any fun h => !h.node && decide (h.lo ≤ pa) && decide (pa < h.hi)

/-- The partitions that are recorded or replayed and whose memory a physical address is in. -/
def State.recordedAt (s : State) (pa : Nat) : List (Nat × Part) :=
  if s.recordings.isEmpty then [] else s.parts.filter fun p => (s.recordingOf p.1).isSome && p.2.maps s pa

/-- A write of the host's to device memory: it waits while an irrevocable attempt holds the line (R306). It is input of the partitions in
whose memory it lands (R430); in a replay of one of them it does not come, since the logged writes come in its place (R431). -/
def State.hostStore (s : State) (pa : Nat) (bs : List Byte) : State :=
  let cells := (List.range bs.length).zip bs |>.map fun e => (pa + e.1, e.2)
  let parts := s.recordedAt pa
  if !s.mayWrite none cells || parts.any (fun p => (s.replayOf (some p)).isSome) then s
  else parts.foldl (fun s p => s.noteOrder (some p) { kind := .host, who := 0, what := pa, bytes := bs })
    (s.gwriteBytes none (pa / 2 ^ 37 % 4) none pa bs)

/-- R180, R399: `ev` gives 1 for a write, the address, then the bytes; 0 for a read, the address and how many; 2 where the host refuses a word
of its own memory from now on, and 3 where it serves it again (DESIGN CHOICE, log 13). A host access lies within a line of this module's HBM4.
A read answers with the bytes and with any poison (R427). -/
def execHostMemoryAccess (s : State) : Result :=
  let pa := s.arg 1
  let bs : List Byte := (s.ev.drop 2).map (BitVec.ofNat 8)
  let n := if s.arg 0 = 1 then bs.length else s.arg 2
  if 2 ≤ s.arg 0 then .next (s.hostServes pa (s.arg 0 == 3))
  else s.when_ (backed s pa && !pa.testBit 45 && pa / 2 ^ 46 == s.domainIx && decide (pa % 128 + n ≤ 128)) fun s =>
    if s.arg 0 = 1 then s.hostStore pa bs
    else s.onCp fun c => { c with hostData := s.gread pa n, hostPoison := (List.range n).any fun i => s.poisonedAt (pa + i) }

end Sys2Proof.Machine
end

