-- ==== Sys2Proof/Machine/Preempt.lean ====
section
/-! DEFINITION. Pre-emption, resumption, the full context switch and timers (10_system R247 to R257; R305, R313, R352, R356, R357,
R396). -/

namespace Sys2Proof.Machine

/-! ### Units of a partition -/

/-- Does a quarter mask take in a context, a core, a quad, a gang? -/
def ctxIn (quarters k : Nat) : Bool := quarters.testBit (quarterOf (quadOf k))
def coreIn (quarters core : Nat) : Bool := quarters.testBit (quarterOf (quadOfCore core))
def quadIn (quarters quad : Nat) : Bool := quarters.testBit (quarterOf quad)

/-- A partition of a number. -/
def State.part? (s : State) (p : Nat) : Option Part := (s.parts.find? fun e => e.1 == p).map (·.2)

/-- The contexts of a partition that hold a task or run a handler. -/
def State.ctxsOf (s : State) (quarters : Nat) : List Nat :=
  (s.ctxs.filter fun e => ctxIn quarters e.1 && e.2.status != .free).map (·.1)

/-- An admin command of queue 0 whose turn has come: its number and arguments (R402, R405, R409). -/
def State.adminHead (s : State) (op : Nat) : Option (Nat × List Word) :=
  match s.headEntry 0 with
  | some (n, bs) => if cpRuns s && entryOpcode bs == op then some (n, entryArgs bs) else none
  | none => none

/-- What an admin command does: it completes with a code, its own effect follows, or it cannot go on yet and is tried again. -/
inductive Cmd where
  | done (code : Nat) (s : State)
  | later (s : State)
  | held (s : State)
deriving DecidableEq, Repr

/-- An admin command: the entry starts, and completes with what the command answers. -/
def adminStep (op : Nat) (f : Nat → List Word → State → Cmd) (s : State) : Result :=
  match s.adminHead op with
  | none => .next s
  | some (n, a) =>
    match f n a (s.startEntry 0) with
    | .done code s => .next (s.completeEntry 0 n code)
    | .later s => .next s
    | .held t => .next (t.onQueue 0 fun x => { x with entries := (s.queue 0).entries, running := (s.queue 0).running })

/-- An argument of a command. -/
def argAt (a : List Word) (i : Nat) : Nat := (a.getD i 0).toNat

/-- A command on the partition that a0 names (R409). -/
def onPartition (a : List Word) (s : State) (f : Nat → Part → Cmd) : Cmd :=
  let p := argAt a 0
  if 15 < p then .done stMalformed s
  else match s.part? p with
    | none => .done stDenied s
    | some x => f p x

/-! ### Stopping (R248 to R250, R254, R313, R357) -/

/-- An open attempt that a pre-emption aborts (R313): the registers of its outermost tbegin, which is to come next, with the status
that it will write. A carry that was pending before the attempt stays pending (R241, R278). -/
def State.preemptAttempt (s : State) (k : Nat) (a : Attempt) : State :=
  match a.levels.getLast? with
  | none => s
  | some l =>
    let confl := match (s.ctx k).series with | some r => min 7 r.count | none => 0
    let st := abortStatus a.levels.length confl 0 7
    (s.endAttempt k).onCtx k fun c =>
      { c.deliverAll.settleLater.restoreCk l.ck with
        deferred := none, outs := [], pc := l.tbpc, status := .running, wake := false, opens := true, trail := [], buffer := []
        preempted := some { status := st, at_ := l.tbpc, intrap := c.ctl.intrap } }

/-- Waiting members of a context are withdrawn, and their mms are to be issued again (R254, R357): those of the window by its replay, the
others after it. -/
def State.withdrawForPreempt (s : State) (k : Nat) : State :=
  let g := s.gang (gangOf (coreOf k))
  (s.withdrawAll k).onCtx k fun c =>
    let waiting := c.waitingSubs g k
    let now := (waiting.filter fun r => c.inWindow r.seq).map (·.seq)
    { c with
      subs := [], resubs := c.resubs ++ waiting.filter fun r => !c.inWindow r.seq
      trail := c.trail.map fun p => if now.any p.owns then { p with done := false } else p
      buffer := c.buffer.filter fun a => !now.contains a.seq
      outs := c.outs.filter fun o => !now.contains o.seq }

/-- Does an operation stand behind a waitge that is not answered? -/
def Ctx.behindWait (c : Ctx) (o : Out) : Bool :=
  (neededOuts (fun p => p.seq == o.seq) c.outs).any fun p => match p.op with | .waitge _ _ _ => true | _ => false

/-- Reads that must come before a side effect that has been accepted, as before a release (R196, R328), return before the context halts: they
are not among the results that it abandons (R248, R252; DEDUCED, log 18). -/
def State.bindForEffects (s : State) (k : Nat) : State :=
  let c := s.ctx k
  let first := neededOuts (fun o => o.sideEffect && !c.behindWait o) c.outs
  (s.require k fun o => o.pure && first.any fun p => p.seq == o.seq).1.onCtx k Ctx.deliverReady

/-- One context stops at an instruction boundary (R248). -/
def State.haltContext (s : State) (k : Nat) : State :=
  let c := s.ctx k
  if c.status = .free ∨ c.halted then s
  else
    let s := match c.openAttempt with | some a => s.preemptAttempt k a | none => s.bindForEffects k
    let s := if quadLayer (quadOf k) = 0 then s.withdrawForPreempt k else s
    s.onCtx k fun c => { c with halted := true }

/-- A pre-emption request reaches a partition (R248): it refuses messages from now on (R227). -/
def State.stopPart (s : State) (p : Nat) (x : Part) : State :=
  (s.ctxsOf x.quarters).foldl State.haltContext (s.onPart p fun x => { x with mode := .stopping })

/-- The side effects of a context are performed, all or those that carry a result (R249); those behind an unanswered waitge have
not been accepted (DEDUCED, log 18). A killed context whose last one is performed is freed (R243). -/
def State.finishEffects (s : State) (k : Nat) (stores : Bool) : State × Bool :=
  let c := s.ctx k
  let r := s.require k fun o => o.sideEffect && (stores || !o.retires) && !c.behindWait o
  (r.1.endIfDone k, r.2)

/-- The same for some contexts. -/
def State.finishAll (s : State) (ks : List Nat) (stores : Bool) : State × Bool :=
  ks.foldl (fun (acc : State × Bool) k => let r := acc.1.finishEffects k stores; (r.1, acc.2 && r.2)) (s, true)

/-- PARTITION_HALTED: the results of accepted side effects have returned, and the last context is halted (R249, R250). -/
def execPartitionHalted (s : State) : Result :=
  let p := s.arg 0
  match s.part? p with
  | none => .next s
  | some x =>
    s.when_ (x.mode == .stopping) fun s =>
      match s.finishAll (s.ctxsOf x.quarters) false with
      | (s, false) => s
      | (s, true) => s.onPart p fun x => { x with mode := .preempted }

/-! ### Resuming (R252, R254, R265) -/

/-- The messages of a context that were not accepted when it was halted are gone: their amsends issue again (R249, R252). -/
def State.dropUnsent (s : State) (k : Nat) : State :=
  let c := s.ctx k
  (c.outs.filter fun o => o.unsent && c.inWindow o.seq).foldl (fun s o => s.dropMsg k o.seq) s

/-- A halted context goes on (R252, R254): a sleeper is woken once, and its window is replayed. -/
def State.resumeContext (s : State) (k : Nat) : State :=
  let s := match (s.ctx k).status with | .sleeping _ => s.wakeUp k | _ => s
  (s.dropUnsent k).onCtx k fun c =>
    let c := { c with halted := false }
    if c.status = .ending then c else c.rewound

/-- A partition resumes. -/
def State.resumePart (s : State) (p : Nat) (x : Part) : State :=
  (s.ctxsOf x.quarters).foldl State.resumeContext (s.onPart p fun x => { x with mode := .running })

/-! ### The full context switch (R255 to R257) -/

/-- The operations that a gang has streamed complete, member by member, as far as they can: `n` members at most. -/
def finishRuns (gang : Nat) : Nat → State → State
  | 0, s => s
  | n + 1, s => match s.retirable gang with | some (i, j) => finishRuns gang n (retireMember s gang i j) | none => s

/-- The operations that stream on the gangs of a partition complete; false where one cannot yet. -/
def State.finishArrays (s : State) (quarters : Nat) : State × Bool :=
  let gs := (s.gangs.filter fun e => gangIn quarters e.1).map (·.1)
  let s := gs.foldl (fun s g => finishRuns g (((s.gang g).runs.map fun r => r.left.length).foldl (· + ·) 0) s) s
  (s, gs.all fun g => (s.gang g).runs.isEmpty)

/-- A gang as its image holds it: buffer G is not part of it (R356), no image is in S0 or S1, and the loads accepted so far will not make
an identity current (R352). An mgang whose barrier is complete and that has not streamed is kept; restored, it finds no buffer G unless a load
comes first (R351, R352; DEDUCED, log 31). -/
def Gang.saved (g : Gang) : Gang := { g with bufG := none, loads := g.loads.map fun l => { l with old := true }, insts := g.insts.mapVals fun _ i => { i with image := none } }

/-- The image of a partition as it stands (R255): its retentions, its TLBs and its record caches end (R257, R333) (DESIGN CHOICE, log 19). -/
def State.imageOf (s : State) (quarters : Nat) : SavedImage :=
  { ctxs := (s.ctxs.keep (ctxIn quarters)).mapVals fun _ c => { c with jacks := [] }
    cores := (s.cores.keep (coreIn quarters)).mapVals fun _ c => { c with retain := none }
    quads := (s.quads.keep (quadIn quarters)).mapVals fun _ q => { q with tlb := [], records := [] }
    gangs := (s.gangs.keep (gangIn quarters)).mapVals fun _ g => g.saved
    quarters := s.quarters.filter fun e => quarters.testBit e.1 }

/-- The quarters are cleared (R255, step 4): contexts, run queues, mailboxes, local memories, tiles, rings, stackers, TLBs, jacks.
What the power hardware and the failure record hold stays. -/
def State.clearQuarters (s : State) (quarters : Nat) : State :=
  { s with
    ctxs := s.ctxs.filter fun e => !ctxIn quarters e.1
    cores := s.cores.mapVals fun k c => if coreIn quarters k then { fduty := c.fduty, point := c.point } else c
    quads := s.quads.mapVals fun k q => if quadIn quarters k then { point := q.point, target := q.target, emerg := q.emerg, temp := q.temp } else q
    gangs := s.gangs.filter fun e => !gangIn quarters e.1
    quarters := s.quarters.mapVals fun k q => if quarters.testBit k then { failed := q.failed, rail := q.rail } else q
    slices := s.slices.mapVals fun _ sl =>
      { sl with jacks := sl.jacks.filter (fun j => !ctxIn quarters j.2), overflow := sl.overflow.filter fun k => !ctxIn quarters k } }

/-- Does a power emergency hold a quad of some quarters (R419, R422)? -/
def State.emergIn (s : State) (quarters : Nat) : Bool := s.quads.any fun e => quadIn quarters e.1 && e.2.emerg

/-- The keep hints of a partition end (R193). -/
def State.dropKeeps (s : State) (p : Nat) : State :=
  { s with dies := s.dies.mapVals fun _ d => { d with hints := d.hints.filter fun e => !(e.2.1 == 2 && e.2.2 == p) } }

/-- The bytes of a quarter's image: its banks, 1,700 contexts and 85 quads (R255, R256); its L1s are written back, not saved. -/
def imageBytes : Nat := 186908672 + 1700 * 4608 + 85 * 8192

/-- The save area of a partition on each die, for its quarters there: the first byte, and one past the last (R255, step 3). -/
def Part.saveAreas (x : Part) : List (Nat × Nat) :=
  (List.range 4).map fun d =>
    let base := argAt x.save d % 2 ^ 52
    (base, base + popcount (x.quarters / 16 ^ d % 16) 4 * imageBytes)

/-- The save areas are written in the firmware's own format (R255; DESIGN CHOICE, log 19). -/
def State.writeSaveAreas (s : State) (x : Part) : State := x.saveAreas.foldl (fun s a => s.writeArea a.1 a.2) s

/-- The partition leaves its quarters (R255); false while an operation that streams cannot complete, or an irrevocable attempt holds a line of
its save areas (R306). -/
def State.switchOut (s : State) (p : Nat) (x : Part) : State × Bool :=
  match s.finishArrays x.quarters with
  | (s, false) => (s, false)
  | (s, true) =>
    if !x.saveAreas.all fun a => s.mayWriteArea a.1 a.2 then (s, false)
    else
      let image := s.imageOf x.quarters
      ((((s.writeSaveAreas x).clearQuarters x.quarters).dropKeeps p).onPart p fun x => { x with mode := .out, switching := false, image, emerg := false }, true)

/-- Entries of one table put into another. -/
def Map.merge {α : Type} (m extra : Map α) : Map α := extra.foldl (fun m e => m.put e.1 e.2) m

/-- What the power hardware of a core or a quad holds, and what their demand counts, are no part of an image. -/
def Core.withPower (c hw : Core) : Core := { c with fduty := hw.fduty, point := hw.point, issues := hw.issues }
def Quad.withPower (q hw : Quad) : Quad :=
  { q with point := hw.point, target := hw.target, emerg := hw.emerg, temp := hw.temp, work := hw.work }

/-- The partition comes back to its quarters and resumes (R257). What its accesses have used of translations stays known (R266). The jacks of
an irrevocable attempt did not survive the switch: its next retry does not sleep (R308, R315; DESIGN CHOICE, log 19). -/
def State.switchIn (s : State) (p : Nat) (x : Part) : State :=
  let i := x.image
  let s := { s with
    ctxs := s.ctxs.merge (i.ctxs.mapVals fun _ c => if c.attempt.isSome then { c with wake := true } else c)
    cores := s.cores.merge (i.cores.mapVals fun k c => c.withPower (s.core k))
    quads := s.quads.merge (i.quads.mapVals fun k q => q.withPower (s.quad k))
    gangs := s.gangs.merge i.gangs
    quarters := s.quarters.merge (i.quarters.mapVals fun k q =>
      { token := q.token, waiters := q.waiters, used := q.used, failed := (s.quarter k).failed, rail := (s.quarter k).rail }) }
  (s.onPart p fun x => { x with image := {}, emerg := s.emergIn x.quarters }).resumePart p x

/-! ### Contexts of a partition that is switched out -/

/-- An image without a context: its attempt's token and its place among the waiters go with it (R305). -/
def SavedImage.without (i : SavedImage) (k : Nat) : SavedImage :=
  { i with
    ctxs := i.ctxs.mapVals fun j c => if j = k then c.freed else c
    quarters := i.quarters.mapVals fun _ q =>
      { q with token := if q.token = some k then none else q.token, waiters := q.waiters.filter (· != k) } }

/-- A kill of a context that lies in the image of a partition that is switched out. -/
def State.killOut (s : State) (p k : Nat) : State :=
  match s.part? p with
  | none => s
  | some x =>
    let c := x.image.ctxs.get {} k
    if c.status = .free then s
    else (s.onPart p fun x => { x with image := x.image.without k }).launchTaskEnded c.task.launch true

/-- A change to a context in an image. -/
def State.onImageCtx (s : State) (p k : Nat) (f : Ctx → Ctx) : State :=
  s.onPart p fun x => { x with image := { x.image with ctxs := x.image.ctxs.mapVals fun j c => if j = k then f c else c } }

/-! ### The report (R396) -/

/-- Are the retirement trackers of a partition empty? -/
def trackersEmpty (s : State) (quarters : Nat) : Bool := s.cores.all fun e => !coreIn quarters e.1 || e.2.tracker.isEmpty

/-- PREEMPT_REPORT: everything accepted has been performed; the command that asked completes, or its switch-out goes on (R396,
R255). -/
def execPreemptReport (s : State) : Result :=
  let p := s.arg 0
  match s.part? p with
  | none => .next s
  | some x =>
    match x.report with
    | none => .next s
    | some n =>
      s.when_ (x.mode == .preempted) fun s =>
        match s.finishAll (s.ctxsOf x.quarters) true with
        | (s, false) => s
        | (s, true) =>
          if !trackersEmpty s x.quarters then s
          else
            let r := if x.switching then s.switchOut p x else (s, true)
            if r.2 then (r.1.onPart p fun x => { x with report := none }).completeEntry 0 n stDone else r.1

/-! ### Commands (R409) -/

/-- Is a PASID of the partition being torn down? -/
def Part.tears (x : Part) : Bool := x.pasids.any fun e => e.2.tearing

/-- Is a stop of the partition in progress? -/
def Part.stops (x : Part) : Bool := x.mode == .stopping || x.report.isSome

/-- PREEMPT and SWITCH_OUT begin alike: the partition stops, and the report goes on. One switched out has nothing to stop: DENIED (DEDUCED, log 39). -/
def stopCmd (switching : Bool) (n : Nat) (a : List Word) (s : State) : Cmd :=
  onPartition a s fun p x =>
    if x.stops || (switching && x.tears) then .done stBusy s
    else match x.mode with
      | .running => .later ((s.onPart p fun x => { x with report := some n, switching }).stopPart p x)
      | .preempted =>
        if switching then .later (s.onPart p fun x => { x with report := some n, switching }) else .done stDone s
      | _ => .done stDenied s

/-- R248. -/
def execPreempt (s : State) : Result := adminStep 0x12 (stopCmd false) s
/-- R255. -/
def execSwitchOut (s : State) : Result := adminStep 0x14 (stopCmd true) s

/-- R252. A partition that runs goes on as it is (DEDUCED, log 39). -/
def execResume (s : State) : Result :=
  adminStep 0x13 (fun _ a s => onPartition a s fun p x =>
    if x.stops then .done stBusy s
    else match x.mode with
      | .preempted => .done stDone (s.resumePart p x)
      | .running => .done stDone s
      | _ => .done stDenied s) s

/-- Does no partition stand on any of some quarters? -/
def quartersFree (s : State) (quarters : Nat) : Bool := (bitsOf quarters 16).all fun q => (s.partOfQuarter q).isNone

/-- R257. BUSY while a stop of the partition is in progress (R409); DENIED where the partition is not switched out or another one stands on its quarters (DEDUCED, log 39). -/
def execSwitchIn (s : State) : Result :=
  adminStep 0x15 (fun _ a s => onPartition a s fun p x =>
    if x.stops then .done stBusy s
    else if x.mode = .out ∧ quartersFree s x.quarters then .done stDone (s.switchIn p x)
    else .done stDenied s) s

/-! ### Timers (R247) -/

/-- R247: every task context of the partition that holds a task raises the timer cause once more. A partition that is switched out has no
task context on its quarters, and none of its image takes the expiry (DEDUCED, log 70). -/
def execTimerExpiry (s : State) : Result :=
  match s.part? (s.arg 0) with
  | none => .next s
  | some x =>
    s.when_ (x.timer != 0 && x.mode != .out) fun s =>
      (s.ctxsOf x.quarters).foldl (fun s k => if isHandler k then s else s.onCtx k fun c => { c with timers := c.timers + 1 }) s

end Sys2Proof.Machine
end

