-- ==== Sys2Proof/Machine/Launches.lean ====
section
/-! DEFINITION. Launches: the limits of the launch record, images, placing records, completion (02_words R69; 09_tasks R209;
16_ordering R397; 17_host R407, R408). -/

namespace Sys2Proof.Machine

/-! ### The limits of a launch record (R69) -/

/-- Does the record keep its limits (R69, R203, R407), on this part? Where data bytes is 0 there is no data image to check: the data
local offset may then be anything (DEDUCED, log 65). An entry below XBOUND that is not a multiple of 4, which R203 refuses in a task
record, breaks a limit of the launch record too, though R69 lists none (DEDUCED, log 40). -/
def LaunchRec.ok (r : LaunchRec) (b : Build) : Bool :=
  r.kind == 1 && r.size == 128 && decide (r.layer ≤ 3) && decide (r.pri ≤ 3) && decide (r.flags < 4) &&
  decide (0 < r.cores) && decide (r.cores < 16) && decide (0 < r.quarters) &&
  decide (1 ≤ r.count) && decide (r.count ≤ 28) && decide (r.argc ≤ 6) &&
  decide (r.entry < r.xbound) && r.entry % 4 == 0 && decide (0 < r.quads) && decide (r.quads < 2 ^ (sideOf r.layer ^ 2)) &&
  r.xbound % 4096 == 0 && decide (r.xbound ≤ capacity r.layer) && decide (r.codeBytes ≤ r.xbound) && isGlobalVa r.code &&
  (r.dataBytes == 0 || (decide (r.xbound ≤ r.dataOff) && decide (r.dataOff + r.dataBytes ≤ capacity r.layer) && isGlobalVa r.data)) &&
  r.reserved == 0 && (r.args.drop r.argc).all (· == 0) && r.targetQuads.all b.hasQuad

/-- What identifies the images that a quad holds (R407); of an empty data image the address is ignored. -/
def LaunchRec.images (r : LaunchRec) : List Word :=
  [word r.code, word r.codeBytes, word r.xbound, if r.dataBytes = 0 then 0 else word r.data, word r.dataBytes, word r.dataOff]

/-- The banks in the span of the data image. -/
def LaunchRec.dataBanks (r : LaunchRec) : List Nat := (List.range (bankCount r.layer)).filter fun b => inBank b r.dataOff r.dataBytes

/-! ### Images (R407, step 4) -/

/-- Is a target quad free of running, sleeping and queued contexts and of engine work? -/
def quadFree (s : State) (quad : Nat) : Bool :=
  !contextBusy s quad && !engineBusy s quad && (List.range 4).all fun i => (s.core (4 * quad + i)).queue.isEmpty

/-- What a target quad needs: its images, its data image again, or nothing. -/
def imagesNeeded (s : State) (r : LaunchRec) (quad : Nat) : Bool × Bool :=
  let q := s.quad quad
  if q.images = some r.images then (false, r.dataBanks.any fun b => bitAt q.lost b) else (true, true)

/-- Cells of an image at a local offset. -/
def imageCells (off : Nat) (bs : List Byte) : List (Nat × Byte) := (List.range bs.length).zip bs |>.map fun e => (off + e.1, e.2)

/-- One image written to a quad, and logged where its partition is recorded (R430). -/
def State.writeImage (s : State) (quad off : Nat) (bs : List Byte) : State :=
  if bs.isEmpty then s
  else (s.lwrite none quad (imageCells off bs)).noteOrder (s.partOfQuarter (quarterOf quad)) { kind := .launch, who := quad, what := off, bytes := bs }

/-- Images written to a quad. -/
def State.writeImages (s : State) (r : LaunchRec) (quad : Nat) (code data : List Byte) : State :=
  let s := (s.writeImage quad 0 code).writeImage quad r.dataOff data
  s.onQuad quad fun q => { q with images := some r.images, lost := 0 }

/-- What comes of placing the images of a launch: quads that are still busy, or an image that cannot be read. -/
inductive Images where
  | left (quads : List Nat) (s : State)
  | fault (s : State)
deriving DecidableEq, Repr

/-- Target quads are given their images one after another; one that is busy is left (DEDUCED, log 43). -/
def placeImages (s : State) (q : Nat) (r : LaunchRec) (left : List Nat) : List Nat → Images
  | [] => .left left s
  | quad :: rest =>
    let need := imagesNeeded s r quad
    if !need.1 && !need.2 then placeImages s q r left rest
    else if !quadFree s quad then placeImages s q r (left ++ [quad]) rest
    else
      match if need.1 then cpRead s q r.code r.codeBytes else some [], if need.2 then cpRead s q r.data r.dataBytes else some [] with
      | some code, some data => placeImages (s.writeImages r quad code data) q r left rest
      | _, _ => .fault s

/-! ### Placing records (R209, R407, step 5) -/

/-- The record of an index. -/
def LaunchRec.task (r : LaunchRec) (pasid i launch : Nat) : Record :=
  { entry := word r.entry, pri := r.pri, flags := r.flags, x3 := word i, args := r.args, nxm := false, pasid, src := 0
    launch := some launch }

/-- May a target take a record now (R209)? -/
def targetOpen (s : State) (pri core : Nat) : Bool :=
  let c := s.core core
  if pri < 3 then decide (c.queue.length < c.thresh) else decide (c.queue.length < 32)

def State.onLaunch (s : State) (i : Nat) (f : Launch → Launch) : State :=
  s.onCp fun c => { c with launches := c.launches.modify i f }

/-- One round: each target in order that may take a record is given the next index, while there is one. -/
def placeRound (r : LaunchRec) (l : Launch) (i : Nat) (s : State) (placed : Nat) : List Nat → State × Nat
  | [] => (s, placed)
  | core :: rest =>
    if r.count * r.targets.length ≤ placed || !targetOpen s r.pri core then placeRound r l i s placed rest
    else
      let rec' := r.task l.pasid placed i
      let s := (s.enqueue core rec').noteOrder ((s.part? l.part).map fun x => (l.part, x))
        { kind := .launch, who := core, what := placed, record := some rec' }
      placeRound r l i s (placed + 1) rest

/-- Rounds until every record is placed or a round skips every target. -/
def placeRounds (r : LaunchRec) (l : Launch) (i : Nat) : Nat → State → Nat → State × Nat
  | 0, s, placed => (s, placed)
  | n + 1, s, placed =>
    let x := placeRound r l i s placed r.targets
    if x.2 = placed then x else placeRounds r l i n x.1 x.2

/-- Is a partition in a replay, where logged launches come in place of live ones (R431)? -/
def replays (s : State) (p : Nat) : Bool := s.recordings.any fun r => r.part == p && r.replaying

/-- Does the partition of a launch run, and is it not in a replay (R408, R431)? -/
def launchRuns (s : State) (l : Launch) : Bool :=
  match s.part? l.part with
  | some x => x.mode == .running && !replays s l.part
  | none => false

/-- Records of a launch are placed as far as they can be; a drain event that comes after this resumes it (R209). -/
def State.placeRecords (s : State) (i : Nat) (l : Launch) : State :=
  let r := LaunchRec.of l.record
  let total := r.count * r.targets.length
  let x := placeRounds r l i (total + 1) s l.placed
  x.1.onLaunch i fun l =>
    { l with placed := x.2, live := l.live + (x.2 - l.placed), drained := false, st := if total ≤ x.2 then .running else .placing }

/-- XBOUND of every target quad is set, then records are placed. -/
def State.seed (s : State) (i : Nat) (l : Launch) : State :=
  let r := LaunchRec.of l.record
  let s := r.targetQuads.foldl (fun s q => (s.onQuad q fun x => { x with xbound := word r.xbound }).noteOrder
    (s.partOfQuarter (quarterOf q)) { kind := .launch, who := q, what := r.xbound }) s
  s.placeRecords i { l with st := .placing }

/-- A launch goes on with its images, and with its records once no image is left. An image that cannot be read ends it with FAULT,
with no record placed. -/
def State.goOn (s : State) (i : Nat) (l : Launch) : State :=
  match placeImages s l.queue (LaunchRec.of l.record) [] l.todo with
  | .fault s => (s.onLaunch i fun l => { l with st := .done }).completeEntry l.queue l.entry stFault
  | .left [] s => (s.onLaunch i fun l => { l with todo := [] }).seed i { l with todo := [] }
  | .left todo s => s.onLaunch i fun l => { l with todo }

/-! ### The steps (R402, R407, R209) -/

/-- A launch whose record has been read. -/
def State.beginLaunch (s : State) (q n : Nat) (part : Nat) (x : Part) (bs : List Byte) : State :=
  let r := LaunchRec.of bs
  if !r.ok s.build then s.completeEntry q n stMalformed
  else if r.quarters &&& x.quarters ≠ r.quarters then s.completeEntry q n stDenied
  else
    let i := s.cp.launches.length
    let l : Launch := { queue := q, entry := n, part, pasid := (s.queue q).pasid, record := bs, todo := r.targetQuads }
    (s.onCp fun c => { c with launches := c.launches ++ [l] }).goOn i l

/-- R407: the launch of the first entry of a queue. It waits for earlier launches of its queue to have placed their records, and for
its partition to run (R408) (DEDUCED, log 40). -/
def execLaunch (s : State) : Result :=
  let q := s.arg 0
  match s.headEntry q with
  | none => .next s
  | some (n, bs) =>
    match s.partOfPasid (s.queue q).pasid with
    | none => s.when_ (cpRuns s && q != 0 && entryOpcode bs == 1) fun s => (s.startEntry q).completeEntry q n stFault
    | some (p, x) =>
      let a := argAt (entryArgs bs) 0
      s.when_ (cpRuns s && q != 0 && entryOpcode bs == 1 && !queueParked s q && x.mode == .running && !replays s p) fun s =>
        let s := s.startEntry q
        if a % 64 ≠ 0 then s.completeEntry q n stMalformed
        else match cpRead s q a 128 with
          | none => s.completeEntry q n stFault
          | some rec' => s.beginLaunch q n p x rec'

/-- A launch may go on: its queue is not dead. -/
def launchAlive (s : State) (l : Launch) : Bool := cpRuns s && launchRuns s l && !(s.queue l.queue).dead

/-- R407. -/
def execLaunchQuadFree (s : State) : Result :=
  let i := s.arg 0
  match s.cp.launches[i]? with
  | none => .next s
  | some l => s.when_ (l.st == .images && launchAlive s l) fun s => s.goOn i l

/-- R209: placing goes on after a drain event of a target. -/
def execLaunchPlacementResume (s : State) : Result :=
  let i := s.arg 0
  match s.cp.launches[i]? with
  | none => .next s
  | some l => s.when_ (l.st == .placing && l.drained && launchAlive s l) fun s => s.placeRecords i l

/-- Is an engine operation of a launch outstanding (R397)? -/
def engineOf (i : Nat) (quads : Map Quad) (gangs : Map Gang) : Bool :=
  let m (x : Member) : Bool := x.launch == some i
  quads.any (fun e => e.2.copy.any (fun c => c.2.queue.any fun o => o.launch == some i) || e.2.tq.any fun o => o.launch == some i) ||
    gangs.any fun e =>
      e.2.loads.any (fun l => l.launch == some i) || e.2.arrivals.any (fun a => m a.2.m) ||
        e.2.ready.any (fun r => r.2.any fun a => m a.2.m) || e.2.insts.any (fun n => n.2.members.any m) ||
        e.2.runs.any fun r => r.left.any fun x => m x.m

/-- Has everything of a launch ended (R397)? -/
def launchOver (s : State) (i : Nat) (l : Launch) : Bool :=
  l.st == .running && l.live == 0 && !engineOf i s.quads s.gangs && !s.parts.any fun p => engineOf i p.2.image.quads p.2.image.gangs

/-- R397. -/
def execLaunchComplete (s : State) : Result :=
  let i := s.arg 0
  match s.cp.launches[i]? with
  | none => .next s
  | some l => s.when_ (launchOver s i l) fun s =>
      (s.onLaunch i fun l => { l with st := .done }).completeEntry l.queue l.entry (stDone + if l.kills then 256 else 0)

end Sys2Proof.Machine
end

