-- ==== Sys2Proof/Machine/Admin.lean ====
section
/-! DEFINITION. Admin commands and teardown (17_host R409, R411; R11, R164, R176, R282, R370). -/

namespace Sys2Proof.Machine

/-- Every quarter of a mask is present and not judged failed (R5, R428). -/
def quartersPresent (s : State) (mask : Nat) : Bool :=
  (bitsOf mask 16).all fun q => s.build.hasQuarter q && !(s.quarter q).failed

/-- A partition as it is formed: its quarters start cleared, its trigger serials at 0 (R164, R171, R282, R362, R370). An emergency that
holds one of its quads is its own (R419). -/
def State.formPart (s : State) (p mask : Nat) (save : List Word) : State :=
  let s := s.clearQuarters mask
  { s with
    parts := s.parts.put p { quarters := mask, save, emerg := s.emergIn mask }
    slices := s.slices.mapVals fun _ sl => { sl with serials := sl.serials.drop p } }

/-- R409: MALFORMED for a partition number or a mask out of range, DENIED where the number is formed or a quarter absent or not free. -/
def execForm (s : State) : Result :=
  adminStep 0x10 (fun _ a s =>
    let p := argAt a 0
    let mask := argAt a 1
    if 15 < p ∨ mask = 0 ∨ 2 ^ 16 ≤ mask then .done stMalformed s
    else if (s.part? p).isSome || !quartersPresent s mask || !quartersFree s mask then .done stDenied s
    else .done stDone (s.formPart p mask ((a.drop 2).take 4))) s

/-- The records of a partition's cores leave; the launches that placed them count their tasks as ended. -/
def State.dropWork (s : State) (quarters : Nat) : State :=
  (s.cores.filter fun e => coreIn quarters e.1).foldl (fun s e => e.2.queue.foldl (fun s r => s.launchTaskEnded r.launch true) s) s

/-- Fault records of a partition's address spaces no longer cover its contexts, whether it stands on its quarters or is switched out; those of
a partition that is switched out from the same quarters stay (R263). -/
def State.uncover (s : State) (x : Part) : State :=
  let bare (r : FaultRec) : FaultRec :=
    if x.pasids.has r.pasid then { r with covers := r.covers.filter fun k => !ctxIn x.quarters k } else r
  s.onCp fun c => { c with waiting := c.waiting.map bare, outstanding := c.outstanding.mapVals fun _ r => bare r }

/-- Launches of a partition place nothing more, and wait for no task. -/
def State.endLaunches (s : State) (sel : Launch → Bool) : State :=
  let close (l : Launch) : Launch :=
    if sel l && l.st != .done then { l with todo := [], st := .running, live := 0, kills := true } else l
  s.onCp fun c => { c with launches := c.launches.map close }

/-- Every context of a partition that stands on its quarters is killed without record; false while a write of one of them, or of an ended
task, has to wait for an irrevocable attempt of another partition (R243, R306; DEDUCED, log 41). -/
def State.dissolveKills (s : State) (x : Part) : State × Bool :=
  if x.mode = .out then (s, true)
  else
    let ks := s.ctxsOf x.quarters
    let s := ks.foldl (fun s k => s.kill k none) s
    let s := ks.foldl (fun s k => (s.finishEffects k true).1) s
    let s := (s.cores.filter fun e => coreIn x.quarters e.1).foldl (fun s e =>
      (List.range e.2.tracker.length).reverse.foldl (fun s i => s.retireEntry e.1 i) s) s
    (s, !ks.any (fun k => (s.ctx k).outs.any fun o => o.sideEffect && !o.isMsg) && trackersEmpty s x.quarters)

/-- What a partition drew of the rails when it is dissolved is still to fall (R423). -/
def State.keepFalls (s : State) (x : Part) : State :=
  if x.levels.any (· != 0) then { s with jid := { s.jid with fallen := s.jid.fallen ++ [x.levels] } } else s

/-- A partition is dissolved once its contexts have ended (R409): its quarters are cleared, its triggers removed. -/
def State.dissolve (s : State) (p : Nat) (x : Part) : State :=
  let s := if x.mode = .out then s else (s.dropWork x.quarters).clearQuarters x.quarters
  let s := (((s.keepFalls x).uncover x).endLaunches fun l => l.part == p).dropKeeps p
  { s with
    parts := s.parts.drop p
    slices := s.slices.mapVals fun _ sl => { sl with triggers := sl.triggers.filter fun t => t.part != p, serials := sl.serials.drop p } }

/-- R409. -/
def execDissolve (s : State) : Result :=
  adminStep 0x11 (fun _ a s => onPartition a s fun p x =>
    if x.stops || x.tears then .done stBusy s
    else match State.dissolveKills { s with recordings := s.recordings.filter fun r => r.part != p } x with
      | (s, false) => .held s
      | (s, true) => .done stDone (s.dissolve p x)) s

/-- R409: the root node is aligned to its size and lies in the 52-bit space (DEDUCED, log 41). -/
def execSetPasid (s : State) : Result :=
  adminStep 0x16 (fun _ a s =>
    let pasid := argAt a 1
    let root := argAt a 2
    let homing := argAt a 3
    if 2 ^ 20 ≤ pasid ∨ 2 ^ 16 ≤ homing ∨ root % 4096 ≠ 0 ∨ 2 ^ 52 ≤ root then .done stMalformed s
    else onPartition a s fun p x =>
      if tearingDown s pasid then .done stBusy s
      else if !homingValid s x.quarters homing root then .done stDenied s
      else .done stDone (s.onPart p fun x => { x with pasids := x.pasids.put pasid { root, homing } })) s

/-! ### TEARDOWN (R411) -/

/-- The contexts of every partition's quarters under a PASID. -/
def ctxsUnder (s : State) (pasid : Nat) : List Nat :=
  (s.ctxs.filter fun e => e.2.status != .free && e.2.ctl.pasid == pasid).map (·.1)

/-- The records placed at a core, or held by its probe (R214). -/
def Core.placed (c : Core) : List Record := c.queue ++ match c.probe with | some (_, some r) => [r] | _ => []

/-- A core without some of them; a probe that held one comes back with nothing. -/
def Core.without (gone : Record → Bool) (c : Core) : Core :=
  { c with
    queue := c.queue.filter fun r => !gone r
    probe := match c.probe with | some (v, some r) => if gone r then none else some (v, some r) | p => p }

/-- Step 1: the PASID's teardown begins, and its queues are dead. -/
def State.tearQueues (s : State) (pasid entry : Nat) : State :=
  let s := { s with parts := s.parts.mapVals fun _ x =>
    { x with pasids := x.pasids.mapVals fun q e => if q = pasid then { e with tearing := true, entry } else e } }
  (s.cp.queues.filter fun e => e.1 != 0 && e.2.bound && e.2.pasid == pasid).foldl (fun s e => s.killQueue e.1) s

/-- Steps 2 and 3: contexts end, also those of a partition switched out; records of the PASID are answered by that; placed records
of its launches that have not started go. -/
def State.tearContexts (s : State) (pasid : Nat) : State :=
  let s := (ctxsUnder s pasid).foldl (fun s k => s.kill k none) s
  let gone (r : Record) : Bool := r.pasid == pasid && r.launch.isSome
  let s := (s.cores.flatMap fun e => e.2.placed.filter gone).foldl (fun s r => s.launchTaskEnded r.launch true) s
  let s := s.endLaunches fun l => l.pasid == pasid && (l.st == .images || l.st == .placing)
  let s := s.onCp fun c => { c with
    waiting := c.waiting.filter fun r => !(r.kind == 0 && r.pasid == pasid)
    outstanding := c.outstanding.filter fun e => e.2.pasid != pasid }
  let out := s.parts.flatMap fun p =>
    (p.2.image.ctxs.filter fun e => e.2.status != .free && e.2.ctl.pasid == pasid).map fun e => (p.1, e.1)
  let s := (s.parts.flatMap fun p => p.2.image.cores.flatMap fun e => e.2.placed.filter gone).foldl (fun s r => s.launchTaskEnded r.launch true) s
  let s := out.foldl (fun s e => s.killOut e.1 e.2) s
  { s with
    cores := s.cores.mapVals fun _ c => c.without gone
    parts := s.parts.mapVals fun _ x => { x with image := { x.image with cores := x.image.cores.mapVals fun _ c => c.without gone } } }

/-- Step 4: engine operations stop as cpabort stops them (R331), and armed triggers go. -/
def State.tearEngines (s : State) (pasid : Nat) : State :=
  let stop (q : Quad) : Quad := { q with
    copy := q.copy.mapVals fun _ x =>
      { x with queue := x.queue.map fun o => if o.pasid = pasid ∧ !o.finished then { o with abort := true } else o }
    tq := q.tq.map fun o => if o.pasid = pasid ∧ !o.finished then { o with abort := true } else o }
  { s with
    quads := s.quads.mapVals fun _ q => stop q
    parts := s.parts.mapVals fun _ x => { x with image := { x.image with quads := x.image.quads.mapVals fun _ q => stop q } }
    slices := s.slices.mapVals fun _ sl => { sl with
      triggers := sl.triggers.filter fun t => t.pasid != pasid
      fired := sl.fired.map fun f => if f.msg.pasid = pasid then { f with torn := true } else f } }

/-- A gang whose arrivals of a PASID have no completion word any more. -/
def Gang.unworded (g : Gang) (pasid : Nat) : Gang :=
  { g with arrivals := g.arrivals.mapVals fun _ a => if a.m.pasid = pasid then { a with m := { a.m with cword := none } } else a }

/-- The matrix operations of a PASID in the image of a partition that is switched out do without its pages: members are withdrawn (R357),
loads of buffer G are dropped, arrivals keep no completion word (DEDUCED, log 44). -/
def State.tearGangs (s : State) (pasid : Nat) : State :=
  let waiting := s.gangs.flatMap fun g => g.2.insts.flatMap fun e => e.2.members.filter fun m => m.pasid == pasid
  let s := waiting.foldl State.withdraw s
  { s with
    gangs := s.gangs.mapVals fun _ g => { g.unworded pasid with loads := g.loads.filter fun l => l.pasid != pasid }
    quarters := s.quarters.mapVals fun _ q => { q with used := q.used.filter fun t => t.pasid != pasid } }

/-- Something done to the image of a partition as to a machine that stands on its quarters. -/
def State.inImage (f : State → State) (s : State) (p : Nat × Part) : State :=
  let i := p.2.image
  let t := f { s with ctxs := i.ctxs, cores := i.cores, quads := i.quads, gangs := i.gangs, quarters := i.quarters }
  s.onPart p.1 fun x =>
    { x with image := { ctxs := t.ctxs, cores := t.cores, quads := t.quads, gangs := t.gangs, quarters := t.quarters } }

/-- The pages of a PASID that the images of partitions switched out have used. -/
def State.imagePages (s : State) (pasid : Nat) : List Tlb :=
  s.parts.flatMap fun p => p.2.image.quarters.flatMap fun e => e.2.used.filter fun t => t.pasid == pasid

/-- Step 5: translations of the PASID begin to go, as tlbinv.as removes them (R267), and with those of an image the promoted blocks under
their pages (R194). -/
def State.tearPages (s : State) (pasid : Nat) : State :=
  let s := (s.imagePages pasid).foldl (fun s t => s.demote t.pa (t.pa + 2 ^ t.bits)) s
  let s := (s.parts.filter fun p => p.2.mode == .out).foldl (State.inImage fun s => s.tearGangs pasid) s
  (s.pagesDone 0xFFFF (fun t => t.pasid == pasid) false).1

/-- Is an engine operation of a PASID still at work? -/
def enginesOf (s : State) (pasid : Nat) : Bool :=
  s.quads.any fun e => e.2.copy.any (fun c => c.2.queue.any fun o => o.pasid == pasid && !o.finished) ||
    e.2.tq.any fun o => o.pasid == pasid && !o.finished

/-- The teardown completes: the PASID's translations are gone, and it is held no longer. -/
def State.endTeardown (s : State) (pasid n : Nat) : State :=
  let s := s.dropPages 0xFFFF (fun t => t.pasid == pasid) fun r => r.pasid == pasid
  let s : State := { s with
    gangs := s.gangs.mapVals fun _ g => g.unworded pasid
    parts := s.parts.mapVals fun _ x => { x with pasids := x.pasids.filter fun e => e.1 != pasid } }
  s.completeEntry 0 n stDone

/-- R411 (DEDUCED, log 44). -/
def execTeardown (s : State) : Result :=
  adminStep 0x17 (fun n a s =>
    let pasid := argAt a 1
    if 2 ^ 20 ≤ pasid then .done stMalformed s
    else if (s.partOfPasid pasid).isNone then .done stDenied s
    else if tearingDown s pasid then .done stBusy s
    else .later ((((s.tearQueues pasid n).tearContexts pasid).tearEngines pasid).tearPages pasid)) s

/-- R411: the last response has arrived, or 2 ms have passed, and what used the PASID's translations has ended; an arrival at a barrier that
is not complete, for which R352 sets no bound, is not waited for (DEDUCED, log 44). -/
def execTeardownComplete (s : State) : Result :=
  let pasid := s.arg 0
  match s.parts.findSome? fun p => (p.2.pasids.find? fun e => e.1 == pasid && e.2.tearing).map fun e => e.2.entry with
  | none => .next s
  | some n =>
    match s.pagesDone 0xFFFF (fun t => t.pasid == pasid) false with
    | (s, false) => .next s
    | (s, true) => .next (if enginesOf s pasid then s else s.endTeardown pasid n)

/-! ### The other commands (R409) -/

/-- R409: 0 is stored to the completion word before any entry is fetched; where that fails the queue is dead (R406) (DEDUCED, log 41). -/
def State.bindQueue (s : State) (q pasid part : Nat) (a : List Word) : State :=
  let a0 := a.getD 0 0
  let x : HQueue :=
    { bound := true, log2n := fld a0 16 4, vector := fld a0 32 11, pasid, part, base := a.getD 2 0, cpl := a.getD 3 0, sts := a.getD 4 0 }
  ((s.onQueue q fun _ => x).onCp fun c => { c with stores := c.stores ++ [.zero q] }).drainAll

/-- R409. Queue 0 is never bound by a command (R404): DENIED, as for a queue that is bound, dead or not (DEDUCED, log 38). Bits of a0 outside its
fields are to be zero (DEDUCED, log 41). -/
def execBindQueue (s : State) : Result :=
  adminStep 0x18 (fun _ a s =>
    let a0 := a.getD 0 0
    let q := fld a0 0 8
    let pasid := argAt a 1
    let zero := fld a0 8 8 = 0 ∧ fld a0 20 12 = 0 ∧ fld a0 43 21 = 0
    let log2n := fld a0 16 4
    if !decide zero || decide (log2n < 4) || decide (12 < log2n) || decide (2 ^ 20 ≤ pasid) || argAt a 2 % 4096 != 0 ||
        argAt a 3 % 8 != 0 || argAt a 4 % 8 != 0 then .done stMalformed s
    else match s.partOfPasid pasid with
      | none => .done stDenied s
      | some (p, _) =>
        if q = 0 || (s.queue q).bound then .done stDenied s
        else if tearingDown s pasid then .done stBusy s
        else .done stDone (s.bindQueue q pasid p a)) s

/-- R409, R247. -/
def execSetTimer (s : State) : Result :=
  adminStep 0x19 (fun _ a s =>
    let t := argAt a 1
    if t ≠ 0 ∧ (t < 10 ∨ 1000000 < t) then .done stMalformed s
    else onPartition a s fun p _ => .done stDone (s.onPart p fun x => { x with timer := t })) s

/-- The release mask of every quad of a layer in a partition (R176) (DEDUCED, log 41). -/
def State.setRelease (s : State) (x : Part) (layer : Nat) (mask : Word) : State :=
  (x.quads.filter fun q => quadLayer q == layer).foldl (fun s q => s.onQuad q fun y => { y with release := mask }) s

/-- R409, R176. -/
def execSetRelease (s : State) : Result :=
  adminStep 0x1A (fun _ a s =>
    let layer := argAt a 1
    let mask := argAt a 2
    if 3 < layer ∨ 2 ^ bankCount layer ≤ mask then .done stMalformed s
    else onPartition a s fun p x =>
      let s := s.onPart p fun x => { x with release := x.release.put layer (word mask) }
      let put (m : Map Quad) (q : Nat) : Map Quad := m.put q { (m.get {} q) with release := word mask }
      let onImage (x : Part) : Map Quad := (x.quads.filter fun q => quadLayer q == layer).foldl put x.image.quads
      .done stDone (if x.mode = .out then s.onPart p fun x => { x with image := { x.image with quads := onImage x } }
        else s.setRelease x layer (word mask))) s

/-- R409. -/
def execJoin (s : State) : Result :=
  adminStep 0x1B (fun _ a s =>
    let m := argAt a 1
    let mask := argAt a 2
    if 4095 < m ∨ 2 ^ 16 ≤ mask then .done stMalformed s
    else onPartition a s fun p _ =>
      .done stDone (s.onPart p fun x =>
        let others := x.joins.filter fun j => j.module != m
        { x with joins := if mask = 0 then others else { module := m, quarters := mask } :: others })) s

end Sys2Proof.Machine
end

