-- ==== Sys2Proof/Machine/Faults.lean ====
section
/-! DEFINITION. The fault queue and the host's answers (10_system R263 to R265, R432; 17_host R410). -/

namespace Sys2Proof.Machine

/-- The 32 bytes of a record (R264). -/
def FaultRec.bytes (r : FaultRec) : List Byte :=
  bytesOfNat 8 r.va.toNat ++ bytesOfNat 8 r.val.toNat ++ bytesOfNat 4 r.pasid ++ bytesOfNat 1 r.kind ++ bytesOfNat 1 r.reason ++
    bytesOfNat 1 r.access ++ bytesOfNat 1 r.count ++ bytesOfNat 8 r.origin.toNat

/-- Has the fault queue a place, and room (R410)? -/
def fqOpen (c : Cp) : Bool :=
  let n := fld c.fqctl 0 4
  decide (4 ≤ n) && decide (n ≤ 12) && decide (countDiff c.fqtail c.fqhead < (2 ^ n : Int))

/-- R410: the oldest record inside the command processor is written to the fault queue (DEDUCED, log 60). -/
def execFaultRecordPost (s : State) : Result :=
  match s.cp.waiting with
  | [] => .next s
  | r :: _ =>
    let at_ := fqPlace s (s.cp.fqtail + 1) 0
    s.when_ (cpRuns s && fqOpen s.cp && s.mayWrite none [(at_, 0)]) fun s =>
      let c := s.cp
      let k := (c.fqtail + 1) % 2 ^ 64
      let s := s.hostBytes at_ r.bytes
      (s.onCp fun c => { c with
        waiting := c.waiting.drop 1, fqtail := k
        outstanding := if r.kind = 0 then c.outstanding.put (k % 2 ^ 32) r else c.outstanding }).signal (fld c.fqctl 16 11)

/-- An answer to a record: what it does to each context that the record covers and that is still suspended, where its partition stands
on its quarters, and where it is switched out, with the partition's number. -/
def answer (live : State → Nat → State) (out : State → Nat → Nat → State) (s : State) : Result :=
  let k := s.arg 0 % 2 ^ 32
  match s.cp.outstanding.find? fun e => e.1 == k with
  | none => .next s
  | some (_, r) =>
    s.when_ (cpRuns s && !tearingDown s r.pasid) fun s =>
      let s := s.onCp fun c => { c with outstanding := c.outstanding.drop k }
      match s.partOfPasid r.pasid with
      | some (p, x) =>
        if x.mode = .out then r.covers.foldl (fun s j => if (x.image.ctxs.get {} j).status = .suspended then out s p j else s) s
        else r.covers.foldl (fun s j => if (s.ctx j).status = .suspended then live s j else s) s
      | none => s

/-- The faulting instruction issues again (R263). A withdrawn mms that had faulted is issued again where the context stood (R253, R254). -/
def Ctx.answered (c : Ctx) : Ctx :=
  let c := { c with status := .running }
  match c.cuts with
  | t :: rest => if t.at_ = c.pc ∧ t.back.isSome then c.takeUp t rest else c
  | [] => c

/-- The fault of a context that is halted, or that replays up to it, is declined: the cause is taken once it goes on (DEDUCED, log 36). -/
def Ctx.decline (c : Ctx) : Ctx := { c with status := .running, declined := some c.faulted }

/-- R263. -/
def execFqansResume (s : State) : Result :=
  answer (fun s j => s.onCtx j Ctx.answered) (fun s p j => s.onImageCtx p j Ctx.answered) s

/-- R263: the context takes cause 0x04, once it is not halted. -/
def execFqansDecline (s : State) : Result :=
  answer (fun s j =>
    let f := (s.ctx j).faulted
    if (s.ctx j).halted || (s.ctx j).strip.isSome then s.onCtx j Ctx.decline
    else (s.onCtx j fun c => { c with status := .running }).takeTrap j cTranslation f.1 f.2 (s.ctx j).pc)
    (fun s p j => s.onImageCtx p j Ctx.decline) s

/-- R263: killed, with no further record. -/
def execFqansKill (s : State) : Result := answer (fun s j => s.kill j none) State.killOut s

end Sys2Proof.Machine
end

