-- ==== Sys2Proof/Machine/Integer.lean ====
section
/-! DEFINITION. The integer instructions (03_integer R74 to R85). -/

namespace Sys2Proof.Machine

/-- An integer instruction of two sources that writes xd at issue (R74). -/
def intRR (f : Word → Word → Word) (d a b : BitVec 5) (s : State) : Result :=
  .next (s.writesX d (f (s.me.getX a) (s.me.getX b)))

/-- An integer instruction of one source. -/
def intR (f : Word → Word) (d a : BitVec 5) (s : State) : Result := .next (s.writesX d (f (s.me.getX a)))

/-- R74. -/
def execAdd (d a b : BitVec 5) (s : State) : Result := intRR (· + ·) d a b s
/-- R74. -/
def execSub (d a b : BitVec 5) (s : State) : Result := intRR (· - ·) d a b s
/-- R74. -/
def execAnd (d a b : BitVec 5) (s : State) : Result := intRR (· &&& ·) d a b s
/-- R74. -/
def execOr (d a b : BitVec 5) (s : State) : Result := intRR (· ||| ·) d a b s
/-- R74. -/
def execXor (d a b : BitVec 5) (s : State) : Result := intRR (· ^^^ ·) d a b s
/-- R74. -/
def execAndn (d a b : BitVec 5) (s : State) : Result := intRR (fun x y => x &&& ~~~y) d a b s
/-- R74. -/
def execOrn (d a b : BitVec 5) (s : State) : Result := intRR (fun x y => x ||| ~~~y) d a b s
/-- R75. -/
def execSll (d a b : BitVec 5) (s : State) : Result := intRR (fun x y => x <<< amount y) d a b s
/-- R75. -/
def execSrl (d a b : BitVec 5) (s : State) : Result := intRR (fun x y => x >>> amount y) d a b s
/-- R75. -/
def execSra (d a b : BitVec 5) (s : State) : Result := intRR (fun x y => x.sshiftRight (amount y)) d a b s
/-- R75. -/
def execRotl (d a b : BitVec 5) (s : State) : Result :=
  intRR (fun x y => x <<< amount y ||| x >>> ((64 - amount y) % 64)) d a b s
/-- R75. -/
def execRotr (d a b : BitVec 5) (s : State) : Result :=
  intRR (fun x y => x >>> amount y ||| x <<< ((64 - amount y) % 64)) d a b s
/-- R74. -/
def execSlt (d a b : BitVec 5) (s : State) : Result := intRR (fun x y => ofBool (x.slt y)) d a b s
/-- R74. -/
def execSltz (d a b : BitVec 5) (s : State) : Result := intRR (fun x y => ofBool (x.ult y)) d a b s
/-- R74. -/
def execMin (d a b : BitVec 5) (s : State) : Result := intRR (fun x y => if x.sle y then x else y) d a b s
/-- R74. -/
def execMax (d a b : BitVec 5) (s : State) : Result := intRR (fun x y => if y.sle x then x else y) d a b s
/-- R74. -/
def execMinz (d a b : BitVec 5) (s : State) : Result := intRR (fun x y => if x.ule y then x else y) d a b s
/-- R74. -/
def execMaxz (d a b : BitVec 5) (s : State) : Result := intRR (fun x y => if y.ule x then x else y) d a b s

/-- The number of zero bits above the highest one bit (R76). -/
def leadingZeros (x : Word) : Word := if x = 0 then 64 else word (63 - Nat.log2 x.toNat)

/-- The number of zero bits below the lowest one bit (R76). -/
def trailingZeros (x : Word) : Word := word (((List.range 64).find? fun i => x.getLsbD i).getD 64)

/-- R76. -/
def execClz (d a : BitVec 5) (s : State) : Result := intR leadingZeros d a s
/-- R76. -/
def execCtz (d a : BitVec 5) (s : State) : Result := intR trailingZeros d a s
/-- R76. -/
def execPopc (d a : BitVec 5) (s : State) : Result := intR (fun x => word (popcount x.toNat 64)) d a s

/-- R77. -/
def execMul (d a b : BitVec 5) (s : State) : Result := intRR (· * ·) d a b s
/-- R77. -/
def execMulh (d a b : BitVec 5) (s : State) : Result := intRR (fun x y => mulHigh (x.toInt * y.toInt)) d a b s
/-- R77. -/
def execMulhz (d a b : BitVec 5) (s : State) : Result := intRR (fun x y => mulHigh (x.toNat * y.toNat : Nat)) d a b s

/-- A result that is computed at issue and written later (R72, R93). -/
def State.issueValue (s : State) (dsts : List Dst) (ans : Ans) : State :=
  s.step1 fun c => c.issue .value dsts true false false (some ans)

/-- A division (R72, R78): the trap for a zero divisor at issue, else a long-latency result. -/
def divide (f : Word → Word → Word) (w : Word32) (d a b : BitVec 5) (s : State) : Result :=
  let x := s.me.getX a
  let y := s.me.getX b
  if y = 0 then .next (s.trap cDivide (word w.toNat)) else .next (s.issueValue [.x d] { writes := [.x d (f x y)] })

/-- R78. -/
def execDiv (sb : Bool) (d a b : BitVec 5) (s : State) : Result :=
  divide (fun x y => BitVec.ofInt 64 (x.toInt.tdiv y.toInt)) (Instr.div sb d a b).word d a b s
/-- R78. -/
def execDivz (sb : Bool) (d a b : BitVec 5) (s : State) : Result :=
  divide (fun x y => x.udiv y) (Instr.divz sb d a b).word d a b s
/-- R78. -/
def execRem (sb : Bool) (d a b : BitVec 5) (s : State) : Result :=
  divide (fun x y => BitVec.ofInt 64 (x.toInt.tmod y.toInt)) (Instr.rem sb d a b).word d a b s
/-- R78. -/
def execRemz (sb : Bool) (d a b : BitVec 5) (s : State) : Result :=
  divide (fun x y => x.umod y) (Instr.remz sb d a b).word d a b s

/-- R79. -/
def execAddi (d a : BitVec 5) (i : BitVec 15) (s : State) : Result := intR (· + simm i) d a s
/-- R79. -/
def execAndi (d a : BitVec 5) (i : BitVec 15) (s : State) : Result := intR (· &&& simm i) d a s
/-- R79. -/
def execOri (d a : BitVec 5) (i : BitVec 15) (s : State) : Result := intR (· ||| simm i) d a s
/-- R79. -/
def execXori (d a : BitVec 5) (i : BitVec 15) (s : State) : Result := intR (· ^^^ simm i) d a s
/-- R79. -/
def execSlti (d a : BitVec 5) (i : BitVec 15) (s : State) : Result := intR (fun x => ofBool (x.slt (simm i))) d a s
/-- R80. -/
def execSlli (d a : BitVec 5) (n : BitVec 6) (s : State) : Result := intR (· <<< n.toNat) d a s
/-- R80. -/
def execSrli (d a : BitVec 5) (n : BitVec 6) (s : State) : Result := intR (· >>> n.toNat) d a s
/-- R80. -/
def execSrai (d a : BitVec 5) (n : BitVec 6) (s : State) : Result := intR (·.sshiftRight n.toNat) d a s
/-- R84. -/
def execLui (d : BitVec 5) (i : BitVec 20) (s : State) : Result := .next (s.writesX d (simm i <<< 15))
/-- R85. -/
def execAddpc (d : BitVec 5) (i : BitVec 20) (s : State) : Result := .next (s.writesX d (target s.me.pc i))
/-- R81. -/
def execAdds (d a b n : BitVec 5) (s : State) : Result := intRR (fun x y => x + y <<< n.toNat) d a b s
/-- R82. -/
def execSel (d a b c : BitVec 5) (s : State) : Result :=
  let cond := s.me.getX c
  intRR (fun x y => if cond ≠ 0 then x else y) d a b s
/-- R83. -/
def execExt (d a : BitVec 5) (l p : BitVec 6) (s : State) : Result :=
  intR (fun x => (x >>> p.toNat) &&& fieldMask (l.toNat + 1) 0) d a s
/-- R83: xd is read as a source. -/
def execIns (d a : BitVec 5) (l p : BitVec 6) (s : State) : Result :=
  let mask := fieldMask (l.toNat + 1) p.toNat
  let old := s.me.getX d
  intR (fun x => (old &&& ~~~mask) ||| ((x <<< p.toNat) &&& mask)) d a s

end Sys2Proof.Machine
end

