-- ==== Sys2Proof/Machine/Power.lean ====
section
/-! DEFINITION. Limits, cap messages, samples, the budget tree, emergencies, errors, recording, reset and firmware (18_power R415 to R431;
17_host R413, R414).

What converters and sensors find is not in the manual: it comes with the step's arguments (DESIGN CHOICE, log 13). -/

namespace Sys2Proof.Machine

/-! ### Limits (R415 to R418) -/

/-- The threshold and the watts per quarter in force: those of the last accepted message while its lease runs, else the safe cap. -/
def Jid.inForce (j : Jid) : Nat × Nat :=
  match j.last with
  | some m => if m.live then (m.rankth, m.cap) else (j.saferank, j.safecap)
  | none => (j.saferank, j.safecap)

/-- The number that means no cap (R416). -/
def noCap : Nat := 0xFFFFFFFF

/-- The hall rank cap of a partition (R415, code 3), if it applies. -/
def Part.hallCap (x : Part) (j : Jid) : Option Nat :=
  let f := j.inForce
  if f.1 ≤ x.rank ∧ f.2 ≠ noCap then some (f.2 * popcount x.quarters 16) else none

/-- A payload of R416. -/
structure CapPayload where
  group : Nat
  rankth : Nat
  cap : Nat
  lease : Nat
  seq : Word
  zero : Nat
deriving DecidableEq, Repr

def CapPayload.of (bs : List Byte) : CapPayload :=
  let at_ (off len : Nat) : Nat := natOfBytes ((bs.drop off).take len)
  { group := at_ 0 2, rankth := at_ 2 1, cap := at_ 4 4, lease := at_ 8 4, seq := word (at_ 16 8), zero := at_ 3 1 + at_ 12 4 }

/-- Is a message newer than the last accepted one (R417)? -/
def Jid.newer (j : Jid) (seq : Word) : Bool :=
  match j.last with
  | none => true
  | some m => decide (0 < (seq - m.seq).toInt)

/-- What Jidjasol does with a cap message (R416, R417): one of another group is not for it; a malformed one is counted. -/
def Jid.receive (j : Jid) (m : CapPayload) : Jid :=
  if m.group ≠ j.group then j
  else if m.zero ≠ 0 ∨ 8 < m.rankth ∨ 60000 < m.lease then { j with malformed := j.malformed + 1 }
  else if j.newer m.seq then
    { j with last := some { rankth := m.rankth, cap := m.cap, lease := if m.lease = 0 then 2000 else m.lease, seq := m.seq } }
  else j

def State.onJid (s : State) (f : Jid → Jid) : State := { s with jid := f s.jid }

/-- A step that Jidjasol's firmware takes: none where it has failed its verification, or where `c` does not hold (R413). -/
def State.jidWhen (s : State) (c : Bool) (f : State → State) : Result := s.when_ (!s.jid.down && c) f

/-- The command processor has an event of each message accepted (R402), which leaves nothing to do there (DEDUCED, log 50). -/
def State.capEvent (s : State) (m : CapPayload) : State :=
  let j := s.jid.receive m
  if j.last = s.jid.last then s.onJid fun _ => j else (s.onJid fun _ => j).raise .capMessage []

/-- R416, R417: `ev` gives the 24 bytes of the payload. -/
def execCapMessage (s : State) : Result :=
  let bs : List Byte := s.ev.map (BitVec.ofNat 8)
  s.jidWhen (decide (bs.length = 24)) fun s => s.capEvent (CapPayload.of bs)

/-- R418. -/
def execCapLeaseExpiry (s : State) : Result :=
  s.jidWhen true fun s => (s.onJid fun j => { j with last := j.last.map fun m => { m with live := false } })

/-- R415. -/
def execSetPartitionCap (s : State) : Result :=
  let v := s.arg 1
  s.jidWhen true fun s => s.onPart (s.arg 0) fun x => { x with cap := some v }
/-- R415: at most 3,600 W. -/
def execSetModuleCap (s : State) : Result :=
  let v := s.arg 0
  s.jidWhen true fun s => s.onJid fun j => { j with modcap := some (min v 3600) }
/-- R415. -/
def execSetPartitionRank (s : State) : Result :=
  let v := s.arg 1
  s.jidWhen (decide (v ≤ 7)) fun s => s.onPart (s.arg 0) fun x => { x with rank := v }
/-- R418. -/
def execSetSafeCap (s : State) : Result :=
  let cap := s.arg 0
  let rank := s.arg 1
  s.jidWhen (decide (rank ≤ 8)) fun s => s.onJid fun j => { j with safecap := cap, saferank := rank }

/-! ### Samples, ballast and emergencies (R421 to R423) -/

/-- The last sample of a rail: 0 to 15 the quarters' logic rails, then each die's SRAM-tier, DRAM-tier and HBM4 rails. -/
def State.railAt (s : State) (i : Nat) : Nat :=
  if i < 16 then (s.quarter i).rail else (s.die ((i - 16) / 3)).rails.getD ((i - 16) % 3) 0

/-- The rated value of a rail. -/
def Build.ratedAt (b : Build) (i : Nat) : Option Nat := b.rated[i]?

/-- The quads on a rail. -/
def railQuads (i : Nat) : List Nat :=
  if i < 16 then quadsOfQuarter i else (List.range 4).flatMap fun k => quadsOfQuarter (4 * ((i - 16) / 3) + k)

/-- Has ballast stopped on a rail: does an emergency hold every quad on it, with some others that one begins to hold (R422)? Else the ballast
units of its other quads draw what its slope asks for (R423; DEDUCED, log 50). -/
def State.ballastStopped (s : State) (more : List Nat) (i : Nat) : Bool :=
  ((railQuads i).filter s.build.hasQuad).all fun q => (s.quad q).emerg || more.contains q

/-- What a sample brings (R421): the reading of each rail's 10-bit converter for what the rail draws for itself, and the quarters' access
counts in the interval. -/
structure Sample where
  drawn : List Nat
  access : List Nat
deriving DecidableEq, Repr

def Sample.of (ev : List Nat) : Sample :=
  { drawn := (List.range 28).map fun i => min 1023 (ev.getD i 0), access := (List.range 16).map fun i => ev.getD (28 + i) 0 }

def Sample.at (m : Sample) (i : Nat) : Nat := m.drawn.getD i 0

/-- A rail's sample: what it draws for itself, and the ballast that lets it fall by a sixteenth of its rated value at most (R423), unless an
emergency has stopped it (R422). -/
def State.sampled (s : State) (i drawn : Nat) : Nat :=
  if s.ballastStopped [] i then drawn
  else match s.build.ratedAt i with
    | some r => max drawn (s.railAt i - r / 16)
    | none => drawn

/-- The sum of some numbers. -/
def sum (l : List Nat) : Nat := l.foldl (· + ·) 0

/-- A partition's part of what a rail draws for itself (R421): a quarter's logic rail is its own, and of a die's shared rail it has what its
quarters' access counts give it; none while it is switched out. -/
def Part.drawn (x : Part) (m : Sample) (i : Nat) : Nat :=
  if x.mode = .out then 0
  else if i < 16 then (if x.quarters.testBit i then m.at i else 0)
  else
    let d := (i - 16) / 3
    let count (q : Nat) : Nat := m.access.getD q 0
    let all := (List.range 4).map (4 * d + ·)
    m.at i * sum ((all.filter fun q => x.quarters.testBit q).map count) / sum (all.map count)

/-- How far a partition's part of a rail has fallen since the last sample; that of one just switched out has fallen to nothing. -/
def Part.fall (x : Part) (m : Sample) (i : Nat) : Nat := x.levels.getD i 0 - x.drawn m i

/-- How far a rail has fallen in all: by its partitions' falls, and by those of partitions that have been dissolved. -/
def State.falls (s : State) (m : Sample) (i : Nat) : Nat :=
  sum (s.parts.map fun p => p.2.fall m i) + sum (s.jid.fallen.map fun l => l.getD i 0)

/-- The ballast of a rail that a fall calls for (R423) (DEDUCED, log 50). -/
def State.calledBy (s : State) (m : Sample) (i fall : Nat) : Nat := (s.sampled i (m.at i) - m.at i) * fall / s.falls m i

/-- The ballast of a rail that a partition's fall calls for. -/
def State.called (s : State) (m : Sample) (x : Part) (i : Nat) : Nat := s.calledBy m i (x.fall m i)

/-- What dissolved partitions' parts of the rails have still to fall (R423): what ballast draws for them. -/
def State.stillFalling (s : State) (m : Sample) (stopped : Nat → Bool) : List (List Nat) :=
  (s.jid.fallen.map fun l => (List.range 28).map fun i => if stopped i then 0 else s.calledBy m i (l.getD i 0)).filter fun l => l.any (· != 0)

/-- May ballast run no longer for a partition: has it been over its budget for 20 µs (R423)? -/
def Part.noBallast (x : Part) : Bool := decide (40 ≤ x.overrun)

/-- The samples of all rails. -/
def State.railSamples (s : State) (m : Sample) : List Nat :=
  (List.range 28).map fun i =>
    s.sampled i (m.at i) - sum (s.parts.map fun p => if p.2.noBallast then s.called m p.2 i else 0)

/-- The samples held. -/
def State.holdRails (s : State) (v : List Nat) : State :=
  let s := (List.range 16).foldl (fun s q => if s.build.hasQuarter q then s.onQuarter q fun x => { x with rail := v.getD q 0 } else s) s
  (List.range 4).foldl (fun s d => s.onDie d fun x => { x with rails := (v.drop (16 + 3 * d)).take 3 }) s

/-- The power of what rails read, in milliwatts. -/
def railPower (v : List Nat) : Nat := sum (v.zipIdx.map fun e => e.1 * Config.railStep e.2)

/-- Samples in a window of 1 ms (R421). -/
def windowSamples : Nat := 2000

/-- A window after a sample. -/
def PowerWindow.next (w : PowerWindow) (power : Nat) : PowerWindow :=
  if windowSamples ≤ w.samples + 1 then { w with energy := 0, samples := 0, average := (w.energy + power) / windowSamples }
  else { w with energy := w.energy + power, samples := w.samples + 1 }

/-- A partition after a sample: its part of each rail, with what ballast draws for it, which counts in its averages (R421, R423). -/
def Part.sample (x : Part) (own ballast : List Nat) : Part :=
  let levels := own.zipWith (· + ·) ballast
  let power := railPower levels
  let runs := decide (0 < sum ballast)
  let isOver := match x.budget with | some b => decide (b < power) | none => false
  { x with
    power, levels, ballast := runs, overrun := if runs && isOver then x.overrun + 1 else 0
    windows := x.windows.mapVals fun _ w => w.next power }

/-- The task contexts of a quad that an emergency throttles raise cause 0x11, with PCAPCAUSE at the emergency (R240, R247). -/
def State.raisePower (s : State) (quad : Nat) : State :=
  (s.ctxs.filter fun e => quadOf e.1 == quad && e.2.status != .free && !isHandler e.1).foldl (fun s e =>
    let v := match s.partOf e.1 with | some (_, x) => x.pcapcause | none => 0
    s.onCtx e.1 fun c => { c with power := some v }) s

/-- A power emergency on some quads (R422). -/
def State.emergency (s : State) (quads : List Nat) : State :=
  let s := quads.foldl (fun s q =>
    let s := (List.range 4).foldl (fun s i => s.onCore (4 * q + i) fun c => { c with fduty := 1 }) s
    s.onQuad q fun x => { x with emerg := true, target := min 7 (x.point + 1) }) s
  let hit (x : Part) : Bool := x.mode != .out && quads.any fun q => x.quarters.testBit (quarterOf q)
  let s := { s with parts := s.parts.mapVals fun _ x => if hit x then { x with emerg := true } else x }
  quads.foldl State.raisePower (s.onJid fun j => { j with emergency := true })

/-- The quads that the samples put out of bounds (R422): all of them where the module draws more than 3,600 W; those on a rail above its rated
value; those whose sensor is above 110 °C. -/
def State.outOfBounds (s : State) (v : List Nat) (temps : List (Nat × Nat)) : List Nat :=
  let all := ((List.range 16).filter s.build.hasQuarter).flatMap quadsOfQuarter
  let above (i : Nat) : Bool := match s.build.ratedAt i with | some r => decide (r < v.getD i 0) | none => false
  if 3600000 < railPower v then all
  else all.filter fun q =>
    above (quarterOf q) || (List.range 3).any (fun i => above (16 + 3 * quadDie q + i)) || temps.any fun e => e.1 == q && decide (110 < e.2)

/-- Numbers in pairs. -/
def pairs : List Nat → List (Nat × Nat)
  | a :: b :: t => (a, b) :: pairs t
  | _ => []

/-- R421 to R423: `ev` gives what each rail's converter reads of what the rail draws for itself (sixteen logic rails, then each die's
SRAM-tier, DRAM-tier and HBM4 rails), the quarters' access counts in the interval, then pairs of a quad and its junction's degrees
(DESIGN CHOICE, log 13). Ballast stops on the quads that an emergency holds. -/
def execRailSample (s : State) : Result :=
  let m := Sample.of s.ev
  let temps := pairs (s.ev.drop 44)
  let v := s.railSamples m
  let bad := s.outOfBounds v temps
  let stopped : Nat → Bool := s.ballastStopped bad
  let v := v.zipIdx.map fun e => if stopped e.2 then m.at e.2 else e.1
  let charge (x : Part) : List Nat := (List.range 28).map fun i => if stopped i || x.noBallast then 0 else s.called m x i
  let t := temps.foldl (fun s e => if s.build.hasQuad e.1 then s.onQuad e.1 fun q => { q with temp := e.2 } else s) (s.holdRails v)
  let t := { t with
    parts := t.parts.mapVals fun _ x => x.sample ((List.range 28).map (x.drawn m)) (charge x)
    jid := { t.jid with fallen := s.stillFalling m stopped } }
  .next (if bad.isEmpty then t else (t.onJid fun j => { j with outOfBounds := true }).emergency bad)

/-! ### Redivision (R415, R419, R420, R423, R424) -/

/-- What a child of the budget tree asks for: its demand, the most it may get, and what it has been given. -/
structure Child where
  demand : Nat
  most : Nat
  got : Nat := 0
deriving DecidableEq, Repr

/-- One sharing out: each child still short is given its part of what is left, in proportion to its demand, and no more than it may get. -/
def shareOnce (left : Nat) (l : List Child) : List Child :=
  let short (c : Child) : Bool := decide (c.got < min c.demand c.most)
  let total := (l.filter short).foldl (fun n c => n + c.demand) 0
  l.map fun c => if short c then { c with got := min (min c.demand c.most) (c.got + left * c.demand / total) } else c

/-- What is left over goes to the children still short, in the same proportion (R420) (DEDUCED, log 50). -/
def shareOut (budget : Nat) : Nat → List Child → List Child
  | 0, l => l
  | n + 1, l => shareOut budget n (shareOnce (budget - l.foldl (fun n c => n + c.got) 0) l)

/-- The shares of a budget by demand (R420). -/
def budgetShares (budget : Nat) (demands : List Nat) : List Nat :=
  (shareOut budget demands.length (demands.map fun d => { demand := d, most := d })).map (·.got)

/-- Is a context running or asleep: not free, ending or suspended on a translation fault? -/
def Status.works : Status → Bool
  | .free => false
  | .ending => false
  | .suspended => false
  | _ => true

/-- Has a quad no running, sleeping or queued context, and no engine operation outstanding (R420)? -/
def quadQuiet (s : State) (quad : Nat) : Bool :=
  !s.ctxs.any (fun e => quadOf e.1 == quad && e.2.status.works) && !engineBusy s quad &&
    (List.range 4).all fun i => (s.core (4 * quad + i)).queue.isEmpty

/-- A core's demand (R420): its issued instructions and the engine work of its quad since the last redivision, weighted by their energy; none
where there is neither, or on a quad without a running, sleeping or queued context or engine work. -/
def State.demandOf (s : State) (core : Nat) : Nat :=
  let quad := quadOfCore core
  let n := (s.core core).issues
  let w := (s.quad quad).work
  if quadQuiet s quad || (n == 0 && w == 0) then 0 else Config.demand n w

/-- A partition's demand (R419): none while it is switched out. -/
def State.partDemand (s : State) (x : Part) : Nat :=
  if x.mode = .out then 0 else sum (x.quads.flatMap fun q => (List.range 4).map fun i => s.demandOf (4 * q + i))

/-- What the thermal limit leaves a partition (R415, code 4): it holds while a junction sensor of its quads is not below 105 °C. -/
def State.thermal (s : State) (x : Part) : Option Nat :=
  if x.mode != .out && x.quads.any fun q => decide (105 ≤ (s.quad q).temp) then some (Config.thermalLimit x.power) else none

/-- The limits of a partition but the module cap, with their codes, in milliwatts (R415); one that is not configured does not apply.
`thermal` is what keeps its junctions below 105 °C, where that limits it. -/
def Part.ownLimits (x : Part) (j : Jid) (thermal : Option Nat) : List (Nat × Nat) :=
  (match x.cap with | some w => [(1, 1000 * w)] | none => []) ++ (match x.hallCap j with | some w => [(3, 1000 * w)] | none => []) ++
    match thermal with | some w => [(4, w)] | none => []

/-- The least of some numbers. -/
def least : List Nat → Option Nat
  | [] => none
  | a :: t => some (t.foldl min a)

/-- The module cap's share of each partition (R415, R420). -/
def State.moduleShares (s : State) : List (Nat × Nat) :=
  match s.jid.modcap with
  | none => []
  | some w =>
    let cs := s.parts.map fun p =>
      let n := s.partDemand p.2
      ({ demand := n, most := (least ((p.2.ownLimits s.jid (s.thermal p.2)).map (·.2))).getD n } : Child)
    (s.parts.map (·.1)).zip ((shareOut (1000 * w) cs.length cs).map (·.got))

/-- The limits of a partition, with their codes: the module cap's share among them where there is one. -/
def State.limitsOf (s : State) (p : Nat) (x : Part) : List (Nat × Nat) :=
  x.ownLimits s.jid (s.thermal x) ++ match s.moduleShares.lookup p with | some w => [(2, w)] | none => []

/-- The lowest code among the limits that hold. -/
def lowestCode (cur : Nat) : Nat := match bitsOf cur 5 with | [] => 0 | b :: _ => b + 1

/-- PCAPCAUSE after a redivision that found some limits to hold the partition back (R419). -/
def Part.held (x : Part) (cur : Nat) : Part :=
  if cur = 0 then { x with cur := 0 } else { x with cur, last := lowestCode cur, epochs := (x.epochs + 1) % 2 ^ 32 }

/-- The limits that hold a partition back, as CUR has them: each whose share is below its demand; the slope while ballast runs (R419, R423). -/
def curOf (limits : List (Nat × Nat)) (demand : Nat) (ballast : Bool) : Nat :=
  (limits.filter fun e => decide (e.2 < demand)).foldl (fun n e => n ||| 2 ^ (e.1 - 1)) (if ballast then 16 else 0)

/-- A core's share becomes its FDUTY and its operating-point request (R420); where its partition's average exceeds its budget, FDUTY is
lowered (R423). A core whose quad an emergency holds keeps what it has (R422). -/
def State.share (s : State) (core share demand : Nat) (late : Bool) : State :=
  if (s.quad (quadOfCore core)).emerg then s
  else s.onCore core fun c =>
    let duty := max 1 (min 16 (Config.shareDuty share demand))
    { c with fduty := if late then max 1 (min duty (c.fduty - 1)) else duty, point := min 7 (Config.sharePoint share demand) }

/-- A quad's target: the highest point that one of its cores requests (R9, R424). -/
def State.aim (s : State) (quad : Nat) : State :=
  if (s.quad quad).emerg then s
  else
    let pts := (List.range 4).map fun i => (s.core (4 * quad + i)).point
    s.onQuad quad fun q => { q with target := pts.foldl min 7 }

/-- A quad's budget goes to its cores. -/
def State.divideQuad (s : State) (late : Bool) (quad budget : Nat) : State :=
  let cores := (List.range 4).map fun i => 4 * quad + i
  let demands := cores.map s.demandOf
  (((cores.zip (budgetShares budget demands)).zip demands).foldl (fun s e => s.share e.1.1 e.1.2 e.2 late) s).aim quad

/-- A partition's budget goes to its dies, a die's to its quarters, a quarter's to its quads, a quad's to its cores (R420). -/
def State.dividePart (s : State) (x : Part) (budget : Nat) (late : Bool) : State :=
  let s0 := s
  let quadDemand (q : Nat) : Nat := sum ((List.range 4).map fun i => s0.demandOf (4 * q + i))
  let quarterDemand (q : Nat) : Nat := sum ((quadsOfQuarter q).map quadDemand)
  let qs := bitsOf x.quarters 16
  let dies := (List.range 4).filter fun i => qs.any fun q => q / 4 == i
  let ofDie (i : Nat) : List Nat := qs.filter fun q => q / 4 == i
  (dies.zip (budgetShares budget (dies.map fun i => sum ((ofDie i).map quarterDemand)))).foldl (fun s die =>
    ((ofDie die.1).zip (budgetShares die.2 ((ofDie die.1).map quarterDemand))).foldl (fun s quarter =>
      ((quadsOfQuarter quarter.1).zip (budgetShares quarter.2 ((quadsOfQuarter quarter.1).map quadDemand))).foldl (fun s quad =>
        s.divideQuad late quad.1 quad.2) s) s) s

/-- The settings of a partition's limits, by code: one that changes is a limit that takes effect (R421). -/
def State.settings (s : State) (x : Part) : List (Nat × Nat) :=
  (match x.cap with | some w => [(1, w)] | none => []) ++ (match s.jid.modcap with | some w => [(2, w)] | none => []) ++
    (match x.hallCap s.jid with | some w => [(3, w)] | none => []) ++ match s.thermal x with | some _ => [(4, 105)] | none => []

/-- The windows of a partition's limits: those that go on, and new ones for limits that take effect. -/
def State.windowsOf (s : State) (x : Part) : Map PowerWindow :=
  (s.settings x).map fun e => (e.1, match x.windows.find? fun w => w.1 == e.1 && w.2.setting == e.2 with
    | some w => w.2
    | none => { setting := e.2 })

/-- One partition's redivision: its budget is the lowest of its limits, and no more than its demand is given out. -/
def State.redivide (s : State) (p : Nat) (x : Part) : State :=
  let demand := s.partDemand x
  let limits := s.limitsOf p x
  let windows := s.windowsOf x
  let budget := least (limits.map (·.2))
  let late := limits.any fun e => decide (e.2 < (windows.get {} e.1).average)
  let s := if x.mode = .out then s else s.dividePart x ((budget.map (min demand)).getD demand) late
  s.onPart p fun x => { x with budget, windows }.held (curOf limits demand x.ballast)

/-- What the demands count begins anew (R420). -/
def State.newInterval (s : State) : State :=
  { s with
    cores := s.cores.mapVals fun _ c => { c with issues := 0 }
    quads := s.quads.mapVals fun _ q => { q with work := 0 } }

/-- An emergency ends (R422). -/
def State.endEmergency (s : State) : State :=
  { (s.onJid fun j => { j with emergency := false }) with
    parts := s.parts.mapVals fun _ x => { x with emerg := false }
    quads := s.quads.mapVals fun _ q => { q with emerg := false } }

/-- R415, R419, R420, R423, R424. An emergency ends at the first redivision whose samples were all within bounds. -/
def execBudgetRedivision (s : State) : Result :=
  let s := if s.jid.outOfBounds then s else s.endEmergency
  let s := s.onJid fun j => { j with outOfBounds := false }
  .next (s.parts.foldl (fun s' p => s'.redivide p.1 p.2) s).newInterval

/-- R424: one point toward the target. -/
def execOperatingPointStep (s : State) : Result :=
  let q := s.arg 0
  s.when_ (s.build.hasQuad q) fun s => s.onQuad q fun x =>
    { x with point := if x.point < x.target then x.point + 1 else if x.target < x.point then x.point - 1 else x.point }

/-! ### Errors and failures (R426 to R428) -/

/-- Words found with an uncorrectable error, as pairs: 0 for physical memory or a quad's number plus 1, and the word's number. -/
def State.poisonWords (s : State) : List Nat → State
  | 0 :: w :: t => ({ s with poison := if s.poison.contains w then s.poison else w :: s.poison } : State).poisonWords t
  | (q + 1) :: w :: t =>
    (s.onQuad q fun x => { x with poison := if x.poison.contains w then x.poison else w :: x.poison }).poisonWords t
  | _ => s

/-- Jidjasol counts an error by its unit, and has the report that names it (R425, R426), while its firmware runs (R413). -/
def Jid.count (j : Jid) (u : ErrorUnit) (corrected : Bool) : Jid :=
  if j.down then j
  else { j with
    counts := if j.counts.any fun e => e.1 == u then j.counts.map fun e => if e.1 = u then (u, e.2 + 1) else e else j.counts ++ [(u, 1)]
    reports := j.reports ++ [{ unit := u, corrected }] }

/-- One error (R425, R426): in a tier, corrected (0) or not (1); a parity error of a transfer over a link (2), which is retried once, and the
second of the same transfer is an uncorrectable error of the link; or the retry that went through (3). `at_` and `w` name the word. -/
def State.findError (s : State) (kind die n at_ w : Nat) : State :=
  let t := ErrorUnit.tier die n
  let l := ErrorUnit.link die n
  match kind with
  | 0 => s.onJid fun j => j.count t true
  | 1 => (s.onJid fun j => j.count t false).poisonWords [at_, w]
  | 2 =>
    if s.jid.retries.contains (l, at_, w) then
      (s.onJid fun j => { j.count l false with retries := j.retries.erase (l, at_, w) }).poisonWords [at_, w]
    else s.onJid fun j => { j.count l true with retries := j.retries ++ [(l, at_, w)] }
  | _ => s.onJid fun j => { j with retries := j.retries.erase (l, at_, w) }

/-- Errors given by five numbers each. -/
def State.findErrors (s : State) : List Nat → State
  | k :: die :: n :: at_ :: w :: t => (s.findError k die n at_ w).findErrors t
  | _ => s

/-- R425 to R427: errors that the scrub, or an access, has met, as `ev` gives them (DESIGN CHOICE, log 13). -/
def execPatrolScrub (s : State) : Result := .next (s.findErrors s.ev)

/-- What Jidjasol reports of the part (R4 to R6, R429): the part code, the quarter map, each stack's enabled pseudo-channels, and the quarters
that have failed since reset. -/
structure Inventory where
  code : Nat
  quarters : Nat
  channels : List Nat
  failed : Nat
deriving DecidableEq, Repr

def State.inventory (s : State) : Inventory :=
  { code := s.build.code, quarters := s.build.quarters, channels := s.build.channels, failed := s.jid.failed }

/-- Core 0 of a quarter's L3 quad (R10). -/
def headCore (quarter : Nat) : Nat := 4 * quadAt (quarter / 4) 3 (quarter / 2 % 2) (quarter % 2)

/-- R428. -/
def execQuarterFailure (s : State) : Result :=
  let q := s.arg 0
  s.jidWhen (decide (q < 16) && s.build.hasQuarter q && !(s.quarter q).failed) fun s =>
    let s := s.onQuarter q fun x => { x with failed := true }
    let s := s.onJid fun j => { j with failed := j.failed ||| 2 ^ q }
    s.report
      { va := 0, val := word s.jid.failed, pasid := 0, kind := 3, reason := 1, access := 0, origin := identOf s.module (8 * headCore q) }

/-! ### Recording and replay (R430, R431) -/

/-- R430: `ev` gives the partition, which is pre-empted, the entries that the log area holds, and the area's first byte and length. Its
format is not the manual's (DESIGN CHOICE, logs 19 and 49). -/
def execRecordModeEnable (s : State) : Result :=
  let p := s.arg 0
  let room := s.arg 1
  match s.part? p with
  | none => .next s
  | some x =>
    s.jidWhen (x.mode == .preempted && !x.stops && !replays s p && s.mayWriteArea (s.arg 2) (s.arg 2 + s.arg 3)) fun s =>
      let start := s.imageOf x.quarters
      let s := s.writeArea (s.arg 2) (s.arg 2 + s.arg 3)
      ({ s with
        recordings := { part := p, code := s.build.code, start, room } :: s.recordings.filter fun r => r.part != p } : State).resumePart p x

/-- A logged launch entry (R430) put in place: a record, a piece of an image, or XBOUND; none while its core or quad cannot take it. -/
def State.injectLaunch (s : State) (e : LogEntry) : Option State :=
  match e.record with
  | some r => if queueHasRoom (s.core e.who).queue.length r.pri then some (s.enqueue e.who r) else none
  | none =>
    if e.bytes.isEmpty then some (s.onQuad e.who fun q => { q with xbound := word e.what })
    else if quadFree s e.who then some (s.lwrite none e.who (imageCells e.what e.bytes))
    else none

/-- The next logged launch entry or host input comes in place of a live one (R431) (DESIGN CHOICE, log 49). -/
def State.inject (s : State) (part : Nat × Part) (r : Recording) : State :=
  match r.todo.find? fun e => e.kind == .launch || e.kind == .host with
  | none => s
  | some e =>
    let t := if e.kind = .launch then s.injectLaunch e
      else if s.mayWrite none (imageCells e.what e.bytes) then some (s.gwriteBytes none (e.what / 2 ^ 37 % 4) none e.what e.bytes)
      else none
    match t with
    | some t => t.noteOrder (some part) e
    | none => s

/-- R431: a replay begins, with the starting image back on the same quarters of a part of the same code; once begun, it brings the next
logged input. -/
def execReplay (s : State) : Result :=
  let p := s.arg 0
  match s.part? p, s.recordingOf p with
  | some x, some r =>
    if r.replaying then .next (s.inject (p, x) r)
    else s.when_ (x.mode == .preempted && !x.stops && r.code == s.build.code) fun s =>
      let again (q : Recording) : Recording := if q.part = p then { q with replaying := true, todo := q.log } else q
      let s := { s.clearQuarters x.quarters with recordings := s.recordings.map again }
      s.switchIn p { x with image := r.start }
  | _, _ => .next s

/-! ### Reset, firmware, identity (R413, R414) -/

/-- R413: `ev` gives 1 where the signature of the command processor's image fails, and then 1 where that of Jidjasol's does. Staged updates
are activated and raise the fused minimum; an image below it does not run. What the part is made of, and its place in the system, stay.
Memory is as after power-on (DESIGN CHOICE, logs 7 and 8; DEDUCED, log 48). -/
def execReset (s : State) : Result :=
  let c := s.cp
  let versions := c.staged.foldl (fun m e => Map.put m e.1 e.2) c.versions
  let fused := c.staged.foldl (fun m e => Map.put m e.1 (max e.2 (c.fused.get 0 e.1))) c.fused
  let fails (i : Nat) : Bool := s.arg (i - 2) == 1 || decide (versions.get 0 i < fused.get 0 i)
  .next { State.reset with
    build := s.build, domain := s.domain, modules := s.modules
    jid := { State.reset.jid with down := fails 3 }
    cp := { State.reset.cp with fwstat := if fails 2 || fails 3 then 2 else 1, fused, versions } }

/-- R413: `ev` gives the image (2 the command processor's, 3 Jidjasol's, as R414 numbers them), its version, and 1 where its signature
verifies. It is staged once it is verified in full. -/
def execFirmwareUpdate (s : State) : Result :=
  let i := s.arg 0
  let v := s.arg 1
  s.when_ ((i == 2 || i == 3) && s.arg 2 == 1 && decide (s.cp.fused.get 0 i ≤ v)) fun s =>
    s.onCp fun c => { c with staged := c.staged.put i v }

/-- The measurements of R414, as SHAKE256 digests: the boot ROM, the two firmware images, IDENT with the pseudo-channel counts, and MODID,
which is measured as it reads after reset until LOCK is set. -/
def State.measurement (s : State) (i : Nat) : List Byte :=
  Config.shake256 (match i with
    | 1 => Config.bootRom
    | 2 => Config.firmware 2 (s.cp.versions.get 0 2)
    | 3 => Config.firmware 3 (s.cp.versions.get 0 3)
    | 4 => bytesOfNat 8 (hostRead s 0 8).toNat ++ (List.range 4).flatMap fun d => bytesOfNat 8 (s.build.hbmch d).toNat
    | _ => bytesOfNat 8 (if bitAt s.cp.modid 31 then s.cp.modid else 0).toNat)

/-- R414: `ev` gives 0 for a negotiation, with 1 where the requester offers SLH-DSA-SHAKE-256s and 1 where it offers SHAKE256; one that offers
neither is answered with an error (DEDUCED, log 47). After one that was accepted, 1 asks for the measurement of an index, 2 for the
certificate chain. While firmware has failed its verification only the recovery path answers (R413). -/
def execSpdmRequest (s : State) : Result :=
  s.when_ (cpRuns s) fun s =>
    match s.arg 0 with
    | 0 => s.onCp fun c => { c with spdm := some (s.arg 1 == 1 || s.arg 2 == 1), spdmData := [] }
    | 1 =>
      if s.cp.spdm = some true && decide (1 ≤ s.arg 1) && decide (s.arg 1 ≤ 5) then s.onCp fun c => { c with spdmData := s.measurement (s.arg 1) }
      else s
    | _ => if s.cp.spdm = some true then s.onCp fun c => { c with spdmData := Config.certificates Config.identityKey } else s

end Sys2Proof.Machine
end

