-- ==== Sys2Proof/Machine/Vector.lean ====
section
/-! DEFINITION. The vector unit (06_vector R134 to R152). -/

namespace Sys2Proof.Machine

/-! ### Operations on one element -/

/-- The rounding of a context: mode and TUF. -/
structure Mode where
  rm : Nat
  tuf : Bool
deriving DecidableEq, Repr

def Ctx.mode (c : Ctx) : Mode := { rm := c.rm, tuf := c.tuf }

/-- An exact result with its conditions, rounded into a register format (R116). -/
def Fmt.finish (f : Fmt) (m : Mode) (r : Val × Nat) : Nat × Nat :=
  let q := f.round false m.rm m.tuf r.1
  (q.1, r.2 ||| q.2)

/-- The floating operations of R138, R139, R141 on codes. -/
def Fmt.opAdd (f : Fmt) (m : Mode) (a b : Nat) : Nat × Nat := f.finish m ((f.value false a).add m.rm (f.value false b))
def Fmt.opSub (f : Fmt) (m : Mode) (a b : Nat) : Nat × Nat := f.finish m ((f.value false a).add m.rm (f.value false b).neg)
def Fmt.opMul (f : Fmt) (m : Mode) (a b : Nat) : Nat × Nat := f.finish m ((f.value false a).mul (f.value false b))
def Fmt.opFma (f : Fmt) (m : Mode) (a b c : Nat) : Nat × Nat :=
  f.finish m ((f.value false a).fma m.rm (f.value false b) (f.value false c))

/-- A quotient or a root: its code, the conditions the operands fix, and those that rounding finds (R137). -/
structure Long where
  code : Nat
  known : Nat
  rounded : Nat
deriving DecidableEq, Repr

def Fmt.finishLong (f : Fmt) (m : Mode) (r : Val × Nat) : Long :=
  let q := f.round false m.rm m.tuf r.1
  { code := q.1, known := r.2, rounded := q.2 }

def Fmt.opDiv (f : Fmt) (m : Mode) (a b : Nat) : Long :=
  f.finishLong m ((f.value false a).div (f.fbits + 2) (f.value false b))
def Fmt.opSqrt (f : Fmt) (m : Mode) (a : Nat) : Long := f.finishLong m ((f.value false a).sqrt (f.fbits + 2))

/-- An operation of a type: the floating one, or the integer one on signed numbers, which wraps (R134). -/
def typed (t : Nat) (fl : Fmt → Nat → Nat → Nat × Nat) (int : Int → Int → Int) (a b : Nat) : Nat × Nat :=
  match fmtOf t with
  | some f => fl f a b
  | none =>
    let n := 8 * elemSize t
    (codeOf (int (sint a n) (sint b n)) n, 0)

/-! ### Instructions of active elements (R135) -/

/-- The lanes of a type after an operation on the active ones: the register, and each active element with its conditions. The other lanes
keep what `old`, vd as it reads at issue, holds: an earlier result of vd that is still outstanding does not reach them (DESIGN CHOICE,
log 68). -/
def onActive (t : Nat) (k : Word) (old : VWord) (f : Nat → Nat × Nat) : VWord × List (Nat × Nat) :=
  let w := elemSize t
  (ofLanes w ((List.range (elemCount t)).map fun i => if active t k i then (f i).1 else lane w old i),
    (activeLanes t k).map fun i => (i, (f i).2))

/-- A vector instruction that computes each active element of vd. -/
def vectorOp (v : BitVec 5) (k : BitVec 3) (t : Nat) (f : Nat → Nat × Nat) (s : State) : Result :=
  let c := s.me
  let r := onActive t (c.getK k) (c.getV v) f
  .next (s.floatOp r.2 fun c => c.setV v r.1)

/-- One with sources va and vb. -/
def vectorBin (op : Nat → Nat → Nat × Nat) (v a b : BitVec 5) (k : BitVec 3) (t : Nat) (s : State) : Result :=
  let w := elemSize t
  let va := s.me.getV a
  let vb := s.me.getV b
  vectorOp v k t (fun i => op (lane w va i) (lane w vb i)) s

/-- One with source va. -/
def vectorUn (op : Nat → Nat × Nat) (v a : BitVec 5) (k : BitVec 3) (t : Nat) (s : State) : Result :=
  let w := elemSize t
  let va := s.me.getV a
  vectorOp v k t (fun i => op (lane w va i)) s

/-- R138. -/
def execVadd (v a b : BitVec 5) (k t : BitVec 3) (s : State) : Result :=
  vectorBin (typed t.toNat (fun f => f.opAdd s.me.mode) (· + ·)) v a b k t.toNat s
/-- R138. -/
def execVsub (v a b : BitVec 5) (k t : BitVec 3) (s : State) : Result :=
  vectorBin (typed t.toNat (fun f => f.opSub s.me.mode) (· - ·)) v a b k t.toNat s
/-- R138. -/
def execVmul (v a b : BitVec 5) (k t : BitVec 3) (s : State) : Result :=
  vectorBin (typed t.toNat (fun f => f.opMul s.me.mode) (· * ·)) v a b k t.toNat s
/-- R138, R139. -/
def execVmin (v a b : BitVec 5) (k t : BitVec 3) (s : State) : Result :=
  vectorBin (typed t.toNat (fun f => f.minMax false) min) v a b k t.toNat s
/-- R138, R139. -/
def execVmax (v a b : BitVec 5) (k t : BitVec 3) (s : State) : Result :=
  vectorBin (typed t.toNat (fun f => f.minMax true) max) v a b k t.toNat s

/-- The sign bit of an element of `n` bits cleared, and inverted (R138). -/
def clearSign (n x : Nat) : Nat := x % 2 ^ (n - 1)
def flipSign (n x : Nat) : Nat := if x.testBit (n - 1) then x - 2 ^ (n - 1) else x + 2 ^ (n - 1)

/-- R138. -/
def execVabs (v a : BitVec 5) (k t : BitVec 3) (s : State) : Result :=
  vectorUn (fun x => typed t.toNat (fun f x _ => (clearSign f.width x, 0)) (fun x _ => x.natAbs) x 0) v a k t.toNat s
/-- R138. -/
def execVneg (v a : BitVec 5) (k t : BitVec 3) (s : State) : Result :=
  vectorUn (fun x => typed t.toNat (fun f x _ => (flipSign f.width x, 0)) (fun x _ => -x) x 0) v a k t.toNat s

/-- R140. -/
def execVexp2 (v a : BitVec 5) (k : BitVec 3) (t : BitVec 2) (s : State) : Result :=
  let m := s.me.mode
  vectorUn (fun x => match fmtOf t.toNat with | some f => f.exp2 m.rm m.tuf x | none => (0, 0)) v a k t.toNat s

/-- R141. -/
def execVfma (v a b : BitVec 5) (k t : BitVec 3) (s : State) : Result :=
  let m := s.me.mode
  let w := elemSize t.toNat
  let vd := s.me.getV v
  let va := s.me.getV a
  let vb := s.me.getV b
  vectorOp v k t.toNat (fun i =>
    let x := lane w va i
    let y := lane w vb i
    let z := lane w vd i
    match fmtOf t.toNat with
    | some f => f.opFma m x y z
    | none => ((x * y + z) % 2 ^ (8 * w), 0)) s

/-- A vector division or square root (R93, R137). -/
def vectorLong (v : BitVec 5) (k : BitVec 3) (t : Nat) (f : Nat → Long) (s : State) : Result :=
  let c := s.me
  let mask := c.getK k
  let r := onActive t mask (c.getV v) fun i => ((f i).code, 0)
  let lanes := activeLanes t mask
  .next (s.floatLong (lanes.map fun i => (i, (f i).known)) (lanes.map fun i => (i, (f i).rounded)) (.v v r.1))

/-- The format of a type field that names floating formats only. -/
def fmtField (t : BitVec 2) : Fmt := (fmtOf t.toNat).getD .f64

/-- R138. -/
def execVdiv (v a b : BitVec 5) (k : BitVec 3) (t : BitVec 2) (s : State) : Result :=
  let m := s.me.mode
  let w := elemSize t.toNat
  let va := s.me.getV a
  let vb := s.me.getV b
  vectorLong v k t.toNat (fun i => (fmtField t).opDiv m (lane w va i) (lane w vb i)) s
/-- R138. -/
def execVsqrt (v a : BitVec 5) (k : BitVec 3) (t : BitVec 2) (s : State) : Result :=
  let m := s.me.mode
  let w := elemSize t.toNat
  let va := s.me.getV a
  vectorLong v k t.toNat (fun i => (fmtField t).opSqrt m (lane w va i)) s

/-! ### Bitwise operations and shifts (R142): the type field counts from 4 -/

/-- An operation on the bits of each active element; it gets the element's width. -/
def vectorBits (op : Nat → Nat → Nat → Nat) (v a b : BitVec 5) (k : BitVec 3) (t : BitVec 2) (s : State) : Result :=
  let ty := 4 + t.toNat
  vectorBin (fun x y => (op (8 * elemSize ty) x y, 0)) v a b k ty s

/-- R142. -/
def execVand (v a b : BitVec 5) (k : BitVec 3) (t : BitVec 2) (s : State) : Result := vectorBits (fun _ x y => x &&& y) v a b k t s
/-- R142. -/
def execVor (v a b : BitVec 5) (k : BitVec 3) (t : BitVec 2) (s : State) : Result := vectorBits (fun _ x y => x ||| y) v a b k t s
/-- R142. -/
def execVxor (v a b : BitVec 5) (k : BitVec 3) (t : BitVec 2) (s : State) : Result := vectorBits (fun _ x y => x ^^^ y) v a b k t s
/-- R142. -/
def execVshl (v a b : BitVec 5) (k : BitVec 3) (t : BitVec 2) (s : State) : Result :=
  vectorBits (fun n x y => x * 2 ^ (y % n) % 2 ^ n) v a b k t s
/-- R142. -/
def execVshr (v a b : BitVec 5) (k : BitVec 3) (t : BitVec 2) (s : State) : Result :=
  vectorBits (fun n x y => codeOf (sint x n / (2 : Int) ^ (y % n)) n) v a b k t s

/-! ### Reductions (R143) -/

/-- A place of the tree: EMPTY, or a value with the lowest active element under it. -/
abbrev Place := Option (Nat × Nat)

/-- One level of the tree, with the conditions of its steps by element. -/
def treeLevel (op : Nat → Nat → Nat × Nat) : List Place → List Place × List (Nat × Nat)
  | x :: y :: rest =>
    let (l, c) := treeLevel op rest
    match x, y with
    | none, y => (y :: l, c)
    | x, none => (x :: l, c)
    | some (u, i), some (v, _) => let r := op u v; (some (r.1, i) :: l, (i, r.2) :: c)
  | l => (l, [])

/-- Tree of R143, of a number of levels: the root and the conditions. -/
def tree (op : Nat → Nat → Nat × Nat) : Nat → List Place → Place × List (Nat × Nat)
  | 0, l => (l.headD none, [])
  | n + 1, l =>
    let r := treeLevel op l
    let q := tree op n r.1
    (q.1, r.2 ++ q.2)

/-- A reduction: `leaf` gives each active element's value and conditions, `empty` the result when no element is active. -/
def reduce (v : BitVec 5) (k : BitVec 3) (t : Nat) (leaf : Nat → Nat × Nat) (op : Nat → Nat → Nat × Nat) (empty : Nat) (s : State) :
    Result :=
  let mask := s.me.getK k
  let n := elemCount t
  let places := (List.range n).map fun i => if active t mask i then some ((leaf i).1, i) else none
  let r := tree op (Nat.log2 n) places
  let root := match r.1 with | some e => e.1 | none => empty
  .next (s.floatOp ((activeLanes t mask).map (fun i => (i, (leaf i).2)) ++ r.2) fun c => c.setV v (ofLanes (elemSize t) [root]))

/-- The sum of two places of a type. -/
def addOp (t : Nat) (m : Mode) : Nat → Nat → Nat × Nat := typed t (fun f => f.opAdd m) (· + ·)

/-- R143. -/
def execVredsum (v a : BitVec 5) (k t : BitVec 3) (s : State) : Result :=
  let va := s.me.getV a
  reduce v k t.toNat (fun i => (lane (elemSize t.toNat) va i, 0)) (addOp t.toNat s.me.mode) 0 s
/-- R143. -/
def execVredmax (v a : BitVec 5) (k t : BitVec 3) (s : State) : Result :=
  let va := s.me.getV a
  let w := elemSize t.toNat
  reduce v k t.toNat (fun i => (lane w va i, 0)) (typed t.toNat (fun f => f.minMax true) max)
    (match fmtOf t.toNat with | some f => f.qnan | none => 2 ^ (8 * w - 1)) s
/-- R143. -/
def execVredmin (v a : BitVec 5) (k t : BitVec 3) (s : State) : Result :=
  let va := s.me.getV a
  let w := elemSize t.toNat
  reduce v k t.toNat (fun i => (lane w va i, 0)) (typed t.toNat (fun f => f.minMax false) min)
    (match fmtOf t.toNat with | some f => f.qnan | none => 2 ^ (8 * w - 1) - 1) s
/-- R143. -/
def execVdot (v a b : BitVec 5) (k t : BitVec 3) (s : State) : Result :=
  let m := s.me.mode
  let w := elemSize t.toNat
  let va := s.me.getV a
  let vb := s.me.getV b
  reduce v k t.toNat (fun i => typed t.toNat (fun f => f.opMul m) (· * ·) (lane w va i) (lane w vb i)) (addOp t.toNat m) 0 s

/-! ### Permutation and selection (R144) -/

/-- R144. -/
def execVperm (v a b : BitVec 5) (k t : BitVec 3) (s : State) : Result :=
  let w := elemSize t.toNat
  let va := s.me.getV a
  let vb := s.me.getV b
  vectorOp v k t.toNat (fun i => (lane w va (lane w vb i % elemCount t.toNat), 0)) s
/-- R144. -/
def execVbcast (v a : BitVec 5) (k t : BitVec 3) (s : State) : Result :=
  let x := (s.me.getX a).toNat
  vectorOp v k t.toNat (fun _ => (x % 2 ^ (8 * elemSize t.toNat), 0)) s
/-- R144. -/
def execVslide (v a b : BitVec 5) (k t : BitVec 3) (s : State) : Result :=
  let w := elemSize t.toNat
  let va := s.me.getV a
  let by_ := (s.me.getX b).toInt
  vectorOp v k t.toNat (fun i =>
    let j : Int := i + by_
    (if 0 ≤ j ∧ j < elemCount t.toNat then lane w va j.toNat else 0, 0)) s
/-- R144. -/
def execVcompress (v a : BitVec 5) (k t : BitVec 3) (s : State) : Result :=
  let w := elemSize t.toNat
  let va := s.me.getV a
  let l := (activeLanes t.toNat (s.me.getK k)).map fun i => lane w va i
  .next (s.step1 fun c => c.setV v (ofLanes w l))
/-- R144. -/
def execVexpand (v a : BitVec 5) (k t : BitVec 3) (s : State) : Result :=
  let w := elemSize t.toNat
  let va := s.me.getV a
  let l := activeLanes t.toNat (s.me.getK k)
  vectorOp v k t.toNat (fun i => (lane w va (l.idxOf i), 0)) s
/-- R144: the k field is a selector, not a write mask. -/
def execVsel (v a b : BitVec 5) (k t : BitVec 3) (s : State) : Result :=
  let w := elemSize t.toNat
  let va := s.me.getV a
  let vb := s.me.getV b
  let m := s.me.getK k
  let l := (List.range (elemCount t.toNat)).map fun i => if active t.toNat m i then lane w va i else lane w vb i
  .next (s.step1 fun c => c.setV v (ofLanes w l))

/-! ### Comparisons (R145) and masks (R146) -/

/-- The comparisons of R145. -/
inductive Cmp where
  | eq | ne | lt | ge | le | gt
deriving DecidableEq, Repr

/-- A comparison of integers. -/
def Cmp.int (c : Cmp) (a b : Int) : Bool :=
  match c with
  | .eq => a == b | .ne => a != b | .lt => decide (a < b) | .ge => decide (b ≤ a) | .le => decide (a ≤ b) | .gt => decide (b < a)

/-- Does the comparison raise invalid for a quiet NaN? -/
def Cmp.ordered : Cmp → Bool
  | .eq => false | .ne => false | _ => true

/-- A comparison of floating codes, with its conditions. -/
def Cmp.float (c : Cmp) (f : Fmt) (a b : Nat) : Bool × Nat :=
  let x := f.value false a
  let y := f.value false b
  if x.isNan || y.isNan then (c == .ne, if c.ordered then cNV else snanCond [x, y])
  else
    (match c with
      | .eq => x.eq y | .ne => !x.eq y | .lt => x.lt y | .ge => !x.lt y | .le => !y.lt x | .gt => y.lt x, 0)

/-- A comparison of a type. -/
def Cmp.typed (c : Cmp) (t a b : Nat) : Bool × Nat :=
  match fmtOf t with
  | some f => c.float f a b
  | none => let n := 8 * elemSize t; (c.int (sint a n) (sint b n), 0)

/-- A word whose bits are those of a list of positions. -/
def bitsAt (l : List Nat) : Word := l.foldl (fun w i => w ||| (1 <<< i)) 0

/-- vcmp.c (R145). -/
def compare (c : Cmp) (d : BitVec 3) (a b : BitVec 5) (k t : BitVec 3) (s : State) : Result :=
  let w := elemSize t.toNat
  let va := s.me.getV a
  let vb := s.me.getV b
  let lanes := activeLanes t.toNat (s.me.getK k)
  let r (i : Nat) : Bool × Nat := c.typed t.toNat (lane w va i) (lane w vb i)
  .next (s.floatOp (lanes.map fun i => (i, (r i).2)) fun c => c.setK d (bitsAt (lanes.filter fun i => (r i).1)))

/-- R145. -/
def execVcmpEq (d : BitVec 3) (a b : BitVec 5) (k t : BitVec 3) (s : State) : Result := compare .eq d a b k t s
/-- R145. -/
def execVcmpNe (d : BitVec 3) (a b : BitVec 5) (k t : BitVec 3) (s : State) : Result := compare .ne d a b k t s
/-- R145. -/
def execVcmpLt (d : BitVec 3) (a b : BitVec 5) (k t : BitVec 3) (s : State) : Result := compare .lt d a b k t s
/-- R145. -/
def execVcmpGe (d : BitVec 3) (a b : BitVec 5) (k t : BitVec 3) (s : State) : Result := compare .ge d a b k t s
/-- R145. -/
def execVcmpLe (d : BitVec 3) (a b : BitVec 5) (k t : BitVec 3) (s : State) : Result := compare .le d a b k t s
/-- R145. -/
def execVcmpGt (d : BitVec 3) (a b : BitVec 5) (k t : BitVec 3) (s : State) : Result := compare .gt d a b k t s

/-- R146. -/
def execKand (d a b : BitVec 3) (s : State) : Result := .next (s.step1 fun c => c.setK d (c.getK a &&& c.getK b))
/-- R146. -/
def execKor (d a b : BitVec 3) (s : State) : Result := .next (s.step1 fun c => c.setK d (c.getK a ||| c.getK b))
/-- R146. -/
def execKnot (d a : BitVec 3) (s : State) : Result := .next (s.step1 fun c => c.setK d (~~~c.getK a))
/-- R146. -/
def execKpop (d : BitVec 5) (a : BitVec 3) (s : State) : Result := .next (s.writesX d (word (popcount (s.me.getK a).toNat 64)))

/-! ### Conversions in registers (R147 to R150) -/

/-- A conversion: the first `n` elements of width `w`, those active under the mask of type `mt` converted, the others kept;
every element beyond is 0. -/
def convertLanes (v : BitVec 5) (k : BitVec 3) (mt w n : Nat) (f : Nat → Nat × Nat) (s : State) : Result :=
  let mask := s.me.getK k
  let old := s.me.getV v
  let idx := List.range n
  .next (s.floatOp ((idx.filter (active mt mask)).map fun i => (i, (f i).2)) fun c =>
    c.setV v (ofLanes w (idx.map fun i => if active mt mask i then (f i).1 else lane w old i)))

/-- R147. -/
def execVcvt (v a b : BitVec 5) (k t : BitVec 3) (s : State) : Result :=
  let c := s.me
  let src := b.toNat
  let dst := t.toNat
  let va := c.getV a
  convertLanes v k dst (elemSize dst) (min (elemCount src) (elemCount dst))
    (fun i => convert src dst c.nxm c.rm c.tuf (lane (elemSize src) va i)) s

/-- R148. -/
def execVcvtFp8 (v a : BitVec 5) (e : BitVec 1) (k : BitVec 3) (t : BitVec 2) (s : State) : Result :=
  let c := s.me
  let src := t.toNat
  let va := c.getV a
  convertLanes v k src 1 (elemCount src) (fun i => convert src (8 + e.toNat) c.nxm c.rm c.tuf (lane (elemSize src) va i)) s

/-- R149. -/
def execVqpack (v a q : BitVec 5) (k : BitVec 3) (t : BitVec 2) (s : State) : Result :=
  let c := s.me
  let src := t.toNat
  let va := c.getV a
  let mask := c.getK k
  let f := fmtField t
  let n := min 32 (elemCount src)
  let xs := (List.range 32).map fun i =>
    if i < n && active src mask i then f.value false (lane (elemSize src) va i) else .zero false
  let r := quantise (mantBits q.toNat) c.nxm xs
  .next (s.floatOp (r.conds.zipIdx.map fun e => (e.2, e.1)) fun c =>
    c.setV v (BitVec.ofNat 1024 (packMants (mantBits q.toNat) r.mants + r.scale * 2 ^ (8 * 127))))

/-- R150. -/
def execVqunpack (v a q : BitVec 5) (k : BitVec 3) (t : BitVec 2) (s : State) : Result :=
  let c := s.me
  let dst := t.toNat
  let n := (c.getV a).toNat
  let e := n / 2 ^ (8 * 127)
  convertLanes v k dst (elemSize dst) (min 32 (elemCount dst))
    (fun i => (fmtField t).round false c.rm c.tuf (dequant c.nxm e (mantAt (mantBits q.toNat) n i))) s

/-! ### Loads and stores (R151, R152) -/

/-- The address of element i of each form. -/
def unitAddr (xa : Word) (t : Nat) (i : Nat) : Word := xa + word (elemSize t * i)
def stridedAddr (xa xb : Word) (i : Nat) : Word := xa + xb * word i
def indexedAddr (xa : Word) (vb : VWord) (t : Nat) (i : Nat) : Word := xa + word (elemSize t * lane (elemSize t) vb i)

/-- The check of one element (R151); a portable task has no local window (R215). -/
def laneFault (s : State) (a : Word) (w : Nat) : Option Denied :=
  if a.toNat % w ≠ 0 then some (.trap cMisaligned a)
  else if !localOk s s.cur a then some (.trap cAccess a)
  else none

/-- The first failure among the elements' addresses; for a load, then the first that carries poison (R427). -/
def lanesFault (s : State) (as_ : List Word) (w : Nat) (load : Bool) : Option Denied :=
  (as_.findSome? fun a => laneFault s a w).or <|
    if !load then none
    else as_.findSome? fun a =>
      if s.poisonSeen s.cur { isLocal := true, addr := a.toNat } w then some (.trap cAccess a) else none

/-- The `w` bytes of an element's address. -/
def laneRefs (a : Word) (w : Nat) : List Ref := ({ isLocal := true, addr := a.toNat } : Ref).span w

/-- A vector load (R151). An inactive lane keeps the value that the destination has at issue, which is read as a source is (R94): an
earlier result still outstanding for it does not reach those lanes (DESIGN CHOICE, log 68). -/
def vectorLoad (v : BitVec 5) (k : BitVec 3) (t : Nat) (addr : Nat → Word) (s : State) : Result :=
  let w := elemSize t
  let lanes := activeLanes t (s.me.getK k)
  let as_ := lanes.map addr
  match lanesFault s as_ w true with
  | some e => .next (s.deny e)
  | none => .next (s.issueLoad (as_.flatMap fun a => laneRefs a w) (.lanes v w lanes (s.me.getV v)) false false)

/-- A vector store (R151): its elements are performed in ascending order, so the cells of the highest stand last (R152). -/
def vectorStore (v : BitVec 5) (k : BitVec 3) (t : Nat) (addr : Nat → Word) (s : State) : Result :=
  let w := elemSize t
  let vd := s.me.getV v
  let lanes := activeLanes t (s.me.getK k)
  match lanesFault s (lanes.map addr) w false with
  | some e => .next (s.deny e)
  | none => .next (s.issueStore (lanes.flatMap fun i => (laneRefs (addr i) w).zip (bytesOfNat w (lane w vd i))) false w)

/-- R151. -/
def execVld (v a : BitVec 5) (k t : BitVec 3) (s : State) : Result := vectorLoad v k t.toNat (unitAddr (s.me.getX a) t.toNat) s
/-- R151. -/
def execVst (v a : BitVec 5) (k t : BitVec 3) (s : State) : Result := vectorStore v k t.toNat (unitAddr (s.me.getX a) t.toNat) s
/-- R151. -/
def execVlds (v a b : BitVec 5) (k t : BitVec 3) (s : State) : Result :=
  vectorLoad v k t.toNat (stridedAddr (s.me.getX a) (s.me.getX b)) s
/-- R151. -/
def execVsts (v a b : BitVec 5) (k t : BitVec 3) (s : State) : Result :=
  vectorStore v k t.toNat (stridedAddr (s.me.getX a) (s.me.getX b)) s
/-- R151. -/
def execVldx (v a b : BitVec 5) (k t : BitVec 3) (s : State) : Result :=
  vectorLoad v k t.toNat (indexedAddr (s.me.getX a) (s.me.getV b) t.toNat) s
/-- R151. -/
def execVstx (v a b : BitVec 5) (k t : BitVec 3) (s : State) : Result :=
  vectorStore v k t.toNat (indexedAddr (s.me.getX a) (s.me.getV b) t.toNat) s

end Sys2Proof.Machine
end

