-- ==== Sys2Proof/Machine/ScalarFp.lean ====
section
/-! DEFINITION. Scalar floating point (06_vector R153 to R157). -/

namespace Sys2Proof.Machine

/-- The code of a format in an x register: higher bits are ignored (R153). -/
def codeIn (f : Fmt) (x : Word) : Nat := x.toNat % 2 ^ f.width

/-- A scalar operation that writes xd, its higher bits zero. -/
def scalarOp (d : BitVec 5) (r : Nat × Nat) (s : State) : Result := .next (s.floatOp [(0, r.2)] fun c => c.setX d (word r.1))

/-- One with two sources. -/
def scalarBin (op : Fmt → Nat → Nat → Nat × Nat) (d a b : BitVec 5) (f : BitVec 2) (s : State) : Result :=
  let m := fmtField f
  scalarOp d (op m (codeIn m (s.me.getX a)) (codeIn m (s.me.getX b))) s

/-- R154. -/
def execFadd (d a b : BitVec 5) (f : BitVec 2) (s : State) : Result := scalarBin (fun g => g.opAdd s.me.mode) d a b f s
/-- R154. -/
def execFsub (d a b : BitVec 5) (f : BitVec 2) (s : State) : Result := scalarBin (fun g => g.opSub s.me.mode) d a b f s
/-- R154. -/
def execFmul (d a b : BitVec 5) (f : BitVec 2) (s : State) : Result := scalarBin (fun g => g.opMul s.me.mode) d a b f s
/-- R154. -/
def execFmin (d a b : BitVec 5) (f : BitVec 2) (s : State) : Result := scalarBin (fun g => g.minMax false) d a b f s
/-- R154. -/
def execFmax (d a b : BitVec 5) (f : BitVec 2) (s : State) : Result := scalarBin (fun g => g.minMax true) d a b f s

/-- A scalar division or square root (R93, R137). -/
def scalarLong (d : BitVec 5) (r : Long) (s : State) : Result :=
  .next (s.floatLong [(0, r.known)] [(0, r.rounded)] (.x d (word r.code)))

/-- R154. -/
def execFdiv (d a b : BitVec 5) (f : BitVec 2) (s : State) : Result :=
  let m := fmtField f
  scalarLong d (m.opDiv s.me.mode (codeIn m (s.me.getX a)) (codeIn m (s.me.getX b))) s
/-- R154. -/
def execFsqrt (d a : BitVec 5) (f : BitVec 2) (s : State) : Result :=
  let m := fmtField f
  scalarLong d (m.opSqrt s.me.mode (codeIn m (s.me.getX a))) s

/-- fcmp.c (R154). -/
def scalarCmp (c : Cmp) (d a b : BitVec 5) (f : BitVec 2) (s : State) : Result :=
  scalarBin (fun g x y => let r := c.float g x y; (if r.1 then 1 else 0, r.2)) d a b f s

/-- R154. -/
def execFcmpEq (d a b : BitVec 5) (f : BitVec 2) (s : State) : Result := scalarCmp .eq d a b f s
/-- R154. -/
def execFcmpLt (d a b : BitVec 5) (f : BitVec 2) (s : State) : Result := scalarCmp .lt d a b f s
/-- R154. -/
def execFcmpLe (d a b : BitVec 5) (f : BitVec 2) (s : State) : Result := scalarCmp .le d a b f s

/-- R155: to another format, or to a signed or unsigned 64-bit integer. -/
def execFcvt (d a b : BitVec 5) (f : BitVec 2) (s : State) : Result :=
  let c := s.me
  let m := fmtField f
  let v := m.value false (codeIn m (c.getX a))
  scalarOp d (match b.toNat with
    | 4 => roundSigned 64 c.rm v
    | 5 => roundUnsigned 64 c.rm v
    | n => ((fmtOf n).getD .f64).round false c.rm c.tuf v) s
/-- R155: from a signed or unsigned 64-bit integer. -/
def execFcvtInt (d a : BitVec 5) (b : BitVec 1) (f : BitVec 2) (s : State) : Result :=
  let c := s.me
  let x := c.getX a
  let i : Int := if b = 0 then x.toInt else x.toNat
  scalarOp d ((fmtField f).round false c.rm c.tuf (Val.ofInt i 0 false)) s

/-- The class of a code, as the position of fclass's bit (R154). -/
def Fmt.classOf (f : Fmt) (code : Nat) : Nat :=
  let subnormal := code / 2 ^ f.fbits % 2 ^ f.ebits == 0
  match f.value false code with
  | .nan sig => if sig then 8 else 9
  | .inf n => if n then 0 else 7
  | .zero n => if n then 3 else 4
  | .fin n _ _ => if n then (if subnormal then 2 else 1) else (if subnormal then 5 else 6)

/-- R154. -/
def execFclass (d a : BitVec 5) (f : BitVec 2) (s : State) : Result :=
  let m := fmtField f
  .next (s.writesX d (1 <<< m.classOf (codeIn m (s.me.getX a))))

/-- R154: a NaN passes unchanged (DEDUCED, log 29). -/
def execFsgnj (d a b : BitVec 5) (f : BitVec 2) (s : State) : Result :=
  let m := fmtField f
  let x := codeIn m (s.me.getX a)
  let y := codeIn m (s.me.getX b)
  .next (s.writesX d (word (if (m.value false x).isNan then x else m.signed (m.signOf y) (clearSign m.width x))))

/-- R156. -/
def execFmvx (d a : BitVec 5) (f : BitVec 2) (s : State) : Result :=
  .next (s.writesX d (word (lane (elemSize f.toNat) (s.me.getV a) 0)))
/-- R156. -/
def execFmvf (d a : BitVec 5) (f : BitVec 2) (s : State) : Result :=
  let n := (fmtField f).width
  .next (s.step1 fun c =>
    let old := c.getV d
    c.setV d (BitVec.ofNat 1024 (old.toNat / 2 ^ n * 2 ^ n + (c.getX a).toNat % 2 ^ n)))

/-- R157. -/
def execFma (d a b c : BitVec 5) (f : BitVec 2) (s : State) : Result :=
  let m := fmtField f
  let x (r : BitVec 5) : Nat := codeIn m (s.me.getX r)
  scalarOp d (m.opFma s.me.mode (x a) (x b) (x c)) s

end Sys2Proof.Machine
end

