-- ==== Sys2Proof/Machine/Sched.lean ====
section
/-! DEFINITION. Starting tasks and handlers, promotion and stealing (09_tasks R202 to R208, R213, R214; R113, R177, R224). -/

namespace Sys2Proof.Machine

/-! ### Tasks (R204, R206) -/

/-- The x registers at a start: x3, and x4 upward. -/
def startRegs (old : Map Word) (x3 : Word) (args : List Word) : Map Word :=
  (List.range 7).foldl (fun (m : Map Word) i => m.put (4 + i) (args.getD i 0)) (old.put 3 x3)

/-- The context of a task that starts from a record (R204, R238, R239, R345). Numbers of accesses and of free choices go on, and
so do the context's counters (R268). No address has been issued before: TVAL of an overlay fetch on the first word is 0 (R102; DESIGN CHOICE,
log 9). -/
def Ctx.start (c : Ctx) (r : Record) (seq : Nat) : Ctx :=
  { regs := { x := startRegs [] r.x3 r.args }, ctl := { nmode := ofBool r.nxm, pasid := r.pasid }, pc := setFld r.entry 0 2 0
    status := .running, nextSeq := c.nextSeq, free := c.free, issued := c.issued, slept := c.slept
    task := { pri := r.pri, portable := r.isPortable, stolen := r.stolen, src := r.src, seq, launch := r.launch } }

/-- Retentions of a quad whose successor's entry a task starts at end (R177). -/
def State.endRetentions (s : State) (quad : Nat) (entry : Word) : State :=
  (List.range 4).foldl (fun s i => s.onCore (4 * quad + i) fun c =>
    match c.retain with
    | some (_, e) => if e = entry then { c with retain := none } else c
    | none => c) s

/-- A record starts in the lowest free task context of a core (R202, R204). -/
def State.startTask (s : State) (core : Nat) (r : Record) : State :=
  match freeTask s core with
  | none => s
  | some i =>
    let n := ((s.core core).starts + 1) % 2 ^ 28
    let s := (s.endRetentions (quadOfCore core) r.entry).onCore core fun c => { c with starts := n }
    s.onCtx (8 * core + i) fun c => c.start r n

/-- Does the part have the core, and may its partition start tasks there? -/
def coreOn (s : State) (core : Nat) : Bool := s.build.hasCore core && coreRuns s core

/-- A drain event (R205): a record has left a core's queue. A launch whose placing has paused on the core notes it (R209). -/
def State.noteDrain (s : State) (core : Nat) : State :=
  let waits (l : Launch) : Bool := l.st == .placing && (LaunchRec.of l.record).targets.contains core
  s.onCp fun c => { c with launches := c.launches.map fun l => if waits l then { l with drained := true } else l }

/-- R206: after the accesses that the context which spawned the task made before (R211). -/
def execTaskStart (s : State) : Result :=
  let core := s.arg 0
  match bestRecord (fun _ => true) (s.core core).queue with
  | none => .next s
  | some r =>
    s.when_ (coreOn s core && (freeTask s core).isSome) fun s => s.pastGates [r.gate] fun s =>
      ((s.onCore core fun c => { c with queue := dropRecord c.queue r }).noteDrain core).startTask core r

/-! ### Handlers (R208, R224, R113) -/

/-- The handler context that begins a message: registers but x3 to x10 persist (R224). The address issued before is that of the handler's
last word, or 0 (R102; DESIGN CHOICE, log 9). -/
def Ctx.begin (c : Ctx) (m : Msg) : Ctx :=
  { c with
    regs := { c.regs with x := startRegs c.regs.x m.header m.payload }, pc := setFld m.entry 0 2 0, status := .running, opens := true
    window := 0, msg := some m, ctl := { c.ctl with pasid := m.pasid } }

/-- R208: a waiting reply before a waiting request. A message of another NXM than the handler's traps at its entry (R113). -/
def execHandlerStart (s : State) : Result :=
  let core := s.arg 0
  let co := s.core core
  let k := handlerOf core
  let next : Option (Msg × Core) := match co.replies, co.requests with
    | m :: t, _ => some (m, { co with replies := t })
    | [], m :: t => some (m, { co with requests := t })
    | [], [] => none
  match next with
  | none => .next s
  | some (m, co) =>
    s.when_ (coreOn s core && (s.ctx k).status == .free) fun s =>
      let s := (s.onCore core fun _ => co).onCtx k fun c => c.begin m
      if m.nxm = (s.ctx k).nxm then s else s.takeTrap k cMismatch 0 (ofBool m.nxm) (s.ctx k).pc

/-! ### Promotion (R207) -/

/-- R207: the record goes to the tail of the level above. -/
def execRecordPromotion (s : State) : Result :=
  let core := s.arg 0
  let i := s.arg 1
  match (s.core core).queue[i]? with
  | none => .next s
  | some r => s.when_ (decide (r.pri < 3)) fun s =>
      s.onCore core fun c => { c with queue := c.queue.eraseIdx i ++ [{ r with pri := r.pri + 1 }] }

/-! ### Stealing (R213, R214) -/

/-- Is a core idle (R213)? -/
def coreIdle (s : State) (core : Nat) : Bool := (freeTask s core).isSome && (s.core core).queue.isEmpty

/-- A record taken from a core's queue, by a test, after the accesses that the context which spawned it made before (R211). -/
def State.takeRecord (s : State) (core : Nat) (ok : Record → Bool) : Option (Record × State) :=
  (bestRecord ok (s.core core).queue).bind fun r =>
    match s.openGate r.gate with
    | (s, true) => some (r, (s.onCore core fun c => { c with queue := dropRecord c.queue r }).noteDrain core)
    | (_, false) => none

/-- The sibling to steal from: the highest occupancy among those that hold a stealable record, ties to the lowest core. -/
def bestSibling (s : State) (core : Nat) : Option Nat :=
  ((List.range 4).map fun i => core / 4 * 4 + i).foldl (fun (best : Option Nat) v =>
    let q := (s.core v).queue
    if v = core || !q.any Record.stealable then best
    else match best with
      | some b => if (s.core b).queue.length < q.length then some v else best
      | none => some v) none

/-- Can a core take a stolen record now: has it a free context, or room for it in its queue (R205)? -/
def takesStolen (s : State) (core : Nat) (r : Record) : Bool := (freeTask s core).isSome || queueHasRoom (s.core core).queue.length r.pri

/-- A stolen record starts on the thief; where no task context is free any more, it stands in the thief's queue (DEDUCED, log 37). -/
def State.giveStolen (s : State) (core : Nat) (r : Record) : State :=
  let r := { r with stolen := true }
  if (freeTask s core).isSome then s.startTask core r else s.enqueue core r

/-- R213. -/
def execStealProbeQuad (s : State) : Result :=
  let core := s.arg 0
  s.when_ (coreOn s core && coreIdle s core) fun s =>
    match bestSibling s core with
    | none => s
    | some v =>
      match s.takeRecord v Record.stealable with
      | none => s
      | some (r, s) => s.giveStolen core r

/-- May a core probe another one (R214): of its layer and quarter, of another quad? -/
def mayProbe (s : State) (core v : Nat) : Bool :=
  let q := quadOfCore core
  let w := quadOfCore v
  s.build.hasCore v && q != w && quadLayer q == quadLayer w && quarterOf q == quarterOf w

/-- R214: the probe leaves; one is in flight at a time, and only while the quad has nothing to steal. -/
def execStealProbeLayer (s : State) : Result :=
  let core := s.arg 0
  let v := s.arg 1
  s.when_ (coreOn s core && coreIdle s core && (bestSibling s core).isNone && (s.core core).probe.isNone && mayProbe s core v) fun s =>
    s.onCore core fun c => { c with probe := some (v, none) }

/-- R214: the probe takes a record that is stealable and portable at its victim, then comes back with it. The thief takes the record while its
partition runs (R396), and it can; until then the probe holds it. -/
def execStealProbeReply (s : State) : Result :=
  let core := s.arg 0
  match (s.core core).probe with
  | none => .next s
  | some (_, some r) =>
    s.when_ (coreOn s core && takesStolen s core r) fun s => (s.onCore core fun c => { c with probe := none }).giveStolen core r
  | some (v, none) =>
    match if coreRuns s v then s.takeRecord v (fun r => r.stealable && r.isPortable) else none with
    | none => .next (s.onCore core fun c => { c with probe := none })
    | some (r, s) => .next (s.onCore core fun c => { c with probe := some (v, some r) })

end Sys2Proof.Machine
end

