-- ==== Sys2Proof/Machine/Waiting.lean ====
section
/-! DEFINITION. Transactions, retry and barriers (12_waiting R292 to R314). -/

namespace Sys2Proof.Machine

/-- A new level of an attempt is opened at the context's pc (R292): xd is 0 in its checkpoint. -/
def Ctx.newLevel (c : Ctx) : Level := { tbpc := c.pc, branchPc := c.pc, ck := c.snap }

/-- The outermost tbegin opens an attempt (R292, R304, R305). -/
def State.openAttempt (s : State) (d : BitVec 5) (irrevocable : Bool) : State :=
  let now := s.now
  (s.freeJacks s.cur).step1 fun c =>
    let c := c.setX d 0
    { c with
      wake := false
      attempt := some
        { levels := [c.newLevel], xd := d, irrevocable
          stamp := match c.series with | some r => r.stamp | none => now } }

/-- An inner tbegin opens one level deeper (R292). -/
def State.openLevel (s : State) (d : BitVec 5) : State :=
  s.step1 fun c =>
    let c := c.setX d 0
    let l := c.newLevel
    c.onAttempt fun a => { a with levels := l :: a.levels }

/-- The eighth attempt of a series takes its quarter's token, or waits for it in the order of asking (R305); a handler
traps where it would sleep (R226) (DEDUCED, log 28). -/
def State.takeToken (s : State) (w : Word32) (d : BitVec 5) : State :=
  let k := s.cur
  let qr := quarterOf s.myQuad
  let q := s.quarter qr
  if q.token = some k then s.openAttempt d true
  else if q.token.isNone && q.waiters.isEmpty then (s.onQuarter qr fun q => { q with token := some k }).openAttempt d true
  else if isHandler k then s.illegal w
  else
    (s.onQuarter qr fun q => { q with waiters := if q.waiters.contains k then q.waiters else q.waiters ++ [k] }).onMe fun c =>
      { c.again with status := .token }

/-- Is the mark of a pre-emption that of the tbegin at the context's pc (R313)? A handler's own tbegin takes no mark of the code that it
has interrupted. -/
def Ctx.marked (c : Ctx) : Option Word :=
  match c.preempted with
  | some m => if m.at_ = c.pc ∧ m.intrap = c.ctl.intrap then some m.status else none
  | none => none

/-- The tbegin of a context whose attempt a pre-emption has aborted (R313): xd takes the status and the context goes on
after the tend, in a new window. -/
def State.preemptedBegin (s : State) (d : BitVec 5) (st : Word) : State :=
  let k := s.cur
  let s := s.onMe fun c => { c.setX d st with preempted := none, prevPc := c.pc }
  match scan s s.myQuad s.me.pc true with
  | .tend addr => s.onMe fun c => (c.afterTend addr).openWindow
  | _ => s.killScan k

/-- R292. -/
def execTbegin (sb : Bool) (d : BitVec 5) (s : State) : Result :=
  match s.me.attempt with
  | some a => if 4 ≤ a.levels.length then .next (s.abortOrTrap 3 0 (Instr.tbegin sb d).word) else .next (s.openLevel d)
  | none =>
    match s.me.marked with
    | some st => .next (s.preemptedBegin d st)
    | none =>
      match s.performAll s.cur with
      | (s, false) => .next (s.onMe Ctx.again)
      | (s, true) =>
        if 7 ≤ (match s.me.series with | some r => r.count | none => 0) then .next (s.takeToken (Instr.tbegin sb d).word d)
        else .next (s.openAttempt d false)

/-- The tend of an inner level (R293). -/
def Attempt.merge (a : Attempt) : Attempt :=
  match a.levels with
  | l :: up :: rest =>
    { a with levels := { up with reads := l.reads ++ up.reads, writes := l.writes ++ up.writes, buf := l.buf ++ up.buf } :: rest }
  | _ => a

/-- The writes of an attempt, oldest first (R302). -/
def Attempt.cells (a : Attempt) : List (Ref × Byte) := ((a.levels.flatMap (·.buf)).map fun w => (w.r, w.b)).reverse

/-- Is every byte that the attempt has written in a word that one of its stores has replaced whole? Other words keep their poison (R427). -/
def Attempt.partWord (a : Attempt) (local_ : Bool) (w : Nat) : Bool :=
  let l := (a.levels.flatMap (·.buf)).filter fun b => b.r.isLocal == local_ && b.r.addr / 8 == w
  !l.isEmpty && !l.any (·.whole)

/-- The commit of the outermost tend (R302): every write at one point, then the attempt is closed. Its turn at each home slice that it has
reached is logged (R430), and waited for in a replay (R431). -/
def State.commit (s : State) (a : Attempt) : State :=
  let k := s.cur
  let turns : List LogEntry := a.homes.map fun h => { kind := .home, who := h, what := k }
  let close (s : State) : State :=
    ((turns.foldl (fun s e => s.noteOrder (s.partOf k) e) s).endAttempt k).step1 fun c => { c with wake := false }
  if !turns.all (s.mayOrder (s.partOf k)) then s.onMe Ctx.again
  else if a.irrevocable then
    match s.performAll k with
    | (s, false) => s.onMe Ctx.again
    | (s, true) => close s
  else if a.cells.isEmpty then close s
  else if !s.mayWriteCells k a.cells then s.onMe Ctx.again
  else close ((s.writeCells k (s.served a.cells)).keepPoison s s.myQuad a.partWord)

/-- R293. -/
def execTend (sb : Bool) (s : State) : Result :=
  match s.me.attempt with
  | none => .next (s.illegal (Instr.tend sb).word)
  | some a => if 1 < a.levels.length then .next (s.step1 fun c => c.onAttempt Attempt.merge) else .next (s.commit a)

/-- R294: the context goes to the level's tend, which its next issue executes. -/
def execOtherwise (sb : Bool) (s : State) : Result :=
  if s.me.attempt.isNone then .next (s.illegal (Instr.otherwise sb).word)
  else
    match scan s s.myQuad s.me.pc true with
    | .tend addr => .next (s.jump (word addr))
    | _ => .next (s.abortOrTrap 10 0 (Instr.otherwise sb).word)

/-- R295. -/
def execRetry (sb : Bool) (s : State) : Result :=
  if s.me.attempt.isNone then .next (s.illegal (Instr.retry sb).word) else .next (s.retryOrTrap (Instr.retry sb).word [])

/-- R296. -/
def execTabort (sb : Bool) (c : BitVec 8) (s : State) : Result :=
  if s.me.attempt.isNone then .next (s.illegal (Instr.tabort sb c).word)
  else .next (s.abortOrTrap 6 c.toNat (Instr.tabort sb c).word)

/-- The word that tstat.x reports (R301). -/
def Ctx.tstatx (c : Ctx) : Word :=
  let confl := match c.series with | some r => r.count | none => 0
  match c.attempt with
  | none => word (confl * 256)
  | some a =>
    word ((if a.unprot then 2 ^ 31 else 0) + a.writeCount * 2 ^ 24 + a.readCount * 2 ^ 16 + confl * 256 +
      (if (match a.levels with | l :: _ => l.alt | [] => false) then 16 else 0) + (if a.irrevocable then 8 else 0) + a.levels.length)

/-- R301. -/
def execTstatX (d : BitVec 5) (s : State) : Result := .next (s.writesX d s.me.tstatx)

/-- The context's own earlier accesses to a dword are performed, and those that order later accesses (R310, R312). -/
def State.afterSame (s : State) (r : Ref) (effect : State → State) : State :=
  s.afterOuts (fun o => o.acq || o.ranges.any fun x => x.1 == r.isLocal && decide (x.2.1 < r.addr + 8) && decide (r.addr < x.2.2)) effect

/-- The value of a counter for a waiting instruction of an attempt, whose line joins the read set. -/
def State.counterView (s : State) (r : Ref) : Word := word (natOfBytes ((r.span 8).map (s.viewByte s.cur true)))

/-- R310. In an attempt an unsatisfied one acts as retry, in a handler context too, so that an alternative can run (R312; DEDUCED, log 28). -/
def execWaitge (sb : Bool) (d a b : BitVec 5) (s : State) : Result :=
  let k := s.cur
  let w := (Instr.waitge sb d a b).word
  let xa := s.me.getX a
  let xb := s.me.getX b
  match checkAtomic s k .load xa 8 with
  | (.no e, s) => .next (s.deny e)
  | (.ok r, s) =>
    if s.me.attempt.isSome then
      match s.track k false [(lineOf s.myQuad r, r)] with
      | (s, .gone) => .next s
      | (s, .ok) => .next (s.afterSame r fun s =>
          let v := s.counterView r
          if reached v xb then s.issueXValue d v else s.retryOrTrap w [])
    else if isHandler k then
      .next (s.afterSame r fun s => let v := s.dwordAt r; if reached v xb then s.issueXValue d v else s.illegal w)
    else .next (s.issueX (.waitge r d xb) d true true false)

/-- R311. -/
def execBarr (sb : Bool) (d a : BitVec 5) (s : State) : Result :=
  let xa := s.me.getX a
  .next (s.unlessAttempt (Instr.barr sb d a).word fun s =>
    match checkAtomic s s.cur .atomic xa 8 with
    | (.no e, s) => s.deny e
    | (.ok r, s) =>
      if s.me.fuzzy = some xa then s.trap cNested xa
      else (s.issueAtomic r .cadd 8 d 1 0 false true xa).onMe fun c => { c with fuzzy := some xa })

/-- R312. In an attempt an unsatisfied one acts as retry, in a handler context too, so that an alternative can run (DEDUCED, log 28). -/
def execBwait (sb : Bool) (a b : BitVec 5) (s : State) : Result :=
  let k := s.cur
  let w := (Instr.bwait sb a b).word
  let xa := s.me.getX a
  let xb := s.me.getX b
  let done (s : State) : State := s.step1 fun c => { c with fuzzy := if c.fuzzy = some xa then none else c.fuzzy }
  match checkAtomic s k .load xa 8 with
  | (.no e, s) => .next (s.deny e)
  | (.ok r, s) =>
    if s.me.attempt.isSome then
      match s.track k false [(lineOf s.myQuad r, r)] with
      | (s, .gone) => .next s
      | (s, .ok) => .next (s.afterSame r fun s => if reached (s.counterView r) xb then done s else s.retryOrTrap w [])
    else
      .next (s.afterSame r fun s =>
        if reached (s.dwordAt r) xb then done s
        else if isHandler k then s.illegal w
        else ((s.freeJacks k).makeJack k (lineOf s.myQuad r) r).sleepOn [])

end Sys2Proof.Machine
end

