-- ==== Sys2Proof/Machine/Dispatch.lean ====
section
/-! DEFINITION. The meaning of every instruction: one arm for each constructor, a direct call of its meaning. -/

namespace Sys2Proof.Machine

/-- The instruction is executed. -/
def exec (i : Instr) (s : State) : Host.Outcome State Fault Refusal :=
  match i with
  | .add _ d a b => Sys2Proof.Machine.execAdd d a b s
  | .sub _ d a b => Sys2Proof.Machine.execSub d a b s
  | .and _ d a b => Sys2Proof.Machine.execAnd d a b s
  | .or _ d a b => Sys2Proof.Machine.execOr d a b s
  | .xor _ d a b => Sys2Proof.Machine.execXor d a b s
  | .andn _ d a b => Sys2Proof.Machine.execAndn d a b s
  | .orn _ d a b => Sys2Proof.Machine.execOrn d a b s
  | .sll _ d a b => Sys2Proof.Machine.execSll d a b s
  | .srl _ d a b => Sys2Proof.Machine.execSrl d a b s
  | .sra _ d a b => Sys2Proof.Machine.execSra d a b s
  | .rotl _ d a b => Sys2Proof.Machine.execRotl d a b s
  | .rotr _ d a b => Sys2Proof.Machine.execRotr d a b s
  | .slt _ d a b => Sys2Proof.Machine.execSlt d a b s
  | .sltz _ d a b => Sys2Proof.Machine.execSltz d a b s
  | .min _ d a b => Sys2Proof.Machine.execMin d a b s
  | .max _ d a b => Sys2Proof.Machine.execMax d a b s
  | .minz _ d a b => Sys2Proof.Machine.execMinz d a b s
  | .maxz _ d a b => Sys2Proof.Machine.execMaxz d a b s
  | .clz _ d a => Sys2Proof.Machine.execClz d a s
  | .ctz _ d a => Sys2Proof.Machine.execCtz d a s
  | .popc _ d a => Sys2Proof.Machine.execPopc d a s
  | .mul _ d a b => Sys2Proof.Machine.execMul d a b s
  | .mulh _ d a b => Sys2Proof.Machine.execMulh d a b s
  | .mulhz _ d a b => Sys2Proof.Machine.execMulhz d a b s
  | .div sb d a b => Sys2Proof.Machine.execDiv sb d a b s
  | .divz sb d a b => Sys2Proof.Machine.execDivz sb d a b s
  | .rem sb d a b => Sys2Proof.Machine.execRem sb d a b s
  | .remz sb d a b => Sys2Proof.Machine.execRemz sb d a b s
  | .addi _ d a imm => Sys2Proof.Machine.execAddi d a imm s
  | .andi _ d a imm => Sys2Proof.Machine.execAndi d a imm s
  | .ori _ d a imm => Sys2Proof.Machine.execOri d a imm s
  | .xori _ d a imm => Sys2Proof.Machine.execXori d a imm s
  | .slti _ d a imm => Sys2Proof.Machine.execSlti d a imm s
  | .slli _ d a n => Sys2Proof.Machine.execSlli d a n s
  | .srli _ d a n => Sys2Proof.Machine.execSrli d a n s
  | .srai _ d a n => Sys2Proof.Machine.execSrai d a n s
  | .lui _ d imm => Sys2Proof.Machine.execLui d imm s
  | .addpc _ d imm => Sys2Proof.Machine.execAddpc d imm s
  | .adds _ d a b n => Sys2Proof.Machine.execAdds d a b n s
  | .sel _ d a b c => Sys2Proof.Machine.execSel d a b c s
  | .ext _ d a l p => Sys2Proof.Machine.execExt d a l p s
  | .ins _ d a l p => Sys2Proof.Machine.execIns d a l p s
  | .bEq _ a b o => Sys2Proof.Machine.execBEq a b o s
  | .bNe _ a b o => Sys2Proof.Machine.execBNe a b o s
  | .bLt _ a b o => Sys2Proof.Machine.execBLt a b o s
  | .bGe _ a b o => Sys2Proof.Machine.execBGe a b o s
  | .bLtz _ a b o => Sys2Proof.Machine.execBLtz a b o s
  | .bGez _ a b o => Sys2Proof.Machine.execBGez a b o s
  | .j _ o => Sys2Proof.Machine.execJ o s
  | .jal _ o => Sys2Proof.Machine.execJal o s
  | .jalr _ d a imm => Sys2Proof.Machine.execJalr d a imm s
  | .loop _ n a imm => Sys2Proof.Machine.execLoop n a imm s
  | .nop _ => Sys2Proof.Machine.execNop s
  | .lbreak _ n => Sys2Proof.Machine.execLbreak n s
  | .ident _ d => Sys2Proof.Machine.execIdent d s
  | .ld _ d a z p => Sys2Proof.Machine.execLd d a z p s
  | .ldAcq _ d a z p => Sys2Proof.Machine.execLdAcq d a z p s
  | .ldnc _ d a z p => Sys2Proof.Machine.execLdnc d a z p s
  | .ldp _ d a p => Sys2Proof.Machine.execLdp d a p s
  | .ldpAcq _ d a p => Sys2Proof.Machine.execLdpAcq d a p s
  | .ldz _ d a z p => Sys2Proof.Machine.execLdz d a z p s
  | .ldzAcq _ d a z p => Sys2Proof.Machine.execLdzAcq d a z p s
  | .ldncZ _ d a z p => Sys2Proof.Machine.execLdncZ d a z p s
  | .st _ d a z p => Sys2Proof.Machine.execSt d a z p s
  | .stRel _ d a z p => Sys2Proof.Machine.execStRel d a z p s
  | .stp _ d a p => Sys2Proof.Machine.execStp d a p s
  | .stpRel _ d a p => Sys2Proof.Machine.execStpRel d a p s
  | .fenceQuad _ => Sys2Proof.Machine.execFenceQuad s
  | .fenceQuarter _ => Sys2Proof.Machine.execFenceQuarter s
  | .fenceDie _ => Sys2Proof.Machine.execFenceDie s
  | .fenceModule _ => Sys2Proof.Machine.execFenceModule s
  | .fenceSystem _ => Sys2Proof.Machine.execFenceSystem s
  | .pref _ a => Sys2Proof.Machine.execPref a s
  | .prefW _ a => Sys2Proof.Machine.execPrefW a s
  | .cln _ a => Sys2Proof.Machine.execCln a s
  | .inv _ a => Sys2Proof.Machine.execInv a s
  | .nhint _ h a => Sys2Proof.Machine.execNhint h a s
  | .tacq sb d a b => Sys2Proof.Machine.execTacq sb d a b s
  | .trdy sb a => Sys2Proof.Machine.execTrdy sb a s
  | .tdrain sb a => Sys2Proof.Machine.execTdrain sb a s
  | .tfree sb a => Sys2Proof.Machine.execTfree sb a s
  | .tstat sb d a => Sys2Proof.Machine.execTstat sb d a s
  | .rset sb a b => Sys2Proof.Machine.execRset sb a b s
  | .rpush sb a b => Sys2Proof.Machine.execRpush sb a b s
  | .rpop sb a => Sys2Proof.Machine.execRpop sb a s
  | .rstat sb d a => Sys2Proof.Machine.execRstat sb d a s
  | .amoAdd _ d a b o w => Sys2Proof.Machine.execAmoAdd d a b o w s
  | .amoAnd _ d a b o w => Sys2Proof.Machine.execAmoAnd d a b o w s
  | .amoOr _ d a b o w => Sys2Proof.Machine.execAmoOr d a b o w s
  | .amoXor _ d a b o w => Sys2Proof.Machine.execAmoXor d a b o w s
  | .amoMin _ d a b o w => Sys2Proof.Machine.execAmoMin d a b o w s
  | .amoMax _ d a b o w => Sys2Proof.Machine.execAmoMax d a b o w s
  | .amoMinz _ d a b o w => Sys2Proof.Machine.execAmoMinz d a b o w s
  | .amoMaxz _ d a b o w => Sys2Proof.Machine.execAmoMaxz d a b o w s
  | .amoSwap _ d a b o w => Sys2Proof.Machine.execAmoSwap d a b o w s
  | .amoFadd _ d a b o w => Sys2Proof.Machine.execAmoFadd d a b o w s
  | .amoCas _ d a b c o w => Sys2Proof.Machine.execAmoCas d a b c o w s
  | .cadd _ d a b => Sys2Proof.Machine.execCadd d a b s
  | .caddRel _ d a b => Sys2Proof.Machine.execCaddRel d a b s
  | .grab _ d a b => Sys2Proof.Machine.execGrab d a b s
  | .disarm sb d a b => Sys2Proof.Machine.execDisarm sb d a b s
  | .arm sb d a b c => Sys2Proof.Machine.execArm sb d a b c s
  | .tbegin sb d => Sys2Proof.Machine.execTbegin sb d s
  | .tend sb => Sys2Proof.Machine.execTend sb s
  | .otherwise sb => Sys2Proof.Machine.execOtherwise sb s
  | .retry sb => Sys2Proof.Machine.execRetry sb s
  | .tstatX _ d => Sys2Proof.Machine.execTstatX d s
  | .tabort sb c => Sys2Proof.Machine.execTabort sb c s
  | .waitge sb d a b => Sys2Proof.Machine.execWaitge sb d a b s
  | .barr sb d a => Sys2Proof.Machine.execBarr sb d a s
  | .bwait sb a b => Sys2Proof.Machine.execBwait sb a b s
  | .amsend sb d a b n => Sys2Proof.Machine.execAmsend sb d a b n s
  | .amreply sb b n => Sys2Proof.Machine.execAmreply sb b n s
  | .spawn sb a => Sys2Proof.Machine.execSpawn sb a s
  | .enq sb d a b => Sys2Proof.Machine.execEnq sb d a b s
  | .deq sb d a => Sys2Proof.Machine.execDeq sb d a s
  | .hostpost sb d a b => Sys2Proof.Machine.execHostpost sb d a b s
  | .taskid _ d => Sys2Proof.Machine.execTaskid d s
  | .yield _ => Sys2Proof.Machine.execYield s
  | .halt sb => Sys2Proof.Machine.execHalt sb s
  | .haltK sb a b => Sys2Proof.Machine.execHaltK sb a b s
  | .tail sb => Sys2Proof.Machine.execTail sb s
  | .ctlrd sb d x => Sys2Proof.Machine.execCtlrd sb d x s
  | .ctlwr sb a x => Sys2Proof.Machine.execCtlwr sb a x s
  | .ctlset sb d a x => Sys2Proof.Machine.execCtlset sb d a x s
  | .ctlclr sb d a x => Sys2Proof.Machine.execCtlclr sb d a x s
  | .cpgoRead sb d n => Sys2Proof.Machine.execCpgoRead sb d n s
  | .eret sb => Sys2Proof.Machine.execEret sb s
  | .ifence sb => Sys2Proof.Machine.execIfence sb s
  | .tlbinv sb a => Sys2Proof.Machine.execTlbinv sb a s
  | .tlbinvAs sb a => Sys2Proof.Machine.execTlbinvAs sb a s
  | .perfrd _ d a => Sys2Proof.Machine.execPerfrd d a s
  | .brk _ => Sys2Proof.Machine.execBrk s
  | .trap _ c => Sys2Proof.Machine.execTrap c s
  | .cprec sb a b => Sys2Proof.Machine.execCprec sb a b s
  | .rcfence sb => Sys2Proof.Machine.execRcfence sb s
  | .gather sb d a b => Sys2Proof.Machine.execGather sb d a b s
  | .scatter sb d a b => Sys2Proof.Machine.execScatter sb d a b s
  | .cpabort sb a => Sys2Proof.Machine.execCpabort sb a s
  | .tlrd sb d a => Sys2Proof.Machine.execTlrd sb d a s
  | .mldb sb a b => Sys2Proof.Machine.execMldb sb a b s
  | .mgang sb d a b => Sys2Proof.Machine.execMgang sb d a b s
  | .mflush sb a => Sys2Proof.Machine.execMflush sb a s
  | .mdrain sb => Sys2Proof.Machine.execMdrain sb s
  | .mstat sb d a => Sys2Proof.Machine.execMstat sb d a s
  | .mkey sb d a => Sys2Proof.Machine.execMkey sb d a s
  | .mms sb d a b c => Sys2Proof.Machine.execMms sb d a b c s
  | .wset sb a b => Sys2Proof.Machine.execWset sb a b s
  | .rstr sb d a b => Sys2Proof.Machine.execRstr sb d a b s
  | .rstrF sb d a b => Sys2Proof.Machine.execRstrF sb d a b s
  | .prlg sb d a b => Sys2Proof.Machine.execPrlg sb d a b s
  | .prlgF sb d a b => Sys2Proof.Machine.execPrlgF sb d a b s
  | .xstat sb d a => Sys2Proof.Machine.execXstat sb d a s
  | .vadd _ v a b k t => Sys2Proof.Machine.execVadd v a b k t s
  | .vsub _ v a b k t => Sys2Proof.Machine.execVsub v a b k t s
  | .vmul _ v a b k t => Sys2Proof.Machine.execVmul v a b k t s
  | .vdiv _ v a b k t => Sys2Proof.Machine.execVdiv v a b k t s
  | .vmin _ v a b k t => Sys2Proof.Machine.execVmin v a b k t s
  | .vmax _ v a b k t => Sys2Proof.Machine.execVmax v a b k t s
  | .vabs _ v a k t => Sys2Proof.Machine.execVabs v a k t s
  | .vneg _ v a k t => Sys2Proof.Machine.execVneg v a k t s
  | .vsqrt _ v a k t => Sys2Proof.Machine.execVsqrt v a k t s
  | .vexp2 _ v a k t => Sys2Proof.Machine.execVexp2 v a k t s
  | .vfma _ v a b k t => Sys2Proof.Machine.execVfma v a b k t s
  | .vredsum _ v a k t => Sys2Proof.Machine.execVredsum v a k t s
  | .vredmax _ v a k t => Sys2Proof.Machine.execVredmax v a k t s
  | .vredmin _ v a k t => Sys2Proof.Machine.execVredmin v a k t s
  | .vdot _ v a b k t => Sys2Proof.Machine.execVdot v a b k t s
  | .vand _ v a b k t => Sys2Proof.Machine.execVand v a b k t s
  | .vor _ v a b k t => Sys2Proof.Machine.execVor v a b k t s
  | .vxor _ v a b k t => Sys2Proof.Machine.execVxor v a b k t s
  | .vshl _ v a b k t => Sys2Proof.Machine.execVshl v a b k t s
  | .vshr _ v a b k t => Sys2Proof.Machine.execVshr v a b k t s
  | .vperm _ v a b k t => Sys2Proof.Machine.execVperm v a b k t s
  | .vbcast _ v a k t => Sys2Proof.Machine.execVbcast v a k t s
  | .vslide _ v a b k t => Sys2Proof.Machine.execVslide v a b k t s
  | .vcompress _ v a k t => Sys2Proof.Machine.execVcompress v a k t s
  | .vexpand _ v a k t => Sys2Proof.Machine.execVexpand v a k t s
  | .vsel _ v a b k t => Sys2Proof.Machine.execVsel v a b k t s
  | .vcmpEq _ d a b k t => Sys2Proof.Machine.execVcmpEq d a b k t s
  | .vcmpNe _ d a b k t => Sys2Proof.Machine.execVcmpNe d a b k t s
  | .vcmpLt _ d a b k t => Sys2Proof.Machine.execVcmpLt d a b k t s
  | .vcmpGe _ d a b k t => Sys2Proof.Machine.execVcmpGe d a b k t s
  | .vcmpLe _ d a b k t => Sys2Proof.Machine.execVcmpLe d a b k t s
  | .vcmpGt _ d a b k t => Sys2Proof.Machine.execVcmpGt d a b k t s
  | .kand _ d a b => Sys2Proof.Machine.execKand d a b s
  | .kor _ d a b => Sys2Proof.Machine.execKor d a b s
  | .knot _ d a => Sys2Proof.Machine.execKnot d a s
  | .kpop _ d a => Sys2Proof.Machine.execKpop d a s
  | .vcvt _ v a b k t => Sys2Proof.Machine.execVcvt v a b k t s
  | .vcvtFp8 _ v a e k t => Sys2Proof.Machine.execVcvtFp8 v a e k t s
  | .vqpack _ v a q k t => Sys2Proof.Machine.execVqpack v a q k t s
  | .vqunpack _ v a q k t => Sys2Proof.Machine.execVqunpack v a q k t s
  | .vld _ v a k t => Sys2Proof.Machine.execVld v a k t s
  | .vst _ v a k t => Sys2Proof.Machine.execVst v a k t s
  | .vlds _ v a b k t => Sys2Proof.Machine.execVlds v a b k t s
  | .vsts _ v a b k t => Sys2Proof.Machine.execVsts v a b k t s
  | .vldx _ v a b k t => Sys2Proof.Machine.execVldx v a b k t s
  | .vstx _ v a b k t => Sys2Proof.Machine.execVstx v a b k t s
  | .fadd _ d a b f => Sys2Proof.Machine.execFadd d a b f s
  | .fsub _ d a b f => Sys2Proof.Machine.execFsub d a b f s
  | .fmul _ d a b f => Sys2Proof.Machine.execFmul d a b f s
  | .fdiv _ d a b f => Sys2Proof.Machine.execFdiv d a b f s
  | .fsqrt _ d a f => Sys2Proof.Machine.execFsqrt d a f s
  | .fmin _ d a b f => Sys2Proof.Machine.execFmin d a b f s
  | .fmax _ d a b f => Sys2Proof.Machine.execFmax d a b f s
  | .fcmpEq _ d a b f => Sys2Proof.Machine.execFcmpEq d a b f s
  | .fcmpLt _ d a b f => Sys2Proof.Machine.execFcmpLt d a b f s
  | .fcmpLe _ d a b f => Sys2Proof.Machine.execFcmpLe d a b f s
  | .fcvt _ d a b f => Sys2Proof.Machine.execFcvt d a b f s
  | .fcvtInt _ d a b f => Sys2Proof.Machine.execFcvtInt d a b f s
  | .fclass _ d a f => Sys2Proof.Machine.execFclass d a f s
  | .fsgnj _ d a b f => Sys2Proof.Machine.execFsgnj d a b f s
  | .fmvx _ d a f => Sys2Proof.Machine.execFmvx d a f s
  | .fmvf _ d a f => Sys2Proof.Machine.execFmvf d a f s
  | .fma _ d a b c f => Sys2Proof.Machine.execFma d a b c f s
  | .illegalInstruction => Sys2Proof.Machine.execIllegalInstruction s
  | .homeAtomicApply => Sys2Proof.Machine.execHomeAtomicApply s
  | .homeArmApply => Sys2Proof.Machine.execHomeArmApply s
  | .homeDisarmApply => Sys2Proof.Machine.execHomeDisarmApply s
  | .homeWrite => Sys2Proof.Machine.execHomeWrite s
  | .triggerMessageSend => Sys2Proof.Machine.execTriggerMessageSend s
  | .triggerMessageStatus => Sys2Proof.Machine.execTriggerMessageStatus s
  | .triggerResend => Sys2Proof.Machine.execTriggerResend s
  | .homeWaitgeEval => Sys2Proof.Machine.execHomeWaitgeEval s
  | .conflictBackoffExpiry => Sys2Proof.Machine.execConflictBackoffExpiry s
  | .tokenGrant => Sys2Proof.Machine.execTokenGrant s
  | .messageArrival => Sys2Proof.Machine.execMessageArrival s
  | .amsendStatusReturn => Sys2Proof.Machine.execAmsendStatusReturn s
  | .replyResend => Sys2Proof.Machine.execReplyResend s
  | .homeQueueApply => Sys2Proof.Machine.execHomeQueueApply s
  | .retirementEntryFree => Sys2Proof.Machine.execRetirementEntryFree s
  | .xboundWrite => Sys2Proof.Machine.execXboundWrite s
  | .tlbaseWrite => Sys2Proof.Machine.execTlbaseWrite s
  | .dispthWrite => Sys2Proof.Machine.execDispthWrite s
  | .mbdepthWrite => Sys2Proof.Machine.execMbdepthWrite s
  | .loopRegisterWrite => Sys2Proof.Machine.execLoopRegisterWrite s
  | .tpcWrite => Sys2Proof.Machine.execTpcWrite s
  | .trapEntry => Sys2Proof.Machine.execTrapEntry s
  | .copyOperationStart => Sys2Proof.Machine.execCopyOperationStart s
  | .gatherSublistService => Sys2Proof.Machine.execGatherSublistService s
  | .copyRetire => Sys2Proof.Machine.execCopyRetire s
  | .bufferGLoad => Sys2Proof.Machine.execBufferGLoad s
  | .holdExpiry => Sys2Proof.Machine.execHoldExpiry s
  | .arraySelect => Sys2Proof.Machine.execArraySelect s
  | .stationaryImageRead => Sys2Proof.Machine.execStationaryImageRead s
  | .memberRetire => Sys2Proof.Machine.execMemberRetire s
  | .transferOperationStart => Sys2Proof.Machine.execTransferOperationStart s
  | .transferRetire => Sys2Proof.Machine.execTransferRetire s
  | .resultArrival => Sys2Proof.Machine.execResultArrival s
  | .contextWake => Sys2Proof.Machine.execContextWake s
  | .taskStart => Sys2Proof.Machine.execTaskStart s
  | .handlerStart => Sys2Proof.Machine.execHandlerStart s
  | .recordPromotion => Sys2Proof.Machine.execRecordPromotion s
  | .stealProbeQuad => Sys2Proof.Machine.execStealProbeQuad s
  | .stealProbeLayer => Sys2Proof.Machine.execStealProbeLayer s
  | .stealProbeReply => Sys2Proof.Machine.execStealProbeReply s
  | .pageWalk => Sys2Proof.Machine.execPageWalk s
  | .blockPromotion => Sys2Proof.Machine.execBlockPromotion s
  | .blockEviction => Sys2Proof.Machine.execBlockEviction s
  | .bankPowerUp => Sys2Proof.Machine.execBankPowerUp s
  | .timerExpiry => Sys2Proof.Machine.execTimerExpiry s
  | .partitionHalted => Sys2Proof.Machine.execPartitionHalted s
  | .preemptReport => Sys2Proof.Machine.execPreemptReport s
  | .hostMemoryAccess => Sys2Proof.Machine.execHostMemoryAccess s
  | .hostSnoop => Sys2Proof.Machine.execHostSnoop s
  | .modidWrite => Sys2Proof.Machine.execModidWrite s
  | .doorbell => Sys2Proof.Machine.execDoorbell s
  | .fqansResume => Sys2Proof.Machine.execFqansResume s
  | .fqansDecline => Sys2Proof.Machine.execFqansDecline s
  | .fqansKill => Sys2Proof.Machine.execFqansKill s
  | .fqctlWrite => Sys2Proof.Machine.execFqctlWrite s
  | .aqctlEnable => Sys2Proof.Machine.execAqctlEnable s
  | .aqctlDisable => Sys2Proof.Machine.execAqctlDisable s
  | .hostRegisterWrite => Sys2Proof.Machine.execHostRegisterWrite s
  | .vectorUnmask => Sys2Proof.Machine.execVectorUnmask s
  | .coalesceTimerExpiry => Sys2Proof.Machine.execCoalesceTimerExpiry s
  | .cpEventDispatch => Sys2Proof.Machine.execCpEventDispatch s
  | .entryFetch => Sys2Proof.Machine.execEntryFetch s
  | .launch => Sys2Proof.Machine.execLaunch s
  | .launchPlacementResume => Sys2Proof.Machine.execLaunchPlacementResume s
  | .launchQuadFree => Sys2Proof.Machine.execLaunchQuadFree s
  | .launchComplete => Sys2Proof.Machine.execLaunchComplete s
  | .marker => Sys2Proof.Machine.execMarker s
  | .form => Sys2Proof.Machine.execForm s
  | .dissolve => Sys2Proof.Machine.execDissolve s
  | .preempt => Sys2Proof.Machine.execPreempt s
  | .resume => Sys2Proof.Machine.execResume s
  | .switchOut => Sys2Proof.Machine.execSwitchOut s
  | .switchIn => Sys2Proof.Machine.execSwitchIn s
  | .setPasid => Sys2Proof.Machine.execSetPasid s
  | .teardown => Sys2Proof.Machine.execTeardown s
  | .teardownComplete => Sys2Proof.Machine.execTeardownComplete s
  | .bindQueue => Sys2Proof.Machine.execBindQueue s
  | .setTimer => Sys2Proof.Machine.execSetTimer s
  | .setRelease => Sys2Proof.Machine.execSetRelease s
  | .join => Sys2Proof.Machine.execJoin s
  | .faultRecordPost => Sys2Proof.Machine.execFaultRecordPost s
  | .railSample => Sys2Proof.Machine.execRailSample s
  | .budgetRedivision => Sys2Proof.Machine.execBudgetRedivision s
  | .operatingPointStep => Sys2Proof.Machine.execOperatingPointStep s
  | .capMessage => Sys2Proof.Machine.execCapMessage s
  | .capLeaseExpiry => Sys2Proof.Machine.execCapLeaseExpiry s
  | .setPartitionCap => Sys2Proof.Machine.execSetPartitionCap s
  | .setModuleCap => Sys2Proof.Machine.execSetModuleCap s
  | .setPartitionRank => Sys2Proof.Machine.execSetPartitionRank s
  | .setSafeCap => Sys2Proof.Machine.execSetSafeCap s
  | .patrolScrub => Sys2Proof.Machine.execPatrolScrub s
  | .quarterFailure => Sys2Proof.Machine.execQuarterFailure s
  | .recordModeEnable => Sys2Proof.Machine.execRecordModeEnable s
  | .replay => Sys2Proof.Machine.execReplay s
  | .reset => Sys2Proof.Machine.execReset s
  | .firmwareUpdate => Sys2Proof.Machine.execFirmwareUpdate s
  | .spdmRequest => Sys2Proof.Machine.execSpdmRequest s
  | .cacheLineEviction => Sys2Proof.Machine.execCacheLineEviction s

end Sys2Proof.Machine
end

