-- ==== Sys2Proof/Machine/Window.lean ====
section
/-! DEFINITION. What an instruction that has issued leaves behind it: the round-robin pointer of its core, and its position in the window
of its context (R208, R251 to R253). -/

namespace Sys2Proof.Machine

/-- Does a write form write a register of wider than context scope (R249)? -/
def wideWrite (x : BitVec 12) : Bool := match ctlReg x.toNat with | some r => r.wide | none => false

/-- Is the instruction a side effect, which a replay skips once it is accepted (R249, R252)? mdrain is none: it is a wait, and issues again
(R365). -/
def isEffect (i : Instr) : Bool :=
  match i with
  | .st .. => true | .stRel .. => true | .stp .. => true | .stpRel .. => true | .vst .. => true | .vsts .. => true | .vstx .. => true
  | .amoAdd .. => true | .amoAnd .. => true | .amoOr .. => true | .amoXor .. => true | .amoMin .. => true | .amoMax .. => true
  | .amoMinz .. => true | .amoMaxz .. => true | .amoSwap .. => true | .amoFadd .. => true | .amoCas .. => true
  | .cadd .. => true | .caddRel .. => true | .grab .. => true | .arm .. => true | .disarm .. => true | .barr .. => true | .bwait .. => true
  | .amsend .. => true | .amreply .. => true | .spawn .. => true | .enq .. => true | .deq .. => true | .hostpost .. => true
  | .tacq .. => true | .trdy .. => true | .tdrain .. => true | .tfree .. => true | .rset .. => true | .rpush .. => true | .rpop .. => true
  | .cln .. => true | .inv .. => true | .nhint .. => true | .tlbinv .. => true | .tlbinvAs .. => true | .yield .. => true
  | .ctlwr _ _ x => wideWrite x | .ctlset _ _ _ x => wideWrite x | .ctlclr _ _ _ x => wideWrite x
  | .cpgoRead .. => true | .cprec .. => true | .rcfence .. => true | .gather .. => true | .scatter .. => true | .cpabort .. => true
  | .mldb .. => true | .mgang .. => true | .mflush .. => true | .mms .. => true | .wset .. => true
  | .rstr .. => true | .rstrF .. => true | .prlg .. => true | .prlgF .. => true
  | _ => false

/-- The register that such an instruction writes at issue. -/
def writtenAtIssue (i : Instr) : Option (BitVec 5) :=
  match i with
  | .tacq _ d _ _ => some d
  | .ctlset _ d _ _ => some d
  | .ctlclr _ d _ _ => some d
  | _ => none

/-- The value that an instruction has just written to a register, whether or not it shows yet (R73). -/
def Ctx.lastWritten (c : Ctx) (d : BitVec 5) : RegWrite :=
  ((c.later.find? fun l => l.w.dst == .x d).map (·.w)).getD (.x d (c.getX d))

/-- The position of an instruction that has issued; `pre` is its context as it was counted, `c` as it is now. -/
def positionOf (pre c : Ctx) (i : Instr) : Pos :=
  { pc := pre.pc, seq := pre.nextSeq, n := c.nextSeq - pre.nextSeq, settles := isSettle i.word i, done := isEffect i
    writes := if isEffect i then (writtenAtIssue i).toList.map c.lastWritten else [] }

/-- The levels of a context's attempt, as a replay cannot pass a change of them. -/
def Ctx.levelMarks (c : Ctx) : List (Word × Word) :=
  match c.attempt with | some a => a.levels.map fun l => (l.tbpc, l.branchPc) | none => []

/-- The context of an instruction that has issued: its position joins the window (R251), unless a new window opens or an attempt has opened,
closed or gone back; in a replay it is a position passed, whose results are held back (R252). -/
def Ctx.joined (pre : Ctx) (i : Instr) (c : Ctx) : Ctx :=
  if c.status = .free ∨ c.status = .ending then c
  else if c.opens || c.levelMarks != pre.levelMarks then { c with trail := [], buffer := [] }
  else
    let c := pre.pass (positionOf pre c i) c
    match pre.strip with
    | some _ =>
      let hold (o : Out) : Out := if pre.nextSeq ≤ o.seq then { o with held := true } else o
      ({ c with outs := c.outs.map hold } : Ctx).onStrip Strip.next
    | none => c

/-- May a step take a cause of the context whose turn it is at its pc: an instruction, TRAP_ENTRY or an illegal word? -/
def mayTakeCause (i : Instr) : Bool :=
  (encode i).isSome || match i with | .trapEntry => true | .illegalInstruction => true | _ => false

/-- A context in a replay whose step has not issued: a cause has been taken at the position, or the context is suspended there (R253). -/
def Ctx.stopped (pre c : Ctx) : Ctx :=
  if c.opens && c.pc != pre.pc then c.cut pre.pc
  else if c.status = .suspended then { c.onStrip fun t => { t with stop := t.pos } with ctl := { c.ctl with rpl := true } }
  else c

/-- Has the instruction that a step executed issued? -/
def issuedBy (pre : State) (i : Instr) (t : State) : Bool := (encode i).isSome && t.me.issued == pre.me.issued

/-- What a step adds to the meaning of an instruction, from the state that it was executed on. -/
def State.after (pre : State) (i : Instr) (t : State) : State :=
  if issuedBy pre i t then (t.onMe (Ctx.joined pre.me i)).pastIssue t.cur
  else if pre.me.strip.isSome && mayTakeCause i then t.onMe (Ctx.stopped pre.me)
  else t

end Sys2Proof.Machine
end

