-- ==== Sys2Proof/Machine/Select.lean ====
section
/-! DEFINITION. Which step comes next: the agenda, the turns of cores, and the steps that units of the module take of their own
accord (R206 to R208, R213, R214, R402). -/

namespace Sys2Proof.Machine

/-- Does executing an instruction leave its context where it stood, as one that has not issued yet (R208)? -/
def standsStill (s : State) (i : Instr) : Bool :=
  match exec i s with
  | .next t => (encode i).isSome && !issuedBy s i t && t.me.status == .running && t.me.pc == s.me.pc && t.me.ctl == s.me.ctl
  | _ => false

/-- The turn of the next context of a core that is ready: it runs, is not halted, and does not wait for results or for room (R208). Where
none is, the one that waits for room. -/
def nextReady (s : State) (core : Nat) : Option Pick :=
  let picks := (roundRobin s core).filterMap fun k =>
    if (s.ctx k).status != .running || (s.ctx k).halted then none
    else match turn { s with cur := k } with
      | .wait _ => none
      | p => some p
  (picks.find? fun p => match p with | .run i t => !standsStill t i | _ => true).or picks.head?

/-- What a core does of its own accord (R206, R208): a handler starts, a task starts, a context issues. -/
def coreTurn (s : State) (core : Nat) : Option Pick :=
  let co := s.core core
  if coreRuns s core && (s.ctx (handlerOf core)).status == .free && !(co.replies.isEmpty && co.requests.isEmpty) then
    some (.run .handlerStart { s with ev := [core] })
  else if coreRuns s core && (freeTask s core).isSome && startable co.queue then some (.run .taskStart { s with ev := [core] })
  else nextReady s core
where
  /-- Is there a record, and has what it waits for been performed, or can it be now (R211)? -/
  startable (q : List Record) : Bool := match bestRecord (fun _ => true) q with | some r => (s.openGate r.gate).2 | none => false

/-- A step without an encoding, with its arguments. -/
abbrev Ev := Instr × List Nat

/-- The next step of the fabric: a message is decided, or a status reaches its sender. -/
def netEvent (s : State) : Option Ev :=
  let arrival : Option Ev := ((List.range s.net.length).find? (arrivalReady s)).map fun i => (.messageArrival, [i])
  let back : Option Ev := s.net.findSome? fun m => match m.sender with
    | some (k, seq) =>
      if (m.answer.isSome || !m.here s) && (match (s.ctx k).out seq with
        | some o => (s.ctx k).mayPerform o
        | none => m.answer.isSome) then some (.amsendStatusReturn, [k, seq]) else none
    | none => none
  back.or arrival

/-- The next step of a home slice with fired triggers (R212, R285). -/
def firedEvent (s : State) (e : Nat × Slice) : Option Ev :=
  let sl := e.2
  let status : Option Ev := ((List.range sl.fired.length).find? fun i => match sl.fired[i]? with
    | some f => s.net.any fun m => f.msg.isMsg m && (m.answer.isSome || !m.here s)
    | none => false).map fun i => (.triggerMessageStatus, [e.1, i])
  let again : Option Ev := ((List.range sl.fired.length).find? fun i => match sl.fired[i]? with
    | some f => f.refused
    | none => false).map fun i => (.triggerResend, [e.1, i])
  status.or (((nextFired [] sl.fired).map fun _ => (.triggerMessageSend, [e.1])).or again)

/-- The step that performs an outstanding operation at its home, or brings its result (R94, R186, R231, R271, R283, R288, R310). -/
def Out.step (o : Out) : Option Instr :=
  if !o.pending then some .resultArrival
  else match o.op with
    | .value => none
    | .load _ _ _ => some .resultArrival
    | .store _ => some .homeWrite
    | .amo _ _ _ _ _ _ _ _ => some .homeAtomicApply
    | .waitge _ _ _ => some .homeWaitgeEval
    | .arm _ _ _ => some .homeArmApply
    | .disarm _ _ _ => some .homeDisarmApply
    | .enq _ _ _ _ _ _ => some .homeQueueApply
    | .deq _ _ _ _ => some .homeQueueApply
    | .send _ => none
    | .reply _ => some .resultArrival
    | .fence _ => some .resultArrival
    | .start _ => some .resultArrival

/-- The next step of a context's outstanding operations: the first that can be performed, or whose result can be written. -/
def accessEvent (s : State) (e : Nat × Ctx) : Option Ev :=
  e.2.outs.findSome? fun o =>
    if (e.2.halted && o.pure) || (o.held && !o.pending) then none
    else if o.pending && !(e.2.mayPerform o && (s.perform e.1 o).2) then none
    else o.step.map fun i => (i, [e.1, o.seq])

/-- The cores of a quad's layer in its quarter (R214). -/
def layerCores (quad : Nat) : List Nat :=
  ((quadsOfQuarter (quarterOf quad)).filter fun q => quadLayer q == quadLayer quad).flatMap fun q => (List.range 4).map fun i => 4 * q + i

/-- The next step of stealing (R213, R214; DESIGN CHOICE, log 1): a probe of the core goes on, or a record that waits at the core while
all its contexts are taken is stolen by an idle sibling, or called for by a probe of an idle core of the layer. -/
def stealEvent (s : State) (e : Nat × Core) : Option Ev :=
  let v := e.1
  let idle (core : Nat) : Bool := coreOn s core && coreIdle s core
  if e.2.probe.isSome then some (.stealProbeReply, [v])
  else if (freeTask s v).isSome || !e.2.queue.any Record.stealable then none
  else
    let sibling : Option Ev := (((List.range 4).map fun i => quadOfCore v * 4 + i).find? fun core => core != v && idle core).map
      fun core => (.stealProbeQuad, [core])
    if !e.2.queue.any (fun r => r.stealable && r.isPortable) then sibling
    else sibling.or (((layerCores (quadOfCore v)).find? fun core =>
      mayProbe s core v && idle core && (bestSibling s core).isNone && (s.core core).probe.isNone).map
        fun core => (.stealProbeLayer, [core, v]))

/-- The next step of a core's interfaces: its tracker (R217), a refused reply (R229). -/
def coreEvent (s : State) (e : Nat × Core) : Option Ev :=
  if !e.2.tracker.isEmpty then some (.retirementEntryFree, [e.1, 0])
  else ((List.range e.2.sending.length).find? fun i => match e.2.sending[i]? with
    | some m => !s.net.contains m
    | none => false).map fun i => (.replyResend, [e.1, i])

/-- The next step of a quad's copy and transfer engines. -/
def quadEvent (e : Nat × Quad) : Option Ev :=
  let copy : Option Ev := e.2.copy.findSome? fun x => match x.2.queue with
    | [] => none
    | o :: _ => some (if o.finished then (.copyRetire, [e.1, x.1]) else (.copyOperationStart, [e.1, x.1, 1]))
  let transfer : Option Ev := match e.2.tq with
    | [] => none
    | o :: _ => some (if o.finished then (.transferRetire, [e.1]) else (.transferOperationStart, [e.1, 1]))
  copy.or transfer

/-- May the array of a gang take an operation now: is there a candidate, after the accesses that its issuers made before it (R358, R366)? -/
def selectable (s : State) (gang : Nat) : Bool := (s.candidatesNow gang).any fun c => (s.openGates ((s.gang gang).gatesOf c.inst)).2

/-- The next step of a gang: a load of buffer G, a member that can retire, or the array. -/
def gangEvent (s : State) (e : Nat × Gang) : Option Ev :=
  if s.loadReady e.1 then some (.bufferGLoad, [e.1])
  else match s.retirable e.1 with
    | some (n, j) => some (.memberRetire, [e.1, n, j])
    | none => if selectable s e.1 then some (.arraySelect, [e.1]) else none

/-- A time that has passed: a hold ends (R354), gathered events are signalled (R412). These come when nothing else is to do, and
at some times whatever else there is (DESIGN CHOICE, logs 1 and 6). -/
def timeEvent (s : State) : Option Ev :=
  (s.gangs.findSome? fun e => (e.2.insts.find? fun i => i.2.st == .isOpen).map fun i => (Instr.holdExpiry, [e.1, i.1])).or
    (s.cp.vectors.findSome? fun e => if 0 < e.2.gathered then some (Instr.coalesceTimerExpiry, [e.1]) else none)

/-- A record has waited long at a core (R207). -/
def promotionEvent (s : State) : Option Ev :=
  s.cores.findSome? fun e =>
    ((List.range e.2.queue.length).find? fun i => match e.2.queue[i]? with
      | some r => decide (r.pri < 3)
      | none => false).map fun i => (.recordPromotion, [e.1, i])

/-! ### The command processor (R209, R250, R263, R396, R397, R402, R407, R410, R411) -/

/-- The last context of a partition that stops has halted; an address space is torn down. -/
def partEvent (s : State) : Option Ev :=
  s.parts.findSome? fun p =>
    if p.2.mode = .stopping then some (.partitionHalted, [p.1])
    else (p.2.pasids.find? fun e => e.2.tearing).map fun e => (.teardownComplete, [e.1])

/-- What the firmware cores process, the one of some number first. -/
def firmwareStep (s : State) : Option Pick :=
  let n := s.cp.cores.length
  if n = 0 || !cpRuns s then none
  else
    let i := s.now / 2 % n
    (s.cp.cores[i]?).map fun e => .run e.1 { s.onCp fun c => { c with cores := c.cores.eraseIdx i } with ev := e.2 }

/-- An event goes to an idle firmware core; stores that had to wait go on. -/
def firmwareEvent (s : State) : Option Ev :=
  if cpRuns s && (!s.cp.events.isEmpty && decide (s.cp.cores.length < 12) || !s.cp.stores.isEmpty) then some (.cpEventDispatch, []) else none

/-- May a launch write images or place a record now? -/
def launchMoves (s : State) (l : Launch) : Bool :=
  let r := LaunchRec.of l.record
  launchAlive s l &&
    if l.st == .images then l.todo.any fun quad => quadFree s quad || imagesNeeded s r quad == (false, false) else l.drained

/-- The next step of a launch that has begun. -/
def launchEvent (s : State) : Option Ev :=
  s.cp.launches.zipIdx.findSome? fun l => match l.1.st with
    | .images => if launchMoves s l.1 then some (.launchQuadFree, [l.2]) else none
    | .placing => if launchMoves s l.1 then some (.launchPlacementResume, [l.2]) else none
    | .running => if launchOver s l.2 l.1 then some (.launchComplete, [l.2]) else none
    | .done => none

/-- May the entry at the head of a queue start: not a launch to a partition that does not run (R408), or that is in a replay (R431)? -/
def mayStart (s : State) (q : Nat) (bs : List Byte) : Bool :=
  q == 0 || entryOpcode bs != 1 || match s.partOfPasid (s.queue q).pasid with
    | some (p, x) => x.mode == .running && !replays s p
    | none => true

/-- The next step of a submission queue: its first entry starts, or the next one is fetched. -/
def queueEvent (s : State) : Option Ev :=
  s.cp.queues.findSome? fun q =>
    if queueParked s q.1 then none
    else match s.headEntry q.1 with
    | some (_, bs) => if mayStart s q.1 bs then some (opcodeStep q.1 (entryOpcode bs), [q.1]) else none
    | none =>
      if q.2.bound && !q.2.dead && !q.2.stopping && q.2.entries.isEmpty && decide (q.2.fetched < q.2.rung) then some (.entryFetch, [q.1])
      else none

/-- A fault record is to be posted. -/
def postEvent (s : State) : Option Ev := if s.cp.waiting.isEmpty || !fqOpen s.cp then none else some (.faultRecordPost, [])

/-- A report of a partition that has stopped is to be made. -/
def reportEvent (s : State) : Option Ev :=
  s.parts.findSome? fun p => if p.2.mode = .preempted && p.2.report.isSome then some (.preemptReport, [p.1]) else none

/-- Something happens that the event queue is still to be told (R402): each event enters it once, and is handed out by CP_EVENT_DISPATCH. -/
def newEvent (s : State) : Option Pick :=
  let known (e : Ev) : Bool := s.cp.events.contains e || s.cp.cores.contains e
  ([launchEvent s, queueEvent s, postEvent s, reportEvent s].findSome? fun e => e.filter fun e => !known e).map fun e =>
    .idle (s.raise e.1 e.2)

/-! ### Which comes next -/

/-- One of several units comes first, by a number, and the others after it in turn. -/
def rotate (n : Nat) (l : List (State → Option Pick)) (s : State) : Option Pick :=
  let m := n % l.length
  (l.drop m ++ l.take m).findSome? fun f => f s

/-- A step without an encoding that a unit of the module takes of its own accord. Every kind of unit comes first at some times. -/
def ownEvent (s : State) : Option Pick :=
  rotate (s.now / 2) ([firmwareStep, newEvent] ++ ([fun s => (woken s).map fun k => (.contextWake, [k]),
     netEvent,
     fun s => (s.ctxs.find? fun e => e.2.status == .backoff).map fun e => (.conflictBackoffExpiry, [e.1]),
     fun s => (s.quarters.find? fun e => e.2.token.isNone && !e.2.waiters.isEmpty).map fun e => (.tokenGrant, [e.1]),
     fun s => s.quads.findSome? quadEvent,
     fun s => s.gangs.findSome? (gangEvent s),
     fun s => s.slices.findSome? (firedEvent s),
     fun s => s.cores.findSome? (coreEvent s),
     fun s => s.ctxs.findSome? (accessEvent s),
     fun s => s.cores.findSome? (stealEvent s),
     partEvent, firmwareEvent] : List (State → Option Ev)).map fun f s => (f s).map fun e => .run e.1 { s with ev := e.2 }) s

/-- Another core that has something to do: the next one after the current, or the first. -/
def otherCore (s : State) : Option Nat :=
  let here := coreOf s.cur
  let cores := ((s.ctxs.map fun e => coreOf e.1) ++ s.cores.map (·.1)).filter fun core => core != here && (coreTurn s core).isSome
  (cores.find? fun core => decide (here < core)).or cores.head?

/-- The current core's own step, a unit's, the move to another core, and what time brings. -/
def mineFirst (s : State) : Option Pick := coreTurn s (coreOf s.cur)
def unitFirst (s : State) : Option Pick := ownEvent s
def otherFirst (s : State) : Option Pick := (otherCore s).map fun core => .idle { s with cur := 8 * core }
def timeFirst (s : State) : Option Pick :=
  ((if s.now % 2 ^ 16 = 2 ^ 16 - 1 then promotionEvent s else none).or (timeEvent s)).map fun e => .run e.1 { s with ev := e.2 }

/-- The step that comes next (DESIGN CHOICE, log 1): what the agenda says; else the current core's own, a unit's, the move to another
core, or what time brings. Each comes first at some times, so that none waits for ever. -/
def select (s : State) : Pick :=
  match s.agenda with
  | .turn k :: rest =>
    if s.build.hasCore (coreOf k) then turn { s with agenda := rest, cur := k } else .stop .absentCore
  | .event i args :: rest =>
    let s := { s with agenda := rest, ev := args }
    if (encode i).isNone then .run i s else .idle s
  | [] =>
    let p :=
      if s.now % 2 ^ 12 = 2 ^ 12 - 1 then (timeFirst s).or ((otherFirst s).or ((mineFirst s).or (unitFirst s)))
      else if s.now % 8 = 7 then (otherFirst s).or ((mineFirst s).or ((unitFirst s).or (timeFirst s)))
      else if s.now % 2 = 1 then (unitFirst s).or ((mineFirst s).or ((otherFirst s).or (timeFirst s)))
      else (mineFirst s).or ((unitFirst s).or ((otherFirst s).or (timeFirst s)))
    p.getD (.idle s)

end Sys2Proof.Machine
end

