-- ==== Sys2Proof/Machine/Step.lean ====
section
/-! DEFINITION. One step of the machine, and the placing of one instruction where the next step fetches. -/

namespace Sys2Proof.Machine

/-- One step (DESIGN CHOICE, log 1): what `select` picks is executed, its context's window and its core's pointer follow, and the time base
goes on by one (DESIGN CHOICE, log 6). -/
def step (s : State) : Host.Outcome State Fault Refusal :=
  match select s with
  | .run i t =>
    match exec i { t with now := t.now + 1 } with
    | .next u => .next (State.after { t with now := t.now + 1 } i u)
    | o => o
  | .wait t => .next { t with now := t.now + 1 }
  | .idle t => .next { t with now := t.now + 1 }
  | .stop f => .fault f

/-- The context ready to issue at its pc: it runs, is not halted, has nothing outstanding or pending and opens a window. -/
def Ctx.ready (c : Ctx) : Ctx :=
  { c with
    status := .running, halted := false, replay := none, ibuf := [], outs := [], later := [], trail := [], buffer := [], deferred := none, carry := none
    power := none, timers := 0, declined := none, resubs := [], asked := none, window := 0, opens := true }

/-- A quad whose local memory holds a word at an address, with the address below XBOUND (R102) and its word not poisoned. -/
def Quad.withWord (q : Quad) (a : Nat) (w : Word32) : Quad :=
  { q with
    mem := q.mem.write a (wordBytes w)
    xbound := if q.xbound.toNat ≤ a then word (a + 4) else q.xbound
    poison := q.poison.filter (· != a / 8) }

/-- The state with one instruction placed at the pc of the context whose turn it is, and its turn next. It stands for the load
of a program by a launch (DEDUCED, log 20). -/
def State.withFetchWord (s : State) (nbits w : Nat) : State :=
  let a := s.me.pc.toNat
  { (s.onMe Ctx.ready).onQuad s.myQuad (fun q => q.withWord a (BitVec.ofNat 32 (w % 2 ^ nbits))) with agenda := [.turn s.cur] }

end Sys2Proof.Machine
end

