-- ==== Sys2Proof/Safety.lean ====
section
/-! DEFINITION. What counts as a safe state and a safe run, and the terms in which statements say what an instruction writes and
what it leaves alone, what a number rounds to, and what the rows of a matrix operation come to. -/

namespace Sys2Proof.Machine

/-- A run of `n` steps that neither faults nor is refused. -/
def runs : Nat → State → Option State
  | 0, s => some s
  | n + 1, s =>
    match step s with
    | .next t => runs n t
    | _ => none

/-- Every memory of the state is in its canonical form: physical memory, each quad's, and those that a saved image or a recording
holds. -/
def State.canonical (s : State) : Prop :=
  s.mem.wf = true ∧ (∀ e ∈ s.quads, e.2.mem.wf = true) ∧ (∀ p ∈ s.parts, ∀ e ∈ p.2.image.quads, e.2.mem.wf = true) ∧
  ∀ r ∈ s.recordings, ∀ e ∈ r.start.quads, e.2.mem.wf = true

/-- No context has an attempt open, nor has one of a partition that is switched out. -/
def noAttempts (s : State) : Prop :=
  (∀ e ∈ s.ctxs, e.2.attempt = none) ∧ ∀ p ∈ s.parts, ∀ e ∈ p.2.image.ctxs, e.2.attempt = none

/-- What the command processor has to store is stored at once: nothing stands before it, no attempt holds a line (R306), no recording
orders its effects (R431). -/
def cpFree (s : State) : Prop := s.cp.stores = [] ∧ s.recordings = [] ∧ noAttempts s

/-! ### What is left alone -/

/-- Every byte of physical memory and of every quad's local memory reads as before. -/
def sameMem (s t : State) : Prop :=
  (∀ a, t.gbyte a = s.gbyte a) ∧ ∀ q a, (t.quad q).mem.get a = (s.quad q).mem.get a

/-- Nothing but the context whose turn it is differs: every other context, core, slice, quad, gang, quarter, die and partition, the
command processor, memory and the fabric are as before. -/
def onlyMe (s t : State) : Prop :=
  t = { s with ctxs := t.ctxs } ∧ (∀ k, k ≠ s.cur → t.ctx k = s.ctx k) ∧ sameMem s t

/-- Of a context nothing differs but its registers, the values that stand behind outstanding results (R73), and where it goes on.
Its control registers, outstanding results, attempt, pending causes and all else are as before. -/
def onlyRegs (c e : Ctx) : Prop :=
  e = { c with
    regs := e.regs, later := e.later, free := e.free, pc := e.pc, prevPc := e.prevPc, lp0 := e.lp0, lp1 := e.lp1 }

/-- The context goes on to the next word, with its loop registers as they were, where no active loop ends at this word (R98). -/
def goesOn (c e : Ctx) : Prop :=
  c.lp0.atEnd c.pc = false → c.lp1.atEnd c.pc = false → e.pc = c.pc + 4 ∧ e.lp0 = c.lp0 ∧ e.lp1 = c.lp1

/-- Register xd is given a value and no other register changes. x0 keeps reading zero (R30). Where an outstanding result
targets xd, the value stands behind it until the next settle point; where none does, no earlier value stands behind xd (R73). -/
def xGiven (c e : Ctx) (d : BitVec 5) (w : Word) : Prop :=
  (∀ r, r ≠ d → e.getX r = c.getX r) ∧ (∀ r, e.getV r = c.getV r) ∧ (∀ r, e.getK r = c.getK r) ∧ e.getX 0 = 0 ∧
  (d ≠ 0 → c.awaits (.x d) = false → e.getX d = w ∧ e.later = c.later.filter fun l => l.w.dst != .x d) ∧
  (c.awaits (.x d) = true → ((e.later.find? fun l => l.w.dst == .x d).map (·.w)) = some (.x d w))

/-- The same for a register vd. -/
def vGiven (c e : Ctx) (d : BitVec 5) (w : VWord) : Prop :=
  (∀ r, e.getX r = c.getX r) ∧ (∀ r, r ≠ d → e.getV r = c.getV r) ∧ (∀ r, e.getK r = c.getK r) ∧
  (c.awaits (.v d) = false → e.getV d = w ∧ e.later = c.later.filter fun l => l.w.dst != .v d) ∧
  (c.awaits (.v d) = true → ((e.later.find? fun l => l.w.dst == .v d).map (·.w)) = some (.v d w))

/-- The same for a mask register kd; k0 keeps reading all ones (R135). -/
def kGiven (c e : Ctx) (d : BitVec 3) (w : Word) : Prop :=
  (∀ r, e.getX r = c.getX r) ∧ (∀ r, e.getV r = c.getV r) ∧ (∀ r, r ≠ d → e.getK r = c.getK r) ∧
  e.getK 0 = BitVec.allOnes 64 ∧ (d ≠ 0 → e.getK d = w) ∧ e.later = c.later

/-- No register changes. -/
def sameRegs (c e : Ctx) : Prop := e.regs = c.regs ∧ e.later = c.later ∧ e.free = c.free

/-- An instruction completes: xd is given a value, the context goes on, and nothing else changes. -/
def givesX (s t : State) (d : BitVec 5) (w : Word) : Prop :=
  onlyMe s t ∧ onlyRegs s.me t.me ∧ xGiven s.me t.me d w ∧ goesOn s.me t.me

/-- An instruction completes: vd is given a value, the context goes on, and nothing else changes. -/
def givesV (s t : State) (d : BitVec 5) (w : VWord) : Prop :=
  onlyMe s t ∧ onlyRegs s.me t.me ∧ vGiven s.me t.me d w ∧ goesOn s.me t.me

/-- An instruction completes: kd is given a value, the context goes on, and nothing else changes. -/
def givesK (s t : State) (d : BitVec 3) (w : Word) : Prop :=
  onlyMe s t ∧ onlyRegs s.me t.me ∧ kGiven s.me t.me d w ∧ goesOn s.me t.me

/-- An instruction completes: the context goes on, and nothing else changes. -/
def givesNothing (s t : State) : Prop :=
  onlyMe s t ∧ onlyRegs s.me t.me ∧ sameRegs s.me t.me ∧ goesOn s.me t.me

/-- An instruction completes at `pc`: control goes there, the loop registers stay, xd is given a value. -/
def jumpsX (s t : State) (d : BitVec 5) (w pc : Word) : Prop :=
  onlyMe s t ∧ onlyRegs s.me t.me ∧ xGiven s.me t.me d w ∧ t.me.pc = pc ∧ t.me.lp0 = s.me.lp0 ∧ t.me.lp1 = s.me.lp1

/-- An instruction completes at `pc`: control goes there, the loop registers stay, no register changes. -/
def jumps (s t : State) (pc : Word) : Prop :=
  onlyMe s t ∧ onlyRegs s.me t.me ∧ sameRegs s.me t.me ∧ t.me.pc = pc ∧ t.me.lp0 = s.me.lp0 ∧ t.me.lp1 = s.me.lp1

/-- An instruction issues an access or operation whose result is outstanding, or that is not yet performed (R93, R163): it joins
the context's others at the end of program order, the context goes on, and nothing else changes. -/
def issuesOut (s t : State) (o : Out) : Prop :=
  onlyMe s t ∧ goesOn s.me t.me ∧ o.seq = s.me.nextSeq ∧ o.pc = s.me.pc ∧
  t.me = { s.me with
    outs := s.me.outs ++ [o], nextSeq := s.me.nextSeq + 1
    later := s.me.later.filter fun l => !o.dsts.contains l.w.dst
    pc := t.me.pc, prevPc := t.me.prevPc, lp0 := t.me.lp0, lp1 := t.me.lp1 }

/-- The same for an instruction that takes two places in program order: a local acquire form, which is a load and a fence.quad, and a local
release form, which is a fence.quad and a store (R196). -/
def issuesTwo (s t : State) (o p : Out) : Prop :=
  onlyMe s t ∧ goesOn s.me t.me ∧ o.seq = s.me.nextSeq ∧ p.seq = s.me.nextSeq + 1 ∧ o.pc = s.me.pc ∧ p.pc = s.me.pc ∧
  t.me = { s.me with
    outs := s.me.outs ++ [o, p], nextSeq := s.me.nextSeq + 2
    later := s.me.later.filter fun l => !o.dsts.contains l.w.dst && !p.dsts.contains l.w.dst
    pc := t.me.pc, prevPc := t.me.prevPc, lp0 := t.me.lp0, lp1 := t.me.lp1 }

/-- The fence.quad of a local acquire or release form (R196), not yet performed. -/
def isFence (o : Out) (quad : Nat) : Prop :=
  o.op = .fence quad ∧ o.acq = true ∧ o.rel = false ∧ o.pure = false ∧ o.dsts = [] ∧ o.ans = none

/-- Nothing differs but what TLBs hold (R261). -/
def onlyTlb (s t : State) : Prop :=
  t = { s with quads := t.quads, quarters := t.quarters } ∧ (∀ q, t.quad q = { s.quad q with tlb := (t.quad q).tlb, misses := (t.quad q).misses }) ∧
  ∀ q, t.quarter q = { s.quarter q with tlb := (t.quarter q).tlb, used := (t.quarter q).used }

/-- Another context than the one whose turn it is: nothing differs but that a wake may be on its way to it (R167, R307). -/
def onlyWakes (s t : State) : Prop := ∀ k, k ≠ s.cur → t.ctx k = { s.ctx k with wake := (t.ctx k).wake }

/-- An instruction completes with a change to its quad: the quad becomes `q`, with its local memory as before; sleepers may be
woken; the context goes on with the registers it had; nothing else changes. -/
def changesQuad (s t : State) (q : Quad) : Prop :=
  t = { s with ctxs := t.ctxs, quads := t.quads } ∧ t.quad s.myQuad = q ∧ (∀ j, j ≠ s.myQuad → t.quad j = s.quad j) ∧
  onlyWakes s t ∧ sameMem s t ∧ onlyRegs { s.me with wake := t.me.wake } t.me ∧ sameRegs s.me t.me ∧ goesOn s.me t.me

/-- The last byte that cells give an address. -/
def lastAt (cells : List (Nat × Byte)) (a : Nat) : Option Byte := (cells.reverse.find? fun c => c.1 == a).map (·.2)

/-- Memory after the cells of one write made from a quad, where the memories are in their canonical form: a byte that they name is
the last one given it, every other byte reads as before. -/
def writesFrom (s t : State) (quad : Nat) (cs : List (Ref × Byte)) : Prop :=
  s.canonical → (∀ a, t.gbyte a = (lastAt (globalCells cs) a).getD (s.gbyte a)) ∧
  (∀ a, (t.quad quad).mem.get a = (lastAt (localCells cs) a).getD ((s.quad quad).mem.get a)) ∧
  ∀ q, q ≠ quad → ∀ a, (t.quad q).mem.get a = (s.quad q).mem.get a

/-- The same for a write that a context makes. -/
abbrev writesCells (s t : State) (k : Nat) (cs : List (Ref × Byte)) : Prop := writesFrom s t (quadOf k) cs

/-! ### Taking an exception -/

/-- Nothing is outstanding any more of what a gate waits for: its release is neither among the accesses of its context nor in the retirement
tracker of its core (R211, R328, R366, R384). -/
def State.passed (s : State) (g : Gate) : Prop :=
  ∀ p, g = some p → (∀ o ∈ (s.ctx p.1).outs, o.opens p = false) ∧ (s.core (coreOf p.1)).tracks p = none

/-- The context can take a trap at its instruction now: nothing is outstanding, nothing is pending, no attempt is open, traps are
enabled (TVEC.EN) and no handler runs (R241, R242). -/
def takesTraps (c : Ctx) : Prop :=
  c.outs = [] ∧ c.later = [] ∧ c.deferred = none ∧ c.carry = none ∧ c.attempt = none ∧ c.ctl.tvec.getLsbD 0 = true ∧
  c.ctl.intrap = false

/-- A synchronous cause is taken (R242): TPC, TCAUSE, TVAL, PSYS, SYS and INTRAP are written, the pc goes to the handler, a settle
window opens, which has no position yet (R251); no other register of the context `c` and nothing else of the machine changes. -/
def takesCause (s t : State) (c : Ctx) (code : Nat) (tval : Word) : Prop :=
  onlyMe s t ∧
  t.me = { c with
    pc := setFld c.ctl.tvec 0 2 0
    opens := true, trail := [], buffer := []
    ctl := { c.ctl with tpc := setFld c.pc 0 2 0, tcause := word code, tval, psys := c.ctl.sys, sys := true, intrap := true } }

/-- A synchronous cause is taken at the instruction (R242), which has not issued (R137): it is taken off the counts of issued
instructions, which had it counted, and the window's count is as it was before (R95). -/
def entersTrap (s t : State) (code : Nat) (tval : Word) : Prop :=
  takesCause s t { s.me with window := s.me.uncounted.1, issued := s.me.issued - 1 } code tval

/-- The same for a step that was never counted as an instruction. -/
abbrev stepEntersTrap (s t : State) (code : Nat) (tval : Word) : Prop := takesCause s t s.me code tval

/-! ### Floating-point conditions and lanes (R134 to R137) -/

/-- The state with the flags of some conditions set in the FPCTL of the context whose turn it is, and nothing else changed. -/
def flagged (s : State) (cond : Nat) : State :=
  s.onMe fun c => { c with ctl := { c.ctl with fpctl := c.ctl.fpctl ||| BitVec.ofNat 64 (cond % 32 * 2 ^ 4) } }

/-- FPCTL's trap enables, in the order of the conditions. -/
def trapsOn (s : State) : Nat := s.me.ctl.fpctl.toNat / 2 ^ 12 % 2 ^ 5

/-- A vector instruction on elements of `w` bytes of a type: of the first `n`, those that the mask makes active are given what `f`
says, with its conditions, the others stay, and every element beyond is 0. The flags of the conditions are set. Where one of them
is enabled, the floating-point trap is taken instead, whose TVAL names the lowest element that raised one. -/
def computesLanes (s : State) (i : Instr) (v : BitVec 5) (k : BitVec 3) (type w n : Nat) (f : Nat → Nat × Nat) : Prop :=
  let on (j : Nat) : Bool := active type (s.me.getK k) j
  let conds := ((List.range n).filter on).map fun j => (f j).2
  let cond := conds.foldl (· ||| ·) 0
  (cond &&& trapsOn s = 0 → ∃ (t : State) (r : VWord), exec i s = .next t ∧ givesV (flagged s cond) t v r ∧
    ∀ j, j < 128 / w → lane w r j =
      if j < n then (if on j = true then (f j).1 % 2 ^ (8 * w) else lane w (s.me.getV v) j) else 0) ∧
  (cond &&& trapsOn s ≠ 0 → takesTraps s.me → ∃ (t : State) (j : Nat), exec i s = .next t ∧ j < n ∧ on j = true ∧
    (f j).2 &&& trapsOn s ≠ 0 ∧ (∀ x, x < j → on x = true → (f x).2 &&& trapsOn s = 0) ∧
    entersTrap (flagged s cond) t 0x05 (BitVec.ofNat 64 (j * 2 ^ 8 + cond)))

/-- The root of the fixed tree of R143 above `2 ^ n` leaves: its value, if one is there, and the conditions of its steps. -/
def treeRoot (op : Nat → Nat → Nat × Nat) (leaf : Nat → Option (Nat × Nat)) : Nat → Nat → Option (Nat × Nat)
  | 0, i => leaf i
  | n + 1, i =>
    match treeRoot op leaf n (2 * i), treeRoot op leaf n (2 * i + 1) with
    | none, y => y
    | x, none => x
    | some x, some y => some ((op x.1 y.1).1, x.2 ||| y.2 ||| (op x.1 y.1).2)

/-! ### Rounding (R107, R116, R136) -/

/-- What R107 reads the code of a magnitude as; past the largest code of the format the exponents go on. -/
def Fmt.magnitude (f : Fmt) (k : Nat) : ℚ :=
  let ex := k / 2 ^ f.fbits
  let fr := k % 2 ^ f.fbits
  (if ex = 0 then fr else 2 ^ f.fbits + fr : Nat) * (2 : ℚ) ^ (f.qmin + (ex - 1 : Nat))

/-- Round of R116 says so of a number of magnitude `x`: `k` is the code nearest to it, or the next in the direction of the mode, the even
one of two as near; a code past the largest overflows. Tiny is what, rounded to the format's precision, lies below the least normal number
(R136). -/
def roundsTo (f : Fmt) (nxm : Bool) (rm : Nat) (tuf neg : Bool) (x : ℝ) (r : Nat × Nat) : Prop :=
  let at_ (k : Nat) : ℝ := f.magnitude k
  let up : Prop := rm = 2 ∧ neg = false ∨ rm = 3 ∧ neg = true
  let sign : Nat := if neg then 2 ^ (f.width - 1) else 0
  let normal : ℝ := 2 ^ (f.qmin + f.fbits)
  let tiny : Prop := (rm = 0 → x < normal - 2 ^ (f.qmin - 2)) ∧ (up → x ≤ normal - 2 ^ (f.qmin - 1)) ∧ (rm ≠ 0 → ¬ up → x < normal)
  ∃ k : Nat,
    (rm = 0 → ∀ j, j ≠ k → |at_ k - x| ≤ |at_ j - x| ∧ (|at_ k - x| = |at_ j - x| → k % 2 = 0)) ∧
    (up → x ≤ at_ k ∧ ∀ j, x ≤ at_ j → k ≤ j) ∧ (rm ≠ 0 → ¬ up → at_ k ≤ x ∧ x < at_ (k + 1)) ∧
    (k ≤ f.largest nxm → r.1 = sign + k ∧ r.2 < 4 ∧ (r.2 % 2 = 1 ↔ at_ k ≠ x) ∧ (2 ≤ r.2 ↔ tiny ∧ (at_ k ≠ x ∨ tuf = true))) ∧
    (f.largest nxm < k → r.2 = 5 ∧ (f.hasInf nxm = true → rm = 0 ∨ up → r.1 = sign + f.infCode) ∧
      (f.hasInf nxm = false ∨ ¬ (rm = 0 ∨ up) → r.1 = sign + f.largest nxm))

/-! ### Matrix operations (R127, R128, R347, R348) -/

/-- What an operation reads and where it puts its rows, for the `cols` columns from column `first` on of one member: the bytes of A and of
its scales from the source's base, of B and of its scales from the image's base, and of C from the destination's base. -/
structure MatrixPart where
  rows : Nat
  first : Nat
  cols : Nat
  fmt : Nat
  ofmt : Nat
  rm : Nat
  nxm : Bool
  cin : Bool
  a : Nat → Byte
  aScale : Nat → Byte
  b : Nat → Byte
  bScale : Nat → Byte
  c : Nat → Byte
  dst : Nat
  cscl : Nat

/-- Mantissa `e` of row or column `i`, of the 64 bytes that hold its blocks (R115, R119, R347). -/
def MatrixPart.mant (p : MatrixPart) (bytes : Nat → Byte) (i e : Nat) : Int :=
  let w := 16 / 2 ^ p.fmt
  let raw := natOfBytes ((List.range 64).map fun t => bytes (64 * i + t)) / 2 ^ (w * e) % 2 ^ w
  if raw < 2 ^ (w - 1) then raw else if w = 16 ∧ raw = 2 ^ 15 then -32767 else raw - 2 ^ w

/-- The floating output format and the bytes of its elements (R343, R347). -/
def MatrixPart.outFmt (p : MatrixPart) : Fmt := match p.ofmt with | 0 => .f32 | 1 => .f16 | _ => .bf16
def MatrixPart.size (p : MatrixPart) : Nat := if p.ofmt = 0 then 4 else 2

/-- MatElement of R127 before its rounding: row `i`, and the `j`-th of the part's columns. -/
def MatrixPart.acc (p : MatrixPart) (i j : Nat) : Acc :=
  let c : Val := if p.cin then p.outFmt.value false (natOfBytes ((List.range p.size).map fun t => p.c ((p.cols * i + j) * p.size + t)))
    else .zero false
  (List.range (2 ^ p.fmt)).foldl (fun acc blk =>
    let ea := (p.aScale (2 ^ p.fmt * i + blk)).toNat
    let eb := (p.bScale (2 ^ p.fmt * (p.first + j) + blk)).toNat
    if p.nxm = false ∧ (ea = 255 ∨ eb = 255) then { acc with kind := .nan }
    else acc.add (((List.range 32).map fun k => p.mant p.a i (32 * blk + k) * p.mant p.b (p.first + j) (32 * blk + k)).sum)
      ((ea - 127 : Int) + (eb - 127))) (Acc.init c)

/-- An element of a floating output, and a block of 32 columns of a Q output, each with its conditions (R128). -/
def MatrixPart.element (p : MatrixPart) (i j : Nat) : Nat × Nat := p.outFmt.round false p.rm false (p.acc i j).val
def MatrixPart.block (p : MatrixPart) (i n : Nat) : Block :=
  quantise (16 / 2 ^ (p.ofmt - 3)) p.nxm ((List.range 32).map fun k => (p.acc i (32 * n + k)).val)

/-- Where the elements go in a floating output, and the blocks with their scales in a Q output (R347). -/
def MatrixPart.cells (p : MatrixPart) : List (Nat × Byte) :=
  (List.range p.rows).flatMap fun i =>
    if p.ofmt < 3 then
      (List.range p.cols).flatMap fun j => (List.range p.size).map fun t =>
        (p.dst + (p.cols * i + j) * p.size + t, BitVec.ofNat 8 ((p.element i j).1 / 256 ^ t))
    else
      let bits := 16 / 2 ^ (p.ofmt - 3)
      (List.range 4).flatMap fun n =>
        ((List.range (4 * bits)).map fun t =>
          (p.dst + (4 * i + n) * (4 * bits) + t, BitVec.ofNat 8 (packMants bits (p.block i n).mants / 256 ^ t))) ++
        [(p.dst + p.cscl + 4 * i + n, BitVec.ofNat 8 (p.block i n).scale)]

/-- The part of a member that has streamed is what its rows come to: cells, conditions, and whether an element is NaN (R348). -/
def Streamed.isPart (x : Streamed) (p : MatrixPart) : Prop :=
  x.cells = p.cells ∧
  (p.ofmt < 3 → x.cond = ((List.range p.rows).flatMap fun i => (List.range p.cols).map fun j => (p.element i j).2).foldl (· ||| ·) 0 ∧
    (x.nan = true ↔ ∃ i j, i < p.rows ∧ j < p.cols ∧ (p.acc i j).val.isNan = true)) ∧
  (3 ≤ p.ofmt → x.cond = ((List.range p.rows).flatMap fun i => (List.range 4).flatMap fun n => (p.block i n).conds).foldl (· ||| ·) 0 ∧
    (x.nan = true ↔ ∃ i n, i < p.rows ∧ n < 4 ∧ (p.block i n).scale = 255 ∧ p.nxm = false))

end Sys2Proof.Machine
end

