-- ==== Sys2Proof/Certificates/Slice0/Obligations.lean ====
section
/-! DEFINITION. The statements about the model. -/

open Sys2Proof Sys2Proof.Machine

/-! ### Integer instructions (03_integer) -/

/-- R74: what the instructions of major 0x00 listed there and the immediate forms of R79 write to xd, that they complete in
every state, and that they change nothing else. -/
def Obligations.IntegerLogicCompare : Prop :=
  ∀ (s : State) (sb : Bool) (d a b : BitVec 5) (i : BitVec 15),
    let x := s.me.getX a
    let y := s.me.getX b
    let m := i.signExtend 64
    let to01 (p : Prop) [Decidable p] : Word := if p then 1 else 0
    let gives (i : Instr) (w : Word) : Prop := ∃ t : State, exec i s = .next t ∧ givesX s t d w
    gives (.add sb d a b) (x + y) ∧ gives (.addi sb d a i) (x + m) ∧ gives (.sub sb d a b) (x - y) ∧
    gives (.and sb d a b) (x &&& y) ∧ gives (.andi sb d a i) (x &&& m) ∧
    gives (.or sb d a b) (x ||| y) ∧ gives (.ori sb d a i) (x ||| m) ∧
    gives (.xor sb d a b) (x ^^^ y) ∧ gives (.xori sb d a i) (x ^^^ m) ∧
    gives (.andn sb d a b) (x &&& ~~~y) ∧ gives (.orn sb d a b) (x ||| ~~~y) ∧
    gives (.slt sb d a b) (to01 (x.toInt < y.toInt)) ∧ gives (.slti sb d a i) (to01 (x.toInt < m.toInt)) ∧
    gives (.sltz sb d a b) (to01 (x.toNat < y.toNat)) ∧
    gives (.min sb d a b) (if x.toInt ≤ y.toInt then x else y) ∧ gives (.max sb d a b) (if x.toInt ≥ y.toInt then x else y) ∧
    gives (.minz sb d a b) (if x.toNat ≤ y.toNat then x else y) ∧ gives (.maxz sb d a b) (if x.toNat ≥ y.toNat then x else y)

/-- R75 and R80: every bit that a shift or rotate writes, for an amount from bits [5:0] of xb or from the immediate; they complete
in every state and change nothing else.
R81 to R85: what adds, sel, ext, ins, lui and addpc write; they complete in every state and change nothing else. -/
def Obligations.ShiftsAndFields : Prop :=
  (∀ (s : State) (sb : Bool) (d a b : BitVec 5) (i : BitVec 6),
     let x := s.me.getX a
     let n := (s.me.getX b).toNat % 64
     let left (n : Nat) (w : Word) : Prop := ∀ j, j < 64 → w.getLsbD j = (decide (n ≤ j) && x.getLsbD (j - n))
     let right (n : Nat) (top : Bool) (w : Word) : Prop :=
       ∀ j, j < 64 → w.getLsbD j = if j + n < 64 then x.getLsbD (j + n) else top
     let gives (i : Instr) (what : Word → Prop) : Prop := ∃ (t : State) (w : Word), exec i s = .next t ∧ givesX s t d w ∧ what w
     gives (.sll sb d a b) (left n) ∧ gives (.slli sb d a i) (left i.toNat) ∧
     gives (.srl sb d a b) (right n false) ∧ gives (.srli sb d a i) (right i.toNat false) ∧
     gives (.sra sb d a b) (right n x.msb) ∧ gives (.srai sb d a i) (right i.toNat x.msb) ∧
     gives (.rotl sb d a b) (fun w => ∀ j, j < 64 → w.getLsbD j = x.getLsbD ((j + 64 - n) % 64)) ∧
     gives (.rotr sb d a b) (fun w => ∀ j, j < 64 → w.getLsbD j = x.getLsbD ((j + n) % 64))) ∧
  (∀ (s : State) (sb : Bool) (d a b c n : BitVec 5) (l p : BitVec 6) (i : BitVec 20),
     let x := s.me.getX a
     let y := s.me.getX b
     let len := l.toNat + 1
     let old := s.me.getX d
     let gives (i : Instr) (what : Word → Prop) : Prop := ∃ (t : State) (w : Word), exec i s = .next t ∧ givesX s t d w ∧ what w
     gives (.adds sb d a b n) (fun w => w = x + BitVec.ofNat 64 (y.toNat * 2 ^ n.toNat)) ∧
     gives (.sel sb d a b c) (fun w => w = if s.me.getX c = 0 then y else x) ∧
     gives (.ext sb d a l p) (fun w => ∀ j, j < 64 → w.getLsbD j = (decide (j < len) && x.getLsbD (j + p.toNat))) ∧
     gives (.ins sb d a l p) (fun w => ∀ j, j < 64 →
       w.getLsbD j = if p.toNat ≤ j ∧ j < p.toNat + len then x.getLsbD (j - p.toNat) else old.getLsbD j) ∧
     gives (.lui sb d i) (fun w => w = BitVec.ofInt 64 (i.toInt * 2 ^ 15)) ∧
     gives (.addpc sb d i) (fun w => w = s.me.pc + BitVec.ofInt 64 (4 * i.toInt)))

/-- R76: the counts. clz writes the number of zero bits above the highest one bit, ctz of those below the lowest one bit, popc of
one bits; 64, 64 and 0 for 0. They complete in every state and change nothing else.
R77: mul writes bits [63:0] of the product, mulh and mulhz bits [127:64] of the signed and of the unsigned product. They
complete in every state and change nothing else.
R78 and R72: a division by a value other than zero completes at issue with its result outstanding for xd: the quotient
rounded toward zero or the remainder, whose product and sum give the dividend back; x0 takes none. Nothing else changes.
R78: a division by zero traps, whatever FPCTL holds and whatever its destination: cause 0x06, TVAL the word of the
instruction; xd is unchanged. -/
def Obligations.CountsProductsQuotients : Prop :=
  ((∀ (s : State) (sb : Bool) (d a : BitVec 5),
      let x := s.me.getX a
      let gives (i : Instr) (what : Nat → Prop) : Prop := ∃ (t : State) (n : Nat), exec i s = .next t ∧ givesX s t d (word n) ∧ what n
      gives (.clz sb d a) (fun n =>
        n ≤ 64 ∧ (∀ j, j < n → x.getLsbD (63 - j) = false) ∧ (n < 64 → x.getLsbD (63 - n) = true)) ∧
      gives (.ctz sb d a) (fun n => n ≤ 64 ∧ (∀ j, j < n → x.getLsbD j = false) ∧ (n < 64 → x.getLsbD n = true)) ∧
      gives (.popc sb d a) (fun n => n = ((List.range 64).filter fun j => x.getLsbD j).length)) ∧
   (∀ (s : State) (sb : Bool) (d a b : BitVec 5),
      let x := s.me.getX a
      let y := s.me.getX b
      let gives (i : Instr) (w : Word) : Prop := ∃ t : State, exec i s = .next t ∧ givesX s t d w
      gives (.mul sb d a b) (BitVec.ofInt 64 (x.toInt * y.toInt)) ∧
      gives (.mul sb d a b) (BitVec.ofNat 64 (x.toNat * y.toNat)) ∧
      gives (.mulh sb d a b) (((x.signExtend 128 * y.signExtend 128) >>> 64).setWidth 64) ∧
      gives (.mulhz sb d a b) (((x.setWidth 128 * y.setWidth 128) >>> 64).setWidth 64))) ∧
  ((∀ (s : State) (sb : Bool) (d a b : BitVec 5), s.me.getX b ≠ 0 →
      let x := s.me.getX a
      let y := s.me.getX b
      let gives (i : Instr) (what : Word → Prop) : Prop :=
        ∃ (t : State) (w : Word) (o : Out), exec i s = .next t ∧ issuesOut s t o ∧ o.op = .value ∧ o.pure = true ∧
          o.dsts = (if d = 0 then [] else [.x d]) ∧ o.ans = some { writes := [.x d w] } ∧ what w
      gives (.div sb d a b) (fun w => w = BitVec.ofInt 64 (x.toInt.tdiv y.toInt)) ∧
      gives (.rem sb d a b) (fun w => w.toInt = x.toInt - x.toInt.tdiv y.toInt * y.toInt) ∧
      gives (.divz sb d a b) (fun w => w.toNat = x.toNat / y.toNat) ∧
      gives (.remz sb d a b) (fun w => w.toNat = x.toNat - x.toNat / y.toNat * y.toNat)) ∧
   (∀ (s : State) (sb : Bool) (d a b : BitVec 5) (i : Instr), s.me.getX b = 0 → takesTraps s.me →
      i ∈ [Instr.div sb d a b, .divz sb d a b, .rem sb d a b, .remz sb d a b] →
      ∃ (t : State) (w : Word32), exec i s = .next t ∧ encode i = some w ∧ entersTrap s t 0x06 (w.setWidth 64)))

/-! ### Control flow (04_control) -/

/-- R87: a conditional branch goes to its own address + 4 × the signed offset where its condition holds, else on; no register and
nothing else changes.
R88 and R89: j, jal and jalr go to their targets, jal and jalr write their own address + 4 to x1 and xd after xa is read; a
jalr to an address that is no multiple of 4 raises the misaligned-access trap with TVAL that address and writes nothing. -/
def Obligations.BranchesAndJumps : Prop :=
  (∀ (s : State) (sb : Bool) (a b : BitVec 5) (o : BitVec 12),
     let x := s.me.getX a
     let y := s.me.getX b
     let takenWhen (i : Instr) (cond : Prop) : Prop :=
       ∃ t : State, exec i s = .next t ∧ (cond → jumps s t (s.me.pc + BitVec.ofInt 64 (4 * o.toInt))) ∧ (¬ cond → givesNothing s t)
     takenWhen (.bEq sb a b o) (x = y) ∧ takenWhen (.bNe sb a b o) (x ≠ y) ∧
     takenWhen (.bLt sb a b o) (x.toInt < y.toInt) ∧ takenWhen (.bGe sb a b o) (x.toInt ≥ y.toInt) ∧
     takenWhen (.bLtz sb a b o) (x.toNat < y.toNat) ∧ takenWhen (.bGez sb a b o) (x.toNat ≥ y.toNat)) ∧
  (∀ (s : State) (sb : Bool) (d a : BitVec 5) (o : BitVec 25) (i : BitVec 15),
     let there := s.me.pc + BitVec.ofInt 64 (4 * o.toInt)
     let reg := s.me.getX a + i.signExtend 64
     (∃ t : State, exec (.j sb o) s = .next t ∧ jumps s t there) ∧
     (∃ t : State, exec (.jal sb o) s = .next t ∧ jumpsX s t 1 (s.me.pc + 4) there) ∧
     (reg.toNat % 4 = 0 → ∃ t : State, exec (.jalr sb d a i) s = .next t ∧ jumpsX s t d (s.me.pc + 4) reg) ∧
     (reg.toNat % 4 ≠ 0 → takesTraps s.me → ∃ t : State, exec (.jalr sb d a i) s = .next t ∧ entersTrap s t 0x02 reg))

/-- That the first clause holds in every state, also for a loop that stands at the other level's latched end (it counts as a control
transfer, and the other level does not change), and that the levels keep whole addresses, is the model's reading of R97 to R100, not the
spec's words (DEDUCED, log 57).
R97 and R100: loop sets up its level from xa and goes to the body, or past it for a count of 0; lbreak clears ACT and EB alone.
The other level and everything else stay.
R98: what completing the instruction at a latched end does, seen at a nop: the inner level first; back to the start with one pass
fewer, or the level is left; the outer level is examined only where the inner one is not sent back. -/
def Obligations.HardwareLoops : Prop :=
  (∀ (s : State) (sb : Bool) (n : BitVec 1) (a : BitVec 5) (i : BitVec 15),
     let c := s.me
     let level (c : Ctx) : LoopLevel := if n = 0 then c.lp0 else c.lp1
     let other (c : Ctx) : LoopLevel := if n = 0 then c.lp1 else c.lp0
     let count := c.getX a
     let start := c.pc + 4
     let stop := c.pc + BitVec.ofInt 64 (4 * i.toInt)
     (∃ t : State, exec (.loop sb n a i) s = .next t ∧ onlyMe s t ∧ onlyRegs c t.me ∧ sameRegs c t.me ∧ other t.me = other c ∧
       (level t.me).ls = start ∧ (level t.me).le = stop ∧ (level t.me).asn = start ∧ (level t.me).aen = stop ∧
       (level t.me).eb = false ∧ (level t.me).act = (count != 0) ∧
       (level t.me).lc = (if count = 0 then 0 else count - 1) ∧ t.me.pc = (if count = 0 then stop + 4 else start)) ∧
     (c.lp0.atEnd c.pc = false → c.lp1.atEnd c.pc = false →
       ∃ t : State, exec (.lbreak sb n) s = .next t ∧ onlyMe s t ∧ onlyRegs c t.me ∧ sameRegs c t.me ∧ other t.me = other c ∧
         level t.me = { level c with act := false, eb := false } ∧ t.me.pc = c.pc + 4)) ∧
  (∀ (s : State) (sb : Bool),
     let c := s.me
     let done (l : LoopLevel) : Bool := l.eb || decide (l.le.toNat < l.ls.toNat)
     let back (l : LoopLevel) : Bool := !done l && l.lc != 0
     let sent (l : LoopLevel) : LoopLevel := { l with asn := l.ls, aen := l.le, lc := l.lc - 1 }
     let left (l : LoopLevel) : LoopLevel :=
       if done l then { l with act := false, eb := false } else { l with asn := l.ls, aen := l.le, act := false }
     let after (l : LoopLevel) : Word := (if done l then l.aen else l.le) + 4
     ∃ t : State, exec (.nop sb) s = .next t ∧ onlyMe s t ∧ onlyRegs c t.me ∧ sameRegs c t.me ∧
       (c.lp1.atEnd c.pc = true → back c.lp1 = true → t.me.lp1 = sent c.lp1 ∧ t.me.lp0 = c.lp0 ∧ t.me.pc = c.lp1.ls) ∧
       (c.lp1.atEnd c.pc = true → back c.lp1 = false → t.me.lp1 = left c.lp1 ∧
         (c.lp0.atEnd c.pc = false → t.me.lp0 = c.lp0 ∧ t.me.pc = after c.lp1)) ∧
       ((c.lp1.atEnd c.pc = true → back c.lp1 = false) → c.lp0.atEnd c.pc = true →
         (back c.lp0 = true → t.me.lp0 = sent c.lp0 ∧ t.me.pc = c.lp0.ls) ∧
         (back c.lp0 = false → t.me.lp0 = left c.lp0 ∧ t.me.pc = after c.lp0)) ∧
       (c.lp1.atEnd c.pc = false → t.me.lp1 = c.lp1 ∧ (c.lp0.atEnd c.pc = false → t.me.lp0 = c.lp0 ∧ t.me.pc = c.pc + 4)))


/-! ### Loads and stores (07_local, 08_global) -/

/-- R161, R93, R196, R198: a load whose address is granted issues with its result outstanding for xd (xd and x(d+1) for ldp), over
the bytes of its naturally aligned address xa + SExt(disp) × unit, sign- or zero-extended, with its order. At a local address an acquire
form is the load without the order and then a fence.quad. Nothing changes but what TLBs hold. -/
def Obligations.LoadsIssue : Prop :=
  ∀ (s : State) (sb : Bool) (d a : BitVec 5) (z : BitVec 2) (p : BitVec 10), s.me.attempt = none →
    let address (unit : Nat) : Word := s.me.getX a + BitVec.ofInt 64 (p.toInt * unit)
    let issues (i : Instr) (n : Nat) (fin : LoadFin) (dsts : List Dst) (nc acq : Bool) : Prop :=
      ∀ r s', checkAccess s s.cur .load (address n) n n = (.ok r, s') →
        let loads (o : Out) : Prop := o.op = .load (r.span n) fin nc ∧ o.acq = (acq && !r.isLocal) ∧ o.rel = false ∧ o.pure = true ∧
          o.ans = none ∧ o.dsts = dsts.filter (· != .x 0)
        onlyTlb s s' ∧
        ((acq && r.isLocal) = false → ∃ (t : State) (o : Out), exec i s = .next t ∧ issuesOut s' t o ∧ loads o) ∧
        ((acq && r.isLocal) = true → ∃ (t : State) (o p : Out), exec i s = .next t ∧ issuesTwo s' t o p ∧ loads o ∧ isFence p s.myQuad)
    let n := 2 ^ z.toNat
    issues (.ld sb d a z p) n (.scalar d true) [.x d] false false ∧
    issues (.ldAcq sb d a z p) n (.scalar d true) [.x d] false true ∧
    issues (.ldnc sb d a z p) n (.scalar d true) [.x d] true false ∧
    issues (.ldz sb d a z p) n (.scalar d false) [.x d] false false ∧
    issues (.ldzAcq sb d a z p) n (.scalar d false) [.x d] false true ∧
    issues (.ldncZ sb d a z p) n (.scalar d false) [.x d] true false ∧
    issues (.ldp sb d a p) 16 (.pair d) [.x d, .x (d + 1)] false false ∧
    issues (.ldpAcq sb d a p) 16 (.pair d) [.x d, .x (d + 1)] false true

/-- R161, R163, R196: a store whose address is granted retires at issue: it joins the context's accesses with the bytes of xd (of xd
and x(d+1) for stp), little-endian, and its order. At a local address a release form is a fence.quad and then the store without the order.
No byte of memory changes yet.
R186, R195: HOME_WRITE. A store that nothing earlier holds up, and whose lines no irrevocable attempt of another agent holds, is
performed: exactly its bytes change, in the memory that each of its references names, but for those in host words whose writes the host
refuses (R180), and it is no longer outstanding.
Which step comes, and the form of its arguments, are the model's (log 1). -/
def Obligations.Stores : Prop :=
  (∀ (s : State) (sb : Bool) (d a : BitVec 5) (z : BitVec 2) (p : BitVec 10), s.me.attempt = none →
     let address (unit : Nat) : Word := s.me.getX a + BitVec.ofInt 64 (p.toInt * unit)
     let issues (i : Instr) (n v : Nat) (rel : Bool) : Prop :=
       ∀ r s', checkAccess s s.cur .store (address n) n n = (.ok r, s') →
         let stores (o : Out) : Prop := o.op = .store ((List.range n).map fun j => (r.plus j, BitVec.ofNat 8 (v / 256 ^ j))) ∧
           o.acq = false ∧ o.rel = (rel && !r.isLocal) ∧ o.dsts = [] ∧ o.ans = none
         onlyTlb s s' ∧
         ((rel && r.isLocal) = false → ∃ (t : State) (o : Out), exec i s = .next t ∧ issuesOut s' t o ∧ stores o) ∧
         ((rel && r.isLocal) = true → ∃ (t : State) (p o : Out), exec i s = .next t ∧ issuesTwo s' t p o ∧ isFence p s.myQuad ∧ stores o)
     let n := 2 ^ z.toNat
     let one := (s.me.getX d).toNat
     let two := (s.me.getX d).toNat + 2 ^ 64 * (s.me.getX (d + 1)).toNat
     issues (.st sb d a z p) n one false ∧ issues (.stRel sb d a z p) n one true ∧
     issues (.stp sb d a p) 16 two false ∧ issues (.stpRel sb d a p) 16 two true) ∧
  (∀ (s : State) (k seq : Nat) (o : Out) (cells : List (Ref × Byte)), s.ev = [k, seq] → (s.ctx k).out seq = some o →
     o.op = .store cells → o.ans = none → (s.ctx k).halted = false ∨ o.pure = false → (s.ctx k).mayPerform o = true →
     s.mayWriteCells k cells = true → (s.ctx k).status ≠ .ending →
     ∃ t : State, exec .homeWrite s = .next t ∧ writesCells s t k (s.served cells) ∧ (t.ctx k).out seq = none ∧ (t.ctx k).regs = (s.ctx k).regs)

/-- R160, R161, R179, R215, R427: which addresses are granted. A misaligned one is cause 0x02; a local one below XBOUND, at or above the
layer's capacity or of a portable task is cause 0x03; a global one with a bit of [63:57] set is cause 0x03; the reference
granted for a local address is that byte of the context's quad.
R161, R241: a load or store whose address is misaligned traps with cause 0x02 and TVAL its address, and nothing is read or
written. -/
def Obligations.AddressChecks : Prop :=
  (∀ (s : State) (k : Nat) (kind : Kind) (a : Word) (n : Nat),
     let r := (checkAccess s k kind a n n).1
     let q := s.quad (quadOf k)
     let local_ := a.toNat < 0x400000
     let backed := q.xbound.toNat ≤ a.toNat ∧ a.toNat < capacity (quadLayer (quadOf k)) ∧ (s.ctx k).task.portable = false
     let there : Ref := { isLocal := true, addr := a.toNat }
     (a.toNat % n ≠ 0 → r = .no (.trap 0x02 a)) ∧
     (a.toNat % n = 0 → local_ → ¬ backed → r = .no (.trap 0x03 a)) ∧
     (a.toNat % n = 0 → local_ → backed → kind = .store ∨ s.poisonSpan (quadOf k) there n = false → r = .ok there) ∧
     (a.toNat % n = 0 → local_ → backed → kind ≠ .store → s.poisonSpan (quadOf k) there n = true → (s.ctx k).ownBytes = [] →
       r = .no (.trap 0x03 a)) ∧
     (a.toNat % n = 0 → ¬ local_ → a.toNat / 2 ^ 57 ≠ 0 → r = .no (.trap 0x03 a))) ∧
  (∀ (s : State) (sb : Bool) (d a : BitVec 5) (z : BitVec 2) (p : BitVec 10), takesTraps s.me →
     let address (unit : Nat) : Word := s.me.getX a + BitVec.ofInt 64 (p.toInt * unit)
     let traps (i : Instr) (n : Nat) : Prop :=
       (address n).toNat % n ≠ 0 → ∃ t : State, exec i s = .next t ∧ entersTrap s t 0x02 (address n)
     let n := 2 ^ z.toNat
     traps (.ld sb d a z p) n ∧ traps (.ldAcq sb d a z p) n ∧ traps (.ldnc sb d a z p) n ∧ traps (.ldz sb d a z p) n ∧
     traps (.ldzAcq sb d a z p) n ∧ traps (.ldncZ sb d a z p) n ∧ traps (.ldp sb d a p) 16 ∧ traps (.ldpAcq sb d a p) 16 ∧
     traps (.st sb d a z p) n ∧ traps (.stRel sb d a z p) n ∧ traps (.stp sb d a p) 16 ∧ traps (.stpRel sb d a p) 16)

/-- R161, R162, R94: RESULT_ARRIVAL. A load of a context that is not halted, and that nothing earlier holds up, binds its value: the bytes
of memory under the context's own earlier stores. Once a result is known, the step writes it to its registers; where an earlier result for
the register is still outstanding, it stands behind that one (R73). Memory does not change, and no other context.
R161: the values that the bytes of a load give: sign-extended for ld, zero-extended for ldz, two dwords for ldp, all
little-endian.
Which step comes, and the form of its arguments, are the model's (log 1).
When a result arrives is the model's (logs 3, 5). -/
def Obligations.LoadResults : Prop :=
  (∀ (s : State) (k seq : Nat) (o : Out), s.ev = [k, seq] → (s.ctx k).out seq = some o → (s.ctx k).status ≠ .ending →
     (∀ at_ fin nc, o.op = .load at_ fin nc → o.ans = none → o.bound = [] → (s.ctx k).halted = false → (s.ctx k).mayPerform o = true →
       ∃ t : State, exec .resultArrival s = .next t ∧ sameMem s t ∧ (∀ j, j ≠ k → t.ctx j = s.ctx j) ∧
         (t.ctx k).regs = (s.ctx k).regs ∧
         let bytes := at_.map fun r => overlay ((s.ctx k).earlierCells seq) r (s.readByte (quadOf k) (nc || o.acq) r)
         (t.ctx k).out seq = some { o with ans := some { writes := fin.writes bytes } }) ∧
     (∀ d w, o.ans = some { writes := [.x d w] } → o.held = false → ((s.ctx k).halted = false ∨ o.pure = false) → (s.ctx k).later = [] →
       ∃ t : State, exec .resultArrival s = .next t ∧ t = { s with ctxs := t.ctxs } ∧ (∀ j, j ≠ k → t.ctx j = s.ctx j) ∧
         (d ≠ 0 → (t.ctx k).getX d = w) ∧ (∀ r, r ≠ d → (t.ctx k).getX r = (s.ctx k).getX r) ∧
         t.ctx k = { s.ctx k with
           regs := (t.ctx k).regs, outs := (s.ctx k).outs.filter fun p => p.seq != seq
           buffer := (s.ctx k).buffer ++
             [{ at_ := (s.ctx k).trail.length, seq, dsts := o.dsts, ans := { writes := [.x d w] } }]
           later := if (s.ctx k).outs.any fun p => decide (p.seq < seq) && p.dsts.contains (.x d) then [{ by_ := seq, w := .x d w }] else [] })) ∧
  (∀ (d : BitVec 5) (bs : List Byte),
     (bs.length ≤ 8 → bs ≠ [] →
       LoadFin.writes (.scalar d false) bs = [.x d (BitVec.ofNat 64 (natOfBytes bs))] ∧
       ∃ w : Word, LoadFin.writes (.scalar d true) bs = [.x d w] ∧
         w.toInt = (if natOfBytes bs < 2 ^ (8 * bs.length - 1) then (natOfBytes bs : Int)
           else natOfBytes bs - 2 ^ (8 * bs.length))) ∧
     (bs.length = 16 → ∃ lo hi : Word, LoadFin.writes (.pair d) bs = [.x d lo, .x (d + 1) hi] ∧
       lo.toNat + 2 ^ 64 * hi.toNat = natOfBytes bs) ∧
     (∀ j, j < bs.length → natOfBytes bs / 256 ^ j % 256 = (bs.getD j 0).toNat))

/-- R197: a fence completes, with nothing changed, where no earlier load is pending and no earlier access homed in its scope. Where one is,
the fence goes on only with that access performed: a load, wherever its home, has its value bound; a store homed in the scope has its bytes
in memory; and while a store cannot be performed the fence does not go on. That the fence performs those accesses within its own step is
the model's choice (log 3).
R193, R199, R200: pref, pref.w and nhint never fault and never change a register or a byte of memory, whatever their address; cln
and inv do the same where the page of their address is readable or the address is local. That a miss of pref, pref.w and nhint is judged by the
quad's TLB alone, so that a page which only the quarter's TLB holds is a miss, is the model's choice (log 65). A prefetch of a PC = 1 line
that the quad's TLB translates, and of which no word is poisoned, leaves a copy of it in the die's cache; inv takes the die's copy away and cln changes none; nhint records its hint for the block,
h = 2 within the partition's limit and h = 1 for a block without a keep hint, and h = 0 and h = 3 end what was recorded. Nothing else
changes. Copies and hints are those of the issuing die. -/
def Obligations.FencesAndHints : Prop :=
  (∀ (s : State) (sb : Bool),
     let fences (i : Instr) (sc : Scope) : Prop :=
       ((∀ o ∈ s.me.outs, o.pending = true → o.binds = false ∧ o.refs.any (homeIn s s.cur sc) = false) →
         ∃ t : State, exec i s = .next t ∧ givesNothing s t) ∧
       (∀ o cells, s.me.outs = [o] → o.ans = none → o.op = .store cells → (cells.any fun c => homeIn s s.cur sc c.1) = true →
         (s.mayWriteCells s.cur cells = true → ∃ t : State, exec i s = .next t ∧ writesCells s t s.cur (s.served cells) ∧ t.me.outs = [] ∧
           sameRegs s.me t.me ∧ goesOn s.me t.me) ∧
         (s.mayWriteCells s.cur cells = false → ∃ t : State, exec i s = .next t ∧ sameMem s t ∧ t.me.outs = [o] ∧ sameRegs s.me t.me ∧
           t.me.pc = s.me.pc)) ∧
       (∀ o at_ fin nc, s.me.outs = [o] → o.ans = none → o.op = .load at_ fin nc → ∃ (t : State) (a : Ans), exec i s = .next t ∧
         t.me.outs = [{ o with ans := some a }] ∧ sameMem s t ∧ sameRegs s.me t.me ∧ goesOn s.me t.me)
     fences (.fenceQuad sb) .quad ∧ fences (.fenceQuarter sb) .quarter ∧ fences (.fenceDie sb) .die ∧
     fences (.fenceModule sb) .module ∧ fences (.fenceSystem sb) .system) ∧
  (∀ (s : State) (sb : Bool) (a : BitVec 5) (h : BitVec 2),
     let D := quadDie s.myQuad
     let hit := tlbHit s s.cur (s.me.getX a)
     let there (p : Tlb) : Ref := s.pageRef p (s.me.getX a).toNat
     let hints (s' t : State) : Prop := sameMem s t ∧ t = { s' with ctxs := t.ctxs, dies := t.dies } ∧
       (∀ k, k ≠ s.cur → t.ctx k = s.ctx k) ∧ (∀ j, j ≠ D → t.die j = s.die j) ∧ onlyRegs s.me t.me ∧ sameRegs s.me t.me ∧
       goesOn s.me t.me
     let fetches (i : Instr) : Prop := ∃ t : State, exec i s = .next t ∧ hints s t ∧
       (∀ p, hit = some p → p.r = true → (there p).pc1 = true → s.poisonLine ((there p).addr / 128) = false →
         (t.die D).rdc.has ((there p).addr / 128) = true)
     let cleans (i : Instr) (copies : Map (List Byte) → Nat → Map (List Byte)) : Prop :=
       ∀ r s', globalCheck s s.cur .load (s.me.getX a) 0 = (.ok r, s') →
         ∃ t : State, exec i s = .next t ∧ onlyTlb s s' ∧ hints s' t ∧
           t.die D = { s.die D with rdc := copies (s.die D).rdc (r.addr / 128) }
     let recorded (t : State) (what : Die → Die) : Prop := t.die D = what (s.die D)
     fetches (.pref sb a) ∧ fetches (.prefW sb a) ∧
     (∃ t : State, exec (.nhint sb h a) s = .next t ∧ hints s t ∧ (hit = none → recorded t fun d => d) ∧
       ∀ p n q, hit = some p → s.partOf s.cur = some (n, q) →
         let pa := (there p).addr
         let block := pa / 65536
         let mine := pa.testBit 45 = false ∧ pa / 2 ^ 46 = s.domainIx ∧ pa / 2 ^ 37 % 4 = D
         let full := keepLimit q D ≤ keepsOf s D n block
         let kept := ((s.die D).hints.get (0, 0) block).1 = 2
         (¬ mine → recorded t fun d => d) ∧
         (mine → h = 0 → recorded t fun d => { d with hints := d.hints.drop block }) ∧
         (mine → h = 3 → recorded t fun d => { d with hints := d.hints.drop block, promoted := d.promoted.filter (· != block) }) ∧
         (mine → h = 2 → ¬ full → recorded t fun d => { d with hints := d.hints.put block (2, n) }) ∧
         (mine → h = 1 ∨ (h = 2 ∧ full) → ¬ kept → recorded t fun d => { d with hints := d.hints.put block (1, n) }) ∧
         (mine → h = 1 ∨ (h = 2 ∧ full) → kept → recorded t fun d => d)) ∧
     ((s.me.getX a).toNat < 0x400000 → (∃ t : State, exec (.cln sb a) s = .next t ∧ givesNothing s t) ∧
       ∃ t : State, exec (.inv sb a) s = .next t ∧ givesNothing s t) ∧
     (0x400000 ≤ (s.me.getX a).toNat → cleans (.cln sb a) (fun m _ => m) ∧ cleans (.inv sb a) Map.drop))

/-! ### Tiles and rings (07_local) -/

/-- R165: what tacq answers and binds, outside an attempt and in a task that is not portable: the status of the first test that
applies, in the rule's order, and the entry changes only for status 0. -/
def Obligations.TileAcquire : Prop :=
  ∀ (s : State) (sb : Bool) (d a b : BitVec 5), s.me.attempt = none → s.me.task.portable = false →
    let xa := s.me.getX a
    let xb := s.me.getX b
    let q := s.quad s.myQuad
    let n := xa.toNat / 2 ^ 56
    let off := xa.toNat % 2 ^ 32
    let sz := xa.toNat / 2 ^ 32 % 2 ^ 24
    let overlap := (∃ e ∈ q.tiles, off < e.2.off + e.2.size ∧ e.2.off < off + sz) ∨
      ∃ e ∈ q.rings, off < e.2.base + e.2.count * e.2.size ∧ e.2.base < off + sz
    let bad := off % 64 ≠ 0 ∨ sz % 64 ≠ 0 ∨ off < q.xbound.toNat ∨ capacity s.myLayer < off + sz
    ∃ t : State, exec (.tacq sb d a b) s = .next t ∧
      let status (w : Word) : Prop := givesX s t d w
      let becomes (q' : Quad) : Prop := t.quad s.myQuad = q' ∧ (∀ j, j ≠ s.myQuad → t.quad j = s.quad j) ∧ onlyWakes s t ∧
        xGiven s.me t.me d 0 ∧ goesOn s.me t.me
      (63 < n → status 2) ∧
      (n ≤ 63 → sz = 0 → q.tile? n = none → status 5) ∧
      (n ≤ 63 → sz = 0 → ∀ e, q.tile? n = some e → e.st = .filling ∨ e.st = .draining → status 1) ∧
      (n ≤ 63 → sz = 0 → ∀ e, q.tile? n = some e → e.st = .empty ∨ e.st = .ready →
        becomes { q with tiles := q.tiles.filter fun x => x.1 != n }) ∧
      (n ≤ 63 → sz ≠ 0 → q.tile? n ≠ none → status 1) ∧
      (n ≤ 63 → sz ≠ 0 → q.tile? n = none → bad → status 2) ∧
      (n ≤ 63 → sz ≠ 0 → q.tile? n = none → ¬ bad → overlap → status 3) ∧
      (n ≤ 63 → sz ≠ 0 → q.tile? n = none → ¬ bad → ¬ overlap → xb ≠ 0 → xb ≠ 2 → status 4) ∧
      (n ≤ 63 → sz ≠ 0 → q.tile? n = none → ¬ bad → ¬ overlap → xb = 0 →
        becomes { q with tiles := q.tiles.put n { off, size := sz, st := .empty } }) ∧
      (n ≤ 63 → sz ≠ 0 → q.tile? n = none → ¬ bad → ¬ overlap → xb = 2 →
        becomes { q with tiles := q.tiles.put n { off, size := sz, st := .ready } })

/-- R166, R168, R173: trdy, tdrain and tfree make their transitions, rpush and rpop move the ring, where the state that each waits for
holds and no earlier access holds it up.
R164, R170, R171, R175: the forms that tstat and rstat write, with WAIT 0 or a wait that is met, in a task that is not portable. -/
def Obligations.TileAndRingMoves : Prop :=
  (∀ (s : State) (sb : Bool) (a b : BitVec 5), s.me.attempt = none → s.me.task.portable = false →
     (∀ o ∈ s.me.outs, o.pending = false) →
     let q := s.quad s.myQuad
     let n := (s.me.getX a).toNat % 64
     let i := (s.me.getX a).toNat % 8
     let m := (s.me.getX b).toNat
     let becomes (i : Instr) (q' : Quad) : Prop := ∃ t : State, exec i s = .next t ∧ changesQuad s t q'
     (∀ e, q.tile? n = some e → e.st = .empty →
       becomes (.trdy sb a) { q with tiles := q.tiles.put n { e with st := .ready, eng := false } }) ∧
     (∀ e, q.tile? n = some e → e.st = .ready →
       becomes (.tdrain sb a) { q with tiles := q.tiles.put n { e with st := .draining, eng := false } }) ∧
     (∀ e, q.tile? n = some e → e.st = .draining → e.eng = false →
       becomes (.tfree sb a) { q with tiles := q.tiles.put n { e with st := .empty, eng := false } }) ∧
     (∀ r, q.ring? i = some r → 0 < m → r.res = 0 → r.occ + m ≤ r.count →
       becomes (.rpush sb a b) { q with rings := q.rings.put i { r with occ := r.occ + m } }) ∧
     (∀ r, q.ring? i = some r → m = 0 → ∃ t : State, exec (.rpush sb a b) s = .next t ∧ givesNothing s t) ∧
     (∀ r, q.ring? i = some r → r.clm = 0 → 1 ≤ r.occ →
       becomes (.rpop sb a) { q with rings := q.rings.put i { r with head := (r.head + 1) % r.count, occ := r.occ - 1 } })) ∧
  (∀ (s : State) (sb : Bool) (d a : BitVec 5), s.me.task.portable = false →
     let xa := s.me.getX a
     let q := s.quad s.myQuad
     let tile := q.tile? (xa.toNat % 64)
     let ring := q.ring? (xa.toNat % 8)
     let code (st : TileState) : Nat := match st with | .empty => 0 | .filling => 1 | .ready => 2 | .draining => 3
     let tileForm : Nat := match tile with
       | none => 0
       | some e => e.size * 2 ^ 32 + e.off * 2 ^ 8 + (if e.eng then 2 ^ 3 else 0) + 2 ^ 2 + code e.st
     let ringForm : Nat := match ring with
       | none => 0
       | some r => 2 ^ 63 + r.occ * 2 ^ 50 + (r.base + (r.head + r.occ) % r.count % r.count * r.size) * 2 ^ 22 +
           (r.base + r.head % r.count * r.size)
     let tileMet := ∃ e, tile = some e ∧ code e.st = xa.toNat / 2 ^ 9 % 4
     let ringMet := ∃ r, ring = some r ∧ (if xa.getLsbD 9 then r.occ + r.res < r.count else r.clm < r.occ)
     (xa.getLsbD 8 = false ∨ tileMet → ∃ t : State, exec (.tstat sb d a) s = .next t ∧ givesX s t d (BitVec.ofNat 64 tileForm)) ∧
     (xa.getLsbD 8 = false ∨ ringMet → ∃ t : State, exec (.rstat sb d a) s = .next t ∧ givesX s t d (BitVec.ofNat 64 ringForm)))

/-- R172: rset binds a ring with H 0, OCC xb, RES and CLM 0, and releases one; where the rule names an access fault it traps with
cause 0x03 and TVAL xa. -/
def Obligations.RingSet : Prop :=
  ∀ (s : State) (sb : Bool) (a b : BitVec 5), s.me.attempt = none → s.me.task.portable = false →
    let xa := s.me.getX a
    let xb := (s.me.getX b).toNat
    let q := s.quad s.myQuad
    let n := xa.toNat / 2 ^ 56
    let base := xa.toNat % 2 ^ 32
    let size := 64 * (xa.toNat / 2 ^ 32 % 2 ^ 16)
    let count := xa.toNat / 2 ^ 48 % 2 ^ 8
    let idle := ∀ r, q.ring? n = some r → r.res = 0 ∧ r.clm = 0
    let overlap := (∃ e ∈ q.tiles, base < e.2.off + e.2.size ∧ e.2.off < base + count * size) ∨
      ∃ e ∈ q.rings, base < e.2.base + e.2.count * e.2.size ∧ e.2.base < base + count * size
    let bad := (q.ring? n).isSome = true ∨ count < 2 ∨ 64 < count ∨ base % 64 ≠ 0 ∨ base < q.xbound.toNat ∨
      capacity s.myLayer < base + count * size ∨ overlap ∨ count < xb
    let faults : Prop := ∃ t : State, exec (.rset sb a b) s = .next t ∧ entersTrap s t 0x03 xa
    (takesTraps s.me → 7 < n → faults) ∧
    (takesTraps s.me → n ≤ 7 → idle → size ≠ 0 → bad → faults) ∧
    (n ≤ 7 → idle → size ≠ 0 → ¬ bad → ∃ t : State, exec (.rset sb a b) s = .next t ∧
      changesQuad s t { q with rings := q.rings.put n { base, size, count, head := 0, occ := xb, res := 0, clm := 0 } }) ∧
    (n ≤ 7 → idle → size = 0 → (q.ring? n).isSome = true → ∃ t : State, exec (.rset sb a b) s = .next t ∧
      changesQuad s t { q with rings := q.rings.filter fun e => e.1 != n }) ∧
    (n ≤ 7 → size = 0 → q.ring? n = none → ∃ t : State, exec (.rset sb a b) s = .next t ∧ givesNothing s t)


/-! ### Atomics and triggers (11_atomics) -/

/-- R271, R274 to R281: an atomic whose operand is granted issues with its result outstanding for xd, with its operands as read at issue
and its order. HOME_ATOMIC_APPLY then acts on the operand in one step: it writes what the operation gives, and no other byte,
and answers the old operand, with the conditions of a floating sum and with the carry of a cadd. That the enables which those conditions
are judged by are the ones carried with the request, as of issue, is the model's choice (log 54): R271 says only that RM is carried.
Which step comes, and the form of its arguments, are the model's (log 1). -/
def Obligations.AtomicsIssueAndApply : Prop :=
  (∀ (s : State) (sb : Bool) (d a b c : BitVec 5) (o : BitVec 2) (w : BitVec 1), s.me.attempt = none →
    let bytes := if w = 0 then 8 else 4
    let acq := o.getLsbD 0
    let rel := o.getLsbD 1
    let xa := s.me.getX a
    let xb := s.me.getX b
    let issues (i : Instr) (op : AmoOp) (n : Nat) (xc : Word) (acq rel : Bool) : Prop :=
      ∀ r s', checkAtomic s s.cur .atomic xa n = (.ok r, s') →
        ∃ (t : State) (u : Out), exec i s = .next t ∧ onlyTlb s s' ∧ issuesOut s' t u ∧ u.op = .amo r op n d xb xc s.me.ctl.fpctl xa ∧
          u.acq = acq ∧ u.rel = rel ∧ u.ans = none ∧ u.dsts = (if d = 0 then [] else [.x d])
    issues (.amoAdd sb d a b o w) .add bytes 0 acq rel ∧ issues (.amoAnd sb d a b o w) .and bytes 0 acq rel ∧
    issues (.amoOr sb d a b o w) .or bytes 0 acq rel ∧ issues (.amoXor sb d a b o w) .xor bytes 0 acq rel ∧
    issues (.amoMin sb d a b o w) .min bytes 0 acq rel ∧ issues (.amoMax sb d a b o w) .max bytes 0 acq rel ∧
    issues (.amoMinz sb d a b o w) .minz bytes 0 acq rel ∧ issues (.amoMaxz sb d a b o w) .maxz bytes 0 acq rel ∧
    issues (.amoSwap sb d a b o w) .swap bytes 0 acq rel ∧ issues (.amoFadd sb d a b o w) .fadd bytes 0 acq rel ∧
    issues (.amoCas sb d a b c o w) .cas bytes (s.me.getX c) acq rel ∧
    issues (.cadd sb d a b) .cadd 8 0 false false ∧ issues (.caddRel sb d a b) .cadd 8 0 false true ∧
    issues (.grab sb d a b) .grab 16 0 false false) ∧
  ∀ (s : State) (k seq : Nat) (o : Out) (r : Ref) (op : AmoOp) (n : Nat) (d : BitVec 5) (b c f va : Word),
    s.ev = [k, seq] → (s.ctx k).out seq = some o → o.op = .amo r op n d b c f va → o.ans = none → o.pure = false →
    (s.ctx k).mayPerform o = true → (s.ctx k).status ≠ .ending → r.isLocal = false → s.recordings = [] →
    let res := amoApply op n b c f (natOfBytes (s.gread r.addr n))
    let cells := match res.write with | none => [] | some v => cellsOf r res.bytes v
    let raised : Deferred := { cond := BitVec.ofNat 64 res.cond, lane := 0, addr := o.pc, seq := o.seq, en := f.toNat / 2 ^ 12 % 2 ^ 5 }
    let answer : Ans :=
      { writes := [.x d res.x], fp := if res.cond = 0 then none else some raised, carry := if res.carry = true then some va else none }
    s.mayWriteCells k cells = true →
    ∃ t : State, exec .homeAtomicApply s = .next t ∧ writesCells s t k cells ∧ (t.ctx k).regs = (s.ctx k).regs ∧
      (t.ctx k).out seq = some { o with ans := some answer }

/-- R274 to R276, R278, R281: what each operation writes and answers, for an operand of n bits (64, or 32 for .w) and the low n bits of
xb; amo.fadd writes the sum rounded in FP64 or FP32 by the request's RM, raises its conditions, and answers the old bits; a cadd past 2^64 and a failed cas write nothing; the carry of the former goes to the context. -/
def Obligations.AtomicOperations : Prop :=
  ∀ (b c f : Word) (old : Nat) (wide : Bool),
    let bytes := if wide then 8 else 4
    let n := 8 * bytes
    old < 2 ^ n →
    let v := b.toNat % 2 ^ n
    let signed (x : Nat) : Int := if x < 2 ^ (n - 1) then (x : Int) else x - 2 ^ n
    let does (op : AmoOp) (new : Nat) : Prop := (amoApply op bytes b c f old).write = some new ∧
      (amoApply op bytes b c f old).bytes = bytes ∧ (amoApply op bytes b c f old).cond = 0 ∧
      (amoApply op bytes b c f old).carry = false
    let answersSigned (op : AmoOp) : Prop := (amoApply op bytes b c f old).x = BitVec.ofInt 64 (signed old)
    let answersPlain (op : AmoOp) : Prop := (amoApply op bytes b c f old).x = BitVec.ofNat 64 old
    does .add ((old + v) % 2 ^ n) ∧ does .and (old &&& v) ∧ does .or (old ||| v) ∧ does .xor (old ^^^ v) ∧
    does .min (if signed v < signed old then v else old) ∧ does .max (if signed v > signed old then v else old) ∧
    does .minz (min old v) ∧ does .maxz (max old v) ∧ does .swap v ∧
    answersSigned .add ∧ answersSigned .and ∧ answersSigned .or ∧ answersSigned .xor ∧ answersSigned .min ∧
    answersSigned .max ∧ answersSigned .swap ∧ answersSigned .cas ∧ answersPlain .minz ∧ answersPlain .maxz ∧
    (amoApply .cas bytes b c f old).write = (if old = v then some (c.toNat % 2 ^ n) else none) ∧
    (let fmt : Fmt := if wide then .f64 else .f32
     let rm := f.toNat % 2 ^ 2
     let sum := (fmt.value false old).add rm (fmt.value false v)
     let rounded := fmt.round false rm (f.getLsbD 13) sum.1
     (amoApply .fadd bytes b c f old).write = some rounded.1 ∧ (amoApply .fadd bytes b c f old).bytes = bytes ∧
     (amoApply .fadd bytes b c f old).cond = sum.2 ||| rounded.2 ∧ (amoApply .fadd bytes b c f old).carry = false ∧ answersPlain .fadd) ∧
    (wide = true →
      let m := b.toNat % 2 ^ 32
      answersPlain .cadd ∧
      (old + m < 2 ^ 64 → (amoApply .cadd 8 b c f old).write = some (old + m) ∧ (amoApply .cadd 8 b c f old).carry = false) ∧
      (2 ^ 64 ≤ old + m → (amoApply .cadd 8 b c f old).write = none ∧ (amoApply .cadd 8 b c f old).carry = true)) ∧
    (∀ next last : Nat, next < 2 ^ 64 → last < 2 ^ 64 →
      let least := max (b.toNat % 2 ^ 32) 1
      let div := max (b.toNat / 2 ^ 32 % 2 ^ 16) 1
      let rem := if next < last then last - next else 0
      let share := (rem + div - 1) / div
      let size := min (min (max least share) rem) (2 ^ 24 - 1)
      let r := amoApply .grab 16 b c f (next + 2 ^ 64 * last)
      r.bytes = 8 ∧ r.write = (if size = 0 then none else some (next + size)) ∧
      r.x = BitVec.ofNat 64 (size * 2 ^ 40 + next % 2 ^ 40))

/-- R283, R284, R285, R288: an arm whose addresses are granted issues with the entry that its record describes, or answers 3 with the
reason of the limit that the record breaks; a disarm issues with its handle. At the counter's home the arm answers FIRED (1)
and its message waits to be sent, where the counter has reached the threshold; FULL (2) where the partition's 256 slots are
taken; else ARMED with the lowest free slot and the partition's SERIAL. A disarm takes the entry away and answers 0, or 1 where
there is none. No byte of memory changes.
Which step comes, and the form of its arguments, are the model's (log 1). -/
def Obligations.ArmAndDisarm : Prop :=
  (∀ (s : State) (sb : Bool) (d a b c : BitVec 5), s.me.attempt = none → s.me.outs = [] →
    let xa := s.me.getX a
    let xb := s.me.getX b
    let xc := s.me.getX c
    (∀ s1 r s2 rr s3, precheck s s.cur [{ a := xa, align := 8, globalOnly := true }, { a := xc, align := 64 }] = (none, s1) →
      checkAtomic s1 s.cur .load xa 8 = (.ok r, s2) → checkAccess s2 s.cur .load xc 64 64 = (.ok rr, s3) → onlyTlb s s3 ∧
      let f := RecFields.of ((rr.span 64).map (s3.readByte s.myQuad false))
      let bad := f.entry % 4 ≠ 0 ∨ 3 < f.pri ∨ 6 < f.argc ∨ f.zero ≠ 0 ∨ f.tag.toNat / 2 ^ 44 ≠ 0
      let refuses (n : Nat) : Prop := ∃ (t : State) (o : Out), exec (.arm sb d a b c) s = .next t ∧ issuesOut s3 t o ∧ o.op = .value ∧
        o.ans = some { writes := [.x d (BitVec.ofNat 64 (3 + 256 * n))] }
      (bad → refuses 1) ∧ (¬ bad → destExists s3 f.tag = false → refuses 2) ∧
      (¬ bad → destExists s3 f.tag = true → destAllowed s3 (quarterOf s.myQuad) f.tag = false → refuses 3) ∧
      (¬ bad → destExists s3 f.tag = true → destAllowed s3 (quarterOf s.myQuad) f.tag = true →
        ∃ (t : State) (o : Out), exec (.arm sb d a b c) s = .next t ∧ issuesOut s3 t o ∧ o.rel = true ∧
          o.op = .arm r d { addr := r.addr, threshold := xb, entry := word f.entry, pri := f.pri, dest := f.tag
                            args := f.argsUsed, nxm := s.me.nxm, pasid := s.me.ctl.pasid, part := s.partNo s.cur, slot := 0
                            serial := 0 })) ∧
    (∀ r s', checkAtomic s s.cur .load xa 8 = (.ok r, s') →
      ∃ (t : State) (o : Out), exec (.disarm sb d a b) s = .next t ∧ onlyTlb s s' ∧ issuesOut s' t o ∧ o.op = .disarm r d xb)) ∧
  ∀ (s : State) (k seq : Nat) (o : Out) (r : Ref) (d : BitVec 5), s.ev = [k, seq] → (s.ctx k).out seq = some o →
    o.ans = none → o.pure = false → (s.ctx k).mayPerform o = true → (s.ctx k).status ≠ .ending → s.recordings = [] →
    let sl := s.slice r.home
    let answered (t : State) (w : Word) : Prop :=
      sameMem s t ∧ (t.ctx k).out seq = some { o with ans := some { writes := [.x d w] } }
    (∀ e : Trigger, o.op = .arm r d e →
      let v : Word := BitVec.ofNat 64 (natOfBytes (s.gread r.addr 8))
      let held (i : Nat) : Prop := ∃ x ∈ sl.triggers, x.part = e.part ∧ x.slot = i
      (0 ≤ (v - e.threshold).toInt → ∃ t : State, exec .homeArmApply s = .next t ∧ answered t 1 ∧
        (t.slice r.home).fired = sl.fired ++ [{ msg := triggerMsg s r.home e v }]) ∧
      ((v - e.threshold).toInt < 0 → (∀ i, i < 256 → held i) → ∃ t : State, exec .homeArmApply s = .next t ∧ answered t 2 ∧
        t.slice r.home = sl) ∧
      (∀ i, i < 256 → (v - e.threshold).toInt < 0 → ¬ held i → (∀ j, j < i → held j) →
        let serial := sl.serials.get 0 e.part
        ∃ t : State, exec .homeArmApply s = .next t ∧ answered t (BitVec.ofNat 64 (serial * 2 ^ 40 + i * 2 ^ 32)) ∧
          (t.slice r.home).triggers = sl.triggers ++ [{ e with slot := i, serial }] ∧
          (t.slice r.home).serials.get 0 e.part = (serial + 1) % 2 ^ 16)) ∧
    (∀ h : Word, o.op = .disarm r d h →
      let names (x : Trigger) : Prop := x.part = s.partNo k ∧ x.slot = h.toNat / 2 ^ 32 % 2 ^ 8 ∧
        x.serial = h.toNat / 2 ^ 40 % 2 ^ 16 ∧ x.addr = r.addr
      ((∃ x ∈ sl.triggers, names x) → ∃ t : State, exec .homeDisarmApply s = .next t ∧ answered t 0 ∧
        ∀ x, x ∈ (t.slice r.home).triggers ↔ x ∈ sl.triggers ∧ ¬ names x) ∧
      ((¬ ∃ x ∈ sl.triggers, names x) → ∃ t : State, exec .homeDisarmApply s = .next t ∧ answered t 1 ∧ t.slice r.home = sl))

/-- R212, R285, R286: the message of a fired trigger that no earlier one to the same core holds back is sent once; accepted, it is done;
refused, it stays to be sent again; answered FAULT, it is done and a record of kind 4 goes to the command processor.
Which step comes, and the form of its arguments, are the model's (log 1).
That a trigger under teardown leaves no record is the model's reading (log 52). -/
def Obligations.TriggerMessages : Prop :=
  ∀ (s : State) (h i : Nat) (f : Fired), (s.slice h).fired[i]? = some f →
    (s.ev = [h] → nextFired [] (s.slice h).fired = some i → ∃ t : State, exec .triggerMessageSend s = .next t ∧
      t.net = s.net ++ [f.msg] ∧ (t.slice h).fired[i]? = some { f with sent := true } ∧ t.ctxs = s.ctxs ∧ sameMem s t) ∧
    (s.ev = [h, i] → f.refused = true → ∃ t : State, exec .triggerResend s = .next t ∧ t.net = s.net ++ [f.msg] ∧
      (t.slice h).fired[i]? = some { f with refused := false } ∧ t.ctxs = s.ctxs ∧ sameMem s t) ∧
    (∀ m w, s.ev = [h, i] → s.net.find? (fun m => f.msg.isMsg m) = some m → m.answer = some w →
      ∃ t : State, exec .triggerMessageStatus s = .next t ∧ t.net = s.net.erase m ∧ t.ctxs = s.ctxs ∧ sameMem s t ∧
        (w.toNat % 4 = 0 → (t.slice h).fired = (s.slice h).fired.eraseIdx i ∧ t.cp = s.cp) ∧
        (w.toNat % 4 = 1 → (t.slice h).fired[i]? = some { f with refused := true } ∧ t.cp = s.cp) ∧
        (w.toNat % 4 = 2 → (t.slice h).fired = (s.slice h).fired.eraseIdx i ∧
          ((w.toNat / 2 ^ 8 % 2 ^ 8 ≠ 2 ∨ f.torn = false) →
            ∃ r, t.cp.waiting = s.cp.waiting ++ [r] ∧ r.kind = 4 ∧ r.pasid = f.msg.pasid ∧ r.va = word f.msg.counter)))

/-! ### Waiting and barriers (12_waiting) -/

/-- R279, R310, R311, R312: waitge issues and waits at its counter's home, where its value is answered once it has reached xb and a jack
stands for it, and it is to be tested again at each later write of its line, before; barr issues an add of 1 with release and opens the context's fuzzy region, a second one on the same
counter traps with cause 0x0B; bwait goes on once the counter has reached xb and sleeps with a jack before.
Which step comes, and the form of its arguments, are the model's (log 1). -/
def Obligations.CountersAndBarriers : Prop :=
  (∀ (s : State) (sb : Bool) (d a b : BitVec 5) (r : Ref), s.me.attempt = none → isHandler s.cur = false →
    let xa := s.me.getX a
    let xb := s.me.getX b
    (∀ s', checkAtomic s s.cur .load xa 8 = (.ok r, s') → ∃ (t : State) (o : Out), exec (.waitge sb d a b) s = .next t ∧ onlyTlb s s' ∧
      issuesOut s' t o ∧ o.op = .waitge r d xb ∧ o.acq = true ∧ o.dsts = (if d = 0 then [] else [.x d]) ∧ o.ans = none) ∧
    (∀ s', checkAtomic s s.cur .atomic xa 8 = (.ok r, s') → s.me.fuzzy ≠ some xa →
      ∃ (t : State) (o : Out), exec (.barr sb d a) s = .next t ∧ onlyTlb s s' ∧ o.op = .amo r .cadd 8 d 1 0 s.me.ctl.fpctl xa ∧ o.rel = true ∧
        o.dsts = (if d = 0 then [] else [.x d]) ∧ o.ans = none ∧ t.me.outs = s.me.outs ++ [o] ∧ t.me.fuzzy = some xa ∧ sameMem s t ∧
        t.me.regs = s.me.regs ∧ goesOn s.me t.me) ∧
    (∀ s', checkAtomic s s.cur .atomic xa 8 = (.ok r, s') → s.me.fuzzy = some xa → takesTraps s.me →
      ∃ t : State, exec (.barr sb d a) s = .next t ∧ entersTrap s' t 0x0B xa) ∧
    (∀ s', checkAtomic s s.cur .load xa 8 = (.ok r, s') → s.me.outs = [] →
      let v : Word := BitVec.ofNat 64 (natOfBytes (s.gread r.addr 8))
      (0 ≤ (v - xb).toInt → ∃ t : State, exec (.bwait sb a b) s = .next t ∧ sameMem s t ∧ sameRegs s.me t.me ∧ goesOn s.me t.me ∧
        t.me.fuzzy = (if s.me.fuzzy = some xa then none else s.me.fuzzy) ∧ t.me.status = s.me.status) ∧
      ((v - xb).toInt < 0 → ∃ t : State, exec (.bwait sb a b) s = .next t ∧ sameMem s t ∧ t.me.status = .sleeping [] ∧
        t.me.pc = s.me.pc ∧ t.me.regs = s.me.regs ∧
        ((r.addr / 128, s.cur) ∈ (t.slice r.home).jacks ∨ s.cur ∈ (t.slice r.home).overflow)))) ∧
  ∀ (s : State) (k seq : Nat) (o : Out) (r : Ref) (d : BitVec 5) (b : Word), s.ev = [k, seq] → (s.ctx k).out seq = some o →
    o.op = .waitge r d b → r.isLocal = false → o.ans = none → (s.ctx k).halted = false → (s.ctx k).status ≠ .ending →
    (s.ctx k).mayPerform o = true →
    let v : Word := BitVec.ofNat 64 (natOfBytes (s.gread r.addr 8))
    (0 ≤ (v - b).toInt → ∃ t : State, exec .homeWaitgeEval s = .next t ∧ sameMem s t ∧
      (t.ctx k).out seq = some { o with ans := some { writes := [.x d v] } }) ∧
    ((v - b).toInt < 0 → ∃ t : State, exec .homeWaitgeEval s = .next t ∧ sameMem s t ∧ (t.ctx k).out seq = some { o with tested := true } ∧
      ((r.addr / 128, k) ∈ (t.slice r.home).jacks ∨ k ∈ (t.slice r.home).overflow))

/-- R292, R293, R294, R301, R302: the outermost tbegin of a context with nothing pending opens an attempt whose checkpoint holds xd = 0,
an inner one a further level; an inner tend merges its level into the one around it; the outermost tend performs every write of
the attempt at one point and closes it; otherwise goes to its level's tend; tstat.x reports. -/
def Obligations.AttemptsOpenAndClose : Prop :=
  ∀ (s : State) (sb : Bool) (d : BitVec 5),
    let c := s.me
    let k0 : Ctx := c.setX d 0
    let level : Level := { tbpc := c.pc, branchPc := c.pc, ck := k0.snap }
    (c.attempt = none → c.preempted = none → c.outs = [] → (∀ r, c.series = some r → r.count < 7) →
      ∃ t : State, exec (.tbegin sb d) s = .next t ∧ sameMem s t ∧ xGiven c t.me d 0 ∧ goesOn c t.me ∧ t.me.ctl = c.ctl ∧
        t.me.attempt = some { levels := [level], xd := d, stamp := match c.series with | some r => r.stamp | none => s.now }) ∧
    (∀ a, c.attempt = some a → a.levels.length < 4 →
      ∃ t : State, exec (.tbegin sb d) s = .next t ∧ sameMem s t ∧ xGiven c t.me d 0 ∧ goesOn c t.me ∧
        t.me.attempt = some { a with levels := level :: a.levels }) ∧
    (∀ a l up rest, c.attempt = some a → a.levels = l :: up :: rest →
      ∃ t : State, exec (.tend sb) s = .next t ∧ onlyMe s t ∧ sameRegs c t.me ∧ goesOn c t.me ∧
        t.me.attempt = some { a with levels :=
          { up with reads := l.reads ++ up.reads, writes := l.writes ++ up.writes, buf := l.buf ++ up.buf } :: rest }) ∧
    (∀ a l, c.attempt = some a → a.levels = [l] → a.irrevocable = false → s.recordings = [] →
      let cells := (l.buf.map fun w => (w.r, w.b)).reverse
      s.mayWriteCells s.cur cells = true →
      ∃ t : State, exec (.tend sb) s = .next t ∧ writesCells s t s.cur (s.served cells) ∧ t.me.regs = c.regs ∧ t.me.attempt = none ∧
        t.me.series = none ∧ goesOn c t.me) ∧
    (∀ a addr, c.attempt = some a → scan s s.myQuad c.pc true = .tend addr →
      ∃ t : State, exec (.otherwise sb) s = .next t ∧ jumps s t (word addr)) ∧
    (let confl := match c.series with | some r => r.count | none => 0
     let form : Nat := match c.attempt with
       | none => confl * 2 ^ 8
       | some a => (if a.unprot then 2 ^ 31 else 0) + a.writeCount * 2 ^ 24 + a.readCount * 2 ^ 16 + confl * 2 ^ 8 +
           (if (a.levels.head?.map (·.alt)) = some true then 2 ^ 4 else 0) + (if a.irrevocable then 2 ^ 3 else 0) + a.levels.length
     ∃ t : State, exec (.tstatX sb d) s = .next t ∧ givesX s t d (BitVec.ofNat 64 form))

/-- R295, R296, R300, R304, R305, R308: tabort discards the attempt: the registers of the outermost checkpoint come back but for the v
registers, the outermost xd takes the status, the context goes on after the tend, and no byte of memory changes; retry goes to the
next alternative with the checkpoint's registers, or sleeps where there is none; a context that backs off runs again, the
token goes to the first waiter, a sleeper that has been woken runs again, but not while one that went to sleep earlier on the same entry
is to wake, or has woken and not issued yet (log 64).
Which step comes, and the form of its arguments, are the model's (log 1).
That results outstanding at an abort are dropped is the model's choice (log 16). -/
def Obligations.AttemptsAbortAndWake : Prop :=
  (∀ (s : State) (sb : Bool) (code : BitVec 8) (a : Attempt) (l : Level), s.me.attempt = some a → a.irrevocable = false →
    s.me.outs = [] → s.me.later = [] →
    (∀ addr, a.levels.getLast? = some l → scan s s.myQuad l.tbpc true = .tend addr →
      let confl := match s.me.series with | some r => min 7 r.count | none => 0
      ∃ t : State, exec (.tabort sb code) s = .next t ∧ sameMem s t ∧ t.me.attempt = none ∧ t.me.series = none ∧
        (a.xd ≠ 0 → t.me.getX a.xd =
          BitVec.ofNat 64 (a.levels.length * 2 ^ 24 + confl * 2 ^ 16 + code.toNat * 2 ^ 8 + 6)) ∧
        (∀ r, r ≠ a.xd → t.me.getX r = ({ s.me with regs := l.ck.regs } : Ctx).getX r) ∧
        (∀ r, t.me.getV r = s.me.getV r) ∧ (∀ r, t.me.getK r = ({ s.me with regs := l.ck.regs } : Ctx).getK r) ∧
        t.me.ctl = s.me.ctl ∧
        (l.ck.lp0.act = false → l.ck.lp1.act = false → t.me.pc = word addr + 4)) ∧
    (∀ rest o, a.levels = l :: rest → scan s s.myQuad l.branchPc false = .alt o →
      ∃ t : State, exec (.retry sb) s = .next t ∧ onlyMe s t ∧ t.me.pc = word (o + 4) ∧ (∀ r, t.me.getV r = s.me.getV r) ∧
        (∀ r, t.me.getX r = ({ s.me with regs := l.ck.regs } : Ctx).getX r) ∧
        ∃ b, t.me.attempt = some b ∧ b.levels = { l with writes := [], buf := [], branchPc := word o, alt := true } :: rest) ∧
    (∀ o, a.levels = [l] → scan s s.myQuad l.branchPc false = .tend o → isHandler s.cur = false → s.me.wake = false →
      ∃ t : State, exec (.retry sb) s = .next t ∧ sameMem s t ∧ t.me.status = .sleeping a.extra ∧ t.me.pc = l.tbpc ∧
        t.me.attempt = none ∧ ∀ r, t.me.getX r = ({ s.me with regs := l.ck.regs } : Ctx).getX r)) ∧
  (∀ (s : State) (k : Nat), s.ev = [k] → (s.ctx k).status = .backoff →
    ∃ t : State, exec .conflictBackoffExpiry s = .next t ∧ sameMem s t ∧ t.ctx k = { s.ctx k with status := .running, opens := true } ∧
      ∀ j, j ≠ k → t.ctx j = s.ctx j) ∧
  (∀ (s : State) (q k : Nat) (rest : List Nat), s.ev = [q] → (s.quarter q).token = none → (s.quarter q).waiters = k :: rest →
    ∃ t : State, exec .tokenGrant s = .next t ∧ sameMem s t ∧ (t.quarter q).token = some k ∧ (t.quarter q).waiters = rest ∧
      ((s.ctx k).status = .token → t.ctx k = { s.ctx k with status := .running }) ∧ ∀ j, j ≠ k → t.ctx j = s.ctx j) ∧
  (∀ (s : State) (k : Nat) (w : List WaitOn), s.ev = [k] → (s.ctx k).status = .sleeping w → (s.ctx k).wake = true →
    (s.ctx k).halted = false →
    ((∃ e ∈ s.ctxs, wakesBefore s e.1 k e.2 (s.ctx k) = true) → exec .contextWake s = .next s) ∧
    ((∀ e ∈ s.ctxs, wakesBefore s e.1 k e.2 (s.ctx k) = false) →
      ∃ t : State, exec .contextWake s = .next t ∧ sameMem s t ∧ t.agenda = s.agenda ∧
        t.ctx k = { s.ctx k with status := .running, wake := false, jacks := [], woke := w } ∧ ∀ j, j ≠ k → t.ctx j = s.ctx j))

/-! ### Tasks, messages and queues (09_tasks) -/

/-- R105, R205, R211, R216, R217, R232: spawn enqueues the record that it reads, at its core; halt and tail free their context, halt.k
records its retention; taskid and ident write their words; yield moves the round-robin pointer past its context. -/
def Obligations.TasksStartAndEnd : Prop :=
  ∀ (s : State) (sb : Bool) (d a b : BitVec 5), s.me.attempt = none → s.me.outs = [] →
    let core := s.myCore
    (∀ r s', checkAccess s s.cur .load (s.me.getX a) 64 64 = (.ok r, s') →
      let f := RecFields.of ((r.span 64).map (s'.readByte s.myQuad false))
      f.ok = true → queueHasRoom (s.core core).queue.length f.pri = true →
      ∃ t : State, exec (.spawn sb a) s = .next t ∧ sameMem s t ∧ sameRegs s.me t.me ∧ goesOn s.me t.me ∧
        (t.core core).queue = (s.core core).queue ++
          [{ entry := word f.entry, pri := f.pri, flags := f.flags, x3 := f.tag, args := f.argsUsed, nxm := s.me.nxm
             pasid := s.me.ctl.pasid, src := 1 }]) ∧
    (isHandler s.cur = false → ∃ t : State, exec (.halt sb) s = .next t ∧ t.me.status = .free ∧ t.me.outs = [] ∧ t.me.regs = s.me.regs ∧
      s.mem = t.mem ∧ t.core core = s.core core) ∧
    (isHandler s.cur = false → ∃ t : State, exec (.haltK sb a b) s = .next t ∧ t.me.status = .free ∧ s.mem = t.mem ∧
      (t.core core).retain = some (s.me.getX a &&& fieldMask (bankCount s.myLayer) 0, s.me.getX b)) ∧
    (isHandler s.cur = false → (s.core core).tracker.length < 8 →
      ∃ t : State, exec (.tail sb) s = .next t ∧ t.me.status = .free ∧ s.mem = t.mem ∧ t.core core = s.core core) ∧
    (let occ := (s.core core).queue.length
     let f := s.me.task
     let form : Nat := if isHandler s.cur then occ * 2 ^ 36 + 3 * 2 ^ 34 + 7 * 2 ^ 30
       else occ * 2 ^ 36 + f.pri * 2 ^ 34 + (if f.stolen then 2 ^ 33 else 0) + f.src * 2 ^ 30 + s.cur % 8 * 2 ^ 28 + f.seq
     ∃ t : State, exec (.taskid sb d) s = .next t ∧ givesX s t d (BitVec.ofNat 64 form)) ∧
    (let position : Nat := s.module * 2 ^ 32 + (if isHandler s.cur then 2 ^ 18 else s.cur % 8 * 2 ^ 19) + quarterOf s.myQuad * 2 ^ 14 + core
     ∃ t : State, exec (.ident sb d) s = .next t ∧ givesX s t d (BitVec.ofNat 64 position)) ∧
    (∃ t : State, exec (.yield sb) s = .next t ∧ (t.core core).rr = s.cur % 8 + 1 ∧ sameMem s t ∧ sameRegs s.me t.me ∧ goesOn s.me t.me)

/-- R219, R220, R224, R229: an amsend that the sender's tests pass leaves with its header, descriptor and payload, and its status stays
outstanding for xd; one that they fail answers FAULT with reason 3, 1 or 2, in that order; amreply in a request handler
retires at issue, with nothing changed but that its reply, to the source that the request's header names, has still to leave, as a release. The header gives the sender's module, channel, COUNT, NXM, whether it is a reply,
and the sender's place. -/
def Obligations.MessagesLeave : Prop :=
  ∀ (s : State) (sb : Bool) (d a b : BitVec 5) (n : BitVec 3), s.me.attempt = none → s.me.outs = [] →
    let xa := s.me.getX a
    let xb := s.me.getX b
    let payload := (List.range n.toNat).map fun i => s.me.getX (BitVec.ofNat 5 (4 + i))
    let malformed := xa.toNat / 2 ^ 44 ≠ 0 ∨ xb.toNat / 2 ^ 38 ≠ 0 ∨ xb.getLsbD 35 = true ∨ xb.toNat % 4 ≠ 0
    let faults (r : Nat) : Prop := ∃ (t : State) (o : Out), exec (.amsend sb d a b n) s = .next t ∧ issuesOut s t o ∧ o.op = .value ∧
      o.ans = some { writes := [.x d (BitVec.ofNat 64 (2 + 256 * r))] }
    let plain := ¬ ∃ m : Msg, s.me.msg = some m ∧ m.reply = true
    let place : Nat := (if isHandler s.cur then 2 ^ 18 else s.cur % 8 * 2 ^ 19) + quarterOf s.myQuad * 2 ^ 14 + s.myCore
    let header (reply : Nat) : Word := BitVec.ofNat 64 (s.module * 2 ^ 32 + xb.toNat / 2 ^ 32 % 4 * 2 ^ 27 + n.toNat * 2 ^ 24 +
      (if s.me.ctl.nmode.getLsbD 0 then 2 ^ 23 else 0) + reply * 2 ^ 22) ||| BitVec.ofNat 64 place
    let there := destExists s xa
    let allowed := destAllowed s (quarterOf s.myQuad) xa
    (plain → malformed → faults 3) ∧ (plain → ¬ malformed → there = false → faults 1) ∧
    (plain → ¬ malformed → there = true → allowed = false → faults 2) ∧
    (plain → ¬ malformed → there = true → allowed = true →
      ∃ (t : State) (o : Out) (m : Msg), exec (.amsend sb d a b n) s = .next t ∧ t = { s with ctxs := t.ctxs, net := s.net ++ [m] } ∧
        t.me.outs = [o] ∧ o.op = .send d ∧ o.rel = true ∧ o.dsts = (if d = 0 then [] else [.x d]) ∧ o.ans = none ∧
        t.me.regs = s.me.regs ∧ goesOn s.me t.me ∧ m.header = header 0 ∧ m.nxm = s.me.ctl.nmode.getLsbD 0 ∧ m.reply = false ∧ m.dst = xa.toNat % 2 ^ 14 ∧ m.dstModule = xa.toNat / 2 ^ 32 % 2 ^ 12 ∧
        m.chan = xb.toNat / 2 ^ 32 % 4 ∧ m.isTask = xb.getLsbD 34 ∧ m.pri = xb.toNat / 2 ^ 36 % 4 ∧
        m.entry = BitVec.ofNat 64 (xb.toNat % 2 ^ 32) ∧ m.payload = payload ∧ m.pasid = s.me.ctl.pasid ∧
        m.sender = some (s.cur, s.me.nextSeq) ∧ m.answer = none) ∧
    (∀ req, s.me.msg = some req → req.reply = false → descriptorOk xb = true →
      ∃ (t : State) (o : Out) (m : Msg), exec (.amreply sb b n) s = .next t ∧ issuesOut s t o ∧ o.op = .reply m ∧ o.acq = false ∧
        o.rel = true ∧ o.dsts = [] ∧ o.ans = none ∧ m.reply = true ∧ m.payload = payload ∧
        m.header = header 1 ∧ m.chan = xb.toNat / 2 ^ 32 % 4 ∧ m.entry = BitVec.ofNat 64 (xb.toNat % 2 ^ 32) ∧
        m.nxm = s.me.ctl.nmode.getLsbD 0 ∧ m.pasid = s.me.ctl.pasid ∧ m.isTask = false ∧ m.sender = none ∧ m.answer = none ∧
        m.dst = req.header.toNat % 2 ^ 14 ∧ m.dstModule = req.header.toNat / 2 ^ 32 % 2 ^ 12)

/-- R220, R221, R229: MESSAGE_ARRIVAL. The destination decides, in the rule's order: FAULT 2 for a PASID that its partition does not
hold, REFUSED 3 where the partition does not run, REFUSED 1 for a full mailbox, REFUSED 2 for a full run queue, else the message
or its record stands at the core. The status goes back to the access that waits for it, whose xd it reaches by AMSEND_STATUS_RETURN, or to
the home slice. A reply is decided in the same way, by its mailbox of 4: refused, it stays at its sender to be sent again, and is
counted; else it is done.
R223, R229: a reply leaves, by RESULT_ARRIVAL, once nothing of its handler that precedes it is still to be performed, and not before.
That a message is gone where its access waits no more is the model's reading of R220, R221 and R229, which do not say it (log 46).
Which step comes, and the form of its arguments, are the model's (log 1). -/
def Obligations.MessagesArrive : Prop :=
  (∀ (s : State) (i : Nat) (m : Msg) (p : Nat) (part : Part), s.ev = [i] → s.net[i]? = some m → arrivalReady s i = true →
    s.recordings = [] → s.partFor (quarterOf (quadOfCore m.dst)) = some (p, part) →
    let c := s.core m.dst
    let holds := part.holds m.pasid = true
    let runs := part.mode = .running
    let goes (w : Nat) (t : State) : Prop :=
      (m.sender = none → t.net = s.net.set i { m with answer := some (BitVec.ofNat 64 w) }) ∧
      ∀ k seq, m.sender = some (k, seq) →
        (((s.ctx k).out seq).isSome = true → t.net = s.net.set i { m with answer := some (BitVec.ofNat 64 w) }) ∧
        ((s.ctx k).out seq = none → t.net = s.net.filter fun m => !m.isOf k seq)
    let decided (w : Nat) (c' : Core) : Prop := ∃ t : State, exec .messageArrival s = .next t ∧ sameMem s t ∧ t.ctxs = s.ctxs ∧
      t.core m.dst = c' ∧ goes w t
    let source := m.header.toNat % 2 ^ 14
    let replied (refused : Nat) (left : Bool) (got : List Msg) : Prop :=
      ∃ t : State, exec .messageArrival s = .next t ∧ sameMem s t ∧ t.ctxs = s.ctxs ∧ t.net = s.net.erase m ∧
        (t.core source).refusals = (s.core source).refusals + refused ∧
        (t.core source).sending = (if left = true then (s.core source).sending else (s.core source).sending.erase m) ∧
        (t.core m.dst).replies = c.replies ++ got
    (m.reply = false →
      (¬ holds → decided (2 + 256 * 2) c) ∧
      (holds → ¬ runs → decided (1 + 256 * 3) c) ∧
      (holds → runs → m.isTask = false → c.mbdepth ≤ s.requestOcc m.dst → decided (1 + 256 * 1) c) ∧
      (holds → runs → m.isTask = false → s.requestOcc m.dst < c.mbdepth → decided 0 { c with requests := c.requests ++ [m] }) ∧
      (holds → runs → m.isTask = true → queueHasRoom c.queue.length m.pri = false → decided (1 + 256 * 2) c) ∧
      (holds → runs → m.isTask = true → queueHasRoom c.queue.length m.pri = true → decided 0 { c with queue := c.queue ++
        [{ entry := m.entry, pri := m.pri, flags := 0, x3 := m.header, args := m.payload, nxm := m.nxm, pasid := m.pasid
           src := if m.slice.isSome then 3 else 2 }] })) ∧
    (m.reply = true → (s.ctx (handlerOf source)).status ≠ .ending →
      (¬ holds → replied 0 false []) ∧ (holds → ¬ runs → replied 1 true []) ∧
      (holds → runs → 4 ≤ s.replyOcc m.dst → replied 1 true []) ∧
      (holds → runs → s.replyOcc m.dst < 4 → replied 0 false [m]))) ∧
  (∀ (s : State) (k seq : Nat) (o : Out) (d : BitVec 5) (m : Msg) (w : Word), s.ev = [k, seq] →
    s.net.find? (fun m => m.isOf k seq) = some m → m.answer = some w → (s.ctx k).out seq = some o → o.op = .send d →
    o.ans = none → (s.ctx k).mayPerform o = true → (s.ctx k).status ≠ .ending →
    ∃ t : State, exec .amsendStatusReturn s = .next t ∧ sameMem s t ∧ t.net = s.net.filter (fun m => !m.isOf k seq) ∧
      (t.ctx k).out seq = some { o with ans := some { writes := [.x d w] } }) ∧
  (∀ (s : State) (core i : Nat) (m : Msg), s.ev = [core, i] → (s.core core).sending[i]? = some m → s.net.contains m = false →
    ∃ t : State, exec .replyResend s = .next t ∧ t = { s with net := s.net ++ [m] }) ∧
  ∀ (s : State) (k seq : Nat) (o : Out) (m : Msg), s.ev = [k, seq] → (s.ctx k).out seq = some o → o.op = .reply m → o.ans = none →
    o.pure = false → (s.ctx k).status ≠ .ending →
    ((s.ctx k).mayPerform o = true → ∃ t : State, exec .resultArrival s = .next t ∧ sameMem s t ∧ t.net = s.net ++ [m] ∧
      (t.core (coreOf k)).sending = (s.core (coreOf k)).sending ++ [m] ∧ (∀ j, j ≠ k → t.ctx j = s.ctx j) ∧
      t.ctx k = { s.ctx k with outs := (s.ctx k).outs.filter fun p => p.seq != seq }) ∧
    ((s.ctx k).mayPerform o = false → exec .resultArrival s = .next s) ∧
    ∀ p : Out, p.seq < seq → p.ans = none → p.blocks o = true → p ∈ (s.ctx k).outs → (s.ctx k).mayPerform o = false

/-- R230, R231: enq and hostpost issue with the record they read, deq with its destination registers x3 to x9 and xd; at the
descriptor's home a full queue answers 1 and an empty one 1, a record is put in the tail's slot with TAIL + 1, or taken from the
head's with HEAD + 1, and no other byte changes; bytes that the host refuses are dropped (R180). Those forms issue where no word of the
descriptor, and for a deq of the record that stands to be taken, is poisoned: where R427 has a poisoned word found is log 21. How far
the slots reach that other accesses are ordered with is the model's reading (log 5).
Which step comes, and the form of its arguments, are the model's (log 1). -/
def Obligations.WorkQueues : Prop :=
  (∀ (s : State) (sb : Bool) (d a b : BitVec 5) (r : Ref) (s2 : State), s.me.attempt = none → s.me.outs = [] →
    let xa := s.me.getX a
    let xb := s.me.getX b
    (∀ s1 rr s3, precheck s s.cur [{ a := xa, align := 64, globalOnly := true, kind := .store }, { a := xb, align := 64 }] =
        (none, s1) → checkAccess s1 s.cur .store xa 64 64 = (.ok r, s2) → s2.poisonSeen s.cur r 64 = false →
      checkAccess s2 s.cur .load xb 64 64 = (.ok rr, s3) → onlyTlb s s3 ∧
      let issues (i : Instr) (host : Bool) : Prop := ∃ (t : State) (o : Out), exec i s = .next t ∧ issuesOut s3 t o ∧ o.rel = true ∧
        o.op = .enq r d ((rr.span 64).map (s3.readByte s.myQuad false)) host (pageEnd s2 s.cur xa)
          (queueReach s3 r (pageEnd s2 s.cur xa))
      issues (.enq sb d a b) false ∧ issues (.hostpost sb d a b) true) ∧
    (∀ s1, d.toNat < 3 ∨ 9 < d.toNat → precheck s s.cur [{ a := xa, align := 64, globalOnly := true, kind := .store }] = (none, s1) →
      checkAccess s1 s.cur .store xa 64 64 = (.ok r, s2) → s2.poisonSeen s.cur r 64 = false →
      (∀ n, headSlot s2 r (pageEnd s2 s.cur xa) = some n → s2.poisonSeen s.cur (r.plus n) 64 = false) →
      ∃ (t : State) (o : Out), exec (.deq sb d a) s = .next t ∧ onlyTlb s s2 ∧ issuesOut s2 t o ∧ o.acq = true ∧
        o.op = .deq r d (pageEnd s2 s.cur xa) (queueReach s2 r (pageEnd s2 s.cur xa)) ∧
        ∀ x ∈ [3, 4, 5, 6, 7, 8, 9], Dst.x (BitVec.ofNat 5 x) ∈ o.dsts)) ∧
  ∀ (s : State) (k seq : Nat) (o : Out) (r : Ref) (d : BitVec 5) (last upTo : Nat), s.ev = [k, seq] → (s.ctx k).out seq = some o →
    o.ans = none → o.pure = false → (s.ctx k).mayPerform o = true → (s.ctx k).status ≠ .ending → r.isLocal = false →
    let q := QueueDesc.of (s.gread r.addr 64)
    let answered (t : State) (w : List RegWrite) : Prop := (t.ctx k).out seq = some { o with ans := some { writes := w } }
    let used := (q.tail + 2 ^ 64 - q.head) % 2 ^ 64
    (∀ bs host, o.op = .enq r d bs host last upTo →
      (q.bad r.addr last host = true → ∃ t : State, exec .homeQueueApply s = .next t ∧ sameMem s t ∧ answered t [.x d 3]) ∧
      (q.bad r.addr last host = false → used = 2 ^ q.log2cap →
        ∃ t : State, exec .homeQueueApply s = .next t ∧ sameMem s t ∧ answered t [.x d 1]) ∧
      (q.bad r.addr last host = false → used ≠ 2 ^ q.log2cap →
        let cells := cellsAt r (r.addr + 64 + 64 * (q.tail % 2 ^ q.log2cap)) bs ++
          cellsAt r (r.addr + 8) (bytesOfNat 8 (q.tail + 1))
        s.mayWriteCells k cells = true →
        ∃ t : State, exec .homeQueueApply s = .next t ∧ writesCells s t k (s.served cells) ∧ answered t [.x d 0] ∧
          (host = false → t.cp = s.cp))) ∧
    (o.op = .deq r d last upTo →
      (q.bad r.addr last false = true → ∃ t : State, exec .homeQueueApply s = .next t ∧ sameMem s t ∧ answered t [.x d 3]) ∧
      (q.bad r.addr last false = false → used = 0 →
        ∃ t : State, exec .homeQueueApply s = .next t ∧ sameMem s t ∧ answered t [.x d 1]) ∧
      (q.bad r.addr last false = false → used ≠ 0 →
        let f := RecFields.of (s.gread (r.addr + 64 + 64 * (q.head % 2 ^ q.log2cap)) 64)
        let cells := cellsAt r r.addr (bytesOfNat 8 (q.head + 1))
        s.mayWriteCells k cells = true →
        ∃ (t : State) (ws : List RegWrite) (st : Word), exec .homeQueueApply s = .next t ∧ writesCells s t k (s.served cells) ∧
          answered t (.x 3 f.tag :: (ws ++ [.x d st])) ∧
          ws.length = 6 ∧ (f.ok = true → ∀ i, i < 6 → ws[i]? = some (.x (BitVec.ofNat 5 (4 + i)) (if i < f.argc then f.args.getD i 0 else 0)) ∧
            st = BitVec.ofNat 64 (f.entry * 2 ^ 32 + f.argc * 2 ^ 12 + f.flags * 2 ^ 10 + f.pri * 2 ^ 8))))

/-! ### Control registers, traps and translation (10_system) -/

/-- R37, R101, R106, R136, R235, R238, R239, R342 to R346: ctlrd writes to xd what the register of its index holds, in every state, and
changes nothing else; where no register has the index, and for the GO registers, that index is cpgo.read's or an illegal word. -/
def Obligations.ControlRegisterReads : Prop :=
  ∀ (s : State) (sb : Bool) (d : BitVec 5),
    let c := s.me
    let q := s.quad s.myQuad
    let co := s.core s.myCore
    let le (l : LoopLevel) : Word := l.le ||| (if l.act then 1 <<< 63 else 0) ||| (if l.eb then 1 <<< 62 else 0)
    let tstatus := c.ctl.pasid * 2 ^ 32 + (if c.ctl.rpl then 2 ^ 8 else 0) + (if c.ctl.intrap then 4 else 0) +
      (if c.ctl.psys then 2 else 0) + (if c.ctl.sys then 1 else 0)
    let holds : List (Nat × Word) :=
      [(0x000, c.ctl.fpctl), (0x001, c.ctl.nmode), (0x002, c.ctl.mfmta), (0x003, c.ctl.mfmtb), (0x004, c.ctl.mfmtc),
       (0x005, c.ctl.mscl), (0x010, c.lp0.lc), (0x011, c.lp0.ls), (0x012, le c.lp0), (0x013, c.lp1.lc), (0x014, c.lp1.ls),
       (0x015, le c.lp1), (0x020, word (quadLayer s.myQuad)),
       (0x021, word (quarterOf s.myQuad * 2 ^ 10 + quadDie s.myQuad * 2 ^ 8 + quadY s.myQuad * 2 ^ 4 + quadX s.myQuad)),
       (0x022, word (s.myCore % 4)),
       (0x023, match s.partOf s.cur with | some (_, p) => p.pcapcause | none => 0), (0x030, q.tlbase), (0x200, c.ctl.tvec), (0x201, c.ctl.tpc), (0x202, c.ctl.tcause),
       (0x203, c.ctl.tval), (0x204, word tstatus), (0x210, q.xbound), (0x211, co.mkeydom),
       (0x212, word (s.requestOcc s.myCore * 2 ^ 8 + co.mbdepth)), (0x213, word (co.queue.length * 2 ^ 8 + co.thresh)),
       (0x214, word co.fduty)]
    (∀ e ∈ holds, ∃ t : State, exec (.ctlrd sb d (BitVec.ofNat 12 e.1)) s = .next t ∧ givesX s t d e.2) ∧
    (∀ (n : Nat) (i : Nat), n < 4 → i < 15 → ∃ t : State, exec (.ctlrd sb d (BitVec.ofNat 12 (0x080 + 32 * n + i))) s = .next t ∧
      let r := (q.copyCtx n).regs
      givesX s t d (match i with
        | 0 => r.src | 1 => r.dst | 2 => r.ext.getD 0 0 | 3 => r.ext.getD 1 0 | 4 => r.ext.getD 2 0 | 5 => r.ext.getD 3 0
        | 6 => r.sstride.getD 0 0 | 7 => r.sstride.getD 1 0 | 8 => r.sstride.getD 2 0 | 9 => r.sstride.getD 3 0
        | 10 => r.dstride.getD 0 0 | 11 => r.dstride.getD 1 0 | 12 => r.dstride.getD 2 0
        | 13 => r.dstride.getD 3 0 | _ => r.fmt)) ∧
    (∀ x : BitVec 12, takesTraps c → ctlReg x.toNat = none → ∃ (t : State) (w : Word32), exec (.ctlrd sb d x) s = .next t ∧
      encode (.ctlrd sb d x) = some w ∧ entersTrap s t 0x01 (w.setWidth 64))

/-- R36, R38, R99, R101, R103, R136, R210, R225, R235, R237, R238, R239, R253, R318, R319, R327, R342 to R346: the write forms on every
register that may be written: ctlwr stores xa, ctlset old OR xa, ctlclr old AND NOT xa, without the register's ignored bits; ctlset and
ctlclr give xd the old value. A write of TSTATUS takes system state, writes SYS, PSYS and INTRAP, and leaves PASID and RPL; a write of le
decides EB afresh. XBOUND takes a multiple of 4 KiB up to the capacity and refuses any other value with cause 0x03; DISPTH and MBDEPTH
clamp; a copy context's registers take their own bits; TLBASE 0 ends the timelines' words, and an address it takes is that of the five
words, which get the timelines' values at once; one that the host refuses sets TLF in its timeline's status. A register that the context may not write, or that does not exist, is an illegal
instruction. -/
def Obligations.ControlRegisterWrites : Prop :=
  ∀ (s : State) (sb : Bool) (d a : BitVec 5),
    let c := s.me
    let xa := c.getX a
    let q := s.quad s.myQuad
    let co := s.core s.myCore
    let ix (x : Nat) : BitVec 12 := BitVec.ofNat 12 x
    let forms (x : Nat) (old : Word) (ok : Word → Prop) (what : State → Word → Prop) : Prop :=
      (ok xa → ∃ t : State, exec (.ctlwr sb a (ix x)) s = .next t ∧ what t xa ∧ sameRegs c t.me) ∧
      (ok (old ||| xa) → ∃ t : State, exec (.ctlset sb d a (ix x)) s = .next t ∧ what t (old ||| xa) ∧ xGiven c t.me d old) ∧
      (ok (old &&& ~~~xa) → ∃ t : State, exec (.ctlclr sb d a (ix x)) s = .next t ∧ what t (old &&& ~~~xa) ∧ xGiven c t.me d old)
    let always (_ : Word) : Prop := True
    let stores (x : Nat) (old kept : Word) (set : Ctl → Word → Ctl) : Prop :=
      forms x old always fun t v => onlyMe s t ∧ t.me.ctl = set c.ctl (v &&& kept) ∧ goesOn c t.me ∧ t.me.outs = c.outs
    let refuses (x : Nat) (old : Word) (bad : Word → Prop) : Prop := takesTraps c →
      (bad xa → ∃ t : State, exec (.ctlwr sb a (ix x)) s = .next t ∧ entersTrap s t 0x03 xa) ∧
      (bad (old ||| xa) → ∃ t : State, exec (.ctlset sb d a (ix x)) s = .next t ∧ entersTrap s t 0x03 (old ||| xa)) ∧
      (bad (old &&& ~~~xa) → ∃ t : State, exec (.ctlclr sb d a (ix x)) s = .next t ∧ entersTrap s t 0x03 (old &&& ~~~xa))
    let le (l : LoopLevel) : Word := l.le ||| (if l.act then 1 <<< 63 else 0) ||| (if l.eb then 1 <<< 62 else 0)
    let loops (x : Nat) (old : Word) (lp0 lp1 : Word → LoopLevel) : Prop := forms x old always fun t v =>
      onlyMe s t ∧ onlyRegs c t.me ∧ t.me.pc = c.pc + 4 ∧ t.me.lp0 = lp0 v ∧ t.me.lp1 = lp1 v
    let stop (v : Word) : Word := v &&& 0x3FFFFC
    let before (l : LoopLevel) (v : Word) : Bool := l.act && decide ((stop v).toNat < c.pc.toNat)
    let onQuad (f : Word → Quad) (t : State) (v : Word) : Prop := t = { s with ctxs := t.ctxs, quads := t.quads } ∧
      t.quad s.myQuad = f v ∧ (∀ j, j ≠ s.myQuad → t.quad j = s.quad j) ∧ (∀ k, k ≠ s.cur → t.ctx k = s.ctx k) ∧ onlyRegs c t.me ∧
      goesOn c t.me
    let onCore (f : Word → Core) (t : State) (v : Word) : Prop := t = { s with ctxs := t.ctxs, cores := t.cores } ∧
      t.core s.myCore = f v ∧ (∀ j, j ≠ s.myCore → t.core j = s.core j) ∧ (∀ k, k ≠ s.cur → t.ctx k = s.ctx k) ∧ onlyRegs c t.me ∧
      goesOn c t.me
    let clamp (v : Word) (most : Nat) : Nat := if v.toNat % 32 = 0 then 1 else min most (v.toNat % 32)
    let offset (v : Word) : Prop := v.toNat % 2 ^ 12 = 0 ∧ v.toNat ≤ capacity s.myLayer
    let words (v : Word) : Prop := v.toNat < 2 ^ 57 ∧ v.toNat % 2 ^ 7 = 0 ∧ (v = 0 ∨ 0x400000 ≤ v.toNat)
    let idle := (∀ e ∈ q.copy, e.2.queue = []) ∧ q.tq = []
    let cells (r : Ref) : List (Ref × Byte) := q.dones.zipIdx.flatMap fun e => cellsOf (r.plus (8 * e.2)) 8 e.1
    let illegal (i : Instr) : Prop := ∃ (t : State) (w : Word32), exec i s = .next t ∧ encode i = some w ∧
      entersTrap s t 0x01 (w.setWidth 64)
    stores 0x000 c.ctl.fpctl 0x1F1F3 (fun r v => { r with fpctl := v }) ∧
    stores 0x001 c.ctl.nmode 0x1 (fun r v => { r with nmode := v }) ∧
    stores 0x002 c.ctl.mfmta 0x3 (fun r v => { r with mfmta := v }) ∧
    stores 0x003 c.ctl.mfmtb 0x3 (fun r v => { r with mfmtb := v }) ∧
    stores 0x004 c.ctl.mfmtc 0x1D7 (fun r v => { r with mfmtc := v }) ∧
    stores 0x005 c.ctl.mscl 0xFFFFFFFFFFFF (fun r v => { r with mscl := v }) ∧
    stores 0x200 c.ctl.tvec 0x3FFFFD (fun r v => { r with tvec := v }) ∧
    (c.replay = none → stores 0x201 c.ctl.tpc (~~~3) (fun r v => { r with tpc := v })) ∧
    (c.ctl.sys = true → stores 0x204 c.tstatus (BitVec.allOnes 64) (fun r v =>
      { r with sys := v.getLsbD 0, psys := v.getLsbD 1, intrap := v.getLsbD 2 })) ∧
    (c.lp0.atEnd c.pc = false → c.lp1.atEnd c.pc = false →
      loops 0x010 c.lp0.lc (fun v => { c.lp0 with lc := v }) (fun _ => c.lp1) ∧
      loops 0x011 c.lp0.ls (fun v => { c.lp0 with ls := stop v }) (fun _ => c.lp1) ∧
      loops 0x012 (le c.lp0) (fun v => { c.lp0 with le := stop v, eb := before c.lp0 v }) (fun _ => c.lp1) ∧
      loops 0x013 c.lp1.lc (fun _ => c.lp0) (fun v => { c.lp1 with lc := v }) ∧
      loops 0x014 c.lp1.ls (fun _ => c.lp0) (fun v => { c.lp1 with ls := stop v }) ∧
      loops 0x015 (le c.lp1) (fun _ => c.lp0) (fun v => { c.lp1 with le := stop v, eb := before c.lp1 v })) ∧
    (c.attempt = none →
      forms 0x210 q.xbound offset (onQuad fun v => { q with xbound := v }) ∧ refuses 0x210 q.xbound (fun v => ¬ offset v) ∧
      (∀ n i : Nat, n < 4 → i < 15 →
        let x := q.copyCtx n
        forms (0x080 + 32 * n + i) (x.regs.get i) always
          (onQuad fun v => { q with copy := q.copy.put n { x with regs := x.regs.set i v } })) ∧
      (c.ctl.sys = true →
        forms 0x211 co.mkeydom always (onCore fun v => { co with mkeydom := v &&& 0xFFFF }) ∧
        forms 0x212 (word (s.requestOcc s.myCore * 2 ^ 8 + co.mbdepth)) always (onCore fun v => { co with mbdepth := clamp v 16 }) ∧
        forms 0x213 (word (co.queue.length * 2 ^ 8 + co.thresh)) always (onCore fun v => { co with thresh := clamp v 28 }) ∧
        refuses 0x030 q.tlbase (fun v => ¬ words v) ∧
        (idle → forms 0x030 q.tlbase (fun v => v = 0) (onQuad fun _ => { q with tlbase := 0 })) ∧
        (idle → forms 0x030 q.tlbase
          (fun v => v ≠ 0 ∧ words v ∧ ∃ r s', globalCheck s s.cur .store v 0 = (.ok r, s') ∧ s'.mayWriteCells s.cur (cells r) = true)
          (fun t v => (∃ r s', globalCheck s s.cur .store v 0 = (.ok r, s') ∧ writesCells s t s.cur (s.served (cells r)) ∧
              let tlf (n : Nat) (old : Word) : Word := if s.refuses (r.plus (8 * n)) then old ||| 0x100 else old
              (∀ n < 4, ((t.quad s.myQuad).copyCtx n).status = tlf n (q.copyCtx n).status) ∧
              (t.quad s.myQuad).tstatus = tlf 4 q.tstatus) ∧
            (t.quad s.myQuad).tlbase = v ∧ (t.quad s.myQuad).tlpasid = c.ctl.pasid ∧ (t.quad s.myQuad).xbound = q.xbound ∧
            goesOn c t.me)))) ∧
    (∀ (r : CopyRegs) (v : Word) (i j : Nat), r.ext.length = 4 → r.sstride.length = 4 → r.dstride.length = 4 → i < 15 → j < 15 →
      let own : Word := if i < 2 then BitVec.ofNat 64 (2 ^ 57 - 1) else if i < 14 then BitVec.ofNat 64 (2 ^ 32 - 1) else 0x7FFFF7F
      (r.set i v).get j = if j = i then v &&& own else r.get j) ∧
    (takesTraps c → ∀ x : BitVec 12, ctlReg x.toNat = none ∨ (∃ r, ctlReg x.toNat = some r ∧ r.writable c.ctl.sys = false) →
      illegal (.ctlwr sb a x) ∧ illegal (.ctlset sb d a x) ∧ illegal (.ctlclr sb d a x)) ∧
    (∀ r : CtlReg, r.writable false = false ↔
      r ∈ [.layerid, .quadid, .coreid, .pcapcause, .tcause, .tval, .fduty, .tlbase, .tstatus, .mkeydom, .mbdepth, .dispth] ∨ ∃ n, r = .go n)

/-- R99, R103, R210, R225, R253, R327: the register writes as steps of their own. XBOUND takes a multiple of 4 KiB up to the capacity and
refuses any other value with cause 0x03; DISPTH and MBDEPTH clamp; TPC drops bits [1:0]; lc, ls and le are written, le deciding
EB afresh; TLBASE 0 ends the timelines' words.
Which step comes, and the form of its arguments, are the model's (log 1). -/
def Obligations.RegisterWriteSteps : Prop :=
  ∀ (s : State) (v : Nat) (x : Nat), s.me.status = .running → s.me.halted = false → v < 2 ^ 64 →
    let c := s.me
    let w : Word := BitVec.ofNat 64 v
    let q := s.quad s.myQuad
    let co := s.core s.myCore
    let clamp (most : Nat) : Nat := if v % 32 = 0 then 1 else min most (v % 32)
    let good := v % 2 ^ 12 = 0 ∧ v ≤ capacity s.myLayer
    (s.ev = [v] →
      (good → ∃ t : State, exec .xboundWrite s = .next t ∧ sameMem s t ∧ t.quad s.myQuad = { q with xbound := w } ∧ t.me = c) ∧
      (¬ good → takesTraps c → ∃ t : State, exec .xboundWrite s = .next t ∧ stepEntersTrap s t 0x03 w) ∧
      (c.ctl.sys = true → ∃ t : State, exec .dispthWrite s = .next t ∧ sameMem s t ∧ t.core s.myCore = { co with thresh := clamp 28 } ∧
        t.me = c) ∧
      (c.ctl.sys = true → ∃ t : State, exec .mbdepthWrite s = .next t ∧ sameMem s t ∧ t.core s.myCore = { co with mbdepth := clamp 16 } ∧
        t.me = c) ∧
      (c.ctl.sys = true → v = 0 → (∀ e ∈ q.copy, e.2.queue = []) → q.tq = [] →
        ∃ t : State, exec .tlbaseWrite s = .next t ∧ sameMem s t ∧ t.quad s.myQuad = { q with tlbase := 0 } ∧ t.me = c) ∧
      (c.replay = none → ∃ t : State, exec .tpcWrite s = .next t ∧ sameMem s t ∧
        t.me = { c with ctl := { c.ctl with tpc := BitVec.ofNat 64 (v / 4 * 4) } })) ∧
    (s.ev = [x, v] →
      let stop : Word := w &&& 0x3FFFFC
      (x = 0x010 → ∃ t : State, exec .loopRegisterWrite s = .next t ∧ sameMem s t ∧ t.me = { c with lp0 := { c.lp0 with lc := w } }) ∧
      (x = 0x014 → ∃ t : State, exec .loopRegisterWrite s = .next t ∧ sameMem s t ∧ t.me = { c with lp1 := { c.lp1 with ls := stop } }) ∧
      (x = 0x012 → ∃ t : State, exec .loopRegisterWrite s = .next t ∧ sameMem s t ∧
        t.me = { c with lp0 := { c.lp0 with le := stop, eb := c.lp0.act && decide (stop.toNat < c.pc.toNat) } }))

/-- R32, R95, R102, R241 to R246: taking a trap. brk, trap and an illegal word enter the handler with their cause and TVAL; TPC of trap is
the next word; a word at or above XBOUND is an overlay fetch whose TVAL is the address issued before; the 33rd instruction of a
window that is no settle point is WINDOW with TVAL 32; a timer cause sets ASYNC, counts its events and is then no longer pending.
Without a handler or inside one the context is killed and a record goes to the command processor.
R244: eret in system state continues at TPC without bits [1:0], with SYS from PSYS and INTRAP 0, and opens a settle window; no register
changes. Without system state it is an illegal instruction. An eret that follows the entry of a trap comes back to the
instruction and the status from before.
Which step comes, and the form of its arguments, are the model's (log 1). -/
def Obligations.Traps : Prop :=
  (∀ (s : State) (sb : Bool) (code : BitVec 12) (a b e : Nat),
     let c := s.me
     (takesTraps c →
       (∃ t : State, exec (.brk sb) s = .next t ∧ entersTrap s t 0x0D 0) ∧
       (∃ t : State, exec (.trap sb code) s = .next t ∧ onlyMe s t ∧ t.me = { c with
         pc := setFld c.ctl.tvec 0 2 0, prevPc := c.pc, opens := true, trail := [], buffer := []
         ctl := { c.ctl with tpc := setFld (c.pc + 4) 0 2 0, tcause := 0x0C, tval := code.setWidth 64, psys := c.ctl.sys, sys := true
                             intrap := true } }) ∧
       (c.status = .running → c.halted = false →
         (∀ w why, c.ibuf.has c.pc.toNat = true → c.ibuf.get 0 c.pc.toNat = w → decode w = .illegal why →
           ∃ t : State, exec .illegalInstruction s = .next t ∧ stepEntersTrap s t 0x01 (w.setWidth 64)) ∧
         (c.declined = none → c.power = none → c.timers = 0 → s.recordings = [] →
           (s.ev = [0x08, a, b, e] → (s.quad s.myQuad).xbound.toNat ≤ c.pc.toNat →
             ∃ t : State, exec .trapEntry s = .next t ∧ stepEntersTrap s t 0x08 c.prevPc) ∧
           (s.ev = [0x07, a, b, e] → c.pc.toNat < (s.quad s.myQuad).xbound.toNat →
             c.opens = false → 32 ≤ c.window → fetchCause.wordSettles (fetch s).1 = false →
             ∃ t : State, exec .trapEntry s = .next t ∧ stepEntersTrap s t 0x07 32)) ∧
         (c.declined = none → c.power = none → 0 < c.timers → s.recordings = [] → s.ev = [0x12, a, b, e] →
           ∃ t : State, exec .trapEntry s = .next t ∧ onlyMe s t ∧ t.me = { c with
             pc := setFld c.ctl.tvec 0 2 0, opens := true, trail := [], buffer := [], timers := 0
             ctl := { c.ctl with tpc := setFld c.pc 0 2 0, tcause := BitVec.ofNat 64 (2 ^ 63 + 0x12), tval := word c.timers
                                 psys := c.ctl.sys, sys := true, intrap := true } }))) ∧
     (c.outs = [] → c.later = [] → c.deferred = none → c.carry = none → c.attempt = none → (s.core s.myCore).sending = [] →
       (c.ctl.tvec.getLsbD 0 = false ∨ c.ctl.intrap = true) →
       ∃ (t : State) (r : FaultRec), exec (.brk sb) s = .next t ∧ t.me.status = .free ∧ t.mem = s.mem ∧ t.cp.waiting = s.cp.waiting ++ [r] ∧
         r.kind = (if c.ctl.intrap then 2 else 1) ∧ r.reason = 0x0D ∧ r.va = c.pc ∧ r.pasid = c.ctl.pasid)) ∧
  (∀ (s : State) (sb : Bool),
     let c := s.me
     (c.ctl.sys = true → c.attempt = none → c.replay = none → ∃ t : State, exec (.eret sb) s = .next t ∧ onlyMe s t ∧
       t.me = { c with pc := setFld c.ctl.tpc 0 2 0, prevPc := c.pc, opens := true, trail := [], buffer := []
                       ctl := { c.ctl with sys := c.ctl.psys, intrap := false } }) ∧
     (c.ctl.sys = false → takesTraps c → ∃ (t : State) (w : Word32), exec (.eret sb) s = .next t ∧ encode (.eret sb) = some w ∧
       entersTrap s t 0x01 (w.setWidth 64)) ∧
     (∀ t code tval, entersTrap s t code tval → takesTraps c → c.replay = none → c.pc.toNat % 4 = 0 →
       ∃ u : State, exec (.eret sb) t = .next u ∧ u.me.pc = c.pc ∧ u.me.ctl.sys = c.ctl.sys ∧ u.me.ctl.intrap = false ∧ u.me.regs = c.regs))

/-- R104, R261, R266, R267, R268: ifence empties the context's buffer once no store to the local window is pending; tlbinv and
tlbinv.as take system state, and then no TLB of a quad or a quarter of the partition holds the page or the address space, and the blocks of
the pages that they held are promoted and kept no more (R193, R194), where no access and no attempt of any context stands in the way; PAGE_WALK leaves a page that it finds in the TLBs of the quad and its
quarter; perfrd reads the counters that the model counts, misses of the quad's TLB among them, and 0 where there is none.
R176, R188, R189, R192, R193: steps of near memory and caches change no byte of memory: a block is promoted where the area has
room, leaves where no block without a keep hint is left before it, a copy leaves a die's cache, a bank is powered up; a host snoop
takes every copy of its line and changes only the bytes that the host writes, where no irrevocable attempt holds the line (R306). That a
bank's power-up changes no byte rests on its contents being cleared when it is powered down, which is the model's reading (log 58).
Which step comes, and the form of its arguments, are the model's (log 1).
What leaves a full TLB, and that bits [63:8] of xa select no counter, are the model's (logs 14, 24). -/
def Obligations.FetchPagesAndCaches : Prop :=
  ((∀ (s : State) (sb : Bool) (d a : BitVec 5), s.me.attempt = none →
     let xa := s.me.getX a
     ((∀ o ∈ s.me.outs, o.pending = true → (o.isStore && o.isLocal) = false) → ∃ t : State, exec (.ifence sb) s = .next t ∧ onlyMe s t ∧
       sameRegs s.me t.me ∧ goesOn s.me t.me ∧ t.me.ibuf = []) ∧
     (∀ p part, s.me.ctl.sys = true → s.partOf s.cur = some (p, part) → (∀ e ∈ s.ctxs, e.2.outs = [] ∧ e.2.status ≠ .ending) →
       (∀ e ∈ s.cores, e.2.tracker = []) → s.gangs = [] → noAttempts s →
       let held (hits : Tlb → Prop) (e : Tlb) : Prop := hits e ∧ ((∃ q, part.quarters.testBit (quarterOf q) = true ∧ e ∈ (s.quad q).tlb) ∨
         ∃ q, part.quarters.testBit q = true ∧ e ∈ (s.quarter q).tlb)
       let invalidates (i : Instr) (hits : Tlb → Prop) : Prop :=
         ∃ t : State, exec i s = .next t ∧ sameMem s t ∧ sameRegs s.me t.me ∧ goesOn s.me t.me ∧
           (∀ q, part.quarters.testBit (quarterOf q) = true → ∀ e ∈ (t.quad q).tlb, ¬ hits e) ∧
           (∀ q, part.quarters.testBit q = true → ∀ e ∈ (t.quarter q).tlb, ¬ hits e) ∧
           ∀ e, held hits e → ∀ die b, e.pa < 65536 * (b + 1) → 65536 * b < e.pa + 2 ^ e.bits →
             b ∉ (t.die die).promoted ∧ (t.die die).hints.has b = false
       (0x400000 ≤ xa.toNat → xa.toNat < 2 ^ 57 → invalidates (.tlbinv sb a) fun e =>
         e.pasid = s.me.ctl.pasid ∧ e.base ≤ xa.toNat ∧ xa.toNat < e.base + 2 ^ e.bits) ∧
       (xa.toNat < 2 ^ 20 → (∃ e ∈ part.pasids, e.1 = xa.toNat) → invalidates (.tlbinvAs sb a) fun e => e.pasid = xa.toNat)) ∧
     (let by_ (i : Nat) : Nat := (s.ctx (8 * s.myCore + i)).issued
      let counter (n : Nat) : Option Word := match n with
        | 1 => some (word s.me.issued) | 2 => some (word (by_ 0 + by_ 1 + by_ 2 + by_ 3 + by_ 4)) | 6 => some (word s.me.slept)
        | 5 => some (word ((s.quad s.myQuad).misses.get 0 (s.myCore % 4)))
        | 7 => some (word (s.core s.myCore).refusals) | _ => if n < 9 then none else some 0
      ∃ (t : State) (w : Word), exec (.perfrd sb d a) s = .next t ∧ sameMem s t ∧ xGiven s.me t.me d w ∧ goesOn s.me t.me ∧
        ∀ v, counter (xa.toNat % 2 ^ 8) = some v → w = v)) ∧
   (∀ (s : State) (quad pasid va p : Nat) (part : Part) (e : Tlb), s.ev = [quad, pasid, va] → s.build.hasQuad quad = true → va < 2 ^ 57 →
     s.partOfQuarter (quarterOf quad) = some (p, part) → walk s part pasid va = .page e →
     (s.quad quad).tlb = [] → (s.quarter (quarterOf quad)).tlb = [] →
     ∃ t : State, exec .pageWalk s = .next t ∧ onlyTlb s t ∧ e ∈ (t.quad quad).tlb ∧ e ∈ (t.quarter (quarterOf quad)).tlb)) ∧
  ((∀ (s : State) (die b : Nat), s.ev = [die, b] →
     let d := s.die die
     (blockOfDie s die b = true → d.promoted.contains b = false → d.promoted.length < 81920 →
       ∃ t : State, exec .blockPromotion s = .next t ∧ sameMem s t ∧ t.die die = { d with promoted := b :: d.promoted }) ∧
     (let kept (x : Nat) : Prop := (d.hints.get (0, 0) x).1 = 2
      (d.promoted.contains b = true → ¬ kept b ∨ (∀ x ∈ d.promoted, kept x) →
        ∃ t : State, exec .blockEviction s = .next t ∧ sameMem s t ∧ b ∉ (t.die die).promoted ∧
          ∀ x, x ≠ b → (x ∈ (t.die die).promoted ↔ x ∈ d.promoted)) ∧
      (kept b → (∃ x ∈ d.promoted, ¬ kept x) → exec .blockEviction s = .next s)) ∧
     (∃ t : State, exec .cacheLineEviction s = .next t ∧ sameMem s t ∧ t.die die = { d with rdc := d.rdc.filter fun e => e.1 != b }) ∧
     (s.build.hasQuad die = true → b < bankCount (quadLayer die) →
       ∃ t : State, exec .bankPowerUp s = .next t ∧ sameMem s t ∧
         t.quad die = { s.quad die with down := setFld (s.quad die).down b 1 0 })) ∧
   (∀ (s : State) (pa : Nat), s.ev = [pa] → isHostPa s pa = true → s.mayWrite none [(pa, 0)] = true →
     ∃ t : State, exec .hostSnoop s = .next t ∧ sameMem s t ∧ ∀ die, (t.die die).rdc.has (pa / 128) = false) ∧
   (∀ (s : State) (pa b : Nat), s.canonical → s.ev = [pa, b] → isHostPa s pa = true → b < 256 → s.mayWrite none [(pa, 0)] = true →
     ∃ t : State, exec .hostSnoop s = .next t ∧ t.gbyte pa = BitVec.ofNat 8 b ∧ (∀ x, x ≠ pa → t.gbyte x = s.gbyte x) ∧
       ∀ q x, (t.quad q).mem.get x = (s.quad q).mem.get x))


/-! ### Scheduling (09_tasks) -/

/-- R204, R206, R207, R208, R213, R214, R224: TASK_START takes the record of the highest priority, the longest standing first, into the
lowest free context with x3, x4 to x10, PASID and NXM from it and every other x, v and k register 0, but for k0; HANDLER_START takes a reply before a
request; promotion puts a record at the tail one level up; a steal takes a stealable record of the busiest sibling; a probe goes out
and comes back with a record that is portable too, which starts where a context is free. R217: RETIREMENT_ENTRY_FREE performs the store that a tracker entry holds, frees the
entry, and its launch waits for one task fewer. A spawned task starts, and is stolen, once the accesses before its spawn are done.
Which step comes, and the form of its arguments, are the model's (log 1).
Where a stolen record goes when no context is free is the model's reading (log 37). -/
def Obligations.SchedulingSteps : Prop :=
  (∀ (s : State) (core i : Nat) (r : Record), s.ev = [core] → coreOn s core = true → i < 4 →
    (s.ctx (8 * core + i)).status = .free → (∀ j, j < i → (s.ctx (8 * core + j)).status ≠ .free) →
    r ∈ (s.core core).queue → r.pri ≤ 3 → (∀ x ∈ (s.core core).queue, x.pri ≤ r.pri) →
    (s.core core).queue.find? (fun x => x.pri == r.pri) = some r → s.passed r.gate →
    ∃ t : State, exec .taskStart s = .next t ∧ sameMem s t ∧ (∀ k, k ≠ 8 * core + i → t.ctx k = s.ctx k) ∧
      (t.core core).queue = (s.core core).queue.erase r ∧
      let c := t.ctx (8 * core + i)
      c.status = .running ∧ c.pc.toNat = r.entry.toNat / 4 * 4 ∧ c.getX 3 = r.x3 ∧
      (∀ j : Nat, j < 7 → c.getX (BitVec.ofNat 5 (4 + j)) = r.args.getD j 0) ∧
      (∀ x : BitVec 5, x.toNat < 3 ∨ 10 < x.toNat → c.getX x = 0) ∧ (∀ x, c.getV x = 0) ∧
      (∀ x : BitVec 3, x ≠ 0 → c.getK x = 0) ∧ c.getK 0 = BitVec.allOnes 64 ∧ c.lp0 = {} ∧ c.lp1 = {} ∧
      c.ctl = { nmode := if r.nxm then 1 else 0, pasid := r.pasid } ∧ c.opens = true ∧ c.outs = []) ∧
  (∀ (s : State) (core : Nat) (m : Msg), s.ev = [core] → coreOn s core = true → (s.ctx (8 * core + 4)).status = .free →
    m.nxm = (s.ctx (8 * core + 4)).nxm →
    let c := s.ctx (8 * core + 4)
    let starts (co : Core) : Prop := ∃ t : State, exec .handlerStart s = .next t ∧ sameMem s t ∧ t.core core = co ∧
      (∀ k, k ≠ 8 * core + 4 → t.ctx k = s.ctx k) ∧
      let e := t.ctx (8 * core + 4)
      e.status = .running ∧ e.msg = some m ∧ e.pc.toNat = m.entry.toNat / 4 * 4 ∧ e.getX 3 = m.header ∧ e.ctl.pasid = m.pasid ∧
      (∀ j : Nat, j < 7 → e.getX (BitVec.ofNat 5 (4 + j)) = m.payload.getD j 0) ∧
      (∀ x : BitVec 5, x.toNat < 3 ∨ 10 < x.toNat → e.getX x = c.getX x)
    (∀ rest, (s.core core).replies = m :: rest → starts { s.core core with replies := rest }) ∧
    (∀ rest, (s.core core).replies = [] → (s.core core).requests = m :: rest → starts { s.core core with requests := rest })) ∧
  (∀ (s : State) (core i : Nat) (r : Record), s.ev = [core, i] → (s.core core).queue[i]? = some r → r.pri < 3 →
    ∃ t : State, exec .recordPromotion s = .next t ∧ t.ctxs = s.ctxs ∧ sameMem s t ∧
      (t.core core).queue = (s.core core).queue.eraseIdx i ++ [{ r with pri := r.pri + 1 }]) ∧
  (∀ (s : State) (core v : Nat) (r : Record), s.ev = [core] → coreOn s core = true → coreIdle s core = true →
    bestSibling s core = some v → bestRecord Record.stealable (s.core v).queue = some r → v ≠ core → s.passed r.gate →
    ∃ (t : State) (k : Nat), exec .stealProbeQuad s = .next t ∧ sameMem s t ∧ (t.core v).queue = (s.core v).queue.erase r ∧
      coreOf k = core ∧ (s.ctx k).status = .free ∧ (t.ctx k).status = .running ∧ (t.ctx k).task.stolen = true ∧
      (t.ctx k).pc.toNat = r.entry.toNat / 4 * 4) ∧
  (∀ (s : State) (core v : Nat), s.ev = [core, v] → coreOn s core = true → coreIdle s core = true → bestSibling s core = none →
    (s.core core).probe = none → mayProbe s core v = true →
    ∃ t : State, exec .stealProbeLayer s = .next t ∧ t.ctxs = s.ctxs ∧ sameMem s t ∧
      t.core core = { s.core core with probe := some (v, none) }) ∧
  ∀ (s : State) (core v : Nat), v ≠ core →
    (∀ r, s.ev = [core] → (s.core core).probe = some (v, none) → coreRuns s v = true →
      bestRecord (fun x => x.stealable && x.isPortable) (s.core v).queue = some r → s.passed r.gate →
      ∃ t : State, exec .stealProbeReply s = .next t ∧ t.ctxs = s.ctxs ∧ (t.core v).queue = (s.core v).queue.erase r ∧
        (t.core core).probe = some (v, some r)) ∧
    (∀ r i, s.ev = [core] → (s.core core).probe = some (v, some r) → coreOn s core = true → freeTask s core = some i →
      ∃ t : State, exec .stealProbeReply s = .next t ∧ sameMem s t ∧ (t.core core).probe = none ∧
        (t.ctx (8 * core + i)).status = .running ∧ (t.ctx (8 * core + i)).task.stolen = true ∧
        (t.ctx (8 * core + i)).pc.toNat = r.entry.toNat / 4 * 4) ∧
    (∀ r, s.ev = [core] → (s.core core).probe = some (v, some r) → coreOn s core = true → (freeTask s core).isNone = true →
      queueHasRoom (s.core core).queue.length r.pri = true →
      ∃ t : State, exec .stealProbeReply s = .next t ∧ t.ctxs = s.ctxs ∧ (t.core core).probe = none ∧
        (t.core core).queue = (s.core core).queue ++ [{ r with stolen := true }]) ∧
    (∀ (i : Nat) (l : Option Nat) (o : Out) (cells : List (Ref × Byte)), s.ev = [core, i] → (s.core core).tracker[i]? = some (l, [o]) →
      o.op = .store cells → o.ans = none →
      let k := 8 * core + 5
      (s.onCtx k fun _ => { outs := [o] }).mayWriteCells k cells = true →
      ∃ t : State, exec .retirementEntryFree s = .next t ∧ writesCells s t k (s.served cells) ∧
        (t.core core).tracker = (s.core core).tracker.eraseIdx i ∧
        ∀ j e, l = some j → s.cp.launches[j]? = some e → t.cp.launches[j]? = some { e with live := e.live - 1 })

/-! ### Copy engine (13_copy) -/

/-- R323, R326, R329, R331 to R334: a launch whose set or descriptor keeps the limits, whose roles are met and whose queue has room joins
the copy context's queue with the next number, which stays outstanding for xd; cprec fills a shadow set, rcfence empties the record
cache, cpabort marks what has not finished, tlrd reads DONE, ISSUED, the status word and, while FAIL is set, FADDR, and clears the status
it reads. A record that the cache holds is not read again, nor its address checked. -/
def Obligations.CopyInstructions : Prop :=
  ∀ (s : State) (sb : Bool) (d a b : BitVec 5) (n : BitVec 2), s.me.attempt = none → s.me.outs = [] → s.me.task.portable = false →
    let q := s.quad s.myQuad
    let xa := s.me.getX a
    let launches (s' : State) (i : Instr) (n : Nat) (work : CopyWork) : Prop :=
      let q := s'.quad s.myQuad
      ∃ (t : State) (o : Out) (op : CopyOp), exec i s = .next t ∧ sameMem s t ∧ t.me.regs = s.me.regs ∧ goesOn s.me t.me ∧ t.me.outs = [o] ∧
        o.ans = some { writes := [.x d (BitVec.ofNat 64 op.num)] } ∧ op.num = (q.copyCtx n).issued + 1 ∧ op.work = work ∧
        op.finished = false ∧ op.walked = false ∧ op.buf = [] ∧ op.next = 0 ∧ op.pasid = s.me.ctl.pasid ∧
        ((t.quad s.myQuad).copyCtx n).queue = (q.copyCtx n).queue ++ [op] ∧
        ((t.quad s.myQuad).copyCtx n).issued = (q.copyCtx n).issued + 1
    (let r := (q.copyCtx n.toNat).regs
     r.check q = none → r.srcRole.met q = true → r.dstRole.met q = true → (q.copyCtx n.toNat).queue.length < 4 →
       launches s (.cpgoRead sb d n) n.toNat (.copy r)) ∧
    (∀ off, (q.copyCtx n.toNat).regs.check q = some off → takesTraps s.me →
      ∃ t : State, exec (.cpgoRead sb d n) s = .next t ∧ entersTrap s t 0x03 (BitVec.ofNat 64 (0x80 + 0x20 * n.toNat + off))) ∧
    (let m := (s.me.getX b).toNat % 4
     let fills (s' : State) (bs : List Byte) : Prop := natOfBytes (bs.drop 8) / 2 ^ 57 % 128 = 0 →
       ∃ t : State, exec (.cprec sb a b) s = .next t ∧ sameMem s t ∧ sameRegs s.me t.me ∧ goesOn s.me t.me ∧
         ((t.quad s.myQuad).copyCtx m).regs = ((s'.quad s.myQuad).copyCtx m).regs.ofRecord bs ∧
         ((t.quad s.myQuad).copyCtx m).queue = ((s'.quad s.myQuad).copyCtx m).queue
     (∀ e, xa.toNat % 64 = 0 → q.records.find? (fun e => e.pasid == s.me.ctl.pasid && e.va == xa) = some e → fills s e.bytes) ∧
     ∀ r s', checkAccess s s.cur .load xa 64 64 = (.ok r, s') →
       let q := s'.quad s.myQuad
       let bs := (r.span 64).map (s'.readByte s.myQuad false)
       let g (scatter : Bool) : GatherRegs := GatherRegs.of scatter bs
       let fine (scatter : Bool) : Prop := (g scatter).bad q s.myLayer (natOfBytes (bs.drop 0x2A)) = none ∧ (g scatter).role.met q = true ∧
         (q.copyCtx m).queue.length < 4
       onlyTlb s s' ∧ (fine false → launches s' (.gather sb d a b) m (.gather (g false))) ∧
       (fine true → launches s' (.scatter sb d a b) m (.gather (g true))) ∧
       (q.records.find? (fun e => e.pasid == s.me.ctl.pasid && e.va == xa) = none → fills s' bs)) ∧
    (∃ t : State, exec (.rcfence sb) s = .next t ∧ sameMem s t ∧ sameRegs s.me t.me ∧ goesOn s.me t.me ∧
      t.quad s.myQuad = { q with records := [] }) ∧
    (let m := xa.toNat % 4
     ∃ t : State, exec (.cpabort sb a) s = .next t ∧ sameMem s t ∧ sameRegs s.me t.me ∧ goesOn s.me t.me ∧
       ((t.quad s.myQuad).copyCtx m).queue = (q.copyCtx m).queue.map fun o => if o.finished then o else { o with abort := true }) ∧
    (let m := xa.toNat % 8
     let w := xa.toNat / 2 ^ 8 % 4
     let reads (v : Word) : Prop := ∃ (t : State) (o : Out), exec (.tlrd sb d a) s = .next t ∧ sameMem s t ∧ t.me.regs = s.me.regs ∧ goesOn s.me t.me ∧
       t.me.outs = [o] ∧ o.ans = some { writes := [.x d v] } ∧
       (m < 4 → w = 2 → (t.quad s.myQuad).copyCtx m = { q.copyCtx m with status := 0 }) ∧
       (m = 4 → w = 2 → t.quad s.myQuad = { q with tstatus := 0 }) ∧ (w ≠ 2 → t.quad s.myQuad = q)
     (m < 4 → reads (match w with
       | 0 => BitVec.ofNat 64 (q.copyCtx m).done | 1 => BitVec.ofNat 64 (q.copyCtx m).issued | 2 => (q.copyCtx m).status
       | _ => if (q.copyCtx m).status.getLsbD 16 then (q.copyCtx m).faddr else 0)) ∧
     (m = 4 → reads (match w with
       | 0 => BitVec.ofNat 64 q.tdone | 1 => BitVec.ofNat 64 q.tissued | 2 => q.tstatus | _ => 0)))

/-- R320 to R322, R325 to R327, R330, R331, R335 to R337: the engine at work. An element of a plain or converting copy whose two addresses
are granted is read at base + Σ index × stride, in its aligned word as the operation read that one first (R337), converted, and placed in
the words of base + Σ index × stride; a block is quantised from its 32 elements, or they are made from a block; a gather's position takes the row that its index says, or zeros at or beyond EXTENT; a
scatter's row inside goes where its index says, and at or beyond EXTENT nothing is placed: both set OOR. An element that fails ends the walk
with its reason and address, and so does cpabort. Then each word is written in one access, with all that a copy's elements place in it, the
later over the earlier, also where two mappings name it, and no other byte changes; one that fails, or that the host refuses (R180), ends the
operation, and so does a scatter's row in host memory (R335). The operation retires with DONE its number, in its timeline's word too where TLBASE places one; TLF is set where that word cannot be
written, for its translation, its page, or a host that refuses it (R327). All of it comes once the accesses before the launch are done (R328).
Which step comes, and the form of its arguments, are the model's (log 1).
That the words of a copy are written after its walk, and that nothing after a failing element is placed, are the model's choice (log 16). -/
def Obligations.CopyEngineSteps : Prop :=
  ∀ (s : State) (quad n : Nat) (o : CopyOp) (rest : List CopyOp), ((s.quad quad).copyCtx n).queue = o :: rest →
    let now (t : State) : List CopyOp := ((t.quad quad).copyCtx n).queue
    let moves (i : Instr) (o' : CopyOp) : Prop := ∃ t : State, exec i s = .next t ∧ sameMem s t ∧ now t = o' :: rest
    let whole : Bool := decide (o.total ≤ o.next + 1)
    -- the operation after an element that places `new`, and after one that fails
    let after (buf : List Placed) (cond : Nat) (oor : Bool) (seen : Map (List Byte)) : CopyOp :=
      { o with started := true, next := o.next + 1, walked := whole, buf, seen, cond := o.cond ||| BitVec.ofNat 64 cond, oor := o.oor || oor
               finished := whole && buf.isEmpty }
    let ended (why : Nat) (at_ : Word) : CopyOp :=
      { o with started := true, walked := true, fail := some (why, at_), finished := o.buf.isEmpty }
    let piece (first a : Word) (bs : List Byte) : Placed :=
      { quad := 0, dword := setFld a 0 3 0, first, bytes := bs.zipIdx.map fun e => (a.toNat % 8 + e.2, e.1) }
    let row (first : Word → Word) (a : Word) (bytes : Nat) (f : Nat → List Byte) : List Placed :=
      (List.range (bytes / 8)).map fun i => piece (first (a + BitVec.ofNat 64 (8 * i))) (a + BitVec.ofNat 64 (8 * i)) (f i)
    let read (s : State) (r : Ref) (w : Nat) : List Byte := (r.span w).map (s.readByte quad true)
    -- the bytes of an element: those of its aligned word as the operation read it first; and the words that it has read then
    let once (r : Ref) (w : Nat) : List Byte := ((o.seen.get (s.engineWord quad r) r.wordKey).drop (r.addr % 8)).take w
    let words (rs : List Ref) : Map (List Byte) := wordsOnce s quad o.seen rs
    let seen := o.started = true ∨ s.passed o.gate
    let fresh := o.finished = false ∧ o.walked = false ∧ o.abort = false ∧ s.ev = [quad, n, 1] ∧ seen
    (∀ (r : CopyRegs) (x y : Side) (w u : Nat), fresh → o.work = .copy r → convSides r.conv = some (x, y) → x.isBlock = false →
      y.isBlock = false → x.bytes = w → y.bytes = u →
      let sa := o.sbase + walkOffset r.ext r.sstride o.next
      let da := o.dbase + walkOffset r.ext r.dstride o.next
      (∀ src s1 dst s2, engineCheck s quad o.pasid sa w w false true = (.ok src, s1) →
        engineCheck s1 quad o.pasid da u u true true = (.ok dst, s2) →
        (x = .raw w → y = .raw w → moves .copyOperationStart (after (o.buf ++ [piece da da (once src w)]) 0 false (words [src]))) ∧
        (∀ t t', x = .elem t → y = .elem t' →
          let out := convert t t' o.nxm o.rm.toNat false (natOfBytes (once src w))
          moves .copyOperationStart (after (o.buf ++ [piece da da (bytesOfNat u out.1)]) out.2 false (words [src])))) ∧
      (∀ f s1, engineCheck s quad o.pasid sa w w false true = (.error f, s1) → moves .copyOperationStart (ended f.code sa)) ∧
      (∀ src s1 f s2, engineCheck s quad o.pasid sa w w false true = (.ok src, s1) →
        engineCheck s1 quad o.pasid da u u true true = (.error f, s2) → moves .copyOperationStart (ended f.code da))) ∧
    (∀ (r : CopyRegs) (t b : Nat) (fmt : Fmt) (srcs ms : List Ref) (er : Ref) (s1 s2 s3 : State), fresh → o.work = .copy r →
      convSides r.conv = some (.elem t, .block b) → fmtOf t = some fmt →
      let ma := o.dbase + BitVec.ofNat 64 (o.next * mantBytes b)
      let ea := o.dbase + sext (r.dstride.getD 3 0).toNat 32 + BitVec.ofNat 64 o.next
      engineChecks s quad o.pasid false true (elemSize t) (blockElems o.sbase r.ext r.sstride o.next) = (.ok srcs, s1) →
      engineChecks s1 quad o.pasid true true 8 (pieces ma (mantBytes b)) = (.ok ms, s2) →
      engineCheck s2 quad o.pasid ea 1 1 true true = (.ok er, s3) →
      let block := quantise (mantBits b) o.nxm (srcs.map fun e => fmt.value o.nxm (natOfBytes (once e (elemSize t))))
      let mants := packMants (mantBits b) block.mants
      moves .copyOperationStart (after
        (o.buf ++ (row id ma (mantBytes b) (fun i => bytesOfNat 8 (mants / 2 ^ (64 * i))) ++ [piece ea ea (bytesOfNat 1 block.scale)]))
        (block.conds.foldl (· ||| ·) 0) false (words srcs))) ∧
    (∀ (r : CopyRegs) (t b : Nat) (fmt : Fmt) (ms dsts : List Ref) (er : Ref) (s1 s2 s3 : State), fresh → o.work = .copy r →
      convSides r.conv = some (.block b, .elem t) → fmtOf t = some fmt →
      let ma := o.sbase + BitVec.ofNat 64 (o.next * mantBytes b)
      let ea := o.sbase + sext (r.sstride.getD 3 0).toNat 32 + BitVec.ofNat 64 o.next
      let elems := blockElems o.dbase r.ext r.dstride o.next
      engineChecks s quad o.pasid false true 8 (pieces ma (mantBytes b)) = (.ok ms, s1) →
      engineCheck s1 quad o.pasid ea 1 1 false true = (.ok er, s2) →
      engineChecks s2 quad o.pasid true true (elemSize t) elems = (.ok dsts, s3) →
      let mants := ms.foldr (fun e acc => natOfBytes (once e 8) + 2 ^ 64 * acc) 0
      let out (i : Nat) : Nat × Nat :=
        fmt.round o.nxm o.rm.toNat false (dequant o.nxm (natOfBytes (once er 1)) (mantAt (mantBits b) mants i))
      moves .copyOperationStart (after
        (o.buf ++ elems.zipIdx.map fun e => piece e.1 e.1 (bytesOfNat (elemSize t) (out e.2).1))
        ((List.range 32).foldl (fun c i => c ||| (out i).2) 0) false (words (ms ++ [er])))) ∧
    (∀ (g : GatherRegs) (ir : Ref) (s1 : State), fresh → o.work = .gather g → g.rowsize % 8 = 0 →
      engineCheck s quad o.pasid (g.index + BitVec.ofNat 64 (8 * o.next)) 8 8 false true = (.ok ir, s1) →
      let idx := natOfBytes (read s ir 8)
      let there := g.table + BitVec.ofNat 64 (idx * g.rowsize)
      let here := o.sbase + BitVec.ofNat 64 (o.next * g.rowsize)
      (g.scatter = true → g.extent ≤ idx → moves .gatherSublistService (after o.buf 0 true o.seen)) ∧
      (∀ ls s2, g.scatter = false → g.extent ≤ idx → engineChecks s1 quad o.pasid true true 8 (pieces here g.rowsize) = (.ok ls, s2) →
        moves .gatherSublistService (after (o.buf ++ row id here g.rowsize fun _ => [0, 0, 0, 0, 0, 0, 0, 0]) 0 true o.seen)) ∧
      (∀ rs s2 ls s3, idx < g.extent → 0x400000 ≤ there.toNat →
        engineChecks s1 quad o.pasid g.scatter false 8 (pieces there g.rowsize) = (.ok rs, s2) →
        engineChecks s2 quad o.pasid (!g.scatter) true 8 (pieces here g.rowsize) = (.ok ls, s3) →
        (g.scatter = false → moves .gatherSublistService (after
          (o.buf ++ row id here g.rowsize fun i => read s (rs.getD i ir) 8) 0 false o.seen)) ∧
        (g.scatter = true → moves .gatherSublistService (after
          (o.buf ++ row (fun _ => there) there g.rowsize fun i => read s (ls.getD i ir) 8) 0 false o.seen)))) ∧
    (s.ev = [quad, n, 1] → o.finished = false → o.walked = false → o.abort = true → moves .copyOperationStart (ended 4 0)) ∧
    (∀ (p : Placed) (more : List Placed), s.ev = [quad, n, 1] → o.finished = false → o.walked = true → o.buf = p :: more → seen ∨ o.abort = true →
      let host : Bool := match o.work with | .gather g => !g.scatter | .copy _ => true
      let left := more.filter fun q => !o.joins s quad p q
      (∀ q, o.joins s quad p q = true ↔ (∃ c, o.work = .copy c) ∧ (p.dword = q.dword ∨ ∃ r r' s1 s2,
        engineCheck s quad o.pasid p.dword 8 8 true true = (.ok r, s1) ∧ engineCheck s quad o.pasid q.dword 8 8 true true = (.ok r', s2) ∧
        r.isLocal = r'.isLocal ∧ r.addr / 8 = r'.addr / 8)) ∧
      (∀ r s1, engineCheck s quad o.pasid p.dword 8 8 true host = (.ok r, s1) →
        let cells (bs : List (Nat × Byte)) : List (Ref × Byte) := bs.map fun b => ({ r with addr := r.addr + b.1 }, b.2)
        let word := cells (o.wordOut s quad p).bytes
        (s.refuses r = true → moves .copyOperationStart { o with buf := [], fail := some (1, p.first), finished := true }) ∧
        (s.refuses r = false → s1.mayWriteLocal none quad (localCells (s.served word)) = true →
          s1.mayWrite none (globalCells (s.served word)) = true →
          ∃ t : State, exec .copyOperationStart s = .next t ∧ now t = { o with buf := left, finished := left.isEmpty } :: rest ∧
            writesFrom s t quad (s.served (cells ((p :: more.filter (o.joins s quad p)).flatMap fun q => q.bytes))))) ∧
      (∀ f s1, engineCheck s quad o.pasid p.dword 8 8 true host = (.error f, s1) →
        moves .copyOperationStart { o with buf := [], fail := some (f.code, p.first), finished := true })) ∧
    (let x := (s.quad quad).copyCtx n
     let retires (tlf : Bool) (t : State) : Prop :=
       now t = rest ∧ ((t.quad quad).copyCtx n).done = o.num ∧
       (let sum := x.status ||| o.cond ||| (if o.oor then 1 <<< 9 else 0) ||| (if tlf then 1 <<< 8 else 0)
        (o.fail = none → ((t.quad quad).copyCtx n).status = sum ∧ ((t.quad quad).copyCtx n).faddr = x.faddr) ∧
        ∀ why at_, o.fail = some (why, at_) → x.status.getLsbD 16 = false → ((t.quad quad).copyCtx n).faddr = at_ ∧
          ((t.quad quad).copyCtx n).status = sum ||| (1 <<< 16) ||| BitVec.ofNat 64 (why * 2 ^ 20 + o.num % 2 ^ 32 * 2 ^ 32))
     let place := (s.quad quad).tlbase + BitVec.ofNat 64 (8 * n)
     s.ev = [quad, n] → o.finished = true →
       ((s.quad quad).tlbase = 0 → ∃ t : State, exec .copyRetire s = .next t ∧ sameMem s t ∧ retires false t) ∧
       (∀ f s1, (s.quad quad).tlbase ≠ 0 → engineCheck s quad (s.quad quad).tlpasid place 8 8 true true = (.error f, s1) →
         ∃ t : State, exec .copyRetire s = .next t ∧ sameMem s t ∧ retires true t) ∧
       (∀ r s1, (s.quad quad).tlbase ≠ 0 → engineCheck s quad (s.quad quad).tlpasid place 8 8 true true = (.ok r, s1) →
         let cells := s.served (cellsOf r 8 o.num)
         (s.refuses r = true → ∃ t : State, exec .copyRetire s = .next t ∧ sameMem s t ∧ retires true t) ∧
         (s.refuses r = false → s1.mayWriteLocal none quad (localCells cells) = true → s1.mayWrite none (globalCells cells) = true →
           ∃ t : State, exec .copyRetire s = .next t ∧ writesFrom s t quad cells ∧ retires false t)))


/-! ### Matrix (14_matrix) -/

/-- R349, R350, R353, R356: mms, mgang and mldb that their checks pass. An mms joins an instance of its key at the rows that the
instance has, its tiles go DRAINING and FILLING, MISSUED rises by 1 and is the result for xd; an mgang arrives likewise, and the
eighth arrival completes the barrier; an mldb is the last of its gang's loads. Memory and the registers do not change. In a replay an mms
waits for its logged turn (R431), which is not stated here.
The rows that an instance has are read as log 34 says. -/
def Obligations.MatrixSubmits : Prop :=
  ∀ (s : State) (sb : Bool) (d a b c : BitVec 5) (s1 s2 : State) (cw : CWord), s.me.attempt = none → s.me.outs = [] →
    s.myLayer = 0 → s.me.task.portable = false →
    let xa := s.me.getX a
    let xb := s.me.getX b
    let xc := s.me.getX c
    let k := s.me.ctl
    let g := s2.gang s.myGang
    let q := s2.quad s.myQuad
    let missued := (s2.core s.myCore).missued
    let rm := if k.mfmtc.getLsbD 8 then k.mfmtc.toNat / 2 ^ 6 % 4 else k.fpctl.toNat % 4
    let nxm := k.nmode.getLsbD 0
    let gives (t : State) : Prop := onlyTlb s s2 ∧ sameMem s t ∧ t.me.regs = s.me.regs ∧ goesOn s.me t.me ∧
      (t.core s.myCore).missued = missued + 1 ∧
      ∃ o : Out, t.me.outs = [o] ∧ o.ans = some { writes := [.x d (BitVec.ofNat 64 (missued + 1))] }
    let tile (t : State) (n : Nat) (e : Tile) (st : TileState) : Prop :=
      (t.quad s.myQuad).tile? n = some { e with st, eng := true }
    (∀ (r : Ref) (page : Tlb) (src dst : Tile),
      let stile := xb.toNat % 2 ^ 6
      let dtile := xb.toNat / 2 ^ 8 % 2 ^ 6
      let rows := xb.toNat / 2 ^ 16 % 2 ^ 6
      let key : Key := { pb := r.addr, fmt := k.mfmtb.toNat % 4, bscl := k.mscl.toNat / 2 ^ 32 % 2 ^ 16, ofmt := k.mfmtc.toNat % 8
                         rm, nxm, domain := (s2.core s.myCore).mkeydom.toNat % 2 ^ 16 }
      s.me.sampled.refused false = none → descBad xb false = false → tilesBad (s.quad s.myQuad) s.me.sampled xb true 128 = none →
      checkImage s xa s.me.sampled = (.ok (r, page), s1) → checkCword s1 xc = (.ok cw, s2) →
      q.tile? stile = some src → src.st = .ready → q.tile? dtile = some dst → dst.st = .empty → g.hasRoom key rows = true →
      s2.replayOf (s2.gangPart s.myGang) = none →
      ∃ t : State, exec (.mms sb d a b c) s = .next t ∧ gives t ∧ tile t stile src .draining ∧ tile t dtile dst .filling ∧
        ∃ e ∈ (t.gang s.myGang).insts, e.2.key = key ∧ ∃ (m : Member) (before : List Member), e.2.members = before ++ [m] ∧ m.core = s.myCore ∧
          m.ident = missued + 1 ∧ m.rows = rows ∧ m.row0 + rows ≤ 64 ∧ (∀ x ∈ before, x.row0 + x.rows ≤ m.row0) ∧ m.cword = cw ∧
          (m.row0 + rows = 64 → e.2.st = .due)) ∧
    (∀ (dst : Tile),
      let stile := xa.toNat % 2 ^ 6
      let dtile := xa.toNat / 2 ^ 8 % 2 ^ 6
      let j := gangCore s.myCore
      s.me.sampled.refused true = none → (s.gang s.myGang).agrees (k.mfmtb.toNat % 4) nxm = true → descBad xa true = false →
      tilesBad (s.quad s.myQuad) s.me.sampled xa (j == 0) 16 = none → checkCword s xb = (.ok cw, s2) →
      g.arrivals.has j = false → (j = 0 → ∃ src, q.tile? stile = some src ∧ src.st = .ready) → q.tile? dtile = some dst →
      dst.st = .empty →
      ∃ (t : State) (e : Arrival), exec (.mgang sb d a b) s = .next t ∧ gives t ∧ tile t dtile dst .filling ∧
        (j = 0 → ∀ src, q.tile? stile = some src → tile t stile src .draining) ∧ e.m.core = s.myCore ∧
        e.m.ident = missued + 1 ∧ e.m.cword = cw ∧
        let all := g.arrivals.put j e
        (all.length = 8 → (t.gang s.myGang).arrivals = [] ∧ (t.gang s.myGang).ready = g.ready ++ [(s.now, all)]) ∧
        (all.length ≠ 8 → (t.gang s.myGang).arrivals = all ∧ (t.gang s.myGang).ready = g.ready)) ∧
    ∀ (r : Ref) (page : Tlb), k.mfmtb.toNat % 4 ≠ 3 → checkCword s xb = (.ok cw, s1) →
      checkImage s1 xa s.me.sampled = (.ok (r, page), s2) → g.loads.length < 2 →
      ∃ (t : State) (l : BufLoad), exec (.mldb sb a b) s = .next t ∧ onlyTlb s s2 ∧ sameMem s t ∧ sameRegs s.me t.me ∧ goesOn s.me t.me ∧ t.me.outs = [] ∧
        t.gang s.myGang = { g with loads := g.loads ++ [l], latest := some l.id } ∧ l.cword = cw ∧ l.ctx = some s.cur ∧ l.old = false ∧
        l.id = { pa := r.addr, fmt := k.mfmtb.toNat % 4, bscl := k.mscl.toNat / 2 ^ 32 % 2 ^ 16, nxm }

/-- R363, R364, R365: mflush makes the OPEN instances of its key, or those with a member of the context, DUE; mdrain does the latter too, and goes
on only once nothing of the context is pending; mstat writes the status word, STATE 3 for an identifier out of reach; mkey writes the state
of the instance that a member of one row would join, or 0.
How much of a hold is left is a free value (logs 4, 6). -/
def Obligations.MatrixQueries : Prop :=
  ∀ (s : State) (sb : Bool) (d a : BitVec 5) (s1 : State) (r : Ref) (page : Tlb), s.me.attempt = none → s.myLayer = 0 →
    let xa := s.me.getX a
    let k := s.me.ctl
    let co := s.core s.myCore
    let key : Key :=
      { pb := r.addr, fmt := k.mfmtb.toNat % 4, bscl := k.mscl.toNat / 2 ^ 32 % 2 ^ 16, ofmt := k.mfmtc.toNat % 8
        rm := if k.mfmtc.getLsbD 8 then k.mfmtc.toNat / 2 ^ 6 % 4 else k.fpctl.toNat % 4
        nxm := k.nmode.getLsbD 0, domain := (s1.core s.myCore).mkeydom.toNat % 2 ^ 16 }
    let mine (i : Inst) : Bool := i.members.any fun m => m.ctx == some s.cur
    let flushed (from_ t : State) (which : Inst → Bool) : Prop := sameMem from_ t ∧ sameRegs s.me t.me ∧
      t.me.outs = s.me.outs ∧ (∀ g, g ≠ s.myGang → t.gang g = from_.gang g) ∧
      t.gang s.myGang = { from_.gang s.myGang with insts := (from_.gang s.myGang).insts.map fun e =>
        (e.1, if which e.2 = true ∧ e.2.st = .isOpen then { e.2 with st := .due, due := s.now } else e.2) }
    let due (from_ t : State) (which : Inst → Bool) : Prop := flushed from_ t which ∧ goesOn s.me t.me
    (xa = 0 → ∃ t : State, exec (.mflush sb a) s = .next t ∧ due s t mine) ∧
    ((s.gang s.myGang).pending s.cur = false → ∃ t : State, exec (.mdrain sb) s = .next t ∧ due s t mine) ∧
    ((s.gang s.myGang).pending s.cur = true → ∃ t : State, exec (.mdrain sb) s = .next t ∧ flushed s t mine ∧ t.me.pc = s.me.pc ∧
      t.me.status = s.me.status ∧ t.me.lp0 = s.me.lp0 ∧ t.me.lp1 = s.me.lp1) ∧
    (let n := xa.toNat
     ∃ t : State, exec (.mstat sb d a) s = .next t ∧ givesX s t d (
       if n = 0 ∨ co.missued < n ∨ (n : Int) ≤ co.missued - 64 then BitVec.ofNat 64 (n % 2 ^ 32 * 2 ^ 32 + 3 * 2 ^ 8)
       else co.mstatus.get 0 (n % 64))) ∧
    (s.me.sampled.refused false = none → checkImage s xa s.me.sampled = (.ok (r, page), s1) →
      (xa ≠ 0 → ∃ t : State, exec (.mflush sb a) s = .next t ∧ due s1 t fun i => i.key == key) ∧
      ∃ (t : State) (w : Word), exec (.mkey sb d a) s = .next t ∧ givesX { s1 with free := s1.free + 1 } t d w ∧
        ((s1.gang s.myGang).joinable key 1 = none → w = 0) ∧
        ∀ n i, (s1.gang s.myGang).joinable key 1 = some (n, i) → n < 16 → i.members.length ≤ 32 →
          w.getLsbD 63 = true ∧ w.toNat / 2 ^ 32 % 2 ^ 31 = n ∧ w.toNat / 2 ^ 24 % 2 ^ 8 = i.rows % 64 ∧
            w.toNat / 2 ^ 16 % 2 ^ 8 = i.members.length ∧ w.toNat / 2 ^ 12 % 2 ^ 4 = (if i.st = .due then 1 else 0) ∧
            (i.st = .due → w.toNat % 2 ^ 12 = 0))

/-- R15, R160, R278, R349, R352, R356, R358, R360, R362: the steps of a gang. A load makes its image and identity current, but for one accepted
before a full context switch, then its completion word rises by 1, or its issuer has a carry pending where it would pass 2^64; a hold that
expires makes its OPEN instance DUE; a pre-read puts the image of the highest-ranked DUE instance into a buffer, where no other one's image
is kept: of one that no other exceeds in priority, and that has been due longer than every other or as long and was made before it, so that
it ranks first however many cycles have passed (log 6); the array takes the one candidate, though members of operations that have streamed
are still to retire; a member of such an operation retires, of an instance the first, of an mgang any of those left, by the model's choice
(log 77): its rows are written and its tiles and its status change; one that meets the code region or unbacked offsets writes nothing, and its
tiles take their failure transitions. What comes reads once the accesses of its issuer that it has to see are done (log 5).
R127, R128, R347, R348: what the rows of a member that streams come to, of an instance and of the barrier's operation, where no word that it
reads is poisoned: every element from the blocks of A's row and of B's column with their scales, from C where CIN is 1, rounded once, and
where it goes.
Which step comes, and the form of its arguments, are the model's (log 1).
Sources are read when the operation streams, by the model's choice (log 32). That a member which faults there writes nothing while its tiles take
their failure transitions is the model's choice too (log 35). Whose word an operation on a dropped buffer still raises is its reading (log 31). -/
def Obligations.GangSteps : Prop :=
  ∀ (s : State) (gang n j : Nat),
    let g := s.gang gang
    let kb (fmt : Nat) : Nat := 2 ^ fmt
    let pri (i : Inst) : Nat := (i.members.map fun m => m.pri).foldl max 0
    let holds (b : Buffer) (id : BufId) : Prop := b.id = id ∧ b.mant = s.gread id.pa 8192 ∧
      b.scales = s.gread (id.pa + id.bscl) (128 * kb id.fmt)
    (∀ l rest, s.ev = [gang] → g.loads = l :: rest → g.loadRuns = true → s.passed l.gate →
      let done (t : State) : Prop := (t.gang gang).loads = rest ∧ (l.old = true → (t.gang gang).bufG = g.bufG) ∧
        (l.old = false → ∃ b, (t.gang gang).bufG = some b ∧ holds b l.id)
      (l.cword = none → ∃ t : State, exec .bufferGLoad s = .next t ∧ done t ∧ sameMem s t) ∧
      (∀ r, l.cword = some r → r.isLocal = false → s.recordings = [] →
        let v := natOfBytes (s.gread r.addr 8) + 1
        let cells := cellsAt r r.addr (bytesOfNat 8 v)
        (v < 2 ^ 64 → s.mayWrite none (globalCells cells) = true → s.mayWrite none (globalCells (s.served cells)) = true →
          ∃ t : State, exec .bufferGLoad s = .next t ∧ done t ∧ writesFrom s t 0 (s.served cells)) ∧
        (2 ^ 64 ≤ v → ∃ t : State, exec .bufferGLoad s = .next t ∧ done t ∧ sameMem s t ∧
          ∀ k, l.ctx = some k → (t.ctx k).carry = some l.va))) ∧
    (s.ev = [gang, n] → ∃ t : State, exec .holdExpiry s = .next t ∧ sameMem s t ∧ t.ctxs = s.ctxs ∧
      t.gang gang = { g with insts := g.insts.map fun e =>
        (e.1, if e.1 = n ∧ e.2.st = .isOpen then { e.2 with st := .due, due := s.now } else e.2) }) ∧
    (∀ i, s.ev = [gang, n] → (n, i) ∈ g.insts → i.st = .due → (∀ m ∈ i.members, s.passed m.gate) →
      (∀ e ∈ g.insts, if e.1 = n then e.2 = i else e.2.st = .due → pri e.2 ≤ pri i ∧
        (i.due < e.2.due ∨ (i.due = e.2.due ∧ i.made < e.2.made))) →
      ∃ (t : State) (b : Buffer), exec .stationaryImageRead s = .next t ∧ sameMem s t ∧ t.ctxs = s.ctxs ∧
        (i.image = none → holds b { pa := i.key.pb, fmt := i.key.fmt, bscl := i.key.bscl, nxm := i.key.nxm }) ∧
        (∀ c, i.image = some c → b = c) ∧ (n, { i with image := some b }) ∈ (t.gang gang).insts ∧
        ∀ e ∈ g.insts, e.1 ≠ n → e.2.st ≠ .running → (e.1, { e.2 with image := none }) ∈ (t.gang gang).insts) ∧
    (s.ev = [gang] → s.recordings = [] →
      (∀ i, g.ready = [] → (n, i) ∈ g.insts → i.st = .due → (∀ e ∈ g.insts, if e.1 = n then e.2 = i else e.2.st ≠ .due) →
        (∀ m ∈ i.members, s.passed m.gate) →
        ∃ (t : State) (run : Run), exec .arraySelect s = .next t ∧ sameMem s t ∧ t.ctxs = s.ctxs ∧ (t.gang gang).runs = g.runs ++ [run] ∧
          run.inst = some n ∧ (∀ m, m ∈ run.left.map (·.m) ↔ m ∈ i.members) ∧
          (∃ e, (n, e) ∈ (t.gang gang).insts ∧ e.st = .running ∧ e.members = i.members) ∧
          (∀ e ∈ g.insts, e.1 ≠ n → e ∈ (t.gang gang).insts) ∧
          let image (t : Nat) : Byte := match i.image with | none => s.gbyte (i.key.pb + t) | some c => c.mant.getD t 0
          let scales (t : Nat) : Byte := match i.image with | none => s.gbyte (i.key.pb + i.key.bscl + t) | some c => c.scales.getD t 0
          let whole := match i.image with
            | none => ∀ a, i.key.pb ≤ a → a < i.key.pb + i.key.bscl + 8192 → s.poisonedAt a = false | some c => c.bad = []
          ∀ x ∈ run.left, x.source = true ∧ x.nobuf = false ∧ ∀ src dst, (s.quad (quadOfCore x.m.core)).tile? x.m.stile = some src →
            (s.quad (quadOfCore x.m.core)).tile? x.m.dtile = some dst → i.key.fmt < 3 → i.key.ofmt < 6 → (x.m.cin = true → i.key.ofmt < 3) →
            whole → (s.quad (quadOfCore x.m.core)).poison = [] →
            let byte (a : Nat) : Byte := (s.quad (quadOfCore x.m.core)).mem.get a
            x.isPart { rows := x.m.rows, first := 0, cols := 128, fmt := i.key.fmt, ofmt := i.key.ofmt, rm := i.key.rm, nxm := i.key.nxm
                       cin := x.m.cin, a := fun t => byte (src.off + t), aScale := fun t => byte (src.off + x.m.ascl + t), b := image
                       bScale := scales, c := fun t => byte (dst.off + t), dst := dst.off, cscl := x.m.cscl }) ∧
      (∀ at_ arr rest, g.ready = (at_, arr) :: rest → g.loads = [] → (∀ e ∈ g.insts, e.2.st ≠ .due) → (∀ e ∈ arr, s.passed e.2.m.gate) →
        ∃ (t : State) (run : Run), exec .arraySelect s = .next t ∧ sameMem s t ∧ (t.gang gang).ready = rest ∧
          (t.gang gang).runs = g.runs ++ [run] ∧ run.inst = none ∧ (g.bufG = none → ∀ x ∈ run.left, x.nobuf = true ∧ x.cells = []) ∧
          ∀ z b, arr.head?.map (·.2) = some z → g.bufG = some b → b.id.fmt = z.fmt → b.id.nxm = z.nxm → b.bad = [] →
            ∀ e ∈ arr, ∃ x ∈ run.left, x.m = { e.2.m with rows := z.m.rows } ∧ x.source = (e.1 == 0) ∧ x.nobuf = false ∧
              let from_ := s.quad (quadOfCore z.m.core)
              let to_ := s.quad (quadOfCore e.2.m.core)
              ∀ src dst, from_.tile? z.m.stile = some src → to_.tile? e.2.m.dtile = some dst → z.fmt < 3 → z.ofmt < 3 → from_.poison = [] →
                to_.poison = [] → x.isPart { rows := z.m.rows, first := 16 * e.1, cols := 16, fmt := z.fmt, ofmt := z.ofmt, rm := z.rm
                                             nxm := z.nxm, cin := z.m.cin, a := fun t => from_.mem.get (src.off + t)
                                             aScale := fun t => from_.mem.get (src.off + z.m.ascl + t), b := fun t => b.mant.getD t 0
                                             bScale := fun t => b.scales.getD t 0, c := fun t => to_.mem.get (dst.off + t)
                                             dst := dst.off, cscl := e.2.m.cscl })) ∧
    (∀ run x, s.ev = [gang, n, j] → g.runs[n]? = some run → run.left[if run.inst = none then j else 0]? = some x → x.m.cword = none →
      (s.core x.m.core).missued < x.m.ident + 64 →
      let quad := quadOfCore x.m.core
      let q := s.quad quad
      let inside (c : Nat × Byte) : Prop := q.xbound.toNat ≤ c.1 ∧ c.1 < capacity (quadLayer quad)
      let left (t : State) : Prop := (t.gang gang).runs = (g.runs.set n { run with left := run.left.erase x }).filter fun r => !r.left.isEmpty
      s.mayWriteLocal none quad x.cells = true →
      (x.barred = true ∨ (∃ c ∈ x.cells, ¬ inside c) → ∃ t : State, exec .memberRetire s = .next t ∧ sameMem s t ∧
        (∀ e, q.tile? x.m.dtile = some e → (t.quad quad).tile? x.m.dtile = some { e with st := .empty, eng := false }) ∧
        (∀ e, x.source = true → x.m.stile ≠ x.m.dtile → q.tile? x.m.stile = some e →
          (t.quad quad).tile? x.m.stile = some { e with st := .ready, eng := false }) ∧
        left t) ∧
      (x.barred = false → (∀ c ∈ x.cells, inside c) → ∃ t : State, exec .memberRetire s = .next t ∧
        writesFrom s t quad (x.cells.map fun c => ({ isLocal := true, addr := c.1 }, c.2)) ∧
        (∀ e, q.tile? x.m.dtile = some e →
          (t.quad quad).tile? x.m.dtile = some { e with st := if x.nobuf then .empty else .ready, eng := false }) ∧
        (∀ e, x.source = true → x.m.stile ≠ x.m.dtile → q.tile? x.m.stile = some e →
          (t.quad quad).tile? x.m.stile = some { e with st := if x.m.consume then .empty else .ready, eng := false }) ∧
        (t.core x.m.core).mstatus.get 0 (x.m.ident % 64) = BitVec.ofNat 64 (x.m.ident % 2 ^ 32 * 2 ^ 32 +
          x.m.row0 % 64 * 2 ^ 20 + x.m.rows % 64 * 2 ^ 14 + 2 ^ 8 + (if x.nobuf then 2 ^ 11 else 0) + (if x.nan then 2 ^ 5 else 0) +
          x.cond % 32) ∧
        left t))

/-! ### Transfers (15_pyramid) -/

/-- R371, R374, R375, R376, R386: a transfer that the checks pass joins the queue of its quad with a copy of its weight set and the next
number, which stays outstanding for xd; one that they refuse, whose every case is given in the operands' bits, traps with TVAL xa or xb. wset loads a set from its record or traps;
xstat writes its word. -/
def Obligations.TransferInstructions : Prop :=
  ∀ (s : State) (sb : Bool) (d a b : BitVec 5), s.me.attempt = none → s.me.outs = [] →
    let xa := s.me.getX a
    let xb := s.me.getX b
    let q := s.quad s.myQuad
    let nx := xa.toNat / 2 ^ 8 % 2 ^ 12
    let ny := xa.toNat / 2 ^ 20 % 2 ^ 8
    let pitchF := xa.toNat / 2 ^ 28 % 2 ^ 12
    let pitchC := xa.toNat / 2 ^ 40 % 2 ^ 12
    let two := xa.getLsbD 4
    let geo := xa.getLsbD 3
    let e := [8, 4, 2, 2].getD (xa.toNat / 2 ^ 6 % 4) 8
    let fine0 := xb.toNat % 2 ^ 22
    let coarse0 := xb.toNat / 2 ^ 32 % 2 ^ 22
    let fold (k : TransferKind) : Bool := match k with | .rstrF | .prlgF => true | .rstr | .prlg => false
    -- the footprints of R376: the halo of the fine side, and the columns and rows of the coarse side
    let halo (k : TransferKind) : Nat := match k with | .rstr | .rstrF => if geo then 0 else 1 | .prlg | .prlgF => 0
    let haloY (k : TransferKind) : Nat := if two then halo k else 0
    let long : Nat := if two then nx else 2 * nx
    let cols (k : TransferKind) : Nat := if geo then nx else match k with
      | .rstr => long | .rstrF => nx / 2 | .prlg => long + 1 | .prlgF => nx / 2 + 1
    let rows (k : TransferKind) : Nat := if !two then 1 else if geo then ny else match k with
      | .rstr => ny | .rstrF => ny / 2 | .prlg => ny + 1 | .prlgF => ny / 2 + 1
    let fine (x y : Int) : Int := fine0 + (y * pitchF + x) * e
    let coarse (x y : Int) : Int := coarse0 + (y * pitchC + x) * e
    let set := (q.weights.find? fun e => e.1 == xa.toNat % 8).map (·.2)
    let shape (k : TransferKind) : Prop :=
      2 ^ 52 ≤ xa.toNat ∨ nx = 0 ∨ ny = 0 ∨ (two = false ∧ (ny ≠ 1 ∨ pitchC ≠ 0 ∨ pitchF ≠ 0)) ∨
      (geo = false ∧ (nx % 2 = 1 ∨ (two = true ∧ ny % 2 = 1))) ∨ (geo = true ∧ fold k = true) ∨ set = none ∨
      (∃ w, set = some w ∧ ((geo = false ∧ two = false ∧ w.rows ≠ 1) ∨ (geo = true ∧ ¬ (w.rows = 2 ∧ w.cols = 2)))) ∨
      (two = true ∧ (pitchF < nx + 2 * halo k ∨ pitchC < cols k))
    let offsets (k : TransferKind) : Prop :=
      2 ^ 54 ≤ xb.toNat ∨ xb.toNat / 2 ^ 22 % 2 ^ 10 ≠ 0 ∨ fine0 % e ≠ 0 ∨ coarse0 % e ≠ 0 ∨
      fine (-(halo k : Int)) (-(haloY k : Int)) < 0 ∨
      (capacity (if fold k = true then s.myLayer else s.myLayer - 1) : Int) < fine (nx - 1 + halo k) (ny - 1 + haloY k) + e ∨
      (capacity s.myLayer : Int) < coarse ((cols k : Int) - 1) ((rows k : Int) - 1) + e ∨
      (fold k = true ∧ ∃ x y u v : Int, -(halo k : Int) ≤ x ∧ x < nx + halo k ∧ -(haloY k : Int) ≤ y ∧ y < ny + haloY k ∧
        0 ≤ u ∧ u < cols k ∧ 0 ≤ v ∧ v < rows k ∧ fine x y < coarse u v + e ∧ coarse u v < fine x y + e)
    let starts (i : Instr) (k : TransferKind) : Prop :=
      (s.me.task.portable = false → ¬ shape k → ¬ offsets k → q.tq.length < 4 →
        ∃ (t : State) (o : Out) (op : TransferOp), exec i s = .next t ∧ sameMem s t ∧ t.me.regs = s.me.regs ∧ goesOn s.me t.me ∧ t.me.outs = [o] ∧
          o.ans = some { writes := [.x d (BitVec.ofNat 64 (q.tissued + 1))] } ∧ op.num = q.tissued + 1 ∧ op.kind = k ∧ op.xa = xa ∧
          op.xb = xb ∧ (∀ w, (xa.toNat % 8, w) ∈ q.weights → (∀ e ∈ q.weights, e.1 = xa.toNat % 8 → e.2 = w) → op.set = w) ∧
          op.rm.toNat = s.me.ctl.fpctl.toNat % 4 ∧ op.finished = false ∧ op.next = 0 ∧
          op.pasid = s.me.ctl.pasid ∧ op.abort = false ∧ t.quad s.myQuad = { q with tq := q.tq ++ [op], tissued := q.tissued + 1 }) ∧
      (s.me.task.portable = false → shape k → takesTraps s.me → ∃ t : State, exec i s = .next t ∧ entersTrap s t 0x03 xa) ∧
      (s.me.task.portable = false → ¬ shape k → offsets k → takesTraps s.me →
        ∃ t : State, exec i s = .next t ∧ entersTrap s t 0x03 xb)
    (s.myLayer ≠ 0 → starts (.rstr sb d a b) .rstr ∧ starts (.prlg sb d a b) .prlg) ∧
    starts (.rstrF sb d a b) .rstrF ∧ starts (.prlgF sb d a b) .prlgF ∧
    (∀ refs s', checkDwords s xa 5 = (.ok refs, s') →
      let bs := refs.flatMap fun r => s'.readRef s.cur false r 8
      let n (i : Nat) : Nat := (bs.getD i 0).toNat
      let good := 1 ≤ n 0 ∧ n 0 ≤ 3 ∧ 1 ≤ n 1 ∧ n 1 ≤ 3 ∧ n 3 = 0
      (good → ∃ (t : State) (w : WeightSet), exec (.wset sb a b) s = .next t ∧ sameMem s t ∧ sameRegs s.me t.me ∧ goesOn s.me t.me ∧
        t.quad s.myQuad = { s'.quad s.myQuad with weights := (s'.quad s.myQuad).weights.put (xb.toNat % 8) w } ∧
        w.rows = n 0 ∧ w.cols = n 1 ∧ ∀ i j, i < 3 → j < 3 → w.at i j =
          if i < n 0 ∧ j < n 1 then BitVec.ofNat 64 (natOfBytes ((bs.drop (4 + 4 * (3 * i + j))).take 4)) else 0) ∧
      (¬ good → takesTraps s.me → ∃ t : State, exec (.wset sb a b) s = .next t ∧ entersTrap s' t 0x03 xa)) ∧
    (xa.getLsbD 3 = false → ∃ t : State, exec (.xstat sb d a) s = .next t ∧ givesX s t d
      (match q.weights.find? fun e => e.1 == xa.toNat % 8 with
        | some e => BitVec.ofNat 64 (2 ^ 8 + e.2.rows * 2 ^ 4 + e.2.cols) | none => 0)) ∧
    (xa.getLsbD 3 = true → ∃ t : State, exec (.xstat sb d a) s = .next t ∧ givesX s t d
      (let running : Nat := match q.tq with
        | o :: _ => if o.started then (match o.kind with | .rstr => 1 | .rstrF => 2 | .prlg => 3 | .prlgF => 4) else 0 | [] => 0
       BitVec.ofNat 64 (running * 2 ^ 4 + q.tq.length)))

/-- R326, R377 to R380, R382, R383: the transfer engine at work. A step computes the next output from the elements that it reads, each of
which the operation reads once, with its aligned 8-byte word (R337); when all are computed, or a teardown has stopped it (R331, R411), each
aligned 8-byte word is written in one access, and no other byte changes, all of it once the accesses before the transfer are done (R384); the
operation retires with DONE its number, in its timeline's word too where TLBASE places one, and its conditions in the status word.
R377 to R381: the outputs of a coarsening and of a refining, in 1D, in 2D and in a fold, of a combining and of a copying: which weights meet
which elements, and where the result goes; and what an output comes to: the exact sum of its products, and of its destination under ADD,
rounded once, with the rule's NaNs, infinities and zeros.
Which step comes, and the form of its arguments, are the model's (log 1).
That every output is computed before the first word is written is the model's choice (log 32). That an operation stopped by a teardown still
writes the words that it has computed, and then retires, is the model's reading (log 44), which R331 and R411 do not say. That a sum which
is not zero but rounds to zero keeps its sign, that a sum of no product is +0, and that a poisoned element gives the canonical NaN and
invalid, are its readings too (logs 33, 21). -/
def Obligations.TransferSteps : Prop :=
  (∀ (s : State) (quad : Nat) (o : TransferOp) (rest : List TransferOp), (s.quad quad).tq = o :: rest →
    let now (t : State) : List TransferOp := (t.quad quad).tq
    (s.ev = [quad, 1] → o.finished = false → o.next < o.total → o.abort = false → o.started = true ∨ s.passed o.gate →
      let out := outputOf o quad o.next
      let h := Shape.of o.xa
      let seen := readOnce s h.e o.seen (out.reads h)
      let r := outElement seen h o.rm.toNat out
      let at_ : Word := BitVec.ofNat 64 out.at_
      let p : Placed := { quad := out.dst, dword := setFld at_ 0 3 0, first := 0
                          bytes := (bytesOfNat h.e r.1).zipIdx.map fun e => (at_.toNat % 8 + e.2, e.1) }
      ∃ t : State, exec .transferOperationStart s = .next t ∧ sameMem s t ∧
        now t = { o with started := true, next := o.next + 1, seen, buf := p.put o.buf, cond := o.cond ||| BitVec.ofNat 64 r.2 } :: rest) ∧
    (s.ev = [quad, 1] → o.finished = false → o.total ≤ o.next ∨ o.abort = true → o.started = true ∨ o.abort = true ∨ s.passed o.gate →
      (o.buf = [] → ∃ t : State, exec .transferOperationStart s = .next t ∧ sameMem s t ∧
        now t = { o with started := true, finished := true } :: rest) ∧
      ∀ p more, o.buf = p :: more →
        let cells : List (Ref × Byte) := p.bytes.map fun b => ({ isLocal := true, addr := p.dword.toNat + b.1 }, b.2)
        s.mayWriteLocal none p.quad (localCells cells) = true →
        ∃ t : State, exec .transferOperationStart s = .next t ∧ writesFrom s t p.quad cells ∧
          now t = { o with buf := more, finished := more.isEmpty } :: rest) ∧
    (let retires (tlf : Bool) (t : State) : Prop := now t = rest ∧ (t.quad quad).tdone = o.num ∧
       (t.quad quad).tstatus = (s.quad quad).tstatus ||| o.cond ||| (if tlf then 1 <<< 8 else 0)
     let place := (s.quad quad).tlbase + 32
     s.ev = [quad] → o.finished = true →
       ((s.quad quad).tlbase = 0 → ∃ t : State, exec .transferRetire s = .next t ∧ sameMem s t ∧ t.ctxs = s.ctxs ∧ retires false t) ∧
       (∀ f s1, (s.quad quad).tlbase ≠ 0 → engineCheck s quad (s.quad quad).tlpasid place 8 8 true true = (.error f, s1) →
         ∃ t : State, exec .transferRetire s = .next t ∧ sameMem s t ∧ retires true t) ∧
       (∀ r s1, (s.quad quad).tlbase ≠ 0 → engineCheck s quad (s.quad quad).tlpasid place 8 8 true true = (.ok r, s1) →
         let cells := s.served (cellsOf r 8 o.num)
         (s.refuses r = true → ∃ t : State, exec .transferRetire s = .next t ∧ sameMem s t ∧ retires true t) ∧
         (s.refuses r = false → s1.mayWriteLocal none quad (localCells cells) = true → s1.mayWrite none (globalCells cells) = true →
           ∃ t : State, exec .transferRetire s = .next t ∧ writesFrom s t quad cells ∧ retires false t)))) ∧
  (∀ (o : TransferOp) (quad k : Nat),
    let h := Shape.of o.xa
    let H := h.nx / 2
    let V := if h.two then h.ny / 2 else 1
    let ny := if h.two || h.geo then h.ny else 1
    let cx : Int := if o.set.cols = 3 then 1 else 0
    let cy : Int := if o.set.rows = 3 then 1 else 0
    let fold := o.kind = .rstrF ∨ o.kind = .prlgF
    let kids := if fold then 1 else 4
    let child := if fold then quad else (childrenOf quad).getD k quad
    let x0 : Nat := if fold then 0 else if h.two then k % 2 * H else k * H
    let y0 : Nat := if fold ∨ h.two = false then 0 else k / 2 * (h.ny / 2)
    let fine (x y : Int) : Nat := ((fineOff o.xb : Int) + (y * h.pitchF + x) * h.e).toNat
    let coarse (x y : Int) : Nat := ((coarseOff o.xb : Int) + (y * h.pitchC + x) * h.e).toNat
    let places := (List.range o.set.rows).flatMap fun i => (List.range o.set.cols).map fun j => (i, j)
    k < kids →
    (o.kind = .rstr ∨ o.kind = .rstrF → h.geo = false → o.total = kids * (V * H) ∧ ∀ m n, m < H → n < V →
      let out := outputOf o quad (k * (V * H) + n * H + m)
      out.dst = quad ∧ out.at_ = coarse (x0 + m : Nat) (y0 + n : Nat) ∧
      out.terms = places.map fun p => { weight := o.set.at p.1 p.2, src := child, at_ := fine (2 * m + p.2 - cx) (2 * n + p.1 - cy) }) ∧
    (o.kind = .prlg ∨ o.kind = .prlgF → h.geo = false → o.total = kids * (ny * h.nx) ∧ ∀ x y, x < h.nx → y < ny →
      let out := outputOf o quad (k * (ny * h.nx) + y * h.nx + x)
      out.dst = child ∧ out.at_ = fine x y ∧
      out.terms = (places.filter fun p => ((x : Int) - p.2 + cx) % 2 = 0 ∧ ((y : Int) - p.1 + cy) % 2 = 0).map fun p =>
        { weight := o.set.at p.1 p.2, src := quad
          at_ := coarse (x0 + ((x : Int) - p.2 + cx) / 2) (y0 + ((y : Int) - p.1 + cy) / 2) }) ∧
    (o.kind = .rstr → h.geo = true → o.total = ny * h.nx ∧ ∀ x y, x < h.nx → y < ny →
      let out := outputOf o quad (y * h.nx + x)
      out.dst = quad ∧ out.at_ = coarse x y ∧ out.terms = (List.range 4).map fun j =>
        { weight := o.set.at (j / 2) (j % 2), src := (childrenOf quad).getD j quad, at_ := fine x y }) ∧
    (o.kind = .prlg → h.geo = true → o.total = 4 * (ny * h.nx) ∧ ∀ x y, x < h.nx → y < ny →
      let out := outputOf o quad (k * (ny * h.nx) + y * h.nx + x)
      out.dst = child ∧ out.at_ = fine x y ∧ out.terms = [{ weight := o.set.at (k / 2) (k % 2), src := quad, at_ := coarse x y }])) ∧
  ∀ (seen : Map (Nat × Bool)) (h : Shape) (rm : Nat) (out : Output), rm < 4 → h.fmt < 4 →
    let f := (fmtOf h.fmt).getD .f32
    let at_ (q a : Nat) : Nat × Bool := seen.get (0, false) (elementKey (q, a))
    let pairs : List (Val × Val) := out.terms.map fun t => (Fmt.f32.value false t.weight.toNat, f.value false (at_ t.src t.at_).1)
    let own : List Val := if h.add then [f.value false (at_ out.dst out.at_).1] else []
    let poisoned := (∃ t ∈ out.terms, (at_ t.src t.at_).2 = true) ∨ (h.add = true ∧ (at_ out.dst out.at_).2 = true)
    let number (v : Val) : ℚ := match v with | .fin n m e => (if n then -1 else 1) * m * (2 : ℚ) ^ e | _ => 0
    let minus (v : Val) : Bool := match v with | .zero n | .fin n _ _ | .inf n => n | .nan _ => false
    let infinite (v : Val) : Prop := ∃ n, v = .inf n
    let zero (v : Val) : Prop := ∃ n, v = .zero n
    let isInf (n : Bool) : Prop := (∃ p ∈ pairs, (infinite p.1 ∨ infinite p.2) ∧ (minus p.1 != minus p.2) = n) ∨ .inf n ∈ own
    let invalid := (∃ p ∈ pairs, p.1.isNan = true ∨ p.2.isNan = true ∨ (infinite p.1 ∧ zero p.2) ∨ (zero p.1 ∧ infinite p.2)) ∨
      (∃ v ∈ own, v.isNan = true) ∨ (isInf true ∧ isInf false)
    let sum := (pairs.map fun p => number p.1 * number p.2).sum + (own.map number).sum
    let none_ := pairs = [] ∧ own = []
    let allMinus := (∀ p ∈ pairs, (zero p.1 ∨ zero p.2) ∧ minus p.1 ≠ minus p.2) ∧ ∀ v ∈ own, v = .zero true
    let someValue := (∃ p ∈ pairs, ¬ zero p.1 ∧ ¬ zero p.2) ∨ ∃ v ∈ own, ¬ zero v
    let sign : Nat := 2 ^ (f.width - 1)
    let r := outElement seen h rm out
    (poisoned ∨ invalid → r = (f.qnan, 16)) ∧
    (¬ poisoned → ¬ invalid →
      (∀ n, isInf n → r = ((if n then sign else 0) + (2 ^ f.ebits - 1) * 2 ^ f.fbits, 0)) ∧
      (¬ isInf true → ¬ isInf false →
        (sum ≠ 0 → roundsTo f false rm false (decide (sum < 0)) |sum| r) ∧
        (sum = 0 → ((allMinus ∧ ¬ none_) ∨ (someValue ∧ rm = 3) → r = (sign, 0)) ∧
          (¬ (allMinus ∧ ¬ none_) → ¬ (someValue ∧ rm = 3) → r = (0, 0)))))

/-! ### Numbers (05_numbers) -/

/-- R122 to R126: the sum of products of a block of at most 32 mantissas, which the machine finds from its three residues, is exact; an
accumulation that 96 bits hold is exact, and any other is rounded to nearest by the place that is dropped. -/
def Obligations.MatrixSumsExact : Prop :=
  (∀ l : List (Int × Int), l.length ≤ 32 → (∀ p ∈ l, p.1.natAbs ≤ 32767 ∧ p.2.natAbs ≤ 32767) →
    blockSum l = (l.map fun p => p.1 * p.2).sum) ∧
  ∀ (acc : Acc) (x g : Int), acc.kind = .finite → x ≠ 0 →
    let f0 := if acc.a = 0 then g else min acc.f g
    let v := acc.a * 2 ^ (acc.f - f0).toNat + x * 2 ^ (g - f0).toNat
    v ≠ 0 →
    (-2 ^ 95 ≤ v → v < 2 ^ 95 → acc.add x g = { acc with a := v, f := f0 }) ∧
    ∃ k : Nat, (acc.add x g).f = f0 + k ∧ -2 ^ 95 ≤ (acc.add x g).a ∧ (acc.add x g).a < 2 ^ 95 ∧
      2 * ((acc.add x g).a * 2 ^ k - v).natAbs ≤ 2 ^ k

/-- R107, R116, R129, R136: every code that is no NaN rounds to itself in every mode, with no condition but underflow where that traps
and the number is subnormal; a magnitude is rounded down, up or to nearest, ties to even, as the mode and the sign say, and is
inexact exactly where it changes; the sum and the product of finite numbers are exact before that. What any finite number rounds to in a
format, with its conditions, where it overflows and where it is tiny; and what zeros, infinities and NaNs become. -/
def Obligations.NumbersRound : Prop :=
  (∀ (f : Fmt) (nxm tuf : Bool) (rm code : Nat), code < 2 ^ f.width → (f.value nxm code).isNan = false →
    let ex := code / 2 ^ f.fbits % 2 ^ f.ebits
    let fr := code % 2 ^ f.fbits
    f.round nxm rm tuf (f.value nxm code) = (code, if ex = 0 ∧ fr ≠ 0 ∧ tuf = true then cUF else 0)) ∧
  (∀ (f : Fmt) (nxm tuf neg : Bool) (rm m : Nat) (e : Int), rm < 4 → 0 < m →
    roundsTo f nxm rm tuf neg (m * 2 ^ e) (f.round nxm rm tuf (.fin neg m e))) ∧
  (∀ (f : Fmt) (nxm tuf neg sig : Bool) (rm : Nat),
    let sign : Nat := if neg then 2 ^ (f.width - 1) else 0
    let wide := f.narrow = true ∧ nxm = true
    f.round nxm rm tuf (.zero neg) = (sign, 0) ∧
    (f ≠ .e4m3 → ¬ wide → f.round nxm rm tuf (.inf neg) = (sign + (2 ^ f.ebits - 1) * 2 ^ f.fbits, 0)) ∧
    (nxm = false → Fmt.e4m3.round nxm rm tuf (.inf neg) = (0x7F, 16)) ∧
    (wide → f.round nxm rm tuf (.inf neg) = (sign + 2 ^ (f.width - 1) - 1, 16) ∧ f.round nxm rm tuf (.nan sig) = (0, 16)) ∧
    (¬ wide → f.round nxm rm tuf (.nan sig) = (f.qnan, if sig then 16 else 0))) ∧
  (∀ (rm m k : Nat) (neg : Bool), rm < 4 →
    let q := (roundShift rm neg m k).1
    let down := m / 2 ^ k
    let up := (m + 2 ^ k - 1) / 2 ^ k
    ((roundShift rm neg m k).2 = true ↔ m % 2 ^ k ≠ 0) ∧
    (rm = 0 → 2 * ((q : Int) * 2 ^ k - m).natAbs ≤ 2 ^ k ∧ (2 * ((q : Int) * 2 ^ k - m).natAbs = 2 ^ k → 0 < k → q % 2 = 0)) ∧
    (rm = 1 → q = down) ∧ (rm = 2 → q = if neg then down else up) ∧ (rm = 3 → q = if neg then up else down)) ∧
  ∀ (rm : Nat) (n n' : Bool) (m m' : Nat) (e e' : Int), 0 < m → 0 < m' →
    let value (v : Val) : ℚ := match v with
      | .fin n m e => (if n then -1 else 1) * m * (2 : ℚ) ^ e | _ => 0
    let x := Val.fin n m e
    let y := Val.fin n' m' e'
    value (x.add rm y).1 = value x + value y ∧ (x.add rm y).2 = 0 ∧ value (x.mul y).1 = value x * value y ∧ (x.mul y).2 = 0 ∧
    (value x + value y = 0 → (x.add rm y).1 = .zero (rm == 3)) ∧
    ∀ (n2 : Bool) (m2 : Nat) (e2 : Int), 0 < m2 → value (x.fma rm y (.fin n2 m2 e2)).1 = value x * value y + value (.fin n2 m2 e2)

/-! ### Vectors (06_vector) -/

/-- R138 to R144, R147 to R150: the value that each active element of vd takes, with the conditions it raises, for every type: the
floating operation in the element's format, correctly rounded, or the wrapping integer one; the bitwise operations and shifts;
vperm, vbcast, vslide and vexpand; and the conversions.
That an exact subnormal power raises underflow where TUF is set is the model's choice (log 17), and so is that inactive lanes are those of
vd as the instruction issues, also where vd has an earlier result outstanding (log 68). -/
def Obligations.VectorElements : Prop :=
  ∀ (s : State) (sb : Bool) (v a b e : BitVec 5) (k t : BitVec 3) (u : BitVec 2) (o : BitVec 1),
    let m : Mode := { rm := s.me.ctl.fpctl.toNat % 4, tuf := s.me.ctl.fpctl.getLsbD 13 }
    let nxm := s.me.ctl.nmode.getLsbD 0
    let va := s.me.getV a
    let vb := s.me.getV b
    let vd := s.me.getV v
    let ty := t.toNat
    let w := elemSize ty
    let bits := 8 * w
    let x (j : Nat) : Nat := lane w va j
    let y (j : Nat) : Nat := lane w vb j
    let does (i : Instr) (f : Nat → Nat × Nat) : Prop := computesLanes s i v k ty w (128 / w) f
    let each (fl : Fmt → Nat → Nat → Nat × Nat) (int : Nat → Nat → Nat) (j : Nat) : Nat × Nat :=
      match fmtOf ty with | some f => fl f (x j) (y j) | none => (int (x j) (y j), 0)
    let signed (c : Nat) : Int := if c < 2 ^ (bits - 1) then (c : Int) else c - 2 ^ bits
    let mod (i : Int) : Nat := (i % (2 : Int) ^ bits).toNat
    let uw := elemSize (4 + u.toNat)
    let ubits := 8 * uw
    let usigned (c : Nat) : Int := if c < 2 ^ (ubits - 1) then (c : Int) else c - 2 ^ ubits
    let bitwise (i : Instr) (f : Nat → Nat → Nat) : Prop :=
      computesLanes s i v k (4 + u.toNat) uw (128 / uw) fun j => (f (lane uw va j) (lane uw vb j), 0)
    let src := elemSize b.toNat
    let usrc := elemSize u.toNat
    does (.vadd sb v a b k t) (each (fun f => f.opAdd m) fun c d => mod (signed c + signed d)) ∧
    does (.vsub sb v a b k t) (each (fun f => f.opSub m) fun c d => mod (signed c - signed d)) ∧
    does (.vmul sb v a b k t) (each (fun f => f.opMul m) fun c d => mod (signed c * signed d)) ∧
    does (.vmin sb v a b k t) (each (fun f => f.minMax false) fun c d => if signed c ≤ signed d then c else d) ∧
    does (.vmax sb v a b k t) (each (fun f => f.minMax true) fun c d => if signed c ≤ signed d then d else c) ∧
    does (.vabs sb v a k t) (each (fun _ c _ => (c % 2 ^ (bits - 1), 0)) fun c _ => mod (signed c).natAbs) ∧
    does (.vneg sb v a k t) (each (fun _ c _ => ((c + 2 ^ (bits - 1)) % 2 ^ bits, 0)) fun c _ => mod (-signed c)) ∧
    computesLanes s (.vexp2 sb v a k u) v k u.toNat usrc (128 / usrc) (fun j =>
      ((fmtOf u.toNat).getD .f64).exp2 m.rm m.tuf (lane usrc va j)) ∧
    does (.vfma sb v a b k t) (fun j => match fmtOf ty with
      | some f => f.opFma m (x j) (y j) (lane w vd j) | none => (mod (signed (x j) * signed (y j) + signed (lane w vd j)), 0)) ∧
    bitwise (.vand sb v a b k u) (fun c d => c &&& d) ∧ bitwise (.vor sb v a b k u) (fun c d => c ||| d) ∧
    bitwise (.vxor sb v a b k u) (fun c d => c ^^^ d) ∧
    bitwise (.vshl sb v a b k u) (fun c d => c * 2 ^ (d % ubits) % 2 ^ ubits) ∧
    bitwise (.vshr sb v a b k u) (fun c d => (usigned c / (2 : Int) ^ (d % ubits) % (2 : Int) ^ ubits).toNat) ∧
    does (.vperm sb v a b k t) (fun j => (x (y j % (128 / w)), 0)) ∧
    does (.vbcast sb v a k t) (fun _ => ((s.me.getX a).toNat, 0)) ∧
    does (.vslide sb v a b k t) (fun j =>
      let from_ : Int := j + (s.me.getX b).toInt
      (if 0 ≤ from_ ∧ from_ < (128 / w : Nat) then x from_.toNat else 0, 0)) ∧
    does (.vexpand sb v a k t) (fun j => (x ((List.range j).filter (active ty (s.me.getK k))).length, 0)) ∧
    computesLanes s (.vcvt sb v a b k t) v k ty w (min (128 / src) (128 / w)) (fun j =>
      convert b.toNat ty nxm m.rm m.tuf (lane src va j)) ∧
    computesLanes s (.vcvtFp8 sb v a o k u) v k u.toNat 1 (128 / usrc) (fun j =>
      convert u.toNat (8 + o.toNat) nxm m.rm m.tuf (lane usrc va j)) ∧
    computesLanes s (.vqunpack sb v a e k u) v k u.toNat usrc (min 32 (128 / usrc)) (fun j =>
      ((fmtOf u.toNat).getD .f64).round false m.rm m.tuf
        (dequant nxm (va.toNat / 2 ^ 1016) (mantAt (mantBits e.toNat) va.toNat j)))

/-- R143, R144, R149: the reductions over the fixed tree, whose root goes to element 0 with every other byte 0; vcompress, vsel and
vqpack, which write every element. -/
def Obligations.VectorWholes : Prop :=
  ∀ (s : State) (sb : Bool) (v a b e : BitVec 5) (k t : BitVec 3) (u : BitVec 2),
    let m : Mode := { rm := s.me.ctl.fpctl.toNat % 4, tuf := s.me.ctl.fpctl.getLsbD 13 }
    let va := s.me.getV a
    let vb := s.me.getV b
    let ty := t.toNat
    let w := elemSize ty
    let bits := 8 * w
    let on (j : Nat) : Bool := active ty (s.me.getK k) j
    let signed (c : Nat) : Int := if c < 2 ^ (bits - 1) then (c : Int) else c - 2 ^ bits
    let mod (i : Int) : Nat := (i % (2 : Int) ^ bits).toNat
    let op (fl : Fmt → Nat → Nat → Nat × Nat) (int : Int → Int → Int) (c d : Nat) : Nat × Nat :=
      match fmtOf ty with | some f => fl f c d | none => (mod (int (signed c) (signed d)), 0)
    let levels := match w with | 8 => 4 | 4 => 5 | 2 => 6 | _ => 7
    let reduces (i : Instr) (leaf : Nat → Nat × Nat) (f : Nat → Nat → Nat × Nat) (empty : Nat) : Prop :=
      let root := (treeRoot f (fun j => if on j then some (leaf j) else none) levels 0).getD (empty, 0)
      (root.2 &&& trapsOn s = 0 → ∃ (t : State) (r : VWord), exec i s = .next t ∧ givesV (flagged s root.2) t v r ∧
        r.toNat = root.1 % 2 ^ bits) ∧
      (root.2 &&& trapsOn s ≠ 0 → takesTraps s.me → ∃ (t : State) (j : Nat), exec i s = .next t ∧ on j = true ∧
        entersTrap (flagged s root.2) t 0x05 (BitVec.ofNat 64 (j * 2 ^ 8 + root.2)))
    let add := op (fun f => f.opAdd m) (· + ·)
    let nan (int : Nat) : Nat := match fmtOf ty with | some f => f.qnan | none => int
    let uw := elemSize u.toNat
    let f := (fmtOf u.toNat).getD .f64
    let q := quantise (mantBits e.toNat) (s.me.ctl.nmode.getLsbD 0) ((List.range 32).map fun j =>
      if j < 128 / uw ∧ active u.toNat (s.me.getK k) j = true then f.value false (lane uw va j) else .zero false)
    reduces (.vredsum sb v a k t) (fun j => (lane w va j, 0)) add 0 ∧
    reduces (.vredmax sb v a k t) (fun j => (lane w va j, 0)) (op (fun f => f.minMax true) max) (nan (2 ^ (bits - 1))) ∧
    reduces (.vredmin sb v a k t) (fun j => (lane w va j, 0)) (op (fun f => f.minMax false) min) (nan (2 ^ (bits - 1) - 1)) ∧
    reduces (.vdot sb v a b k t) (fun j => op (fun f => f.opMul m) (· * ·) (lane w va j) (lane w vb j)) add 0 ∧
    (∃ (t : State) (r : VWord), exec (.vcompress sb v a k (BitVec.ofNat 3 ty)) s = .next t ∧ givesV s t v r ∧
      let kept := (List.range (128 / w)).filter on
      ∀ j, j < 128 / w → lane w r j = if h : j < kept.length then lane w va kept[j] else 0) ∧
    (∃ (t : State) (r : VWord), exec (.vsel sb v a b k (BitVec.ofNat 3 ty)) s = .next t ∧ givesV s t v r ∧
      ∀ j, j < 128 / w → lane w r j = if on j then lane w va j else lane w vb j) ∧
    (let cond := q.conds.foldl (· ||| ·) 0
     cond &&& trapsOn s = 0 → ∃ (t : State) (r : VWord), exec (.vqpack sb v a e k u) s = .next t ∧ givesV (flagged s cond) t v r ∧
       r.toNat / 2 ^ 1016 = q.scale ∧ r.toNat % 2 ^ 1016 = packMants (mantBits e.toNat) q.mants)

/-- R137, R138, R154: vdiv, vsqrt, fdiv and fsqrt. Where the operands fix a condition that is enabled they trap at the instruction, with
the union of the conditions and the lowest lane that raised an enabled one (0 for a scalar); else the correctly rounded result is outstanding
for the destination, with that union and that lane to be recorded when it arrives. What the quotient and the root of any codes are, and the
conditions that they raise: the exact ones rounded once, and the results of zeros, infinities and NaNs. That flags not trapped come with the result, and the enables of the issue count,
is the model's reading (log 54). That the inactive lanes are those of vd as the instruction issues, also where vd has an earlier result
outstanding, is the model's choice (log 68). -/
def Obligations.DivisionsAndRoots : Prop :=
  ∀ (s : State) (sb : Bool) (v a b : BitVec 5) (k : BitVec 3) (u : BitVec 2),
    let m : Mode := { rm := s.me.ctl.fpctl.toNat % 4, tuf := s.me.ctl.fpctl.getLsbD 13 }
    let f := (fmtOf u.toNat).getD .f64
    let w := elemSize u.toNat
    let va := s.me.getV a
    let vb := s.me.getV b
    let x := (s.me.getX a).toNat % 2 ^ f.width
    let y := (s.me.getX b).toNat % 2 ^ f.width
    let act := (List.range (128 / w)).filter (active u.toNat (s.me.getK k))
    let all (l : List Nat) : Nat := l.foldl (· ||| ·) 0
    -- `raised` pairs each lane with the conditions that it raises
    let issues (i : Instr) (known : Nat) (raised : List (Nat × Nat)) (write : RegWrite → Prop) (dsts : List Dst) : Prop :=
      let cond := all (raised.map fun e => e.2)
      let named (j : Nat) : Prop := (∃ c, (j, c) ∈ raised ∧ c &&& trapsOn s ≠ 0) ∧ ∀ e ∈ raised, e.2 &&& trapsOn s ≠ 0 → j ≤ e.1
      (known &&& trapsOn s = 0 → ∃ (t : State) (o : Out) (ans : Ans) (r : RegWrite), exec i s = .next t ∧
        issuesOut s t o ∧ o.op = .value ∧ o.pure = true ∧ o.dsts = dsts ∧ o.ans = some ans ∧ ans.writes = [r] ∧
        write r ∧ ans.carry = none ∧
        match ans.fp with
        | none => cond = 0
        | some fp => cond ≠ 0 ∧ fp.cond = BitVec.ofNat 64 cond ∧ fp.addr = s.me.pc ∧ fp.en = trapsOn s ∧ ∀ j, named j → fp.lane = j) ∧
      (known &&& trapsOn s ≠ 0 → takesTraps s.me → ∃ (t : State) (j : Nat), exec i s = .next t ∧ named j ∧
        entersTrap (flagged s cond) t 0x05 (BitVec.ofNat 64 (j % 2 ^ 7 * 2 ^ 8 + cond)))
    let vector (i : Instr) (r : Nat → Long) : Prop :=
      issues i (all (act.map fun j => (r j).known)) (act.map fun j => (j, (r j).known ||| (r j).rounded)) (fun e => ∃ z, e = .v v z ∧
        ∀ j, j < 128 / w → lane w z j = if active u.toNat (s.me.getK k) j then (r j).code % 2 ^ (8 * w) else lane w (s.me.getV v) j)
        [.v v]
    let scalar (i : Instr) (r : Long) : Prop :=
      issues i r.known [(0, r.known ||| r.rounded)] (fun e => e = .x v (BitVec.ofNat 64 r.code)) (if v = 0 then [] else [.x v])
    vector (.vdiv sb v a b k u) (fun j => f.opDiv m (lane w va j) (lane w vb j)) ∧
    vector (.vsqrt sb v a k u) (fun j => f.opSqrt m (lane w va j)) ∧
    scalar (.fdiv sb v a b u) (f.opDiv m x y) ∧ scalar (.fsqrt sb v a u) (f.opSqrt m x) ∧
    -- the quotient and the root of any two codes
    ∀ c c' : Nat,
      let p := f.value false c
      let q := f.value false c'
      let quotient := f.opDiv m c c'
      let root := f.opSqrt m c
      let exactly (r : Long) (code known : Nat) : Prop := r.code = code ∧ r.known = known ∧ r.rounded = 0
      let rounds (r : Long) (neg : Bool) (x : ℝ) : Prop := r.known = 0 ∧ roundsTo f false m.rm m.tuf neg x (r.code, r.rounded)
      let zero (n : Bool) : Nat := if n then 2 ^ (f.width - 1) else 0
      let inf (n : Bool) : Nat := zero n + (2 ^ f.ebits - 1) * 2 ^ f.fbits
      let invalid (r : Long) : Prop := exactly r f.qnan 16
      (∀ n n' i i' e e', p = .fin n i e → q = .fin n' i' e' → rounds quotient (n != n') (i * 2 ^ e / (i' * 2 ^ e'))) ∧
      (∀ n n' i e, p = .fin n i e →
        (q = .zero n' → exactly quotient (inf (n != n')) 8) ∧ (q = .inf n' → exactly quotient (zero (n != n')) 0)) ∧
      (∀ n n' i e, q = .fin n' i e → (p = .zero n → exactly quotient (zero (n != n')) 0) ∧ (p = .inf n → exactly quotient (inf (n != n')) 0)) ∧
      (∀ n n', (p = .zero n → q = .zero n' → invalid quotient) ∧ (p = .inf n → q = .inf n' → invalid quotient) ∧
        (p = .zero n → q = .inf n' → exactly quotient (zero (n != n')) 0) ∧ (p = .inf n → q = .zero n' → exactly quotient (inf (n != n')) 0)) ∧
      (p.isNan = true ∨ q.isNan = true → exactly quotient f.qnan (if p.isSnan = true ∨ q.isSnan = true then 16 else 0)) ∧
      (∀ i e, p = .fin false i e → rounds root false (Real.sqrt (i * 2 ^ e))) ∧ (∀ i e, p = .fin true i e → invalid root) ∧
      (∀ n, p = .zero n → exactly root (zero n) 0) ∧ (p = .inf false → exactly root (inf false) 0) ∧ (p = .inf true → invalid root) ∧
      (p.isNan = true → exactly root f.qnan (if p.isSnan = true then 16 else 0))

/-- R135, R145, R146: vcmp writes the comparisons of the active elements to the bits of kd and 0 elsewhere; kand, kor, knot and kpop. -/
def Obligations.VectorComparesAndMasks : Prop :=
  ∀ (s : State) (sb : Bool) (d c e k : BitVec 3) (x a b : BitVec 5) (t : BitVec 3),
    let ty := t.toNat
    let w := elemSize ty
    let bits := 8 * w
    let va := s.me.getV a
    let vb := s.me.getV b
    let signed (c : Nat) : Int := if c < 2 ^ (bits - 1) then (c : Int) else c - 2 ^ bits
    let on (j : Nat) : Bool := decide (j < 128 / w) && active ty (s.me.getK k) j
    let compares (i : Instr) (fl : Val → Val → Bool) (nan ordered : Bool) (int : Int → Int → Bool) : Prop :=
      let result (j : Nat) : Bool × Nat := match fmtOf ty with
        | none => (int (signed (lane w va j)) (signed (lane w vb j)), 0)
        | some f =>
          let p := f.value false (lane w va j)
          let q := f.value false (lane w vb j)
          if p.isNan || q.isNan then (nan, if ordered || p.isSnan || q.isSnan then 16 else 0) else (fl p q, 0)
      let cond := (((List.range (128 / w)).filter on).map fun j => (result j).2).foldl (· ||| ·) 0
      (cond &&& trapsOn s = 0 → ∃ (t : State) (r : Word), exec i s = .next t ∧ givesK (flagged s cond) t d r ∧
        ∀ j, j < 64 → r.getLsbD j = (on j && (result j).1)) ∧
      (cond &&& trapsOn s ≠ 0 → takesTraps s.me → ∃ (t : State) (j : Nat), exec i s = .next t ∧ on j = true ∧
        entersTrap (flagged s cond) t 0x05 (BitVec.ofNat 64 (j * 2 ^ 8 + cond)))
    let kc := s.me.getK c
    let ke := s.me.getK e
    (ty ≠ 7 →
      compares (.vcmpEq sb d a b k t) (fun p q => p.eq q) false false (fun p q => p == q) ∧
      compares (.vcmpNe sb d a b k t) (fun p q => !p.eq q) true false (fun p q => p != q) ∧
      compares (.vcmpLt sb d a b k t) (fun p q => p.lt q) false true (fun p q => decide (p < q)) ∧
      compares (.vcmpGe sb d a b k t) (fun p q => !p.lt q) false true (fun p q => decide (p ≥ q)) ∧
      compares (.vcmpLe sb d a b k t) (fun p q => !q.lt p) false true (fun p q => decide (p ≤ q)) ∧
      compares (.vcmpGt sb d a b k t) (fun p q => q.lt p) false true (fun p q => decide (p > q))) ∧
    (∃ t : State, exec (.kand sb d c e) s = .next t ∧ givesK s t d (kc &&& ke)) ∧
    (∃ t : State, exec (.kor sb d c e) s = .next t ∧ givesK s t d (kc ||| ke)) ∧
    (∃ t : State, exec (.knot sb d c) s = .next t ∧ givesK s t d (~~~kc)) ∧
    ∃ t : State, exec (.kpop sb x c) s = .next t ∧
      givesX s t x (BitVec.ofNat 64 ((List.range 64).filter fun j => kc.getLsbD j).length)

/-- R151, R152: a vector load or store whose active elements all have granted addresses issues: the load with the bytes of those
elements outstanding for vd, the store with its elements' bytes in ascending order. Element i lies at xa + w·i, xa + xb·i or
xa + w·vb[i]. The first element that is misaligned or without a backed address traps, and nothing is read or written. That the lanes which
a masked load does not write are those of vd as it issues, also where vd has an earlier result outstanding, is the model's choice
(log 68). -/
def Obligations.VectorMemory : Prop :=
  ∀ (s : State) (sb : Bool) (v a b : BitVec 5) (k t : BitVec 3), s.me.attempt = none →
    let ty := t.toNat
    let w := elemSize ty
    let q := s.quad s.myQuad
    let xa := s.me.getX a
    let unit_ (j : Nat) : Word := xa + BitVec.ofNat 64 (w * j)
    let strided (j : Nat) : Word := xa + s.me.getX b * BitVec.ofNat 64 j
    let indexed (j : Nat) : Word := xa + BitVec.ofNat 64 (w * lane w (s.me.getV b) j)
    let act := (List.range (128 / w)).filter (active ty (s.me.getK k))
    let fine (x : Word) : Prop := x.toNat % w = 0 ∧ q.xbound.toNat ≤ x.toNat ∧ x.toNat < capacity s.myLayer
    let clean (x : Word) : Prop := s.poisonSpan s.myQuad { isLocal := true, addr := x.toNat } w = false
    let bytes (x : Word) : List Ref := (List.range w).map fun i => { isLocal := true, addr := x.toNat + i }
    let traps (i : Instr) (addr : Nat → Word) : Prop :=
      ∀ j, takesTraps s.me → j ∈ act → ¬ fine (addr j) → (∀ x ∈ act, x < j → fine (addr x)) →
        ∃ t : State, exec i s = .next t ∧
          entersTrap s t (if (addr j).toNat % w ≠ 0 then 0x02 else 0x03) (addr j)
    let loads (i : Instr) (addr : Nat → Word) : Prop :=
      ((∀ j ∈ act, fine (addr j) ∧ clean (addr j)) → ∃ (t : State) (o : Out), exec i s = .next t ∧ issuesOut s t o ∧
        o.op = .load (act.flatMap fun j => bytes (addr j)) (.lanes v w act (s.me.getV v)) false ∧ o.dsts = [.v v] ∧ o.acq = false ∧
        o.ans = none) ∧ traps i addr
    let stores (i : Instr) (addr : Nat → Word) : Prop :=
      ((∀ j ∈ act, fine (addr j)) → ∃ (t : State) (o : Out), exec i s = .next t ∧ issuesOut s t o ∧
        o.op = .store (act.flatMap fun j => (bytes (addr j)).zip (bytesOfNat w (lane w (s.me.getV v) j))) ∧ o.dsts = [] ∧
        o.rel = false) ∧ traps i addr
    (s.me.task.portable = false →
      loads (.vld sb v a k t) unit_ ∧ loads (.vlds sb v a b k t) strided ∧ loads (.vldx sb v a b k t) indexed ∧
      stores (.vst sb v a k t) unit_ ∧ stores (.vsts sb v a b k t) strided ∧ stores (.vstx sb v a b k t) indexed) ∧
    ∀ (d : BitVec 5) (ls : List Nat) (old : VWord) (bs : List Byte), ls.Nodup → bs.length = w * ls.length →
      ∃ r : VWord, LoadFin.writes (.lanes d w ls old) bs = [.v d r] ∧ ∀ j, j < 128 / w → lane w r j =
        if j ∈ ls then natOfBytes ((bs.drop (w * ls.idxOf j)).take w) else lane w old j

/-! ### Scalar floating point (06_vector) -/

/-- R153 to R157: what the scalar floating instructions write to xd, with the bits above the format 0 and the conditions flagged, or
trapped where enabled; and the moves between x and v registers.
That the bytes of vd above the element which fmvf writes are those of vd as it issues, also where vd has an earlier result outstanding, is the
model's choice (log 68). What fsgnj makes of the sign of a NaN is left out, as the model's reading (log 29). -/
def Obligations.ScalarFloats : Prop :=
  ∀ (s : State) (sb : Bool) (d a b c : BitVec 5) (o : BitVec 1) (u : BitVec 2),
    let m : Mode := { rm := s.me.ctl.fpctl.toNat % 4, tuf := s.me.ctl.fpctl.getLsbD 13 }
    let f := (fmtOf u.toNat).getD .f64
    let code (r : BitVec 5) : Nat := (s.me.getX r).toNat % 2 ^ f.width
    let x := code a
    let y := code b
    let vx := f.value false x
    let vy := f.value false y
    let does (i : Instr) (r : Nat × Nat) : Prop :=
      (r.2 &&& trapsOn s = 0 → ∃ t : State, exec i s = .next t ∧ givesX (flagged s r.2) t d (BitVec.ofNat 64 r.1)) ∧
      (r.2 &&& trapsOn s ≠ 0 → takesTraps s.me → ∃ t : State, exec i s = .next t ∧
        entersTrap (flagged s r.2) t 0x05 (BitVec.ofNat 64 r.2))
    let compares (i : Instr) (fl : Val → Val → Bool) (ordered : Bool) : Prop :=
      does i (if vx.isNan || vy.isNan then (0, if ordered || vx.isSnan || vy.isSnan then 16 else 0) else (if fl vx vy then 1 else 0, 0))
    let exactly (i : Int) : Val := if i = 0 then .zero false else .fin (decide (i < 0)) i.natAbs 0
    let subnormal := x / 2 ^ f.fbits % 2 ^ f.ebits = 0
    does (.fadd sb d a b u) (f.opAdd m x y) ∧ does (.fsub sb d a b u) (f.opSub m x y) ∧ does (.fmul sb d a b u) (f.opMul m x y) ∧
    does (.fmin sb d a b u) (f.minMax false x y) ∧ does (.fmax sb d a b u) (f.minMax true x y) ∧
    does (.fma sb d a b c u) (f.opFma m x y (code c)) ∧
    compares (.fcmpEq sb d a b u) (fun p q => p.eq q) false ∧ compares (.fcmpLt sb d a b u) (fun p q => p.lt q) true ∧
    compares (.fcmpLe sb d a b u) (fun p q => !q.lt p) true ∧
    (b.toNat < 4 → does (.fcvt sb d a b u) (((fmtOf b.toNat).getD .f64).round false m.rm m.tuf vx)) ∧
    (b.toNat = 4 → does (.fcvt sb d a b u) (roundSigned 64 m.rm vx)) ∧
    (b.toNat = 5 → does (.fcvt sb d a b u) (roundUnsigned 64 m.rm vx)) ∧
    does (.fcvtInt sb d a o u)
      (f.round false m.rm m.tuf (exactly (if o = 0 then (s.me.getX a).toInt else (s.me.getX a).toNat))) ∧
    (∃ t : State, exec (.fclass sb d a u) s = .next t ∧ givesX s t d (BitVec.ofNat 64 (2 ^ (match vx with
      | .inf n => if n then 0 else 7 | .zero n => if n then 3 else 4 | .nan q => if q then 8 else 9
      | .fin n _ _ => if n then (if subnormal then 2 else 1) else (if subnormal then 5 else 6))))) ∧
    (vx.isNan = false → ∃ t : State, exec (.fsgnj sb d a b u) s = .next t ∧
      givesX s t d (BitVec.ofNat 64 (x % 2 ^ (f.width - 1) + y / 2 ^ (f.width - 1) * 2 ^ (f.width - 1)))) ∧
    (∃ t : State, exec (.fmvx sb d a u) s = .next t ∧ givesX s t d (BitVec.ofNat 64 (lane (elemSize u.toNat) (s.me.getV a) 0))) ∧
    ∃ (t : State) (r : VWord), exec (.fmvf sb d a u) s = .next t ∧ givesV s t d r ∧ r.toNat % 2 ^ f.width = x ∧
      r.toNat / 2 ^ f.width = (s.me.getV d).toNat / 2 ^ f.width

/-! ### The host interface (17_host) -/

/-- R399, R400, R401, R412: what host register writes leave. MODID is locked once bit 31 is set; FQCTL keeps its own fields; FQBASE and FQHEAD
take any value, queue 0's place only while it is not enabled; COALESCE clamps; read-only registers and IDENT stay; an unmasked
vector sends what was pending, a masked one keeps it, and the timer sends what was gathered. An access to the block of any other size than
8 bytes reads as 0 and is ignored. A host write to device memory changes exactly its bytes, and a read answers them with any poison. A
doorbell's register rings its queue. The host may refuse accesses to words of its own memory, and serve them again (R180).
Which step comes, and the form of its arguments, are the model's (log 1); that what the host refuses, the entries of the MSI-X table and a
host access's bytes come as arguments of a step is the model's choice (log 13). -/
def Obligations.HostRegisters : Prop :=
  ∀ (s : State) (v off pa n : Nat) (bs : List Byte),
    let c := s.cp
    let w : Word := BitVec.ofNat 64 v
    let cpIs (i : Instr) (c' : Cp) : Prop := exec i s = .next { s with cp := c' }
    let free := (s.queue 0).bound = false
    let vect (x : Nat) (f : Vect → Vect) : Cp := { c with vectors := c.vectors.put x (f (c.vectors.get {} x)) }
    let here := noAttempts s ∧ backed s pa = true ∧ pa.testBit 45 = false ∧ pa / 2 ^ 46 = s.domainIx ∧ pa % 128 + n ≤ 128
    (s.ev = [v] →
      cpIs .modidWrite { c with modid := if c.modid.getLsbD 31 then c.modid else w &&& 0x803F0FFF } ∧
      cpIs .fqctlWrite { c with fqctl := w &&& 0x07FF000F } ∧
      (v < 2048 → cpIs .vectorUnmask (vect v fun x =>
        { x with masked := false, pending := false, sent := x.sent + if x.pending = true then 1 else 0 })) ∧
      (0 < (c.vectors.get {} v).gathered → cpIs .coalesceTimerExpiry (vect v fun x =>
        if x.masked = true then { x with pending := true, gathered := 0 } else { x with sent := x.sent + 1, gathered := 0 }))) ∧
    (v < 2048 → (s.ev = [v, 1] → cpIs .vectorUnmask (vect v fun x => { x with masked := true })) ∧
      (∀ a d, s.ev = [v, 2, a, d] → cpIs .vectorUnmask (vect v fun x => { x with addr := BitVec.ofNat 64 a, data := d % 2 ^ 32 }))) ∧
    (∀ size, size ≠ 8 → hostRead s off size = 0 ∧ (s.ev = [off, v, size] → exec .hostRegisterWrite s = .next s)) ∧
    (s.ev = [off, v, 8] →
      (off = 0x100 → cpIs .hostRegisterWrite { c with fqbase := w }) ∧
      (off = 0x118 → cpIs .hostRegisterWrite { c with fqhead := v % 2 ^ 64 }) ∧
      (off = 0x200 → free → cpIs .hostRegisterWrite { c with aqbase := w }) ∧
      (off = 0x210 → free → cpIs .hostRegisterWrite { c with aqcpl := w }) ∧
      (off = 0x218 → free → cpIs .hostRegisterWrite { c with aqsts := w }) ∧
      (off = 0x200 ∨ off = 0x210 ∨ off = 0x218 → ¬ free → cpIs .hostRegisterWrite c) ∧
      (off = 0x008 → cpIs .hostRegisterWrite { c with modid := if c.modid.getLsbD 31 then c.modid else w &&& 0x803F0FFF }) ∧
      (off = 0x108 → cpIs .hostRegisterWrite { c with fqctl := w &&& 0x07FF000F }) ∧
      (off < 0x100 → off ≠ 0x008 → cpIs .hostRegisterWrite c) ∧
      (off = 0x110 → cpIs .hostRegisterWrite c) ∧
      (∀ x, x < 256 → off = 0x1000 + 8 * x → exec .hostRegisterWrite s = .next (s.ring x (v % 2 ^ 64))) ∧
      (∀ x, x < 2048 → off = 0x4000 + 8 * x → cpIs .hostRegisterWrite (vect x fun y =>
        { y with count := max 1 (v / 2 ^ 8 % 2 ^ 8), time := min 64 (v % 2 ^ 7) }))) ∧
    (here → s.ev = [0, pa, n] → ∃ t : State, exec .hostMemoryAccess s = .next t ∧ sameMem s t ∧ t.ctxs = s.ctxs ∧
      t.cp.hostData = (List.range n).map (fun i => s.gbyte (pa + i)) ∧
      (t.cp.hostPoison = true ↔ ∃ i, i < n ∧ s.poisonedAt (pa + i) = true)) ∧
    (pa.testBit 45 = true →
      (s.ev = [2, pa] → ∃ t : State, exec .hostMemoryAccess s = .next t ∧ t = { s with hostRefuses := t.hostRefuses } ∧
        ∀ x, x ∈ t.hostRefuses ↔ x = pa / 8 ∨ x ∈ s.hostRefuses) ∧
      (s.ev = [3, pa] → ∃ t : State, exec .hostMemoryAccess s = .next t ∧ t = { s with hostRefuses := t.hostRefuses } ∧
        ∀ x, x ∈ t.hostRefuses ↔ x ≠ pa / 8 ∧ x ∈ s.hostRefuses)) ∧
    (here → s.canonical → n = bs.length → s.ev = 1 :: pa :: bs.map (·.toNat) → s.recordings = [] →
      s.mayWrite none ((List.range n).map fun i => (pa + i, bs.getD i 0)) = true →
      ∃ t : State, exec .hostMemoryAccess s = .next t ∧ (∀ i, i < n → t.gbyte (pa + i) = bs.getD i 0) ∧
        (∀ x, x < pa ∨ pa + n ≤ x → t.gbyte x = s.gbyte x) ∧ ∀ q x, (t.quad q).mem.get x = (s.quad q).mem.get x)

/-- R402 to R406: submission queues. Queue 0 is enabled with a valid place, its counts at 0 and 0 in its completion word, and is disabled
once nothing is left in it; a doorbell covers entries once, kills its queue when it goes too far, and has no effect when it does
not rise; an entry is fetched once, in order, and starts its opcode's step; the event queue hands its oldest to one of twelve firmware
cores, while one is idle; a marker completes.
Which step comes, and the form of its arguments, are the model's (log 1).
One event for each completed entry is the model's reading (log 51). -/
def Obligations.SubmissionQueues : Prop :=
  ∀ (s : State) (q v : Nat),
    let c := s.cp
    let w : Word := BitVec.ofNat 64 v
    let x := s.queue q
    (s.ev = [v] → w.getLsbD 63 = true → (s.queue 0).bound = false → c.modid.getLsbD 31 = true → 4 ≤ v % 2 ^ 4 → v % 2 ^ 4 ≤ 12 →
      c.aqbase.toNat % 2 ^ 12 = 0 → c.aqcpl.toNat % 8 = 0 → c.aqsts.toNat % 8 = 0 → c.aqcpl.toNat < 2 ^ 45 → c.fwstat = 1 →
      cpFree s → s.hostRefuses.contains (hostPa s c.aqcpl.toNat / 8) = false →
      ∃ t : State, exec .aqctlEnable s = .next t ∧ t.cp.aqctl.getLsbD 63 = true ∧
        t.queue 0 = { bound := true, log2n := v % 2 ^ 4, vector := v / 2 ^ 16 % 2 ^ 11, base := c.aqbase, cpl := c.aqcpl
                      sts := c.aqsts } ∧
        (s.canonical → ∀ a, t.gbyte a =
          if hostPa s c.aqcpl.toNat ≤ a ∧ a < hostPa s c.aqcpl.toNat + 8 then 0 else s.gbyte a)) ∧
    ((s.queue 0).bound = true →
      ((s.queue 0).entries = [] → (s.queue 0).running = [] → s.storesFor 0 = false → ∃ t : State, exec .aqctlDisable s = .next t ∧ sameMem s t ∧
        (t.queue 0).bound = false ∧ t.cp.aqctl.getLsbD 63 = false) ∧
      ((s.queue 0).running ≠ [] → ∃ t : State, exec .aqctlDisable s = .next t ∧ sameMem s t ∧ (t.queue 0).bound = true ∧
        (t.queue 0).stopping = true)) ∧
    (s.ev = [q, v] → q < 256 → c.modid.getLsbD 31 = true → x.bound = true → x.stopping = false → x.dead = false →
      q = 0 ∨ tearingDown s x.pasid = false → v < 2 ^ 63 → x.fetched < 2 ^ 63 → x.value ≤ x.fetched →
      (v ≤ x.fetched → exec .doorbell s = .next s) ∧
      (x.fetched < v → v ≤ x.value + 2 ^ x.log2n → ∃ t : State, exec .doorbell s = .next t ∧ sameMem s t ∧
        t.queue q = { x with rung := max x.rung v } ∧ t.cp.events = c.events ++ [(.entryFetch, [q])]) ∧
      (x.fetched < v → x.value + 2 ^ x.log2n < v → ∃ t : State, exec .doorbell s = .next t ∧ (t.queue q).dead = true ∧
        (t.queue q).entries = [])) ∧
    (∀ bs, s.ev = [q] → c.fwstat = 1 → x.bound = true → x.dead = false → x.stopping = false → x.fetched < x.rung → x.entries = [] →
      queueParked s q = false → c.stores.contains (.zero q) = false →
      cpRead s q (x.base.toNat + 64 * (x.fetched % 2 ^ x.log2n)) 64 = some bs → entryBad q bs = false →
      ∃ t : State, exec .entryFetch s = .next t ∧ sameMem s t ∧
        t.queue q = { x with fetched := x.fetched + 1, entries := [(x.fetched + 1, bs)] } ∧
        t.cp.events = c.events ++ (if x.fetched + 1 < x.rung then [(.entryFetch, [q])] else []) ++
          [(opcodeStep q (natOfBytes (bs.take 2)), [q])]) ∧
    (∀ i args rest, c.events = (i, args) :: rest → c.fwstat = 1 → c.stores = [] →
      (c.cores.length < 12 → exec .cpEventDispatch s = .next { s with cp := { c with events := rest, cores := c.cores ++ [(i, args)] } }) ∧
      (12 ≤ c.cores.length → exec .cpEventDispatch s = .next s)) ∧
    ∀ n bs, s.ev = [q] → c.fwstat = 1 → cpFree s → q ≠ 0 → x.entries = [(n, bs)] → x.dead = false → x.running = [] → x.finished = [] →
      x.value + 1 = n → natOfBytes (bs.take 2) = 2 → queueParked s q = false →
      ∃ t : State, exec .marker s = .next t ∧ (t.queue q).value = n ∧ (t.queue q).entries = [] ∧
        (t.queue q).running = []

/-- R263, R264, R410: the oldest fault record is written to its place in the fault queue, whose tail rises; the host's answers: the
context runs again at its instruction, takes cause 0x04 with the reason and TVAL the address, or is killed with no further
record.
Which step comes, and the form of its arguments, are the model's (log 1).
That each context takes its own reason and address is the model's reading (log 36). -/
def Obligations.FaultAnswers : Prop :=
  (∀ (s : State) (r : FaultRec) (rest : List FaultRec),
    let c := s.cp
    let n := c.fqctl.toNat % 2 ^ 4
    s.canonical → noAttempts s → c.waiting = r :: rest → c.fwstat = 1 → 4 ≤ n → n ≤ 12 → c.fqtail < 2 ^ 63 → c.fqhead ≤ c.fqtail → c.fqtail < c.fqhead + 2 ^ n →
    let at_ := hostPa s (c.fqbase.toNat + 32 * (c.fqtail % 2 ^ n))
    s.mayWrite none [(at_, 0)] = true → s.hostRefuses = [] →
    ∃ t : State, exec .faultRecordPost s = .next t ∧ t.cp.waiting = rest ∧ t.cp.fqtail = c.fqtail + 1 ∧
      (List.range 32).map (fun i => t.gbyte (at_ + i)) = bytesOfNat 8 r.va.toNat ++ bytesOfNat 8 r.val.toNat ++ bytesOfNat 4 r.pasid ++ bytesOfNat 1 r.kind ++
        bytesOfNat 1 r.reason ++ bytesOfNat 1 r.access ++ bytesOfNat 1 r.count ++ bytesOfNat 8 r.origin.toNat ∧
      (∀ a, a < at_ ∨ at_ + 32 ≤ a → t.gbyte a = s.gbyte a) ∧
      (r.kind = 0 → ((c.fqtail + 1) % 2 ^ 32, r) ∈ t.cp.outstanding)) ∧
  ∀ (s : State) (k j : Nat) (r : FaultRec), s.ev = [k] → s.cp.outstanding.find? (fun e => e.1 == k % 2 ^ 32) = some (k % 2 ^ 32, r) →
    s.cp.fwstat = 1 → tearingDown s r.pasid = false → (∃ e, s.partOfPasid r.pasid = some e ∧ e.2.mode ≠ .out) → r.covers = [j] → (s.ctx j).status = .suspended → (s.ctx j).halted = false →
    let c := s.ctx j
    let answered (t : State) : Prop := (∀ e ∈ t.cp.outstanding, e.1 ≠ k % 2 ^ 32) ∧ t.cp.waiting = s.cp.waiting ∧
      ∀ x, x ≠ j → (t.ctx x).regs = (s.ctx x).regs
    (c.replay = none → ∃ t : State, exec .fqansResume s = .next t ∧ answered t ∧ sameMem s t ∧
      t.ctx j = { c with status := .running }) ∧
    (takesTraps c → c.replay = none → ∃ t : State, exec .fqansDecline s = .next t ∧ answered t ∧ sameMem s t ∧ t.ctx j = { c with
      status := .running, pc := setFld c.ctl.tvec 0 2 0, opens := true, trail := [], buffer := []
      ctl := { c.ctl with tpc := setFld c.pc 0 2 0, tcause := BitVec.ofNat 64 (c.faulted.1 * 2 ^ 8 + 4), tval := c.faulted.2
                          psys := c.ctl.sys, sys := true, intrap := true } }) ∧
    (c.outs = [] → isHandler j = false → ∃ t : State, exec .fqansKill s = .next t ∧ answered t ∧ s.mem = t.mem ∧ (t.ctx j).status = .free)

/-- R209, R397, R407: launches. One whose target quads are busy waits for them with its images; one whose images stand sets XBOUND and
places its records, seen on one core; images go to a quad that has become free, code from offset 0 and XBOUND after it; placing
goes on where it was held up; the launch completes once all its tasks and engine work have ended.
Which step comes, and the form of its arguments, are the model's (log 1).
An image with poison counting as unreadable is the model's reading (log 43). -/
def Obligations.Launches : Prop :=
  ∀ (s : State) (q i n core : Nat) (bs : List Byte),
    let r := LaunchRec.of bs
    let quad := quadOfCore core
    let one := r.targets = [core] ∧ r.targetQuads = [quad] ∧ r.count = 1
    let task (index launch : Nat) : Record :=
      { entry := BitVec.ofNat 64 r.entry, pri := r.pri, flags := r.flags, x3 := BitVec.ofNat 64 index, args := r.args, nxm := false
        pasid := (s.queue q).pasid, src := 0, launch := some launch }
    let room := if r.pri < 3 then (s.core core).queue.length < (s.core core).thresh else (s.core core).queue.length < 32
    let queued (t : State) (index launch : Nat) : Prop := (t.core core).queue = (s.core core).queue ++ [task index launch]
    (∀ eb rest p x,
      let a := natOfBytes ((eb.drop 8).take 8)
      s.ev = [q] → s.cp.fwstat = 1 → q ≠ 0 → (s.queue q).entries = (n, eb) :: rest → (s.queue q).dead = false →
      natOfBytes (eb.take 2) = 1 → (natOfBytes ((eb.drop 2).take 1)).testBit 0 = false →
      s.partOfPasid (s.queue q).pasid = some (p, x) → x.mode = .running → s.part? p = some x → s.recordings = [] →
      queueParked s q = false → a % 64 = 0 → cpRead s q a 128 = some bs → r.ok s.build = true →
      r.quarters &&& x.quarters = r.quarters →
      let launched (t : State) (l : Launch) : Prop := t.cp.launches = s.cp.launches ++ [l] ∧ l.queue = q ∧ l.entry = n ∧ l.part = p ∧
        l.record = bs ∧ (t.queue q).entries = rest
      ((∀ y ∈ r.targetQuads, quadFree s y = false ∧ (s.quad y).images ≠ some r.images) →
        ∃ (t : State) (l : Launch), exec .launch s = .next t ∧ sameMem s t ∧ launched t l ∧ l.st = .images ∧ l.todo = r.targetQuads) ∧
      (one → (s.quad quad).images = some r.images → (∀ b, (s.quad quad).lost.getLsbD b = false) → room →
        ∃ (t : State) (l : Launch), exec .launch s = .next t ∧ sameMem s t ∧ launched t l ∧ l.st = .running ∧ l.live = 1 ∧
          (t.quad quad).xbound.toNat = r.xbound % 2 ^ 64 ∧ queued t 0 s.cp.launches.length)) ∧
    (∀ l code, s.ev = [i] → s.cp.launches[i]? = some l → l.record = bs → l.queue = q → l.pasid = (s.queue q).pasid → l.live = 0 →
      s.recordings = [] → s.cp.fwstat = 1 → launchRuns s l = true → (s.queue q).dead = false → one → r.ok s.build = true →
      (s.canonical → noAttempts s → l.st = .images → l.placed = 0 → l.todo = [quad] → quadFree s quad = true → (s.quad quad).images ≠ some r.images →
        r.dataBytes = 0 → cpRead s q r.code r.codeBytes = some code → room →
        ∃ (t : State) (l' : Launch), exec .launchQuadFree s = .next t ∧ t.cp.launches[i]? = some l' ∧ l'.st = .running ∧ t.mem = s.mem ∧
          (∀ a, a < code.length → (t.quad quad).mem.get a = code.getD a 0) ∧
          (∀ a, code.length ≤ a → (t.quad quad).mem.get a = (s.quad quad).mem.get a) ∧
          (t.quad quad).images = some r.images ∧ (t.quad quad).xbound.toNat = r.xbound % 2 ^ 64 ∧ queued t 0 i) ∧
      (l.st = .placing → l.placed = 0 → l.drained = true → room → ∃ (t : State) (l' : Launch), exec .launchPlacementResume s = .next t ∧ sameMem s t ∧
        t.cp.launches[i]? = some l' ∧ l'.st = .running ∧ l'.placed = 1 ∧ queued t 0 i)) ∧
    ∀ l, s.ev = [i] → s.cp.launches[i]? = some l → l.st = .running → l.live = 0 →
      engineOf i s.quads s.gangs = false → (∀ e ∈ s.parts, engineOf i e.2.image.quads e.2.image.gangs = false) →
      ∃ (t : State) (l' : Launch), exec .launchComplete s = .next t ∧ t.cp.launches[i]? = some l' ∧ l'.st = .done ∧
        ∀ e ∈ (t.queue l.queue).running, e.1 ≠ l.entry

/-! ### Partitions (17_host, 10_system) -/

/-- R258, R409, R176, R247: the admin commands whose arguments are in order. A partition is formed on free quarters, which start cleared, and
dissolved with nothing of it left; a PASID takes its root and homing; a queue, a timer, release masks and a join are set. Each
command's entry leaves the queue.
R411: a teardown leaves no context under the PASID that goes on (one with effects outstanding, or a handler with replies, ends once they
are complete), no armed trigger of it and no engine operation of it that goes on; once the last response is in, and what used its
translations has ended, no TLB holds one of them and no partition holds the PASID; one that is not being torn down is left as it is.
Which step comes, and the form of its arguments, are the model's (log 1).
The codes for arguments out of form, that a dissolution waits for the stores of killed contexts, that a teardown takes the PASID off its
partition and what its completion waits for are the model's reading (logs 41, 44). -/
def Obligations.AdminCommands : Prop :=
  (∀ (s : State) (n : Nat) (a : List Word),
     let arg (i : Nat) : Nat := (a.getD i 0).toNat
     let p := arg 0
     let comes (op : Nat) : Prop := s.adminHead op = some (n, a)
     let ends (t : State) : Prop := (∀ e ∈ (t.queue 0).running, e.1 ≠ n) ∧ (t.queue 0).entries.length < (s.queue 0).entries.length
     let placed := ∀ q, (s.queue q).cpl.toNat % 8 = 0 ∧ (s.queue q).sts.toNat % 8 = 0
     (comes 0x10 → p ≤ 15 → arg 1 ≠ 0 → arg 1 < 2 ^ 16 → s.part? p = none → quartersPresent s (arg 1) = true →
       quartersFree s (arg 1) = true → ∃ t : State, exec .form s = .next t ∧ ends t ∧
         t.part? p = some { quarters := arg 1, save := (a.drop 2).take 4, emerg := s.emergIn (arg 1) } ∧
         ∀ k, (arg 1).testBit (quarterOf (quadOf k)) = true → t.ctx k = {} ∧ (t.quad (quadOf k)).tiles = [] ∧
           (t.quad (quadOf k)).rings = [] ∧ (t.quad (quadOf k)).mem = [] ∧ (t.core (coreOf k)).queue = []) ∧
     (∀ x, p ≤ 15 → s.part? p = some x →
       (comes 0x11 → x.stops = false → x.tears = false → x.mode ≠ .out →
         let killed := State.dissolveKills { s.startEntry 0 with recordings := s.recordings.filter fun r => r.part != p } x
         (killed.2 = true → ∃ t : State, exec .dissolve s = .next t ∧ ends t ∧
           t.part? p = none ∧ (∀ k, x.quarters.testBit (quarterOf (quadOf k)) = true → t.ctx k = {}) ∧
           ∀ e ∈ t.slices, ∀ y ∈ e.2.triggers, y.part ≠ p) ∧
         (killed.2 = false → ∃ t : State, exec .dissolve s = .next t ∧ (t.part? p).isSome = true ∧
           (t.queue 0).entries = (s.queue 0).entries ∧ ∀ k ∈ s.ctxsOf x.quarters, (t.ctx k).status = .ending ∨ (t.ctx k).status = .free) ∧
         ((∀ e ∈ s.ctxs, e.2.outs = []) → (∀ e ∈ s.cores, e.2.tracker = []) → killed.2 = true)) ∧
       (comes 0x16 → arg 1 < 2 ^ 20 → arg 3 < 2 ^ 16 → arg 2 % 4096 = 0 → arg 2 < 2 ^ 52 → tearingDown s (arg 1) = false →
         homingValid s x.quarters (arg 3) (arg 2) = true → placed → ∃ t : State, exec .setPasid s = .next t ∧ ends t ∧
           t.part? p = some { x with pasids := x.pasids.put (arg 1) { root := arg 2, homing := arg 3 } }) ∧
       (comes 0x19 → arg 1 = 0 ∨ (10 ≤ arg 1 ∧ arg 1 ≤ 1000000) → placed → ∃ t : State, exec .setTimer s = .next t ∧ ends t ∧
         t.part? p = some { x with timer := arg 1 }) ∧
       (comes 0x1A → arg 1 ≤ 3 → arg 2 < 2 ^ bankCount (arg 1) → x.mode ≠ .out → noAttempts s → ∃ t : State, exec .setRelease s = .next t ∧ ends t ∧
         ∀ q ∈ x.quads, quadLayer q = arg 1 → t.quad q = { s.quad q with release := BitVec.ofNat 64 (arg 2) }) ∧
       (comes 0x1B → arg 1 ≤ 4095 → arg 2 < 2 ^ 16 → ∃ (t : State) (y : Part), exec .join s = .next t ∧ ends t ∧ t.part? p = some y ∧
         ∀ j, j ∈ y.joins ↔ (j ∈ x.joins ∧ j.module ≠ arg 1) ∨ (arg 2 ≠ 0 ∧ j = { module := arg 1, quarters := arg 2 }))) ∧
     ∀ owner x,
       let q := p % 2 ^ 8
       let log2n := p / 2 ^ 16 % 2 ^ 4
       comes 0x18 → p / 2 ^ 8 % 2 ^ 8 = 0 → p / 2 ^ 20 % 2 ^ 12 = 0 → p / 2 ^ 43 = 0 → 4 ≤ log2n → log2n ≤ 12 → arg 1 < 2 ^ 20 →
       arg 2 % 4096 = 0 → arg 3 % 8 = 0 → arg 4 % 8 = 0 → s.partOfPasid (arg 1) = some (owner, x) → q ≠ 0 → (s.queue q).bound = false →
       tearingDown s (arg 1) = false →
       ∃ t : State, exec .bindQueue s = .next t ∧ ends t ∧ (t.queue q).bound = true ∧ (t.queue q).pasid = arg 1 ∧
         (t.queue q).part = owner ∧ (t.queue q).log2n = log2n ∧ (t.queue q).vector = p / 2 ^ 32 % 2 ^ 11 ∧
         (t.queue q).base = a.getD 2 0 ∧ (t.queue q).fetched = 0) ∧
  (∀ (s : State) (n pasid : Nat) (a : List Word),
     (s.adminHead 0x17 = some (n, a) → pasid = (a.getD 1 0).toNat → pasid < 2 ^ 20 → (s.partOfPasid pasid).isSome = true →
       tearingDown s pasid = false → ∃ t : State, exec .teardown s = .next t ∧ tearingDown t pasid = true ∧
         (∀ k, (s.ctx k).ctl.pasid = pasid → (s.ctx k).status ≠ .free →
           (t.ctx k).status = .free ∨ ((t.ctx k).status = .ending ∧ ((s.ctx k).outs ≠ [] ∨ isHandler k = true))) ∧
         ((∀ e ∈ s.ctxs, e.2.outs = []) → (∀ e ∈ s.cores, e.2.tracker = []) → ∀ e ∈ t.slices, ∀ y ∈ e.2.triggers, y.pasid ≠ pasid) ∧
         ∀ e ∈ t.quads, (∀ x ∈ e.2.copy, ∀ o ∈ x.2.queue, o.pasid = pasid → o.finished = true ∨ o.abort = true) ∧
           ∀ o ∈ e.2.tq, o.pasid = pasid → o.finished = true ∨ o.abort = true) ∧
     (s.ev = [pasid] →
       (tearingDown s pasid = true →
         let done := s.pagesDone 0xFFFF (fun t => t.pasid == pasid) false
         (done.2 = true → enginesOf done.1 pasid = false → ∃ t : State, exec .teardownComplete s = .next t ∧ t.partOfPasid pasid = none ∧
           tearingDown t pasid = false ∧ (∀ q, quarterOf q < 16 → ∀ e ∈ (t.quad q).tlb, e.pasid ≠ pasid) ∧
           ∀ q, q < 16 → ∀ e ∈ (t.quarter q).tlb, e.pasid ≠ pasid) ∧
         (done.2 = false ∨ enginesOf done.1 pasid = true →
           ∃ t : State, exec .teardownComplete s = .next t ∧ tearingDown t pasid = true) ∧
         ((∀ e ∈ s.ctxs, e.2.outs = []) → (∀ e ∈ s.cores, e.2.tracker = []) → s.gangs = [] → noAttempts s → done.2 = true)) ∧
       (tearingDown s pasid = false → exec .teardownComplete s = .next s)))

/-- R247 to R257, R396: pre-emption. The partition stops, with every context of it halted; once accepted side effects have returned it is
pre-empted, and its report follows; it resumes where it stood, or leaves its quarters cleared with its contexts in its image, and
comes back with them: a context of whose window something has issued goes back to the window's entry, with its registers as they stood
there, and replays the window; a timer raises its cause once more in every task context.
Which step comes, and the form of its arguments, are the model's (log 1).
What the save area's bytes read as is the model's choice (log 19), and that a partition that is switched out takes no timer expiry its
reading (log 70). -/
def Obligations.Preemptions : Prop :=
  ∀ (s : State) (n p : Nat) (a : List Word) (x : Part), s.part? p = some x → p ≤ 15 →
    let comes (op : Nat) : Prop := s.adminHead op = some (n, a) ∧ (a.getD 0 0).toNat = p
    let mine (k : Nat) : Prop := k ∈ s.ctxsOf x.quarters
    let quiet := ∀ k, mine k → (s.ctx k).outs = [] ∧ (s.ctx k).status ≠ .ending
    let placed := ∀ q, (s.queue q).cpl.toNat % 8 = 0 ∧ (s.queue q).sts.toNat % 8 = 0
    (∀ switching : Bool, x.mode = .running → x.stops = false → (switching = true → x.tears = false) →
      comes (if switching then 0x14 else 0x12) →
      ∃ (t : State) (y : Part), exec (if switching then .switchOut else .preempt) s = .next t ∧ t.part? p = some y ∧ y.mode = .stopping ∧
        y.report = some n ∧ y.switching = switching ∧ (∀ k, mine k → (s.ctx k).status ≠ .free → (t.ctx k).halted = true) ∧
        ∃ b, (n, b) ∈ (t.queue 0).running) ∧
    (s.ev = [p] → x.mode = .stopping → quiet → ∃ t : State, exec .partitionHalted s = .next t ∧ sameMem s t ∧ t.ctxs = s.ctxs ∧
      t.part? p = some { x with mode := .preempted }) ∧
    (s.ev = [p] → x.mode = .preempted → x.report = some n → quiet → (∀ e ∈ s.cores, e.2.tracker = []) →
      (∀ e ∈ s.gangs, e.2.runs = []) → placed → (x.switching = true → ∀ a ∈ x.saveAreas, s.mayWriteArea a.1 a.2 = true) →
      ∃ (t : State) (y : Part), exec .preemptReport s = .next t ∧ t.part? p = some y ∧
        y.report = none ∧ (∀ e ∈ (t.queue 0).running, e.1 ≠ n) ∧
        (x.switching = true → y.mode = .out ∧ ∀ k, x.quarters.testBit (quarterOf (quadOf k)) = true →
          t.ctx k = {} ∧ y.image.ctxs.get {} k = { s.ctx k with jacks := [] })) ∧
    (comes 0x13 → x.stops = false → x.mode = .preempted → ∃ (t : State) (y : Part), exec .resume s = .next t ∧ t.part? p = some y ∧
      y.mode = .running ∧ ∀ k, mine k → (t.ctx k).halted = false ∧ ((s.ctx k).attempt = none →
        let c := s.ctx k
        if c.trail = [] ∨ c.status = .ending then (t.ctx k).regs = c.regs ∧ (t.ctx k).pc = c.pc
        else (t.ctx k).regs = c.entry.snap.regs ∧ some (t.ctx k).pc = c.trail.head?.map (·.pc))) ∧
    (comes 0x15 → x.stops = false → x.mode = .out → quartersFree s x.quarters = true → (x.image.ctxs.map (·.1)).Nodup →
      ∃ (t : State) (y : Part), exec .switchIn s = .next t ∧ t.part? p = some y ∧ y.mode = .running ∧
        ∀ e ∈ x.image.ctxs, e.2.attempt = none → x.quarters.testBit (quarterOf (quadOf e.1)) = true → e.2.status ≠ .free ∨ e.2.trail = [] →
          let c := e.2
          let u := t.ctx e.1
          if c.trail = [] ∨ c.status = .ending then u.regs = c.regs ∧ u.ctl = c.ctl ∧ u.pc = c.pc
          else u.regs = c.entry.snap.regs ∧ u.ctl = { c.entry.snap.ctl with rpl := !c.cuts.isEmpty } ∧
            some u.pc = c.trail.head?.map (·.pc)) ∧
    (s.ev = [p] → x.mode = .out → exec .timerExpiry s = .next s) ∧
    (s.ev = [p] → x.timer ≠ 0 → x.mode ≠ .out → ∃ t : State, exec .timerExpiry s = .next t ∧ sameMem s t ∧
      ∀ k, mine k → isHandler k = false → (s.ctx k).timers < (t.ctx k).timers ∧
        ((s.ctxs.map (·.1)).count k = 1 → t.ctx k = { s.ctx k with timers := (s.ctx k).timers + 1 }))

/-! ### Power, errors and reset (18_power, 17_host) -/

/-- R415 to R418: caps and ranks are set within their limits; a cap message of this group that is well formed and newer is in force until
its lease expires, and an event of it comes to the command processor (R402); one that is not newer is ignored, and a malformed one is counted.
R421 to R423: a sample holds what each rail reads, of 10 bits, with the ballast that lets a rail fall by a sixteenth of its rated value at most
unless an emergency holds every quad on it, and a partition's power is that of its quarters' logic rails with its part of its dies' shared rails by
access counts, and of the ballast that its own fall has called for, beside the falls of partitions that have been dissolved; where the module draws more than 3,600 W, a rail is above its rated value or a
sensor above 110 °C, the affected quads are throttled to duty 1 and their task contexts raise the power cause.
R415, R419, R420: at a redivision a partition's budget is the lowest of its limits, CUR names each limit whose share is below its demand, which
neither an idle quad nor a core with nothing issued and no engine work adds to, duty and operating point lie within 1 to 16 and 0 to 7, and what
the demands count begins anew; the emergency ends once no sample since the last one was out of bounds.
R424: an operating point moves by one.
Which step comes, and the form of its arguments, are the model's (log 1).
That converters' readings, access counts and sensors come as arguments is the model's choice (log 13), and so are the watts of a step of a
rail's reading and the weights of demand (log 50), which are free values; whose fall called for the ballast of a rail, that
ballast stops only where an emergency holds every quad of the rail, and that Jidjasol's steps stop while its firmware fails, are its reading
(logs 50, 48). -/
def Obligations.PowerSteps : Prop :=
  ∀ (s : State) (p v w q : Nat) (x : Part),
    let j := s.jid
    let jidIs (i : Instr) (j' : Jid) : Prop := exec i s = .next { s with jid := j' }
    (j.down = false → s.ev = [p, v] → s.part? p = some x →
      (∃ t : State, exec .setPartitionCap s = .next t ∧ t.part? p = some { x with cap := some v } ∧ t = { s with parts := t.parts }) ∧
      (v ≤ 7 → ∃ t : State, exec .setPartitionRank s = .next t ∧ t.part? p = some { x with rank := v } ∧
        t = { s with parts := t.parts })) ∧
    (j.down = false → s.ev = [v] → jidIs .setModuleCap { j with modcap := some (min v 3600) }) ∧
    (j.down = false → s.ev = [v, w] → w ≤ 8 → jidIs .setSafeCap { j with safecap := v, saferank := w }) ∧
    (j.down = true → exec .capMessage s = .next s ∧ exec .setModuleCap s = .next s ∧ exec .setSafeCap s = .next s ∧
      exec .setPartitionCap s = .next s ∧ exec .setPartitionRank s = .next s ∧ exec .capLeaseExpiry s = .next s) ∧
    (j.down = false → jidIs .capLeaseExpiry { j with last := j.last.map fun m => { m with live := false } }) ∧
    (∀ bs : List Byte, j.down = false → s.ev = bs.map (·.toNat) → bs.length = 24 →
      let at_ (off len : Nat) : Nat := natOfBytes ((bs.drop off).take len)
      let seq : Word := BitVec.ofNat 64 (at_ 16 8)
      let good := at_ 3 1 = 0 ∧ at_ 12 4 = 0 ∧ at_ 2 1 ≤ 8 ∧ at_ 8 4 ≤ 60000
      let newer := ∀ m, j.last = some m → 0 < (seq - m.seq).toInt
      (at_ 0 2 ≠ j.group → jidIs .capMessage j) ∧
      (at_ 0 2 = j.group → ¬ good → jidIs .capMessage { j with malformed := j.malformed + 1 }) ∧
      (at_ 0 2 = j.group → good → ¬ newer → jidIs .capMessage j) ∧
      let m : CapMsg := { rankth := at_ 2 1, cap := at_ 4 4, lease := if at_ 8 4 = 0 then 2000 else at_ 8 4, seq, live := true }
      (at_ 0 2 = j.group → good → newer → exec .capMessage s = .next { s with
        jid := { j with last := some m }, cp := { s.cp with events := s.cp.events ++ [(.capMessage, [])] } })) ∧
    (∀ (rails acc : List Nat) (temps : List (Nat × Nat)), rails.length = 28 → acc.length = 16 →
      s.ev = rails ++ acc ++ temps.flatMap (fun e => [e.1, e.2]) → (∀ e ∈ s.parts, e.2.overrun < 40) →
      let total {α : Type} (f : α → Nat) (l : List α) : Nat := (l.map f).foldl (· + ·) 0
      let drawn (i : Nat) : Nat := min 1023 (rails.getD i 0)
      let before (i : Nat) : Nat := if i < 16 then (s.quarter i).rail else (s.die ((i - 16) / 3)).rails.getD ((i - 16) % 3) 0
      let held (i : Nat) : Prop := ∀ k, k < 16 → (k = i ∨ (16 ≤ i ∧ k / 4 = (i - 16) / 3)) → ∀ q ∈ quadsOfQuarter k,
        s.build.hasQuad q = true → (s.quad q).emerg = true
      let above (x : List Nat) (i : Nat) : Prop := ∃ r, s.build.rated[i]? = some r ∧ r < x.getD i 0
      let mine (x : Part) (d : Nat) : List Nat := ((List.range 4).map (4 * d + ·)).filter fun q => x.quarters.testBit q
      let own (x : Part) (i : Nat) : Nat :=
        if x.mode = .out then 0
        else if i < 16 then (if x.quarters.testBit i then drawn i else 0)
        else drawn i * total (acc.getD · 0) (mine x ((i - 16) / 3)) / total (acc.getD · 0) ((List.range 4).map (4 * ((i - 16) / 3) + ·))
      let fall (x : Part) (i : Nat) : Nat := x.levels.getD i 0 - own x i
      ∃ now : List Nat, now.length = 28 ∧
        (∀ i, i < 28 → (held i → now.getD i 0 = drawn i) ∧
          (¬ held i → now.getD i 0 = match s.build.rated[i]? with | some r => max (drawn i) (before i - r / 16) | none => drawn i)) ∧
        let hot (q : Nat) : Prop :=
          3600000 < total (fun i => now.getD i 0 * Config.railStep i) (List.range 28) ∨ above now (quarterOf q) ∨
            (∃ i, i < 3 ∧ above now (16 + 3 * quadDie q + i)) ∨ ∃ e ∈ temps, e.1 = q ∧ 110 < e.2
        -- what each rail has fallen by, with what partitions that have been dissolved drew of it
        let falls (i : Nat) : Nat := total (fun e => fall e.2 i) s.parts + total (·.getD i 0) j.fallen
        let called (x : Part) (i : Nat) : Nat := (now.getD i 0 - drawn i) * fall x i / falls i
        ∃ t : State, exec .railSample s = .next t ∧ sameMem s t ∧
          ((∀ q, s.build.hasQuad q = true → ¬ hot q) → t.ctxs = s.ctxs ∧ t.cores = s.cores ∧
            t.jid = { j with fallen := (j.fallen.map fun l => (List.range 28).map fun i =>
              (now.getD i 0 - drawn i) * l.getD i 0 / falls i).filter (fun l => l.any (· != 0)) } ∧
            (∀ i, i < 16 → s.build.hasQuarter i = true → (t.quarter i).rail = now.getD i 0) ∧
            (∀ d, d < 4 → (t.die d).rails = (List.range 3).map fun i => now.getD (16 + 3 * d + i) 0) ∧
            (s.part? p = some x → ∃ y : Part, t.part? p = some y ∧
              y.levels = (List.range 28).map (fun i => own x i + called x i) ∧
              y.power = total (fun i => (own x i + called x i) * Config.railStep i) (List.range 28) ∧
              (y.ballast = true ↔ 0 < total (called x) (List.range 28)))) ∧
          (s.build.hasQuad q = true → hot q → t.jid.emergency = true ∧ t.jid.outOfBounds = true ∧ (t.quad q).emerg = true ∧
            (∀ i, i < 4 → (t.core (4 * q + i)).fduty = 1) ∧
            (∀ k, quadOf k = q → isHandler k = false → (s.ctx k).status ≠ .free → (t.ctx k).power ≠ none) ∧
            ∀ e ∈ t.parts, e.2.mode ≠ .out → e.2.quarters.testBit (quarterOf q) = true → e.2.emerg = true)) ∧
    (j.modcap = none → (s.parts.map (·.1)).Nodup →
      ∃ t : State, exec .budgetRedivision s = .next t ∧ sameMem s t ∧ t.ctxs = s.ctxs ∧
        t.jid = { j with outOfBounds := false, emergency := j.emergency && j.outOfBounds } ∧
        (∀ e ∈ t.cores, e.2.issues = 0) ∧ (∀ e ∈ t.quads, e.2.work = 0) ∧
        (s.part? p = some x → x.mode ≠ .out → (∀ q ∈ x.quads, (s.quad q).temp < 105) →
          let quiet (q : Nat) : Bool := (s.ctxs.all fun e => quadOf e.1 != q || e.2.status == .free || e.2.status == .ending ||
            e.2.status == .suspended) && !engineBusy s q && (List.range 4).all fun i => (s.core (4 * q + i)).queue == []
          let demandOf (core : Nat) : Nat :=
            let n := (s.core core).issues
            let w := (s.quad (quadOfCore core)).work
            if quiet (quadOfCore core) = true ∨ (n = 0 ∧ w = 0) then 0 else Config.demand n w
          let demand := ((x.quads.flatMap fun q => (List.range 4).map (4 * q + ·)).map demandOf).foldl (· + ·) 0
          let limits := (x.cap.toList.map fun w => (1, 1000 * w)) ++ (x.hallCap j).toList.map fun w => (3, 1000 * w)
          let cur := (limits.filter fun e => decide (e.2 < demand)).foldl (fun n e => n ||| 2 ^ (e.1 - 1)) (if x.ballast = true then 16 else 0)
          ∃ y : Part, t.part? p = some y ∧ y.cur = cur ∧ y.emerg = (x.emerg && j.outOfBounds) ∧
            y.epochs = (if cur = 0 then x.epochs else (x.epochs + 1) % 2 ^ 32) ∧ (y.budget = none ↔ limits = []) ∧
            (∀ b, y.budget = some b → (∃ l ∈ limits, l.2 = b) ∧ ∀ l ∈ limits, b ≤ l.2) ∧
            ∀ q ∈ x.quads, ∀ i, i < 4 → j.outOfBounds = false ∨ (s.quad q).emerg = false →
              1 ≤ (t.core (4 * q + i)).fduty ∧ (t.core (4 * q + i)).fduty ≤ 16 ∧ (t.core (4 * q + i)).point ≤ 7)) ∧
    (s.ev = [q] → s.build.hasQuad q = true →
      let pt := (s.quad q).point
      ∃ t : State, exec .operatingPointStep s = .next t ∧ sameMem s t ∧ t.quad q = { s.quad q with
        point := if pt < (s.quad q).target then pt + 1 else if (s.quad q).target < pt then pt - 1 else pt })

/-- R413, R414, R425 to R431: while Jidjasol's firmware runs, errors are counted by unit and reported; an uncorrectable one poisons its word, a
parity error on a link is retried once and uncorrectable the second time; a failed quarter is recorded and reported; recording keeps the
state it starts from, whatever other partition is recorded, and a replay has the whole log before it; firmware that verifies and is not older
is staged, a reset activates every staged image and raises its fused minimum, and no image whose signature fails or that is below the minimum
runs; an SPDM request that offers an algorithm of the module is accepted, and measurements and the certificate chain are answered after that.
Which step comes, and the form of its arguments, are the model's (log 1).
The answer of SPDM, what survives a reset and the form of a recording are the model's reading (logs 47, 48, 49). -/
def Obligations.MaintenanceSteps : Prop :=
  ∀ (s : State) (p q v w d n : Nat) (x : Part),
    let tier := ErrorUnit.tier d n
    let link := ErrorUnit.link d n
    let seen (j : Jid) (u : ErrorUnit) : Nat := ((j.counts.find? fun e => e.1 == u).map (·.2)).getD 0
    let noted (t : State) (u : ErrorUnit) (corrected : Bool) : Prop :=
      t.jid.reports = s.jid.reports ++ [{ unit := u, corrected }] ∧ seen t.jid u = seen s.jid u + 1 ∧
        ∀ y, y ≠ u → seen t.jid y = seen s.jid y
    let finds (l : List Nat) (rest : State → Prop) : Prop :=
      s.jid.down = false → s.ev = l → ∃ t : State, exec .patrolScrub s = .next t ∧ sameMem s t ∧ t.ctxs = s.ctxs ∧ rest t
    let poisons (t : State) : Prop := ∀ a, a ∈ t.poison ↔ a = w ∨ a ∈ s.poison
    finds [0, d, n, v, w] (fun t => noted t tier true ∧ t = { s with jid := t.jid }) ∧
    finds [1, d, n, 0, w] (fun t => noted t tier false ∧ poisons t) ∧
    finds [1, d, n, q + 1, w] (fun t => noted t tier false ∧ t.poison = s.poison ∧
      ∀ a, a ∈ (t.quad q).poison ↔ a = w ∨ a ∈ (s.quad q).poison) ∧
    ((link, 0, w) ∉ s.jid.retries → finds [2, d, n, 0, w] (fun t => noted t link true ∧ (link, 0, w) ∈ t.jid.retries ∧ t.poison = s.poison)) ∧
    ((link, 0, w) ∈ s.jid.retries → finds [2, d, n, 0, w] (fun t => noted t link false ∧ poisons t)) ∧
    (s.jid.down = false → s.ev = [q] → q < 16 → s.build.hasQuarter q = true → (s.quarter q).failed = false →
      ∃ (t : State) (r : FaultRec), exec .quarterFailure s = .next t ∧ sameMem s t ∧ (t.quarter q).failed = true ∧
        t.jid.failed = s.jid.failed ||| 2 ^ q ∧ t.cp.waiting = s.cp.waiting ++ [r] ∧ r.kind = 3 ∧ r.reason = 1 ∧
        r.val = BitVec.ofNat 64 t.jid.failed ∧ t.inventory = { s.inventory with failed := t.jid.failed }) ∧
    (s.part? p = some x → x.mode = .preempted → x.stops = false →
      (s.ev = [p, v, d, n] → s.jid.down = false → replays s p = false → s.mayWriteArea d (d + n) = true →
        ∃ (t : State) (r : Recording), exec .recordModeEnable s = .next t ∧ t.recordingOf p = some r ∧
          r.code = s.build.code ∧ r.start = s.imageOf x.quarters ∧ r.log = [] ∧ r.room = v ∧ r.replaying = false ∧
          (n = 0 → ∀ k, k ≠ p → t.recordingOf k = s.recordingOf k) ∧ (t.part? p).map (·.mode) = some .running) ∧
      (∀ r, s.ev = [p] → s.recordingOf p = some r → r.replaying = false →
        (r.code = s.build.code →
          ∃ t : State, exec .replay s = .next t ∧ t.recordingOf p = some { r with replaying := true, todo := r.log } ∧ t.mem = s.mem ∧
            (t.part? p).map (·.mode) = some .running) ∧
        (r.code ≠ s.build.code → exec .replay s = .next s))) ∧
    (∀ i, s.ev = [i, v, 1] → i = 2 ∨ i = 3 → s.cp.fused.get 0 i ≤ v →
      exec .firmwareUpdate s = .next { s with cp := { s.cp with staged := s.cp.staged.put i v } }) ∧
    (s.cp.fwstat = 1 → v ≤ 1 → w ≤ 1 →
      (s.ev = [0, v, w] → exec .spdmRequest s = .next { s with cp := { s.cp with spdm := some (decide (v + w ≠ 0)), spdmData := [] } }) ∧
      (s.cp.spdm = some true → 1 ≤ d → d ≤ 5 →
        (s.ev = [1, d] → exec .spdmRequest s = .next { s with cp := { s.cp with spdmData := s.measurement d } }) ∧
        (s.ev = [2] → exec .spdmRequest s = .next { s with cp := { s.cp with spdmData := Config.certificates Config.identityKey } }))) ∧
    (s.ev = [v, w] → v ≤ 1 → w ≤ 1 → (s.cp.staged.map (·.1)).Nodup → ∃ t : State, exec .reset s = .next t ∧ t.ctxs = [] ∧ t.parts = [] ∧
      t.mem = [] ∧ t.build = s.build ∧ t.cp.queues = [] ∧
      (∀ i m, (i, m) ∈ s.cp.staged → t.cp.versions.get 0 i = m ∧ t.cp.fused.get 0 i = max m (s.cp.fused.get 0 i)) ∧
      let runs (i : Nat) : Prop := t.cp.fused.get 0 i ≤ t.cp.versions.get 0 i
      t.jid = { down := t.jid.down } ∧ (t.jid.down = true ↔ w = 1 ∨ ¬ runs 3) ∧ (t.cp.fwstat = 1 ∨ t.cp.fwstat = 2) ∧
      (t.cp.fwstat = 1 ↔ v = 0 ∧ w = 0 ∧ runs 2 ∧ runs 3))

/-! ### Words and steps (02_words, 09_tasks, 10_system) -/

/-- R27, R31, R40 to R52: some words, written out from the encoding tables, decode to the instructions that they stand for, and one word
of each kind that R31 makes illegal is refused by name. -/
def Obligations.DecodeWords : Prop :=
  let reads (w : Word32) (i : Instr) : Prop := decode w = .ok i
  let refuses (w : Word32) (e : DecodeError) : Prop := decode w = .illegal e
  reads 0b0_000000_01001_00101_00110_0000000000 (.add false 9 5 6) ∧
  reads 0b1_000001_00001_00010_111111111111111 (.addi true 1 2 0x7FFF) ∧
  reads 0b0_010000_00011_00100_011_111111111100 (.bGe false 3 4 0xFFC) ∧
  reads 0b0_010011_00001_11111_000000000001000 (.jalr false 1 31 8) ∧
  reads 0b0_010110_00111_01000_0_10_00_0000000101 (.ld false 7 8 2 5) ∧
  reads 0b0_011000_01010_00011_10000_1000000000 (.stp false 10 3 0x200) ∧
  reads 0b0_011101_00100_00101_00110_00111_11_1_00 (.amoCas false 4 5 6 7 3 1) ∧
  reads 0b0_100000_00010_00000000000000000000 (.tbegin false 2) ∧
  reads 0b0_101000_00000_00110_001000000000_001 (.ctlwr false 6 0x200) ∧
  reads 0b0_101000_00011_0000000001_10_01111000 (.cpgoRead false 3 2) ∧
  reads 0b0_110001_00001_00010_00011_00100_00000 (.mms false 1 2 3 4) ∧
  reads 0b0_110110_00001_00010_00011_010_100_0000 (.vadd false 1 2 3 2 4) ∧
  reads 0b0_111001_00_001_00_010_00_011_0000001000 (.kand false 1 2 3) ∧
  reads 0b0_111011_00101_00110_00000_001_000_0000 (.vld false 5 6 1 0) ∧
  reads 0b0_111101_00001_00010_00011_00100_01_000 (.fma false 1 2 3 4 1) ∧
  refuses 0 .zeroWord ∧
  refuses 0b0_001101_00001_00010_00011_0000000000 .unassignedMajor ∧
  refuses 0b0_000000_00001_00010_00011_0000000111 .unassignedCode ∧
  refuses 0b0_000000_00001_00010_00011_0000011000 .unusedNotZero ∧
  refuses 0b0_011000_01011_00011_10000_0000000000 .reservedOperand

/-- R27, R31, R40 to R52: the word of every well-formed instruction decodes to it, with every operand at every value that its encoding
admits. -/
def Obligations.EncodeDecode : Prop :=
  ∀ (i : Instr) (w : Word32), i.wellFormed = true → encode i = some w → decode w = .ok i

/-- R27, R31: every word that decodes is the word of the instruction that it decodes to, and that instruction is well formed: no two
words mean the same, and no bit of a word is ignored. -/
def Obligations.WordsMeanOne : Prop :=
  ∀ (w : Word32) (i : Instr), decode w = .ok i → encode i = some w ∧ i.wellFormed = true

/-- R91, R102, R104, R208, R241: a step runs the decoded instruction. Where a turn comes to a context that runs, with nothing pending that
comes before its next instruction, below XBOUND and within its window, the step is the meaning of the instruction that the
word at its pc decodes to, at the state after the fetch and the counts of issue (an access stands behind no unanswered waitge, R310), with the time base one further (the model's
choice, logs 1 and 6). The word is the buffer's, or else the four bytes of local memory at the pc, little-endian. A settle
point comes after the wait of R92. A step without an encoding that is next is its meaning at its arguments.
R208, R251: around that, an instruction that has issued leaves its core's pointer after its context, and its position in the context's window;
nothing else changes, but in a replay (R252, R253).
Which step comes, and the form of its arguments, are the model's (log 1). -/
def Obligations.StepRunsDecoded : Prop :=
  let does (i : Instr) (u : State) : Host.Outcome State Fault Refusal :=
    match exec i u with
    | .next t => .next (State.after u i t)
    | o => o
  (∀ (s : State) (k : Nat) (rest : List Turn) (i : Instr),
    let s1 : State := { s with agenda := rest, cur := k }
    let c := s.ctx k
    let q := s.quad (quadOf k)
    let pc := c.pc.toNat
    let word := (fetch s1).1
    let s2 := (fetch s1).2
    let goesOn (s : State) (settles : Bool) : State := { s.counted settles with now := s.now + 1 }
    (c.ibuf.has pc = true → word = c.ibuf.get 0 pc ∧ s2 = s1) ∧
    (c.ibuf.has pc = false → word = BitVec.ofNat 32 (natOfBytes (q.mem.read pc 4)) ∧
      s2 = s1.onMe fun c => { c with ibuf := s2.me.ibuf }) ∧
    (s.agenda = .turn k :: rest → s.build.hasCore (coreOf k) = true → c.status = .running → c.halted = false → c.declined = none →
      c.replay = none → c.resubs = [] → s.recordings = [] → (isAccess i = false ∨ ∀ o ∈ c.outs, o.unanswered = false) → c.ctl.intrap = true ∨ (c.power = none ∧ c.timers = 0) → pc < q.xbound.toNat →
      pc / 8 ∉ q.poison → c.opens = true ∨ c.window < 32 → decode word = .ok i →
      (isSettle word i = false → isEnd i = false ∨ (c.deferred = none ∧ c.carry = none) → step s = does i (goesOn s2 false)) ∧
      ∀ s3, isSettle word i = true → s2.settle k = (s3, true) → s3.me.deferred = none → s3.me.carry = none →
        step s = does i (goesOn s3 true))) ∧
  (∀ (s : State) (i : Instr) (args : List Nat) (rest : List Turn), s.agenda = .event i args :: rest → encode i = none →
    step s = does i { s with agenda := rest, ev := args, now := s.now + 1 }) ∧
  ∀ (s t : State) (i : Instr), s.me.strip = none →
    let u := State.after s i t
    u = { t with ctxs := u.ctxs, cores := u.cores } ∧
    (∀ k, u.ctx k = { t.ctx k with entry := (u.ctx k).entry, trail := (u.ctx k).trail, buffer := (u.ctx k).buffer }) ∧
    (∀ k, u.core k = { t.core k with rr := (u.core k).rr, issues := (u.core k).issues }) ∧
    (encode i = none → u = t) ∧
    ((encode i).isSome = true → t.me.issued = s.me.issued →
      (u.core t.myCore).rr = t.cur % 8 + 1 ∧ (u.core t.myCore).issues = (t.core t.myCore).issues + 1)

/-! ### The whole machine -/

/-- Every instruction and every step without an encoding comes to a next state in every state; a step stops only where the agenda gives a
turn to a core that the part lacks (the model's choice, log 1). -/
def Obligations.NothingStops : Prop :=
  (∀ (i : Instr) (s : State), ∃ t : State, exec i s = .next t) ∧
  ∀ s : State, (∃ t : State, step s = .next t) ∨
    ∃ k rest, s.agenda = .turn k :: rest ∧ s.build.hasCore (coreOf k) = false ∧ step s = .fault .absentCore

/-- R159, R180: a step keeps every memory in its canonical form, that of every quad and of physical memory, and those that a saved image
or a recording holds (R255, R430). -/
def Obligations.MemoryStaysCanonical : Prop :=
  ∀ s t : State, s.canonical → step s = .next t → t.canonical

/-- What reset leaves, as the spec gives it: R35, R37, R204 (no context holds a task, the control registers of context scope are 0), R164
and R171 (no tile and no ring), R210, R225, R346, R424 (DISPTH 28, MBDEPTH 16, MKEYDOM 0, FDUTY 16), R327 (TLBASE 0), R400, R401,
R404, R410, R412 (the host registers that have a value), R409 (no partition). Every memory is in its canonical form. -/
def Obligations.ResetState : Prop :=
  let s := State.reset
  s.canonical ∧ s.parts = [] ∧ s.cp.modid = 0 ∧ s.cp.fqctl = 0 ∧ s.cp.aqctl = 0 ∧
  (∀ k, (s.ctx k).status = .free ∧ (s.ctx k).attempt = none ∧ (s.ctx k).outs = [] ∧ (s.ctx k).ctl.fpctl = 0 ∧ (s.ctx k).ctl.nmode = 0 ∧
    (s.ctx k).ctl.mfmta = 0 ∧ (s.ctx k).ctl.mfmtb = 0 ∧ (s.ctx k).ctl.mfmtc = 0 ∧ (s.ctx k).ctl.mscl = 0 ∧ (s.ctx k).ctl.tvec = 0) ∧
  (∀ k, (s.core k).queue = [] ∧ (s.core k).mbdepth = 16 ∧ (s.core k).thresh = 28 ∧ (s.core k).mkeydom = 0 ∧ (s.core k).fduty = 16) ∧
  (∀ k, (s.quad k).tiles = [] ∧ (s.quad k).rings = [] ∧ (s.quad k).tlbase = 0 ∧ (s.quad k).tlb = []) ∧
  (∀ k, (s.slice k).jacks = [] ∧ (s.slice k).triggers = []) ∧ (∀ q, (s.queue q).bound = false) ∧
  ∀ v, (s.cp.vectors.get {} v).count = 32 ∧ (s.cp.vectors.get {} v).time = 4
end

