-- ==== Sys2Proof/Laws/State.lean ====
section
/-! SUPPORT. What each named update of the state leaves alone, field by field, and what a unit reads as after it. -/

namespace Sys2Proof.Machine

/-! ### Tables -/

@[simp] theorem Map.get_put_same {α : Type} (m : Map α) (d v : α) (k : Nat) : (m.put k v).get d k = v := by
  induction m with
  | nil => simp [Map.put, Map.get]
  | cons e t ih =>
    obtain ⟨j, w⟩ := e
    simp only [Map.put]
    split
    · simp [Map.get]
    · split
      · simp [Map.get]
      · rename_i _ h; simp [Map.get, h, ih]

@[simp] theorem Map.get_put_other {α : Type} (m : Map α) (d v : α) {j k : Nat} (h : j ≠ k) :
    (m.put k v).get d j = m.get d j := by
  induction m with
  | nil => simp [Map.put, Map.get, h]
  | cons e t ih =>
    obtain ⟨i, w⟩ := e
    simp only [Map.put]
    split
    · simp [Map.get, h]
    · split
      · rename_i _ hk; subst hk; simp [Map.get, h]
      · simp [Map.get, ih]

theorem Map.get_put {α : Type} (m : Map α) (d v : α) (j k : Nat) :
    (m.put k v).get d j = if j = k then v else m.get d j := by
  by_cases h : j = k <;> simp [h]

/-! ### Units -/

@[simp] theorem State.onCtx_ctx_same (s : State) (k : Nat) (f : Ctx → Ctx) : (s.onCtx k f).ctx k = f (s.ctx k) := by
  simp [State.onCtx, State.ctx]
@[simp] theorem State.onCtx_ctx_other (s : State) {j k : Nat} (f : Ctx → Ctx) (h : j ≠ k) : (s.onCtx k f).ctx j = s.ctx j := by
  simp [State.onCtx, State.ctx, h]
@[simp] theorem State.onCtx_cores (s : State) (k : Nat) (f : Ctx → Ctx) : (s.onCtx k f).cores = s.cores := rfl
@[simp] theorem State.onCtx_slices (s : State) (k : Nat) (f : Ctx → Ctx) : (s.onCtx k f).slices = s.slices := rfl
@[simp] theorem State.onCtx_quads (s : State) (k : Nat) (f : Ctx → Ctx) : (s.onCtx k f).quads = s.quads := rfl
@[simp] theorem State.onCtx_gangs (s : State) (k : Nat) (f : Ctx → Ctx) : (s.onCtx k f).gangs = s.gangs := rfl
@[simp] theorem State.onCtx_quarters (s : State) (k : Nat) (f : Ctx → Ctx) : (s.onCtx k f).quarters = s.quarters := rfl
@[simp] theorem State.onCtx_dies (s : State) (k : Nat) (f : Ctx → Ctx) : (s.onCtx k f).dies = s.dies := rfl
@[simp] theorem State.onCtx_parts (s : State) (k : Nat) (f : Ctx → Ctx) : (s.onCtx k f).parts = s.parts := rfl
@[simp] theorem State.onCtx_mem (s : State) (k : Nat) (f : Ctx → Ctx) : (s.onCtx k f).mem = s.mem := rfl
@[simp] theorem State.onCtx_poison (s : State) (k : Nat) (f : Ctx → Ctx) : (s.onCtx k f).poison = s.poison := rfl
@[simp] theorem State.onCtx_areas (s : State) (k : Nat) (f : Ctx → Ctx) : (s.onCtx k f).areas = s.areas := rfl
@[simp] theorem State.onCtx_hostRefuses (s : State) (k : Nat) (f : Ctx → Ctx) : (s.onCtx k f).hostRefuses = s.hostRefuses := rfl
@[simp] theorem State.onCtx_build (s : State) (k : Nat) (f : Ctx → Ctx) : (s.onCtx k f).build = s.build := rfl
@[simp] theorem State.onCtx_domain (s : State) (k : Nat) (f : Ctx → Ctx) : (s.onCtx k f).domain = s.domain := rfl
@[simp] theorem State.onCtx_modules (s : State) (k : Nat) (f : Ctx → Ctx) : (s.onCtx k f).modules = s.modules := rfl
@[simp] theorem State.onCtx_cp (s : State) (k : Nat) (f : Ctx → Ctx) : (s.onCtx k f).cp = s.cp := rfl
@[simp] theorem State.onCtx_jid (s : State) (k : Nat) (f : Ctx → Ctx) : (s.onCtx k f).jid = s.jid := rfl
@[simp] theorem State.onCtx_net (s : State) (k : Nat) (f : Ctx → Ctx) : (s.onCtx k f).net = s.net := rfl
@[simp] theorem State.onCtx_recordings (s : State) (k : Nat) (f : Ctx → Ctx) : (s.onCtx k f).recordings = s.recordings := rfl
@[simp] theorem State.onCtx_now (s : State) (k : Nat) (f : Ctx → Ctx) : (s.onCtx k f).now = s.now := rfl
@[simp] theorem State.onCtx_cur (s : State) (k : Nat) (f : Ctx → Ctx) : (s.onCtx k f).cur = s.cur := rfl
@[simp] theorem State.onCtx_agenda (s : State) (k : Nat) (f : Ctx → Ctx) : (s.onCtx k f).agenda = s.agenda := rfl
@[simp] theorem State.onCtx_ev (s : State) (k : Nat) (f : Ctx → Ctx) : (s.onCtx k f).ev = s.ev := rfl
@[simp] theorem State.onCtx_free (s : State) (k : Nat) (f : Ctx → Ctx) : (s.onCtx k f).free = s.free := rfl
@[simp] theorem State.onCtx_core (s : State) (k j : Nat) (f : Ctx → Ctx) : (s.onCtx k f).core j = s.core j := rfl
@[simp] theorem State.onCtx_slice (s : State) (k j : Nat) (f : Ctx → Ctx) : (s.onCtx k f).slice j = s.slice j := rfl
@[simp] theorem State.onCtx_quad (s : State) (k j : Nat) (f : Ctx → Ctx) : (s.onCtx k f).quad j = s.quad j := rfl
@[simp] theorem State.onCtx_gang (s : State) (k j : Nat) (f : Ctx → Ctx) : (s.onCtx k f).gang j = s.gang j := rfl
@[simp] theorem State.onCtx_quarter (s : State) (k j : Nat) (f : Ctx → Ctx) : (s.onCtx k f).quarter j = s.quarter j := rfl
@[simp] theorem State.onCtx_die (s : State) (k j : Nat) (f : Ctx → Ctx) : (s.onCtx k f).die j = s.die j := rfl
@[simp] theorem State.onCore_core_same (s : State) (k : Nat) (f : Core → Core) : (s.onCore k f).core k = f (s.core k) := by
  simp [State.onCore, State.core]
@[simp] theorem State.onCore_core_other (s : State) {j k : Nat} (f : Core → Core) (h : j ≠ k) : (s.onCore k f).core j = s.core j := by
  simp [State.onCore, State.core, h]
@[simp] theorem State.onCore_ctxs (s : State) (k : Nat) (f : Core → Core) : (s.onCore k f).ctxs = s.ctxs := rfl
@[simp] theorem State.onCore_slices (s : State) (k : Nat) (f : Core → Core) : (s.onCore k f).slices = s.slices := rfl
@[simp] theorem State.onCore_quads (s : State) (k : Nat) (f : Core → Core) : (s.onCore k f).quads = s.quads := rfl
@[simp] theorem State.onCore_gangs (s : State) (k : Nat) (f : Core → Core) : (s.onCore k f).gangs = s.gangs := rfl
@[simp] theorem State.onCore_quarters (s : State) (k : Nat) (f : Core → Core) : (s.onCore k f).quarters = s.quarters := rfl
@[simp] theorem State.onCore_dies (s : State) (k : Nat) (f : Core → Core) : (s.onCore k f).dies = s.dies := rfl
@[simp] theorem State.onCore_parts (s : State) (k : Nat) (f : Core → Core) : (s.onCore k f).parts = s.parts := rfl
@[simp] theorem State.onCore_mem (s : State) (k : Nat) (f : Core → Core) : (s.onCore k f).mem = s.mem := rfl
@[simp] theorem State.onCore_poison (s : State) (k : Nat) (f : Core → Core) : (s.onCore k f).poison = s.poison := rfl
@[simp] theorem State.onCore_areas (s : State) (k : Nat) (f : Core → Core) : (s.onCore k f).areas = s.areas := rfl
@[simp] theorem State.onCore_hostRefuses (s : State) (k : Nat) (f : Core → Core) : (s.onCore k f).hostRefuses = s.hostRefuses := rfl
@[simp] theorem State.onCore_build (s : State) (k : Nat) (f : Core → Core) : (s.onCore k f).build = s.build := rfl
@[simp] theorem State.onCore_domain (s : State) (k : Nat) (f : Core → Core) : (s.onCore k f).domain = s.domain := rfl
@[simp] theorem State.onCore_modules (s : State) (k : Nat) (f : Core → Core) : (s.onCore k f).modules = s.modules := rfl
@[simp] theorem State.onCore_cp (s : State) (k : Nat) (f : Core → Core) : (s.onCore k f).cp = s.cp := rfl
@[simp] theorem State.onCore_jid (s : State) (k : Nat) (f : Core → Core) : (s.onCore k f).jid = s.jid := rfl
@[simp] theorem State.onCore_net (s : State) (k : Nat) (f : Core → Core) : (s.onCore k f).net = s.net := rfl
@[simp] theorem State.onCore_recordings (s : State) (k : Nat) (f : Core → Core) : (s.onCore k f).recordings = s.recordings := rfl
@[simp] theorem State.onCore_now (s : State) (k : Nat) (f : Core → Core) : (s.onCore k f).now = s.now := rfl
@[simp] theorem State.onCore_cur (s : State) (k : Nat) (f : Core → Core) : (s.onCore k f).cur = s.cur := rfl
@[simp] theorem State.onCore_agenda (s : State) (k : Nat) (f : Core → Core) : (s.onCore k f).agenda = s.agenda := rfl
@[simp] theorem State.onCore_ev (s : State) (k : Nat) (f : Core → Core) : (s.onCore k f).ev = s.ev := rfl
@[simp] theorem State.onCore_free (s : State) (k : Nat) (f : Core → Core) : (s.onCore k f).free = s.free := rfl
@[simp] theorem State.onCore_ctx (s : State) (k j : Nat) (f : Core → Core) : (s.onCore k f).ctx j = s.ctx j := rfl
@[simp] theorem State.onCore_slice (s : State) (k j : Nat) (f : Core → Core) : (s.onCore k f).slice j = s.slice j := rfl
@[simp] theorem State.onCore_quad (s : State) (k j : Nat) (f : Core → Core) : (s.onCore k f).quad j = s.quad j := rfl
@[simp] theorem State.onCore_gang (s : State) (k j : Nat) (f : Core → Core) : (s.onCore k f).gang j = s.gang j := rfl
@[simp] theorem State.onCore_quarter (s : State) (k j : Nat) (f : Core → Core) : (s.onCore k f).quarter j = s.quarter j := rfl
@[simp] theorem State.onCore_die (s : State) (k j : Nat) (f : Core → Core) : (s.onCore k f).die j = s.die j := rfl
@[simp] theorem State.onSlice_slice_same (s : State) (k : Nat) (f : Slice → Slice) : (s.onSlice k f).slice k = f (s.slice k) := by
  simp [State.onSlice, State.slice]
@[simp] theorem State.onSlice_slice_other (s : State) {j k : Nat} (f : Slice → Slice) (h : j ≠ k) : (s.onSlice k f).slice j = s.slice j := by
  simp [State.onSlice, State.slice, h]
@[simp] theorem State.onSlice_ctxs (s : State) (k : Nat) (f : Slice → Slice) : (s.onSlice k f).ctxs = s.ctxs := rfl
@[simp] theorem State.onSlice_cores (s : State) (k : Nat) (f : Slice → Slice) : (s.onSlice k f).cores = s.cores := rfl
@[simp] theorem State.onSlice_quads (s : State) (k : Nat) (f : Slice → Slice) : (s.onSlice k f).quads = s.quads := rfl
@[simp] theorem State.onSlice_gangs (s : State) (k : Nat) (f : Slice → Slice) : (s.onSlice k f).gangs = s.gangs := rfl
@[simp] theorem State.onSlice_quarters (s : State) (k : Nat) (f : Slice → Slice) : (s.onSlice k f).quarters = s.quarters := rfl
@[simp] theorem State.onSlice_dies (s : State) (k : Nat) (f : Slice → Slice) : (s.onSlice k f).dies = s.dies := rfl
@[simp] theorem State.onSlice_parts (s : State) (k : Nat) (f : Slice → Slice) : (s.onSlice k f).parts = s.parts := rfl
@[simp] theorem State.onSlice_mem (s : State) (k : Nat) (f : Slice → Slice) : (s.onSlice k f).mem = s.mem := rfl
@[simp] theorem State.onSlice_poison (s : State) (k : Nat) (f : Slice → Slice) : (s.onSlice k f).poison = s.poison := rfl
@[simp] theorem State.onSlice_areas (s : State) (k : Nat) (f : Slice → Slice) : (s.onSlice k f).areas = s.areas := rfl
@[simp] theorem State.onSlice_hostRefuses (s : State) (k : Nat) (f : Slice → Slice) : (s.onSlice k f).hostRefuses = s.hostRefuses := rfl
@[simp] theorem State.onSlice_build (s : State) (k : Nat) (f : Slice → Slice) : (s.onSlice k f).build = s.build := rfl
@[simp] theorem State.onSlice_domain (s : State) (k : Nat) (f : Slice → Slice) : (s.onSlice k f).domain = s.domain := rfl
@[simp] theorem State.onSlice_modules (s : State) (k : Nat) (f : Slice → Slice) : (s.onSlice k f).modules = s.modules := rfl
@[simp] theorem State.onSlice_cp (s : State) (k : Nat) (f : Slice → Slice) : (s.onSlice k f).cp = s.cp := rfl
@[simp] theorem State.onSlice_jid (s : State) (k : Nat) (f : Slice → Slice) : (s.onSlice k f).jid = s.jid := rfl
@[simp] theorem State.onSlice_net (s : State) (k : Nat) (f : Slice → Slice) : (s.onSlice k f).net = s.net := rfl
@[simp] theorem State.onSlice_recordings (s : State) (k : Nat) (f : Slice → Slice) : (s.onSlice k f).recordings = s.recordings := rfl
@[simp] theorem State.onSlice_now (s : State) (k : Nat) (f : Slice → Slice) : (s.onSlice k f).now = s.now := rfl
@[simp] theorem State.onSlice_cur (s : State) (k : Nat) (f : Slice → Slice) : (s.onSlice k f).cur = s.cur := rfl
@[simp] theorem State.onSlice_agenda (s : State) (k : Nat) (f : Slice → Slice) : (s.onSlice k f).agenda = s.agenda := rfl
@[simp] theorem State.onSlice_ev (s : State) (k : Nat) (f : Slice → Slice) : (s.onSlice k f).ev = s.ev := rfl
@[simp] theorem State.onSlice_free (s : State) (k : Nat) (f : Slice → Slice) : (s.onSlice k f).free = s.free := rfl
@[simp] theorem State.onSlice_ctx (s : State) (k j : Nat) (f : Slice → Slice) : (s.onSlice k f).ctx j = s.ctx j := rfl
@[simp] theorem State.onSlice_core (s : State) (k j : Nat) (f : Slice → Slice) : (s.onSlice k f).core j = s.core j := rfl
@[simp] theorem State.onSlice_quad (s : State) (k j : Nat) (f : Slice → Slice) : (s.onSlice k f).quad j = s.quad j := rfl
@[simp] theorem State.onSlice_gang (s : State) (k j : Nat) (f : Slice → Slice) : (s.onSlice k f).gang j = s.gang j := rfl
@[simp] theorem State.onSlice_quarter (s : State) (k j : Nat) (f : Slice → Slice) : (s.onSlice k f).quarter j = s.quarter j := rfl
@[simp] theorem State.onSlice_die (s : State) (k j : Nat) (f : Slice → Slice) : (s.onSlice k f).die j = s.die j := rfl
@[simp] theorem State.onQuad_quad_same (s : State) (k : Nat) (f : Quad → Quad) : (s.onQuad k f).quad k = f (s.quad k) := by
  simp [State.onQuad, State.quad]
@[simp] theorem State.onQuad_quad_other (s : State) {j k : Nat} (f : Quad → Quad) (h : j ≠ k) : (s.onQuad k f).quad j = s.quad j := by
  simp [State.onQuad, State.quad, h]
@[simp] theorem State.onQuad_ctxs (s : State) (k : Nat) (f : Quad → Quad) : (s.onQuad k f).ctxs = s.ctxs := rfl
@[simp] theorem State.onQuad_cores (s : State) (k : Nat) (f : Quad → Quad) : (s.onQuad k f).cores = s.cores := rfl
@[simp] theorem State.onQuad_slices (s : State) (k : Nat) (f : Quad → Quad) : (s.onQuad k f).slices = s.slices := rfl
@[simp] theorem State.onQuad_gangs (s : State) (k : Nat) (f : Quad → Quad) : (s.onQuad k f).gangs = s.gangs := rfl
@[simp] theorem State.onQuad_quarters (s : State) (k : Nat) (f : Quad → Quad) : (s.onQuad k f).quarters = s.quarters := rfl
@[simp] theorem State.onQuad_dies (s : State) (k : Nat) (f : Quad → Quad) : (s.onQuad k f).dies = s.dies := rfl
@[simp] theorem State.onQuad_parts (s : State) (k : Nat) (f : Quad → Quad) : (s.onQuad k f).parts = s.parts := rfl
@[simp] theorem State.onQuad_mem (s : State) (k : Nat) (f : Quad → Quad) : (s.onQuad k f).mem = s.mem := rfl
@[simp] theorem State.onQuad_poison (s : State) (k : Nat) (f : Quad → Quad) : (s.onQuad k f).poison = s.poison := rfl
@[simp] theorem State.onQuad_areas (s : State) (k : Nat) (f : Quad → Quad) : (s.onQuad k f).areas = s.areas := rfl
@[simp] theorem State.onQuad_hostRefuses (s : State) (k : Nat) (f : Quad → Quad) : (s.onQuad k f).hostRefuses = s.hostRefuses := rfl
@[simp] theorem State.onQuad_build (s : State) (k : Nat) (f : Quad → Quad) : (s.onQuad k f).build = s.build := rfl
@[simp] theorem State.onQuad_domain (s : State) (k : Nat) (f : Quad → Quad) : (s.onQuad k f).domain = s.domain := rfl
@[simp] theorem State.onQuad_modules (s : State) (k : Nat) (f : Quad → Quad) : (s.onQuad k f).modules = s.modules := rfl
@[simp] theorem State.onQuad_cp (s : State) (k : Nat) (f : Quad → Quad) : (s.onQuad k f).cp = s.cp := rfl
@[simp] theorem State.onQuad_jid (s : State) (k : Nat) (f : Quad → Quad) : (s.onQuad k f).jid = s.jid := rfl
@[simp] theorem State.onQuad_net (s : State) (k : Nat) (f : Quad → Quad) : (s.onQuad k f).net = s.net := rfl
@[simp] theorem State.onQuad_recordings (s : State) (k : Nat) (f : Quad → Quad) : (s.onQuad k f).recordings = s.recordings := rfl
@[simp] theorem State.onQuad_now (s : State) (k : Nat) (f : Quad → Quad) : (s.onQuad k f).now = s.now := rfl
@[simp] theorem State.onQuad_cur (s : State) (k : Nat) (f : Quad → Quad) : (s.onQuad k f).cur = s.cur := rfl
@[simp] theorem State.onQuad_agenda (s : State) (k : Nat) (f : Quad → Quad) : (s.onQuad k f).agenda = s.agenda := rfl
@[simp] theorem State.onQuad_ev (s : State) (k : Nat) (f : Quad → Quad) : (s.onQuad k f).ev = s.ev := rfl
@[simp] theorem State.onQuad_free (s : State) (k : Nat) (f : Quad → Quad) : (s.onQuad k f).free = s.free := rfl
@[simp] theorem State.onQuad_ctx (s : State) (k j : Nat) (f : Quad → Quad) : (s.onQuad k f).ctx j = s.ctx j := rfl
@[simp] theorem State.onQuad_core (s : State) (k j : Nat) (f : Quad → Quad) : (s.onQuad k f).core j = s.core j := rfl
@[simp] theorem State.onQuad_slice (s : State) (k j : Nat) (f : Quad → Quad) : (s.onQuad k f).slice j = s.slice j := rfl
@[simp] theorem State.onQuad_gang (s : State) (k j : Nat) (f : Quad → Quad) : (s.onQuad k f).gang j = s.gang j := rfl
@[simp] theorem State.onQuad_quarter (s : State) (k j : Nat) (f : Quad → Quad) : (s.onQuad k f).quarter j = s.quarter j := rfl
@[simp] theorem State.onQuad_die (s : State) (k j : Nat) (f : Quad → Quad) : (s.onQuad k f).die j = s.die j := rfl
@[simp] theorem State.onGang_gang_same (s : State) (k : Nat) (f : Gang → Gang) : (s.onGang k f).gang k = f (s.gang k) := by
  simp [State.onGang, State.gang]
@[simp] theorem State.onGang_gang_other (s : State) {j k : Nat} (f : Gang → Gang) (h : j ≠ k) : (s.onGang k f).gang j = s.gang j := by
  simp [State.onGang, State.gang, h]
@[simp] theorem State.onGang_ctxs (s : State) (k : Nat) (f : Gang → Gang) : (s.onGang k f).ctxs = s.ctxs := rfl
@[simp] theorem State.onGang_cores (s : State) (k : Nat) (f : Gang → Gang) : (s.onGang k f).cores = s.cores := rfl
@[simp] theorem State.onGang_slices (s : State) (k : Nat) (f : Gang → Gang) : (s.onGang k f).slices = s.slices := rfl
@[simp] theorem State.onGang_quads (s : State) (k : Nat) (f : Gang → Gang) : (s.onGang k f).quads = s.quads := rfl
@[simp] theorem State.onGang_quarters (s : State) (k : Nat) (f : Gang → Gang) : (s.onGang k f).quarters = s.quarters := rfl
@[simp] theorem State.onGang_dies (s : State) (k : Nat) (f : Gang → Gang) : (s.onGang k f).dies = s.dies := rfl
@[simp] theorem State.onGang_parts (s : State) (k : Nat) (f : Gang → Gang) : (s.onGang k f).parts = s.parts := rfl
@[simp] theorem State.onGang_mem (s : State) (k : Nat) (f : Gang → Gang) : (s.onGang k f).mem = s.mem := rfl
@[simp] theorem State.onGang_poison (s : State) (k : Nat) (f : Gang → Gang) : (s.onGang k f).poison = s.poison := rfl
@[simp] theorem State.onGang_areas (s : State) (k : Nat) (f : Gang → Gang) : (s.onGang k f).areas = s.areas := rfl
@[simp] theorem State.onGang_hostRefuses (s : State) (k : Nat) (f : Gang → Gang) : (s.onGang k f).hostRefuses = s.hostRefuses := rfl
@[simp] theorem State.onGang_build (s : State) (k : Nat) (f : Gang → Gang) : (s.onGang k f).build = s.build := rfl
@[simp] theorem State.onGang_domain (s : State) (k : Nat) (f : Gang → Gang) : (s.onGang k f).domain = s.domain := rfl
@[simp] theorem State.onGang_modules (s : State) (k : Nat) (f : Gang → Gang) : (s.onGang k f).modules = s.modules := rfl
@[simp] theorem State.onGang_cp (s : State) (k : Nat) (f : Gang → Gang) : (s.onGang k f).cp = s.cp := rfl
@[simp] theorem State.onGang_jid (s : State) (k : Nat) (f : Gang → Gang) : (s.onGang k f).jid = s.jid := rfl
@[simp] theorem State.onGang_net (s : State) (k : Nat) (f : Gang → Gang) : (s.onGang k f).net = s.net := rfl
@[simp] theorem State.onGang_recordings (s : State) (k : Nat) (f : Gang → Gang) : (s.onGang k f).recordings = s.recordings := rfl
@[simp] theorem State.onGang_now (s : State) (k : Nat) (f : Gang → Gang) : (s.onGang k f).now = s.now := rfl
@[simp] theorem State.onGang_cur (s : State) (k : Nat) (f : Gang → Gang) : (s.onGang k f).cur = s.cur := rfl
@[simp] theorem State.onGang_agenda (s : State) (k : Nat) (f : Gang → Gang) : (s.onGang k f).agenda = s.agenda := rfl
@[simp] theorem State.onGang_ev (s : State) (k : Nat) (f : Gang → Gang) : (s.onGang k f).ev = s.ev := rfl
@[simp] theorem State.onGang_free (s : State) (k : Nat) (f : Gang → Gang) : (s.onGang k f).free = s.free := rfl
@[simp] theorem State.onGang_ctx (s : State) (k j : Nat) (f : Gang → Gang) : (s.onGang k f).ctx j = s.ctx j := rfl
@[simp] theorem State.onGang_core (s : State) (k j : Nat) (f : Gang → Gang) : (s.onGang k f).core j = s.core j := rfl
@[simp] theorem State.onGang_slice (s : State) (k j : Nat) (f : Gang → Gang) : (s.onGang k f).slice j = s.slice j := rfl
@[simp] theorem State.onGang_quad (s : State) (k j : Nat) (f : Gang → Gang) : (s.onGang k f).quad j = s.quad j := rfl
@[simp] theorem State.onGang_quarter (s : State) (k j : Nat) (f : Gang → Gang) : (s.onGang k f).quarter j = s.quarter j := rfl
@[simp] theorem State.onGang_die (s : State) (k j : Nat) (f : Gang → Gang) : (s.onGang k f).die j = s.die j := rfl
@[simp] theorem State.onQuarter_quarter_same (s : State) (k : Nat) (f : Quarter → Quarter) : (s.onQuarter k f).quarter k = f (s.quarter k) := by
  simp [State.onQuarter, State.quarter]
@[simp] theorem State.onQuarter_quarter_other (s : State) {j k : Nat} (f : Quarter → Quarter) (h : j ≠ k) : (s.onQuarter k f).quarter j = s.quarter j := by
  simp [State.onQuarter, State.quarter, h]
@[simp] theorem State.onQuarter_ctxs (s : State) (k : Nat) (f : Quarter → Quarter) : (s.onQuarter k f).ctxs = s.ctxs := rfl
@[simp] theorem State.onQuarter_cores (s : State) (k : Nat) (f : Quarter → Quarter) : (s.onQuarter k f).cores = s.cores := rfl
@[simp] theorem State.onQuarter_slices (s : State) (k : Nat) (f : Quarter → Quarter) : (s.onQuarter k f).slices = s.slices := rfl
@[simp] theorem State.onQuarter_quads (s : State) (k : Nat) (f : Quarter → Quarter) : (s.onQuarter k f).quads = s.quads := rfl
@[simp] theorem State.onQuarter_gangs (s : State) (k : Nat) (f : Quarter → Quarter) : (s.onQuarter k f).gangs = s.gangs := rfl
@[simp] theorem State.onQuarter_dies (s : State) (k : Nat) (f : Quarter → Quarter) : (s.onQuarter k f).dies = s.dies := rfl
@[simp] theorem State.onQuarter_parts (s : State) (k : Nat) (f : Quarter → Quarter) : (s.onQuarter k f).parts = s.parts := rfl
@[simp] theorem State.onQuarter_mem (s : State) (k : Nat) (f : Quarter → Quarter) : (s.onQuarter k f).mem = s.mem := rfl
@[simp] theorem State.onQuarter_poison (s : State) (k : Nat) (f : Quarter → Quarter) : (s.onQuarter k f).poison = s.poison := rfl
@[simp] theorem State.onQuarter_areas (s : State) (k : Nat) (f : Quarter → Quarter) : (s.onQuarter k f).areas = s.areas := rfl
@[simp] theorem State.onQuarter_hostRefuses (s : State) (k : Nat) (f : Quarter → Quarter) : (s.onQuarter k f).hostRefuses = s.hostRefuses := rfl
@[simp] theorem State.onQuarter_build (s : State) (k : Nat) (f : Quarter → Quarter) : (s.onQuarter k f).build = s.build := rfl
@[simp] theorem State.onQuarter_domain (s : State) (k : Nat) (f : Quarter → Quarter) : (s.onQuarter k f).domain = s.domain := rfl
@[simp] theorem State.onQuarter_modules (s : State) (k : Nat) (f : Quarter → Quarter) : (s.onQuarter k f).modules = s.modules := rfl
@[simp] theorem State.onQuarter_cp (s : State) (k : Nat) (f : Quarter → Quarter) : (s.onQuarter k f).cp = s.cp := rfl
@[simp] theorem State.onQuarter_jid (s : State) (k : Nat) (f : Quarter → Quarter) : (s.onQuarter k f).jid = s.jid := rfl
@[simp] theorem State.onQuarter_net (s : State) (k : Nat) (f : Quarter → Quarter) : (s.onQuarter k f).net = s.net := rfl
@[simp] theorem State.onQuarter_recordings (s : State) (k : Nat) (f : Quarter → Quarter) : (s.onQuarter k f).recordings = s.recordings := rfl
@[simp] theorem State.onQuarter_now (s : State) (k : Nat) (f : Quarter → Quarter) : (s.onQuarter k f).now = s.now := rfl
@[simp] theorem State.onQuarter_cur (s : State) (k : Nat) (f : Quarter → Quarter) : (s.onQuarter k f).cur = s.cur := rfl
@[simp] theorem State.onQuarter_agenda (s : State) (k : Nat) (f : Quarter → Quarter) : (s.onQuarter k f).agenda = s.agenda := rfl
@[simp] theorem State.onQuarter_ev (s : State) (k : Nat) (f : Quarter → Quarter) : (s.onQuarter k f).ev = s.ev := rfl
@[simp] theorem State.onQuarter_free (s : State) (k : Nat) (f : Quarter → Quarter) : (s.onQuarter k f).free = s.free := rfl
@[simp] theorem State.onQuarter_ctx (s : State) (k j : Nat) (f : Quarter → Quarter) : (s.onQuarter k f).ctx j = s.ctx j := rfl
@[simp] theorem State.onQuarter_core (s : State) (k j : Nat) (f : Quarter → Quarter) : (s.onQuarter k f).core j = s.core j := rfl
@[simp] theorem State.onQuarter_slice (s : State) (k j : Nat) (f : Quarter → Quarter) : (s.onQuarter k f).slice j = s.slice j := rfl
@[simp] theorem State.onQuarter_quad (s : State) (k j : Nat) (f : Quarter → Quarter) : (s.onQuarter k f).quad j = s.quad j := rfl
@[simp] theorem State.onQuarter_gang (s : State) (k j : Nat) (f : Quarter → Quarter) : (s.onQuarter k f).gang j = s.gang j := rfl
@[simp] theorem State.onQuarter_die (s : State) (k j : Nat) (f : Quarter → Quarter) : (s.onQuarter k f).die j = s.die j := rfl
@[simp] theorem State.onDie_die_same (s : State) (k : Nat) (f : Die → Die) : (s.onDie k f).die k = f (s.die k) := by
  simp [State.onDie, State.die]
@[simp] theorem State.onDie_die_other (s : State) {j k : Nat} (f : Die → Die) (h : j ≠ k) : (s.onDie k f).die j = s.die j := by
  simp [State.onDie, State.die, h]
@[simp] theorem State.onDie_ctxs (s : State) (k : Nat) (f : Die → Die) : (s.onDie k f).ctxs = s.ctxs := rfl
@[simp] theorem State.onDie_cores (s : State) (k : Nat) (f : Die → Die) : (s.onDie k f).cores = s.cores := rfl
@[simp] theorem State.onDie_slices (s : State) (k : Nat) (f : Die → Die) : (s.onDie k f).slices = s.slices := rfl
@[simp] theorem State.onDie_quads (s : State) (k : Nat) (f : Die → Die) : (s.onDie k f).quads = s.quads := rfl
@[simp] theorem State.onDie_gangs (s : State) (k : Nat) (f : Die → Die) : (s.onDie k f).gangs = s.gangs := rfl
@[simp] theorem State.onDie_quarters (s : State) (k : Nat) (f : Die → Die) : (s.onDie k f).quarters = s.quarters := rfl
@[simp] theorem State.onDie_parts (s : State) (k : Nat) (f : Die → Die) : (s.onDie k f).parts = s.parts := rfl
@[simp] theorem State.onDie_mem (s : State) (k : Nat) (f : Die → Die) : (s.onDie k f).mem = s.mem := rfl
@[simp] theorem State.onDie_poison (s : State) (k : Nat) (f : Die → Die) : (s.onDie k f).poison = s.poison := rfl
@[simp] theorem State.onDie_areas (s : State) (k : Nat) (f : Die → Die) : (s.onDie k f).areas = s.areas := rfl
@[simp] theorem State.onDie_hostRefuses (s : State) (k : Nat) (f : Die → Die) : (s.onDie k f).hostRefuses = s.hostRefuses := rfl
@[simp] theorem State.onDie_build (s : State) (k : Nat) (f : Die → Die) : (s.onDie k f).build = s.build := rfl
@[simp] theorem State.onDie_domain (s : State) (k : Nat) (f : Die → Die) : (s.onDie k f).domain = s.domain := rfl
@[simp] theorem State.onDie_modules (s : State) (k : Nat) (f : Die → Die) : (s.onDie k f).modules = s.modules := rfl
@[simp] theorem State.onDie_cp (s : State) (k : Nat) (f : Die → Die) : (s.onDie k f).cp = s.cp := rfl
@[simp] theorem State.onDie_jid (s : State) (k : Nat) (f : Die → Die) : (s.onDie k f).jid = s.jid := rfl
@[simp] theorem State.onDie_net (s : State) (k : Nat) (f : Die → Die) : (s.onDie k f).net = s.net := rfl
@[simp] theorem State.onDie_recordings (s : State) (k : Nat) (f : Die → Die) : (s.onDie k f).recordings = s.recordings := rfl
@[simp] theorem State.onDie_now (s : State) (k : Nat) (f : Die → Die) : (s.onDie k f).now = s.now := rfl
@[simp] theorem State.onDie_cur (s : State) (k : Nat) (f : Die → Die) : (s.onDie k f).cur = s.cur := rfl
@[simp] theorem State.onDie_agenda (s : State) (k : Nat) (f : Die → Die) : (s.onDie k f).agenda = s.agenda := rfl
@[simp] theorem State.onDie_ev (s : State) (k : Nat) (f : Die → Die) : (s.onDie k f).ev = s.ev := rfl
@[simp] theorem State.onDie_free (s : State) (k : Nat) (f : Die → Die) : (s.onDie k f).free = s.free := rfl
@[simp] theorem State.onDie_ctx (s : State) (k j : Nat) (f : Die → Die) : (s.onDie k f).ctx j = s.ctx j := rfl
@[simp] theorem State.onDie_core (s : State) (k j : Nat) (f : Die → Die) : (s.onDie k f).core j = s.core j := rfl
@[simp] theorem State.onDie_slice (s : State) (k j : Nat) (f : Die → Die) : (s.onDie k f).slice j = s.slice j := rfl
@[simp] theorem State.onDie_quad (s : State) (k j : Nat) (f : Die → Die) : (s.onDie k f).quad j = s.quad j := rfl
@[simp] theorem State.onDie_gang (s : State) (k j : Nat) (f : Die → Die) : (s.onDie k f).gang j = s.gang j := rfl
@[simp] theorem State.onDie_quarter (s : State) (k j : Nat) (f : Die → Die) : (s.onDie k f).quarter j = s.quarter j := rfl
@[simp] theorem State.onCp_ctxs (s : State) (f : Cp → Cp) : (s.onCp f).ctxs = s.ctxs := rfl
@[simp] theorem State.onCp_cores (s : State) (f : Cp → Cp) : (s.onCp f).cores = s.cores := rfl
@[simp] theorem State.onCp_slices (s : State) (f : Cp → Cp) : (s.onCp f).slices = s.slices := rfl
@[simp] theorem State.onCp_quads (s : State) (f : Cp → Cp) : (s.onCp f).quads = s.quads := rfl
@[simp] theorem State.onCp_gangs (s : State) (f : Cp → Cp) : (s.onCp f).gangs = s.gangs := rfl
@[simp] theorem State.onCp_quarters (s : State) (f : Cp → Cp) : (s.onCp f).quarters = s.quarters := rfl
@[simp] theorem State.onCp_dies (s : State) (f : Cp → Cp) : (s.onCp f).dies = s.dies := rfl
@[simp] theorem State.onCp_parts (s : State) (f : Cp → Cp) : (s.onCp f).parts = s.parts := rfl
@[simp] theorem State.onCp_mem (s : State) (f : Cp → Cp) : (s.onCp f).mem = s.mem := rfl
@[simp] theorem State.onCp_poison (s : State) (f : Cp → Cp) : (s.onCp f).poison = s.poison := rfl
@[simp] theorem State.onCp_areas (s : State) (f : Cp → Cp) : (s.onCp f).areas = s.areas := rfl
@[simp] theorem State.onCp_hostRefuses (s : State) (f : Cp → Cp) : (s.onCp f).hostRefuses = s.hostRefuses := rfl
@[simp] theorem State.onCp_build (s : State) (f : Cp → Cp) : (s.onCp f).build = s.build := rfl
@[simp] theorem State.onCp_domain (s : State) (f : Cp → Cp) : (s.onCp f).domain = s.domain := rfl
@[simp] theorem State.onCp_modules (s : State) (f : Cp → Cp) : (s.onCp f).modules = s.modules := rfl
@[simp] theorem State.onCp_jid (s : State) (f : Cp → Cp) : (s.onCp f).jid = s.jid := rfl
@[simp] theorem State.onCp_net (s : State) (f : Cp → Cp) : (s.onCp f).net = s.net := rfl
@[simp] theorem State.onCp_recordings (s : State) (f : Cp → Cp) : (s.onCp f).recordings = s.recordings := rfl
@[simp] theorem State.onCp_now (s : State) (f : Cp → Cp) : (s.onCp f).now = s.now := rfl
@[simp] theorem State.onCp_cur (s : State) (f : Cp → Cp) : (s.onCp f).cur = s.cur := rfl
@[simp] theorem State.onCp_agenda (s : State) (f : Cp → Cp) : (s.onCp f).agenda = s.agenda := rfl
@[simp] theorem State.onCp_ev (s : State) (f : Cp → Cp) : (s.onCp f).ev = s.ev := rfl
@[simp] theorem State.onCp_free (s : State) (f : Cp → Cp) : (s.onCp f).free = s.free := rfl
@[simp] theorem State.onCp_cp (s : State) (f : Cp → Cp) : (s.onCp f).cp = f s.cp := rfl
@[simp] theorem State.onCp_ctx (s : State) (j : Nat) (f : Cp → Cp) : (s.onCp f).ctx j = s.ctx j := rfl
@[simp] theorem State.onCp_core (s : State) (j : Nat) (f : Cp → Cp) : (s.onCp f).core j = s.core j := rfl
@[simp] theorem State.onCp_slice (s : State) (j : Nat) (f : Cp → Cp) : (s.onCp f).slice j = s.slice j := rfl
@[simp] theorem State.onCp_quad (s : State) (j : Nat) (f : Cp → Cp) : (s.onCp f).quad j = s.quad j := rfl
@[simp] theorem State.onCp_gang (s : State) (j : Nat) (f : Cp → Cp) : (s.onCp f).gang j = s.gang j := rfl
@[simp] theorem State.onCp_quarter (s : State) (j : Nat) (f : Cp → Cp) : (s.onCp f).quarter j = s.quarter j := rfl
@[simp] theorem State.onCp_die (s : State) (j : Nat) (f : Cp → Cp) : (s.onCp f).die j = s.die j := rfl
@[simp] theorem State.onPart_ctxs (s : State) (p : Nat) (f : Part → Part) : (s.onPart p f).ctxs = s.ctxs := rfl
@[simp] theorem State.onPart_cores (s : State) (p : Nat) (f : Part → Part) : (s.onPart p f).cores = s.cores := rfl
@[simp] theorem State.onPart_slices (s : State) (p : Nat) (f : Part → Part) : (s.onPart p f).slices = s.slices := rfl
@[simp] theorem State.onPart_quads (s : State) (p : Nat) (f : Part → Part) : (s.onPart p f).quads = s.quads := rfl
@[simp] theorem State.onPart_gangs (s : State) (p : Nat) (f : Part → Part) : (s.onPart p f).gangs = s.gangs := rfl
@[simp] theorem State.onPart_quarters (s : State) (p : Nat) (f : Part → Part) : (s.onPart p f).quarters = s.quarters := rfl
@[simp] theorem State.onPart_dies (s : State) (p : Nat) (f : Part → Part) : (s.onPart p f).dies = s.dies := rfl
@[simp] theorem State.onPart_mem (s : State) (p : Nat) (f : Part → Part) : (s.onPart p f).mem = s.mem := rfl
@[simp] theorem State.onPart_poison (s : State) (p : Nat) (f : Part → Part) : (s.onPart p f).poison = s.poison := rfl
@[simp] theorem State.onPart_areas (s : State) (p : Nat) (f : Part → Part) : (s.onPart p f).areas = s.areas := rfl
@[simp] theorem State.onPart_hostRefuses (s : State) (p : Nat) (f : Part → Part) : (s.onPart p f).hostRefuses = s.hostRefuses := rfl
@[simp] theorem State.onPart_build (s : State) (p : Nat) (f : Part → Part) : (s.onPart p f).build = s.build := rfl
@[simp] theorem State.onPart_domain (s : State) (p : Nat) (f : Part → Part) : (s.onPart p f).domain = s.domain := rfl
@[simp] theorem State.onPart_modules (s : State) (p : Nat) (f : Part → Part) : (s.onPart p f).modules = s.modules := rfl
@[simp] theorem State.onPart_cp (s : State) (p : Nat) (f : Part → Part) : (s.onPart p f).cp = s.cp := rfl
@[simp] theorem State.onPart_jid (s : State) (p : Nat) (f : Part → Part) : (s.onPart p f).jid = s.jid := rfl
@[simp] theorem State.onPart_net (s : State) (p : Nat) (f : Part → Part) : (s.onPart p f).net = s.net := rfl
@[simp] theorem State.onPart_recordings (s : State) (p : Nat) (f : Part → Part) : (s.onPart p f).recordings = s.recordings := rfl
@[simp] theorem State.onPart_now (s : State) (p : Nat) (f : Part → Part) : (s.onPart p f).now = s.now := rfl
@[simp] theorem State.onPart_cur (s : State) (p : Nat) (f : Part → Part) : (s.onPart p f).cur = s.cur := rfl
@[simp] theorem State.onPart_agenda (s : State) (p : Nat) (f : Part → Part) : (s.onPart p f).agenda = s.agenda := rfl
@[simp] theorem State.onPart_ev (s : State) (p : Nat) (f : Part → Part) : (s.onPart p f).ev = s.ev := rfl
@[simp] theorem State.onPart_free (s : State) (p : Nat) (f : Part → Part) : (s.onPart p f).free = s.free := rfl

/-! ### The context whose turn it is -/

@[simp] theorem State.onMe_me (s : State) (f : Ctx → Ctx) : (s.onMe f).me = f s.me := by
  simp [State.onMe, State.me]
@[simp] theorem State.onMe_ctx_other (s : State) (f : Ctx → Ctx) {k : Nat} (h : k ≠ s.cur) : (s.onMe f).ctx k = s.ctx k := by
  simp [State.onMe, h]
@[simp] theorem State.onMe_cores (s : State) (f : Ctx → Ctx) : (s.onMe f).cores = s.cores := rfl
@[simp] theorem State.onMe_slices (s : State) (f : Ctx → Ctx) : (s.onMe f).slices = s.slices := rfl
@[simp] theorem State.onMe_quads (s : State) (f : Ctx → Ctx) : (s.onMe f).quads = s.quads := rfl
@[simp] theorem State.onMe_gangs (s : State) (f : Ctx → Ctx) : (s.onMe f).gangs = s.gangs := rfl
@[simp] theorem State.onMe_quarters (s : State) (f : Ctx → Ctx) : (s.onMe f).quarters = s.quarters := rfl
@[simp] theorem State.onMe_dies (s : State) (f : Ctx → Ctx) : (s.onMe f).dies = s.dies := rfl
@[simp] theorem State.onMe_parts (s : State) (f : Ctx → Ctx) : (s.onMe f).parts = s.parts := rfl
@[simp] theorem State.onMe_mem (s : State) (f : Ctx → Ctx) : (s.onMe f).mem = s.mem := rfl
@[simp] theorem State.onMe_poison (s : State) (f : Ctx → Ctx) : (s.onMe f).poison = s.poison := rfl
@[simp] theorem State.onMe_areas (s : State) (f : Ctx → Ctx) : (s.onMe f).areas = s.areas := rfl
@[simp] theorem State.onMe_hostRefuses (s : State) (f : Ctx → Ctx) : (s.onMe f).hostRefuses = s.hostRefuses := rfl
@[simp] theorem State.onMe_build (s : State) (f : Ctx → Ctx) : (s.onMe f).build = s.build := rfl
@[simp] theorem State.onMe_domain (s : State) (f : Ctx → Ctx) : (s.onMe f).domain = s.domain := rfl
@[simp] theorem State.onMe_modules (s : State) (f : Ctx → Ctx) : (s.onMe f).modules = s.modules := rfl
@[simp] theorem State.onMe_cp (s : State) (f : Ctx → Ctx) : (s.onMe f).cp = s.cp := rfl
@[simp] theorem State.onMe_jid (s : State) (f : Ctx → Ctx) : (s.onMe f).jid = s.jid := rfl
@[simp] theorem State.onMe_net (s : State) (f : Ctx → Ctx) : (s.onMe f).net = s.net := rfl
@[simp] theorem State.onMe_recordings (s : State) (f : Ctx → Ctx) : (s.onMe f).recordings = s.recordings := rfl
@[simp] theorem State.onMe_now (s : State) (f : Ctx → Ctx) : (s.onMe f).now = s.now := rfl
@[simp] theorem State.onMe_cur (s : State) (f : Ctx → Ctx) : (s.onMe f).cur = s.cur := rfl
@[simp] theorem State.onMe_agenda (s : State) (f : Ctx → Ctx) : (s.onMe f).agenda = s.agenda := rfl
@[simp] theorem State.onMe_ev (s : State) (f : Ctx → Ctx) : (s.onMe f).ev = s.ev := rfl
@[simp] theorem State.onMe_free (s : State) (f : Ctx → Ctx) : (s.onMe f).free = s.free := rfl
@[simp] theorem State.onMe_core (s : State) (f : Ctx → Ctx) (j : Nat) : (s.onMe f).core j = s.core j := rfl
@[simp] theorem State.onMe_slice (s : State) (f : Ctx → Ctx) (j : Nat) : (s.onMe f).slice j = s.slice j := rfl
@[simp] theorem State.onMe_quad (s : State) (f : Ctx → Ctx) (j : Nat) : (s.onMe f).quad j = s.quad j := rfl
@[simp] theorem State.onMe_gang (s : State) (f : Ctx → Ctx) (j : Nat) : (s.onMe f).gang j = s.gang j := rfl
@[simp] theorem State.onMe_quarter (s : State) (f : Ctx → Ctx) (j : Nat) : (s.onMe f).quarter j = s.quarter j := rfl
@[simp] theorem State.onMe_die (s : State) (f : Ctx → Ctx) (j : Nat) : (s.onMe f).die j = s.die j := rfl
@[simp] theorem State.onCore_me (s : State) (k : Nat) (f : Core → Core) : (s.onCore k f).me = s.me := rfl
@[simp] theorem State.onSlice_me (s : State) (k : Nat) (f : Slice → Slice) : (s.onSlice k f).me = s.me := rfl
@[simp] theorem State.onQuad_me (s : State) (k : Nat) (f : Quad → Quad) : (s.onQuad k f).me = s.me := rfl
@[simp] theorem State.onGang_me (s : State) (k : Nat) (f : Gang → Gang) : (s.onGang k f).me = s.me := rfl
@[simp] theorem State.onQuarter_me (s : State) (k : Nat) (f : Quarter → Quarter) : (s.onQuarter k f).me = s.me := rfl
@[simp] theorem State.onDie_me (s : State) (k : Nat) (f : Die → Die) : (s.onDie k f).me = s.me := rfl

end Sys2Proof.Machine
end

