-- ==== Sys2Proof/Laws/Memory.lean ====
section
/-! SUPPORT. Memory: a read after a write, the canonical form kept by every memory operation, and what the operations over memory leave
alone. -/

namespace Sys2Proof.Machine

/-! ### Bytes -/

@[simp] theorem Memory.get_nil (a : Nat) : Memory.get [] a = Memory.unlisted := rfl

/-- Addresses of a memory in canonical form lie above its first one. -/
theorem Memory.wf_tail {c : Host.Cell} {m : Memory} (h : Memory.wf (c :: m) = true) : Memory.wf m = true := by
  cases m with
  | nil => rfl
  | cons d t => simp only [Memory.wf, Bool.and_eq_true] at h; exact h.2

theorem Memory.wf_head {c : Host.Cell} {m : Memory} (h : Memory.wf (c :: m) = true) : c.2 ≠ Memory.unlisted := by
  cases m with
  | nil => simpa [Memory.wf] using h
  | cons d t => simp only [Memory.wf, Bool.and_eq_true] at h; simpa using h.1.1

theorem Memory.get_below {m : Memory} : ∀ {c : Host.Cell} {a : Nat}, Memory.wf (c :: m) = true → a < c.1 →
    Memory.get (c :: m) a = Memory.unlisted := by
  induction m with
  | nil =>
    intro c a _ ha
    simp [Memory.get, Nat.ne_of_lt ha]
  | cons d t ih =>
    intro c a h ha
    have hd : c.1 < d.1 := by
      simp only [Memory.wf, Bool.and_eq_true, decide_eq_true_eq] at h
      exact h.1.2
    have := ih (Memory.wf_tail h) (Nat.lt_trans ha hd)
    simp only [Memory.get, Nat.ne_of_lt ha, if_false] at this ⊢
    exact this

/-- A read after a write. -/
theorem Memory.get_set {m : Memory} (h : m.wf = true) (a b : Nat) (v : Byte) : (m.set a v).get b = if b = a then v else m.get b := by
  induction m with
  | nil =>
    simp only [Memory.set]
    split
    · rename_i hv; subst hv; simp
    · simp [Memory.get]
  | cons c t ih =>
    obtain ⟨j, w⟩ := c
    have htail := ih (Memory.wf_tail h)
    simp only [Memory.set]
    by_cases hlt : a < j
    · rw [if_pos hlt]
      by_cases hv : v = Memory.unlisted
      · rw [if_pos hv]
        by_cases hb : b = a
        · rw [if_pos hb, hb, hv]; exact Memory.get_below h hlt
        · rw [if_neg hb]
      · rw [if_neg hv]; simp [Memory.get]
    · rw [if_neg hlt]
      by_cases heq : a = j
      · subst heq
        rw [if_pos rfl]
        by_cases hv : v = Memory.unlisted
        · rw [if_pos hv]
          by_cases hb : b = a
          · rw [if_pos hb, hb, hv]
            cases t with
            | nil => rfl
            | cons d t =>
              simp only [Memory.wf, Bool.and_eq_true, decide_eq_true_eq] at h
              exact Memory.get_below h.2 h.1.2
          · rw [if_neg hb]; simp [Memory.get, hb]
        · rw [if_neg hv]; simp only [Memory.get]; split <;> rfl
      · rw [if_neg heq]
        simp only [Memory.get]
        by_cases hb : b = j
        · subst hb; simp [Ne.symm heq]
        · simp only [if_neg hb]; exact htail

@[simp] theorem Memory.get_set_same {m : Memory} (h : m.wf = true) (a : Nat) (v : Byte) : (m.set a v).get a = v := by
  rw [Memory.get_set h, if_pos rfl]

theorem Memory.get_set_other {m : Memory} (h : m.wf = true) {a b : Nat} (v : Byte) (hb : b ≠ a) : (m.set a v).get b = m.get b := by
  rw [Memory.get_set h, if_neg hb]

/-! ### The canonical form is kept -/

/-- The form of a list with a given first entry, by its parts. -/
theorem Memory.wf_cons {c : Host.Cell} {m : Memory} :
    Memory.wf (c :: m) = true ↔ c.2 ≠ Memory.unlisted ∧ (∀ d ∈ m.head?, c.1 < d.1) ∧ m.wf = true := by
  cases m with
  | nil => simp [Memory.wf]
  | cons d t => simp [Memory.wf, and_assoc]

theorem Memory.set_head {m : Memory} {a j : Nat} (v : Byte) (hm : ∀ d ∈ m.head?, j < d.1) (ha : j < a) (h : m.wf = true) :
    ∀ d ∈ (m.set a v).head?, j < d.1 := by
  cases m with
  | nil => simp only [Memory.set]; split <;> simp [ha]
  | cons c t =>
    have hc : j < c.1 := hm c (by simp)
    obtain ⟨k, w⟩ := c
    simp only [Memory.set]
    split
    · split
      · simpa using hc
      · simpa using ha
    · split
      · split
        · intro d hd
          have := (Memory.wf_cons.1 h).2.1 d hd
          exact Nat.lt_trans hc this
        · simpa using ha
      · simpa using hc

theorem Memory.set_wf {m : Memory} (h : m.wf = true) (a : Nat) (v : Byte) : (m.set a v).wf = true := by
  induction m with
  | nil =>
    simp only [Memory.set]
    split
    · rfl
    · rename_i hv; simp [Memory.wf, hv]
  | cons c t ih =>
    obtain ⟨j, w⟩ := c
    have hc := Memory.wf_cons.1 h
    simp only [Memory.set]
    by_cases hlt : a < j
    · rw [if_pos hlt]
      split
      · exact h
      · rename_i hv; exact Memory.wf_cons.2 ⟨hv, by simpa using hlt, h⟩
    · rw [if_neg hlt]
      by_cases heq : a = j
      · rw [if_pos heq]
        split
        · exact hc.2.2
        · rename_i hv; exact Memory.wf_cons.2 ⟨hv, by rw [heq]; exact hc.2.1, hc.2.2⟩
      · rw [if_neg heq]
        exact Memory.wf_cons.2 ⟨hc.1, Memory.set_head v hc.2.1 (by omega) hc.2.2, ih hc.2.2⟩

theorem Memory.write_wf {m : Memory} (h : m.wf = true) (a : Nat) (bs : List Byte) : (m.write a bs).wf = true := by
  induction bs generalizing m a with
  | nil => exact h
  | cons b t ih => exact ih (Memory.set_wf h a b) (a + 1)

/-- Bytes written one after another, as `gwrite` and `lwrite` write them. -/
theorem Memory.cells_wf {m : Memory} (h : m.wf = true) (cells : List (Nat × Byte)) :
    (cells.foldl (fun (m : Memory) (c : Nat × Byte) => m.set c.1 c.2) m).wf = true := by
  induction cells generalizing m with
  | nil => exact h
  | cons c t ih => exact ih (Memory.set_wf h c.1 c.2)

/-- What cells written one after another leave: the last byte given an address, or what was there. -/
theorem Memory.cells_get {m : Memory} (h : m.wf = true) (cells : List (Nat × Byte)) (a : Nat) :
    (cells.foldl (fun (m : Memory) (c : Nat × Byte) => m.set c.1 c.2) m).get a = (lastAt cells a).getD (m.get a) := by
  induction cells generalizing m with
  | nil => rfl
  | cons c t ih =>
    rw [List.foldl_cons, ih (Memory.set_wf h c.1 c.2), Memory.get_set h]
    simp only [lastAt, List.reverse_cons, List.find?_append]
    cases ht : t.reverse.find? fun d => d.1 == a with
    | some d => simp
    | none =>
      by_cases hc : c.1 = a
      · subst hc; simp
      · simp [hc, Ne.symm hc]

theorem Memory.filter_wf {m : Memory} (h : m.wf = true) (p : Host.Cell → Bool) : Memory.wf (m.filter p) = true := by
  have key : ∀ (l : Memory) (j : Nat), l.wf = true → (∀ d ∈ l.head?, j < d.1) →
      Memory.wf (l.filter p) = true ∧ ∀ d ∈ (l.filter p).head?, j < d.1 := by
    intro l
    induction l with
    | nil => intro j _ _; exact ⟨rfl, by simp⟩
    | cons c t ih =>
      intro j hl hj
      have hc := Memory.wf_cons.1 hl
      have hjc : j < c.1 := hj c (by simp)
      have := ih c.1 hc.2.2 hc.2.1
      rw [List.filter_cons]
      split
      · exact ⟨Memory.wf_cons.2 ⟨hc.1, this.2, this.1⟩, by simpa using hjc⟩
      · exact ⟨this.1, fun d hd => Nat.lt_trans hjc (this.2 d hd)⟩
  cases m with
  | nil => rfl
  | cons c t =>
    have hc := Memory.wf_cons.1 h
    rw [List.filter_cons]
    have := key t c.1 hc.2.2 hc.2.1
    split
    · exact Memory.wf_cons.2 ⟨hc.1, this.2, this.1⟩
    · exact this.1

theorem Memory.clear_wf {m : Memory} (h : m.wf = true) (lo hi : Nat) : (m.clear lo hi).wf = true := Memory.filter_wf h _

/-- The machine after reset keeps the form. -/
theorem State.reset_canonical : State.reset.canonical := by
  simp [State.canonical, State.reset, Memory.wf]

/-! ### Bytes of a number (R161) -/

theorem bytesOfNat_length (n v : Nat) : (bytesOfNat n v).length = n := by
  induction n generalizing v with
  | zero => rfl
  | succ n ih => simp [bytesOfNat, ih]

theorem natOfBytes_bytesOfNat (n v : Nat) : natOfBytes (bytesOfNat n v) = v % 256 ^ n := by
  induction n generalizing v with
  | zero => simp [bytesOfNat, natOfBytes, Nat.mod_one]
  | succ n ih =>
    simp only [bytesOfNat, natOfBytes, ih, BitVec.toNat_ofNat]
    rw [show 256 ^ (n + 1) = 256 * 256 ^ n by rw [Nat.pow_succ, Nat.mul_comm], Nat.mod_mul]

theorem Memory.read_length (m : Memory) (a n : Nat) : (m.read a n).length = n := by
  induction n generalizing a with
  | zero => rfl
  | succ n ih => simp [Memory.read, ih]

theorem Memory.read_congr {m m' : Memory} (a n : Nat) (h : ∀ i, i < n → m'.get (a + i) = m.get (a + i)) : m'.read a n = m.read a n := by
  induction n generalizing a with
  | zero => rfl
  | succ n ih =>
    simp only [Memory.read]
    rw [show m'.get a = m.get a from h 0 (by omega), ih (a + 1) fun i hi => ?_]
    have := h (i + 1) (by omega)
    rwa [show a + (i + 1) = a + 1 + i by omega] at this

end Sys2Proof.Machine
end

