-- ==== Sys2Proof/Laws/Access.lean ====
section
/-! SUPPORT. What a write that enters a line's order may change (R186, R271, R285, R303, R307): each operation behind it changes contexts,
slices, switched-out images and the recordings alone; from that the bytes that a write leaves. -/

namespace Sys2Proof.Machine

/-- Nothing but contexts, slices, copies, partitions and the recordings differs. -/
def besides (s t : State) : Prop :=
  t = { s with ctxs := t.ctxs, slices := t.slices, dies := t.dies, parts := t.parts, recordings := t.recordings }

theorem besides.refl (s : State) : besides s s := rfl

theorem besides.trans {s t u : State} (h : besides s t) (g : besides t u) : besides s u := by
  cases s; cases t; cases u
  simp_all [besides]

theorem besides.foldl {α : Type} {f : State → α → State} (hf : ∀ s a, besides s (f s a)) (l : List α) (s : State) :
    besides s (l.foldl f s) := by
  induction l generalizing s with
  | nil => rfl
  | cons a t ih => exact (hf s a).trans (ih (f s a))

theorem besides.mem {s t : State} (h : besides s t) : t.mem = s.mem := by rw [h]
theorem besides.areas {s t : State} (h : besides s t) : t.areas = s.areas := by rw [h]
theorem besides.quads {s t : State} (h : besides s t) : t.quads = s.quads := by rw [h]
theorem besides.quad {s t : State} (h : besides s t) (k : Nat) : t.quad k = s.quad k := by rw [State.quad, h.quads]; rfl
theorem besides.cores {s t : State} (h : besides s t) : t.cores = s.cores := by rw [h]
theorem besides.cp {s t : State} (h : besides s t) : t.cp = s.cp := by rw [h]

theorem State.conflictAbort_besides (s : State) (k : Nat) : besides s (s.conflictAbort k) := by
  unfold State.conflictAbort
  dsimp only
  split
  · rfl
  · split <;> rfl

theorem State.spring_besides (s : State) (by_ home : Option Nat) (line : Nat) : besides s (s.spring by_ home line) := by
  unfold State.spring State.springIn
  dsimp only
  refine besides.trans ?_ (besides.foldl (fun s k => ?_) _ _)
  · refine besides.trans ?_ (besides.foldl (f := fun s k => s.onCtx k _) (fun s k => ?_) _ _) <;> rfl
  · split
    · exact State.conflictAbort_besides s k
    · rfl

theorem State.conflicts_besides (s : State) (by_ : Option Nat) (lines : List Nat) :
    besides s (lines.foldl (fun s l => (s.conflictsWith by_ l).foldl State.conflictAbort (s.markUnprot by_ l)) s) := by
  refine besides.foldl (fun s l => ?_) lines s
  exact besides.trans (t := s.markUnprot by_ l) rfl (besides.foldl State.conflictAbort_besides _ _)

theorem State.noteOrder_besides (s : State) (p : Option (Nat × Part)) (e : LogEntry) : besides s (s.noteOrder p e) := by
  unfold State.noteOrder
  split <;> rfl

theorem State.fire_besides (s : State) (home : Nat) (t : Trigger) (v : Word) : besides s (s.fire home t v) :=
  besides.trans (t := s.onSlice home _) rfl (State.noteOrder_besides _ _ _)

theorem State.fireArmed_besides (s : State) (home : Nat) (t : Trigger) (v : Word) : besides s (s.fireArmed home t v) :=
  besides.trans (State.fire_besides s home t v) rfl

theorem State.testTriggers_besides (s : State) (dword : Nat) : besides s (s.testTriggers dword) := by
  unfold State.testTriggers
  dsimp only
  refine besides.foldl (fun s t => ?_) _ s
  exact State.fireArmed_besides _ _ _ _

theorem State.updateCopies_besides (s : State) (die : Nat) (cells : List (Nat × Byte)) : besides s (s.updateCopies die cells) := by
  unfold State.updateCopies
  split <;> rfl

/-- A write to physical memory changes its bytes, their poison, and what it sets off. -/
theorem State.gwrite_besides (s : State) (by_ : Option Nat) (die : Nat) (home : Nat → Option Nat) (cells : List (Nat × Byte)) :
    besides { s with
      mem := cells.foldl (fun (m : Memory) (c : Nat × Byte) => m.set c.1 c.2) s.mem
      areas := carve s.areas cells
      poison := s.poison.filter fun w => !(wholeWords cells).contains w } (s.gwrite by_ die home cells) := by
  unfold State.gwrite
  refine besides.trans ?_ (besides.foldl (fun s w => State.testTriggers_besides s (8 * w)) _ _)
  unfold State.gwriteQuiet
  dsimp only
  refine besides.trans (u := State.retestWaits _ _) ?_ rfl
  refine besides.trans ?_ (besides.foldl (fun s l => State.spring_besides s by_ (home l) l) _ _)
  exact besides.trans (State.updateCopies_besides _ _ _) (State.conflicts_besides _ _ _)

/-- A write to a quad's memory changes its bytes, their poison, the power of its banks, and what it sets off. -/
theorem State.lwrite_besides (s : State) (by_ : Option Nat) (quad : Nat) (cells : List (Nat × Byte)) :
    besides (s.onQuad quad fun q =>
      { q with
        mem := cells.foldl (fun (m : Memory) (c : Nat × Byte) => m.set c.1 c.2) q.mem
        poison := q.poison.filter fun w => !(wholeWords cells).contains w
        down := cells.foldl (fun d c => setFld d (c.1 / 0x10000) 1 0) q.down }) (s.lwrite by_ quad cells) := by
  unfold State.lwrite
  dsimp only
  exact besides.trans (State.conflicts_besides _ _ _) (besides.foldl (fun s l => State.spring_besides s by_ _ l) _ _)

/-- One byte leaves the areas of a list, and no other does. -/
theorem serialAt_without (a b : Nat) (l : List Area) :
    serialAt a (l.flatMap (Area.without b)) = if a = b then none else serialAt a l := by
  induction l with
  | nil => simp [serialAt]
  | cons x t ih =>
    have app : ∀ (u v : List Area), serialAt a (u ++ v) = (serialAt a u).or (serialAt a v) := by
      intro u v
      induction u with
      | nil => simp [serialAt]
      | cons y u ihu => simp only [List.cons_append, serialAt, ihu]; split <;> simp
    rw [List.flatMap_cons, app, ih]
    unfold Area.without
    by_cases hb : x.lo ≤ b ∧ b < x.hi
    · rw [if_pos hb]
      by_cases h1 : x.lo < b <;> by_cases h2 : b + 1 < x.hi <;> simp only [List.filter, h1, h2, decide_true, decide_false, serialAt] <;>
        repeat' split
      all_goals first | rfl | (exfalso; omega)
    · rw [if_neg hb]
      simp only [serialAt]
      repeat' split
      all_goals first | rfl | (exfalso; omega)

/-- The bytes that a write gives leave the areas, and no others do. -/
theorem serialAt_carve (a : Nat) (cells : List (Nat × Byte)) (l : List Area) :
    serialAt a (carve l cells) = if (lastAt cells a).isSome then none else serialAt a l := by
  have main : ∀ (cells : List (Nat × Byte)) (l : List Area),
      serialAt a (cells.foldl (fun l c => l.flatMap (Area.without c.1)) l) = if cells.any (·.1 == a) then none else serialAt a l := by
    intro cells
    induction cells with
    | nil => intro l; simp
    | cons c t ih =>
      intro l
      rw [List.foldl_cons, ih, serialAt_without, List.any_cons]
      by_cases h : c.1 = a
      · subst h; simp
      · have h' : ¬a = c.1 := fun e => h e.symm
        have hb : (c.1 == a) = false := by simp [h]
        rw [if_neg h', hb, Bool.false_or]
  have hl : (lastAt cells a).isSome = cells.any (·.1 == a) := by
    rw [lastAt, Option.isSome_map, Bool.eq_iff_iff, List.find?_isSome]
    simp
  rw [hl]
  unfold carve
  split
  · rename_i h
    have : l = [] := by simpa using h
    subst this; simp [serialAt]
  · exact main cells l

/-- The bytes of physical memory after a write, and that no quad's memory changes. -/
theorem State.gwrite_get (s : State) (by_ : Option Nat) (die : Nat) (home : Nat → Option Nat) (cells : List (Nat × Byte))
    (h : s.mem.wf = true) (a : Nat) : (s.gwrite by_ die home cells).gbyte a = (lastAt cells a).getD (s.gbyte a) := by
  have e := State.gwrite_besides s by_ die home cells
  have hm : (s.gwrite by_ die home cells).mem.get a = (lastAt cells a).getD (s.mem.get a) := by
    rw [e.mem]; exact Memory.cells_get h cells a
  have ha : serialAt a (s.gwrite by_ die home cells).areas = if (lastAt cells a).isSome then none else serialAt a s.areas := by
    rw [e.areas]; exact serialAt_carve a cells s.areas
  unfold State.gbyte
  rw [hm, ha]
  cases lastAt cells a <;> simp

theorem State.gwrite_quad (s : State) (by_ : Option Nat) (die : Nat) (home : Nat → Option Nat) (cells : List (Nat × Byte)) (k : Nat) :
    (s.gwrite by_ die home cells).quad k = s.quad k := (State.gwrite_besides s by_ die home cells).quad k

/-- The bytes of a quad's memory after a write to it, and that physical memory and every other quad stay. -/
theorem State.lwrite_get (s : State) (by_ : Option Nat) (quad : Nat) (cells : List (Nat × Byte))
    (h : (s.quad quad).mem.wf = true) (a : Nat) :
    ((s.lwrite by_ quad cells).quad quad).mem.get a = (lastAt cells a).getD ((s.quad quad).mem.get a) := by
  rw [(State.lwrite_besides s by_ quad cells).quad, State.quad, State.onQuad, Map.get_put_same]
  exact Memory.cells_get h cells a

theorem State.lwrite_quad (s : State) (by_ : Option Nat) (quad : Nat) (cells : List (Nat × Byte)) {k : Nat} (h : k ≠ quad) :
    (s.lwrite by_ quad cells).quad k = s.quad k := by
  rw [(State.lwrite_besides s by_ quad cells).quad, State.quad, State.onQuad, Map.get_put_other _ _ _ h]
  rfl

theorem State.lwrite_mem (s : State) (by_ : Option Nat) (quad : Nat) (cells : List (Nat × Byte)) :
    (s.lwrite by_ quad cells).mem = s.mem := (State.lwrite_besides s by_ quad cells).mem

theorem State.lwrite_gbyte (s : State) (by_ : Option Nat) (quad : Nat) (cells : List (Nat × Byte)) (a : Nat) :
    (s.lwrite by_ quad cells).gbyte a = s.gbyte a := by
  have e := State.lwrite_besides s by_ quad cells
  unfold State.gbyte
  rw [e.mem, e.areas]
  rfl

end Sys2Proof.Machine
end

