-- ==== Sys2Proof/Laws/Engines.lean ====
section
/-! SUPPORT. The words that engine operations place (R337), and the cells of a write that the host serves (R180). -/

namespace Sys2Proof.Machine

/-- The word that a placing is for. -/
abbrev Placed.word (p : Placed) : Nat × Word := (p.quad, p.dword)

@[simp] theorem Placed.overlaid_word (p : Placed) (bs : List (Nat × Byte)) : (p.overlaid bs).word = p.word := rfl

/-- A placing adds its word to the list's, where it is not among them yet. -/
theorem Placed.put_words (p : Placed) (l : List Placed) :
    (p.put l).map Placed.word = if p.word ∈ l.map Placed.word then l.map Placed.word else l.map Placed.word ++ [p.word] := by
  induction l with
  | nil => simp [Placed.put]
  | cons x t ih =>
    by_cases h : x.quad = p.quad ∧ x.dword = p.dword
    · simp [Placed.put, Placed.word, Placed.overlaid, h]
    · have h' : p.word ≠ x.word := fun e => h ⟨(congrArg Prod.fst e).symm, (congrArg Prod.snd e).symm⟩
      simp only [Placed.put, h, if_false, List.map_cons, ih, List.mem_cons, h', false_or]
      split <;> rfl

/-- An operation's list holds each word once (R337). -/
theorem Placed.put_nodup (p : Placed) (l : List Placed) (h : (l.map Placed.word).Nodup) : ((p.put l).map Placed.word).Nodup := by
  rw [Placed.put_words]
  split
  · exact h
  · rename_i hm
    refine List.nodup_append.2 ⟨h, by simp, ?_⟩
    intro a ha b hb e
    exact hm (List.mem_singleton.1 hb ▸ e ▸ ha)

/-- The cells that are served are those of them that are local or whose word the host does not refuse. -/
theorem State.mem_served (s : State) (cells : List (Ref × Byte)) (c : Ref × Byte) :
    c ∈ s.served cells ↔ c ∈ cells ∧ (c.1.isLocal = true ∨ c.1.addr / 8 ∉ s.hostRefuses) := by
  unfold State.served
  split
  · rename_i h; simp [List.isEmpty_iff.1 h]
  · simp

@[simp] theorem State.served_all (s : State) (cells : List (Ref × Byte)) (h : s.hostRefuses = []) : s.served cells = cells := by
  simp [State.served, h]

end Sys2Proof.Machine
end

