-- ==== Sys2Proof/Laws/Ops.lean ====
section
/-! SUPPORT. What the shared operations on a context do: register reads after writes, moving on, outstanding results. -/

namespace Sys2Proof.Machine

/-! ### Registers -/

theorem Ctx.getX_zero (c : Ctx) : c.getX 0 = 0 := if_pos rfl

theorem Ctx.getX_pos (c : Ctx) {r : BitVec 5} (h : r ≠ 0) : c.getX r = c.regs.x.get 0 r.toNat := if_neg h

theorem Ctx.getK_zero (c : Ctx) : c.getK 0 = BitVec.allOnes 64 := if_pos rfl

theorem Ctx.getK_pos (c : Ctx) {r : BitVec 3} (h : r ≠ 0) : c.getK r = c.regs.k.get 0 r.toNat := if_neg h

theorem Ctx.poke_x_zero (c : Ctx) (w : Word) : c.poke (.x 0 w) = c := by simp only [Ctx.poke]; rfl

theorem Ctx.poke_x (c : Ctx) {d : BitVec 5} (w : Word) (h : d ≠ 0) :
    c.poke (.x d w) = { c with regs := { c.regs with x := c.regs.x.put d.toNat w } } := if_neg h

theorem Ctx.getX_poke_same (c : Ctx) {d : BitVec 5} (w : Word) (h : d ≠ 0) : (c.poke (.x d w)).getX d = w := by
  rw [Ctx.poke_x c w h, Ctx.getX_pos _ h]; exact Map.get_put_same _ _ _ _

theorem Ctx.getX_poke_other (c : Ctx) {d r : BitVec 5} (w : Word) (h : r ≠ d) : (c.poke (.x d w)).getX r = c.getX r := by
  have h' : r.toNat ≠ d.toNat := fun e => h (BitVec.eq_of_toNat_eq e)
  by_cases hd : d = 0
  · rw [hd, Ctx.poke_x_zero]
  · rw [Ctx.poke_x c w hd]
    by_cases hr : r = 0
    · rw [hr, Ctx.getX_zero, Ctx.getX_zero]
    · rw [Ctx.getX_pos _ hr, Ctx.getX_pos _ hr]; exact Map.get_put_other _ _ _ h'

theorem Ctx.getV_poke_same (c : Ctx) (d : BitVec 5) (w : VWord) : (c.poke (.v d w)).getV d = w :=
  Map.get_put_same _ _ _ _

theorem Ctx.getV_poke_other (c : Ctx) {d r : BitVec 5} (w : VWord) (h : r ≠ d) : (c.poke (.v d w)).getV r = c.getV r :=
  Map.get_put_other _ _ _ fun e => h (BitVec.eq_of_toNat_eq e)

theorem Ctx.getV_poke_x (c : Ctx) (d r : BitVec 5) (w : Word) : (c.poke (.x d w)).getV r = c.getV r := by
  by_cases hd : d = 0
  · rw [hd, Ctx.poke_x_zero]
  · rw [Ctx.poke_x c w hd]; rfl

theorem Ctx.getX_poke_v (c : Ctx) (d r : BitVec 5) (w : VWord) : (c.poke (.v d w)).getX r = c.getX r := rfl

theorem Ctx.getK_poke (c : Ctx) (w : RegWrite) (r : BitVec 3) : (c.poke w).getK r = c.getK r := by
  cases w with
  | x d v =>
    by_cases hd : d = 0
    · rw [hd, Ctx.poke_x_zero]
    · rw [Ctx.poke_x c v hd]; rfl
  | v d v => rfl

/-- A register set changes the registers alone. -/
theorem Ctx.poke_frame (c : Ctx) (w : RegWrite) : c.poke w = { c with regs := (c.poke w).regs } := by
  cases w with
  | x d v =>
    by_cases hd : d = 0
    · rw [hd, Ctx.poke_x_zero]
    · rw [Ctx.poke_x c v hd]
  | v d v => rfl

/-- A register write changes the registers, the values behind outstanding results and the number of the next free choice. -/
theorem Ctx.write_frame (c : Ctx) (w : RegWrite) :
    c.write w = { c with regs := (c.write w).regs, later := (c.write w).later, free := (c.write w).free } := by
  unfold Ctx.write
  split
  · dsimp only
    split
    · rw [Ctx.poke_frame]
    · rfl
  · rw [Ctx.poke_frame]

theorem Ctx.setX_given (c : Ctx) (d : BitVec 5) (w : Word) : xGiven c (c.setX d w) d w := by
  unfold Ctx.setX Ctx.write
  split
  · rename_i h
    refine ⟨?_, ?_, ?_, Ctx.getX_zero _, fun _ hf => by simp_all [RegWrite.dst], fun _ => ?_⟩
    · intro r hr; dsimp only; split
      · rw [Ctx.getX_poke_other _ _ hr]; rfl
      · rfl
    · intro r; dsimp only; split
      · rw [Ctx.getV_poke_x]; rfl
      · rfl
    · intro r; dsimp only; split
      · rw [Ctx.getK_poke]; rfl
      · rfl
    · dsimp only; split
      · rw [Ctx.poke_frame]; simp [RegWrite.dst]
      · simp [RegWrite.dst]
  · rename_i h
    refine ⟨fun r hr => Ctx.getX_poke_other _ _ hr, fun r => Ctx.getV_poke_x _ _ _ _, fun r => Ctx.getK_poke _ _ _, Ctx.getX_zero _, ?_, ?_⟩
    · intro h0 _
      exact ⟨Ctx.getX_poke_same _ _ h0, by rw [Ctx.poke_frame]; rfl⟩
    · intro ht; exact absurd ht h

theorem Ctx.setV_given (c : Ctx) (d : BitVec 5) (w : VWord) : vGiven c (c.setV d w) d w := by
  unfold Ctx.setV Ctx.write
  split
  · rename_i h
    refine ⟨?_, ?_, ?_, fun hf => by simp_all [RegWrite.dst], fun _ => ?_⟩
    · intro r; dsimp only; split
      · rw [Ctx.getX_poke_v]; rfl
      · rfl
    · intro r hr; dsimp only; split
      · rw [Ctx.getV_poke_other _ _ hr]; rfl
      · rfl
    · intro r; dsimp only; split
      · rw [Ctx.getK_poke]; rfl
      · rfl
    · dsimp only; split
      · rw [Ctx.poke_frame]; simp [RegWrite.dst]
      · simp [RegWrite.dst]
  · rename_i h
    refine ⟨fun r => Ctx.getX_poke_v _ _ _ _, fun r hr => Ctx.getV_poke_other _ _ hr, fun r => Ctx.getK_poke _ _ _, ?_, ?_⟩
    · intro _
      exact ⟨Ctx.getV_poke_same _ _ _, by rw [Ctx.poke_frame]; rfl⟩
    · intro ht; exact absurd ht h

theorem Ctx.setK_given (c : Ctx) (d : BitVec 3) (w : Word) : kGiven c (c.setK d w) d w := by
  unfold Ctx.setK
  split
  · rename_i h; subst h
    exact ⟨fun _ => rfl, fun _ => rfl, fun _ _ => rfl, Ctx.getK_zero _, fun h => absurd rfl h, rfl⟩
  · rename_i h
    refine ⟨fun _ => rfl, fun _ => rfl, fun r hr => ?_, Ctx.getK_zero _, fun _ => ?_, rfl⟩
    · have h' : r.toNat ≠ d.toNat := fun e => hr (BitVec.eq_of_toNat_eq e)
      by_cases h0 : r = 0
      · rw [h0, Ctx.getK_zero, Ctx.getK_zero]
      · rw [Ctx.getK_pos _ h0, Ctx.getK_pos _ h0]; exact Map.get_put_other _ _ _ h'
    · rw [Ctx.getK_pos _ h]; exact Map.get_put_same _ _ _ _

/-! ### Moving on -/

/-- Moving on changes the pc and the loop levels alone. -/
theorem Ctx.advance_frame (c : Ctx) :
    c.advance = { c with
      pc := c.advance.pc, prevPc := c.advance.prevPc, lp0 := c.advance.lp0, lp1 := c.advance.lp1 } := by
  unfold Ctx.advance
  dsimp only
  split
  · split
    · rfl
    · split <;> rfl
  · split <;> rfl

theorem Ctx.advance_pc (c : Ctx) (h0 : c.lp0.atEnd c.pc = false) (h1 : c.lp1.atEnd c.pc = false) :
    c.advance.pc = c.pc + 4 ∧ c.advance.lp0 = c.lp0 ∧ c.advance.lp1 = c.lp1 := by
  simp [Ctx.advance, h0, h1]

@[simp] theorem Ctx.advance_regs (c : Ctx) : c.advance.regs = c.regs := by rw [Ctx.advance_frame]
@[simp] theorem Ctx.advance_later (c : Ctx) : c.advance.later = c.later := by rw [Ctx.advance_frame]
@[simp] theorem Ctx.advance_free (c : Ctx) : c.advance.free = c.free := by rw [Ctx.advance_frame]
@[simp] theorem Ctx.advance_ctl (c : Ctx) : c.advance.ctl = c.ctl := by rw [Ctx.advance_frame]
@[simp] theorem Ctx.advance_outs (c : Ctx) : c.advance.outs = c.outs := by rw [Ctx.advance_frame]
@[simp] theorem Ctx.advance_status (c : Ctx) : c.advance.status = c.status := by rw [Ctx.advance_frame]
@[simp] theorem Ctx.advance_attempt (c : Ctx) : c.advance.attempt = c.attempt := by rw [Ctx.advance_frame]
@[simp] theorem Ctx.advance_getX (c : Ctx) (r : BitVec 5) : c.advance.getX r = c.getX r := by simp [Ctx.getX]
@[simp] theorem Ctx.advance_getV (c : Ctx) (r : BitVec 5) : c.advance.getV r = c.getV r := by simp [Ctx.getV]
@[simp] theorem Ctx.advance_getK (c : Ctx) (r : BitVec 3) : c.advance.getK r = c.getK r := by simp [Ctx.getK]

/-! ### What a completion does -/

theorem State.onMe_onlyMe (s : State) (f : Ctx → Ctx) : onlyMe s (s.onMe f) :=
  ⟨rfl, fun _ h => State.onMe_ctx_other s f h, fun _ => rfl, fun _ _ => rfl⟩

theorem State.writesX_gives (s : State) (d : BitVec 5) (w : Word) : givesX s (s.writesX d w) d w := by
  unfold State.writesX
  have hg := Ctx.setX_given s.me d w
  have hf : (s.me.setX d w) = _ := Ctx.write_frame s.me (.x d w)
  refine ⟨State.onMe_onlyMe _ _, ?_, ?_, ?_⟩
  · simp only [State.step1, State.onMe_me]
    unfold onlyRegs
    rw [Ctx.advance_frame, hf]
  · simpa only [State.step1, State.onMe_me, xGiven, Ctx.advance_getX, Ctx.advance_getV, Ctx.advance_getK,
      Ctx.advance_later] using hg
  · simp only [State.step1, State.onMe_me]
    intro h0 h1
    have := Ctx.advance_pc (s.me.setX d w) (by rw [hf]; exact h0) (by rw [hf]; exact h1)
    rw [hf] at this ⊢
    exact this

theorem State.writesV_gives (s : State) (d : BitVec 5) (w : VWord) : givesV s (s.step1 fun c => c.setV d w) d w := by
  have hg := Ctx.setV_given s.me d w
  have hf : (s.me.setV d w) = _ := Ctx.write_frame s.me (.v d w)
  refine ⟨State.onMe_onlyMe _ _, ?_, ?_, ?_⟩
  · simp only [State.step1, State.onMe_me]
    unfold onlyRegs
    rw [Ctx.advance_frame, hf]
  · simpa only [State.step1, State.onMe_me, vGiven, Ctx.advance_getX, Ctx.advance_getV, Ctx.advance_getK,
      Ctx.advance_later] using hg
  · simp only [State.step1, State.onMe_me]
    intro h0 h1
    have := Ctx.advance_pc (s.me.setV d w) (by rw [hf]; exact h0) (by rw [hf]; exact h1)
    rw [hf] at this ⊢
    exact this

theorem State.writesK_gives (s : State) (d : BitVec 3) (w : Word) : givesK s (s.step1 fun c => c.setK d w) d w := by
  have hg := Ctx.setK_given s.me d w
  have hf : s.me.setK d w = { s.me with regs := (s.me.setK d w).regs } := by unfold Ctx.setK; split <;> rfl
  refine ⟨State.onMe_onlyMe _ _, ?_, ?_, ?_⟩
  · simp only [State.step1, State.onMe_me]
    unfold onlyRegs
    rw [Ctx.advance_frame, hf]
  · simpa only [State.step1, State.onMe_me, kGiven, Ctx.advance_getX, Ctx.advance_getV, Ctx.advance_getK,
      Ctx.advance_later] using hg
  · simp only [State.step1, State.onMe_me]
    intro h0 h1
    have := Ctx.advance_pc (s.me.setK d w) (by rw [hf]; exact h0) (by rw [hf]; exact h1)
    rw [hf] at this ⊢
    exact this

theorem State.moves_gives (s : State) : givesNothing s (s.step1 id) := by
  refine ⟨State.onMe_onlyMe _ _, ?_, ?_, ?_⟩
  · simp only [State.step1, State.onMe_me, id]
    unfold onlyRegs
    rw [Ctx.advance_frame]
  · simp [State.step1, sameRegs]
  · simp only [State.step1, State.onMe_me, id]
    intro h0 h1
    exact Ctx.advance_pc _ h0 h1

end Sys2Proof.Machine
end

