-- ==== Sys2Proof/Laws/PerInstr.lean ====
section
/-! SUPPORT. Statements made of each instruction: its word decodes to it, with every operand at every value that its encoding admits. -/

namespace Sys2Proof.Laws.Encoding

/-- The family: a well-formed instruction's word decodes to the instruction. -/
def Statement (i : Instr) : Prop := ∀ w : Word32, i.wellFormed = true → encode i = some w → decode w = .ok i

/-! ### Fields of joined fields -/

theorem ex_lo {w v start len : Nat} (x : BitVec w) (y : BitVec v) (h : start + len ≤ v) :
    (x ++ y).extractLsb' start len = y.extractLsb' start len := by
  apply BitVec.eq_of_getLsbD_eq
  intro i hi
  simp only [BitVec.getLsbD_extractLsb', hi, BitVec.getLsbD_append, decide_true, Bool.true_and]
  rw [if_pos (by omega)]

theorem ex_hi {w v start len : Nat} (x : BitVec w) (y : BitVec v) (h : v ≤ start) :
    (x ++ y).extractLsb' start len = x.extractLsb' (start - v) len := by
  apply BitVec.eq_of_getLsbD_eq
  intro i hi
  simp only [BitVec.getLsbD_extractLsb', hi, BitVec.getLsbD_append, decide_true, Bool.true_and]
  rw [if_neg (by omega)]
  congr 1
  omega

theorem ex_sw {w start len : Nat} (x : BitVec w) (h : start + len ≤ 25) :
    (x.setWidth 25).extractLsb' start len = x.extractLsb' start len := by
  apply BitVec.eq_of_getLsbD_eq
  intro i hi
  simp only [BitVec.getLsbD_extractLsb', hi, BitVec.getLsbD_setWidth, decide_true, Bool.true_and]
  rw [decide_eq_true (by omega), Bool.true_and]

theorem ex_all {w : Nat} (x : BitVec w) : x.extractLsb' 0 w = x := by
  apply BitVec.eq_of_getLsbD_eq
  intro i hi
  simp [hi]

/-! ### The three parts of a word -/

theorem pack_major {n : Nat} (sb : Bool) (m : BitVec 6) (b : BitVec n) : (pack sb m b).extractLsb' 25 6 = m := by
  unfold pack
  rw [ex_hi _ _ (by omega), ex_lo _ _ (by omega)]
  simp

theorem pack_body {n : Nat} (sb : Bool) (m : BitVec 6) (b : BitVec n) : (pack sb m b).extractLsb' 0 25 = b.setWidth 25 := by
  unfold pack
  rw [ex_lo _ _ (by omega)]
  simp

theorem pack_sb {n : Nat} (sb : Bool) (m : BitVec 6) (b : BitVec n) : (pack sb m b).getLsbD 31 = sb := by
  unfold pack
  rw [BitVec.getLsbD_append, BitVec.getLsbD_append]
  cases sb <;> simp

theorem pack_ne_zero {n : Nat} {sb : Bool} {m : BitVec 6} {b : BitVec n} (h : m ≠ 0 ∨ b.setWidth 25 ≠ 0 ∨ sb = true) : pack sb m b ≠ 0 := by
  intro e
  rcases h with h | h | h
  · exact h (by rw [← pack_major sb m b, e]; rfl)
  · exact h (by rw [← pack_body sb m b, e]; rfl)
  · have := pack_sb sb m b
    rw [e, h] at this
    exact absurd this (by decide)

theorem decode_pack {n : Nat} {sb : Bool} {m : BitVec 6} {b : BitVec n} (h : m ≠ 0 ∨ b.setWidth 25 ≠ 0 ∨ sb = true) :
    decode (pack sb m b) = decodeBody sb m (b.setWidth 25) := by
  rw [decode, if_neg (pack_ne_zero h), pack_major, pack_body, pack_sb]

/-- An instruction of a major opcode other than 0x00. -/
theorem of_body {i : Instr} {sb : Bool} {m : BitVec 6} {n : Nat} {b : BitVec n} (he : encode i = some (pack sb m b)) (hm : m ≠ 0)
    (hd : i.wellFormed = true → decodeBody sb m (b.setWidth 25) = .ok i) : Statement i := by
  intro w hw h
  rw [he, Option.some.injEq] at h
  rw [← h, decode_pack (.inl hm), hd hw]

/-- An instruction of major 0x00 with a function code other than 0. -/
theorem of_alu {i : Instr} {sb : Bool} {n : Nat} {b : BitVec n} {f : BitVec 10} (he : encode i = some (pack sb 0 (b ++ f))) (hf : f ≠ 0)
    (hd : i.wellFormed = true → decodeBody sb 0 ((b ++ f).setWidth 25) = .ok i) : Statement i := by
  intro w hw h
  rw [he, Option.some.injEq] at h
  rw [← h, decode_pack (.inr (.inl _)), hd hw]
  intro e
  have := congrArg (BitVec.extractLsb' 0 10) e
  rw [ex_sw _ (by omega), ex_lo _ _ (by omega)] at this
  exact hf (by simpa using this)

/-! ### The instructions -/

theorem add (sb : Bool) (d a b : BitVec 5) : Statement (.add sb d a b) := by
  intro w hw h
  have hz : (0 : BitVec 6) ≠ 0 ∨ (d ++ a ++ b ++ 0#10).setWidth 25 ≠ 0 ∨ sb = true := by
    rcases sb with _ | _
    · refine .inr (.inl fun e => ?_)
      have hd := congrArg (BitVec.extractLsb' 20 5) e
      have ha := congrArg (BitVec.extractLsb' 15 5) e
      have hb := congrArg (BitVec.extractLsb' 10 5) e
      simp (disch := decide) only [ex_lo, ex_hi, ex_sw] at hd ha hb
      simp [Instr.wellFormed] at hw hd ha hb
      simp [hd, ha, hb] at hw
    · exact .inr (.inr rfl)
  simp only [encode, Option.some.injEq] at h
  rw [← h, decode_pack hz]
  show decodeAlu _ _ = _
  simp (disch := decide) only [decodeAlu, ex_lo, ex_hi, ex_sw]
  simp [checked, hw]

theorem sub (sb : Bool) (d a b : BitVec 5) : Statement (.sub sb d a b) := of_alu rfl (by decide) fun hw => by
  show decodeAlu _ _ = _
  rw [decodeAlu, ex_sw _ (by decide), ex_lo _ _ (by decide), ex_all]
  show checked (.sub _ _ _ _) = _
  simp (disch := decide) only [ex_lo, ex_hi, ex_sw, ex_all, Nat.reduceSub]
  exact if_pos hw

theorem and (sb : Bool) (d a b : BitVec 5) : Statement (.and sb d a b) := of_alu rfl (by decide) fun hw => by
  show decodeAlu _ _ = _
  rw [decodeAlu, ex_sw _ (by decide), ex_lo _ _ (by decide), ex_all]
  show checked (.and _ _ _ _) = _
  simp (disch := decide) only [ex_lo, ex_hi, ex_sw, ex_all, Nat.reduceSub]
  exact if_pos hw

theorem or (sb : Bool) (d a b : BitVec 5) : Statement (.or sb d a b) := of_alu rfl (by decide) fun hw => by
  show decodeAlu _ _ = _
  rw [decodeAlu, ex_sw _ (by decide), ex_lo _ _ (by decide), ex_all]
  show checked (.or _ _ _ _) = _
  simp (disch := decide) only [ex_lo, ex_hi, ex_sw, ex_all, Nat.reduceSub]
  exact if_pos hw

theorem xor (sb : Bool) (d a b : BitVec 5) : Statement (.xor sb d a b) := of_alu rfl (by decide) fun hw => by
  show decodeAlu _ _ = _
  rw [decodeAlu, ex_sw _ (by decide), ex_lo _ _ (by decide), ex_all]
  show checked (.xor _ _ _ _) = _
  simp (disch := decide) only [ex_lo, ex_hi, ex_sw, ex_all, Nat.reduceSub]
  exact if_pos hw

theorem andn (sb : Bool) (d a b : BitVec 5) : Statement (.andn sb d a b) := of_alu rfl (by decide) fun hw => by
  show decodeAlu _ _ = _
  rw [decodeAlu, ex_sw _ (by decide), ex_lo _ _ (by decide), ex_all]
  show checked (.andn _ _ _ _) = _
  simp (disch := decide) only [ex_lo, ex_hi, ex_sw, ex_all, Nat.reduceSub]
  exact if_pos hw

theorem orn (sb : Bool) (d a b : BitVec 5) : Statement (.orn sb d a b) := of_alu rfl (by decide) fun hw => by
  show decodeAlu _ _ = _
  rw [decodeAlu, ex_sw _ (by decide), ex_lo _ _ (by decide), ex_all]
  show checked (.orn _ _ _ _) = _
  simp (disch := decide) only [ex_lo, ex_hi, ex_sw, ex_all, Nat.reduceSub]
  exact if_pos hw

theorem sll (sb : Bool) (d a b : BitVec 5) : Statement (.sll sb d a b) := of_alu rfl (by decide) fun hw => by
  show decodeAlu _ _ = _
  rw [decodeAlu, ex_sw _ (by decide), ex_lo _ _ (by decide), ex_all]
  show checked (.sll _ _ _ _) = _
  simp (disch := decide) only [ex_lo, ex_hi, ex_sw, ex_all, Nat.reduceSub]
  exact if_pos hw

theorem srl (sb : Bool) (d a b : BitVec 5) : Statement (.srl sb d a b) := of_alu rfl (by decide) fun hw => by
  show decodeAlu _ _ = _
  rw [decodeAlu, ex_sw _ (by decide), ex_lo _ _ (by decide), ex_all]
  show checked (.srl _ _ _ _) = _
  simp (disch := decide) only [ex_lo, ex_hi, ex_sw, ex_all, Nat.reduceSub]
  exact if_pos hw

theorem sra (sb : Bool) (d a b : BitVec 5) : Statement (.sra sb d a b) := of_alu rfl (by decide) fun hw => by
  show decodeAlu _ _ = _
  rw [decodeAlu, ex_sw _ (by decide), ex_lo _ _ (by decide), ex_all]
  show checked (.sra _ _ _ _) = _
  simp (disch := decide) only [ex_lo, ex_hi, ex_sw, ex_all, Nat.reduceSub]
  exact if_pos hw

theorem rotl (sb : Bool) (d a b : BitVec 5) : Statement (.rotl sb d a b) := of_alu rfl (by decide) fun hw => by
  show decodeAlu _ _ = _
  rw [decodeAlu, ex_sw _ (by decide), ex_lo _ _ (by decide), ex_all]
  show checked (.rotl _ _ _ _) = _
  simp (disch := decide) only [ex_lo, ex_hi, ex_sw, ex_all, Nat.reduceSub]
  exact if_pos hw

theorem rotr (sb : Bool) (d a b : BitVec 5) : Statement (.rotr sb d a b) := of_alu rfl (by decide) fun hw => by
  show decodeAlu _ _ = _
  rw [decodeAlu, ex_sw _ (by decide), ex_lo _ _ (by decide), ex_all]
  show checked (.rotr _ _ _ _) = _
  simp (disch := decide) only [ex_lo, ex_hi, ex_sw, ex_all, Nat.reduceSub]
  exact if_pos hw

theorem slt (sb : Bool) (d a b : BitVec 5) : Statement (.slt sb d a b) := of_alu rfl (by decide) fun hw => by
  show decodeAlu _ _ = _
  rw [decodeAlu, ex_sw _ (by decide), ex_lo _ _ (by decide), ex_all]
  show checked (.slt _ _ _ _) = _
  simp (disch := decide) only [ex_lo, ex_hi, ex_sw, ex_all, Nat.reduceSub]
  exact if_pos hw

theorem sltz (sb : Bool) (d a b : BitVec 5) : Statement (.sltz sb d a b) := of_alu rfl (by decide) fun hw => by
  show decodeAlu _ _ = _
  rw [decodeAlu, ex_sw _ (by decide), ex_lo _ _ (by decide), ex_all]
  show checked (.sltz _ _ _ _) = _
  simp (disch := decide) only [ex_lo, ex_hi, ex_sw, ex_all, Nat.reduceSub]
  exact if_pos hw

theorem min (sb : Bool) (d a b : BitVec 5) : Statement (.min sb d a b) := of_alu rfl (by decide) fun hw => by
  show decodeAlu _ _ = _
  rw [decodeAlu, ex_sw _ (by decide), ex_lo _ _ (by decide), ex_all]
  show checked (.min _ _ _ _) = _
  simp (disch := decide) only [ex_lo, ex_hi, ex_sw, ex_all, Nat.reduceSub]
  exact if_pos hw

theorem max (sb : Bool) (d a b : BitVec 5) : Statement (.max sb d a b) := of_alu rfl (by decide) fun hw => by
  show decodeAlu _ _ = _
  rw [decodeAlu, ex_sw _ (by decide), ex_lo _ _ (by decide), ex_all]
  show checked (.max _ _ _ _) = _
  simp (disch := decide) only [ex_lo, ex_hi, ex_sw, ex_all, Nat.reduceSub]
  exact if_pos hw

theorem minz (sb : Bool) (d a b : BitVec 5) : Statement (.minz sb d a b) := of_alu rfl (by decide) fun hw => by
  show decodeAlu _ _ = _
  rw [decodeAlu, ex_sw _ (by decide), ex_lo _ _ (by decide), ex_all]
  show checked (.minz _ _ _ _) = _
  simp (disch := decide) only [ex_lo, ex_hi, ex_sw, ex_all, Nat.reduceSub]
  exact if_pos hw

theorem maxz (sb : Bool) (d a b : BitVec 5) : Statement (.maxz sb d a b) := of_alu rfl (by decide) fun hw => by
  show decodeAlu _ _ = _
  rw [decodeAlu, ex_sw _ (by decide), ex_lo _ _ (by decide), ex_all]
  show checked (.maxz _ _ _ _) = _
  simp (disch := decide) only [ex_lo, ex_hi, ex_sw, ex_all, Nat.reduceSub]
  exact if_pos hw

theorem clz (sb : Bool) (d a : BitVec 5) : Statement (.clz sb d a) := of_alu rfl (by decide) fun hw => by
  show decodeAlu _ _ = _
  rw [decodeAlu, ex_sw _ (by decide), ex_lo _ _ (by decide), ex_all]
  show (if _ then checked (.clz _ _ _) else _) = _
  simp (disch := decide) only [ex_lo, ex_hi, ex_sw, ex_all, Nat.reduceSub]
  exact (if_pos (by decide)).trans (if_pos hw)

theorem ctz (sb : Bool) (d a : BitVec 5) : Statement (.ctz sb d a) := of_alu rfl (by decide) fun hw => by
  show decodeAlu _ _ = _
  rw [decodeAlu, ex_sw _ (by decide), ex_lo _ _ (by decide), ex_all]
  show (if _ then checked (.ctz _ _ _) else _) = _
  simp (disch := decide) only [ex_lo, ex_hi, ex_sw, ex_all, Nat.reduceSub]
  exact (if_pos (by decide)).trans (if_pos hw)

theorem popc (sb : Bool) (d a : BitVec 5) : Statement (.popc sb d a) := of_alu rfl (by decide) fun hw => by
  show decodeAlu _ _ = _
  rw [decodeAlu, ex_sw _ (by decide), ex_lo _ _ (by decide), ex_all]
  show (if _ then checked (.popc _ _ _) else _) = _
  simp (disch := decide) only [ex_lo, ex_hi, ex_sw, ex_all, Nat.reduceSub]
  exact (if_pos (by decide)).trans (if_pos hw)

theorem mul (sb : Bool) (d a b : BitVec 5) : Statement (.mul sb d a b) := of_alu rfl (by decide) fun hw => by
  show decodeAlu _ _ = _
  rw [decodeAlu, ex_sw _ (by decide), ex_lo _ _ (by decide), ex_all]
  show checked (.mul _ _ _ _) = _
  simp (disch := decide) only [ex_lo, ex_hi, ex_sw, ex_all, Nat.reduceSub]
  exact if_pos hw

theorem mulh (sb : Bool) (d a b : BitVec 5) : Statement (.mulh sb d a b) := of_alu rfl (by decide) fun hw => by
  show decodeAlu _ _ = _
  rw [decodeAlu, ex_sw _ (by decide), ex_lo _ _ (by decide), ex_all]
  show checked (.mulh _ _ _ _) = _
  simp (disch := decide) only [ex_lo, ex_hi, ex_sw, ex_all, Nat.reduceSub]
  exact if_pos hw

theorem mulhz (sb : Bool) (d a b : BitVec 5) : Statement (.mulhz sb d a b) := of_alu rfl (by decide) fun hw => by
  show decodeAlu _ _ = _
  rw [decodeAlu, ex_sw _ (by decide), ex_lo _ _ (by decide), ex_all]
  show checked (.mulhz _ _ _ _) = _
  simp (disch := decide) only [ex_lo, ex_hi, ex_sw, ex_all, Nat.reduceSub]
  exact if_pos hw

theorem div (sb : Bool) (d a b : BitVec 5) : Statement (.div sb d a b) := of_alu rfl (by decide) fun hw => by
  show decodeAlu _ _ = _
  rw [decodeAlu, ex_sw _ (by decide), ex_lo _ _ (by decide), ex_all]
  show checked (.div _ _ _ _) = _
  simp (disch := decide) only [ex_lo, ex_hi, ex_sw, ex_all, Nat.reduceSub]
  exact if_pos hw

theorem divz (sb : Bool) (d a b : BitVec 5) : Statement (.divz sb d a b) := of_alu rfl (by decide) fun hw => by
  show decodeAlu _ _ = _
  rw [decodeAlu, ex_sw _ (by decide), ex_lo _ _ (by decide), ex_all]
  show checked (.divz _ _ _ _) = _
  simp (disch := decide) only [ex_lo, ex_hi, ex_sw, ex_all, Nat.reduceSub]
  exact if_pos hw

theorem rem (sb : Bool) (d a b : BitVec 5) : Statement (.rem sb d a b) := of_alu rfl (by decide) fun hw => by
  show decodeAlu _ _ = _
  rw [decodeAlu, ex_sw _ (by decide), ex_lo _ _ (by decide), ex_all]
  show checked (.rem _ _ _ _) = _
  simp (disch := decide) only [ex_lo, ex_hi, ex_sw, ex_all, Nat.reduceSub]
  exact if_pos hw

theorem remz (sb : Bool) (d a b : BitVec 5) : Statement (.remz sb d a b) := of_alu rfl (by decide) fun hw => by
  show decodeAlu _ _ = _
  rw [decodeAlu, ex_sw _ (by decide), ex_lo _ _ (by decide), ex_all]
  show checked (.remz _ _ _ _) = _
  simp (disch := decide) only [ex_lo, ex_hi, ex_sw, ex_all, Nat.reduceSub]
  exact if_pos hw

theorem addi (sb : Bool) (d a : BitVec 5) (i : BitVec 15) : Statement (.addi sb d a i) := of_body rfl (by decide) fun hw => by
  show checked (.addi _ _ _ _) = _
  simp (disch := decide) only [ex_lo, ex_hi, ex_sw, ex_all, Nat.reduceSub]
  exact if_pos hw

theorem andi (sb : Bool) (d a : BitVec 5) (i : BitVec 15) : Statement (.andi sb d a i) := of_body rfl (by decide) fun hw => by
  show checked (.andi _ _ _ _) = _
  simp (disch := decide) only [ex_lo, ex_hi, ex_sw, ex_all, Nat.reduceSub]
  exact if_pos hw

theorem ori (sb : Bool) (d a : BitVec 5) (i : BitVec 15) : Statement (.ori sb d a i) := of_body rfl (by decide) fun hw => by
  show checked (.ori _ _ _ _) = _
  simp (disch := decide) only [ex_lo, ex_hi, ex_sw, ex_all, Nat.reduceSub]
  exact if_pos hw

theorem xori (sb : Bool) (d a : BitVec 5) (i : BitVec 15) : Statement (.xori sb d a i) := of_body rfl (by decide) fun hw => by
  show checked (.xori _ _ _ _) = _
  simp (disch := decide) only [ex_lo, ex_hi, ex_sw, ex_all, Nat.reduceSub]
  exact if_pos hw

theorem slti (sb : Bool) (d a : BitVec 5) (i : BitVec 15) : Statement (.slti sb d a i) := of_body rfl (by decide) fun hw => by
  show checked (.slti _ _ _ _) = _
  simp (disch := decide) only [ex_lo, ex_hi, ex_sw, ex_all, Nat.reduceSub]
  exact if_pos hw

theorem slli (sb : Bool) (d a : BitVec 5) (n : BitVec 6) : Statement (.slli sb d a n) := of_body rfl (by decide) fun hw => by
  show decodeShiftImm _ _ = _
  simp (disch := decide) only [decodeShiftImm, ex_lo, ex_hi, ex_sw, ex_all, Nat.reduceSub]
  exact (if_pos (by decide)).trans (if_pos hw)

theorem srli (sb : Bool) (d a : BitVec 5) (n : BitVec 6) : Statement (.srli sb d a n) := of_body rfl (by decide) fun hw => by
  show decodeShiftImm _ _ = _
  simp (disch := decide) only [decodeShiftImm, ex_lo, ex_hi, ex_sw, ex_all, Nat.reduceSub]
  exact (if_pos (by decide)).trans (if_pos hw)

theorem srai (sb : Bool) (d a : BitVec 5) (n : BitVec 6) : Statement (.srai sb d a n) := of_body rfl (by decide) fun hw => by
  show decodeShiftImm _ _ = _
  simp (disch := decide) only [decodeShiftImm, ex_lo, ex_hi, ex_sw, ex_all, Nat.reduceSub]
  exact (if_pos (by decide)).trans (if_pos hw)

theorem lui (sb : Bool) (d : BitVec 5) (i : BitVec 20) : Statement (.lui sb d i) := of_body rfl (by decide) fun hw => by
  show checked (.lui _ _ _) = _
  simp (disch := decide) only [ex_lo, ex_hi, ex_sw, ex_all, Nat.reduceSub]
  exact if_pos hw

theorem addpc (sb : Bool) (d : BitVec 5) (i : BitVec 20) : Statement (.addpc sb d i) := of_body rfl (by decide) fun hw => by
  show checked (.addpc _ _ _) = _
  simp (disch := decide) only [ex_lo, ex_hi, ex_sw, ex_all, Nat.reduceSub]
  exact if_pos hw

theorem adds (sb : Bool) (d a b n : BitVec 5) : Statement (.adds sb d a b n) := of_body rfl (by decide) fun hw => by
  show (if _ then checked (.adds _ _ _ _ _) else _) = _
  simp (disch := decide) only [ex_lo, ex_hi, ex_sw, ex_all, Nat.reduceSub]
  exact (if_pos (by decide)).trans (if_pos hw)

theorem sel (sb : Bool) (d a b c : BitVec 5) : Statement (.sel sb d a b c) := of_body rfl (by decide) fun hw => by
  show (if _ then checked (.sel _ _ _ _ _) else _) = _
  simp (disch := decide) only [ex_lo, ex_hi, ex_sw, ex_all, Nat.reduceSub]
  exact (if_pos (by decide)).trans (if_pos hw)

theorem ext (sb : Bool) (d a : BitVec 5) (l p : BitVec 6) : Statement (.ext sb d a l p) := of_body rfl (by decide) fun hw => by
  show (if _ then checked (.ext _ _ _ _ _) else _) = _
  simp (disch := decide) only [ex_lo, ex_hi, ex_sw, ex_all, Nat.reduceSub]
  exact (if_pos (by decide)).trans (if_pos hw)

theorem ins (sb : Bool) (d a : BitVec 5) (l p : BitVec 6) : Statement (.ins sb d a l p) := of_body rfl (by decide) fun hw => by
  show (if _ then checked (.ins _ _ _ _ _) else _) = _
  simp (disch := decide) only [ex_lo, ex_hi, ex_sw, ex_all, Nat.reduceSub]
  exact (if_pos (by decide)).trans (if_pos hw)

theorem bEq (sb : Bool) (a b : BitVec 5) (o : BitVec 12) : Statement (.bEq sb a b o) := of_body rfl (by decide) fun hw => by
  show decodeBranch _ _ = _
  simp (disch := decide) only [decodeBranch, ex_lo, ex_hi, ex_sw, ex_all, Nat.reduceSub]
  exact if_pos hw

theorem bNe (sb : Bool) (a b : BitVec 5) (o : BitVec 12) : Statement (.bNe sb a b o) := of_body rfl (by decide) fun hw => by
  show decodeBranch _ _ = _
  simp (disch := decide) only [decodeBranch, ex_lo, ex_hi, ex_sw, ex_all, Nat.reduceSub]
  exact if_pos hw

theorem bLt (sb : Bool) (a b : BitVec 5) (o : BitVec 12) : Statement (.bLt sb a b o) := of_body rfl (by decide) fun hw => by
  show decodeBranch _ _ = _
  simp (disch := decide) only [decodeBranch, ex_lo, ex_hi, ex_sw, ex_all, Nat.reduceSub]
  exact if_pos hw

theorem bGe (sb : Bool) (a b : BitVec 5) (o : BitVec 12) : Statement (.bGe sb a b o) := of_body rfl (by decide) fun hw => by
  show decodeBranch _ _ = _
  simp (disch := decide) only [decodeBranch, ex_lo, ex_hi, ex_sw, ex_all, Nat.reduceSub]
  exact if_pos hw

theorem bLtz (sb : Bool) (a b : BitVec 5) (o : BitVec 12) : Statement (.bLtz sb a b o) := of_body rfl (by decide) fun hw => by
  show decodeBranch _ _ = _
  simp (disch := decide) only [decodeBranch, ex_lo, ex_hi, ex_sw, ex_all, Nat.reduceSub]
  exact if_pos hw

theorem bGez (sb : Bool) (a b : BitVec 5) (o : BitVec 12) : Statement (.bGez sb a b o) := of_body rfl (by decide) fun hw => by
  show decodeBranch _ _ = _
  simp (disch := decide) only [decodeBranch, ex_lo, ex_hi, ex_sw, ex_all, Nat.reduceSub]
  exact if_pos hw

theorem j (sb : Bool) (o : BitVec 25) : Statement (.j sb o) := of_body rfl (by decide) fun hw => by
  show checked (.j _ _) = _
  simp (disch := decide) only [ex_sw, ex_all]
  exact if_pos hw

theorem jal (sb : Bool) (o : BitVec 25) : Statement (.jal sb o) := of_body rfl (by decide) fun hw => by
  show checked (.jal _ _) = _
  simp (disch := decide) only [ex_sw, ex_all]
  exact if_pos hw

theorem jalr (sb : Bool) (d a : BitVec 5) (i : BitVec 15) : Statement (.jalr sb d a i) := of_body rfl (by decide) fun hw => by
  show checked (.jalr _ _ _ _) = _
  simp (disch := decide) only [ex_lo, ex_hi, ex_sw, ex_all, Nat.reduceSub]
  exact if_pos hw

theorem loop (sb : Bool) (n : BitVec 1) (a : BitVec 5) (i : BitVec 15) : Statement (.loop sb n a i) := of_body rfl (by decide) fun hw => by
  show (if _ then checked (.loop _ _ _ _) else _) = _
  simp (disch := decide) only [ex_lo, ex_hi, ex_sw, ex_all, Nat.reduceSub]
  exact (if_pos (by decide)).trans (if_pos hw)

theorem nop (sb : Bool) : Statement (.nop sb) := of_body rfl (by decide) fun _ => rfl

theorem lbreak (sb : Bool) (n : BitVec 1) : Statement (.lbreak sb n) := of_body rfl (by decide) fun hw => by
  show decodeControlMisc _ _ = _
  rw [decodeControlMisc, ex_sw _ (by decide), ex_lo _ _ (by decide), ex_all]
  show (if _ then checked (.lbreak _ _) else _) = _
  simp (disch := decide) only [ex_lo, ex_hi, ex_sw, ex_all, Nat.reduceSub]
  exact (if_pos (by decide)).trans (if_pos hw)

theorem ident (sb : Bool) (d : BitVec 5) : Statement (.ident sb d) := of_body rfl (by decide) fun hw => by
  show decodeControlMisc _ _ = _
  rw [decodeControlMisc, ex_sw _ (by decide), ex_lo _ _ (by decide), ex_all]
  show (if _ then checked (.ident _ _) else _) = _
  simp (disch := decide) only [ex_lo, ex_hi, ex_sw, ex_all, Nat.reduceSub]
  exact (if_pos (by decide)).trans (if_pos hw)

theorem ld (sb : Bool) (d a : BitVec 5) (z : BitVec 2) (p : BitVec 10) : Statement (.ld sb d a z p) := of_body rfl (by decide) fun hw => by
  show decodeLd _ _ = _
  simp (disch := decide) only [decodeLd, ex_lo, ex_hi, ex_sw]
  simp [checked, hw]

theorem ldAcq (sb : Bool) (d a : BitVec 5) (z : BitVec 2) (p : BitVec 10) : Statement (.ldAcq sb d a z p) := of_body rfl (by decide) fun hw => by
  show decodeLd _ _ = _
  simp (disch := decide) only [decodeLd, ex_lo, ex_hi, ex_sw]
  simp [checked, hw]

theorem ldnc (sb : Bool) (d a : BitVec 5) (z : BitVec 2) (p : BitVec 10) : Statement (.ldnc sb d a z p) := of_body rfl (by decide) fun hw => by
  show decodeLd _ _ = _
  simp (disch := decide) only [decodeLd, ex_lo, ex_hi, ex_sw]
  simp [checked, hw]

theorem ldp (sb : Bool) (d a : BitVec 5) (p : BitVec 10) : Statement (.ldp sb d a p) := of_body rfl (by decide) fun hw => by
  show decodeLd _ _ = _
  simp (disch := decide) only [decodeLd, ex_lo, ex_hi, ex_sw, ex_all, Nat.reduceSub]
  exact if_pos hw

theorem ldpAcq (sb : Bool) (d a : BitVec 5) (p : BitVec 10) : Statement (.ldpAcq sb d a p) := of_body rfl (by decide) fun hw => by
  show decodeLd _ _ = _
  simp (disch := decide) only [decodeLd, ex_lo, ex_hi, ex_sw, ex_all, Nat.reduceSub]
  exact if_pos hw

theorem ldz (sb : Bool) (d a : BitVec 5) (z : BitVec 2) (p : BitVec 10) : Statement (.ldz sb d a z p) := of_body rfl (by decide) fun hw => by
  show decodeLdz _ _ = _
  simp (disch := decide) only [decodeLdz, ex_lo, ex_hi, ex_sw, ex_all, Nat.reduceSub]
  exact if_pos hw

theorem ldzAcq (sb : Bool) (d a : BitVec 5) (z : BitVec 2) (p : BitVec 10) : Statement (.ldzAcq sb d a z p) := of_body rfl (by decide) fun hw => by
  show decodeLdz _ _ = _
  simp (disch := decide) only [decodeLdz, ex_lo, ex_hi, ex_sw, ex_all, Nat.reduceSub]
  exact if_pos hw

theorem ldncZ (sb : Bool) (d a : BitVec 5) (z : BitVec 2) (p : BitVec 10) : Statement (.ldncZ sb d a z p) := of_body rfl (by decide) fun hw => by
  show decodeLdz _ _ = _
  simp (disch := decide) only [decodeLdz, ex_lo, ex_hi, ex_sw, ex_all, Nat.reduceSub]
  exact if_pos hw

theorem st (sb : Bool) (d a : BitVec 5) (z : BitVec 2) (p : BitVec 10) : Statement (.st sb d a z p) := of_body rfl (by decide) fun hw => by
  show decodeSt _ _ = _
  simp (disch := decide) only [decodeSt, ex_lo, ex_hi, ex_sw]
  simp [checked, hw]

theorem stRel (sb : Bool) (d a : BitVec 5) (z : BitVec 2) (p : BitVec 10) : Statement (.stRel sb d a z p) := of_body rfl (by decide) fun hw => by
  show decodeSt _ _ = _
  simp (disch := decide) only [decodeSt, ex_lo, ex_hi, ex_sw]
  simp [checked, hw]

theorem stp (sb : Bool) (d a : BitVec 5) (p : BitVec 10) : Statement (.stp sb d a p) := of_body rfl (by decide) fun hw => by
  show decodeSt _ _ = _
  simp (disch := decide) only [decodeSt, ex_lo, ex_hi, ex_sw, ex_all, Nat.reduceSub]
  exact if_pos hw

theorem stpRel (sb : Bool) (d a : BitVec 5) (p : BitVec 10) : Statement (.stpRel sb d a p) := of_body rfl (by decide) fun hw => by
  show decodeSt _ _ = _
  simp (disch := decide) only [decodeSt, ex_lo, ex_hi, ex_sw, ex_all, Nat.reduceSub]
  exact if_pos hw

theorem fenceQuad (sb : Bool) : Statement (.fenceQuad sb) := of_body rfl (by decide) fun _ => rfl

theorem fenceQuarter (sb : Bool) : Statement (.fenceQuarter sb) := of_body rfl (by decide) fun _ => rfl

theorem fenceDie (sb : Bool) : Statement (.fenceDie sb) := of_body rfl (by decide) fun _ => rfl

theorem fenceModule (sb : Bool) : Statement (.fenceModule sb) := of_body rfl (by decide) fun _ => rfl

theorem fenceSystem (sb : Bool) : Statement (.fenceSystem sb) := of_body rfl (by decide) fun _ => rfl

theorem pref (sb : Bool) (a : BitVec 5) : Statement (.pref sb a) := of_body rfl (by decide) fun hw => by
  show decodeMemOrder _ _ = _
  rw [decodeMemOrder, ex_sw _ (by decide), ex_lo _ _ (by decide), ex_all]
  show (if _ then checked (.pref _ _) else _) = _
  simp (disch := decide) only [ex_lo, ex_hi, ex_sw, ex_all, Nat.reduceSub]
  exact (if_pos (by decide)).trans (if_pos hw)

theorem prefW (sb : Bool) (a : BitVec 5) : Statement (.prefW sb a) := of_body rfl (by decide) fun hw => by
  show decodeMemOrder _ _ = _
  rw [decodeMemOrder, ex_sw _ (by decide), ex_lo _ _ (by decide), ex_all]
  show (if _ then checked (.prefW _ _) else _) = _
  simp (disch := decide) only [ex_lo, ex_hi, ex_sw, ex_all, Nat.reduceSub]
  exact (if_pos (by decide)).trans (if_pos hw)

theorem cln (sb : Bool) (a : BitVec 5) : Statement (.cln sb a) := of_body rfl (by decide) fun hw => by
  show decodeMemOrder _ _ = _
  rw [decodeMemOrder, ex_sw _ (by decide), ex_lo _ _ (by decide), ex_all]
  show (if _ then checked (.cln _ _) else _) = _
  simp (disch := decide) only [ex_lo, ex_hi, ex_sw, ex_all, Nat.reduceSub]
  exact (if_pos (by decide)).trans (if_pos hw)

theorem inv (sb : Bool) (a : BitVec 5) : Statement (.inv sb a) := of_body rfl (by decide) fun hw => by
  show decodeMemOrder _ _ = _
  rw [decodeMemOrder, ex_sw _ (by decide), ex_lo _ _ (by decide), ex_all]
  show (if _ then checked (.inv _ _) else _) = _
  simp (disch := decide) only [ex_lo, ex_hi, ex_sw, ex_all, Nat.reduceSub]
  exact (if_pos (by decide)).trans (if_pos hw)

theorem nhint (sb : Bool) (h : BitVec 2) (a : BitVec 5) : Statement (.nhint sb h a) := of_body rfl (by decide) fun hw => by
  show decodeMemOrder _ _ = _
  rw [decodeMemOrder, ex_sw _ (by decide), ex_lo _ _ (by decide), ex_all]
  show (if _ then checked (.nhint _ _ _) else _) = _
  simp (disch := decide) only [ex_lo, ex_hi, ex_sw, ex_all, Nat.reduceSub]
  exact (if_pos (by decide)).trans (if_pos hw)

theorem tacq (sb : Bool) (d a b : BitVec 5) : Statement (.tacq sb d a b) := of_body rfl (by decide) fun hw => by
  show decodeTiles _ _ = _
  rw [decodeTiles, ex_sw _ (by decide), ex_lo _ _ (by decide), ex_all]
  show checked (.tacq _ _ _ _) = _
  simp (disch := decide) only [ex_lo, ex_hi, ex_sw, ex_all, Nat.reduceSub]
  exact if_pos hw

theorem trdy (sb : Bool) (a : BitVec 5) : Statement (.trdy sb a) := of_body rfl (by decide) fun hw => by
  show decodeTiles _ _ = _
  rw [decodeTiles, ex_sw _ (by decide), ex_lo _ _ (by decide), ex_all]
  show (if _ then checked (.trdy _ _) else _) = _
  simp (disch := decide) only [ex_lo, ex_hi, ex_sw, ex_all, Nat.reduceSub]
  exact (if_pos (by decide)).trans (if_pos hw)

theorem tdrain (sb : Bool) (a : BitVec 5) : Statement (.tdrain sb a) := of_body rfl (by decide) fun hw => by
  show decodeTiles _ _ = _
  rw [decodeTiles, ex_sw _ (by decide), ex_lo _ _ (by decide), ex_all]
  show (if _ then checked (.tdrain _ _) else _) = _
  simp (disch := decide) only [ex_lo, ex_hi, ex_sw, ex_all, Nat.reduceSub]
  exact (if_pos (by decide)).trans (if_pos hw)

theorem tfree (sb : Bool) (a : BitVec 5) : Statement (.tfree sb a) := of_body rfl (by decide) fun hw => by
  show decodeTiles _ _ = _
  rw [decodeTiles, ex_sw _ (by decide), ex_lo _ _ (by decide), ex_all]
  show (if _ then checked (.tfree _ _) else _) = _
  simp (disch := decide) only [ex_lo, ex_hi, ex_sw, ex_all, Nat.reduceSub]
  exact (if_pos (by decide)).trans (if_pos hw)

theorem tstat (sb : Bool) (d a : BitVec 5) : Statement (.tstat sb d a) := of_body rfl (by decide) fun hw => by
  show decodeTiles _ _ = _
  rw [decodeTiles, ex_sw _ (by decide), ex_lo _ _ (by decide), ex_all]
  show (if _ then checked (.tstat _ _ _) else _) = _
  simp (disch := decide) only [ex_lo, ex_hi, ex_sw, ex_all, Nat.reduceSub]
  exact (if_pos (by decide)).trans (if_pos hw)

theorem rset (sb : Bool) (a b : BitVec 5) : Statement (.rset sb a b) := of_body rfl (by decide) fun hw => by
  show decodeRings _ _ = _
  rw [decodeRings, ex_sw _ (by decide), ex_lo _ _ (by decide), ex_all]
  show (if _ then checked (.rset _ _ _) else _) = _
  simp (disch := decide) only [ex_lo, ex_hi, ex_sw, ex_all, Nat.reduceSub]
  exact (if_pos (by decide)).trans (if_pos hw)

theorem rpush (sb : Bool) (a b : BitVec 5) : Statement (.rpush sb a b) := of_body rfl (by decide) fun hw => by
  show decodeRings _ _ = _
  rw [decodeRings, ex_sw _ (by decide), ex_lo _ _ (by decide), ex_all]
  show (if _ then checked (.rpush _ _ _) else _) = _
  simp (disch := decide) only [ex_lo, ex_hi, ex_sw, ex_all, Nat.reduceSub]
  exact (if_pos (by decide)).trans (if_pos hw)

theorem rpop (sb : Bool) (a : BitVec 5) : Statement (.rpop sb a) := of_body rfl (by decide) fun hw => by
  show decodeRings _ _ = _
  rw [decodeRings, ex_sw _ (by decide), ex_lo _ _ (by decide), ex_all]
  show (if _ then checked (.rpop _ _) else _) = _
  simp (disch := decide) only [ex_lo, ex_hi, ex_sw, ex_all, Nat.reduceSub]
  exact (if_pos (by decide)).trans (if_pos hw)

theorem rstat (sb : Bool) (d a : BitVec 5) : Statement (.rstat sb d a) := of_body rfl (by decide) fun hw => by
  show decodeRings _ _ = _
  rw [decodeRings, ex_sw _ (by decide), ex_lo _ _ (by decide), ex_all]
  show (if _ then checked (.rstat _ _ _) else _) = _
  simp (disch := decide) only [ex_lo, ex_hi, ex_sw, ex_all, Nat.reduceSub]
  exact (if_pos (by decide)).trans (if_pos hw)

theorem amoAdd (sb : Bool) (d a b : BitVec 5) (o : BitVec 2) (w : BitVec 1) : Statement (.amoAdd sb d a b o w) := of_body rfl (by decide) fun hw => by
  show decodeAmo _ _ = _
  simp (disch := decide) only [decodeAmo, ex_lo, ex_hi, ex_sw, ex_all, Nat.reduceSub]
  exact if_pos hw

theorem amoAnd (sb : Bool) (d a b : BitVec 5) (o : BitVec 2) (w : BitVec 1) : Statement (.amoAnd sb d a b o w) := of_body rfl (by decide) fun hw => by
  show decodeAmo _ _ = _
  simp (disch := decide) only [decodeAmo, ex_lo, ex_hi, ex_sw, ex_all, Nat.reduceSub]
  exact if_pos hw

theorem amoOr (sb : Bool) (d a b : BitVec 5) (o : BitVec 2) (w : BitVec 1) : Statement (.amoOr sb d a b o w) := of_body rfl (by decide) fun hw => by
  show decodeAmo _ _ = _
  simp (disch := decide) only [decodeAmo, ex_lo, ex_hi, ex_sw, ex_all, Nat.reduceSub]
  exact if_pos hw

theorem amoXor (sb : Bool) (d a b : BitVec 5) (o : BitVec 2) (w : BitVec 1) : Statement (.amoXor sb d a b o w) := of_body rfl (by decide) fun hw => by
  show decodeAmo _ _ = _
  simp (disch := decide) only [decodeAmo, ex_lo, ex_hi, ex_sw, ex_all, Nat.reduceSub]
  exact if_pos hw

theorem amoMin (sb : Bool) (d a b : BitVec 5) (o : BitVec 2) (w : BitVec 1) : Statement (.amoMin sb d a b o w) := of_body rfl (by decide) fun hw => by
  show decodeAmo _ _ = _
  simp (disch := decide) only [decodeAmo, ex_lo, ex_hi, ex_sw, ex_all, Nat.reduceSub]
  exact if_pos hw

theorem amoMax (sb : Bool) (d a b : BitVec 5) (o : BitVec 2) (w : BitVec 1) : Statement (.amoMax sb d a b o w) := of_body rfl (by decide) fun hw => by
  show decodeAmo _ _ = _
  simp (disch := decide) only [decodeAmo, ex_lo, ex_hi, ex_sw, ex_all, Nat.reduceSub]
  exact if_pos hw

theorem amoMinz (sb : Bool) (d a b : BitVec 5) (o : BitVec 2) (w : BitVec 1) : Statement (.amoMinz sb d a b o w) := of_body rfl (by decide) fun hw => by
  show decodeAmo _ _ = _
  simp (disch := decide) only [decodeAmo, ex_lo, ex_hi, ex_sw, ex_all, Nat.reduceSub]
  exact if_pos hw

theorem amoMaxz (sb : Bool) (d a b : BitVec 5) (o : BitVec 2) (w : BitVec 1) : Statement (.amoMaxz sb d a b o w) := of_body rfl (by decide) fun hw => by
  show decodeAmo _ _ = _
  simp (disch := decide) only [decodeAmo, ex_lo, ex_hi, ex_sw, ex_all, Nat.reduceSub]
  exact if_pos hw

theorem amoSwap (sb : Bool) (d a b : BitVec 5) (o : BitVec 2) (w : BitVec 1) : Statement (.amoSwap sb d a b o w) := of_body rfl (by decide) fun hw => by
  show decodeAmo _ _ = _
  simp (disch := decide) only [decodeAmo, ex_lo, ex_hi, ex_sw, ex_all, Nat.reduceSub]
  exact if_pos hw

theorem amoFadd (sb : Bool) (d a b : BitVec 5) (o : BitVec 2) (w : BitVec 1) : Statement (.amoFadd sb d a b o w) := of_body rfl (by decide) fun hw => by
  show decodeAmo _ _ = _
  simp (disch := decide) only [decodeAmo, ex_lo, ex_hi, ex_sw, ex_all, Nat.reduceSub]
  exact if_pos hw

theorem amoCas (sb : Bool) (d a b c : BitVec 5) (o : BitVec 2) (w : BitVec 1) : Statement (.amoCas sb d a b c o w) := of_body rfl (by decide) fun hw => by
  show (if _ then checked (.amoCas _ _ _ _ _ _ _) else _) = _
  simp (disch := decide) only [ex_lo, ex_hi, ex_sw, ex_all, Nat.reduceSub]
  exact (if_pos (by decide)).trans (if_pos hw)

theorem cadd (sb : Bool) (d a b : BitVec 5) : Statement (.cadd sb d a b) := of_body rfl (by decide) fun hw => by
  show decodeCounters _ _ = _
  rw [decodeCounters, ex_sw _ (by decide), ex_lo _ _ (by decide), ex_all]
  show checked (.cadd _ _ _ _) = _
  simp (disch := decide) only [ex_lo, ex_hi, ex_sw, ex_all, Nat.reduceSub]
  exact if_pos hw

theorem caddRel (sb : Bool) (d a b : BitVec 5) : Statement (.caddRel sb d a b) := of_body rfl (by decide) fun hw => by
  show decodeCounters _ _ = _
  rw [decodeCounters, ex_sw _ (by decide), ex_lo _ _ (by decide), ex_all]
  show checked (.caddRel _ _ _ _) = _
  simp (disch := decide) only [ex_lo, ex_hi, ex_sw, ex_all, Nat.reduceSub]
  exact if_pos hw

theorem grab (sb : Bool) (d a b : BitVec 5) : Statement (.grab sb d a b) := of_body rfl (by decide) fun hw => by
  show decodeCounters _ _ = _
  rw [decodeCounters, ex_sw _ (by decide), ex_lo _ _ (by decide), ex_all]
  show checked (.grab _ _ _ _) = _
  simp (disch := decide) only [ex_lo, ex_hi, ex_sw, ex_all, Nat.reduceSub]
  exact if_pos hw

theorem disarm (sb : Bool) (d a b : BitVec 5) : Statement (.disarm sb d a b) := of_body rfl (by decide) fun hw => by
  show decodeCounters _ _ = _
  rw [decodeCounters, ex_sw _ (by decide), ex_lo _ _ (by decide), ex_all]
  show checked (.disarm _ _ _ _) = _
  simp (disch := decide) only [ex_lo, ex_hi, ex_sw, ex_all, Nat.reduceSub]
  exact if_pos hw

theorem arm (sb : Bool) (d a b c : BitVec 5) : Statement (.arm sb d a b c) := of_body rfl (by decide) fun hw => by
  show (if _ then checked (.arm _ _ _ _ _) else _) = _
  simp (disch := decide) only [ex_lo, ex_hi, ex_sw, ex_all, Nat.reduceSub]
  exact (if_pos (by decide)).trans (if_pos hw)

theorem tbegin (sb : Bool) (d : BitVec 5) : Statement (.tbegin sb d) := of_body rfl (by decide) fun hw => by
  show decodeTransactions _ _ = _
  rw [decodeTransactions, ex_sw _ (by decide), ex_lo _ _ (by decide), ex_all]
  show (if _ then checked (.tbegin _ _) else _) = _
  simp (disch := decide) only [ex_lo, ex_hi, ex_sw, ex_all, Nat.reduceSub]
  exact (if_pos (by decide)).trans (if_pos hw)

theorem tend (sb : Bool) : Statement (.tend sb) := of_body rfl (by decide) fun _ => rfl

theorem otherwise (sb : Bool) : Statement (.otherwise sb) := of_body rfl (by decide) fun _ => rfl

theorem retry (sb : Bool) : Statement (.retry sb) := of_body rfl (by decide) fun _ => rfl

theorem tstatX (sb : Bool) (d : BitVec 5) : Statement (.tstatX sb d) := of_body rfl (by decide) fun hw => by
  show decodeTransactions _ _ = _
  rw [decodeTransactions, ex_sw _ (by decide), ex_lo _ _ (by decide), ex_all]
  show (if _ then checked (.tstatX _ _) else _) = _
  simp (disch := decide) only [ex_lo, ex_hi, ex_sw, ex_all, Nat.reduceSub]
  exact (if_pos (by decide)).trans (if_pos hw)

theorem tabort (sb : Bool) (c : BitVec 8) : Statement (.tabort sb c) := of_body rfl (by decide) fun hw => by
  show (if _ then checked (.tabort _ _) else _) = _
  simp (disch := decide) only [ex_lo, ex_hi, ex_sw, ex_all, Nat.reduceSub]
  exact (if_pos (by decide)).trans (if_pos hw)

theorem waitge (sb : Bool) (d a b : BitVec 5) : Statement (.waitge sb d a b) := of_body rfl (by decide) fun hw => by
  show decodeWaiting _ _ = _
  rw [decodeWaiting, ex_sw _ (by decide), ex_lo _ _ (by decide), ex_all]
  show checked (.waitge _ _ _ _) = _
  simp (disch := decide) only [ex_lo, ex_hi, ex_sw, ex_all, Nat.reduceSub]
  exact if_pos hw

theorem barr (sb : Bool) (d a : BitVec 5) : Statement (.barr sb d a) := of_body rfl (by decide) fun hw => by
  show decodeWaiting _ _ = _
  rw [decodeWaiting, ex_sw _ (by decide), ex_lo _ _ (by decide), ex_all]
  show (if _ then checked (.barr _ _ _) else _) = _
  simp (disch := decide) only [ex_lo, ex_hi, ex_sw, ex_all, Nat.reduceSub]
  exact (if_pos (by decide)).trans (if_pos hw)

theorem bwait (sb : Bool) (a b : BitVec 5) : Statement (.bwait sb a b) := of_body rfl (by decide) fun hw => by
  show decodeWaiting _ _ = _
  rw [decodeWaiting, ex_sw _ (by decide), ex_lo _ _ (by decide), ex_all]
  show (if _ then checked (.bwait _ _ _) else _) = _
  simp (disch := decide) only [ex_lo, ex_hi, ex_sw, ex_all, Nat.reduceSub]
  exact (if_pos (by decide)).trans (if_pos hw)

theorem amsend (sb : Bool) (d a b : BitVec 5) (n : BitVec 3) : Statement (.amsend sb d a b n) := of_body rfl (by decide) fun hw => by
  show (if _ then checked (.amsend _ _ _ _ _) else _) = _
  simp (disch := decide) only [ex_lo, ex_hi, ex_sw, ex_all, Nat.reduceSub]
  exact (if_pos (by decide)).trans (if_pos hw)

theorem amreply (sb : Bool) (b : BitVec 5) (n : BitVec 3) : Statement (.amreply sb b n) := of_body rfl (by decide) fun hw => by
  show decodeTasks _ _ = _
  simp (disch := decide) only [decodeTasks, ex_lo, ex_hi, ex_sw]
  simp [checked, hw]

theorem spawn (sb : Bool) (a : BitVec 5) : Statement (.spawn sb a) := of_body rfl (by decide) fun hw => by
  show decodeTasks _ _ = _
  simp (disch := decide) only [decodeTasks, ex_lo, ex_hi, ex_sw]
  simp [checked, hw]

theorem enq (sb : Bool) (d a b : BitVec 5) : Statement (.enq sb d a b) := of_body rfl (by decide) fun hw => by
  show decodeTasks _ _ = _
  simp (disch := decide) only [decodeTasks, ex_lo, ex_hi, ex_sw]
  simp [checked, hw]

theorem deq (sb : Bool) (d a : BitVec 5) : Statement (.deq sb d a) := of_body rfl (by decide) fun hw => by
  show decodeTasks _ _ = _
  simp (disch := decide) only [decodeTasks, ex_lo, ex_hi, ex_sw]
  simp [checked, hw]

theorem hostpost (sb : Bool) (d a b : BitVec 5) : Statement (.hostpost sb d a b) := of_body rfl (by decide) fun hw => by
  show decodeTasks _ _ = _
  simp (disch := decide) only [decodeTasks, ex_lo, ex_hi, ex_sw]
  simp [checked, hw]

theorem taskid (sb : Bool) (d : BitVec 5) : Statement (.taskid sb d) := of_body rfl (by decide) fun hw => by
  show decodeTasks _ _ = _
  simp (disch := decide) only [decodeTasks, ex_lo, ex_hi, ex_sw]
  simp [checked, hw]

theorem yield (sb : Bool) : Statement (.yield sb) := of_body rfl (by decide) fun _ => rfl

theorem halt (sb : Bool) : Statement (.halt sb) := of_body rfl (by decide) fun _ => rfl

theorem haltK (sb : Bool) (a b : BitVec 5) : Statement (.haltK sb a b) := of_body rfl (by decide) fun hw => by
  show decodeRetirement _ _ = _
  rw [decodeRetirement, ex_sw _ (by decide), ex_lo _ _ (by decide), ex_all]
  show (if _ then checked (.haltK _ _ _) else _) = _
  simp (disch := decide) only [ex_lo, ex_hi, ex_sw, ex_all, Nat.reduceSub]
  exact (if_pos (by decide)).trans (if_pos hw)

theorem tail (sb : Bool) : Statement (.tail sb) := of_body rfl (by decide) fun _ => rfl

theorem go_index (x : BitVec 12) (h5 : x.extractLsb' 7 5 = 1#5) (h0 : x.extractLsb' 0 5 = 15#5) : isGoIndex x = true := by
  have hx : x = x.extractLsb' 7 5 ++ x.extractLsb' 5 2 ++ x.extractLsb' 0 5 := by
    apply BitVec.eq_of_getLsbD_eq
    intro i hi
    simp only [BitVec.getLsbD_append, BitVec.getLsbD_extractLsb']
    split
    · simp [*]
    · split
      · rw [decide_eq_true (by omega), Bool.true_and]
        congr 1
        omega
      · rw [decide_eq_true (by omega), Bool.true_and]
        congr 1
        omega
  rw [hx, h5, h0]
  have : ∀ n : BitVec 2, isGoIndex (1#5 ++ n ++ 15#5) = true := by decide
  exact this _

theorem ctlrd (sb : Bool) (d : BitVec 5) (x : BitVec 12) : Statement (.ctlrd sb d x) := of_body rfl (by decide) fun hw => by
  have go : ¬ (x.extractLsb' 7 5 = 1#5 ∧ x.extractLsb' 0 5 = 15#5) := fun h => by
    have := go_index x h.1 h.2
    simp [Instr.wellFormed, this] at hw
  show decodeControl _ _ = _
  simp (disch := decide) only [decodeControl, ex_lo, ex_hi, ex_sw]
  simp [checked, hw]
  exact fun h5 h0 => absurd ⟨h5, h0⟩ go

theorem ctlwr (sb : Bool) (a : BitVec 5) (x : BitVec 12) : Statement (.ctlwr sb a x) := of_body rfl (by decide) fun hw => by
  show decodeControl _ _ = _
  simp (disch := decide) only [decodeControl, ex_lo, ex_hi, ex_sw]
  simp [checked, hw]

theorem ctlset (sb : Bool) (d a : BitVec 5) (x : BitVec 12) : Statement (.ctlset sb d a x) := of_body rfl (by decide) fun hw => by
  show decodeControl _ _ = _
  simp (disch := decide) only [decodeControl, ex_lo, ex_hi, ex_sw, ex_all, Nat.reduceSub]
  exact if_pos hw

theorem ctlclr (sb : Bool) (d a : BitVec 5) (x : BitVec 12) : Statement (.ctlclr sb d a x) := of_body rfl (by decide) fun hw => by
  show decodeControl _ _ = _
  simp (disch := decide) only [decodeControl, ex_lo, ex_hi, ex_sw, ex_all, Nat.reduceSub]
  exact if_pos hw

theorem cpgoRead (sb : Bool) (d : BitVec 5) (n : BitVec 2) : Statement (.cpgoRead sb d n) := of_body rfl (by decide) fun hw => by
  show decodeControl _ _ = _
  simp (disch := decide) only [decodeControl, ex_lo, ex_hi, ex_sw]
  simp [checked, hw]

theorem eret (sb : Bool) : Statement (.eret sb) := of_body rfl (by decide) fun _ => rfl

theorem ifence (sb : Bool) : Statement (.ifence sb) := of_body rfl (by decide) fun _ => rfl

theorem tlbinv (sb : Bool) (a : BitVec 5) : Statement (.tlbinv sb a) := of_body rfl (by decide) fun hw => by
  show decodeSystem _ _ = _
  rw [decodeSystem, ex_sw _ (by decide), ex_lo _ _ (by decide), ex_all]
  show (if _ then checked (.tlbinv _ _) else _) = _
  simp (disch := decide) only [ex_lo, ex_hi, ex_sw, ex_all, Nat.reduceSub]
  exact (if_pos (by decide)).trans (if_pos hw)

theorem tlbinvAs (sb : Bool) (a : BitVec 5) : Statement (.tlbinvAs sb a) := of_body rfl (by decide) fun hw => by
  show decodeSystem _ _ = _
  rw [decodeSystem, ex_sw _ (by decide), ex_lo _ _ (by decide), ex_all]
  show (if _ then checked (.tlbinvAs _ _) else _) = _
  simp (disch := decide) only [ex_lo, ex_hi, ex_sw, ex_all, Nat.reduceSub]
  exact (if_pos (by decide)).trans (if_pos hw)

theorem perfrd (sb : Bool) (d a : BitVec 5) : Statement (.perfrd sb d a) := of_body rfl (by decide) fun hw => by
  show decodeSystem _ _ = _
  rw [decodeSystem, ex_sw _ (by decide), ex_lo _ _ (by decide), ex_all]
  show (if _ then checked (.perfrd _ _ _) else _) = _
  simp (disch := decide) only [ex_lo, ex_hi, ex_sw, ex_all, Nat.reduceSub]
  exact (if_pos (by decide)).trans (if_pos hw)

theorem brk (sb : Bool) : Statement (.brk sb) := of_body rfl (by decide) fun _ => rfl

theorem trap (sb : Bool) (c : BitVec 12) : Statement (.trap sb c) := of_body rfl (by decide) fun hw => by
  show (if _ then checked (.trap _ _) else _) = _
  simp (disch := decide) only [ex_lo, ex_hi, ex_sw, ex_all, Nat.reduceSub]
  exact (if_pos (by decide)).trans (if_pos hw)

theorem cprec (sb : Bool) (a b : BitVec 5) : Statement (.cprec sb a b) := of_body rfl (by decide) fun hw => by
  show decodeCopy _ _ = _
  rw [decodeCopy, ex_sw _ (by decide), ex_lo _ _ (by decide), ex_all]
  show (if _ then checked (.cprec _ _ _) else _) = _
  simp (disch := decide) only [ex_lo, ex_hi, ex_sw, ex_all, Nat.reduceSub]
  exact (if_pos (by decide)).trans (if_pos hw)

theorem rcfence (sb : Bool) : Statement (.rcfence sb) := of_body rfl (by decide) fun _ => rfl

theorem gather (sb : Bool) (d a b : BitVec 5) : Statement (.gather sb d a b) := of_body rfl (by decide) fun hw => by
  show decodeCopy _ _ = _
  rw [decodeCopy, ex_sw _ (by decide), ex_lo _ _ (by decide), ex_all]
  show checked (.gather _ _ _ _) = _
  simp (disch := decide) only [ex_lo, ex_hi, ex_sw, ex_all, Nat.reduceSub]
  exact if_pos hw

theorem scatter (sb : Bool) (d a b : BitVec 5) : Statement (.scatter sb d a b) := of_body rfl (by decide) fun hw => by
  show decodeCopy _ _ = _
  rw [decodeCopy, ex_sw _ (by decide), ex_lo _ _ (by decide), ex_all]
  show checked (.scatter _ _ _ _) = _
  simp (disch := decide) only [ex_lo, ex_hi, ex_sw, ex_all, Nat.reduceSub]
  exact if_pos hw

theorem cpabort (sb : Bool) (a : BitVec 5) : Statement (.cpabort sb a) := of_body rfl (by decide) fun hw => by
  show decodeCopy _ _ = _
  rw [decodeCopy, ex_sw _ (by decide), ex_lo _ _ (by decide), ex_all]
  show (if _ then checked (.cpabort _ _) else _) = _
  simp (disch := decide) only [ex_lo, ex_hi, ex_sw, ex_all, Nat.reduceSub]
  exact (if_pos (by decide)).trans (if_pos hw)

theorem tlrd (sb : Bool) (d a : BitVec 5) : Statement (.tlrd sb d a) := of_body rfl (by decide) fun hw => by
  show decodeCopy _ _ = _
  rw [decodeCopy, ex_sw _ (by decide), ex_lo _ _ (by decide), ex_all]
  show (if _ then checked (.tlrd _ _ _) else _) = _
  simp (disch := decide) only [ex_lo, ex_hi, ex_sw, ex_all, Nat.reduceSub]
  exact (if_pos (by decide)).trans (if_pos hw)

theorem mldb (sb : Bool) (a b : BitVec 5) : Statement (.mldb sb a b) := of_body rfl (by decide) fun hw => by
  show decodeMatrix _ _ = _
  rw [decodeMatrix, ex_sw _ (by decide), ex_lo _ _ (by decide), ex_all]
  show (if _ then checked (.mldb _ _ _) else _) = _
  simp (disch := decide) only [ex_lo, ex_hi, ex_sw, ex_all, Nat.reduceSub]
  exact (if_pos (by decide)).trans (if_pos hw)

theorem mgang (sb : Bool) (d a b : BitVec 5) : Statement (.mgang sb d a b) := of_body rfl (by decide) fun hw => by
  show decodeMatrix _ _ = _
  rw [decodeMatrix, ex_sw _ (by decide), ex_lo _ _ (by decide), ex_all]
  show checked (.mgang _ _ _ _) = _
  simp (disch := decide) only [ex_lo, ex_hi, ex_sw, ex_all, Nat.reduceSub]
  exact if_pos hw

theorem mflush (sb : Bool) (a : BitVec 5) : Statement (.mflush sb a) := of_body rfl (by decide) fun hw => by
  show decodeMatrix _ _ = _
  rw [decodeMatrix, ex_sw _ (by decide), ex_lo _ _ (by decide), ex_all]
  show (if _ then checked (.mflush _ _) else _) = _
  simp (disch := decide) only [ex_lo, ex_hi, ex_sw, ex_all, Nat.reduceSub]
  exact (if_pos (by decide)).trans (if_pos hw)

theorem mdrain (sb : Bool) : Statement (.mdrain sb) := of_body rfl (by decide) fun _ => rfl

theorem mstat (sb : Bool) (d a : BitVec 5) : Statement (.mstat sb d a) := of_body rfl (by decide) fun hw => by
  show decodeMatrix _ _ = _
  rw [decodeMatrix, ex_sw _ (by decide), ex_lo _ _ (by decide), ex_all]
  show (if _ then checked (.mstat _ _ _) else _) = _
  simp (disch := decide) only [ex_lo, ex_hi, ex_sw, ex_all, Nat.reduceSub]
  exact (if_pos (by decide)).trans (if_pos hw)

theorem mkey (sb : Bool) (d a : BitVec 5) : Statement (.mkey sb d a) := of_body rfl (by decide) fun hw => by
  show decodeMatrix _ _ = _
  rw [decodeMatrix, ex_sw _ (by decide), ex_lo _ _ (by decide), ex_all]
  show (if _ then checked (.mkey _ _ _) else _) = _
  simp (disch := decide) only [ex_lo, ex_hi, ex_sw, ex_all, Nat.reduceSub]
  exact (if_pos (by decide)).trans (if_pos hw)

theorem mms (sb : Bool) (d a b c : BitVec 5) : Statement (.mms sb d a b c) := of_body rfl (by decide) fun hw => by
  show (if _ then checked (.mms _ _ _ _ _) else _) = _
  simp (disch := decide) only [ex_lo, ex_hi, ex_sw, ex_all, Nat.reduceSub]
  exact (if_pos (by decide)).trans (if_pos hw)

theorem wset (sb : Bool) (a b : BitVec 5) : Statement (.wset sb a b) := of_body rfl (by decide) fun hw => by
  show decodeTransfer _ _ = _
  rw [decodeTransfer, ex_sw _ (by decide), ex_lo _ _ (by decide), ex_all]
  show (if _ then checked (.wset _ _ _) else _) = _
  simp (disch := decide) only [ex_lo, ex_hi, ex_sw, ex_all, Nat.reduceSub]
  exact (if_pos (by decide)).trans (if_pos hw)

theorem rstr (sb : Bool) (d a b : BitVec 5) : Statement (.rstr sb d a b) := of_body rfl (by decide) fun hw => by
  show decodeTransfer _ _ = _
  rw [decodeTransfer, ex_sw _ (by decide), ex_lo _ _ (by decide), ex_all]
  show checked (.rstr _ _ _ _) = _
  simp (disch := decide) only [ex_lo, ex_hi, ex_sw, ex_all, Nat.reduceSub]
  exact if_pos hw

theorem rstrF (sb : Bool) (d a b : BitVec 5) : Statement (.rstrF sb d a b) := of_body rfl (by decide) fun hw => by
  show decodeTransfer _ _ = _
  rw [decodeTransfer, ex_sw _ (by decide), ex_lo _ _ (by decide), ex_all]
  show checked (.rstrF _ _ _ _) = _
  simp (disch := decide) only [ex_lo, ex_hi, ex_sw, ex_all, Nat.reduceSub]
  exact if_pos hw

theorem prlg (sb : Bool) (d a b : BitVec 5) : Statement (.prlg sb d a b) := of_body rfl (by decide) fun hw => by
  show decodeTransfer _ _ = _
  rw [decodeTransfer, ex_sw _ (by decide), ex_lo _ _ (by decide), ex_all]
  show checked (.prlg _ _ _ _) = _
  simp (disch := decide) only [ex_lo, ex_hi, ex_sw, ex_all, Nat.reduceSub]
  exact if_pos hw

theorem prlgF (sb : Bool) (d a b : BitVec 5) : Statement (.prlgF sb d a b) := of_body rfl (by decide) fun hw => by
  show decodeTransfer _ _ = _
  rw [decodeTransfer, ex_sw _ (by decide), ex_lo _ _ (by decide), ex_all]
  show checked (.prlgF _ _ _ _) = _
  simp (disch := decide) only [ex_lo, ex_hi, ex_sw, ex_all, Nat.reduceSub]
  exact if_pos hw

theorem xstat (sb : Bool) (d a : BitVec 5) : Statement (.xstat sb d a) := of_body rfl (by decide) fun hw => by
  show decodeTransfer _ _ = _
  rw [decodeTransfer, ex_sw _ (by decide), ex_lo _ _ (by decide), ex_all]
  show (if _ then checked (.xstat _ _ _) else _) = _
  simp (disch := decide) only [ex_lo, ex_hi, ex_sw, ex_all, Nat.reduceSub]
  exact (if_pos (by decide)).trans (if_pos hw)

theorem vadd (sb : Bool) (v a b : BitVec 5) (k t : BitVec 3) : Statement (.vadd sb v a b k t) := of_body rfl (by decide) fun hw => by
  show decodeVecArith _ _ = _
  simp (disch := decide) only [decodeVecArith, ex_lo, ex_hi, ex_sw, ex_all, Nat.reduceSub]
  exact if_pos hw

theorem vsub (sb : Bool) (v a b : BitVec 5) (k t : BitVec 3) : Statement (.vsub sb v a b k t) := of_body rfl (by decide) fun hw => by
  show decodeVecArith _ _ = _
  simp (disch := decide) only [decodeVecArith, ex_lo, ex_hi, ex_sw, ex_all, Nat.reduceSub]
  exact if_pos hw

theorem vmul (sb : Bool) (v a b : BitVec 5) (k t : BitVec 3) : Statement (.vmul sb v a b k t) := of_body rfl (by decide) fun hw => by
  show decodeVecArith _ _ = _
  simp (disch := decide) only [decodeVecArith, ex_lo, ex_hi, ex_sw, ex_all, Nat.reduceSub]
  exact if_pos hw

theorem vdiv (sb : Bool) (v a b : BitVec 5) (k : BitVec 3) (t : BitVec 2) : Statement (.vdiv sb v a b k t) := of_body rfl (by decide) fun hw => by
  show decodeVecArith _ _ = _
  simp (disch := decide) only [decodeVecArith, ex_lo, ex_hi, ex_sw]
  simp [checked, hw]

theorem vmin (sb : Bool) (v a b : BitVec 5) (k t : BitVec 3) : Statement (.vmin sb v a b k t) := of_body rfl (by decide) fun hw => by
  show decodeVecArith _ _ = _
  simp (disch := decide) only [decodeVecArith, ex_lo, ex_hi, ex_sw, ex_all, Nat.reduceSub]
  exact if_pos hw

theorem vmax (sb : Bool) (v a b : BitVec 5) (k t : BitVec 3) : Statement (.vmax sb v a b k t) := of_body rfl (by decide) fun hw => by
  show decodeVecArith _ _ = _
  simp (disch := decide) only [decodeVecArith, ex_lo, ex_hi, ex_sw, ex_all, Nat.reduceSub]
  exact if_pos hw

theorem vabs (sb : Bool) (v a : BitVec 5) (k t : BitVec 3) : Statement (.vabs sb v a k t) := of_body rfl (by decide) fun hw => by
  show decodeVecArith _ _ = _
  simp (disch := decide) only [decodeVecArith, ex_lo, ex_hi, ex_sw]
  simp [checked, hw]

theorem vneg (sb : Bool) (v a : BitVec 5) (k t : BitVec 3) : Statement (.vneg sb v a k t) := of_body rfl (by decide) fun hw => by
  show decodeVecArith _ _ = _
  simp (disch := decide) only [decodeVecArith, ex_lo, ex_hi, ex_sw]
  simp [checked, hw]

theorem vsqrt (sb : Bool) (v a : BitVec 5) (k : BitVec 3) (t : BitVec 2) : Statement (.vsqrt sb v a k t) := of_body rfl (by decide) fun hw => by
  show decodeVecArith _ _ = _
  simp (disch := decide) only [decodeVecArith, ex_lo, ex_hi, ex_sw]
  simp [checked, hw]

theorem vexp2 (sb : Bool) (v a : BitVec 5) (k : BitVec 3) (t : BitVec 2) : Statement (.vexp2 sb v a k t) := of_body rfl (by decide) fun hw => by
  show decodeVecArith _ _ = _
  simp (disch := decide) only [decodeVecArith, ex_lo, ex_hi, ex_sw]
  simp [checked, hw]

theorem vfma (sb : Bool) (v a b : BitVec 5) (k t : BitVec 3) : Statement (.vfma sb v a b k t) := of_body rfl (by decide) fun hw => by
  show decodeVecFused _ _ = _
  simp (disch := decide) only [decodeVecFused, ex_lo, ex_hi, ex_sw, ex_all, Nat.reduceSub]
  exact if_pos hw

theorem vredsum (sb : Bool) (v a : BitVec 5) (k t : BitVec 3) : Statement (.vredsum sb v a k t) := of_body rfl (by decide) fun hw => by
  show decodeVecFused _ _ = _
  simp (disch := decide) only [decodeVecFused, ex_lo, ex_hi, ex_sw]
  simp [checked, hw]

theorem vredmax (sb : Bool) (v a : BitVec 5) (k t : BitVec 3) : Statement (.vredmax sb v a k t) := of_body rfl (by decide) fun hw => by
  show decodeVecFused _ _ = _
  simp (disch := decide) only [decodeVecFused, ex_lo, ex_hi, ex_sw]
  simp [checked, hw]

theorem vredmin (sb : Bool) (v a : BitVec 5) (k t : BitVec 3) : Statement (.vredmin sb v a k t) := of_body rfl (by decide) fun hw => by
  show decodeVecFused _ _ = _
  simp (disch := decide) only [decodeVecFused, ex_lo, ex_hi, ex_sw]
  simp [checked, hw]

theorem vdot (sb : Bool) (v a b : BitVec 5) (k t : BitVec 3) : Statement (.vdot sb v a b k t) := of_body rfl (by decide) fun hw => by
  show decodeVecFused _ _ = _
  simp (disch := decide) only [decodeVecFused, ex_lo, ex_hi, ex_sw, ex_all, Nat.reduceSub]
  exact if_pos hw

theorem vand (sb : Bool) (v a b : BitVec 5) (k : BitVec 3) (t : BitVec 2) : Statement (.vand sb v a b k t) := of_body rfl (by decide) fun hw => by
  show decodeVecLogic _ _ = _
  simp (disch := decide) only [decodeVecLogic, ex_lo, ex_hi, ex_sw]
  simp [checked, hw]

theorem vor (sb : Bool) (v a b : BitVec 5) (k : BitVec 3) (t : BitVec 2) : Statement (.vor sb v a b k t) := of_body rfl (by decide) fun hw => by
  show decodeVecLogic _ _ = _
  simp (disch := decide) only [decodeVecLogic, ex_lo, ex_hi, ex_sw]
  simp [checked, hw]

theorem vxor (sb : Bool) (v a b : BitVec 5) (k : BitVec 3) (t : BitVec 2) : Statement (.vxor sb v a b k t) := of_body rfl (by decide) fun hw => by
  show decodeVecLogic _ _ = _
  simp (disch := decide) only [decodeVecLogic, ex_lo, ex_hi, ex_sw]
  simp [checked, hw]

theorem vshl (sb : Bool) (v a b : BitVec 5) (k : BitVec 3) (t : BitVec 2) : Statement (.vshl sb v a b k t) := of_body rfl (by decide) fun hw => by
  show decodeVecLogic _ _ = _
  simp (disch := decide) only [decodeVecLogic, ex_lo, ex_hi, ex_sw]
  simp [checked, hw]

theorem vshr (sb : Bool) (v a b : BitVec 5) (k : BitVec 3) (t : BitVec 2) : Statement (.vshr sb v a b k t) := of_body rfl (by decide) fun hw => by
  show decodeVecLogic _ _ = _
  simp (disch := decide) only [decodeVecLogic, ex_lo, ex_hi, ex_sw]
  simp [checked, hw]

theorem vperm (sb : Bool) (v a b : BitVec 5) (k t : BitVec 3) : Statement (.vperm sb v a b k t) := of_body rfl (by decide) fun hw => by
  show decodeVecLogic _ _ = _
  simp (disch := decide) only [decodeVecLogic, ex_lo, ex_hi, ex_sw, ex_all, Nat.reduceSub]
  exact if_pos hw

theorem vbcast (sb : Bool) (v a : BitVec 5) (k t : BitVec 3) : Statement (.vbcast sb v a k t) := of_body rfl (by decide) fun hw => by
  show decodeVecLogic _ _ = _
  simp (disch := decide) only [decodeVecLogic, ex_lo, ex_hi, ex_sw]
  simp [checked, hw]

theorem vslide (sb : Bool) (v a b : BitVec 5) (k t : BitVec 3) : Statement (.vslide sb v a b k t) := of_body rfl (by decide) fun hw => by
  show decodeVecLogic _ _ = _
  simp (disch := decide) only [decodeVecLogic, ex_lo, ex_hi, ex_sw, ex_all, Nat.reduceSub]
  exact if_pos hw

theorem vcompress (sb : Bool) (v a : BitVec 5) (k t : BitVec 3) : Statement (.vcompress sb v a k t) := of_body rfl (by decide) fun hw => by
  show decodeVecLogic _ _ = _
  simp (disch := decide) only [decodeVecLogic, ex_lo, ex_hi, ex_sw]
  simp [checked, hw]

theorem vexpand (sb : Bool) (v a : BitVec 5) (k t : BitVec 3) : Statement (.vexpand sb v a k t) := of_body rfl (by decide) fun hw => by
  show decodeVecLogic _ _ = _
  simp (disch := decide) only [decodeVecLogic, ex_lo, ex_hi, ex_sw]
  simp [checked, hw]

theorem vsel (sb : Bool) (v a b : BitVec 5) (k t : BitVec 3) : Statement (.vsel sb v a b k t) := of_body rfl (by decide) fun hw => by
  show decodeVecLogic _ _ = _
  simp (disch := decide) only [decodeVecLogic, ex_lo, ex_hi, ex_sw, ex_all, Nat.reduceSub]
  exact if_pos hw

theorem vcmpEq (sb : Bool) (d : BitVec 3) (a b : BitVec 5) (k t : BitVec 3) : Statement (.vcmpEq sb d a b k t) := of_body rfl (by decide) fun hw => by
  show decodeVecCompare _ _ = _
  simp (disch := decide) only [decodeVecCompare, ex_lo, ex_hi, ex_sw]
  simp [checked, hw]

theorem vcmpNe (sb : Bool) (d : BitVec 3) (a b : BitVec 5) (k t : BitVec 3) : Statement (.vcmpNe sb d a b k t) := of_body rfl (by decide) fun hw => by
  show decodeVecCompare _ _ = _
  simp (disch := decide) only [decodeVecCompare, ex_lo, ex_hi, ex_sw]
  simp [checked, hw]

theorem vcmpLt (sb : Bool) (d : BitVec 3) (a b : BitVec 5) (k t : BitVec 3) : Statement (.vcmpLt sb d a b k t) := of_body rfl (by decide) fun hw => by
  show decodeVecCompare _ _ = _
  simp (disch := decide) only [decodeVecCompare, ex_lo, ex_hi, ex_sw]
  simp [checked, hw]

theorem vcmpGe (sb : Bool) (d : BitVec 3) (a b : BitVec 5) (k t : BitVec 3) : Statement (.vcmpGe sb d a b k t) := of_body rfl (by decide) fun hw => by
  show decodeVecCompare _ _ = _
  simp (disch := decide) only [decodeVecCompare, ex_lo, ex_hi, ex_sw]
  simp [checked, hw]

theorem vcmpLe (sb : Bool) (d : BitVec 3) (a b : BitVec 5) (k t : BitVec 3) : Statement (.vcmpLe sb d a b k t) := of_body rfl (by decide) fun hw => by
  show decodeVecCompare _ _ = _
  simp (disch := decide) only [decodeVecCompare, ex_lo, ex_hi, ex_sw]
  simp [checked, hw]

theorem vcmpGt (sb : Bool) (d : BitVec 3) (a b : BitVec 5) (k t : BitVec 3) : Statement (.vcmpGt sb d a b k t) := of_body rfl (by decide) fun hw => by
  show decodeVecCompare _ _ = _
  simp (disch := decide) only [decodeVecCompare, ex_lo, ex_hi, ex_sw]
  simp [checked, hw]

theorem kand (sb : Bool) (d a b : BitVec 3) : Statement (.kand sb d a b) := of_body rfl (by decide) fun hw => by
  show decodeVecCompare _ _ = _
  simp (disch := decide) only [decodeVecCompare, ex_lo, ex_hi, ex_sw]
  simp [checked, hw]

theorem kor (sb : Bool) (d a b : BitVec 3) : Statement (.kor sb d a b) := of_body rfl (by decide) fun hw => by
  show decodeVecCompare _ _ = _
  simp (disch := decide) only [decodeVecCompare, ex_lo, ex_hi, ex_sw]
  simp [checked, hw]

theorem knot (sb : Bool) (d a : BitVec 3) : Statement (.knot sb d a) := of_body rfl (by decide) fun hw => by
  show decodeVecCompare _ _ = _
  simp (disch := decide) only [decodeVecCompare, ex_lo, ex_hi, ex_sw]
  simp [checked, hw]

theorem kpop (sb : Bool) (d : BitVec 5) (a : BitVec 3) : Statement (.kpop sb d a) := of_body rfl (by decide) fun hw => by
  show decodeVecCompare _ _ = _
  simp (disch := decide) only [decodeVecCompare, ex_lo, ex_hi, ex_sw]
  simp [checked, hw]

theorem vcvt (sb : Bool) (v a b : BitVec 5) (k t : BitVec 3) : Statement (.vcvt sb v a b k t) := of_body rfl (by decide) fun hw => by
  show decodeVecConvert _ _ = _
  simp (disch := decide) only [decodeVecConvert, ex_lo, ex_hi, ex_sw, ex_all, Nat.reduceSub]
  exact if_pos hw

theorem vcvtFp8 (sb : Bool) (v a : BitVec 5) (e : BitVec 1) (k : BitVec 3) (t : BitVec 2) : Statement (.vcvtFp8 sb v a e k t) := of_body rfl (by decide) fun hw => by
  show decodeVecConvert _ _ = _
  simp (disch := decide) only [decodeVecConvert, ex_lo, ex_hi, ex_sw]
  simp [checked, hw]

theorem vqpack (sb : Bool) (v a q : BitVec 5) (k : BitVec 3) (t : BitVec 2) : Statement (.vqpack sb v a q k t) := of_body rfl (by decide) fun hw => by
  show decodeVecConvert _ _ = _
  simp (disch := decide) only [decodeVecConvert, ex_lo, ex_hi, ex_sw, ex_all, Nat.reduceSub]
  exact if_pos hw

theorem vqunpack (sb : Bool) (v a q : BitVec 5) (k : BitVec 3) (t : BitVec 2) : Statement (.vqunpack sb v a q k t) := of_body rfl (by decide) fun hw => by
  show decodeVecConvert _ _ = _
  simp (disch := decide) only [decodeVecConvert, ex_lo, ex_hi, ex_sw, ex_all, Nat.reduceSub]
  exact if_pos hw

theorem vld (sb : Bool) (v a : BitVec 5) (k t : BitVec 3) : Statement (.vld sb v a k t) := of_body rfl (by decide) fun hw => by
  show decodeVecMemory _ _ = _
  simp (disch := decide) only [decodeVecMemory, ex_lo, ex_hi, ex_sw]
  simp [checked, hw]

theorem vst (sb : Bool) (v a : BitVec 5) (k t : BitVec 3) : Statement (.vst sb v a k t) := of_body rfl (by decide) fun hw => by
  show decodeVecMemory _ _ = _
  simp (disch := decide) only [decodeVecMemory, ex_lo, ex_hi, ex_sw]
  simp [checked, hw]

theorem vlds (sb : Bool) (v a b : BitVec 5) (k t : BitVec 3) : Statement (.vlds sb v a b k t) := of_body rfl (by decide) fun hw => by
  show decodeVecMemory _ _ = _
  simp (disch := decide) only [decodeVecMemory, ex_lo, ex_hi, ex_sw, ex_all, Nat.reduceSub]
  exact if_pos hw

theorem vsts (sb : Bool) (v a b : BitVec 5) (k t : BitVec 3) : Statement (.vsts sb v a b k t) := of_body rfl (by decide) fun hw => by
  show decodeVecMemory _ _ = _
  simp (disch := decide) only [decodeVecMemory, ex_lo, ex_hi, ex_sw, ex_all, Nat.reduceSub]
  exact if_pos hw

theorem vldx (sb : Bool) (v a b : BitVec 5) (k t : BitVec 3) : Statement (.vldx sb v a b k t) := of_body rfl (by decide) fun hw => by
  show decodeVecMemory _ _ = _
  simp (disch := decide) only [decodeVecMemory, ex_lo, ex_hi, ex_sw, ex_all, Nat.reduceSub]
  exact if_pos hw

theorem vstx (sb : Bool) (v a b : BitVec 5) (k t : BitVec 3) : Statement (.vstx sb v a b k t) := of_body rfl (by decide) fun hw => by
  show decodeVecMemory _ _ = _
  simp (disch := decide) only [decodeVecMemory, ex_lo, ex_hi, ex_sw, ex_all, Nat.reduceSub]
  exact if_pos hw

theorem fadd (sb : Bool) (d a b : BitVec 5) (f : BitVec 2) : Statement (.fadd sb d a b f) := of_body rfl (by decide) fun hw => by
  show decodeScalarFp _ _ = _
  simp (disch := decide) only [decodeScalarFp, ex_lo, ex_hi, ex_sw, ex_all, Nat.reduceSub]
  exact if_pos hw

theorem fsub (sb : Bool) (d a b : BitVec 5) (f : BitVec 2) : Statement (.fsub sb d a b f) := of_body rfl (by decide) fun hw => by
  show decodeScalarFp _ _ = _
  simp (disch := decide) only [decodeScalarFp, ex_lo, ex_hi, ex_sw, ex_all, Nat.reduceSub]
  exact if_pos hw

theorem fmul (sb : Bool) (d a b : BitVec 5) (f : BitVec 2) : Statement (.fmul sb d a b f) := of_body rfl (by decide) fun hw => by
  show decodeScalarFp _ _ = _
  simp (disch := decide) only [decodeScalarFp, ex_lo, ex_hi, ex_sw, ex_all, Nat.reduceSub]
  exact if_pos hw

theorem fdiv (sb : Bool) (d a b : BitVec 5) (f : BitVec 2) : Statement (.fdiv sb d a b f) := of_body rfl (by decide) fun hw => by
  show decodeScalarFp _ _ = _
  simp (disch := decide) only [decodeScalarFp, ex_lo, ex_hi, ex_sw, ex_all, Nat.reduceSub]
  exact if_pos hw

theorem fsqrt (sb : Bool) (d a : BitVec 5) (f : BitVec 2) : Statement (.fsqrt sb d a f) := of_body rfl (by decide) fun hw => by
  show decodeScalarFp _ _ = _
  simp (disch := decide) only [decodeScalarFp, ex_lo, ex_hi, ex_sw, ex_all, Nat.reduceSub]
  exact if_pos hw

theorem fmin (sb : Bool) (d a b : BitVec 5) (f : BitVec 2) : Statement (.fmin sb d a b f) := of_body rfl (by decide) fun hw => by
  show decodeScalarFp _ _ = _
  simp (disch := decide) only [decodeScalarFp, ex_lo, ex_hi, ex_sw, ex_all, Nat.reduceSub]
  exact if_pos hw

theorem fmax (sb : Bool) (d a b : BitVec 5) (f : BitVec 2) : Statement (.fmax sb d a b f) := of_body rfl (by decide) fun hw => by
  show decodeScalarFp _ _ = _
  simp (disch := decide) only [decodeScalarFp, ex_lo, ex_hi, ex_sw, ex_all, Nat.reduceSub]
  exact if_pos hw

theorem fcmpEq (sb : Bool) (d a b : BitVec 5) (f : BitVec 2) : Statement (.fcmpEq sb d a b f) := of_body rfl (by decide) fun hw => by
  show decodeScalarFp _ _ = _
  simp (disch := decide) only [decodeScalarFp, ex_lo, ex_hi, ex_sw, ex_all, Nat.reduceSub]
  exact if_pos hw

theorem fcmpLt (sb : Bool) (d a b : BitVec 5) (f : BitVec 2) : Statement (.fcmpLt sb d a b f) := of_body rfl (by decide) fun hw => by
  show decodeScalarFp _ _ = _
  simp (disch := decide) only [decodeScalarFp, ex_lo, ex_hi, ex_sw, ex_all, Nat.reduceSub]
  exact if_pos hw

theorem fcmpLe (sb : Bool) (d a b : BitVec 5) (f : BitVec 2) : Statement (.fcmpLe sb d a b f) := of_body rfl (by decide) fun hw => by
  show decodeScalarFp _ _ = _
  simp (disch := decide) only [decodeScalarFp, ex_lo, ex_hi, ex_sw, ex_all, Nat.reduceSub]
  exact if_pos hw

theorem fcvt (sb : Bool) (d a b : BitVec 5) (f : BitVec 2) : Statement (.fcvt sb d a b f) := of_body rfl (by decide) fun hw => by
  show decodeScalarFp _ _ = _
  simp (disch := decide) only [decodeScalarFp, ex_lo, ex_hi, ex_sw, ex_all, Nat.reduceSub]
  exact if_pos hw

theorem fcvtInt (sb : Bool) (d a : BitVec 5) (b : BitVec 1) (f : BitVec 2) : Statement (.fcvtInt sb d a b f) := of_body rfl (by decide) fun hw => by
  show decodeScalarFp _ _ = _
  simp (disch := decide) only [decodeScalarFp, ex_lo, ex_hi, ex_sw, ex_all, Nat.reduceSub]
  exact if_pos hw

theorem fclass (sb : Bool) (d a : BitVec 5) (f : BitVec 2) : Statement (.fclass sb d a f) := of_body rfl (by decide) fun hw => by
  show decodeScalarFp _ _ = _
  simp (disch := decide) only [decodeScalarFp, ex_lo, ex_hi, ex_sw, ex_all, Nat.reduceSub]
  exact if_pos hw

theorem fsgnj (sb : Bool) (d a b : BitVec 5) (f : BitVec 2) : Statement (.fsgnj sb d a b f) := of_body rfl (by decide) fun hw => by
  show decodeScalarFp _ _ = _
  simp (disch := decide) only [decodeScalarFp, ex_lo, ex_hi, ex_sw, ex_all, Nat.reduceSub]
  exact if_pos hw

theorem fmvx (sb : Bool) (d a : BitVec 5) (f : BitVec 2) : Statement (.fmvx sb d a f) := of_body rfl (by decide) fun hw => by
  show decodeScalarFp _ _ = _
  simp (disch := decide) only [decodeScalarFp, ex_lo, ex_hi, ex_sw, ex_all, Nat.reduceSub]
  exact if_pos hw

theorem fmvf (sb : Bool) (d a : BitVec 5) (f : BitVec 2) : Statement (.fmvf sb d a f) := of_body rfl (by decide) fun hw => by
  show decodeScalarFp _ _ = _
  simp (disch := decide) only [decodeScalarFp, ex_lo, ex_hi, ex_sw, ex_all, Nat.reduceSub]
  exact if_pos hw

theorem fma (sb : Bool) (d a b c : BitVec 5) (f : BitVec 2) : Statement (.fma sb d a b c f) := of_body rfl (by decide) fun hw => by
  show (if _ then checked (.fma _ _ _ _ _ _) else _) = _
  simp (disch := decide) only [ex_lo, ex_hi, ex_sw, ex_all, Nat.reduceSub]
  exact (if_pos (by decide)).trans (if_pos hw)

theorem illegalInstruction : Statement (.illegalInstruction) := fun _ _ h => nomatch h

theorem homeAtomicApply : Statement (.homeAtomicApply) := fun _ _ h => nomatch h

theorem homeArmApply : Statement (.homeArmApply) := fun _ _ h => nomatch h

theorem homeDisarmApply : Statement (.homeDisarmApply) := fun _ _ h => nomatch h

theorem homeWrite : Statement (.homeWrite) := fun _ _ h => nomatch h

theorem triggerMessageSend : Statement (.triggerMessageSend) := fun _ _ h => nomatch h

theorem triggerMessageStatus : Statement (.triggerMessageStatus) := fun _ _ h => nomatch h

theorem triggerResend : Statement (.triggerResend) := fun _ _ h => nomatch h

theorem homeWaitgeEval : Statement (.homeWaitgeEval) := fun _ _ h => nomatch h

theorem conflictBackoffExpiry : Statement (.conflictBackoffExpiry) := fun _ _ h => nomatch h

theorem tokenGrant : Statement (.tokenGrant) := fun _ _ h => nomatch h

theorem messageArrival : Statement (.messageArrival) := fun _ _ h => nomatch h

theorem amsendStatusReturn : Statement (.amsendStatusReturn) := fun _ _ h => nomatch h

theorem replyResend : Statement (.replyResend) := fun _ _ h => nomatch h

theorem homeQueueApply : Statement (.homeQueueApply) := fun _ _ h => nomatch h

theorem retirementEntryFree : Statement (.retirementEntryFree) := fun _ _ h => nomatch h

theorem xboundWrite : Statement (.xboundWrite) := fun _ _ h => nomatch h

theorem tlbaseWrite : Statement (.tlbaseWrite) := fun _ _ h => nomatch h

theorem dispthWrite : Statement (.dispthWrite) := fun _ _ h => nomatch h

theorem mbdepthWrite : Statement (.mbdepthWrite) := fun _ _ h => nomatch h

theorem loopRegisterWrite : Statement (.loopRegisterWrite) := fun _ _ h => nomatch h

theorem tpcWrite : Statement (.tpcWrite) := fun _ _ h => nomatch h

theorem trapEntry : Statement (.trapEntry) := fun _ _ h => nomatch h

theorem copyOperationStart : Statement (.copyOperationStart) := fun _ _ h => nomatch h

theorem gatherSublistService : Statement (.gatherSublistService) := fun _ _ h => nomatch h

theorem copyRetire : Statement (.copyRetire) := fun _ _ h => nomatch h

theorem bufferGLoad : Statement (.bufferGLoad) := fun _ _ h => nomatch h

theorem holdExpiry : Statement (.holdExpiry) := fun _ _ h => nomatch h

theorem arraySelect : Statement (.arraySelect) := fun _ _ h => nomatch h

theorem stationaryImageRead : Statement (.stationaryImageRead) := fun _ _ h => nomatch h

theorem memberRetire : Statement (.memberRetire) := fun _ _ h => nomatch h

theorem transferOperationStart : Statement (.transferOperationStart) := fun _ _ h => nomatch h

theorem transferRetire : Statement (.transferRetire) := fun _ _ h => nomatch h

theorem resultArrival : Statement (.resultArrival) := fun _ _ h => nomatch h

theorem contextWake : Statement (.contextWake) := fun _ _ h => nomatch h

theorem taskStart : Statement (.taskStart) := fun _ _ h => nomatch h

theorem handlerStart : Statement (.handlerStart) := fun _ _ h => nomatch h

theorem recordPromotion : Statement (.recordPromotion) := fun _ _ h => nomatch h

theorem stealProbeQuad : Statement (.stealProbeQuad) := fun _ _ h => nomatch h

theorem stealProbeLayer : Statement (.stealProbeLayer) := fun _ _ h => nomatch h

theorem stealProbeReply : Statement (.stealProbeReply) := fun _ _ h => nomatch h

theorem pageWalk : Statement (.pageWalk) := fun _ _ h => nomatch h

theorem blockPromotion : Statement (.blockPromotion) := fun _ _ h => nomatch h

theorem blockEviction : Statement (.blockEviction) := fun _ _ h => nomatch h

theorem bankPowerUp : Statement (.bankPowerUp) := fun _ _ h => nomatch h

theorem timerExpiry : Statement (.timerExpiry) := fun _ _ h => nomatch h

theorem partitionHalted : Statement (.partitionHalted) := fun _ _ h => nomatch h

theorem preemptReport : Statement (.preemptReport) := fun _ _ h => nomatch h

theorem hostMemoryAccess : Statement (.hostMemoryAccess) := fun _ _ h => nomatch h

theorem hostSnoop : Statement (.hostSnoop) := fun _ _ h => nomatch h

theorem modidWrite : Statement (.modidWrite) := fun _ _ h => nomatch h

theorem doorbell : Statement (.doorbell) := fun _ _ h => nomatch h

theorem fqansResume : Statement (.fqansResume) := fun _ _ h => nomatch h

theorem fqansDecline : Statement (.fqansDecline) := fun _ _ h => nomatch h

theorem fqansKill : Statement (.fqansKill) := fun _ _ h => nomatch h

theorem fqctlWrite : Statement (.fqctlWrite) := fun _ _ h => nomatch h

theorem aqctlEnable : Statement (.aqctlEnable) := fun _ _ h => nomatch h

theorem aqctlDisable : Statement (.aqctlDisable) := fun _ _ h => nomatch h

theorem hostRegisterWrite : Statement (.hostRegisterWrite) := fun _ _ h => nomatch h

theorem vectorUnmask : Statement (.vectorUnmask) := fun _ _ h => nomatch h

theorem coalesceTimerExpiry : Statement (.coalesceTimerExpiry) := fun _ _ h => nomatch h

theorem cpEventDispatch : Statement (.cpEventDispatch) := fun _ _ h => nomatch h

theorem entryFetch : Statement (.entryFetch) := fun _ _ h => nomatch h

theorem launch : Statement (.launch) := fun _ _ h => nomatch h

theorem launchPlacementResume : Statement (.launchPlacementResume) := fun _ _ h => nomatch h

theorem launchQuadFree : Statement (.launchQuadFree) := fun _ _ h => nomatch h

theorem launchComplete : Statement (.launchComplete) := fun _ _ h => nomatch h

theorem marker : Statement (.marker) := fun _ _ h => nomatch h

theorem form : Statement (.form) := fun _ _ h => nomatch h

theorem dissolve : Statement (.dissolve) := fun _ _ h => nomatch h

theorem preempt : Statement (.preempt) := fun _ _ h => nomatch h

theorem resume : Statement (.resume) := fun _ _ h => nomatch h

theorem switchOut : Statement (.switchOut) := fun _ _ h => nomatch h

theorem switchIn : Statement (.switchIn) := fun _ _ h => nomatch h

theorem setPasid : Statement (.setPasid) := fun _ _ h => nomatch h

theorem teardown : Statement (.teardown) := fun _ _ h => nomatch h

theorem teardownComplete : Statement (.teardownComplete) := fun _ _ h => nomatch h

theorem bindQueue : Statement (.bindQueue) := fun _ _ h => nomatch h

theorem setTimer : Statement (.setTimer) := fun _ _ h => nomatch h

theorem setRelease : Statement (.setRelease) := fun _ _ h => nomatch h

theorem join : Statement (.join) := fun _ _ h => nomatch h

theorem faultRecordPost : Statement (.faultRecordPost) := fun _ _ h => nomatch h

theorem railSample : Statement (.railSample) := fun _ _ h => nomatch h

theorem budgetRedivision : Statement (.budgetRedivision) := fun _ _ h => nomatch h

theorem operatingPointStep : Statement (.operatingPointStep) := fun _ _ h => nomatch h

theorem capMessage : Statement (.capMessage) := fun _ _ h => nomatch h

theorem capLeaseExpiry : Statement (.capLeaseExpiry) := fun _ _ h => nomatch h

theorem setPartitionCap : Statement (.setPartitionCap) := fun _ _ h => nomatch h

theorem setModuleCap : Statement (.setModuleCap) := fun _ _ h => nomatch h

theorem setPartitionRank : Statement (.setPartitionRank) := fun _ _ h => nomatch h

theorem setSafeCap : Statement (.setSafeCap) := fun _ _ h => nomatch h

theorem patrolScrub : Statement (.patrolScrub) := fun _ _ h => nomatch h

theorem quarterFailure : Statement (.quarterFailure) := fun _ _ h => nomatch h

theorem recordModeEnable : Statement (.recordModeEnable) := fun _ _ h => nomatch h

theorem replay : Statement (.replay) := fun _ _ h => nomatch h

theorem reset : Statement (.reset) := fun _ _ h => nomatch h

theorem firmwareUpdate : Statement (.firmwareUpdate) := fun _ _ h => nomatch h

theorem spdmRequest : Statement (.spdmRequest) := fun _ _ h => nomatch h

theorem cacheLineEviction : Statement (.cacheLineEviction) := fun _ _ h => nomatch h

end Sys2Proof.Laws.Encoding
end

