-- ==== Sys2Proof/Laws/Trap.lean ====
section
/-! SUPPORT. What issuing an access and taking a trap do. -/

namespace Sys2Proof.Machine

/-- An access that joins the outstanding ones as the context goes on. -/
theorem State.issue_out (s : State) (op : OutOp) (dsts : List Dst) (pure acq rel : Bool) (ans : Option Ans) (vsize : Nat) :
    issuesOut s (s.onMe fun c => (c.issue op dsts pure acq rel ans vsize).advance)
      { seq := s.me.nextSeq, pc := s.me.pc, op, dsts := dsts.filter fun d => d != .x 0, ans, acq, rel, pure, vsize } := by
  refine ⟨State.onMe_onlyMe _ _, ?_, rfl, rfl, ?_⟩
  · simp only [State.onMe_me]
    intro h0 h1
    exact Ctx.advance_pc (s.me.issue op dsts pure acq rel ans vsize) h0 h1
  · simp only [State.onMe_me]
    exact Ctx.advance_frame (s.me.issue op dsts pure acq rel ans vsize)

/-- With nothing outstanding, everything that a test wants is performed. -/
theorem State.require_nil (s : State) (k : Nat) (want : Out → Bool) (h : (s.ctx k).outs = []) : s.require k want = (s, true) := by
  simp [State.require, h, neededOuts, State.performList]

/-- A context with nothing outstanding is settled. -/
theorem Ctx.settled (c : Ctx) (h : c.outs = []) (hl : c.later = []) : c.deliverAll.settleLater = c := by
  cases c
  simp only at h hl
  subst h hl
  rfl

/-- With nothing outstanding a settle point finds its context as it is. -/
theorem State.settle_nil (s : State) (k : Nat) (h : (s.ctx k).outs = []) (hl : (s.ctx k).later = []) :
    s.settle k = (s.onCtx k id, true) := by
  unfold State.settle
  rw [State.require_nil s k _ h]
  simp only [State.onCtx, Ctx.settled _ h hl, id]

/-- With nothing outstanding a cause finds its context as it is, in a replay or out of one. -/
theorem State.settleCause_nil (s : State) (k : Nat) (h : (s.ctx k).outs = []) (hl : (s.ctx k).later = []) :
    s.settleCause k = (s.onCtx k id, true) := by
  unfold State.settleCause
  split
  · rw [State.require_nil s k _ h]
    simp [State.onCtx, Ctx.deliverReady, h]
  · exact State.settle_nil s k h hl

/-- A gate that is passed is open (R211, R328, R366, R384). -/
theorem State.openGate_passed (s : State) (g : Gate) (h : s.passed g) : s.openGate g = (s, true) := by
  cases g with
  | none => rfl
  | some p =>
    obtain ⟨ho, ht⟩ := h p rfl
    have hn : (s.ctx p.1).outs.any (Out.opens p) = false := List.any_eq_false.2 fun o hm => by simp [ho o hm]
    simp [State.openGate, hn, ht]

/-- What comes after gates that are all passed is done at once. -/
theorem State.pastGates_passed (s : State) (gs : List Gate) (f : State → State) (h : ∀ g ∈ gs, s.passed g) : s.pastGates gs f = f s := by
  have e : s.openGates gs = (s, true) := by
    unfold State.openGates
    induction gs with
    | nil => rfl
    | cons g t ih =>
      simp only [List.foldl_cons, State.openGate_passed s g (h g (by simp)), Bool.and_self]
      exact ih fun g hg => h g (by simp [hg])
  simp [State.pastGates, e]

/-- No gate, nothing to wait for. -/
theorem State.passed_none (s : State) : s.passed none := fun _ h => nomatch h

/-- A context that is as it was. -/
theorem State.onCtx_id_ctx (s : State) (k j : Nat) : (s.onCtx k id).ctx j = s.ctx j := by
  by_cases h : j = k
  · subst h; simp
  · simp [h]

/-- A cause that nothing stands in the way of is entered. -/
theorem State.takeCause_enters (s : State) (k code : Nat) (tval ret : Word) (hc : asyncCode code = false)
    (hd : (s.ctx k).deferred = none) (hcy : (s.ctx k).carry = none) (ha : (s.ctx k).attempt = none)
    (ht : (s.ctx k).ctl.tvec.getLsbD 0 = true) (hi : (s.ctx k).ctl.intrap = false) :
    s.takeCause k code 0 tval ret = s.onCtx k fun c => c.enter code 0 tval ret := by
  simp only [State.takeCause, State.takePending, hd, hcy, Ctx.openAttempt, ha, State.enterTrap, hc, bitAt, ht, hi]
  simp

/-- A trap that nothing stands in the way of: the word is taken off the counts and marks its context, and the trap is entered (R242). -/
theorem State.trap_is (s : State) (code : Nat) (tval : Word) (mark : Ctx → Ctx) (hc : asyncCode code = false) (h : takesTraps s.me)
    (hd : (mark s.me.again).deferred = none) (hcy : (mark s.me.again).carry = none) (ha : (mark s.me.again).attempt = none)
    (ht : (mark s.me.again).ctl.tvec.getLsbD 0 = true) (hi : (mark s.me.again).ctl.intrap = false) :
    s.trap code tval mark =
      ((s.onCtx s.cur id).onMe fun c => mark c.again).onCtx s.cur fun c => c.enter code 0 tval s.me.pc := by
  have hag : ((s.onCtx s.cur id).onMe fun c => mark c.again).ctx s.cur = mark s.me.again := by
    simp only [State.onMe, State.onCtx_cur, State.onCtx_ctx_same, State.me, id]
  have hn : State.cause.takesNow (s.onCtx s.cur id).me = false := by
    have d : (s.ctx s.cur).deferred = none := h.2.2.1
    have y : (s.ctx s.cur).carry = none := h.2.2.2.1
    simp [State.me, State.cause.takesNow, d, y]
  unfold State.trap State.cause
  rw [State.settleCause_nil s s.cur h.1 h.2.1]
  simp only [hn]
  exact State.takeCause_enters _ s.cur code tval s.me.pc hc (hag ▸ hd) (hag ▸ hcy) (hag ▸ ha) (hag ▸ ht) (hag ▸ hi)

/-- A trap that nothing stands in the way of is entered (R242); the word is taken off the counts. -/
theorem State.trap_enters (s : State) (code : Nat) (tval : Word) (hc : asyncCode code = false)
    (h : takesTraps s.me) :
    entersTrap s (s.trap code tval) code tval := by
  have e := State.trap_is s code tval id hc h h.2.2.1 h.2.2.2.1 h.2.2.2.2.1 h.2.2.2.2.2.1 h.2.2.2.2.2.2
  have hm : (s.trap code tval).me = s.me.again.enter code 0 tval s.me.pc := by
    rw [e]; simp only [State.me, State.onMe, State.onCtx_cur, State.onCtx_ctx_same, id]
  refine ⟨⟨by rw [e]; rfl, fun k hk => by rw [e]; simp [hk, State.onMe], ?_⟩, ?_⟩
  · rw [e]; exact ⟨fun _ => rfl, fun _ _ => rfl⟩
  · have ha : s.me.attempt = none := h.2.2.2.2.1
    rw [hm]; simp [Ctx.enter, Ctx.openWindow, Ctx.again, hc, ha]

end Sys2Proof.Machine
end

