-- ==== Sys2Proof/Tests/Slice0.lean ====
section
/-! SUPPORT. Tests: words of the encoding tables, ill-formed terms, the premises of the statements met by concrete states, and
single steps on small states. Expected values come from the rules named, worked out by hand. -/

section

-- one proof after another: what the whole text needs of memory stays low
set_option Elab.async false

open Sys2Proof Sys2Proof.Machine

namespace Sys2Proof.Tests

/-- A context of a task that runs, in system state, with a trap handler, under PASID 1. -/
def runner : Ctx := { status := .running, ctl := { tvec := 0x1001, sys := true, pasid := 1 } }

/-- The same with some x registers. -/
def xs (l : Map Word) : Ctx := { runner with regs := { x := l } }

/-- A readable and writable page of 64 KiB at virtual 0x400000, PASID 1, physical 0x10000, homed on core 0. -/
def page : Tlb := { pasid := 1, base := 0x400000, bits := 16, pa := 0x10000, homing := 0, w := true, r := true }

/-- A partition of every quarter that holds PASID 1. -/
def ground : Part := { quarters := 0xFFFF, save := [0, 0, 0, 0], pasids := [(1, { root := 0x100000, homing := 0 })] }

/-- A machine with that partition, one context, and a quad whose TLB holds the page. -/
def world (c : Ctx) (q : Quad := {}) : State :=
  { ctxs := [(0, c)], quads := [(0, { q with tlb := [page] })], parts := [(0, ground)] }

/-- Page tables from the root 0x100000 down that map virtual 0x400000 to that page (R259, R260). -/
def tables : Memory :=
  let at_ (m : Memory) (a v : Nat) : Memory := m.write a (bytesOfNat 8 v)
  at_ (at_ (at_ (at_ (at_ [] 0x104000 0x100F) 0x103010 0x1040001) 0x102000 0x1030001) 0x101000 0x1020001) 0x100000 0x1010001

/-- The place of that page. -/
def there : Ref := { isLocal := false, addr := 0x10000 }

/-- A request that a handler serves. -/
def request : Msg :=
  { header := 0, dst := 0, dstModule := 0, chan := 0, isTask := false, pri := 0, entry := 0, payload := [], nxm := false, pasid := 1 }

/-- Code for a scan: tbegin, otherwise, tend at 0, 4 and 8 (R45, words as above). -/
def txCode : Memory :=
  Memory.set (Memory.set (Memory.set (Memory.set (Memory.set [] 3 0x40) 4 2) 7 0x40) 8 1) 11 0x40

/-- An entry of queue 0 (R405): an opcode and up to seven arguments. -/
def adminEntry (op : Byte) (args : List Nat) : List Byte :=
  let b := [op, 0, 0, 0, 0, 0, 0, 0] ++ args.flatMap (bytesOfNat 8)
  b ++ List.replicate (64 - b.length) 0

/-- The machine with that entry at the head of queue 0. -/
def admin (s : State) (op : Byte) (args : List Nat) : State :=
  { s with cp := { s.cp with queues := [(0, { bound := true, log2n := 4, entries := [(1, adminEntry op args)] })] } }

end Sys2Proof.Tests

open Sys2Proof.Tests

/-! ### Words (02_words R27 to R52): the words are put together from the table's fixed bits and fields -/

theorem test_words_major_00_part1 : ∀ e ∈ ([
    (0x8065C400, .add true 6 11 17),
    (0x0065C401, .sub false 6 11 17),
    (0x8065C402, .and true 6 11 17),
    (0x0065C403, .or false 6 11 17),
    (0x8065C404, .xor true 6 11 17),
    (0x0065C405, .andn false 6 11 17),
    (0x8065C406, .orn true 6 11 17),
    (0x0065C408, .sll false 6 11 17),
    (0x8065C409, .srl true 6 11 17),
    (0x0065C40A, .sra false 6 11 17),
    (0x8065C40B, .rotl true 6 11 17),
    (0x0065C40C, .rotr false 6 11 17),
    (0x8065C410, .slt true 6 11 17),
    (0x0065C411, .sltz false 6 11 17),
    (0x8065C412, .min true 6 11 17),
    (0x0065C413, .max false 6 11 17)] : List (Word32 × Instr)), decode e.1 = .ok e.2 ∧ encode e.2 = some e.1 := by decide

theorem test_words_major_00_part2 : ∀ e ∈ ([
    (0x8065C414, .minz true 6 11 17),
    (0x0065C415, .maxz false 6 11 17),
    (0x80658018, .clz true 6 11),
    (0x00658019, .ctz false 6 11),
    (0x8065801A, .popc true 6 11),
    (0x0065C420, .mul false 6 11 17),
    (0x8065C421, .mulh true 6 11 17),
    (0x0065C422, .mulhz false 6 11 17),
    (0x8065C424, .div true 6 11 17),
    (0x0065C425, .divz false 6 11 17),
    (0x8065C426, .rem true 6 11 17),
    (0x0065C427, .remz false 6 11 17)] : List (Word32 × Instr)), decode e.1 = .ok e.2 ∧ encode e.2 = some e.1 := by decide

theorem test_words_major_01 : ∀ e ∈ ([
    (0x8265A006, .addi true 6 11 8198)] : List (Word32 × Instr)), decode e.1 = .ok e.2 ∧ encode e.2 = some e.1 := by decide

theorem test_words_major_02 : ∀ e ∈ ([
    (0x0465A006, .andi false 6 11 8198)] : List (Word32 × Instr)), decode e.1 = .ok e.2 ∧ encode e.2 = some e.1 := by decide

theorem test_words_major_03 : ∀ e ∈ ([
    (0x8665A006, .ori true 6 11 8198)] : List (Word32 × Instr)), decode e.1 = .ok e.2 ∧ encode e.2 = some e.1 := by decide

theorem test_words_major_04 : ∀ e ∈ ([
    (0x0865A006, .xori false 6 11 8198)] : List (Word32 × Instr)), decode e.1 = .ok e.2 ∧ encode e.2 = some e.1 := by decide

theorem test_words_major_05 : ∀ e ∈ ([
    (0x8A65A006, .slti true 6 11 8198)] : List (Word32 × Instr)), decode e.1 = .ok e.2 ∧ encode e.2 = some e.1 := by decide

theorem test_words_major_06 : ∀ e ∈ ([
    (0x0C658005, .slli false 6 11 5),
    (0x8C659005, .srli true 6 11 5),
    (0x0C65A005, .srai false 6 11 5)] : List (Word32 × Instr)), decode e.1 = .ok e.2 ∧ encode e.2 = some e.1 := by decide

theorem test_words_major_07 : ∀ e ∈ ([
    (0x8E680006, .lui true 6 524294)] : List (Word32 × Instr)), decode e.1 = .ok e.2 ∧ encode e.2 = some e.1 := by decide

theorem test_words_major_08 : ∀ e ∈ ([
    (0x10680006, .addpc false 6 524294)] : List (Word32 × Instr)), decode e.1 = .ok e.2 ∧ encode e.2 = some e.1 := by decide

theorem test_words_major_09 : ∀ e ∈ ([
    (0x9265C41A, .adds true 6 11 17 26)] : List (Word32 × Instr)), decode e.1 = .ok e.2 ∧ encode e.2 = some e.1 := by decide

theorem test_words_major_0a : ∀ e ∈ ([
    (0x1465C740, .sel false 6 11 17 26)] : List (Word32 × Instr)), decode e.1 = .ok e.2 ∧ encode e.2 = some e.1 := by decide

theorem test_words_major_0b : ∀ e ∈ ([
    (0x96658153, .ext true 6 11 5 19)] : List (Word32 × Instr)), decode e.1 = .ok e.2 ∧ encode e.2 = some e.1 := by decide

theorem test_words_major_0c : ∀ e ∈ ([
    (0x18658153, .ins false 6 11 5 19)] : List (Word32 × Instr)), decode e.1 = .ok e.2 ∧ encode e.2 = some e.1 := by decide

theorem test_words_major_10 : ∀ e ∈ ([
    (0xA0658806, .bEq true 6 11 2054),
    (0x20659806, .bNe false 6 11 2054),
    (0xA065A806, .bLt true 6 11 2054),
    (0x2065B806, .bGe false 6 11 2054),
    (0xA065C806, .bLtz true 6 11 2054),
    (0x2065D806, .bGez false 6 11 2054)] : List (Word32 × Instr)), decode e.1 = .ok e.2 ∧ encode e.2 = some e.1 := by decide

theorem test_words_major_11 : ∀ e ∈ ([
    (0xA3000006, .j true 16777222)] : List (Word32 × Instr)), decode e.1 = .ok e.2 ∧ encode e.2 = some e.1 := by decide

theorem test_words_major_12 : ∀ e ∈ ([
    (0x25000006, .jal false 16777222)] : List (Word32 × Instr)), decode e.1 = .ok e.2 ∧ encode e.2 = some e.1 := by decide

theorem test_words_major_13 : ∀ e ∈ ([
    (0xA665A006, .jalr true 6 11 8198)] : List (Word32 × Instr)), decode e.1 = .ok e.2 ∧ encode e.2 = some e.1 := by decide

theorem test_words_major_14 : ∀ e ∈ ([
    (0x28132006, .loop false 1 6 8198)] : List (Word32 × Instr)), decode e.1 = .ok e.2 ∧ encode e.2 = some e.1 := by decide

theorem test_words_major_15 : ∀ e ∈ ([
    (0xAA000000, .nop true),
    (0x2A100001, .lbreak false 1),
    (0xAA600002, .ident true 6)] : List (Word32 × Instr)), decode e.1 = .ok e.2 ∧ encode e.2 = some e.1 := by decide

theorem test_words_major_16 : ∀ e ∈ ([
    (0x2C659206, .ld false 6 11 1 518),
    (0xAC659606, .ldAcq true 6 11 1 518),
    (0x2C659E06, .ldnc false 6 11 1 518),
    (0xAC65C206, .ldp true 6 11 518),
    (0x2C65C606, .ldpAcq false 6 11 518)] : List (Word32 × Instr)), decode e.1 = .ok e.2 ∧ encode e.2 = some e.1 := by decide

theorem test_words_major_17 : ∀ e ∈ ([
    (0xAE659206, .ldz true 6 11 1 518),
    (0x2E659606, .ldzAcq false 6 11 1 518),
    (0xAE659E06, .ldncZ true 6 11 1 518)] : List (Word32 × Instr)), decode e.1 = .ok e.2 ∧ encode e.2 = some e.1 := by decide

theorem test_words_major_18 : ∀ e ∈ ([
    (0x30659206, .st false 6 11 1 518),
    (0xB0659A06, .stRel true 6 11 1 518),
    (0x3065C206, .stp false 6 11 518),
    (0xB065CA06, .stpRel true 6 11 518)] : List (Word32 × Instr)), decode e.1 = .ok e.2 ∧ encode e.2 = some e.1 := by decide

theorem test_words_major_19 : ∀ e ∈ ([
    (0x32000000, .fenceQuad false),
    (0xB2000001, .fenceQuarter true),
    (0x32000002, .fenceDie false),
    (0xB2000003, .fenceModule true),
    (0x32000004, .fenceSystem false),
    (0xB2030010, .pref true 6),
    (0x32030011, .prefW false 6),
    (0xB2030018, .cln true 6),
    (0x32030019, .inv false 6),
    (0xB2130020, .nhint true 1 6)] : List (Word32 × Instr)), decode e.1 = .ok e.2 ∧ encode e.2 = some e.1 := by decide

theorem test_words_major_1a : ∀ e ∈ ([
    (0x3465C400, .tacq false 6 11 17),
    (0xB4030001, .trdy true 6),
    (0x34030002, .tdrain false 6),
    (0xB4030003, .tfree true 6),
    (0x34658004, .tstat false 6 11)] : List (Word32 × Instr)), decode e.1 = .ok e.2 ∧ encode e.2 = some e.1 := by decide

theorem test_words_major_1b : ∀ e ∈ ([
    (0xB6032C00, .rset true 6 11),
    (0x36032C01, .rpush false 6 11),
    (0xB6030002, .rpop true 6),
    (0x36658003, .rstat false 6 11)] : List (Word32 × Instr)), decode e.1 = .ok e.2 ∧ encode e.2 = some e.1 := by decide

theorem test_words_major_1c : ∀ e ∈ ([
    (0xB865C580, .amoAdd true 6 11 17 1 1),
    (0x3865C581, .amoAnd false 6 11 17 1 1),
    (0xB865C582, .amoOr true 6 11 17 1 1),
    (0x3865C583, .amoXor false 6 11 17 1 1),
    (0xB865C584, .amoMin true 6 11 17 1 1),
    (0x3865C585, .amoMax false 6 11 17 1 1),
    (0xB865C586, .amoMinz true 6 11 17 1 1),
    (0x3865C587, .amoMaxz false 6 11 17 1 1),
    (0xB865C588, .amoSwap true 6 11 17 1 1),
    (0x3865C58C, .amoFadd false 6 11 17 1 1)] : List (Word32 × Instr)), decode e.1 = .ok e.2 ∧ encode e.2 = some e.1 := by decide

theorem test_words_major_1d : ∀ e ∈ ([
    (0xBA65C74C, .amoCas true 6 11 17 26 1 1)] : List (Word32 × Instr)), decode e.1 = .ok e.2 ∧ encode e.2 = some e.1 := by decide

theorem test_words_major_1e : ∀ e ∈ ([
    (0x3C65C400, .cadd false 6 11 17),
    (0xBC65C401, .caddRel true 6 11 17),
    (0x3C65C410, .grab false 6 11 17),
    (0xBC65C421, .disarm true 6 11 17)] : List (Word32 × Instr)), decode e.1 = .ok e.2 ∧ encode e.2 = some e.1 := by decide

theorem test_words_major_1f : ∀ e ∈ ([
    (0x3E65C740, .arm false 6 11 17 26)] : List (Word32 × Instr)), decode e.1 = .ok e.2 ∧ encode e.2 = some e.1 := by decide

theorem test_words_major_20 : ∀ e ∈ ([
    (0xC0600000, .tbegin true 6),
    (0x40000001, .tend false),
    (0xC0000002, .otherwise true),
    (0x40000003, .retry false),
    (0xC0600004, .tstatX true 6)] : List (Word32 × Instr)), decode e.1 = .ok e.2 ∧ encode e.2 = some e.1 := by decide

theorem test_words_major_21 : ∀ e ∈ ([
    (0x42000083, .tabort false 131)] : List (Word32 × Instr)), decode e.1 = .ok e.2 ∧ encode e.2 = some e.1 := by decide

theorem test_words_major_22 : ∀ e ∈ ([
    (0xC465C400, .waitge true 6 11 17),
    (0x44658010, .barr false 6 11),
    (0xC4032C11, .bwait true 6 11)] : List (Word32 × Instr)), decode e.1 = .ok e.2 ∧ encode e.2 = some e.1 := by decide

theorem test_words_major_24 : ∀ e ∈ ([
    (0x4865C401, .amsend false 6 11 17 1)] : List (Word32 × Instr)), decode e.1 = .ok e.2 ∧ encode e.2 = some e.1 := by decide

theorem test_words_major_25 : ∀ e ∈ ([
    (0xCA001801, .amreply true 6 1),
    (0x4A030010, .spawn false 6),
    (0xCA65C420, .enq true 6 11 17),
    (0x4A658030, .deq false 6 11),
    (0xCA65C440, .hostpost true 6 11 17),
    (0x4A600050, .taskid false 6),
    (0xCA000060, .yield true)] : List (Word32 × Instr)), decode e.1 = .ok e.2 ∧ encode e.2 = some e.1 := by decide

theorem test_words_major_26 : ∀ e ∈ ([
    (0x4C000000, .halt false),
    (0xCC032C01, .haltK true 6 11),
    (0x4C000002, .tail false)] : List (Word32 × Instr)), decode e.1 = .ok e.2 ∧ encode e.2 = some e.1 := by decide

theorem test_words_major_28 : ∀ e ∈ ([
    (0xD0601020, .ctlrd true 6 516),
    (0x50034031, .ctlwr false 6 2054),
    (0xD065C032, .ctlset true 6 11 2054),
    (0x5065C033, .ctlclr false 6 11 2054),
    (0xD0600578, .cpgoRead true 6 1)] : List (Word32 × Instr)), decode e.1 = .ok e.2 ∧ encode e.2 = some e.1 := by decide

theorem test_words_major_29 : ∀ e ∈ ([
    (0x52000000, .eret false),
    (0xD2000001, .ifence true),
    (0x52030002, .tlbinv false 6),
    (0xD2030003, .tlbinvAs true 6),
    (0x52658004, .perfrd false 6 11),
    (0xD2000005, .brk true)] : List (Word32 × Instr)), decode e.1 = .ok e.2 ∧ encode e.2 = some e.1 := by decide

theorem test_words_major_2a : ∀ e ∈ ([
    (0x54000806, .trap false 2054)] : List (Word32 × Instr)), decode e.1 = .ok e.2 ∧ encode e.2 = some e.1 := by decide

theorem test_words_major_2c : ∀ e ∈ ([
    (0xD8032C00, .cprec true 6 11),
    (0x58000001, .rcfence false),
    (0xD865C402, .gather true 6 11 17),
    (0x5865C403, .scatter false 6 11 17),
    (0xD8030004, .cpabort true 6),
    (0x58658005, .tlrd false 6 11)] : List (Word32 × Instr)), decode e.1 = .ok e.2 ∧ encode e.2 = some e.1 := by decide

theorem test_words_major_30 : ∀ e ∈ ([
    (0xE0032C00, .mldb true 6 11),
    (0x6065C401, .mgang false 6 11 17),
    (0xE0030002, .mflush true 6),
    (0x60000003, .mdrain false),
    (0xE0658004, .mstat true 6 11),
    (0x60658005, .mkey false 6 11)] : List (Word32 × Instr)), decode e.1 = .ok e.2 ∧ encode e.2 = some e.1 := by decide

theorem test_words_major_31 : ∀ e ∈ ([
    (0xE265C740, .mms true 6 11 17 26)] : List (Word32 × Instr)), decode e.1 = .ok e.2 ∧ encode e.2 = some e.1 := by decide

theorem test_words_major_34 : ∀ e ∈ ([
    (0x68032C00, .wset false 6 11),
    (0xE865C401, .rstr true 6 11 17),
    (0x6865C402, .rstrF false 6 11 17),
    (0xE865C403, .prlg true 6 11 17),
    (0x6865C404, .prlgF false 6 11 17),
    (0xE8658005, .xstat true 6 11)] : List (Word32 × Instr)), decode e.1 = .ok e.2 ∧ encode e.2 = some e.1 := by decide

theorem test_words_major_36 : ∀ e ∈ ([
    (0x6C65C4B0, .vadd false 6 11 17 1 3),
    (0xEC65C4B1, .vsub true 6 11 17 1 3),
    (0x6C65C4B2, .vmul false 6 11 17 1 3),
    (0xEC65C493, .vdiv true 6 11 17 1 1),
    (0x6C65C4B4, .vmin false 6 11 17 1 3),
    (0xEC65C4B5, .vmax true 6 11 17 1 3),
    (0x6C6580B6, .vabs false 6 11 1 3),
    (0xEC6580B7, .vneg true 6 11 1 3),
    (0x6C658098, .vsqrt false 6 11 1 1),
    (0xEC658099, .vexp2 true 6 11 1 1)] : List (Word32 × Instr)), decode e.1 = .ok e.2 ∧ encode e.2 = some e.1 := by decide

theorem test_words_major_37 : ∀ e ∈ ([
    (0x6E65C4B0, .vfma false 6 11 17 1 3),
    (0xEE6580B1, .vredsum true 6 11 1 3),
    (0x6E6580B2, .vredmax false 6 11 1 3),
    (0xEE6580B3, .vredmin true 6 11 1 3),
    (0x6E65C4B4, .vdot false 6 11 17 1 3)] : List (Word32 × Instr)), decode e.1 = .ok e.2 ∧ encode e.2 = some e.1 := by decide

theorem test_words_major_38 : ∀ e ∈ ([
    (0xF065C4D0, .vand true 6 11 17 1 1),
    (0x7065C4D1, .vor false 6 11 17 1 1),
    (0xF065C4D2, .vxor true 6 11 17 1 1),
    (0x7065C4D3, .vshl false 6 11 17 1 1),
    (0xF065C4D4, .vshr true 6 11 17 1 1),
    (0x7065C4B5, .vperm false 6 11 17 1 3),
    (0xF06580B6, .vbcast true 6 11 1 3),
    (0x7065C4B7, .vslide false 6 11 17 1 3),
    (0xF06580B8, .vcompress true 6 11 1 3),
    (0x706580B9, .vexpand false 6 11 1 3),
    (0xF065C4BA, .vsel true 6 11 17 1 3)] : List (Word32 × Instr)), decode e.1 = .ok e.2 ∧ encode e.2 = some e.1 := by decide

theorem test_words_major_39 : ∀ e ∈ ([
    (0x72132DE0, .vcmpEq false 1 6 11 3 6),
    (0xF2132DE1, .vcmpNe true 1 6 11 3 6),
    (0x72132DE2, .vcmpLt false 1 6 11 3 6),
    (0xF2132DE3, .vcmpGe true 1 6 11 3 6),
    (0x72132DE4, .vcmpLe false 1 6 11 3 6),
    (0xF2132DE5, .vcmpGt true 1 6 11 3 6),
    (0x72119808, .kand false 1 3 6),
    (0xF2119809, .kor true 1 3 6),
    (0x7211800A, .knot false 1 3),
    (0xF260800B, .kpop true 6 1)] : List (Word32 × Instr)), decode e.1 = .ok e.2 ∧ encode e.2 = some e.1 := by decide

theorem test_words_major_3a : ∀ e ∈ ([
    (0x7465A4C0, .vcvt false 6 11 9 1 4),
    (0xF465A491, .vcvtFp8 true 6 11 1 1 1),
    (0x7465AC92, .vqpack false 6 11 11 1 1),
    (0xF465AC93, .vqunpack true 6 11 11 1 1)] : List (Word32 × Instr)), decode e.1 = .ok e.2 ∧ encode e.2 = some e.1 := by decide

theorem test_words_major_3b : ∀ e ∈ ([
    (0x766580B0, .vld false 6 11 1 3),
    (0xF66580B1, .vst true 6 11 1 3),
    (0x7665C4B2, .vlds false 6 11 17 1 3),
    (0xF665C4B3, .vsts true 6 11 17 1 3),
    (0x7665C4B4, .vldx false 6 11 17 1 3),
    (0xF665C4B5, .vstx true 6 11 17 1 3)] : List (Word32 × Instr)), decode e.1 = .ok e.2 ∧ encode e.2 = some e.1 := by decide

theorem test_words_major_3c : ∀ e ∈ ([
    (0x7865C500, .fadd false 6 11 17 1),
    (0xF865C501, .fsub true 6 11 17 1),
    (0x7865C502, .fmul false 6 11 17 1),
    (0xF865C503, .fdiv true 6 11 17 1),
    (0x78658104, .fsqrt false 6 11 1),
    (0xF865C505, .fmin true 6 11 17 1),
    (0x7865C506, .fmax false 6 11 17 1),
    (0xF865C508, .fcmpEq true 6 11 17 1),
    (0x7865C509, .fcmpLt false 6 11 17 1),
    (0xF865C50A, .fcmpLe true 6 11 17 1),
    (0x78659510, .fcvt false 6 11 5 1),
    (0xF8659511, .fcvtInt true 6 11 1 1),
    (0x78658118, .fclass false 6 11 1),
    (0xF865C519, .fsgnj true 6 11 17 1),
    (0x78658120, .fmvx false 6 11 1),
    (0xF8658121, .fmvf true 6 11 1)] : List (Word32 × Instr)), decode e.1 = .ok e.2 ∧ encode e.2 = some e.1 := by decide

theorem test_words_major_3d : ∀ e ∈ ([
    (0x7A65C748, .fma false 6 11 17 26 1)] : List (Word32 × Instr)), decode e.1 = .ok e.2 ∧ encode e.2 = some e.1 := by decide

/-! ### Ill-formed terms and words (R31) -/

/-- R31, R38, R40 to R42, R51, R52: for each check of `wellFormed` a term that it refuses, at the edge of the range. -/
theorem test_ill_formed_refused : ∀ i ∈ ([
    .add false 0 0 0, .ext true 1 2 31 33, .ext true 1 2 63 1, .ins false 1 2 63 1, .ins true 1 2 1 63, .loop true 0 1 0, .loop true 0 1 0x4000, .ldp true 1 2 0, .ldpAcq true 3 2 0, .ldz true 1 2 3 0,
    .ldzAcq true 1 2 3 0, .ldncZ true 1 2 3 0, .stp true 31 2 0, .stpRel true 5 2 0, .ctlrd true 1 0x08F, .ctlrd true 1 0x0EF,
    .vcvt true 1 2 10 0 0, .vcvt true 1 2 3 0 3, .vqpack true 1 2 9 0 0, .vqpack true 1 2 13 0 0, .vqunpack true 1 2 9 0 0,
    .vqunpack true 1 2 13 0 0, .vcmpEq true 1 2 3 0 7, .vcmpNe true 1 2 3 0 7, .vcmpLt true 1 2 3 0 7, .vcmpGe true 1 2 3 0 7,
    .vcmpLe true 1 2 3 0 7, .vcmpGt true 1 2 3 0 7, .vcompress true 1 2 0 7, .vexpand true 1 2 0 7, .vcvt true 1 2 5 0 6]
    : List Instr), i.wellFormed = false := by decide

/-- R52: format 3 of every scalar form, and the types that fcvt does not take. -/
theorem test_scalar_formats_refused : ∀ i ∈ ([
    .fadd true 1 2 3 3, .fsub true 1 2 3 3, .fmul true 1 2 3 3, .fdiv true 1 2 3 3, .fsqrt true 1 2 3, .fmin true 1 2 3 3,
    .fmax true 1 2 3 3, .fcmpEq true 1 2 3 3, .fcmpLt true 1 2 3 3, .fcmpLe true 1 2 3 3, .fcvt true 1 2 4 3, .fcvt true 1 2 3 0,
    .fcvt true 1 2 6 0, .fcvt true 1 2 1 1, .fcvtInt true 1 2 0 3, .fclass true 1 2 3, .fsgnj true 1 2 3 3, .fmvx true 1 2 3,
    .fmvf true 1 2 3, .fma true 1 2 3 4 3] : List Instr), i.wellFormed = false := by decide

/-- The nearest well-formed terms. -/
theorem test_well_formed_accepted : ∀ i ∈ ([
    .add true 0 0 0, .add false 0 0 1, .ext true 1 2 31 32, .ins true 1 2 0 63, .loop true 0 1 1, .loop true 0 1 0x3FFF,
    .ldp true 0 2 0, .stp true 30 2 0, .ldz true 1 2 2 0, .ctlrd true 1 0x08E, .vcvt true 1 2 9 0 0, .vqpack true 1 2 10 0 0,
    .vqunpack true 1 2 12 0 0, .fadd true 1 2 3 2, .fcvt true 1 2 5 2] : List Instr), i.wellFormed = true := by decide

/-- R31: words that are no instruction, each with its reason: zero, an unassigned major and function, a used-up field that is not 0,
and operands out of range (ext 33 + 32 bits, loop back, an odd pair, FP format 3). -/
theorem test_illegal_words : ∀ e ∈ ([
    (0x00000000, .zeroWord), (0x1A000000, .unassignedMajor), (0x7E000000, .unassignedMajor), (0x00000007, .unassignedCode),
    (0x00000418, .unusedNotZero),
    (0x16110FC1, .reservedOperand), (0x2800C000, .reservedOperand), (0x30104000, .reservedOperand),
    (0x78110F00, .reservedOperand)] : List (Word32 × DecodeError)), decode e.1 = .illegal e.2 := by decide


/-! ### The premises of the statements, met by concrete states -/

/-- A context that can take a trap. -/
theorem test_traps_taken : takesTraps runner ∧ takesTraps (world (xs [(1, 0xFF)])).me ∧
    takesTraps { runner with ctl := { runner.ctl with sys := false } } := by unfold takesTraps; decide

/-- Divisors 1 and all ones for a quotient; 0 for the trap. -/
theorem test_premises_CountsProductsQuotients :
    (world (xs [(2, 1)])).me.getX 2 ≠ 0 ∧ (world (xs [(2, BitVec.allOnes 64)])).me.getX 2 ≠ 0 ∧
    (world (xs [])).me.getX 2 = 0 ∧ takesTraps (world (xs [])).me ∧ Instr.remz true 1 0 0 ∈ [Instr.remz true 1 0 0] := by
  unfold takesTraps; decide

/-- Each condition at its boundary, true and false: equal operands, and −1 against 0. -/
theorem test_premises_BranchesAndJumps :
    let s := world (xs [(1, 0xFFFFFFFFFFFFFFFF), (3, 4), (4, 5)])
    let x := s.me.getX 1
    let y := s.me.getX 2
    y = y ∧ x ≠ y ∧ x.toInt < y.toInt ∧ ¬ y.toInt < y.toInt ∧ y.toInt ≥ y.toInt ∧ ¬ x.toInt ≥ y.toInt ∧ y.toNat < x.toNat ∧
    ¬ y.toNat < y.toNat ∧ y.toNat ≥ y.toNat ∧ ¬ y.toNat ≥ x.toNat ∧
    (s.me.getX 3 + (0x7FFC : BitVec 15).signExtend 64).toNat % 4 = 0 ∧ (s.me.getX 4 + (0 : BitVec 15).signExtend 64).toNat % 4 ≠ 0 ∧
    takesTraps s.me := by unfold takesTraps; decide

/-- Loop levels whose end is this word: sent back with one pass left, left with none, left by EB or by an end before its start;
the outer level examined after the inner one. -/
theorem test_premises_HardwareLoops :
    let l (lc : Word) (eb : Bool) (ls le : Word) : LoopLevel := { lc, ls, le, act := true, eb, asn := ls, aen := le }
    let done (l : LoopLevel) : Bool := l.eb || decide (l.le.toNat < l.ls.toNat)
    let back (l : LoopLevel) : Bool := !done l && l.lc != 0
    runner.lp0.atEnd runner.pc = false ∧ runner.lp1.atEnd runner.pc = false ∧
    (l 1 false 0 0).atEnd 0 = true ∧ back (l 1 false 0 0) = true ∧ back (l 0 false 0 0) = false ∧
    (l 1 true 0 0).atEnd 0 = true ∧ back (l 1 true 0 0) = false ∧ (l 1 false 4 0).atEnd 0 = true ∧ back (l 1 false 4 0) = false := by
  decide

/-- Loads of 1, 2, 4, 8 and 16 bytes in local memory up to its last byte, and in a page, outside an attempt. -/
theorem test_premises_LoadsIssue :
    let s := world runner
    s.me.attempt = none ∧ (∃ r t, checkAccess s s.cur .load 0x27FFFF 1 1 = (.ok r, t)) ∧
    (∃ r t, checkAccess s s.cur .load 0x27FFFE 2 2 = (.ok r, t)) ∧ (∃ r t, checkAccess s s.cur .load 0 4 4 = (.ok r, t)) ∧
    (∃ r t, checkAccess s s.cur .load 0x40FFF8 8 8 = (.ok r, t)) ∧ ∃ r t, checkAccess s s.cur .load 0x400000 16 16 = (.ok r, t) :=
  ⟨rfl, ⟨_, _, rfl⟩, ⟨_, _, rfl⟩, ⟨_, _, rfl⟩, ⟨_, _, rfl⟩, ⟨_, _, rfl⟩⟩

/-- The same for stores; and a store that waits to be performed, with nothing before it. -/
theorem test_premises_Stores :
    let s := world runner
    let cells : List (Ref × Byte) := [(there, 7)]
    let o : Out := { seq := 0, pc := 0, op := .store cells }
    let t : State := { world { runner with outs := [o] } with ev := [0, 0] }
    s.me.attempt = none ∧ (∃ r u, checkAccess s s.cur .store 0x27FFF8 8 8 = (.ok r, u)) ∧
    (∃ r u, checkAccess s s.cur .store 0x40FFF0 16 16 = (.ok r, u)) ∧ t.ev = [0, 0] ∧ (t.ctx 0).out 0 = some o ∧ o.ans = none ∧
    (t.ctx 0).halted = false ∧ (t.ctx 0).mayPerform o = true ∧ t.mayWriteCells 0 cells = true ∧ (t.ctx 0).status ≠ .ending :=
  ⟨rfl, ⟨_, _, rfl⟩, ⟨_, _, rfl⟩, rfl, by decide, rfl, rfl, by decide, by decide, by decide⟩

/-- Every kind of address: misaligned; local and unbacked (below XBOUND, at the capacity); local and backed at both ends, with and
without poison; global with a bit above 56. -/
theorem test_premises_AddressChecks :
    let s := world runner { xbound := 0x1000, poison := [0x200] }
    let q := s.quad 0
    let backed (a : Word) : Prop := q.xbound.toNat ≤ a.toNat ∧ a.toNat < capacity (quadLayer 0) ∧ (s.ctx 0).task.portable = false
    let loc (a : Word) : Ref := { isLocal := true, addr := a.toNat }
    (0x1001 : Word).toNat % 2 ≠ 0 ∧ ¬ backed 0xFF8 ∧ ¬ backed 0x280000 ∧ backed 0x1008 ∧ backed 0x27FFF8 ∧
    s.poisonSpan 0 (loc 0x1008) 8 = false ∧ s.poisonSpan 0 (loc 0x1000) 8 = true ∧ (0x1000 : Word).toNat % 8 = 0 ∧ backed 0x1000 ∧
    ¬ (0x200000000000000 : Word).toNat < 0x400000 ∧ (0x200000000000000 : Word).toNat / 2 ^ 57 ≠ 0 ∧ takesTraps s.me ∧
    (s.ctx 0).ownBytes = [] := by
  unfold takesTraps; decide

/-- A load that can bind; a result that has arrived; loads of 1, 8 and 16 bytes. -/
theorem test_premises_LoadResults :
    let o : Out := { seq := 3, pc := 0, op := .load [there] (.scalar 1 true) false }
    let s : State := { world { runner with outs := [o] } with ev := [0, 3] }
    let o' : Out := { o with ans := some { writes := [.x 1 9] } }
    let s' : State := { world { runner with outs := [o'] } with ev := [0, 3] }
    s.ev = [0, 3] ∧ (s.ctx 0).out 3 = some o ∧ (s.ctx 0).status ≠ .ending ∧ o.bound = [] ∧ o.held = false ∧ o.ans = none ∧ (s.ctx 0).halted = false ∧ (s.ctx 0).mayPerform o = true ∧
    (s'.ctx 0).out 3 = some o' ∧ o'.ans = some { writes := [.x 1 9] } ∧ (s'.ctx 0).later = [] ∧
    ([0] : List Byte).length ≤ 8 ∧ ([0] : List Byte) ≠ [] ∧ (List.replicate 8 (0 : Byte)).length ≤ 8 ∧
    (List.replicate 16 (0 : Byte)).length = 16 := by decide

/-- No access pending; one store of the page that can be performed, and one whose line an irrevocable attempt holds; one load; an address
in the page, which the quad's TLB holds, and one in none; cln and inv at both sides of the window's end. -/
theorem test_premises_FencesAndHints :
    let s := world runner
    let o : Out := { seq := 0, pc := 0, op := .store [(there, 7)] }
    let u : Out := { o with op := .load [there] (.scalar 1 true) false }
    let t (o : Out) : State := world { runner with outs := [o] }
    let l : Level := { tbpc := 0, branchPc := 0, ck := {}, writes := [lineOf 0 there] }
    let a : Attempt := { levels := [l], xd := 1, stamp := 0, irrevocable := true }
    let v : State := { t o with ctxs := [(0, (t o).me), (1, { runner with attempt := some a })] }
    let kept : State := { s with dies := [(0, { hints := [(1, (2, 0))] })] }
    (∀ o ∈ s.me.outs, o.pending = true → o.binds = false ∧ o.refs.any (homeIn s s.cur .system) = false) ∧ (t o).me.outs = [o] ∧
    o.ans = none ∧ homeIn (t o) 0 .module there = true ∧ (t o).mayWriteCells 0 [(there, 7)] = true ∧ v.me.outs = [o] ∧
    v.mayWriteCells 0 [(there, 7)] = false ∧ (t u).me.outs = [u] ∧ tlbHit s 0 0x40FFFF = some page ∧ tlbHit s 0 0x410000 = none ∧
    page.r = true ∧ ((s.pageRef page 0x40FFFF).addr.testBit 45 = false ∧ (s.pageRef page 0x40FFFF).addr / 2 ^ 37 % 4 = 0) ∧
    ({ page with pa := 2 ^ 37 } : Tlb).pa / 2 ^ 37 % 4 ≠ 0 ∧ ({ there with pc1 := true } : Ref).pc1 = true ∧
    ¬ keepLimit ground 0 ≤ keepsOf s 0 0 1 ∧ keepLimit { ground with quarters := 0xFFF0 } 0 ≤ keepsOf s 0 0 1 ∧
    ((s.die 0).hints.get (0, 0) 1).1 ≠ 2 ∧ ((kept.die 0).hints.get (0, 0) 1).1 = 2 ∧ s.partOf s.cur = some (0, ground) ∧
    (0x3FFFFF : Word).toNat < 0x400000 ∧ 0x400000 ≤ (0x400000 : Word).toNat ∧ s.poisonLine (there.addr / 128) = false ∧
    ∃ r t, globalCheck s s.cur .load 0x400000 0 = (.ok r, t) := by
  refine ⟨by decide, rfl, rfl, by decide, by decide, rfl, by decide, rfl, by decide, by decide, rfl, by decide, by decide, rfl, by decide,
    by decide, by decide, by decide, by decide, by decide, by decide, by decide, _, _, rfl⟩

/-- Each status of tacq: entry 64; an entry that is not bound, FILLING, EMPTY; bound already; a bad offset; an overlap; a wrong xb;
xb 0 and 2 for a tile of 64 bytes that ends at the capacity. -/
theorem test_premises_TileAcquire :
    let s := world runner
    let q : Quad := { tiles := [(0, { off := 0, size := 64, st := .filling }), (63, { off := 64, size := 64, st := .empty })] }
    s.me.attempt = none ∧ s.me.task.portable = false ∧ 63 < 64 ∧ q.tile? 1 = none ∧
    q.tile? 0 = some { off := 0, size := 64, st := .filling } ∧ q.tile? 63 = some { off := 64, size := 64, st := .empty } ∧
    (32 : Nat) % 64 ≠ 0 ∧ capacity s.myLayer < 0x280000 + 64 ∧ ¬ capacity s.myLayer < 0x27FFC0 + 64 ∧
    (∃ e ∈ q.tiles, 127 < e.2.off + e.2.size ∧ e.2.off < 127 + 64) ∧ (¬ ∃ e ∈ q.tiles, 128 < e.2.off + e.2.size ∧ e.2.off < 128 + 64) ∧
    (1 : Word) ≠ 0 ∧ (1 : Word) ≠ 2 := by
  refine ⟨rfl, rfl, by decide, by decide, by decide, by decide, by decide, by decide, by decide, ?_, ?_, by decide, by decide⟩
  · exact ⟨_, List.mem_cons_of_mem _ (List.mem_cons_self ..), by decide⟩
  · decide

/-- Entries in each state, a ring with one free slot and one with one full slot, a tstat wait that is met and one that is not asked. -/
theorem test_premises_TileAndRingMoves :
    let t (st : TileState) : Tile := { off := 0, size := 64, st }
    let r (occ : Nat) : Ring := { base := 0, size := 64, count := 2, head := 0, occ }
    let q : Quad := { tiles := [(0, t .empty), (1, t .ready), (2, t .draining)], rings := [(0, r 1), (7, r 2)] }
    let s := world runner q
    s.me.attempt = none ∧ s.me.task.portable = false ∧ 0 < 1 ∧ (∀ o ∈ s.me.outs, o.pending = false) ∧ q.tile? 0 = some (t .empty) ∧ q.tile? 1 = some (t .ready) ∧ q.tile? 2 = some (t .draining) ∧
    (t .draining).eng = false ∧ q.ring? 0 = some (r 1) ∧ (r 1).res = 0 ∧ (r 1).occ + 1 ≤ (r 1).count ∧ (r 1).clm = 0 ∧
    q.ring? 7 = some (r 2) ∧ 1 ≤ (r 2).occ ∧ (0x600 : Word).toNat / 2 ^ 9 % 4 = 3 ∧ (0xFF : Word).getLsbD 8 = false := by decide

/-- rset: ring 8; a ring bound again; a ring of 2 slots that ends at the capacity with xb 2; its release; the release of none. -/
theorem test_premises_RingSet :
    let r : Ring := { base := 0, size := 64, count := 2, head := 0, occ := 0 }
    let s := world runner { rings := [(7, r)] }
    let q := s.quad 0
    takesTraps s.me ∧ s.me.attempt = none ∧ s.me.task.portable = false ∧ 7 < 8 ∧ (∀ x, q.ring? 7 = some x → x.res = 0 ∧ x.clm = 0) ∧ (q.ring? 7).isSome = true ∧ q.ring? 0 = none ∧
    ¬ capacity s.myLayer < 0x27FF80 + 2 * 64 ∧ ¬ 2 < 2 ∧ 1 < 2 ∧ 64 < 65 ∧
    (¬ ∃ e ∈ q.rings, 128 < e.2.base + e.2.count * e.2.size ∧ e.2.base < 128 + 128) := by
  unfold takesTraps
  refine ⟨by decide, rfl, rfl, by decide, ?_, by decide, by decide, by decide, by decide, by decide, by decide, by decide⟩
  intro x h
  have : x = { base := 0, size := 64, count := 2, head := 0, occ := 0 } := by
    have h' : some ({ base := 0, size := 64, count := 2, head := 0, occ := 0 } : Ring) = some x := h
    exact (Option.some.inj h').symm
  subst this
  exact ⟨rfl, rfl⟩

/-- Atomics: granted operands of 4, 8 and 16 bytes at the ends of a page; an add at its home. -/
theorem test_premises_AtomicsIssueAndApply :
    let s := world runner
    let o : Out := { seq := 0, pc := 0, op := .amo there .add 8 1 1 0 0 0x400000 }
    let t : State := { world { runner with outs := [o] } with ev := [0, 0] }
    s.me.attempt = none ∧ (∃ r u, checkAtomic s s.cur .atomic 0x400000 16 = (.ok r, u)) ∧
    (∃ r u, checkAtomic s s.cur .atomic 0x40FFF8 8 = (.ok r, u)) ∧ (∃ r u, checkAtomic s s.cur .atomic 0x40FFFC 4 = (.ok r, u)) ∧
    (t.ctx 0).out 0 = some o ∧ o.ans = none ∧ o.pure = false ∧ (t.ctx 0).mayPerform o = true ∧ there.isLocal = false ∧ t.recordings = [] ∧
    t.mayWriteCells 0 (cellsOf there 8 1) = true ∧ (t.ctx 0).status ≠ .ending :=
  ⟨rfl, ⟨_, _, rfl⟩, ⟨_, _, rfl⟩, ⟨_, _, rfl⟩, by decide, rfl, rfl, by decide, rfl, rfl, by decide, by decide⟩

/-- Operands at the ends of 32 and 64 bits; a cadd that just fits and one that does not; a grab of the whole range. -/
theorem test_premises_AtomicOperations :
    2 ^ 32 - 1 < 2 ^ (8 * 4) ∧ 2 ^ 64 - 1 < 2 ^ (8 * 8) ∧ 2 ^ 64 - 2 + (1 : Word).toNat % 2 ^ 32 < 2 ^ 64 ∧
    2 ^ 64 ≤ 2 ^ 64 - 1 + (1 : Word).toNat % 2 ^ 32 ∧ (0 : Nat) < 2 ^ 64 ∧ 2 ^ 64 - 1 < 2 ^ 64 := by decide

/-- A trigger record of 64 bytes: entry 0, priority 3, 6 arguments, destination core 0 of module 0. -/
def Sys2Proof.Tests.armRecord (entry : Byte) (dest : Byte) : Memory :=
  Memory.set (Memory.set (Memory.set (Memory.set [] 0x2000 entry) 0x2004 3) 0x2006 6) 0x2008 dest

/-- The world with a record and a counter word. -/
def Sys2Proof.Tests.armWorld (entry dest : Byte) : State := world { runner with outs := [] } { mem := Tests.armRecord entry dest }

theorem test_premises_ArmAndDisarm_issue :
    let s := Tests.armWorld 0 0
    let f (s : State) : RecFields := RecFields.of ((Ref.span { isLocal := true, addr := 0x2000 } 64).map (s.readByte s.myQuad false))
    let bad (f : RecFields) : Prop := f.entry % 4 ≠ 0 ∨ 3 < f.pri ∨ 6 < f.argc ∨ f.zero ≠ 0 ∨ f.tag.toNat / 2 ^ 44 ≠ 0
    s.me.attempt = none ∧ s.me.outs = [] ∧
    (precheck s s.cur [{ a := 0x400000, align := 8, globalOnly := true }, { a := 0x2000, align := 64 }]).1 = none ∧
    (∃ r t, checkAtomic s s.cur .load 0x400000 8 = (.ok r, t)) ∧
    checkAccess s s.cur .load 0x2000 64 64 = (.ok { isLocal := true, addr := 0x2000 }, s) ∧
    ¬ bad (f s) ∧ destExists s (f s).tag = true ∧ destAllowed s (quarterOf s.myQuad) (f s).tag = true ∧
    bad (f (Tests.armWorld 1 0)) :=
  ⟨rfl, rfl, by decide, ⟨_, _, rfl⟩, by decide, by decide, by decide, by decide, by decide⟩

/-- A core outside the grid of its layer; and a partition that does not hold the destination's quarter. -/
theorem test_premises_ArmAndDisarm_destination :
    let s := world runner
    destExists s 0x1FFF = false ∧ destExists s 0x1000 = true ∧
    destAllowed { s with parts := [(0, { ground with quarters := 1 })] } (quarterOf s.myQuad) 0x1000 = false := by decide

/-- At the counter's home: reached exactly, not reached by 1; a full partition, and one with slot 0 free; a handle that fits and one
that does not. -/
theorem test_premises_ArmAndDisarm_home :
    let e : Trigger := { addr := 0x10000, threshold := 1, entry := 0, pri := 0, dest := 0, args := [], nxm := false, pasid := 1
                         part := 0, slot := 0, serial := 7 }
    let o : Out := { seq := 0, pc := 0, op := .arm there 1 e }
    let d (h : Word) : Out := { seq := 0, pc := 0, op := .disarm there 1 h }
    let s (v : Byte) (l : List Trigger) (o : Out) : State :=
      { world { runner with outs := [o] } with ev := [0, 0], mem := Memory.set [] 0x10000 v, slices := [(0, { triggers := l })] }
    let v (s : State) : Word := BitVec.ofNat 64 (natOfBytes (s.mem.read 0x10000 8))
    ((s 1 [] o).ctx 0).out 0 = some o ∧ o.ans = none ∧ o.pure = false ∧ ((s 1 [] o).ctx 0).mayPerform o = true ∧
    ((s 1 [] o).ctx 0).status ≠ .ending ∧ (s 1 [] o).recordings = [] ∧ 0 ≤ (v (s 1 [] o) - e.threshold).toInt ∧ (v (s 0 [] o) - e.threshold).toInt < 0 ∧
    (∀ i, i < 256 → ∃ x ∈ (List.range 256).map fun i => { e with slot := i }, x.part = 0 ∧ x.slot = i) ∧
    (¬ ∃ x ∈ ([] : List Trigger), x.part = 0 ∧ x.slot = 0) ∧ ((s 0 [e] (d 0x70000000000)).ctx 0).out 0 = some (d 0x70000000000) ∧
    (∃ x ∈ [e], x.part = (s 0 [e] o).partNo 0 ∧ x.slot = (0x70000000000 : Word).toNat / 2 ^ 32 % 2 ^ 8 ∧
      x.serial = (0x70000000000 : Word).toNat / 2 ^ 40 % 2 ^ 16 ∧ x.addr = there.addr) ∧
    ¬ ∃ x ∈ [e], x.part = (s 0 [e] o).partNo 0 ∧ x.slot = (0x70100000000 : Word).toNat / 2 ^ 32 % 2 ^ 8 := by
  refine ⟨by decide, rfl, rfl, by decide, by decide, rfl, by decide, by decide, ?_, by decide, by decide, by decide, by decide⟩
  intro i h
  exact ⟨_, List.mem_map.2 ⟨i, List.mem_range.2 h, rfl⟩, rfl, rfl⟩

/-- A fired trigger to be sent, one refused, and one that each status answers. -/
theorem test_premises_TriggerMessages :
    let m : Msg := { header := 0, dst := 0, dstModule := 0, chan := 3, isTask := true, pri := 0, entry := 0, payload := [], nxm := false
                     pasid := 1, slice := some 0 }
    let f : Fired := { msg := m }
    let g : Fired := { f with sent := true, refused := true }
    let s : State := { world runner with slices := [(0, { fired := [f, g] })], net := [{ m with answer := some 2 }] }
    (s.slice 0).fired[0]? = some f ∧ nextFired [] (s.slice 0).fired = some 0 ∧ (s.slice 0).fired[1]? = some g ∧ g.refused = true ∧
    s.net.find? (fun n => m.isMsg n) = some { m with answer := some 2 } ∧ (2 : Word).toNat % 4 = 2 ∧ (0 : Word).toNat % 4 = 0 ∧
    (1 : Word).toNat % 4 = 1 ∧ f.torn = false := by decide

/-- A counter at its threshold and one below it, for waitge, barr and bwait; a fuzzy region that is open; a waitge at its home. -/
theorem test_premises_CountersAndBarriers :
    let s := world runner
    let o : Out := { seq := 0, pc := 0, op := .waitge there 1 1 }
    let t (v : Byte) : State := { world { runner with outs := [o] } with ev := [0, 0], mem := Memory.set [] 0x10000 v }
    let v (s : State) : Word := BitVec.ofNat 64 (natOfBytes (s.mem.read 0x10000 8))
    s.me.attempt = none ∧ isHandler s.cur = false ∧ (∃ u, checkAtomic s s.cur .load 0x400000 8 = (.ok there, u)) ∧
    (∃ u, checkAtomic s s.cur .atomic 0x400000 8 = (.ok there, u)) ∧ s.me.fuzzy ≠ some 0x400000 ∧ s.me.outs = [] ∧
    takesTraps (world { runner with fuzzy := some 0x400000 }).me ∧ ((t 1).ctx 0).out 0 = some o ∧ there.isLocal = false ∧
    o.ans = none ∧ ((t 1).ctx 0).halted = false ∧ ((t 1).ctx 0).mayPerform o = true ∧
    ((t 1).ctx 0).status ≠ .ending ∧ 0 ≤ (v (t 1) - 1).toInt ∧ (v (t 0) - 1).toInt < 0 :=
  ⟨rfl, rfl, ⟨_, rfl⟩, ⟨_, rfl⟩, by decide, rfl, by unfold takesTraps; decide, by decide, rfl, rfl, rfl, by decide, by decide, by decide, by decide⟩

/-- An attempt of one level begun at 0. -/
def Sys2Proof.Tests.level : Level := { tbpc := 0, branchPc := 0, ck := {} }
def Sys2Proof.Tests.attempt (l : List Level) : Attempt := { levels := l, stamp := 0, xd := 1 }

/-- No attempt and six conflicts; an attempt of three levels, of two and of one; its commit; a scan that ends at a tend. -/
theorem test_premises_AttemptsOpenAndClose :
    let l := Tests.level
    let c : Ctx := { runner with series := some { count := 6, stamp := 0 } }
    let a := Tests.attempt [{ l with buf := [{ r := there, b := 1 }] }]
    let s := world { runner with attempt := some a, pc := 4 } { mem := Tests.txCode, xbound := 0x1000 }
    c.attempt = none ∧ c.preempted = none ∧ c.outs = [] ∧ (∀ r, c.series = some r → r.count < 7) ∧
    (Tests.attempt [l, l, l]).levels.length < 4 ∧ (Tests.attempt [l, l]).levels = l :: l :: [] ∧ s.me.attempt = some a ∧
    a.irrevocable = false ∧ s.recordings = [] ∧ s.mayWriteCells 0 [(there, 1)] = true ∧ scan s 0 4 true = .tend 8 := by
  refine ⟨rfl, rfl, rfl, ?_, by decide, rfl, rfl, rfl, rfl, by decide, by decide +kernel⟩
  intro r h
  have h : some ({ count := 6, stamp := 0 } : Series) = some r := h
  cases h
  decide

/-- tabort to a tend; retry to an otherwise, and with none; a context that backs off, a token with a waiter, a sleeper that is woken. -/
theorem test_premises_AttemptsAbortAndWake :
    let l := Tests.level
    let a := Tests.attempt [l]
    let s := world { runner with attempt := some a, pc := 4 } { mem := Tests.txCode, xbound := 0x1000 }
    let t : State := { world { runner with status := .backoff } with ev := [0], quarters := [(0, { waiters := [0] })] }
    let u : State := { world { runner with status := .sleeping [], wake := true } with ev := [0] }
    let z (n : Nat) : Ctx := { runner with status := .sleeping [.ring 0], wake := true, since := n }
    let v : State := { u with ctxs := [(0, z 2), (1, z 1)] }
    s.me.attempt = some a ∧ a.irrevocable = false ∧ s.me.outs = [] ∧ s.me.later = [] ∧ a.levels.getLast? = some l ∧ a.levels = l :: [] ∧
    scan s s.myQuad l.tbpc true = .tend 8 ∧ scan s s.myQuad l.branchPc false = .alt 4 ∧ scan s s.myQuad 4 false = .tend 8 ∧
    isHandler s.cur = false ∧ s.me.wake = false ∧ (t.ctx 0).status = .backoff ∧ (t.quarter 0).token = none ∧
    (t.quarter 0).waiters = 0 :: [] ∧ (u.ctx 0).status = .sleeping [] ∧ (u.ctx 0).wake = true ∧ (u.ctx 0).halted = false ∧
    (∀ e ∈ u.ctxs, wakesBefore u e.1 0 e.2 (u.ctx 0) = false) ∧ (∃ e ∈ v.ctxs, wakesBefore v e.1 0 e.2 (v.ctx 0) = true) ∧
    (∀ e ∈ v.ctxs, wakesBefore v e.1 1 e.2 (v.ctx 1) = false) := by decide +kernel

/-- A record of 64 zero bytes is one that spawn takes, into a queue of 27; halt, halt.k and tail in a task with a tracker of 7. -/
theorem test_premises_TasksStartAndEnd :
    let s := world runner
    let r : Ref := { isLocal := true, addr := 0x1000 }
    s.me.attempt = none ∧ s.me.outs = [] ∧ checkAccess s s.cur .load 0x1000 64 64 = (.ok r, s) ∧
    (RecFields.of ((r.span 64).map (s.readByte s.myQuad false))).ok = true ∧ queueHasRoom 27 2 = true ∧ queueHasRoom 31 3 = true ∧
    isHandler s.cur = false ∧ (List.replicate 7 ((none, []) : Option Nat × List Out)).length < 8 := by decide +kernel

/-- Destinations and descriptors: bit 44 and bit 38 set, a word in no grid, a quarter that is not the partition's, and good ones. -/
theorem test_premises_MessagesLeave :
    let s := world runner
    let t : State := { s with parts := [(0, { ground with quarters := 1 })] }
    s.me.attempt = none ∧ s.me.outs = [] ∧ (¬ ∃ m : Msg, s.me.msg = some m ∧ m.reply = true) ∧
    (2 ^ 44 : Word).toNat / 2 ^ 44 ≠ 0 ∧ (2 ^ 38 : Word).toNat / 2 ^ 38 ≠ 0 ∧ (1 : Word).toNat % 4 ≠ 0 ∧
    destExists s 0x1FFF = false ∧ destExists s 0x3 = true ∧ destAllowed s (quarterOf s.myQuad) 0x3 = true ∧
    destAllowed t (quarterOf t.myQuad) 0x1000 = false ∧ Tests.request.reply = false ∧ descriptorOk 0 = true := by
  refine ⟨rfl, rfl, ?_, by decide, by decide, by decide, by decide, by decide, by decide, by decide, rfl, by decide⟩
  rintro ⟨m, h, -⟩
  have h : (none : Option Msg) = some m := h
  cases h

/-- Each decision at the destination, its limits met exactly; the status of an amsend; a reply that is to be sent again; a reply that leaves
and one behind an earlier reply. -/
theorem test_premises_MessagesArrive :
    let m := Tests.request
    let s : State := { world runner with ev := [0], net := [m] }
    let out : Out := { seq := 4, pc := 0, op := .send 1 }
    let n : Msg := { m with sender := some (0, 4), answer := some 0 }
    let w : State := { world { runner with outs := [out] } with ev := [0], net := [{ m with sender := some (0, 4) }] }
    let r : State := { world runner with ev := [0], net := [{ m with reply := true }] }
    let t : State := { world { runner with outs := [out] } with ev := [0, 4], net := [n] }
    let u : State := { world runner with ev := [0, 0], cores := [(0, { sending := [{ m with reply := true }] })] }
    let o : Out := { seq := 5, pc := 0, op := .reply m }
    let v (l : List Out) : State := { world { runner with outs := l } with ev := [0, 5] }
    (((v [o]).ctx 0).out 5 = some o ∧ o.ans = none ∧ o.pure = false ∧ ((v [o]).ctx 0).mayPerform o = true ∧
      ((v [o]).ctx 0).status ≠ .ending) ∧ (((v [{ o with seq := 4 }, o]).ctx 0).out 5 = some o ∧ { o with seq := 4 }.blocks o = true ∧
      ((v [{ o with seq := 4 }, o]).ctx 0).mayPerform o = false) ∧
    s.net[0]? = some m ∧ arrivalReady s 0 = true ∧ s.recordings = [] ∧ m.reply = false ∧ m.sender = none ∧
    s.partFor (quarterOf (quadOfCore m.dst)) = some (0, ground) ∧ ground.holds 1 = true ∧ ground.holds 2 = false ∧
    ground.mode = .running ∧ PartMode.preempted ≠ .running ∧ s.requestOcc 0 < (s.core 0).mbdepth ∧ 16 ≤ 16 ∧
    queueHasRoom 28 2 = false ∧ queueHasRoom 27 2 = true ∧
    t.net.find? (fun m => m.isOf 0 4) = some n ∧ (t.ctx 0).out 4 = some out ∧ out.ans = none ∧ (t.ctx 0).mayPerform out = true ∧
    (t.ctx 0).status ≠ .ending ∧ ((w.ctx 0).out 4).isSome = true ∧ (w.ctx 1).out 4 = none ∧ arrivalReady w 0 = true ∧
    r.net[0]? = some { m with reply := true } ∧ arrivalReady r 0 = true ∧ (r.ctx (handlerOf 0)).status ≠ .ending ∧ r.replyOcc 0 < 4 ∧
    4 ≤ ({ r with cores := [(0, { replies := [m, m, m, m] })] } : State).replyOcc 0 ∧ (u.core 0).sending[0]? = some { m with reply := true } ∧ u.net.contains { m with reply := true } = false := by decide

/-- The last page of a work queue's descriptor, checked for enq and deq; at its home a bad one, a full one of two, one of two with one
record, an empty one. -/
theorem test_premises_WorkQueues :
    let s := world runner
    let o : Out := { seq := 0, pc := 0, op := .deq there 1 0x20000 0x20000 }
    let t : State := { world { runner with outs := [o] } with ev := [0, 0] }
    let d (tail cap : Byte) : QueueDesc := QueueDesc.of ((List.replicate 8 (0 : Byte)) ++ [tail] ++ List.replicate 7 0 ++ [cap] ++ List.replicate 47 0)
    let used (q : QueueDesc) : Nat := (q.tail + 2 ^ 64 - q.head) % 2 ^ 64
    s.me.attempt = none ∧ s.me.outs = [] ∧
    (precheck s s.cur [{ a := 0x400000, align := 64, globalOnly := true, kind := .store }, { a := 0x1000, align := 64 }]).1 = none ∧
    (∃ u, checkAccess s s.cur .store 0x400000 64 64 = (.ok there, u)) ∧ checkAccess s s.cur .load 0x1000 64 64 = (.ok { isLocal := true, addr := 0x1000 }, s) ∧
    ((2 : BitVec 5).toNat < 3 ∨ 9 < (2 : BitVec 5).toNat) ∧ (t.ctx 0).out 0 = some o ∧ o.ans = none ∧ o.pure = false ∧
    (t.ctx 0).mayPerform o = true ∧ (t.ctx 0).status ≠ .ending ∧ there.isLocal = false ∧ (d 0 0).bad 0x10000 0x20000 false = true ∧
    (d 2 1).bad 0x10000 0x20000 false = false ∧ used (d 2 1) = 2 ^ (d 2 1).log2cap ∧ used (d 1 1) ≠ 2 ^ (d 1 1).log2cap ∧
    used (d 0 1) = 0 ∧ used (d 1 1) ≠ 0 ∧ (d 1 1).bad 0x10000 0x100C0 false = false ∧ t.mayWriteCells 0 (cellsAt there 0x10000 [0]) = true ∧
    s.poisonSeen s.cur there 64 = false ∧ (∀ n, headSlot s there (pageEnd s s.cur 0x400000) = some n → s.poisonSeen s.cur (there.plus n) 64 = false) :=
  ⟨rfl, rfl, by decide, ⟨_, rfl⟩, by decide, by decide, by decide, rfl, rfl, by decide, by decide, rfl, by decide, by decide, by decide, by decide,
    by decide, by decide, by decide, by decide, by decide, by decide⟩

/-- An index of no register; and user state for TSTATUS. -/
theorem test_premises_ControlRegisters :
    ctlReg 0xFFF = none ∧ takesTraps runner ∧ (0 : Nat) < 4 ∧ (3 : Nat) < 4 ∧ (14 : Nat) < 15 ∧ runner.ctl.sys = true ∧
    ({ runner with ctl := { runner.ctl with sys := false } } : Ctx).ctl.sys = false := by unfold takesTraps; decide

/-- Each limit of the write forms: any value, an offset at and past the capacity, a context at no loop's end, idle engines, words for TLBASE
that the TLB's page grants and ones out of form, an index that user state may not write and one that none may. -/
theorem test_premises_ControlRegisterWrites :
    let s := world (xs [(1, 0x400000)])
    let c := s.me
    let q := s.quad s.myQuad
    let offset (v : Word) : Prop := v.toNat % 2 ^ 12 = 0 ∧ v.toNat ≤ capacity s.myLayer
    let words (v : Word) : Prop := v.toNat < 2 ^ 57 ∧ v.toNat % 2 ^ 7 = 0 ∧ (v = 0 ∨ 0x400000 ≤ v.toNat)
    let cells : List (Ref × Byte) := q.dones.zipIdx.flatMap fun e => cellsOf (there.plus (8 * e.2)) 8 e.1
    c.replay = none ∧ c.ctl.sys = true ∧ c.lp0.atEnd c.pc = false ∧ c.lp1.atEnd c.pc = false ∧ c.attempt = none ∧ offset 0x280000 ∧
    ¬ offset 0x281000 ∧ ¬ offset 1 ∧ takesTraps c ∧ words 0x400000 ∧ ¬ words 0x400001 ∧ ¬ words 0x3FFF80 ∧ (∀ e ∈ q.copy, e.2.queue = []) ∧
    q.tq = [] ∧ c.getX 1 ≠ 0 ∧ s.mayWriteCells 0 cells = true ∧ (CopyRegs.ext {}).length = 4 ∧ (CopyRegs.sstride {}).length = 4 ∧
    (CopyRegs.dstride {}).length = 4 ∧ (14 : Nat) < 15 ∧ ctlReg 0xFFF = none ∧ ctlReg 0x204 = some .tstatus ∧
    CtlReg.tstatus.writable false = false ∧ CtlReg.layerid.writable true = false := by
  unfold takesTraps; decide

/-- The place of the five words is granted. -/
theorem test_premises_ControlRegisterWrites_place :
    let s := world runner
    ∃ r s', globalCheck s s.cur .store 0x400000 0 = (.ok r, s') := ⟨_, _, rfl⟩

/-- XBOUND at the capacity and past it, DISPTH and MBDEPTH in system state, TLBASE 0 with idle engines, the loop registers. -/
theorem test_premises_RegisterWriteSteps :
    let s : State := { world runner with ev := [0x280000] }
    let q := s.quad s.myQuad
    s.me.status = .running ∧ s.me.halted = false ∧ 0x280000 < 2 ^ 64 ∧ (0x280000 % 2 ^ 12 = 0 ∧ 0x280000 ≤ capacity s.myLayer) ∧
    ¬ (0x281000 % 2 ^ 12 = 0 ∧ 0x281000 ≤ capacity s.myLayer) ∧ ¬ (1 % 2 ^ 12 = 0) ∧ takesTraps s.me ∧ s.me.ctl.sys = true ∧
    (∀ e ∈ q.copy, e.2.queue = []) ∧ q.tq = [] ∧ s.me.replay = none := by unfold takesTraps; decide

/-- Code whose first word is illegal, a full window, a pending timer, poison-free code, a context without a handler and one inside
its handler, eret in both states. -/
theorem test_premises_Traps :
    let s : State := { world { runner with ibuf := [(0, 0)], opens := false, window := 32, timers := 1 } { xbound := 0x1000 } with ev := [0x12, 0, 0, 0] }
    let t : State := world { runner with opens := false, window := 32 } { xbound := 0x1000, mem := Memory.set [] 3 0x2A }
    takesTraps s.me ∧ s.me.status = .running ∧ s.me.halted = false ∧ s.me.ibuf.has s.me.pc.toNat = true ∧
    s.me.ibuf.get 0 s.me.pc.toNat = 0 ∧ decode 0 = .illegal .zeroWord ∧ s.me.declined = none ∧ s.me.power = none ∧ t.me.timers = 0 ∧
    (s.quad s.myQuad).xbound.toNat ≤ (0x1000 : Word).toNat ∧ t.me.pc.toNat < (t.quad t.myQuad).xbound.toNat ∧ (t.quad t.myQuad).poison = [] ∧
    t.me.opens = false ∧ 32 ≤ t.me.window ∧ fetchCause.wordSettles (fetch t).1 = false ∧ 0 < s.me.timers ∧ s.recordings = [] ∧
    ({ runner with ctl := {} } : Ctx).ctl.tvec.getLsbD 0 = false ∧ s.me.ctl.sys = true ∧ s.me.attempt = none ∧ s.me.replay = none ∧
    s.me.pc.toNat % 4 = 0 ∧ (s.core s.myCore).sending = [] ∧ s.me.outs = [] ∧ s.me.later = [] ∧ s.me.deferred = none ∧ s.me.carry = none := by
  unfold takesTraps; decide

/-- The trap that brk enters on a state of these premises is one that an eret can follow. -/
theorem test_premises_Traps_return :
    let s := world runner
    let t := s.onMe fun c => { c with
      pc := setFld c.ctl.tvec 0 2 0, prevPc := c.pc, opens := true
      ctl := { c.ctl with tpc := setFld c.pc 0 2 0, tcause := word 0x0D, tval := 0, psys := c.ctl.sys, sys := true, intrap := true } }
    exec (.brk false) s = .next t ∧ takesTraps s.me ∧ s.me.replay = none := by
  unfold takesTraps
  refine ⟨rfl, by decide, rfl⟩

/-- Caches and TLBs: system state, the edges of the translated range, a walk through one table that ends at a page of 64 KiB, a block at
the last place of a full area, a host line. -/
theorem test_premises_FetchPagesAndCaches :
    let s : State := { world runner with ev := [0, 1, 0x10000000] }
    (∀ o ∈ s.me.outs, o.pending = true → (o.isStore && o.isLocal) = false) ∧ s.me.ctl.sys = true ∧ s.partOf s.cur = some (0, ground) ∧
    (∀ e ∈ s.ctxs, e.2.outs = [] ∧ e.2.status ≠ .ending) ∧ (∀ e ∈ s.cores, e.2.tracker = []) ∧ s.gangs = [] ∧ 0x400000 ≤ (0x400000 : Word).toNat ∧ (0x1FFFFFFFFFFFFFF : Word).toNat < 2 ^ 57 ∧
    (1 : Word).toNat < 2 ^ 20 ∧ (∃ e ∈ ground.pasids, e.1 = 1) ∧ s.build.hasQuad 0 = true ∧ 0x10000000 < 2 ^ 57 ∧
    s.partOfQuarter (quarterOf 0) = some (0, ground) ∧ (s.quarter 0).tlb = [] ∧ ({ s with quads := [] } : State).quad 0 = {} ∧
    blockOfDie s 0 0 = true ∧ (s.die 0).promoted.contains 0 = false ∧ (s.die 0).promoted.length < 81920 ∧ [5].contains 5 = true ∧
    (((s.die 0).hints.get (0, 0) 5).1 ≠ 2) ∧ 39 < bankCount (quadLayer 0) ∧ isHostPa s 0x200000000000 = true ∧ 255 < 256 ∧
    s.mayWrite none [(0x200000000000, 0)] = true ∧ noAttempts s ∧
    (let d : Die := { promoted := [5, 6], hints := [(5, (2, 0))] }
     (d.hints.get (0, 0) 5).1 = 2 ∧ (∃ x ∈ d.promoted, ¬ (d.hints.get (0, 0) x).1 = 2) ∧ ∀ x ∈ [5], (d.hints.get (0, 0) x).1 = 2) := by
  unfold noAttempts; decide

/-- R259, R260: a walk through the tables of `tables`, each of which names the next (bits [51:8] of a node at [55:12] of the entry), ends
at the page of 64 KiB at physical 0x10000, readable and writable. -/
theorem test_walk_ends_at_its_page : walk { world runner with mem := tables } ground 1 0x40ABCD = .page page := by decide

/-- A record of priority 3 among others, the lowest free context; replies before requests; a promotion; a steal from a sibling; a probe
of another quad of the layer and quarter, sent, arrived and come back; a tracker entry with one store. -/
theorem test_premises_SchedulingSteps :
    let r : Record := { entry := 0, pri := 3, flags := 3, x3 := 0, args := [], nxm := false, pasid := 1, src := 1 }
    let low : Record := { r with pri := 2 }
    let m := Tests.request
    let s : State := { world {} with ev := [0], cores := [(0, { queue := [low, r], requests := [m] }), (1, { queue := [r] })] }
    let t : State := { world {} with ev := [0, 4], cores := [(0, {}), (4, { queue := [r] })] }
    let p (x : Option Record) : State := { world {} with ev := [0], cores := [(0, { probe := some (4, x) }), (4, { queue := [r] })] }
    let cells : List (Ref × Byte) := [(there, 1)]
    let o : Out := { seq := 0, pc := 0, op := .store cells }
    let u : State := { world {} with ev := [0, 0], cores := [(0, { tracker := [(none, [o])] })] }
    coreOn s 0 = true ∧ (s.ctx 0).status = .free ∧ r ∈ (s.core 0).queue ∧ r.pri ≤ 3 ∧ (∀ x ∈ (s.core 0).queue, x.pri ≤ r.pri) ∧
    (s.core 0).queue.find? (fun x => x.pri == r.pri) = some r ∧ (s.ctx 4).status = .free ∧ m.nxm = (s.ctx 4).nxm ∧
    (s.core 0).replies = [] ∧ (s.core 0).requests = m :: [] ∧ (s.core 0).queue[0]? = some low ∧ low.pri < 3 ∧
    coreOn s 2 = true ∧ coreIdle s 2 = true ∧ bestSibling s 2 = some 0 ∧ bestRecord Record.stealable (s.core 0).queue = some r ∧
    coreOn t 0 = true ∧ coreIdle t 0 = true ∧ bestSibling t 0 = none ∧ (t.core 0).probe = none ∧ mayProbe t 0 4 = true ∧
    ((p none).core 0).probe = some (4, none) ∧ coreRuns (p none) 4 = true ∧
    bestRecord (fun x => x.stealable && x.isPortable) ((p none).core 4).queue = some r ∧ ((p (some r)).core 0).probe = some (4, some r) ∧
    r.gate = none ∧ (u.core 0).tracker[0]? = some (none, [o]) ∧ o.ans = none ∧ (u.onCtx 5 fun _ => { outs := [o] }).mayWriteCells 5 cells = true ∧
    ((4 : Nat) ≠ 0) := by decide +kernel

/-- No gate, and one whose release is neither among its context's accesses nor in the tracker. -/
theorem test_premises_passed : (world {}).passed none ∧ (world {}).passed (some (0, 3)) :=
  ⟨fun _ h => (by cases h), fun p h => by cases h; decide⟩

/-- A core with no free context, for the record that a probe brings. -/
theorem test_premises_SchedulingSteps_full :
    let s : State := { world runner with ctxs := [(0, runner), (1, runner), (2, runner), (3, runner)] }
    (freeTask s 0).isNone = true ∧ coreOn s 0 = true ∧ queueHasRoom (s.core 0).queue.length 0 = true := by decide

/-- The shadow set of reset (a byte, once), which passes every test, and one whose extent is 0; a full-length gather descriptor. -/
theorem test_premises_CopyInstructions :
    let s := world runner
    let q := s.quad s.myQuad
    let r : CopyRegs := {}
    let d : Memory := Memory.set (Memory.set (Memory.set (Memory.set [] 0x1008 1) 0x100C 8) 0x1012 0x40) 0x1018 1
    let t := world runner { mem := d }
    let bs := (Ref.span { isLocal := true, addr := 0x1000 } 64).map (t.readByte t.myQuad false)
    let g := GatherRegs.of false bs
    let rec_ : CachedRecord := { pasid := 1, va := 0x1000, bytes := List.replicate 64 0 }
    let held := (world runner { records := [rec_] }).quad 0
    s.me.attempt = none ∧ s.me.outs = [] ∧ s.me.task.portable = false ∧ (q.copyCtx 3).regs = r ∧ r.check q = none ∧
    r.srcRole.met q = true ∧ r.dstRole.met q = true ∧ (q.copyCtx 3).queue.length < 4 ∧
    ({ r with ext := [1, 0, 1, 1] } : CopyRegs).check q = some 3 ∧ takesTraps s.me ∧
    checkAccess t t.cur .load 0x1000 64 64 = (.ok { isLocal := true, addr := 0x1000 }, t) ∧
    g.bad (t.quad t.myQuad) t.myLayer (natOfBytes (bs.drop 0x2A)) = none ∧ g.role.met (t.quad t.myQuad) = true ∧
    (GatherRegs.of true bs).bad (t.quad t.myQuad) t.myLayer (natOfBytes (bs.drop 0x2A)) = none ∧
    natOfBytes (bs.drop 8) / 2 ^ 57 % 128 = 0 ∧ q.records.find? (fun e => e.pasid == s.me.ctl.pasid && e.va == 0x1000) = none ∧
    (held.records.find? fun e => e.pasid == s.me.ctl.pasid && e.va == 0x1000) = some rec_ ∧ natOfBytes (rec_.bytes.drop 8) / 2 ^ 57 % 128 = 0 ∧
    (0x1000 : Word).toNat % 64 = 0 ∧
    (3 : Word).toNat % 8 < 4 ∧ (4 : Word).toNat % 8 = 4 ∧ (0x200 : Word).toNat / 2 ^ 8 % 4 = 2 := by unfold takesTraps; decide +kernel

/-- The first element of a copy whose addresses are granted, and of ones whose source or destination lies past the capacity; one that
converts. -/
theorem test_premises_CopyEngineSteps :
    let r : CopyRegs := {}
    let o (a : Word) : CopyOp := { num := 1, work := .copy r, sbase := a, dbase := 0x100, rm := 0, nxm := false, pasid := 1 }
    let s (x : CopyOp) : State := { world runner { copy := [(0, { queue := [x] })] } with ev := [0, 0, 1] }
    let l (a : Nat) : Ref := { isLocal := true, addr := a }
    let fresh (x : CopyOp) : Bool := !x.finished && !x.walked && !x.abort && (s x).ev == [0, 0, 1]
    ((s (o 0)).quad 0).copyCtx 0 = { queue := [o 0] } ∧ fresh (o 0) = true ∧ (o 0).work = .copy r ∧
    (o 0).gate = none ∧ convSides r.conv = some (.raw 1, .raw 1) ∧ walkOffset r.ext r.sstride 0 = 0 ∧ convSides 0x11 = some (.elem 0, .elem 1) ∧
    engineCheck (s (o 0)) 0 1 0x27FFFF 1 1 false true = (.ok (l 0x27FFFF), s (o 0)) ∧
    engineCheck (s (o 0)) 0 1 0x100 1 1 true true = (.ok (l 0x100), s (o 0)) ∧
    engineCheck (s (o 0)) 0 1 0x280000 1 1 false true = (.error .access, s (o 0)) ∧
    engineCheck (s (o 0)) 0 1 0x280000 1 1 true true = (.error .access, s (o 0)) := by decide +kernel

/-- The first position of a gather, inside and at EXTENT, and of a scatter. -/
theorem test_premises_CopyEngineSteps_rows :
    let r : CopyRegs := {}
    let o (a : Word) : CopyOp := { num := 1, work := .copy r, sbase := a, dbase := 0x100, rm := 0, nxm := false, pasid := 1 }
    let g (sc : Bool) (ext : Nat) : GatherRegs := { scatter := sc, index := 0x1000, count := 1, rowsize := 8, table := 0x400000, extent := ext
                                                    local_ := 0x200, lkind := 0, lobj := 0 }
    let p (sc : Bool) (ext : Nat) : CopyOp := { o 0x200 with work := .gather (g sc ext) }
    let s (x : CopyOp) : State := { world runner { copy := [(0, { queue := [x] })] } with ev := [0, 0, 1] }
    let l (a : Nat) : Ref := { isLocal := true, addr := a }
    let fresh (x : CopyOp) : Bool := !x.finished && !x.walked && !x.abort && (s x).ev == [0, 0, 1]
    fresh (p false 1) = true ∧ (p false 1).gate = none ∧ (g false 1).rowsize % 8 = 0 ∧
    engineCheck (s (p false 1)) 0 1 0x1000 8 8 false true = (.ok (l 0x1000), s (p false 1)) ∧
    natOfBytes (((l 0x1000).span 8).map ((s (p false 1)).readByte 0 true)) = 0 ∧ (g true 0).extent ≤ 0 ∧ 0 < (g false 1).extent ∧
    0x400000 ≤ (0x400000 : Word).toNat ∧
    engineChecks (s (p false 1)) 0 1 false false 8 (pieces 0x400000 8) = (.ok [there], s (p false 1)) ∧
    engineChecks (s (p false 1)) 0 1 true true 8 (pieces 0x200 8) = (.ok [l 0x200], s (p false 1)) ∧
    engineChecks (s (p true 1)) 0 1 true false 8 (pieces 0x400000 8) = (.ok [there], s (p true 1)) ∧
    engineChecks (s (p true 1)) 0 1 false true 8 (pieces 0x200 8) = (.ok [l 0x200], s (p true 1)) := by decide +kernel

/-- The blocks of a quantising and of a dequantising copy. -/
theorem test_premises_CopyEngineSteps_blocks :
    let r (n : Word) : CopyRegs := { fmt := n, ext := [32, 1, 1, 1], sstride := [4, 0, 0, 0x8000], dstride := [4, 0, 0, 0x8000] }
    let o (n : Word) : CopyOp := { num := 1, work := .copy (r n), sbase := 0x1000, dbase := 0x2000, rm := 0, nxm := false, pasid := 1 }
    let s (n : Word) : State := { world runner { copy := [(0, { queue := [o n] })] } with ev := [0, 0, 1] }
    let granted (write : Bool) (n : Nat) (l : List Word) : Bool := match (engineChecks (s 0x41) 0 1 write true n l).1 with
      | .ok _ => true | .error _ => false
    convSides (r 0x41).conv = some (.elem 1, .block 10) ∧ convSides (r 0x61).conv = some (.block 10, .elem 1) ∧ fmtOf 1 = some .f32 ∧
    granted false (elemSize 1) (blockElems 0x1000 [32, 1, 1, 1] [4, 0, 0, 0x8000] 0) = true ∧
    granted true 8 (pieces 0x2000 (mantBytes 10)) = true ∧ granted true 1 [0xA000] = true ∧
    granted false 8 (pieces 0x1000 (mantBytes 10)) = true ∧ granted false 1 [0x9000] = true ∧
    granted true (elemSize 1) (blockElems 0x2000 [32, 1, 1, 1] [4, 0, 0, 0x8000] 0) = true := by decide +kernel

/-- An operation that is to write its last word, local and in the page; one at an address past the capacity; two words that join and two
that do not; a word that the host refuses; a scatter's row in host memory; one that is aborted; one that is finished, with no words for its
timeline, with one and with one that is not granted. -/
theorem test_premises_CopyEngineSteps_words :
    let o : CopyOp := { num := 1, work := .copy {}, sbase := 0, dbase := 0x100, rm := 0, nxm := false, pasid := 1 }
    let w (a : Word) : Placed := { dword := a, first := a, bytes := [(0, 7)] }
    let s (x : CopyOp) (tl : Word) : State :=
      { world runner { copy := [(0, { queue := [x] })], tlbase := tl, tlpasid := 1 } with ev := [0, 0, 1] }
    let l (a : Nat) : Ref := { isLocal := true, addr := a }
    let p (a : Word) : CopyOp := { o with walked := true, buf := [w a] }
    (p 0x100).walked = true ∧ (p 0x100).gate = none ∧ (p 0x100).finished = false ∧ (p 0x100).buf = w 0x100 :: [] ∧
    engineCheck (s (p 0x100) 0) 0 1 0x100 8 8 true true = (.ok (l 0x100), s (p 0x100) 0) ∧
    (s (p 0x100) 0).mayWriteLocal none 0 (localCells [(l 0x100, 7)]) = true ∧ (s (p 0x100) 0).mayWrite none (globalCells [(l 0x100, 7)]) = true ∧
    engineCheck (s (p 0x400000) 0) 0 1 0x400000 8 8 true true = (.ok there, s (p 0x400000) 0) ∧
    (s (p 0x400000) 0).mayWrite none (globalCells [(there, 7)]) = true ∧
    (p 0x400000).joins (s o 0) 0 (w 0x400000) (w 0x400000) = true ∧ (p 0x400000).joins (s o 0) 0 (w 0x400000) (w 0x400008) = false ∧
    (s (p 0x400000) 0).refuses there = false ∧ ({ s (p 0x400000) 0 with hostRefuses := [2 ^ 42 / 8] } : State).refuses { there with addr := 2 ^ 42 } = true ∧
    (s (p 0x100) 0).refuses (l 0x100) = false ∧
    engineCheck (s (p 0x280000) 0) 0 1 0x280000 8 8 true true = (.error .access, s (p 0x280000) 0) ∧
    ({ o with abort := true } : CopyOp).abort = true ∧ ({ o with finished := true } : CopyOp).finished = true ∧
    ((s o 0).quad 0).tlbase = 0 ∧ ((s o 0x400000).quad 0).tlbase ≠ 0 ∧
    engineCheck (s o 0x400000) 0 1 0x400000 8 8 true true = (.ok there, s o 0x400000) ∧
    (s o 0x400000).refuses there = false ∧ ({ s o 0x400000 with hostRefuses := [2 ^ 42 / 8] } : State).refuses { there with addr := 2 ^ 42 } = true ∧
    (s o 0x400000).mayWrite none (globalCells (cellsOf there 8 1)) = true ∧
    engineCheck (s o 0x200000000000000) 0 1 0x200000000000000 8 8 true true = (.error .access, s o 0x200000000000000) := by decide +kernel

/-- An L0 core with source and destination tiles for one row of FMT 0, an image at a page's start, no completion word and one; core 0
of a gang at its barrier with buffer G loaded; a gang with one load before. -/
theorem test_premises_MatrixSubmits :
    let c : Ctx := { runner with ctl := { runner.ctl with mscl := 64 } }
    let b : Buffer := { id := { pa := 0x10000, fmt := 0, bscl := 0, nxm := false }, mant := [], scales := [] }
    let src : Tile := { off := 0, size := 0x1000, st := .ready }
    let dst : Tile := { off := 0x1000, size := 0x8000, st := .empty }
    let s : State := { world c { tiles := [(0, src), (1, dst)] } with gangs := [(0, { bufG := some b })] }
    let q := s.quad s.myQuad
    let key : Key := { pb := 0x10000, fmt := 0, bscl := 0, ofmt := 0, rm := 0, nxm := false, domain := 0 }
    s.me.attempt = none ∧ s.me.outs = [] ∧ s.myLayer = 0 ∧ s.me.task.portable = false ∧ s.me.sampled.refused false = none ∧
    descBad 0x10100 false = false ∧ tilesBad q s.me.sampled 0x10100 true 128 = none ∧
    (∃ p, checkImage s 0x400000 s.me.sampled = (.ok (there, p), s)) ∧ checkCword s 0 = (.ok none, s) ∧
    checkCword s 0x40FFF8 = (.ok (some { there with addr := 0x1FFF8 }), s) ∧ q.tile? 0 = some src ∧ src.st = .ready ∧
    q.tile? 1 = some dst ∧ dst.st = .empty ∧ (s.gang 0).hasRoom key 1 = true ∧ s.me.sampled.refused true = none ∧
    (s.gang s.myGang).agrees 0 false = true ∧ descBad 0x100 true = false ∧
    tilesBad q s.me.sampled 0x10100 (gangCore s.myCore == 0) 16 = none ∧ (s.gang 0).arrivals.has 0 = false ∧ (s.gang 0).loads.length < 2 ∧
    c.ctl.mfmtb.toNat % 4 ≠ 3 ∧ s.replayOf (s.gangPart s.myGang) = none :=
  ⟨rfl, rfl, rfl, rfl, by decide, by decide, by decide, ⟨_, rfl⟩, by decide, by decide, by decide, rfl, by decide, rfl, by decide, by decide,
    by decide, by decide, by decide, by decide, by decide, by decide, rfl⟩

/-- mflush of 0, a gang with nothing of the context and one with a load of it, identifiers 0 and 1 of one issued, an image whose key no
instance has, and one whose key an OPEN instance has. -/
theorem test_premises_MatrixQueries :
    let s := world runner
    let key : Key := { pb := 0x10000, fmt := 0, bscl := 0, ofmt := 0, rm := 0, nxm := false, domain := 0 }
    let i : Inst := { key, st := .isOpen, members := [], made := 0 }
    let id : BufId := { pa := 0, fmt := 0, bscl := 0, nxm := false }
    let t : State := { s with gangs := [(0, { loads := [{ core := 0, id, cword := none, made := 0, ctx := some 0 }] })] }
    (t.gang 0).pending t.cur = true ∧ ({ insts := [(0, i)] } : Gang).joinable key 1 = some (0, i) ∧
    s.me.attempt = none ∧ s.myLayer = 0 ∧ (s.gang s.myGang).pending s.cur = false ∧ s.me.sampled.refused false = none ∧
    (∃ r p, checkImage s 0x400000 s.me.sampled = (.ok (r, p), s)) ∧ (0x400000 : Word) ≠ 0 ∧
    (s.gang s.myGang).joinable { pb := 0, fmt := 0, bscl := 0, ofmt := 0, rm := 0, nxm := false, domain := 0 } 1 = none :=
  ⟨by decide, by decide, rfl, rfl, by decide, by decide, ⟨_, _, rfl⟩, by decide, by decide⟩

/-- A load with and without a word, whose value is one and two short of 2^64; one from before a switch; DUE and OPEN instances, with an image
and without; one candidate of each kind, whose member has its tiles; members that have streamed, outside and inside the code region, of an
instance and of an mgang. -/
theorem test_premises_GangSteps :
    let id : BufId := { pa := 0, fmt := 0, bscl := 0, nxm := false }
    let l (w : CWord) (old : Bool) : BufLoad := { core := 0, id, cword := w, made := 0, ctx := some 0, va := 0x400000, old }
    let key : Key := { pb := 0, fmt := 0, bscl := 0, ofmt := 0, rm := 0, nxm := false, domain := 0 }
    let m : Member := { core := 0, ctx := none, seq := 0, ident := 1, rows := 1, stile := 0, dtile := 1, cin := false, ascl := 0, cword := none, pri := 0 }
    let i : Inst := { key, st := .due, members := [m], made := 0 }
    let x : Streamed := { m, cells := [(0x1000, 1)], cond := 0, nan := false }
    let g (w : CWord) : Gang := { loads := [l w false] }
    let s (g : Gang) : State := { world runner { xbound := 0x1000 } with ev := [0], gangs := [(0, g)] }
    let full (v : Nat) : State := { s (g (some there)) with mem := Memory.write [] 0x10000 (bytesOfNat 8 v) }
    let b : Buffer := { id, mant := [1], scales := [1] }
    let z : Arrival := { m, fmt := 0, ofmt := 0, rm := 0, nxm := false }
    let arr : Map Arrival := [(0, z)]
    let tiled : Quad := { tiles := [(0, { off := 0x1000, size := 128, st := .ready }), (1, { off := 0x2000, size := 1024, st := .empty })] }
    ((∀ a, i.key.pb ≤ a → a < i.key.pb + i.key.bscl + 8192 → (s {}).poisonedAt a = false) ∧ b.bad = [] ∧ i.key.fmt < 3 ∧ i.key.ofmt < 6 ∧
      m.cin = false ∧ tiled.poison = [] ∧ (tiled.tile? m.stile).isSome = true ∧ (tiled.tile? m.dtile).isSome = true ∧
      arr.head?.map (·.2) = some z ∧ b.id.fmt = z.fmt ∧ b.id.nxm = z.nxm ∧ z.fmt < 3 ∧ z.ofmt < 3) ∧
    ({ ready := [(0, arr)], bufG := some b } : Gang).loads = [] ∧
    (g none).loadRuns = true ∧ there.isLocal = false ∧ natOfBytes ((full (2 ^ 64 - 2)).gread 0x10000 8) + 1 < 2 ^ 64 ∧
    2 ^ 64 ≤ natOfBytes ((full (2 ^ 64 - 1)).gread 0x10000 8) + 1 ∧ (l none true).old = true ∧ (l none false).ctx = some 0 ∧
    (s (g (some there))).mayWrite none (globalCells (cellsAt there 0x10000 (bytesOfNat 8 1))) = true ∧
    (s (g (some there))).mayWrite none (globalCells ((s {}).served (cellsAt there 0x10000 (bytesOfNat 8 1)))) = true ∧
    i.st = .due ∧ i.image = none ∧ (0, i) ∈ ({ insts := [(0, i)] } : Gang).insts ∧ (s { insts := [(0, i)] }).recordings = [] ∧
    (∀ e ∈ ([(0, i), (1, { i with made := 1 })] : Map Inst), if e.1 = 0 then e.2 = i else e.2.st = .due → 0 ≤ (0 : Nat) ∧
      (i.due < e.2.due ∨ (i.due = e.2.due ∧ i.made < e.2.made))) ∧
    (∀ e ∈ ([(0, i), (1, { i with st := .running })] : Map Inst), if e.1 = 0 then e.2 = i else e.2.st ≠ .due) ∧
    (l none true).gate = none ∧ m.gate = none ∧ z.m.gate = none ∧
    (let run (n : Option Nat) : Run := { inst := n, left := [{ x with m := { m with ident := 2 } }, x] }
     let h : Gang := { runs := [run (some 0), run none] }
     h.runs[0]? = some (run (some 0)) ∧ (run (some 0)).left[if (run (some 0)).inst = none then 1 else 0]? = some { x with m := { m with ident := 2 } } ∧
     h.runs[1]? = some (run none) ∧ (run none).left[if (run none).inst = none then 1 else 0]? = some x) ∧
    (∀ e ∈ ([] : Map Inst), e.2.st ≠ .due) ∧ x.m.cword = none ∧ (s {}).mayWriteLocal none 0 [(0x1000, 1)] = true ∧ x.barred = false ∧
    (∀ c ∈ x.cells, ((s {}).quad 0).xbound.toNat ≤ c.1 ∧ c.1 < capacity (quadLayer 0)) ∧
    (∃ c ∈ [((0xFFF : Nat), (1 : Byte))], c.1 < ((s {}).quad 0).xbound.toNat) ∧ capacity (quadLayer 0) ≤ 0x280000 ∧
    ((s {}).core 0).missued < x.m.ident + 64 := by
  refine ⟨⟨fun a _ _ => rfl, ?_⟩, ?_⟩ <;> decide +kernel

/-- A refining in 2D by one weight set, within its limits, and words that each of R375's refuses, from NX 0 to a pitch short by one; a record
of a 3 by 3 set and one of 0 rows; a quad of L1. -/
theorem test_premises_TransferInstructions :
    let set : WeightSet := { rows := 2, cols := 2, w := List.replicate 9 0 }
    let q : Quad := { weights := [(0, set)] }
    let l1 : State := { State.reset with cur := 8192, ctxs := [(8192, runner)], quads := [(256, q)] }
    let x : Word := 0x20020200218
    let n (x : Word) (lo len : Nat) : Nat := x.toNat / 2 ^ lo % 2 ^ len
    l1.me.attempt = none ∧ l1.me.outs = [] ∧ l1.me.task.portable = false ∧ l1.myLayer ≠ 0 ∧
    (x.toNat < 2 ^ 52 ∧ n x 8 12 = 2 ∧ n x 20 8 = 2 ∧ n x 28 12 = 2 ∧ n x 40 12 = 2 ∧ x.getLsbD 4 = true ∧ x.getLsbD 3 = true ∧
      (q.weights.find? fun e => e.1 == n x 0 3) = some (0, set)) ∧
    ((2 * 1 + 1) * 8 + 8 ≤ capacity (l1.myLayer - 1) ∧ capacity l1.myLayer < 0x3FFFE0 + (2 * 1 + 1) * 8 + 8) ∧
    (2 ^ 52 ≤ (2 ^ 52 : Word).toNat ∧ n 0 8 12 = 0 ∧ n 0x100 20 8 = 0 ∧ n (x - 2 ^ 28) 28 12 < 2 ∧ n (x - 2 ^ 40) 40 12 < 2 ∧
      n 0x100108 8 12 % 2 = 1 ∧ (q.weights.find? fun e => e.1 == n 1 0 3) = none) ∧
    (2 ^ 54 ≤ (2 ^ 54 : Word).toNat ∧ (2 ^ 22 : Word).toNat / 2 ^ 22 % 2 ^ 10 ≠ 0 ∧ 1 % 8 ≠ 0) ∧
    (∃ x y u v : Int, 0 ≤ x ∧ x < 2 ∧ 0 ≤ y ∧ y < 2 ∧ 0 ≤ u ∧ u < 2 ∧ 0 ≤ v ∧ v < 2 ∧ (y * 2 + x) * 8 < (v * 2 + u) * 8 + 8 ∧
      (v * 2 + u) * 8 < (y * 2 + x) * 8 + 8) ∧ (l1.quad l1.myQuad).tq.length < 4 ∧ takesTraps l1.me ∧
    (∃ r, checkDwords (world runner) 0x1000 5 = (.ok r, world runner)) ∧ (8 : Word).getLsbD 3 = true ∧ (7 : Word).getLsbD 3 = false :=
  ⟨rfl, rfl, rfl, by decide, by decide, by decide, by decide, by decide, ⟨0, 0, 0, 0, by decide⟩, by decide, by unfold takesTraps; decide, ⟨_, rfl⟩,
    by decide, by decide⟩

/-- Sources of an output: a number of each sign, a zero of each sign, infinities, a NaN, and a poisoned word. -/
theorem test_premises_TransferSteps_sums :
    let f := Fmt.f32
    let v (n : Nat) : Val := f.value false n
    let seen : Map (Nat × Bool) := [(elementKey (0, 0), (0x3F800000, false)), (elementKey (0, 8), (0, true))]
    (0 : Nat) < 4 ∧ (1 : Nat) < 4 ∧ (seen.get (0, false) (elementKey (0, 0))).2 = false ∧ (seen.get (0, false) (elementKey (0, 8))).2 = true ∧
    v 0 = .zero false ∧ v 0x80000000 = .zero true ∧ v 0x7F800000 = .inf false ∧ v 0xFF800000 = .inf true ∧ (v 0x7FC00000).isNan = true ∧
    v 0x3F800000 = .fin false 0x800000 (-23) ∧ v 0xBF800000 = .fin true 0x800000 (-23) := by decide

/-- Codes of each kind for a quotient and a root. -/
theorem test_premises_DivisionsAndRoots_codes :
    let v (n : Nat) : Val := Fmt.f16.value false n
    v 0x3C00 = .fin false 1024 (-10) ∧ v 0xC000 = .fin true 1024 (-9) ∧ v 0x8000 = .zero true ∧ v 0 = .zero false ∧ v 0x7C00 = .inf false ∧
    v 0xFC00 = .inf true ∧ (v 0x7E00).isNan = true ∧ (v 0x7D00).isSnan = true := by decide

/-- The first output of a refining; its first word to be written; operations that have written all and that are finished, with no words for
their timeline, with one and with one that is not granted. -/
theorem test_premises_TransferSteps :
    let set : WeightSet := { rows := 2, cols := 2, w := List.replicate 9 0 }
    let o : TransferOp := { num := 1, kind := .prlg, xa := 0x20020200218, xb := 0, set, rm := 0 }
    let w : Placed := { quad := 256, dword := 0x1000, first := 0, bytes := [(0, 7)] }
    let u : TransferOp := { o with next := o.total, buf := [w] }
    let s (o : TransferOp) (tl : Word) : State :=
      { State.reset with quads := [(256, { tq := [o], tlbase := tl, tlpasid := 1, tlb := [page] })], ev := [256, 1], parts := [(0, ground)] }
    ((s o 0).quad 256).tq = o :: [] ∧ o.finished = false ∧ o.next < o.total ∧ o.gate = none ∧ u.gate = none ∧ u.total ≤ u.next ∧ u.finished = false ∧ u.buf = w :: [] ∧
    (s u 0).mayWriteLocal none 256 (localCells [({ isLocal := true, addr := 0x1000 }, 7)]) = true ∧
    ({ o with next := o.total } : TransferOp).buf = [] ∧ (Shape.of o.xa).two = true ∧ (Shape.of o.xa).geo = true ∧
    ({ o with finished := true } : TransferOp).finished = true ∧ ((s o 0).quad 256).tlbase = 0 ∧ (Shape.of 0x20020200210).geo = false ∧ 3 < 4 ∧
    (1 : Nat) < (Shape.of o.xa).nx ∧ (1 : Nat) < (Shape.of o.xa).ny ∧ 0 < (Shape.of 0x20020200210).nx / 2 ∧ 0 < (Shape.of 0x20020200210).ny / 2 ∧
    engineCheck (s o 0x400000) 256 1 0x400020 8 8 true true = (.ok { there with addr := 0x10020 }, s o 0x400000) ∧
    (s o 0x400000).mayWrite none (globalCells (cellsOf { there with addr := 0x10020 } 8 1)) = true ∧ o.abort = false ∧
    ({ o with abort := true } : TransferOp).abort = true ∧ (s o 0x400000).refuses { there with addr := 0x10020 } = false ∧
    engineCheck (s o 0x200000000000000) 256 1 0x200000000000020 8 8 true true = (.error .access, s o 0x200000000000000) := by
  decide +kernel

/-- Blocks of 32 products of the greatest mantissas; an accumulator and a product that cancel to 1 and that pass 2^95; numbers to round. -/
theorem test_premises_Numbers :
    (List.replicate 32 ((32767 : Int), (-32767 : Int))).length ≤ 32 ∧
    (∀ p ∈ List.replicate 32 ((32767 : Int), (-32767 : Int)), p.1.natAbs ≤ 32767 ∧ p.2.natAbs ≤ 32767) ∧
    (1 : Int) ≠ 0 ∧ (-2 ^ 95 : Int) ≤ 2 ^ 95 - 1 ∧ (2 ^ 95 - 1 : Int) < 2 ^ 95 ∧ (0x7C00 : Nat) < 2 ^ Fmt.f16.width ∧
    (Fmt.f16.value false 0x7C00).isNan = false ∧ (0 : Nat) < 1 ∧ (3 : Nat) < 4 ∧ Fmt.e4m3 ≠ Fmt.f16 ∧ Fmt.e4m3.narrow = true ∧
    Fmt.f16.narrow = false := by decide

/-- Elements that raise nothing, and a sum of signalling NaNs with invalid enabled (FPCTL.TNV, bit 16 for condition 16), at a mask of one
element; a maximum of none; conversions to each kind of destination; a number that is no NaN. -/
theorem test_premises_floats :
    let c (f : Word) : Ctx := { runner with ctl := { runner.ctl with fpctl := f }, regs := { k := [(1, 1)] } }
    let s := world (c 0x10000)
    let snan : Nat := 0x7F800001
    let m : Mode := { rm := 0, tuf := false }
    (Fmt.f32.opAdd m snan 0).2 = 16 ∧ 16 &&& trapsOn s ≠ 0 ∧ 16 &&& trapsOn (world (c 0)) = 0 ∧ takesTraps s.me ∧
    active 1 (s.me.getK 1) 0 = true ∧ active 1 (s.me.getK 1) 1 = false ∧
    ((Fmt.f32.opDiv m 0x3F800000 0).known &&& trapsOn (world (c 0x8000)) ≠ 0) ∧ (Fmt.f32.opDiv m 0x3F800000 0x40400000).known = 0 ∧
    (((1 : Nat), 16) ∈ [(0, 0), (1, 16), (2, 16)] ∧ 16 &&& trapsOn s ≠ 0 ∧ ∀ e ∈ [((0 : Nat), 0), (1, 16), (2, 16)], e.2 &&& trapsOn s ≠ 0 → 1 ≤ e.1) ∧
    (7 : Nat) ≠ 6 ∧ (3 : BitVec 5).toNat < 4 ∧ (4 : BitVec 5).toNat = 4 ∧ (5 : BitVec 5).toNat = 5 ∧ (Fmt.f32.value false 0x3F800000).isNan = false := by
  unfold takesTraps; decide

/-- A vector load and store of one element at the last dword of L0's memory; one past it, and one that is misaligned; lanes for a
result. -/
theorem test_premises_VectorMemory :
    let s := world { runner with regs := { x := [(1, 0x27FFF8)], k := [(1, 1)] } }
    let act := (List.range 16).filter (active 0 (s.me.getK 1))
    let fine (x : Word) : Prop := x.toNat % 8 = 0 ∧ (s.quad s.myQuad).xbound.toNat ≤ x.toNat ∧ x.toNat < capacity s.myLayer
    s.me.attempt = none ∧ s.me.task.portable = false ∧ act = [0] ∧ fine 0x27FFF8 ∧ ¬ fine 0x280000 ∧ ¬ fine 0x27FFFC ∧
    s.poisonSpan s.myQuad { isLocal := true, addr := 0x27FFF8 } 8 = false ∧ takesTraps s.me ∧ (∀ x ∈ act, x < 0 → fine 0) ∧
    [0].Nodup ∧ (List.replicate 8 (0 : Byte)).length = 8 * [0].length := by
  unfold takesTraps; decide

/-- Words of every register of the host block; a vector with a gathered event; backed device memory at both ends of die 0. -/
theorem test_premises_HostRegisters :
    let s : State := { State.reset with ev := [0], cp := { vectors := [(0, { gathered := 1 })] } }
    let here (pa n : Nat) : Prop := backed s pa = true ∧ pa.testBit 45 = false ∧ pa / 2 ^ 46 = s.domainIx ∧ pa % 128 + n ≤ 128
    (s.queue 0).bound = false ∧ ({ s with cp := { queues := [(0, { bound := true })] } } : State).queue 0 ≠ {} ∧
    0 < (s.cp.vectors.get {} 0).gathered ∧ 2047 < 2048 ∧ here 0 128 ∧ here (2 ^ 37 - 2 ^ 34 * 0 - 2 ^ 35 - 128) 128 ∧
    s.recordings = [] ∧ s.mayWrite none [(0, 1)] = true ∧ s.mem.wf = true ∧ 0xF8 < 0x100 ∧ s.ev = [0] ∧ noAttempts s ∧
    (0x200000000000 : Nat).testBit 45 = true ∧ (0x20000000000 : Nat).testBit 45 = false ∧ (4 : Nat) ≠ 8 := by unfold noAttempts; decide

/-- Queue 0 with a place of 16 entries and one of 4,096, disabled when idle and with an entry in work; doorbells that do not rise, that
fill the queue and that go one too far; an entry to fetch; an event; a marker. -/
theorem test_premises_SubmissionQueues :
    let x : HQueue := { bound := true, log2n := 4, pasid := 1, base := 0x400000 }
    let e : List Byte := 2 :: List.replicate 63 0
    let cp : Cp := { modid := 0x80000000, queues := [(1, { x with entries := [(1, e)], fetched := 1, rung := 1 })], events := [(.marker, [1])] }
    let s : State := { world runner with cp, ev := [1] }
    let y : HQueue := { x with rung := 1 }
    let t : State := { world runner with cp := { modid := 0x80000000, queues := [(1, y)] }, ev := [1, 16], mem := tables.set 0x10000 2 }
    let v : Word := 0x8000000000000004
    let full : Cp := { cp with cores := List.replicate 12 (.marker, [1]) }
    cpFree s ∧ s.hostRefuses.contains (hostPa s cp.aqcpl.toNat / 8) = false ∧ s.storesFor 0 = false ∧ cp.stores = [] ∧
    cp.cores.length < 12 ∧ 12 ≤ full.cores.length ∧ full.events = (.marker, [1]) :: [] ∧ t.cp.stores.contains (.zero 1) = false ∧
    queueParked t 1 = false ∧
    v.getLsbD 63 = true ∧ (s.queue 0).bound = false ∧ cp.modid.getLsbD 31 = true ∧ 4 ≤ v.toNat % 2 ^ 4 ∧ v.toNat % 2 ^ 4 ≤ 12 ∧
    (cp.aqbase.toNat % 2 ^ 12 = 0) ∧ cp.aqcpl.toNat < 2 ^ 45 ∧ y.stopping = false ∧ y.dead = false ∧ tearingDown t 1 = false ∧ 0 ≤ y.fetched ∧
    y.fetched < 16 ∧ 16 ≤ y.value + 2 ^ y.log2n ∧ y.value + 2 ^ y.log2n < 17 ∧ t.cp.fwstat = 1 ∧ y.fetched < y.rung ∧
    cpRead t 1 0x400000 64 = some e ∧ entryBad 1 e = false ∧ cp.events = (.marker, [1]) :: [] ∧ (s.queue 1).entries = [(1, e)] ∧
    (s.queue 1).running = [] ∧ (s.queue 1).finished = [] ∧ (s.queue 1).value + 1 = 1 ∧ natOfBytes (e.take 2) = 2 ∧ queueParked s 1 = false := by
  unfold cpFree noAttempts; decide +kernel

/-- A fault queue of 16 with room for one record, and one of 4,096; a suspended context under a record that each answer names. -/
theorem test_premises_FaultAnswers :
    let r : FaultRec := { va := 0x400000, pasid := 1, kind := 0, reason := 0, origin := 0, covers := [0] }
    let s : State := { world runner with cp := { waiting := [r], fqctl := 4, fqtail := 15 } }
    let c : Ctx := { runner with status := .suspended, faulted := (0, 0x400000) }
    let t : State := { world c with cp := { outstanding := [(1, r)] }, ev := [1] }
    s.mem.wf = true ∧ noAttempts s ∧ s.hostRefuses = [] ∧ s.mayWrite none [(hostPa s (s.cp.fqbase.toNat + 32 * 15), 0)] = true ∧
    t.partOfPasid r.pasid = some (0, ground) ∧ ground.mode ≠ .out ∧ isHandler 0 = false ∧ s.cp.waiting = r :: [] ∧ s.cp.fwstat = 1 ∧ 4 ≤ s.cp.fqctl.toNat % 2 ^ 4 ∧ s.cp.fqctl.toNat % 2 ^ 4 ≤ 12 ∧
    s.cp.fqtail < 2 ^ 63 ∧ s.cp.fqhead ≤ s.cp.fqtail ∧ s.cp.fqtail < s.cp.fqhead + 2 ^ 4 ∧
    t.cp.outstanding.find? (fun e => e.1 == 1 % 2 ^ 32) = some (1 % 2 ^ 32, r) ∧ tearingDown t r.pasid = false ∧ r.covers = [0] ∧
    (t.ctx 0).status = .suspended ∧ (t.ctx 0).halted = false ∧ (t.ctx 0).replay = none ∧ takesTraps (t.ctx 0) ∧ (t.ctx 0).outs = [] := by
  unfold takesTraps noAttempts; decide

/-- A launch record (R69): one task of priority 0 on core 0 of quad 0 of quarter 0, code of 4 bytes at 0x400000, XBOUND 0x1000. -/
def Sys2Proof.Tests.launchRecord : List Byte :=
  [1, 0, 128, 0, 0, 0, 0, 1, 1, 0, 1, 0, 0, 0, 0, 0] ++ [1, 0, 0, 0, 0, 0, 0, 0, 0, 0, 0x40, 0, 0, 0, 0, 0] ++
  [4, 0, 0, 0, 0, 0x10, 0, 0] ++ List.replicate 88 0

/-- The queue of that launch. -/
def Sys2Proof.Tests.launchQueue (e : List Byte) : HQueue := { bound := true, log2n := 4, pasid := 1, base := 0x400000, entries := [(1, e)] }

/-- The record keeps its limits and names one core. -/
theorem test_premises_Launches_record :
    let r := LaunchRec.of Tests.launchRecord
    r.ok State.reset.build = true ∧ r.targets = [0] ∧ r.targetQuads = [0] ∧ r.count = 1 ∧ r.pri < 3 ∧ r.dataBytes = 0 ∧ r.codeBytes = 4 ∧
    r.quarters &&& ground.quarters = r.quarters := by decide +kernel

/-- Its entry at the head of a queue, on a busy quad whose images differ, and on one whose images stand; a launch that waits for its
quad, one that places, one that has ended. -/
theorem test_premises_Launches :
    let e : List Byte := [1, 0, 0, 0, 0, 0, 0, 0, 0x40, 0, 0x40, 0, 0, 0, 0, 0] ++ List.replicate 48 0
    let cp : Cp := { queues := [(1, Tests.launchQueue e)] }
    let s : State := { world runner with cp, ev := [1], mem := tables.write 0x10040 Tests.launchRecord }
    let r := LaunchRec.of Tests.launchRecord
    let l (st : LaunchState) : Launch := { queue := 1, entry := 1, part := 0, pasid := 1, record := Tests.launchRecord, st, todo := [0], drained := true }
    let t (st : LaunchState) : State := { world {} with cp := { cp with launches := [l st] }, ev := [0], mem := tables }
    noAttempts (t .images) ∧ (l .placing).drained = true ∧ s.cp.fwstat = 1 ∧ (s.queue 1).entries = (1, e) :: [] ∧ (s.queue 1).dead = false ∧ natOfBytes (e.take 2) = 1 ∧
    (natOfBytes ((e.drop 2).take 1)).testBit 0 = false ∧ s.partOfPasid (s.queue 1).pasid = some (0, ground) ∧ ground.mode = .running ∧
    s.part? 0 = some ground ∧ s.recordings = [] ∧ queueParked s 1 = false ∧ natOfBytes ((e.drop 8).take 8) % 64 = 0 ∧
    cpRead s 1 (natOfBytes ((e.drop 8).take 8)) 128 = some Tests.launchRecord ∧ quadFree s 0 = false ∧ (s.quad 0).images ≠ some r.images ∧
    (s.core 0).queue.length < (s.core 0).thresh ∧ launchRuns (t .images) (l .images) = true ∧ quadFree (t .images) 0 = true ∧
    (l .images).placed = 0 ∧ (l .images).todo = [0] ∧ cpRead (t .images) 1 0x400000 4 = some [0, 0, 0, 0] ∧ (t .placing).cp.launches[0]? = some (l .placing) ∧
    (l .running).live = 0 ∧ engineOf 0 (t .running).quads (t .running).gangs = false ∧
    (∀ e ∈ (t .running).parts, engineOf 0 e.2.image.quads e.2.image.gangs = false) := by unfold noAttempts; decide +kernel

/-- A quad whose images stand with no bank lost, under a launch's queue. -/
theorem test_premises_Launches_images :
    let q : Quad := { images := some (LaunchRec.of Tests.launchRecord).images }
    q.images = some (LaunchRec.of Tests.launchRecord).images ∧ ∀ b, q.lost.getLsbD b = false := ⟨rfl, fun b => by simp⟩

/-- FORM of every quarter, the commands on the partition at the limits of their arguments, BIND_QUEUE, TEARDOWN. -/
theorem test_premises_AdminCommands :
    let r := State.reset
    let s := world {}
    let comes (s : State) (op : Byte) (a : List Nat) : Bool :=
      (Tests.admin s op a).adminHead op.toNat == some (1, (a ++ List.replicate (7 - a.length) 0).map (BitVec.ofNat 64))
    comes r 0x10 [15, 0xFFFF] = true ∧ r.part? 15 = none ∧ quartersPresent r 0xFFFF = true ∧ quartersFree r 0xFFFF = true ∧
    comes s 0x11 [0] = true ∧ s.part? 0 = some ground ∧ ground.stops = false ∧ ground.tears = false ∧ ground.mode ≠ .out ∧
    comes s 0x16 [0, 0xFFFFF, 0, 0] = true ∧ tearingDown s 0xFFFFF = false ∧ homingValid s ground.quarters 0 0 = true ∧ 0 % 4096 = 0 ∧
    comes s 0x19 [0, 1000000] = true ∧ comes s 0x19 [0, 10] = true ∧ comes s 0x1A [0, 3, 15] = true ∧ 15 < 2 ^ bankCount 3 ∧ comes s 0x1B [0, 4095, 0xFFFF] = true ∧
    comes s 0x18 [0x400FF, 1, 0, 0, 0] = true ∧ 0x400FF % 2 ^ 8 ≠ 0 ∧ 0x400FF / 2 ^ 8 % 2 ^ 8 = 0 ∧ 0x400FF / 2 ^ 20 % 2 ^ 12 = 0 ∧
    0x400FF / 2 ^ 16 % 2 ^ 4 = 4 ∧ s.partOfPasid 1 = some (0, ground) ∧ (s.queue 255).bound = false ∧ tearingDown s 1 = false ∧
    comes s 0x17 [0, 1] = true ∧ (s.partOfPasid 1).isSome = true ∧ (∀ e ∈ s.ctxs, e.2.outs = []) ∧
    (∀ e ∈ s.cores, e.2.tracker = []) ∧ noAttempts s ∧
    (State.dissolveKills (s.startEntry 0) ground).2 = true ∧
    (let c : Ctx := { runner with outs := [{ seq := 0, pc := 0, op := .store [(there, 1)] }] }
     let level : Level := { tbpc := 0, branchPc := 0, ck := {}, reads := [512] }
     let holder : Ctx := { runner with attempt := some { levels := [level], stamp := 0, xd := 0, irrevocable := true } }
     (State.dissolveKills { s with ctxs := [(0, c), (4096, holder)] } { ground with quarters := 1 }).2 = false) ∧
    s.gangs = [] ∧ (s.pagesDone 0xFFFF (fun t => t.pasid == 1) false).2 = true ∧ enginesOf s 1 = false ∧
    (let o : CopyOp := { num := 1, work := .copy {}, sbase := 0, dbase := 0, rm := 0, nxm := false, pasid := 1 }
     enginesOf (world {} { copy := [(0, { queue := [o] })] }) 1 = true) ∧
    (let t : State := { s with parts := [(0, { ground with pasids := [(1, { root := 0, homing := 0, tearing := true })] })] }
     tearingDown t 1 = true ∧ tearingDown t 2 = false) := by unfold noAttempts; decide +kernel

/-- Every queue's completion words lie at multiples of 8. -/
theorem test_premises_AdminCommands_placed (q : Nat) :
    ((world {}).queue q).cpl.toNat % 8 = 0 ∧ ((world {}).queue q).sts.toNat % 8 = 0 := ⟨rfl, rfl⟩

/-- A running partition that is to stop; one that stops, is pre-empted with its report to come, may go on, is switched out; a timer. -/
theorem test_premises_Preemptions :
    let p (m : PartMode) (rep : Option Nat) : Part := { ground with mode := m, report := rep, timer := 10 }
    let s (x : Part) : State := { world runner with parts := [(0, x)], ev := [0] }
    let comes (s : State) (op : Byte) : Prop := ∃ a, (Tests.admin s op [0]).adminHead op.toNat = some (1, a) ∧ (a.getD 0 0).toNat = 0
    (s ground).part? 0 = some ground ∧ ground.mode = .running ∧ ground.stops = false ∧ ground.tears = false ∧
    (p .stopping (some 1)).mode = .stopping ∧ (∀ k, k ∈ (s ground).ctxsOf 0xFFFF → ((s ground).ctx k).outs = [] ∧ ((s ground).ctx k).status ≠ .ending) ∧
    (p .preempted (some 1)).mode = .preempted ∧ (p .preempted (some 1)).report = some 1 ∧ (∀ e ∈ (s ground).cores, e.2.tracker = []) ∧
    (∀ e ∈ (s ground).gangs, e.2.runs = []) ∧ (p .preempted none).stops = false ∧ (p .out none).mode = .out ∧
    quartersFree (s (p .out none)) 0xFFFF = true ∧ ((p .out none).image.ctxs.map (·.1)).Nodup ∧ (p .running none).timer ≠ 0 ∧
    PartMode.running ≠ .out ∧ isHandler 0 = false ∧ 0 ∈ (s ground).ctxsOf 0xFFFF ∧ ((s ground).ctxs.map (·.1)).count 0 = 1 ∧
    (∀ a ∈ (p .preempted (some 1)).saveAreas, (s ground).mayWriteArea a.1 a.2 = true) ∧ (s ground).me.trail = [] ∧
    ({ runner with trail := [{ pc := 0, n := 0, seq := 0, settles := false, done := false }] } : Ctx).trail ≠ [] ∧ ground.quarters.testBit (quarterOf (quadOf 0)) = true ∧
    comes (s ground) 0x12 ∧ comes (s ground) 0x14 ∧ comes (s (p .preempted none)) 0x13 ∧ comes (s (p .out none)) 0x15 := by
  refine ⟨by decide, rfl, by decide, by decide, rfl, by decide, rfl, rfl, by decide, by decide, by decide, rfl, by decide, by decide,
    by decide, by decide, rfl, by decide, by decide, by decide, by decide, by decide, by decide, ⟨_, rfl, by decide⟩, ⟨_, rfl, by decide⟩,
    ⟨_, rfl, by decide⟩, _, rfl, by decide⟩

/-- A cap message at its limits (8 in RANKTH, a lease of 60,000) after none and after an older one, and one past each; a sample within
bounds, one with a sensor above 110 °C; a redivision. -/
theorem test_premises_PowerSteps :
    let m (th res : Byte) (lease : Nat) : List Byte := [0, 0, th, res] ++ bytesOfNat 4 100 ++ bytesOfNat 4 lease ++ bytesOfNat 4 0 ++ bytesOfNat 8 1
    let at_ (bs : List Byte) (off len : Nat) : Nat := natOfBytes ((bs.drop off).take len)
    let good (bs : List Byte) : Prop := at_ bs 3 1 = 0 ∧ at_ bs 12 4 = 0 ∧ at_ bs 2 1 ≤ 8 ∧ at_ bs 8 4 ≤ 60000
    let s : State := { world runner with ev := [1, 0] }
    let rails : List Nat := List.replicate 28 1000
    let hot : List (Nat × Nat) := [(0, 111)]
    (m 8 0 60000).length = 24 ∧ good (m 8 0 60000) ∧ ¬ good (m 9 0 60000) ∧ ¬ good (m 8 0 60001) ∧ ¬ good (m 8 1 0) ∧
    at_ (m 8 0 0) 0 2 = s.jid.group ∧ s.jid.last = none ∧ 0 < ((1 : Word) - 0).toInt ∧ ¬ 0 < ((1 : Word) - 1).toInt ∧
    s.part? 0 = some ground ∧ 7 ≤ 7 ∧ 8 ≤ 8 ∧ rails.length = 28 ∧ (List.replicate 16 0).length = 16 ∧ (∀ e ∈ s.parts, e.2.overrun < 40) ∧
    s.jid.down = false ∧ ({ s.jid with down := true } : Jid).down = true ∧ (∀ q ∈ ground.quads, (s.quad q).temp < 105) ∧
    s.jid.fallen = [] ∧ (s.quad 0).emerg = false ∧ 0 ∈ quadsOfQuarter 0 ∧ (∃ e ∈ hot, e.1 = 0 ∧ 110 < e.2) ∧
    (let t : State := { s with quads := (quadsOfQuarter 0).map fun q => (q, { emerg := true }) }
     (∀ q ∈ quadsOfQuarter 0, (t.quad q).emerg = true) ∧ ¬ ∀ q ∈ quadsOfQuarter 0, (s.quad q).emerg = true) ∧
    s.build.rated = [] ∧ ({ rated := List.replicate 28 100 } : Build).rated[27]? = some 100 ∧ s.jid.modcap = none ∧ (s.parts.map (·.1)).Nodup ∧ ground.mode ≠ .out ∧ s.jid.outOfBounds = false ∧
    0 ∈ ground.quads ∧ s.build.hasQuarter 15 = true ∧ s.build.hasCore 0 = true ∧ s.build.hasQuad 0 = true := by decide +kernel

/-- Rails that draw nothing: no emergency on any of them, none above its rated value, and the module below its limit, whatever the watts of a
step are. -/
theorem test_premises_PowerSteps_cool :
    let now : List Nat := List.replicate 28 0
    now.length = 28 ∧ (∀ k, k < 16 → ∀ q ∈ quadsOfQuarter k, ((world {}).quad q).emerg = false) ∧
    ¬ 3600000 < ((List.range 28).map fun i => now.getD i 0 * Config.railStep i).foldl (· + ·) 0 ∧
    (∀ i r, (world {}).build.rated[i]? = some r → ¬ r < now.getD i 0) := by
  have zero (f : Nat → Nat) : ∀ (l : List Nat) (n : Nat), (l.map fun i => (List.replicate 28 0).getD i 0 * f i).foldl (· + ·) n = n := by
    intro l
    induction l with
    | nil => intro n; rfl
    | cons i l ih =>
      intro n
      have : (List.replicate 28 0).getD i 0 = 0 := by
        simp only [List.getD, List.getElem?_replicate]
        split <;> rfl
      simp only [List.map_cons, List.foldl_cons, this, Nat.zero_mul, Nat.add_zero]
      exact ih n
  refine ⟨by decide, fun k _ q _ => ?_, ?_, ?_⟩
  · show (Map.get (world {}).quads {} q).emerg = false
    simp only [world, Map.get]
    split <;> rfl
  · show ¬ 3600000 < ((List.range 28).map fun i => (List.replicate 28 0).getD i 0 * Config.railStep i).foldl (· + ·) 0
    rw [zero]
    omega
  · intro i r h
    cases h

/-- A first and a second parity error on a link; a quarter that has not failed; a pre-empted partition with and without a recording, of this
part and of another; a version at the fused one, with both images staged; an SPDM connection. -/
theorem test_premises_MaintenanceSteps :
    let x : Part := { ground with mode := .preempted }
    let r : Recording := { part := 0, start := {} }
    let s : State := { world runner with parts := [(0, x)], ev := [0] }
    let t : State := { s with recordings := [r, { r with part := 1 }] }
    let link := ErrorUnit.link 0 1
    let u : State := { s with jid := { retries := [(link, 0, 5)] }, cp := { staged := [(2, 1), (3, 0)], spdm := some true } }
    (link, 0, 5) ∉ s.jid.retries ∧ (link, 0, 5) ∈ u.jid.retries ∧
    s.build.hasQuarter 15 = true ∧ (s.quarter 15).failed = false ∧ s.part? 0 = some x ∧ x.mode = .preempted ∧ x.stops = false ∧
    s.recordings = [] ∧ t.recordingOf 0 = some r ∧ replays t 0 = false ∧ s.mayWriteArea 0 0 = true ∧ s.mayWriteArea 0 4096 = true ∧ s.jid.down = false ∧ r.replaying = false ∧ r.code = s.build.code ∧
    ({ r with code := r.code + 1 } : Recording).code ≠ s.build.code ∧ s.cp.fused.get 0 2 ≤ 0 ∧ s.ev = [0] ∧ 1 ≤ 1 ∧ s.cp.fwstat = 1 ∧
    u.cp.spdm = some true ∧ (u.cp.staged.map (·.1)).Nodup ∧ (2, 1) ∈ u.cp.staged := by decide

/-- A well-formed instruction of each kind of constructor, with its word; a word that decodes. -/
theorem test_premises_EncodeDecode :
    (Instr.add true 0 0 0).wellFormed = true ∧ encode (.add true 0 0 0) = some 0x80000000 ∧ Instr.homeWrite.wellFormed = true ∧
    encode .homeWrite = none ∧ decode 0x80000000 = .ok (.add true 0 0 0) := by decide

/-- A turn of a context that runs, at a nop in memory and in its buffer, first in a window and last; at a settle point; a step without an
encoding; a core that a part lacks. -/
theorem test_premises_StepRunsDecoded :
    let s : State := { (world { runner with opens := false, window := 31 } { mem := Memory.set [] 3 0x2A, xbound := 4 }) with agenda := [.turn 0] }
    let t : State := { (world { runner with ibuf := [(0, 0xAA000000)] } { xbound := 4 }) with agenda := [.turn 0] }
    let c := s.ctx 0
    s.recordings = [] ∧ t.recordings = [] ∧ isAccess (.nop false) = false ∧ (∀ o ∈ c.outs, o.unanswered = false) ∧ isAccess (.ld false 1 1 0 0) = true ∧
    s.agenda = .turn 0 :: [] ∧ s.build.hasCore (coreOf 0) = true ∧ c.status = .running ∧ c.halted = false ∧ c.declined = none ∧
    c.replay = none ∧ c.resubs = [] ∧ (c.power = none ∧ c.timers = 0) ∧ c.pc.toNat < (s.quad 0).xbound.toNat ∧ 0 / 8 ∉ (s.quad 0).poison ∧
    c.window < 32 ∧ decode (fetch s).1 = .ok (.nop false) ∧ isSettle (fetch s).1 (.nop false) = false ∧ isEnd (.nop false) = false ∧
    c.deferred = none ∧ c.carry = none ∧ c.ibuf.has 0 = false ∧ (t.ctx 0).ibuf.has 0 = true ∧ (t.ctx 0).opens = true ∧
    decode (fetch t).1 = .ok (.nop true) ∧ isSettle (fetch t).1 (.nop true) = true ∧ (t.settle 0).2 = true ∧ (t.settle 0).1.me.carry = none ∧
    encode .homeWrite = none ∧ s.me.strip = none ∧ (encode (.nop false)).isSome = true ∧ ({ quarters := 0xFFFE } : Build).hasCore (coreOf 0) = false := by decide +kernel

/-- A machine whose memories are canonical, and a step of it. -/
theorem test_premises_MemoryStaysCanonical : (world runner).canonical ∧ ∃ t, step (world runner) = .next t := by
  refine ⟨?_, _, rfl⟩
  unfold State.canonical
  refine ⟨by decide, by decide, by decide, ?_⟩
  intro r h
  cases h

/-! ### Single steps -/

/-- What an instruction leaves, seen through a function of the state after it. -/
def Sys2Proof.Tests.after {α : Type} (i : Instr) (s : State) (f : State → α) : Option α :=
  match exec i s with
  | .next t => some (f t)
  | _ => none

/-- The value that the newest outstanding result of the context holds for x registers. -/
def Sys2Proof.Tests.result (t : State) : Option (List RegWrite) := (t.me.outs.getLast?.bind (·.ans)).map (·.writes)

/-- R74: 2^64 − 1 and 1 add to 0; x0 stays 0. -/
theorem test_add_wraps :
    Tests.after (.add true 3 1 2) (world (xs [(1, BitVec.allOnes 64), (2, 1)])) (fun t => (t.me.getX 3, t.me.pc)) = some (0, 4) ∧
    Tests.after (.addi true 0 1 1) (world (xs [(1, 5)])) (fun t => t.me.getX 0) = some 0 := by decide

/-- R74: the signed and the unsigned comparison of −1 with 0. -/
theorem test_slt_signs :
    Tests.after (.slt true 3 1 2) (world (xs [(1, BitVec.allOnes 64)])) (fun t => t.me.getX 3) = some 1 ∧
    Tests.after (.sltz true 3 1 2) (world (xs [(1, BitVec.allOnes 64)])) (fun t => t.me.getX 3) = some 0 := by decide

/-- R75: a shift by 65 shifts by 1; sra keeps the sign. -/
theorem test_shifts_mod_64 :
    Tests.after (.sra true 3 1 2) (world (xs [(1, 0x8000000000000000), (2, 65)])) (fun t => t.me.getX 3) = some 0xC000000000000000 ∧
    Tests.after (.rotr true 3 1 2) (world (xs [(1, 1), (2, 1)])) (fun t => t.me.getX 3) = some 0x8000000000000000 := by decide

/-- R77: the high halves of (−1) × (−1), signed 0 and unsigned 2^64 − 2. -/
theorem test_mulh_signs :
    Tests.after (.mulh true 3 1 1) (world (xs [(1, BitVec.allOnes 64)])) (fun t => t.me.getX 3) = some 0 ∧
    Tests.after (.mulhz true 3 1 1) (world (xs [(1, BitVec.allOnes 64)])) (fun t => t.me.getX 3) = some 0xFFFFFFFFFFFFFFFE := by decide

/-- R78: −7 ÷ 2 is −3, remainder −1, outstanding; the least number by −1 is itself; a division by 0 traps with cause 6. -/
theorem test_division :
    Tests.after (.div true 3 1 2) (world (xs [(1, 0xFFFFFFFFFFFFFFF9), (2, 2)])) Tests.result = some (some [.x 3 0xFFFFFFFFFFFFFFFD]) ∧
    Tests.after (.rem true 3 1 2) (world (xs [(1, 0xFFFFFFFFFFFFFFF9), (2, 2)])) Tests.result = some (some [.x 3 0xFFFFFFFFFFFFFFFF]) ∧
    Tests.after (.div true 3 1 2) (world (xs [(1, 0x8000000000000000), (2, BitVec.allOnes 64)])) Tests.result =
      some (some [.x 3 0x8000000000000000]) ∧
    Tests.after (.divz true 3 1 2) (world (xs [(1, 1)])) (fun t => (t.me.ctl.tcause, t.me.pc)) = some (6, 0x1000) := by decide

/-- R83, R84: bits [11:4] of 0xABCD are 0xBC; 0xF put at bits [7:4]. -/
theorem test_ext_ins :
    Tests.after (.ext true 3 1 7 4) (world (xs [(1, 0xABCD)])) (fun t => t.me.getX 3) = some 0xBC ∧
    Tests.after (.ins true 3 1 3 4) (world (xs [(1, 0xF), (3, 0x1001)])) (fun t => t.me.getX 3) = some 0x10F1 := by decide

/-- R87: a branch back by two words; one that is not taken. -/
theorem test_branches :
    Tests.after (.bLt true 1 2 0xFFE) (world { xs [(1, BitVec.allOnes 64)] with pc := 0x20 }) (fun t => t.me.pc) = some 0x18 ∧
    Tests.after (.bLtz true 1 2 0xFFE) (world { xs [(1, BitVec.allOnes 64)] with pc := 0x20 }) (fun t => t.me.pc) = some 0x24 := by decide

/-- R89: jalr x1, x1 reads its base before it writes the link. -/
theorem test_jalr_same_register :
    Tests.after (.jalr true 1 1 8) (world { xs [(1, 0x100)] with pc := 0x20 }) (fun t => (t.me.pc, t.me.getX 1)) = some (0x108, 0x24) := by
  decide

/-- R97: loop of a count of 0 goes past its end and is not active; of 3 leaves 2 more passes. -/
theorem test_loop :
    Tests.after (.loop true 0 1 4) (world (xs [(1, 0)])) (fun t => (t.me.pc, t.me.lp0.act)) = some (0x14, false) ∧
    Tests.after (.loop true 0 1 4) (world (xs [(1, 3)])) (fun t => (t.me.pc, t.me.lp0.lc)) = some (4, 2) := by decide

/-- R105: the ident of context 2 of core 0 of quad 0. -/
theorem test_ident :
    Tests.after (.ident true 3) { world {} with cur := 2, ctxs := [(2, runner)] } (fun t => t.me.getX 3) = some 0x100000 := by decide

/-- R161, R162: a store of 2 bytes is performed little-endian; ld extends the sign, ldz does not. -/
theorem test_store_then_load :
    let s := world (xs [(1, 0x1000), (2, 0x8001)])
    let t := (Tests.after (.st true 2 1 1 0) s id).getD s
    let u := (Tests.after .homeWrite { t with ev := [0, 0] } id).getD t
    (u.quad 0).mem.get 0x1000 = 1 ∧ (u.quad 0).mem.get 0x1001 = 0x80 ∧
    (let v := (Tests.after (.ld true 3 1 1 0) u id).getD u
     Tests.after .resultArrival { v with ev := [0, 1] } Tests.result = some (some [.x 3 0xFFFFFFFFFFFF8001])) ∧
    (let v := (Tests.after (.ldz true 3 1 1 0) u id).getD u
     Tests.after .resultArrival { v with ev := [0, 1] } Tests.result = some (some [.x 3 0x8001])) := by decide

/-- R162: a load sees the context's own store before it is performed. -/
theorem test_load_sees_own_store :
    let s := world (xs [(1, 0x1000), (2, 0x55)])
    let t := (Tests.after (.st true 2 1 0 0) s id).getD s
    let v := (Tests.after (.ld true 3 1 0 0) t id).getD t
    Tests.after .resultArrival { v with ev := [0, 1] } Tests.result = some (some [.x 3 0x55]) := by decide

/-- R165: tile 5 of 64 bytes at 0x40, bound EMPTY; R166: made READY. -/
theorem test_tile_bound_and_filled :
    let s := world (xs [(1, 0x0500004000000040), (2, 5)])
    let t := (Tests.after (.tacq true 3 1 0) s id).getD s
    t.me.getX 3 = 0 ∧ (t.quad 0).tile? 5 = some { off := 0x40, size := 64, st := .empty } ∧
    Tests.after (.trdy true 2) t (fun u => (u.quad 0).tile? 5) = some (some { off := 0x40, size := 64, st := .ready }) := by decide

/-- R172, R173: a ring of two slots of 64 bytes; a push of one, then a push of two waits. -/
theorem test_ring_push :
    let s := world (xs [(1, 0x0002000100000000), (2, 1), (4, 2)])
    let t := (Tests.after (.rset true 1 0) s id).getD s
    let u := (Tests.after (.rpush true 0 2) t id).getD t
    (u.quad 0).ring? 0 = some { base := 0, size := 64, count := 2, head := 0, occ := 1 } ∧
    Tests.after (.rpush true 0 4) u (fun v => v.me.status) = some (.sleeping [.ring 0]) := by decide

/-- R274, R276: amo.min of 32 bits takes the signed less; a failed cas writes nothing. -/
theorem test_atomic_operations :
    (amoApply .min 4 0xFFFFFFFF 0 0 5).write = some 0xFFFFFFFF ∧ (amoApply .min 4 0xFFFFFFFF 0 0 5).x = 5 ∧
    (amoApply .minz 4 0xFFFFFFFF 0 0 5).write = some 5 ∧ (amoApply .cas 8 6 9 0 5).write = none ∧
    (amoApply .add 4 1 0 0 0xFFFFFFFF).x = BitVec.allOnes 64 ∧ (amoApply .add 4 1 0 0 0xFFFFFFFF).write = some 0 := by decide

/-- R281: grab of at least 8 among 4 of 100 left from 3: a share of 25, so 25 from 3. -/
theorem test_grab : (amoApply .grab 16 0x400000008 0 0 (3 + 103 * 2 ^ 64)).x = BitVec.ofNat 64 (25 * 2 ^ 40 + 3) ∧
    (amoApply .grab 16 0x400000008 0 0 (3 + 103 * 2 ^ 64)).write = some 28 := by decide

/-- R242, R244: trap 5 enters the handler with TPC the next word; eret comes back there. -/
theorem test_trap_and_eret :
    let s := world { runner with pc := 0x20, ctl := { runner.ctl with sys := false } }
    let t := (Tests.after (.trap true 5) s id).getD s
    t.me.ctl.tcause = 0x0C ∧ t.me.ctl.tval = 5 ∧ t.me.ctl.tpc = 0x24 ∧ t.me.pc = 0x1000 ∧ t.me.ctl.sys = true ∧ t.me.ctl.intrap = true ∧
    Tests.after (.eret true) t (fun u => (u.me.pc, u.me.ctl.sys, u.me.ctl.intrap)) = some (0x24, false, false) := by decide

/-- R237, R238: a write of TSTATUS in user state is an illegal instruction; in system state it keeps PASID. -/
theorem test_tstatus_write :
    Tests.after (.ctlwr true 0 0x204) (world { runner with ctl := { runner.ctl with sys := false } }) (fun t => t.me.ctl.tcause) = some 1 ∧
    Tests.after (.ctlwr true 0 0x204) (world runner) (fun t => (t.me.ctl.sys, t.me.ctl.pasid)) = some (false, 1) := by decide

/-- R292, R296, R300: tbegin, a store, tabort 9: nothing is written, xd holds cause 6, detail 9, level 1, and the context is past the
tend at 8. -/
theorem test_transaction_aborts :
    let s := world (xs [(1, 0x1000), (2, 7)]) { mem := Tests.txCode, xbound := 0x100 }
    let t := (Tests.after (.tbegin true 3) s id).getD s
    let u := (Tests.after (.st true 2 1 0 0) t id).getD t
    Tests.after (.tabort true 9) u (fun v => (v.me.getX 3, v.me.pc, (v.quad 0).mem.get 0x1000, v.me.attempt)) =
      some (0x01000906, 12, 0, none) := by decide +kernel

/-- R293, R302: the tend of an attempt performs its store. -/
theorem test_transaction_commits :
    let s := world (xs [(1, 0x1000), (2, 7)]) { mem := Tests.txCode, xbound := 0x100 }
    let t := (Tests.after (.tbegin true 3) s id).getD s
    let u := (Tests.after (.st true 2 1 0 0) t id).getD t
    (u.quad 0).mem.get 0x1000 = 0 ∧ Tests.after (.tend true) u (fun v => (v.quad 0).mem.get 0x1000) = some 7 := by decide

/-- R206: of two records the one of higher priority starts, with x3 its word and its first argument in x4. -/
theorem test_task_start :
    let r : Record := { entry := 0x40, pri := 2, flags := 0, x3 := 9, args := [8], nxm := false, pasid := 1, src := 1 }
    let s : State := { world {} with ev := [0], cores := [(0, { queue := [{ r with pri := 0 }, r] })] }
    Tests.after .taskStart s (fun t => ((t.ctx 0).pc, (t.ctx 0).getX 3, (t.ctx 0).getX 4, (t.core 0).queue.length)) = some (0x40, 9, 8, 1) := by
  decide

/-- R116, R129: 1 + 2^-53 in FP64 rounds to the even 1 and is inexact (condition 1 in the flags' order), up with mode 2. -/
theorem test_fadd_rounds :
    let s (rm : Word) := world { xs [(1, 0x3FF0000000000000), (2, 0x3CA0000000000000)] with ctl := { runner.ctl with fpctl := rm } }
    Tests.after (.fadd true 3 1 2 0) (s 0) (fun t => t.me.getX 3) = some 0x3FF0000000000000 ∧
    Tests.after (.fadd true 3 1 2 0) (s 2) (fun t => t.me.getX 3) = some 0x3FF0000000000001 := by decide

/-- R154: 1 ÷ 3 in FP32, outstanding. -/
theorem test_fdiv : Tests.after (.fdiv true 3 1 2 1) (world (xs [(1, 0x3F800000), (2, 0x40400000)])) Tests.result =
    some (some [.x 3 0x3EAAAAAB]) := by decide

/-- R138: vadd of FP32 lanes 0 and 1 under a mask of lane 0: 1 + 2 there, lane 1 keeps its value. -/
theorem test_vadd_masked :
    let v (a b : Nat) : VWord := ofLanes 4 [a, b]
    let s := world { runner with regs := { v := [(1, v 0x3F800000 0x3F800000), (2, v 0x40000000 0x40000000), (3, v 5 6)], k := [(1, 1)] } }
    Tests.after (.vadd true 3 1 2 1 1) s (fun t => (lane 4 (t.me.getV 3) 0, lane 4 (t.me.getV 3) 1)) = some (0x40400000, 6) := by
  decide +kernel

/-- R145: vcmp.lt of bytes' dwords −1 < 0, and 0 < 0 not. -/
theorem test_vcmp :
    let s := world { runner with regs := { v := [(1, ofLanes 8 [0xFFFFFFFFFFFFFFFF, 0])] } }
    Tests.after (.vcmpLt true 1 1 2 0 4) s (fun t => (t.me.getK 1).getLsbD 0 && !(t.me.getK 1).getLsbD 1) = some true := by decide +kernel

/-- R329: tlrd of an idle copy context answers DONE 0. -/
theorem test_tlrd : Tests.after (.tlrd true 3 1) (world (xs [(1, 0)])) Tests.result = some (some [.x 3 0]) := by decide

/-- R318, R321: a copy of 8 bytes by one element of 8. -/
theorem test_copy_moves :
    let r : CopyRegs := { src := 0, dst := 0x100, fmt := 3 }
    let s := world (xs []) { copy := [(0, { regs := r })], mem := Memory.set [] 7 0x11 }
    let t := (Tests.after (.cpgoRead true 3 0) s id).getD s
    let e := (Tests.after .copyOperationStart { t with ev := [0, 0, 1] } id).getD t
    let u := (Tests.after .copyOperationStart e id).getD e
    Tests.result t = some [.x 3 1] ∧ (e.quad 0).mem.get 0x107 = 0 ∧ (u.quad 0).mem.get 0x107 = 0x11 ∧
    Tests.after .copyRetire { u with ev := [0, 0] } (fun v => ((v.quad 0).copyCtx 0).done) = some 1 := by decide +kernel

/-- R364: the status word of an identifier that has not been issued has STATE 3. -/
theorem test_mstat : Tests.after (.mstat true 3 1) (world (xs [(1, 5)])) (fun t => t.me.getX 3) = some 0x500000300 := by decide

/-- R371, R386: a weight set of 2 by 3 is loaded; xstat shows it. -/
theorem test_wset :
    let s := world (xs [(1, 0x1000), (2, 4)]) { mem := Memory.write [] 0x1000 [2, 3] }
    let t := (Tests.after (.wset true 1 2) s id).getD s
    Tests.after (.xstat true 3 2) t (fun u => u.me.getX 3) = some 0x123 := by decide

/-- R403: a doorbell covers an entry and raises its fetch. -/
theorem test_doorbell :
    let s : State := { world runner with cp := { modid := 0x80000000, queues := [(1, { bound := true, log2n := 4, pasid := 1 })] }, ev := [1, 1] }
    Tests.after .doorbell s (fun t => ((t.queue 1).rung, t.cp.events)) = some (1, [(.entryFetch, [1])]) := by decide

/-- R400, R401: a host write of 8 bytes at 0x008 sets MODID, which LOCK (bit 31) then keeps; one of 4 bytes is ignored. -/
theorem test_modid_lock :
    let s (modid : Word) (size : Nat) : State := { State.reset with cp := { modid }, ev := [8, 0x80000000F, size] }
    Tests.after .hostRegisterWrite (s 5 8) (fun t => t.cp.modid) = some 0xF ∧
    Tests.after .hostRegisterWrite (s 0x80000005 8) (fun t => t.cp.modid) = some 0x80000005 ∧
    Tests.after .hostRegisterWrite (s 5 4) (fun t => t.cp.modid) = some 5 := by decide

/-- R252: a context of whose window one word has issued goes back to the window's entry, and replays it. -/
theorem test_window_replayed :
    let c : Ctx := { xs [(1, 5)] with
      pc := 0x24, trail := [{ pc := 0x20, n := 0, seq := 0, settles := false, done := false }]
      entry := { snap := (xs [(1, 1)]).snap, prevPc := 0, seq := 0, deferred := none, carry := none, free := 0, issued := 0, window := 0 } }
    c.rewound.getX 1 = 1 ∧ c.rewound.pc = 0x20 ∧ c.rewound.strip.isSome = true := by decide

/-- R411: TEARDOWN's last response takes the PASID off its partition. -/
theorem test_teardown_completes :
    let s : State := { world runner with parts := [(0, { ground with pasids := [(1, { root := 0, homing := 0, tearing := true })] })], ev := [1] }
    Tests.after .teardownComplete s (fun t => t.partOfPasid 1) = some none := by decide

/-- R409: FORM of partition 3 on quarters 0 and 1. -/
theorem test_form :
    Tests.after .form (Tests.admin State.reset 0x10 [3, 3]) (fun t => (t.part? 3).map (·.quarters)) = some (some 3) := by decide +kernel

/-- R247: a timer raises the cause once more. -/
theorem test_timer :
    let s : State := { world runner with parts := [(0, { ground with timer := 10 })], ev := [0] }
    Tests.after .timerExpiry s (fun t => (t.ctx 0).timers) = some 1 := by decide +kernel

/-- R426, R427: an uncorrectable error in tier 2 of die 1 poisons its word; a corrected one is counted for that tier. -/
theorem test_patrol_scrub :
    let count (t : State) : List Nat := t.jid.counts.map (·.2)
    Tests.after .patrolScrub { State.reset with ev := [1, 1, 2, 0, 5] } (fun t => (count t, t.poison)) = some ([1], [5]) ∧
    Tests.after .patrolScrub { State.reset with ev := [0, 1, 2, 0, 5] } (fun t => (count t, t.poison)) = some ([1], []) := by decide

/-- R425: a parity error on a vertical bus is retried once; the second is uncorrectable. -/
theorem test_parity_retry :
    let t := (Tests.after .patrolScrub { State.reset with ev := [2, 0, 1, 0, 5] } id).getD State.reset
    t.poison = [] ∧ Tests.after .patrolScrub { t with ev := [2, 0, 1, 0, 5] } (·.poison) = some [5] := by decide

/-- A step from reset with a word placed runs it: addi x3, x0, 7 (major 0x01, d 3, imm 7). -/
theorem test_step_runs_placed_word :
    (match step (State.reset.withFetchWord 32 0x02300007) with
      | .next t => (t.ctx 0).getX 3
      | _ => 0) = 7 := by decide +kernel

/-- The table's numbering of a word. -/
theorem test_decodeTableWord : decodeTableWord 32 0x02300007 = some (.addi false 3 0 7) := by decide

/-- R229: an amreply that has retired leaves once nothing stands before it, and not sooner. -/
theorem test_reply_leaves :
    let m : Msg := { Tests.request with reply := true }
    let o : Out := { seq := 5, pc := 0, op := .reply m, rel := true }
    let s (l : List Out) : State := { world { runner with outs := l } with ev := [0, 5] }
    Tests.after .resultArrival (s [o]) (fun t => (t.net, t.me.outs, (t.core 0).sending)) = some ([m], [], [m]) ∧
    Tests.after .resultArrival (s [{ seq := 4, pc := 0, op := .store [(there, 1)] }, o]) (·.net) = some [] := by decide

/-- R73: of results for one register that arrive before an earlier one, the last in program order stands behind it, whatever came first. -/
theorem test_later_result_stands :
    let a (n : Nat) : Out := { seq := n, pc := 0, op := .value, dsts := [.x 9] }
    let c : Ctx := { runner with outs := [a 1, a 2, a 3] }
    (Ctx.arrive 3 (Ctx.arrive 2 c (.x 9 0xB)) (.x 9 0xC)).later = [{ by_ := 3, w := .x 9 0xC }] := by decide

/-- R246, R299: eret within an irrevocable attempt returns only from a handler that was entered within it. -/
theorem test_eret_in_attempt :
    let level : Level := { tbpc := 0x10, branchPc := 0x10, ck := {} }
    let s (n : Nat) : State := world { runner with
      pc := 0x20, ctl := { runner.ctl with tpc := 0x40 }
      attempt := some { levels := [level], stamp := 0, xd := 0, irrevocable := true, wrote := true, traps := n } }
    Tests.after (.eret false) (s 1) (fun t => (t.me.pc, t.me.attempt.map (·.traps))) = some (0x40, some 0) ∧
    Tests.after (.eret false) (s 0) (fun t => (t.me.ctl.tcause, t.me.attempt.isNone)) = some (1, true) := by decide +kernel

/-- R95, R240: a word that traps has not issued and leaves the count of its window as it was. -/
theorem test_again_uncounts :
    let c : Ctx := { runner with window := 7, opens := false }
    ((Ctx.counted true c).window, (Ctx.counted true c).again.window, (Ctx.counted true c).again.opens) = (1, 7, false) := by decide

/-- R407: bytes are read word by word of memory, also from an address within a word. -/
theorem test_cpRead_unaligned :
    let s : State := { world runner with cp := { queues := [(1, { bound := true, pasid := 1 })] }, mem := tables.write 0x10004 [1, 2, 3, 4, 5, 6] }
    cpRead s 1 0x400006 4 = some [3, 4, 5, 6] ∧ cpRead { s with poison := [0x10008 / 8] } 1 0x400006 4 = none ∧
    cpRead { s with poison := [0x10008 / 8] } 1 0x400006 2 = some [3, 4] := by decide +kernel

/-- R211, R328: what starts behind a store starts once the store is performed. -/
theorem test_gate_performs_the_store_before :
    let c : Ctx := { runner with nextSeq := 2, outs := [{ seq := 0, pc := 0, op := .store [({ isLocal := true, addr := 0x200 }, 7)] },
      { seq := 1, pc := 0, op := .start 0, rel := true }] }
    let r := (world c).openGate (some (0, 1))
    (r.1.quad 0).mem.get 0x200 = 7 ∧ (r.1.ctx 0).outs = [] ∧ r.2 = true := by decide +kernel

end
end

section
/-! What every meaning and every pick of the scheduler comes to: no instruction and no step without an encoding stops, and the scheduler
stops only at a turn of an absent core (R4, R5, R32). -/

namespace Sys2Proof.Machine

/-- The answer of a meaning is a next state: no fault, no refusal. -/
def Comes (r : Result) : Prop := ∃ t : State, r = .next t

theorem comes_next (t : State) : Comes (.next t) := ⟨t, rfl⟩

/-- A choice between two meanings comes to a next state where both do. -/
theorem comes_ite (p : Prop) [Decidable p] {x y : Result} (hx : Comes x) (hy : Comes y) : Comes (if p then x else y) := by
  split
  · exact hx
  · exact hy

/-! ### The operations that several meanings share -/

theorem when_comes (s : State) (b : Bool) (f : State → State) : Comes (s.when_ b f) := comes_next _

theorem jidWhen_comes (s : State) (c : Bool) (f : State → State) : Comes (s.jidWhen c f) := when_comes _ _ _

theorem unlessPortable_comes (s : State) (tval : Word) {f : State → Result} (h : Comes (f s)) : Comes (s.unlessPortable tval f) :=
  comes_ite _ (comes_next _) h

theorem divide_comes (f : Word → Word → Word) (w : Word32) (d a b : BitVec 5) (s : State) : Comes (divide f w d a b s) :=
  comes_ite _ (comes_next _) (comes_next _)

theorem branch_comes (cond : Word → Word → Bool) (a b : BitVec 5) (o : BitVec 12) (s : State) : Comes (branch cond a b o s) :=
  comes_ite _ (comes_next _) (comes_next _)

theorem loadOne_comes (signed nc acq : Bool) (d a : BitVec 5) (z : BitVec 2) (p : BitVec 10) (s : State) :
    Comes (loadOne signed nc acq d a z p s) := by
  dsimp only [loadOne]
  split <;> exact comes_next _

theorem loadPair_comes (acq : Bool) (d a : BitVec 5) (p : BitVec 10) (s : State) : Comes (loadPair acq d a p s) := by
  dsimp only [loadPair]
  split <;> exact comes_next _

theorem storeOne_comes (rel : Bool) (d a : BitVec 5) (z : BitVec 2) (p : BitVec 10) (s : State) : Comes (storeOne rel d a z p s) := by
  dsimp only [storeOne]
  split <;> exact comes_next _

theorem storePair_comes (rel : Bool) (d a : BitVec 5) (p : BitVec 10) (s : State) : Comes (storePair rel d a p s) := by
  dsimp only [storePair]
  split <;> exact comes_next _

theorem vectorLoad_comes (v : BitVec 5) (k : BitVec 3) (t : Nat) (addr : Nat → Word) (s : State) : Comes (vectorLoad v k t addr s) := by
  dsimp only [vectorLoad]
  split <;> exact comes_next _

theorem vectorStore_comes (v : BitVec 5) (k : BitVec 3) (t : Nat) (addr : Nat → Word) (s : State) : Comes (vectorStore v k t addr s) := by
  dsimp only [vectorStore]
  split <;> exact comes_next _

theorem lineOp_comes (effect : State → Ref → State) (a : BitVec 5) (s : State) : Comes (lineOp effect a s) := by
  refine comes_ite _ (comes_next _) ?_
  split <;> exact comes_next _

theorem atomic_comes (op : AmoOp) (bytes : Nat) (d a : BitVec 5) (b c : Word) (acq rel : Bool) (s : State) :
    Comes (atomic op bytes d a b c acq rel s) := by
  dsimp only [atomic]
  split <;> exact comes_next _

theorem ctlForm_comes (w : Word32) (x : BitVec 12) (d : Option (BitVec 5)) (f : Word → Word) (s : State) : Comes (ctlForm w x d f s) := by
  unfold ctlForm
  split
  · exact comes_next _
  · exact comes_ite _ (comes_next _) (comes_ite _ (comes_next _) (comes_next _))

theorem matrixOp_comes (w : Word32) (effect : State → State) (s : State) : Comes (matrixOp w effect s) :=
  comes_ite _ (comes_next _) (comes_next _)

theorem transfer_comes (k : TransferKind) (w : Word32) (d a b : BitVec 5) (s : State) : Comes (transfer k w d a b s) :=
  comes_ite _ (comes_next _) (comes_next _)

theorem homeStep_comes (kind : OutOp → Bool) (s : State) : Comes (homeStep kind s) := by
  dsimp only [homeStep]
  split
  · exact comes_next _
  · exact when_comes _ _ _

theorem writeStep_comes (r : CtlReg) (v : Word) (s : State) : Comes (writeStep r v s) := when_comes _ _ _

theorem answer_comes (live : State → Nat → State) (out : State → Nat → Nat → State) (s : State) : Comes (answer live out s) := by
  dsimp only [answer]
  split
  · exact comes_next _
  · exact when_comes _ _ _

theorem adminStep_comes (op : Nat) (f : Nat → List Word → State → Cmd) (s : State) : Comes (adminStep op f s) := by
  unfold adminStep
  split
  · exact comes_next _
  · split <;> exact comes_next _

/-! ### The instructions with a case split of their own -/

theorem execJalr_comes (d a : BitVec 5) (i : BitVec 15) (s : State) : Comes (execJalr d a i s) :=
  comes_ite _ (comes_next _) (comes_next _)

theorem execTstat_comes (sb : Bool) (d a : BitVec 5) (s : State) : Comes (execTstat sb d a s) := by
  unfold execTstat
  refine unlessPortable_comes s _ ?_
  exact comes_ite _ (comes_next _) (comes_next _)

theorem execRstat_comes (sb : Bool) (d a : BitVec 5) (s : State) : Comes (execRstat sb d a s) := by
  unfold execRstat
  refine unlessPortable_comes s _ ?_
  exact comes_ite _ (comes_next _) (comes_next _)

theorem execTbegin_comes (sb : Bool) (d : BitVec 5) (s : State) : Comes (execTbegin sb d s) := by
  unfold execTbegin
  split
  next => exact comes_ite _ (comes_next _) (comes_next _)
  next =>
    split
    next => exact comes_next _
    next =>
      split
      next => exact comes_next _
      next => exact comes_ite _ (comes_next _) (comes_next _)

theorem execTend_comes (sb : Bool) (s : State) : Comes (execTend sb s) := by
  unfold execTend
  split
  · exact comes_next _
  · exact comes_ite _ (comes_next _) (comes_next _)

theorem execOtherwise_comes (sb : Bool) (s : State) : Comes (execOtherwise sb s) := by
  refine comes_ite _ (comes_next _) ?_
  split <;> exact comes_next _

theorem execRetry_comes (sb : Bool) (s : State) : Comes (execRetry sb s) := comes_ite _ (comes_next _) (comes_next _)

theorem execTabort_comes (sb : Bool) (c : BitVec 8) (s : State) : Comes (execTabort sb c s) := comes_ite _ (comes_next _) (comes_next _)

theorem execWaitge_comes (sb : Bool) (d a b : BitVec 5) (s : State) : Comes (execWaitge sb d a b s) := by
  dsimp only [execWaitge]
  split
  next => exact comes_next _
  next =>
    refine comes_ite _ ?_ (comes_ite _ (comes_next _) (comes_next _))
    split <;> exact comes_next _

theorem execBwait_comes (sb : Bool) (a b : BitVec 5) (s : State) : Comes (execBwait sb a b s) := by
  dsimp only [execBwait]
  split
  next => exact comes_next _
  next =>
    refine comes_ite _ ?_ (comes_next _)
    split <;> exact comes_next _

theorem execDeq_comes (sb : Bool) (d a : BitVec 5) (s : State) : Comes (execDeq sb d a s) := comes_ite _ (comes_next _) (comes_next _)

theorem execCtlrd_comes (sb : Bool) (d : BitVec 5) (x : BitVec 12) (s : State) : Comes (execCtlrd sb d x s) := by
  unfold execCtlrd
  split <;> exact comes_next _

theorem execCtlwr_comes (sb : Bool) (a : BitVec 5) (x : BitVec 12) (s : State) : Comes (execCtlwr sb a x s) := by
  dsimp only [execCtlwr]
  exact ctlForm_comes ..

theorem execCtlset_comes (sb : Bool) (d a : BitVec 5) (x : BitVec 12) (s : State) : Comes (execCtlset sb d a x s) := by
  dsimp only [execCtlset]
  exact ctlForm_comes ..

theorem execCtlclr_comes (sb : Bool) (d a : BitVec 5) (x : BitVec 12) (s : State) : Comes (execCtlclr sb d a x s) := by
  dsimp only [execCtlclr]
  exact ctlForm_comes ..

theorem execEret_comes (sb : Bool) (s : State) : Comes (execEret sb s) :=
  comes_ite _ (comes_next _) (comes_ite _ (comes_next _) (comes_next _))

theorem execTlbinv_comes (sb : Bool) (a : BitVec 5) (s : State) : Comes (execTlbinv sb a s) := comes_ite _ (comes_next _) (comes_next _)

theorem execTlbinvAs_comes (sb : Bool) (a : BitVec 5) (s : State) : Comes (execTlbinvAs sb a s) := comes_ite _ (comes_next _) (comes_next _)

/-! ### The steps without an encoding with a case split of their own -/

theorem execHomeWrite_comes (s : State) : Comes (execHomeWrite s) := by
  refine comes_ite _ (homeStep_comes _ _) ?_
  split
  · exact comes_next _
  · exact when_comes _ _ _

theorem execTriggerMessageSend_comes (s : State) : Comes (execTriggerMessageSend s) := by
  dsimp only [execTriggerMessageSend]
  split
  · exact comes_next _
  · split <;> exact comes_next _

theorem execTriggerMessageStatus_comes (s : State) : Comes (execTriggerMessageStatus s) := by
  dsimp only [execTriggerMessageStatus]
  split
  next => exact comes_next _
  next =>
    split
    next => exact comes_next _
    next =>
      split
      next => exact comes_next _
      next => exact comes_ite _ (comes_next _) (comes_next _)

theorem execTriggerResend_comes (s : State) : Comes (execTriggerResend s) := by
  dsimp only [execTriggerResend]
  split
  · exact comes_next _
  · exact when_comes _ _ _

theorem execTokenGrant_comes (s : State) : Comes (execTokenGrant s) := by
  dsimp only [execTokenGrant]
  split <;> exact comes_next _

theorem execMessageArrival_comes (s : State) : Comes (execMessageArrival s) := by
  dsimp only [execMessageArrival]
  split
  · exact comes_next _
  · exact when_comes _ _ _

theorem execAmsendStatusReturn_comes (s : State) : Comes (execAmsendStatusReturn s) := by
  dsimp only [execAmsendStatusReturn]
  split
  · exact comes_next _
  · split <;> exact when_comes _ _ _

theorem execReplyResend_comes (s : State) : Comes (execReplyResend s) := by
  unfold execReplyResend
  split
  · exact comes_next _
  · exact when_comes _ _ _

theorem execLoopRegisterWrite_comes (s : State) : Comes (execLoopRegisterWrite s) := by
  unfold execLoopRegisterWrite
  split
  case h_4 => exact comes_next _
  all_goals exact writeStep_comes _ _ _

theorem execResultArrival_comes (s : State) : Comes (execResultArrival s) := by
  dsimp only [execResultArrival]
  split
  · exact comes_next _
  · exact comes_ite _ (comes_next _) (comes_ite _ (comes_next _) (when_comes _ _ _))

theorem execTaskStart_comes (s : State) : Comes (execTaskStart s) := by
  dsimp only [execTaskStart]
  split
  · exact comes_next _
  · exact when_comes _ _ _

theorem execHandlerStart_comes (s : State) : Comes (execHandlerStart s) := by
  dsimp only [execHandlerStart]
  split
  · exact comes_next _
  · exact when_comes _ _ _

theorem execRecordPromotion_comes (s : State) : Comes (execRecordPromotion s) := by
  dsimp only [execRecordPromotion]
  split
  · exact comes_next _
  · exact when_comes _ _ _

theorem execStealProbeReply_comes (s : State) : Comes (execStealProbeReply s) := by
  dsimp only [execStealProbeReply]
  split
  next => exact comes_next _
  next => exact when_comes _ _ _
  next => split <;> exact comes_next _

theorem execTimerExpiry_comes (s : State) : Comes (execTimerExpiry s) := by
  dsimp only [execTimerExpiry]
  split
  · exact comes_next _
  · exact when_comes _ _ _

theorem execPartitionHalted_comes (s : State) : Comes (execPartitionHalted s) := by
  dsimp only [execPartitionHalted]
  split
  · exact comes_next _
  · exact when_comes _ _ _

theorem execPreemptReport_comes (s : State) : Comes (execPreemptReport s) := by
  dsimp only [execPreemptReport]
  split
  next => exact comes_next _
  next =>
    split
    · exact comes_next _
    · exact when_comes _ _ _

theorem execHostMemoryAccess_comes (s : State) : Comes (execHostMemoryAccess s) := comes_ite _ (comes_next _) (when_comes _ _ _)

theorem execLaunch_comes (s : State) : Comes (execLaunch s) := by
  dsimp only [execLaunch]
  split
  · exact comes_next _
  · split <;> exact when_comes _ _ _

theorem execLaunchPlacementResume_comes (s : State) : Comes (execLaunchPlacementResume s) := by
  dsimp only [execLaunchPlacementResume]
  split
  · exact comes_next _
  · exact when_comes _ _ _

theorem execLaunchQuadFree_comes (s : State) : Comes (execLaunchQuadFree s) := by
  dsimp only [execLaunchQuadFree]
  split
  · exact comes_next _
  · exact when_comes _ _ _

theorem execLaunchComplete_comes (s : State) : Comes (execLaunchComplete s) := by
  dsimp only [execLaunchComplete]
  split
  · exact comes_next _
  · exact when_comes _ _ _

theorem execMarker_comes (s : State) : Comes (execMarker s) := by
  dsimp only [execMarker]
  split
  · exact comes_next _
  · exact when_comes _ _ _

theorem execTeardownComplete_comes (s : State) : Comes (execTeardownComplete s) := by
  dsimp only [execTeardownComplete]
  split
  · exact comes_next _
  · split <;> exact comes_next _

theorem execFaultRecordPost_comes (s : State) : Comes (execFaultRecordPost s) := by
  unfold execFaultRecordPost
  split
  · exact comes_next _
  · exact when_comes _ _ _

theorem execRecordModeEnable_comes (s : State) : Comes (execRecordModeEnable s) := by
  dsimp only [execRecordModeEnable]
  split
  · exact comes_next _
  · exact jidWhen_comes _ _ _

theorem execReplay_comes (s : State) : Comes (execReplay s) := by
  dsimp only [execReplay]
  split
  · exact comes_ite _ (comes_next _) (when_comes _ _ _)
  · exact comes_next _

/-! ### Every instruction -/

/-- Every instruction and every step without an encoding comes to a next state. The meanings that are not listed answer `.next` of one
state, with no case split outside it. -/
theorem exec_comes (i : Instr) (s : State) : Comes (exec i s) := by
  unfold exec
  cases i
  case div | divz | rem | remz => exact divide_comes ..
  case bEq | bNe | bLt | bGe | bLtz | bGez => exact branch_comes ..
  case jalr => exact execJalr_comes ..
  case ld | ldAcq | ldnc | ldz | ldzAcq | ldncZ => exact loadOne_comes ..
  case ldp | ldpAcq => exact loadPair_comes ..
  case st | stRel => exact storeOne_comes ..
  case stp | stpRel => exact storePair_comes ..
  case cln | inv => exact lineOp_comes ..
  case tstat => exact execTstat_comes ..
  case rstat => exact execRstat_comes ..
  case amoAdd | amoAnd | amoOr | amoXor | amoMin | amoMax | amoMinz | amoMaxz | amoSwap | amoFadd | amoCas | cadd | caddRel | grab =>
    exact atomic_comes ..
  case tbegin => exact execTbegin_comes ..
  case tend => exact execTend_comes ..
  case otherwise => exact execOtherwise_comes ..
  case retry => exact execRetry_comes ..
  case tabort => exact execTabort_comes ..
  case waitge => exact execWaitge_comes ..
  case bwait => exact execBwait_comes ..
  case deq => exact execDeq_comes ..
  case ctlrd => exact execCtlrd_comes ..
  case ctlwr => exact execCtlwr_comes ..
  case ctlset => exact execCtlset_comes ..
  case ctlclr => exact execCtlclr_comes ..
  case eret => exact execEret_comes ..
  case tlbinv => exact execTlbinv_comes ..
  case tlbinvAs => exact execTlbinvAs_comes ..
  case mldb | mgang | mflush | mdrain | mstat | mkey | mms => exact matrixOp_comes ..
  case rstr | rstrF | prlg | prlgF => exact transfer_comes ..
  case vld | vlds | vldx => exact vectorLoad_comes ..
  case vst | vsts | vstx => exact vectorStore_comes ..
  case homeAtomicApply | homeArmApply | homeDisarmApply | homeWaitgeEval | homeQueueApply => exact homeStep_comes ..
  case homeWrite => exact execHomeWrite_comes _
  case triggerMessageSend => exact execTriggerMessageSend_comes _
  case triggerMessageStatus => exact execTriggerMessageStatus_comes _
  case triggerResend => exact execTriggerResend_comes _
  case tokenGrant => exact execTokenGrant_comes _
  case messageArrival => exact execMessageArrival_comes _
  case amsendStatusReturn => exact execAmsendStatusReturn_comes _
  case replyResend => exact execReplyResend_comes _
  case loopRegisterWrite => exact execLoopRegisterWrite_comes _
  case resultArrival => exact execResultArrival_comes _
  case taskStart => exact execTaskStart_comes _
  case handlerStart => exact execHandlerStart_comes _
  case recordPromotion => exact execRecordPromotion_comes _
  case stealProbeReply => exact execStealProbeReply_comes _
  case timerExpiry => exact execTimerExpiry_comes _
  case partitionHalted => exact execPartitionHalted_comes _
  case preemptReport => exact execPreemptReport_comes _
  case hostMemoryAccess => exact execHostMemoryAccess_comes _
  case fqansResume | fqansDecline | fqansKill => exact answer_comes ..
  case launch => exact execLaunch_comes _
  case launchPlacementResume => exact execLaunchPlacementResume_comes _
  case launchQuadFree => exact execLaunchQuadFree_comes _
  case launchComplete => exact execLaunchComplete_comes _
  case marker => exact execMarker_comes _
  case form | dissolve | preempt | resume | switchOut | switchIn | setPasid | teardown | bindQueue | setTimer | setRelease | join =>
    exact adminStep_comes ..
  case teardownComplete => exact execTeardownComplete_comes _
  case faultRecordPost => exact execFaultRecordPost_comes _
  case recordModeEnable => exact execRecordModeEnable_comes _
  case replay => exact execReplay_comes _
  all_goals exact comes_next _

/-! ### The turn of a context -/

/-- A pick does not stop the machine. -/
def Pick.Goes (p : Pick) : Prop := ∀ f : Fault, p ≠ .stop f

theorem Pick.goes_run (i : Instr) (s : State) : (Pick.run i s).Goes := nofun

theorem Pick.goes_wait (s : State) : (Pick.wait s).Goes := nofun

theorem Pick.goes_idle (s : State) : (Pick.idle s).Goes := nofun

theorem entering_goes (s : State) (code : Nat) (tval ret : Word) : (entering s code tval ret).Goes := by
  unfold entering
  split
  · exact Pick.goes_wait _
  · exact Pick.goes_run _ _

theorem issueDecoded_goes (s : State) (w : Word32) (i : Instr) : (issueDecoded s w i).Goes := by
  unfold issueDecoded
  split
  next =>
    split
    next => exact Pick.goes_wait _
    next =>
      split
      · exact entering_goes _ _ _ _
      · exact Pick.goes_run _ _
  next =>
    split
    next => exact entering_goes _ _ _ _
    next =>
      split
      · exact Pick.goes_wait _
      · exact Pick.goes_run _ _

theorem issueFetch_goes (s : State) : (issueFetch s).Goes := by
  unfold issueFetch
  split
  next => exact entering_goes _ _ _ _
  next =>
    dsimp only
    split
    · exact Pick.goes_run _ _
    · exact issueDecoded_goes _ _ _

theorem issueAsync_goes (s : State) : (issueAsync s).Goes := by
  unfold issueAsync
  split
  next => exact issueFetch_goes _
  next =>
    split
    · exact Pick.goes_idle _
    · exact entering_goes _ _ _ _

theorem replayTurn_goes (s : State) (t : Strip) : (replayTurn s t).Goes := by
  dsimp only [replayTurn]
  split
  next => exact Pick.goes_idle _
  next =>
    split
    next => exact Pick.goes_idle _
    next =>
      split
      · exact Pick.goes_idle _
      · exact issueFetch_goes _

theorem turn_goes (s : State) : (turn s).Goes := by
  dsimp only [turn]
  split
  next => exact Pick.goes_idle _
  next =>
    split
    next => exact replayTurn_goes _ _
    next => exact entering_goes _ _ _ _
    next =>
      split
      next =>
        split
        · exact Pick.goes_idle _
        · exact issueAsync_goes _
      next => exact issueAsync_goes _

/-! ### The other units -/

/-- A unit with nothing to do picks nothing; what it picks does not stop the machine. -/
def GoesIfAny (o : Option Pick) : Prop := ∀ p ∈ o, p.Goes

theorem goesIfAny_none : GoesIfAny none := fun _ h => absurd h (Option.not_mem_none _)

theorem goesIfAny_some {p : Pick} (h : p.Goes) : GoesIfAny (some p) := fun _ hq => Option.some.inj hq ▸ h

theorem goesIfAny_map {α : Type} {f : α → Pick} (h : ∀ a, (f a).Goes) (o : Option α) : GoesIfAny (o.map f) := by
  intro p hp
  obtain ⟨a, -, rfl⟩ := Option.mem_map.mp hp
  exact h a

theorem goesIfAny_or {o q : Option Pick} (ho : GoesIfAny o) (hq : GoesIfAny q) : GoesIfAny (o.or q) := by
  cases o with
  | none => exact hq
  | some p => exact ho

/-- A core picks only turns of its contexts, which do not stop. -/
theorem nextReady_goes (s : State) (core : Nat) : GoesIfAny (nextReady s core) := by
  dsimp only [nextReady]
  generalize hl : (roundRobin s core).filterMap _ = l
  have hgoes : ∀ p ∈ l, p.Goes := by
    intro p hp
    rw [← hl] at hp
    obtain ⟨k, -, hk⟩ := List.mem_filterMap.mp hp
    split at hk
    next => cases hk
    next =>
      have hturn := turn_goes { s with cur := k }
      split at hk
      next => cases hk
      next => exact Option.some.inj hk ▸ hturn
  exact goesIfAny_or (fun p hp => hgoes p (List.mem_of_find?_eq_some hp)) fun p hp => hgoes p (List.mem_of_head? hp)

theorem coreTurn_goes (s : State) (core : Nat) : GoesIfAny (coreTurn s core) := by
  dsimp only [coreTurn]
  split
  next => exact goesIfAny_some (Pick.goes_run _ _)
  next =>
    split
    · exact goesIfAny_some (Pick.goes_run _ _)
    · exact nextReady_goes s core

theorem firmwareStep_goes (s : State) : GoesIfAny (firmwareStep s) := by
  dsimp only [firmwareStep]
  split
  · exact goesIfAny_none
  · exact goesIfAny_map (fun _ => Pick.goes_run _ _) _

theorem newEvent_goes (s : State) : GoesIfAny (newEvent s) := goesIfAny_map (fun _ => Pick.goes_idle _) _

theorem rotate_goes (n : Nat) {l : List (State → Option Pick)} (s : State) (h : ∀ f ∈ l, GoesIfAny (f s)) : GoesIfAny (rotate n l s) := by
  intro p hp
  obtain ⟨f, hf, hfp⟩ := List.exists_of_findSome?_eq_some hp
  have hl : f ∈ l := by
    rcases List.mem_append.mp hf with hd | ht
    · exact List.mem_of_mem_drop hd
    · exact List.mem_of_mem_take ht
  exact h f hl p hfp

theorem ownEvent_goes (s : State) : GoesIfAny (ownEvent s) := by
  refine rotate_goes _ s fun f hf => ?_
  rcases List.mem_append.mp hf with hfirst | hevent
  · rcases List.mem_pair.mp hfirst with rfl | rfl
    · exact firmwareStep_goes s
    · exact newEvent_goes s
  · obtain ⟨g, -, rfl⟩ := List.mem_map.mp hevent
    exact goesIfAny_map (fun _ => Pick.goes_run _ _) _

theorem mineFirst_goes (s : State) : GoesIfAny (mineFirst s) := coreTurn_goes s _

theorem unitFirst_goes (s : State) : GoesIfAny (unitFirst s) := ownEvent_goes s

theorem otherFirst_goes (s : State) : GoesIfAny (otherFirst s) := goesIfAny_map (fun _ => Pick.goes_idle _) _

theorem timeFirst_goes (s : State) : GoesIfAny (timeFirst s) := goesIfAny_map (fun _ => Pick.goes_run _ _) _

/-! ### The step -/

theorem goes_getD_idle {o : Option Pick} (h : GoesIfAny o) (s : State) : (o.getD (.idle s)).Goes := by
  cases o with
  | none => exact Pick.goes_idle s
  | some p => exact h p rfl

/-- With nothing on the agenda the four kinds of step are tried, in an order that the time gives. -/
theorem select_goes_of_no_agenda {s : State} (h : s.agenda = []) : (select s).Goes := by
  have hm := mineFirst_goes s
  have hu := unitFirst_goes s
  have ho := otherFirst_goes s
  have ht := timeFirst_goes s
  unfold select
  rw [h]
  refine goes_getD_idle ?_ s
  split
  next => exact goesIfAny_or ht (goesIfAny_or ho (goesIfAny_or hm hu))
  next =>
    split
    next => exact goesIfAny_or ho (goesIfAny_or hm (goesIfAny_or hu ht))
    next =>
      split
      · exact goesIfAny_or hu (goesIfAny_or hm (goesIfAny_or ho ht))
      · exact goesIfAny_or hm (goesIfAny_or hu (goesIfAny_or ho ht))

/-- The scheduler stops at nothing but the turn of a core that the part lacks. -/
theorem select_goes_or_absent (s : State) :
    (select s).Goes ∨ ∃ k rest, s.agenda = .turn k :: rest ∧ s.build.hasCore (coreOf k) = false ∧ select s = .stop .absentCore := by
  match h : s.agenda with
  | [] => exact .inl (select_goes_of_no_agenda h)
  | .event i args :: rest =>
    refine .inl ?_
    unfold select
    rw [h]
    dsimp only
    split
    · exact Pick.goes_run _ _
    · exact Pick.goes_idle _
  | .turn k :: rest =>
    by_cases hc : s.build.hasCore (coreOf k) = true
    · refine .inl ?_
      unfold select
      rw [h]
      dsimp only
      rw [if_pos hc]
      exact turn_goes _
    · refine .inr ⟨k, rest, rfl, Bool.eq_false_iff.mpr hc, ?_⟩
      unfold select
      rw [h]
      exact if_neg hc

/-- A step whose pick does not stop comes to a next state. -/
theorem step_comes_of_goes {s : State} (h : (select s).Goes) : Comes (step s) := by
  unfold step
  cases hp : select s with
  | run i t =>
    obtain ⟨u, hu⟩ := exec_comes i { t with now := t.now + 1 }
    dsimp only
    rw [hu]
    exact comes_next _
  | wait t => exact comes_next _
  | idle t => exact comes_next _
  | stop f => exact absurd hp (h f)

theorem step_of_select_stop {s : State} {f : Fault} (h : select s = .stop f) : step s = .fault f := by
  unfold step
  rw [h]

/-- Settles O58: every meaning answers a next state, and of the scheduler's picks only the turn of an absent core stops. -/
theorem nothingStops : Obligations.NothingStops := by
  refine ⟨exec_comes, fun s => ?_⟩
  rcases select_goes_or_absent s with hgoes | ⟨k, rest, hagenda, hcore, hstop⟩
  · exact .inl (step_comes_of_goes hgoes)
  · exact .inr ⟨k, rest, hagenda, hcore, step_of_select_stop hstop⟩

end Sys2Proof.Machine
end

section
/-! What is left alone by the steps of engines: memory, gates that are passed, machines without a recording, and what an engine's write and a
completion leave (R180, R366, R427, R430, R431). -/

namespace Sys2Proof.Machine

/-! ### Memory left alone -/

theorem sameMem.refl (s : State) : sameMem s s := ⟨fun _ => rfl, fun _ _ => rfl⟩

theorem sameMem.trans {s t u : State} (h : sameMem s t) (g : sameMem t u) : sameMem s u :=
  ⟨fun a => (g.1 a).trans (h.1 a), fun q a => (g.2 q a).trans (h.2 q a)⟩

/-- An update of a quad that keeps its memory. -/
theorem sameMem_onQuad (s : State) (k : Nat) {f : Quad → Quad} (h : (f (s.quad k)).mem = (s.quad k).mem) : sameMem s (s.onQuad k f) := by
  refine ⟨fun _ => rfl, fun q a => ?_⟩
  by_cases hq : q = k
  · subst hq; rw [State.onQuad_quad_same, h]
  · rw [State.onQuad_quad_other s f hq]

/-- A quad of a table whose memories are in their canonical form. -/
theorem quad_wf {s : State} (h : ∀ e ∈ s.quads, e.2.mem.wf = true) (k : Nat) : (s.quad k).mem.wf = true := by
  unfold State.quad
  generalize s.quads = m at h
  induction m with
  | nil => rfl
  | cons e t ih =>
    obtain ⟨j, q⟩ := e
    simp only [Map.get]
    split
    · exact h _ List.mem_cons_self
    · exact ih fun e he => h e (List.mem_cons_of_mem _ he)

/-! ### Gates that are passed (R211, R366) -/

theorem openGate_passed {s : State} {g : Gate} (h : s.passed g) : s.openGate g = (s, true) := by
  cases g with
  | none => rfl
  | some p =>
    obtain ⟨houts, htracks⟩ := h p rfl
    have hany : (s.ctx p.1).outs.any (Out.opens p) = false := by simpa using houts
    simp [State.openGate, hany, htracks]

theorem openGates_passed {s : State} {gs : List Gate} (h : ∀ g ∈ gs, s.passed g) : s.openGates gs = (s, true) := by
  unfold State.openGates
  induction gs with
  | nil => rfl
  | cons g t ih =>
    rw [List.foldl_cons, openGate_passed (h g List.mem_cons_self)]
    exact ih fun g' hg' => h g' (List.mem_cons_of_mem _ hg')

/-- What stands behind gates that are passed comes at once. -/
theorem pastGates_passed {s : State} {gs : List Gate} (f : State → State) (h : ∀ g ∈ gs, s.passed g) : s.pastGates gs f = f s := by
  unfold State.pastGates
  rw [openGates_passed h]

/-! ### No recording (R430, R431) -/

theorem noteOrder_of_no_recordings {s : State} (h : s.recordings = []) (p : Option (Nat × Part)) (e : LogEntry) : s.noteOrder p e = s := by
  cases p with
  | none => rfl
  | some p => cases s; cases h; rfl

theorem mayOrder_of_no_recordings {s : State} (h : s.recordings = []) (p : Option (Nat × Part)) (e : LogEntry) : s.mayOrder p e = true := by
  cases p <;> simp [State.mayOrder, State.replayOf, State.recordingOf, h]

theorem mayFire_of_no_recordings {s : State} (h : s.recordings = []) (cells : List (Nat × Byte)) : s.mayFire cells = true := by
  simp [State.mayFire, h]

/-- A write of nothing meets no attempt and no turn of a trigger. -/
theorem mayWrite_nil (s : State) (by_ : Option Nat) : s.mayWrite by_ [] = true := by
  simp [State.mayWrite, State.mayFire, dedup]

/-! ### Poison kept (R427) -/

section
variable (t s : State) (quad : Nat) (keep : Bool → Nat → Bool)

theorem keepPoison_frame : t.keepPoison s quad keep =
    { t with poison := (t.keepPoison s quad keep).poison, quads := (t.keepPoison s quad keep).quads } := by
  unfold State.keepPoison
  dsimp only
  split <;> rfl

theorem keepPoison_quad (k : Nat) : (t.keepPoison s quad keep).quad k =
    { t.quad k with poison := ((t.keepPoison s quad keep).quad k).poison } := by
  unfold State.keepPoison
  dsimp only
  split
  · rfl
  · by_cases hk : k = quad
    · subst hk; rw [State.onQuad_quad_same]; rfl
    · rw [State.onQuad_quad_other _ _ hk]; rfl

theorem keepPoison_sameMem : sameMem t (t.keepPoison s quad keep) := by
  refine ⟨fun a => ?_, fun q a => ?_⟩
  · rw [keepPoison_frame]; rfl
  · rw [keepPoison_quad]

end

/-! ### Writes of engines and completion words -/

theorem engineWrite_nil (s : State) (quad : Nat) : (s.engineWrite quad []).1 = s := by
  simp [State.engineWrite, State.served, localCells, globalCells, State.mayWriteLocal, mayWrite_nil, dedup]

theorem besides.sameMem {s t : State} (h : besides s t) : sameMem s t :=
  ⟨fun a => by unfold State.gbyte; rw [h.mem, h.areas], fun q a => by rw [h.quad]⟩

theorem besides.gangs {s t : State} (h : besides s t) : t.gangs = s.gangs := by rw [h]

/-- Where no word is to be added to, a completion may come. -/
theorem mayComplete_none (s : State) (quad core : Nat) : s.mayComplete quad none core = true := by
  simp [State.mayComplete, cwordCells, globalCells, mayWrite_nil, cwordTurn]

/-- Of a quad nothing differs but its bytes, their poison and the power of its banks. -/
def sameButBytes (q r : Quad) : Prop := r = { q with mem := r.mem, poison := r.poison, down := r.down }

/-- Gangs, cores, free choices and of quads all but their bytes are as before: what a write of an engine leaves alone. -/
def onlyBytes (s t : State) : Prop := t.gangs = s.gangs ∧ t.cores = s.cores ∧ ∀ k, sameButBytes (s.quad k) (t.quad k)

theorem sameButBytes.trans {q r p : Quad} (h : sameButBytes q r) (g : sameButBytes r p) : sameButBytes q p := by
  unfold sameButBytes at *
  rw [g, h]

theorem onlyBytes.refl (s : State) : onlyBytes s s := ⟨rfl, rfl, fun _ => rfl⟩

theorem onlyBytes.trans {s t u : State} (h : onlyBytes s t) (g : onlyBytes t u) : onlyBytes s u :=
  ⟨g.1.trans h.1, g.2.1.trans h.2.1, fun k => (h.2.2 k).trans (g.2.2 k)⟩

theorem onlyBytes.gang {s t : State} (h : onlyBytes s t) (k : Nat) : t.gang k = s.gang k := by unfold State.gang; rw [h.1]
theorem onlyBytes.core {s t : State} (h : onlyBytes s t) (k : Nat) : t.core k = s.core k := by unfold State.core; rw [h.2.1]
theorem onlyBytes.tile? {s t : State} (h : onlyBytes s t) (k n : Nat) : (t.quad k).tile? n = (s.quad k).tile? n := by rw [h.2.2 k]; rfl

theorem besides.onlyBytes {s t : State} (h : besides s t) : onlyBytes s t := ⟨h.gangs, h.cores, fun k => by rw [h.quad]; rfl⟩

theorem lwrite_onlyBytes (s : State) (by_ : Option Nat) (quad : Nat) (cells : List (Nat × Byte)) : onlyBytes s (s.lwrite by_ quad cells) := by
  refine onlyBytes.trans (t := s.onQuad quad _) ⟨rfl, rfl, fun k => ?_⟩ (State.lwrite_besides s by_ quad cells).onlyBytes
  by_cases hk : k = quad
  · subst hk; rw [State.onQuad_quad_same]; rfl
  · rw [State.onQuad_quad_other _ _ hk]; rfl

theorem gwrite_onlyBytes (s : State) (by_ : Option Nat) (die : Nat) (home : Nat → Option Nat) (cells : List (Nat × Byte)) :
    onlyBytes s (s.gwrite by_ die home cells) :=
  onlyBytes.trans ⟨rfl, rfl, fun _ => rfl⟩ (State.gwrite_besides s by_ die home cells).onlyBytes

theorem keepPoison_onlyBytes (t s : State) (quad : Nat) (keep : Bool → Nat → Bool) : onlyBytes t (t.keepPoison s quad keep) := by
  refine ⟨?_, ?_, fun k => ?_⟩
  · rw [keepPoison_frame]
  · rw [keepPoison_frame]
  · rw [sameButBytes, keepPoison_quad]

theorem onlyBytes_ite {s t : State} (b : Bool) (h : onlyBytes s t) : onlyBytes s (if b then s else t) := by
  split
  · exact .refl s
  · exact h

theorem engineWrite_onlyBytes (s : State) (quad : Nat) (cells : List (Ref × Byte)) : onlyBytes s (s.engineWrite quad cells).1 := by
  unfold State.engineWrite
  dsimp only
  split
  · exact .refl s
  · exact (onlyBytes_ite _ (lwrite_onlyBytes _ _ _ _)).trans (onlyBytes_ite _ (gwrite_onlyBytes _ _ _ _ _))

theorem complete_onlyBytes (s : State) (quad : Nat) (c : CWord) (core : Nat) : onlyBytes s (s.complete quad c core) := by
  have hwrite := (engineWrite_onlyBytes s quad (cwordCells s c).1).trans (keepPoison_onlyBytes _ s quad fun l _ => !l)
  unfold State.complete
  dsimp only
  split
  · exact hwrite.trans (State.noteOrder_besides _ _ _).onlyBytes
  · exact hwrite

/-- What an engine's write does where no attempt holds a line of its cells: those that are served are written, first those of the quad's memory. -/
theorem engineWrite_eq {s : State} {quad : Nat} {cells : List (Ref × Byte)}
    (hl : s.mayWriteLocal none quad (localCells (s.served cells)) = true) (hg : s.mayWrite none (globalCells (s.served cells)) = true) :
    ∃ home, (s.engineWrite quad cells).1 =
      let u := if (localCells (s.served cells)).isEmpty then s else s.lwrite none quad (localCells (s.served cells))
      if (globalCells (s.served cells)).isEmpty then u else u.gwrite none (quadDie quad) home (globalCells (s.served cells)) :=
  ⟨_, by simp only [State.engineWrite, hl, hg, Bool.and_self, Bool.not_true, Bool.false_eq_true, if_false]; rfl⟩

/-- What a write to the quad's memory and then one to physical memory, each left out where it is of nothing, leave of the bytes. -/
theorem writesFrom_lwrite_gwrite (s : State) (quad die : Nat) (home : Nat → Option Nat) (cs : List (Ref × Byte)) :
    let u := if (localCells cs).isEmpty then s else s.lwrite none quad (localCells cs)
    writesFrom s (if (globalCells cs).isEmpty then u else u.gwrite none die home (globalCells cs)) quad cs := by
  intro u hwf
  obtain ⟨hmem, hquads, -⟩ := hwf
  have hquad : (s.quad quad).mem.wf = true := quad_wf hquads quad
  have hu : (∀ a, u.gbyte a = s.gbyte a) ∧ u.mem = s.mem ∧
      (∀ a, (u.quad quad).mem.get a = (lastAt (localCells cs) a).getD ((s.quad quad).mem.get a)) ∧
      ∀ q, q ≠ quad → u.quad q = s.quad q := by
    by_cases he : (localCells cs).isEmpty = true
    · have hus : u = s := if_pos he
      rw [hus, List.isEmpty_iff.1 he]
      exact ⟨fun _ => rfl, rfl, fun _ => rfl, fun _ _ => rfl⟩
    · have hus : u = s.lwrite none quad (localCells cs) := if_neg he
      rw [hus]
      exact ⟨State.lwrite_gbyte s none quad _, State.lwrite_mem s none quad _, State.lwrite_get s none quad _ hquad,
        fun q hq => State.lwrite_quad s none quad _ hq⟩
  obtain ⟨hgbyte, humem, hlocal, hother⟩ := hu
  by_cases he : (globalCells cs).isEmpty = true
  · rw [if_pos he, List.isEmpty_iff.1 he]
    exact ⟨hgbyte, hlocal, fun q hq a => by rw [hother q hq]⟩
  · rw [if_neg he]
    refine ⟨fun a => ?_, fun a => ?_, fun q hq a => ?_⟩
    · rw [State.gwrite_get u none die home _ (humem ▸ hmem), hgbyte]
    · rw [State.gwrite_quad, hlocal]
    · rw [State.gwrite_quad, hother q hq]

theorem engineWrite_writes {s : State} {quad : Nat} {cells : List (Ref × Byte)}
    (hl : s.mayWriteLocal none quad (localCells (s.served cells)) = true) (hg : s.mayWrite none (globalCells (s.served cells)) = true) :
    writesFrom s (s.engineWrite quad cells).1 quad (s.served cells) := by
  obtain ⟨home, h⟩ := engineWrite_eq hl hg
  rw [h]
  exact writesFrom_lwrite_gwrite s quad (quadDie quad) home (s.served cells)

/-- What comes after a write without a change to memory leaves what the write has left. -/
theorem writesFrom.sameMem {s t u : State} {quad : Nat} {cs : List (Ref × Byte)} (h : writesFrom s t quad cs) (g : sameMem t u) :
    writesFrom s u quad cs := by
  intro hwf
  obtain ⟨hglobal, hlocal, hother⟩ := h hwf
  exact ⟨fun a => (g.1 a).trans (hglobal a), fun a => (g.2 quad a).trans (hlocal a), fun q hq a => (g.2 q a).trans (hother q hq a)⟩

/-- A write of global cells alone leaves every quad's memory, whichever quad makes it. -/
theorem writesFrom.from_any {s t : State} {quad : Nat} {cs : List (Ref × Byte)} (h : writesFrom s t quad cs) (hcs : localCells cs = [])
    (k : Nat) : writesFrom s t k cs := by
  intro hwf
  obtain ⟨hglobal, hlocal, hother⟩ := h hwf
  have hsame (q a : Nat) : (t.quad q).mem.get a = (s.quad q).mem.get a := by
    by_cases hq : q = quad
    · subst hq; rw [hlocal, hcs]; rfl
    · exact hother q hq a
  refine ⟨hglobal, fun a => ?_, fun q _ a => hsame q a⟩
  rw [hsame, hcs]; rfl

/-- A completion that adds to no word, or to one that would carry, leaves every byte. -/
theorem complete_sameMem {s : State} {c : CWord} (hc : (cwordCells s c).1 = []) (quad core : Nat) : sameMem s (s.complete quad c core) := by
  have hkeep := keepPoison_sameMem s s quad fun l _ => !l
  unfold State.complete
  dsimp only
  rw [hc, engineWrite_nil]
  split
  · exact hkeep.trans (State.noteOrder_besides _ _ _).sameMem
  · exact hkeep

theorem complete_writes {s : State} {c : CWord} {quad : Nat}
    (hl : s.mayWriteLocal none quad (localCells (s.served (cwordCells s c).1)) = true)
    (hg : s.mayWrite none (globalCells (s.served (cwordCells s c).1)) = true) (core : Nat) :
    writesFrom s (s.complete quad c core) quad (s.served (cwordCells s c).1) := by
  have hwrite := (engineWrite_writes hl hg).sameMem (keepPoison_sameMem _ s quad fun l _ => !l)
  unfold State.complete
  dsimp only
  split
  · exact hwrite.sameMem (State.noteOrder_besides _ _ _).sameMem
  · exact hwrite

end Sys2Proof.Machine
end

section
/-! The steps of a gang before its array: a load of buffer G (R349), a hold (R356), the rank of candidates and a pre-read (R358). -/

namespace Sys2Proof.Machine

/-! ### The meanings of the steps -/

theorem exec_bufferGLoad (s : State) : exec .bufferGLoad s = .next (loadBuffer s (s.arg 0)) := rfl
theorem exec_holdExpiry (s : State) : exec .holdExpiry s = .next (holdExpires s (s.arg 0) (s.arg 1)) := rfl
theorem exec_stationaryImageRead (s : State) : exec .stationaryImageRead s = .next (prereadImage s (s.arg 0) (s.arg 1)) := rfl
theorem exec_arraySelect (s : State) : exec .arraySelect s = .next (selectArray s (s.arg 0)) := rfl
theorem exec_memberRetire (s : State) : exec .memberRetire s = .next (retireMember s (s.arg 0) (s.arg 1) (s.arg 2)) := rfl

/-! ### A load of buffer G (R349) -/

theorem cellsOf_eq_cellsAt (r : Ref) (n v : Nat) : cellsOf r n v = cellsAt r r.addr (bytesOfNat n v) := by
  unfold cellsOf cellsAt Ref.span
  rw [bytesOfNat_length, List.zip_map_left]
  rfl

/-- The cells that add 1 to a word of physical memory, and none where the word would pass 2^64. -/
theorem cwordCells_some (s : State) (r : Ref) :
    cwordCells s (some r) = if 2 ^ 64 ≤ natOfBytes (s.gread r.addr 8) + 1 then ([], true)
      else (cellsAt r r.addr (bytesOfNat 8 (natOfBytes (s.gread r.addr 8) + 1)), false) := by
  rw [← cellsOf_eq_cellsAt]
  rfl

theorem localCells_cellsAt {r : Ref} (hr : r.isLocal = false) (pa : Nat) (bs : List Byte) : localCells (cellsAt r pa bs) = [] := by
  simp [localCells, cellsAt, hr]

theorem localCells_served (s : State) {cells : List (Ref × Byte)} (h : localCells cells = []) : localCells (s.served cells) = [] := by
  unfold State.served
  split
  · exact h
  · unfold localCells at h ⊢
    rw [List.filterMap_eq_nil_iff] at h ⊢
    exact fun c hc => h c (List.mem_of_mem_filter hc)

theorem mayWrite_onGang {s : State} (h : s.recordings = []) (by_ : Option Nat) (gang : Nat) (f : Gang → Gang) (cells : List (Nat × Byte)) :
    (s.onGang gang f).mayWrite by_ cells = s.mayWrite by_ cells := by
  unfold State.mayWrite
  rw [mayFire_of_no_recordings h, mayFire_of_no_recordings (s := s.onGang gang f) h]
  rfl

theorem mayComplete_of_mayWrite {s : State} (h : s.recordings = []) {c : CWord} (hw : s.mayWrite none (globalCells (cwordCells s c).1) = true)
    (quad core : Nat) : s.mayComplete quad c core = true := by
  unfold State.mayComplete
  rw [hw, Bool.true_and]
  split
  · exact mayOrder_of_no_recordings h _ _
  · rfl

theorem carryTo_gang (s : State) (k : Option Nat) (va : Word) (gang : Nat) : (s.carryTo k va).gang gang = s.gang gang := by
  cases k <;> rfl

theorem carryTo_sameMem (s : State) (k : Option Nat) (va : Word) : sameMem s (s.carryTo k va) := by
  cases k <;> exact sameMem.refl s

/-- The gang after its oldest load. -/
def Gang.loaded (g : Gang) (s : State) (l : BufLoad) (rest : List BufLoad) : Gang :=
  { g with bufG := if l.old then g.bufG else some (readImage s l.id), loads := rest }

section
variable {s : State} {gang : Nat} {l : BufLoad} {rest : List BufLoad}

/-- The oldest load, when its turn has come and its word may be added to: the gang first, then the word, or the issuer's carry. -/
theorem loadBuffer_eq (hl : (s.gang gang).loads = l :: rest) (hruns : (s.gang gang).loadRuns = true) (hgate : s.passed l.gate)
    (hmay : s.mayComplete (loadBuffer.gangQuad gang) l.cword l.core = true) :
    loadBuffer s gang =
      let t := (s.onGang gang fun g => g.loaded s l rest).complete (loadBuffer.gangQuad gang) l.cword l.core
      if (cwordCells s l.cword).2 then t.carryTo l.ctx l.va else t := by
  unfold loadBuffer
  dsimp only
  rw [hl]
  dsimp only
  rw [hruns, pastGates_passed _ (by simpa using hgate)]
  simp only [hmay]
  rfl

theorem loadBuffer_gang (hl : (s.gang gang).loads = l :: rest) (hruns : (s.gang gang).loadRuns = true) (hgate : s.passed l.gate)
    (hmay : s.mayComplete (loadBuffer.gangQuad gang) l.cword l.core = true) :
    (loadBuffer s gang).gang gang = (s.gang gang).loaded s l rest := by
  have h (u : State) : (u.complete (loadBuffer.gangQuad gang) l.cword l.core).gang gang = u.gang gang :=
    (complete_onlyBytes _ _ _ _).gang gang
  rw [loadBuffer_eq hl hruns hgate hmay]
  dsimp only
  split
  · rw [carryTo_gang, h, State.onGang_gang_same]
  · rw [h, State.onGang_gang_same]

/-- A load with no word to add to, or to one that would carry, leaves every byte. -/
theorem loadBuffer_sameMem (hl : (s.gang gang).loads = l :: rest) (hruns : (s.gang gang).loadRuns = true) (hgate : s.passed l.gate)
    (hmay : s.mayComplete (loadBuffer.gangQuad gang) l.cword l.core = true) (hcells : (cwordCells s l.cword).1 = []) :
    sameMem s (loadBuffer s gang) := by
  have h : sameMem s ((s.onGang gang fun g => g.loaded s l rest).complete (loadBuffer.gangQuad gang) l.cword l.core) :=
    complete_sameMem (s := s.onGang gang fun g => g.loaded s l rest) hcells _ _
  rw [loadBuffer_eq hl hruns hgate hmay]
  dsimp only
  split
  · exact h.trans (carryTo_sameMem _ _ _)
  · exact h

end

/-- What a load leaves of buffer G: its image and identity, but for one accepted before a full context switch. -/
theorem Gang.loaded_bufG (g : Gang) (s : State) (l : BufLoad) (rest : List BufLoad) :
    (g.loaded s l rest).loads = rest ∧ (l.old = true → (g.loaded s l rest).bufG = g.bufG) ∧
      (l.old = false → ∃ b, (g.loaded s l rest).bufG = some b ∧ b.id = l.id ∧ b.mant = s.gread l.id.pa 8192 ∧
        b.scales = s.gread (l.id.pa + l.id.bscl) (128 * 2 ^ l.id.fmt)) :=
  ⟨rfl, fun h => if_pos h, fun h => ⟨readImage s l.id, by simp [Gang.loaded, h], rfl, rfl, rfl⟩⟩

/-- R349: the oldest load makes its image and identity current and adds 1 to its word, or leaves its issuer a carry. -/
theorem bufferGLoad_step {s : State} {gang : Nat} {l : BufLoad} {rest : List BufLoad} (hev : s.ev = [gang])
    (hl : (s.gang gang).loads = l :: rest) (hruns : (s.gang gang).loadRuns = true) (hgate : s.passed l.gate) :
    let done (t : State) : Prop := (t.gang gang).loads = rest ∧ (l.old = true → (t.gang gang).bufG = (s.gang gang).bufG) ∧
      (l.old = false → ∃ b, (t.gang gang).bufG = some b ∧ b.id = l.id ∧ b.mant = s.gread l.id.pa 8192 ∧
        b.scales = s.gread (l.id.pa + l.id.bscl) (128 * 2 ^ l.id.fmt))
    (l.cword = none → ∃ t : State, exec .bufferGLoad s = .next t ∧ done t ∧ sameMem s t) ∧
    (∀ r, l.cword = some r → r.isLocal = false → s.recordings = [] →
      let v := natOfBytes (s.gread r.addr 8) + 1
      let cells := cellsAt r r.addr (bytesOfNat 8 v)
      (v < 2 ^ 64 → s.mayWrite none (globalCells cells) = true → s.mayWrite none (globalCells (s.served cells)) = true →
        ∃ t : State, exec .bufferGLoad s = .next t ∧ done t ∧ writesFrom s t 0 (s.served cells)) ∧
      (2 ^ 64 ≤ v → ∃ t : State, exec .bufferGLoad s = .next t ∧ done t ∧ sameMem s t ∧
        ∀ k, l.ctx = some k → (t.ctx k).carry = some l.va)) := by
  intro done
  have hstep : exec .bufferGLoad s = .next (loadBuffer s gang) := by
    rw [exec_bufferGLoad, State.arg, hev]; rfl
  have hdone (hmay : s.mayComplete (loadBuffer.gangQuad gang) l.cword l.core = true) : done (loadBuffer s gang) := by
    simp only [done, loadBuffer_gang hl hruns hgate hmay]
    exact Gang.loaded_bufG _ s l rest
  refine ⟨fun hc => ?_, fun r hc hr hrec => ⟨fun hv hw hserved => ?_, fun hv => ?_⟩⟩
  · have hmay : s.mayComplete (loadBuffer.gangQuad gang) l.cword l.core = true := by rw [hc]; exact mayComplete_none _ _ _
    exact ⟨_, hstep, hdone hmay, loadBuffer_sameMem hl hruns hgate hmay (by rw [hc]; rfl)⟩
  · have hcells : cwordCells s l.cword = (cellsAt r r.addr (bytesOfNat 8 (natOfBytes (s.gread r.addr 8) + 1)), false) := by
      rw [hc, cwordCells_some, if_neg (Nat.not_le.2 hv)]
    have hmay := mayComplete_of_mayWrite (c := l.cword) hrec (by rw [hcells]; exact hw) (loadBuffer.gangQuad gang) l.core
    refine ⟨_, hstep, hdone hmay, ?_⟩
    have hlocal := localCells_served s (localCells_cellsAt hr r.addr (bytesOfNat 8 (natOfBytes (s.gread r.addr 8) + 1)))
    have hwrite := complete_writes (s := s.onGang gang fun g => g.loaded s l rest) (c := l.cword) (quad := loadBuffer.gangQuad gang)
      (by show State.mayWriteLocal _ none _ (localCells (s.served (cwordCells s l.cword).1)) = true
          rw [hcells, hlocal]; rfl)
      (by show State.mayWrite _ none (globalCells (s.served (cwordCells s l.cword).1)) = true
          rw [hcells, mayWrite_onGang hrec]; exact hserved) l.core
    rw [loadBuffer_eq hl hruns hgate hmay, hcells]
    have hcells' : (cwordCells (s.onGang gang fun g => g.loaded s l rest) l.cword).1 =
        cellsAt r r.addr (bytesOfNat 8 (natOfBytes (s.gread r.addr 8) + 1)) := congrArg Prod.fst hcells
    rw [hcells'] at hwrite
    exact writesFrom.from_any hwrite hlocal 0
  · have hcells : cwordCells s l.cword = ([], true) := by rw [hc, cwordCells_some, if_pos hv]
    have hmay := mayComplete_of_mayWrite (c := l.cword) hrec (by rw [hcells]; exact mayWrite_nil s none) (loadBuffer.gangQuad gang) l.core
    refine ⟨_, hstep, hdone hmay, loadBuffer_sameMem hl hruns hgate hmay (by rw [hcells]), fun k hk => ?_⟩
    rw [loadBuffer_eq hl hruns hgate hmay, hcells]
    simp only [if_true, State.carryTo, hk, State.onCtx_ctx_same]

/-! ### A hold that expires (R356) -/

/-- R356: the hold of an OPEN stacked operation expires, and it becomes DUE. -/
theorem holdExpiry_step {s : State} {gang n : Nat} (hev : s.ev = [gang, n]) :
    ∃ t : State, exec .holdExpiry s = .next t ∧ sameMem s t ∧ t.ctxs = s.ctxs ∧
      t.gang gang = { s.gang gang with insts := (s.gang gang).insts.map fun e =>
        (e.1, if e.1 = n ∧ e.2.st = .isOpen then { e.2 with st := .due, due := s.now } else e.2) } := by
  refine ⟨holdExpires s gang n, ?_, sameMem.refl s, rfl, ?_⟩
  · rw [exec_holdExpiry, State.arg, State.arg, hev]; rfl
  · have hinst (e : Nat × Inst) : (if e.1 = n then e.2.makeDue s.now else e.2) =
        if e.1 = n ∧ e.2.st = .isOpen then { e.2 with st := .due, due := s.now } else e.2 := by
      by_cases he : e.1 = n <;> simp [he, Inst.makeDue]
    simp only [holdExpires, State.onGang_gang_same, Map.mapVals, hinst]

/-! ### The rank of candidates (R358) -/

theorem chooseAll_frame (s : State) (l : List Cand) : (chooseAll s l).2 = { s with free := s.free + l.length } := by
  induction l generalizing s with
  | nil => rfl
  | cons c t ih => simp only [chooseAll, ih, State.choose, List.length_cons, Nat.add_assoc, Nat.add_comm 1]

/-- Ageing takes free choices and nothing else of the machine. -/
theorem ageAll_frame (s : State) (l : List Cand) : (ageAll s l).2 = { s with free := s.free + l.length } := chooseAll_frame s l

theorem chooseAll_fst (s : State) (l : List Cand) : (chooseAll s l).1.map Prod.fst = l := by
  induction l generalizing s with
  | nil => rfl
  | cons c t ih => simp only [chooseAll, List.map_cons, ih]

/-- A candidate after ageing: one that has been due as long as one of some that have aged has priority 3. -/
def Cand.agedBy (l : List (Cand × Bool)) (c : Cand) : Cand := if l.any fun e => e.2 && decide (c.due ≤ e.1.due) then { c with pri := 3 } else c

theorem ageAll_cands (s : State) (l : List Cand) : (ageAll s l).1 = l.map (Cand.agedBy (chooseAll s l).1) := rfl

theorem Cand.agedBy_inst (l : List (Cand × Bool)) (c : Cand) : (c.agedBy l).inst = c.inst := by
  unfold Cand.agedBy; split <;> rfl

/-- The best of some candidates is one of them, and of some there is a best. -/
theorem bestCand_mem {l : List Cand} {c : Cand} (h : bestCand l = some c) : c ∈ l := by
  induction l generalizing c with
  | nil => cases h
  | cons a t ih =>
    simp only [bestCand] at h
    split at h
    · cases h; exact List.mem_cons_self
    · rename_i b hb
      cases h
      split
      · exact List.mem_cons_of_mem _ (ih hb)
      · exact List.mem_cons_self

theorem bestCand_isSome {l : List Cand} (h : l ≠ []) : ∃ c, bestCand l = some c := by
  cases l with
  | nil => exact absurd rfl h
  | cons a t => simp only [bestCand]; split <;> exact ⟨_, rfl⟩

/-- Where a candidate is ahead of all others, it is the best. -/
theorem bestCand_of_ahead {l : List Cand} {c : Cand} (hc : c ∈ l) (hfirst : ∀ d ∈ l, d = c ∨ (c.ahead d = true ∧ d.ahead c = false)) :
    bestCand l = some c := by
  induction l with
  | nil => cases hc
  | cons a t ih =>
    have htail : ∀ d ∈ t, d = c ∨ (c.ahead d = true ∧ d.ahead c = false) := fun d hd => hfirst d (List.mem_cons_of_mem _ hd)
    simp only [bestCand]
    rcases hfirst a List.mem_cons_self with rfl | ⟨hca, hac⟩
    · -- the head is the first-ranked candidate
      cases hb : bestCand t with
      | none => rfl
      | some b =>
        rcases htail b (bestCand_mem hb) with rfl | ⟨-, hba⟩
        · simp
        · simp [hba]
    · have hct : c ∈ t := by
        rcases List.mem_cons.1 hc with rfl | h
        · rw [hca] at hac; cases hac
        · exact h
      rw [ih hct htail]
      simp [hca]

/-- A candidate leads another: its priority is not lower, and it has been due longer, or as long and was made before. -/
def Cand.leads (c d : Cand) : Prop := d.pri ≤ c.pri ∧ (c.due < d.due ∨ (c.due = d.due ∧ c.made < d.made))

theorem Cand.ahead_of_leads {c d : Cand} (h : c.leads d) : c.ahead d = true ∧ d.ahead c = false := by
  obtain ⟨hpri, hdue⟩ := h
  simp only [Cand.ahead, Bool.or_eq_true, Bool.and_eq_true, decide_eq_true_eq, beq_iff_eq, Bool.or_eq_false_iff, Bool.and_eq_false_iff,
    decide_eq_false_iff_not, beq_eq_false_iff_ne]
  omega

/-- Ageing keeps the lead of a candidate of a priority up to 3, and any lead where the free choices all come out alike. -/
theorem Cand.leads_agedBy {l : List (Cand × Bool)} {c d : Cand} (h : c.leads d) (hd : d ∈ l.map Prod.fst)
    (hage : c.pri ≤ 3 ∨ ∀ e ∈ l, ∀ f ∈ l, e.2 = f.2) : (c.agedBy l).leads (d.agedBy l) := by
  obtain ⟨hpri, hdue⟩ := h
  unfold Cand.agedBy
  by_cases hda : (l.any fun e => e.2 && decide (d.due ≤ e.1.due)) = true
  · -- what has aged `d` has aged `c`, which has been due as long
    have hca : (l.any fun e => e.2 && decide (c.due ≤ e.1.due)) = true := by
      obtain ⟨e, he, hon⟩ := List.any_eq_true.1 hda
      simp only [Bool.and_eq_true, decide_eq_true_eq] at hon
      exact List.any_eq_true.2 ⟨e, he, Bool.and_eq_true_iff.2 ⟨hon.1, decide_eq_true (by omega)⟩⟩
    rw [if_pos hda, if_pos hca]
    exact ⟨Nat.le_refl 3, hdue⟩
  · rw [if_neg hda]
    by_cases hca : (l.any fun e => e.2 && decide (c.due ≤ e.1.due)) = true
    · rw [if_pos hca]
      rcases hage with hle | halike
      · exact ⟨Nat.le_trans hpri hle, hdue⟩
      · -- one has aged, so all have, `d` itself among them
        exfalso
        obtain ⟨e, he, hon⟩ := List.any_eq_true.1 hca
        obtain ⟨f, hf, rfl⟩ := List.mem_map.1 hd
        refine hda (List.any_eq_true.2 ⟨f, hf, ?_⟩)
        rw [← halike e he f hf, (Bool.and_eq_true_iff.1 hon).1]
        simp
    · rw [if_neg hca]
      exact ⟨hpri, hdue⟩

theorem chooseAll_alike (h : ∀ k, Config.freeBit k = Config.freeBit 0) (s : State) (l : List Cand) :
    ∀ e ∈ (chooseAll s l).1, e.2 = Config.freeBit 0 := by
  induction l generalizing s with
  | nil => intro e he; cases he
  | cons c t ih =>
    intro e he
    rcases List.mem_cons.1 he with rfl | he
    · exact h s.free
    · exact ih _ e he

/-- The candidate that leads all others is the best after ageing. -/
theorem bestCand_ageAll {s : State} {l : List Cand} {c : Cand} (hc : c ∈ l) (hleads : ∀ d ∈ l, d = c ∨ c.leads d)
    (hage : c.pri ≤ 3 ∨ ∀ k, Config.freeBit k = Config.freeBit 0) : ∃ d, bestCand (ageAll s l).1 = some d ∧ d.inst = c.inst := by
  refine ⟨c.agedBy (chooseAll s l).1, bestCand_of_ahead (List.mem_map_of_mem hc) fun d hd => ?_, Cand.agedBy_inst _ _⟩
  obtain ⟨e, he, rfl⟩ := List.mem_map.1 hd
  rcases hleads e he with rfl | hlead
  · exact .inl rfl
  · refine .inr (Cand.ahead_of_leads (Cand.leads_agedBy hlead (by rwa [chooseAll_fst]) (hage.imp_right fun hconst e he f hf => ?_)))
    rw [chooseAll_alike hconst s l e he, chooseAll_alike hconst s l f hf]

/-! ### A pre-read (R358) -/

/-- The candidate that a DUE stacked operation is. -/
def instCand (e : Nat × Inst) : Cand :=
  { pri := (e.2.members.map (·.pri)).foldl max 0, due := e.2.due, made := e.2.made, inst := some e.1 }

theorem mem_inst_candidates (g : Gang) (d : Cand) :
    d ∈ g.candidates.filter (fun c => c.inst.isSome) ↔ ∃ e ∈ g.insts, e.2.st = .due ∧ instCand e = d := by
  have hready : ∀ l : List Cand, (∀ c ∈ l, c.inst = none) → l.filter (fun c => c.inst.isSome) = [] := fun l hl =>
    List.filter_eq_nil_iff.2 fun c hc => by simp [hl c hc]
  unfold Gang.candidates
  rw [List.filter_append, hready, List.nil_append]
  · simp only [List.mem_filter, List.mem_filterMap, Option.ite_none_right_eq_some, Option.some.injEq]
    constructor
    · rintro ⟨⟨e, he, hst, rfl⟩, -⟩
      exact ⟨e, he, hst, rfl⟩
    · rintro ⟨e, he, hst, rfl⟩
      exact ⟨⟨e, he, hst, rfl⟩, rfl⟩
  · intro c hc
    split at hc
    · cases hc
    · split at hc
      · cases hc
      · rw [List.mem_singleton.1 hc]

/-- What is found under a number of the stacker, where all that stand under it are the same. -/
theorem find?_inst {m : Map Inst} {n : Nat} {i : Inst} (hi : (n, i) ∈ m) (huniq : ∀ e ∈ m, e.1 = n → e.2 = i) :
    m.find? (fun e => e.1 == n) = some (n, i) := by
  cases h : m.find? fun e => e.1 == n with
  | none => exact absurd (List.find?_eq_none.1 h (n, i) hi) (by simp)
  | some e =>
    obtain ⟨k, x⟩ := e
    have hk : k = n := by simpa using List.find?_some h
    subst hk
    rw [show x = i from huniq _ (List.mem_of_find?_eq_some h) rfl]

/-- The image that is read for a stacked operation: the one in its buffer, or memory as it stands (R358). -/
theorem Inst.readImage_of_none {i : Inst} (h : i.image = none) (s : State) :
    i.readImage s = Machine.readImage s { pa := i.key.pb, fmt := i.key.fmt, bscl := i.key.bscl, nxm := i.key.nxm } := by
  unfold Inst.readImage; rw [h]

theorem Inst.readImage_of_some {i : Inst} {b : Buffer} (h : i.image = some b) (s : State) : i.readImage s = b := by
  unfold Inst.readImage; rw [h]

/-- A gang whose stacked operation `n` has an image in a buffer, where no other one's that is not running is kept. -/
def Gang.preread (g : Gang) (n : Nat) (b : Buffer) : Gang :=
  { g with insts := g.insts.mapVals fun j x =>
      if j = n then { x with image := some b } else if x.st = .running then x else { x with image := none } }

theorem prereadImage_eq {s : State} {gang n : Nat} {i : Inst} (hi : (n, i) ∈ (s.gang gang).insts) (hdue : i.st = .due)
    (hgate : ∀ m ∈ i.members, s.passed m.gate) (huniq : ∀ e ∈ (s.gang gang).insts, e.1 = n → e.2 = i)
    (hleads : ∀ e ∈ (s.gang gang).insts, e.1 ≠ n → e.2.st = .due → (instCand (n, i)).leads (instCand e))
    (hage : (instCand (n, i)).pri ≤ 3 ∨ ∀ k, Config.freeBit k = Config.freeBit 0) :
    ∃ k, prereadImage s gang n = { s with free := k, gangs := s.gangs.put gang ((s.gang gang).preread n (i.readImage s)) } := by
  obtain ⟨c, hbest, hc⟩ := bestCand_ageAll (s := s) (l := (s.gang gang).candidates.filter fun c => c.inst.isSome) (c := instCand (n, i))
    ((mem_inst_candidates _ _).2 ⟨_, hi, hdue, rfl⟩) (fun d hd => by
      obtain ⟨e, he, hst, rfl⟩ := (mem_inst_candidates _ _).1 hd
      by_cases hn : e.1 = n
      · have hei : e = (n, i) := Prod.ext hn (huniq e he hn)
        exact .inl (by rw [hei])
      · exact .inr (hleads e he hn hst)) hage
  refine ⟨s.free + ((s.gang gang).candidates.filter fun c => c.inst.isSome).length, ?_⟩
  unfold prereadImage
  rw [find?_inst hi huniq]
  dsimp only
  rw [hbest, ageAll_frame]
  dsimp only
  rw [hdue, hc, if_neg (by simp [instCand]), pastGates_passed]
  · rfl
  · intro g hg
    obtain ⟨m, hm, rfl⟩ := List.mem_map.1 hg
    exact hgate m hm

/-- R358: the image of the stacked operation that leads all others that are DUE comes into a buffer. -/
theorem stationaryImageRead_step {s : State} {gang n : Nat} {i : Inst} (hev : s.ev = [gang, n]) (hi : (n, i) ∈ (s.gang gang).insts)
    (hdue : i.st = .due) (hgate : ∀ m ∈ i.members, s.passed m.gate)
    (hfirst : ∀ e ∈ (s.gang gang).insts, if e.1 = n then e.2 = i else e.2.st = .due → (instCand (n, i)).leads (instCand e))
    (hage : (instCand (n, i)).pri ≤ 3 ∨ ∀ k, Config.freeBit k = Config.freeBit 0) :
    ∃ (t : State) (b : Buffer), exec .stationaryImageRead s = .next t ∧ sameMem s t ∧ t.ctxs = s.ctxs ∧
      (i.image = none → b.id = { pa := i.key.pb, fmt := i.key.fmt, bscl := i.key.bscl, nxm := i.key.nxm } ∧
        b.mant = s.gread i.key.pb 8192 ∧ b.scales = s.gread (i.key.pb + i.key.bscl) (128 * 2 ^ i.key.fmt)) ∧
      (∀ c, i.image = some c → b = c) ∧ (n, { i with image := some b }) ∈ (t.gang gang).insts ∧
      ∀ e ∈ (s.gang gang).insts, e.1 ≠ n → e.2.st ≠ .running → (e.1, { e.2 with image := none }) ∈ (t.gang gang).insts := by
  obtain ⟨k, hread⟩ := prereadImage_eq hi hdue hgate (fun e he hn => by have := hfirst e he; rwa [if_pos hn] at this)
    (fun e he hn => by have := hfirst e he; rwa [if_neg hn] at this) hage
  have hstep : exec .stationaryImageRead s = .next (prereadImage s gang n) := by
    rw [exec_stationaryImageRead, State.arg, State.arg, hev]; rfl
  have hinsts : ((prereadImage s gang n).gang gang).insts = (s.gang gang).insts.map fun e => (e.1, if e.1 = n then
      { e.2 with image := some (i.readImage s) } else if e.2.st = .running then e.2 else { e.2 with image := none }) := by
    rw [hread, State.gang, Map.get_put_same]; rfl
  refine ⟨_, i.readImage s, hstep, ?_, ?_, fun h => ?_, fun c h => Inst.readImage_of_some h s, ?_, fun e he hn hst => ?_⟩
  · rw [hread]; exact sameMem.refl s
  · rw [hread]
  · rw [Inst.readImage_of_none h]; exact ⟨rfl, rfl, rfl⟩
  · rw [hinsts]; exact List.mem_map.2 ⟨(n, i), hi, by simp⟩
  · rw [hinsts]; exact List.mem_map.2 ⟨e, he, by simp [hn, hst]⟩

end Sys2Proof.Machine
end

section
/-! The arithmetic of the matrix path: the block sum is exact (R122 to R124), mantissas by their bits (R115, R119), one element (R127), cells of a
row (R347). -/

namespace Sys2Proof.Machine

/-! ### The block sum is the exact sum (R122 to R124) -/

theorem exactSum_eq_sum (l : List (Int × Int)) : exactSum l = (l.map fun p => p.1 * p.2).sum := by
  have h (l : List (Int × Int)) (n : Int) : l.foldl (fun (acc : Int) p => acc + p.1 * p.2) n = n + (l.map fun p => p.1 * p.2).sum := by
    induction l generalizing n with
    | nil => simp
    | cons p t ih => rw [List.foldl_cons, ih, List.map_cons, List.sum_cons, add_assoc]
  rw [exactSum, h, zero_add]

/-- A sum of residues is a residue of the sum. -/
theorem residue_eq (m : Nat) (l : List (Int × Int)) : residue m l = (exactSum l % (m : Int)).toNat := by
  have h (l : List (Int × Int)) (a b : Int) (hab : a % (m : Int) = b % (m : Int)) :
      l.foldl (fun (acc : Int) p => acc + p.1 % (m : Int) * (p.2 % (m : Int))) a % (m : Int) =
        l.foldl (fun (acc : Int) p => acc + p.1 * p.2) b % (m : Int) := by
    induction l generalizing a b with
    | nil => exact hab
    | cons p t ih => exact ih _ _ (by rw [Int.add_emod, hab, ← Int.mul_emod, ← Int.add_emod])
  rw [residue, exactSum, h l 0 0 rfl]

/-- R123: of three residues of a sum the CRT makes its residue modulo M. -/
theorem crt_residues (x : Int) :
    (crt (x % (mod1 : Int)).toNat (x % (mod2 : Int)).toNat (x % (mod3 : Int)).toNat : Int) = x % (modM : Int) := by
  have h1 : ((x % 4095).toNat : Int) = x - 4095 * (x / 4095) := by omega
  have h2 : ((x % 4096).toNat : Int) = x - 4096 * (x / 4096) := by omega
  have h3 : ((x % 4097).toNat : Int) = x - 4097 * (x / 4097) := by omega
  have hsum : (x - 4095 * (x / 4095)) * 2048 * 16781312 + (x - 4096 * (x / 4096)) * 4095 * 16777215 +
      (x - 4097 * (x / 4097)) * 2049 * 16773120 =
      x + 68719472640 * (2 * x - 2048 * (x / 4095) - 4095 * (x / 4096) - 2049 * (x / 4097)) := by ring
  unfold crt
  push_cast
  rw [h1, h2, h3, hsum, Int.add_mul_emod_self_left]

/-- Where the sum lies within half of M, its residue gives it back. -/
theorem blockSum_eq_exactSum {l : List (Int × Int)} (hlo : -(modM : Int) ≤ 2 * exactSum l) (hhi : 2 * exactSum l < modM) :
    blockSum l = exactSum l := by
  unfold blockSum
  dsimp only
  rw [residue_eq, residue_eq, residue_eq]
  have hcrt := crt_residues (exactSum l)
  generalize crt (exactSum l % (mod1 : Int)).toNat (exactSum l % (mod2 : Int)).toNat (exactSum l % (mod3 : Int)).toNat = c at hcrt ⊢
  simp only [modM, Nat.cast_ofNat] at *
  split <;> omega

theorem exactSum_natAbs_le {l : List (Int × Int)} (h : ∀ p ∈ l, p.1.natAbs ≤ 32767 ∧ p.2.natAbs ≤ 32767) :
    (exactSum l).natAbs ≤ l.length * (32767 * 32767) := by
  rw [exactSum_eq_sum]
  induction l with
  | nil => simp
  | cons p t ih =>
    obtain ⟨h1, h2⟩ := h p List.mem_cons_self
    have hp : (p.1 * p.2).natAbs ≤ 32767 * 32767 := by rw [Int.natAbs_mul]; exact Nat.mul_le_mul h1 h2
    have ht := ih fun q hq => h q (List.mem_cons_of_mem _ hq)
    rw [List.map_cons, List.sum_cons, List.length_cons]
    have := Int.natAbs_add_le (p.1 * p.2) (t.map fun p => p.1 * p.2).sum
    omega

/-- R124: the block sum of 32 products of mantissas is exact. -/
theorem blockSum_exact {l : List (Int × Int)} (hlen : l.length ≤ 32) (h : ∀ p ∈ l, p.1.natAbs ≤ 32767 ∧ p.2.natAbs ≤ 32767) :
    blockSum l = (l.map fun p => p.1 * p.2).sum := by
  have hbound := exactSum_natAbs_le h
  have hsum : (exactSum l).natAbs ≤ 32 * (32767 * 32767) := Nat.le_trans hbound (Nat.mul_le_mul_right _ hlen)
  rw [← exactSum_eq_sum]
  exact blockSum_eq_exactSum (by simp only [modM]; omega) (by simp only [modM]; omega)

/-! ### Numbers that bytes hold (R161) -/

theorem natOfBytes_lt (l : List Byte) : natOfBytes l < 256 ^ l.length := by
  induction l with
  | nil => simp [natOfBytes]
  | cons b t ih =>
    have := b.isLt
    simp only [natOfBytes, List.length_cons, Nat.pow_succ]
    omega

theorem natOfBytes_append (l r : List Byte) : natOfBytes (l ++ r) = natOfBytes l + 256 ^ l.length * natOfBytes r := by
  induction l with
  | nil => simp [natOfBytes]
  | cons b t ih => simp only [List.cons_append, natOfBytes, ih, List.length_cons, Nat.pow_succ]; ring

theorem natOfBytes_div (l : List Byte) (k : Nat) : natOfBytes l / 256 ^ k = natOfBytes (l.drop k) := by
  induction k generalizing l with
  | zero => simp
  | succ k ih =>
    cases l with
    | nil => simp [natOfBytes]
    | cons b t =>
      have := b.isLt
      rw [List.drop_succ_cons, ← ih, Nat.pow_succ, Nat.mul_comm, ← Nat.div_div_eq_div_mul]
      congr 1
      simp only [natOfBytes]
      omega

theorem natOfBytes_mod (l : List Byte) (k : Nat) : natOfBytes l % 256 ^ k = natOfBytes (l.take k) := by
  rcases Nat.le_total l.length k with h | h
  · rw [List.take_of_length_le h]
    exact Nat.mod_eq_of_lt (Nat.lt_of_lt_of_le (natOfBytes_lt l) (Nat.pow_le_pow_right (by decide) h))
  · conv_lhs => rw [← List.take_append_drop k l, natOfBytes_append, List.length_take, Nat.min_eq_left h, Nat.add_mul_mod_self_left]
    refine Nat.mod_eq_of_lt (Nat.lt_of_lt_of_le (natOfBytes_lt _) (Nat.pow_le_pow_right (by decide) ?_))
    rw [List.length_take]
    exact Nat.min_le_left _ _

/-- Bytes past the end of a list count as zero. -/
theorem natOfBytes_getD (l : List Byte) (a n : Nat) : natOfBytes ((List.range n).map fun t => l.getD (a + t) 0) = natOfBytes (sliceOf l a n) := by
  induction n generalizing a with
  | zero => simp [sliceOf]
  | succ n ih =>
    rw [List.range_succ_eq_map, List.map_cons, List.map_map]
    have hshift : (fun t => l.getD (a + t) 0) ∘ Nat.succ = fun t => l.getD (a + 1 + t) 0 := by
      funext t; simp only [Function.comp, Nat.succ_eq_add_one]; congr 1; omega
    rw [hshift, natOfBytes, ih]
    unfold sliceOf
    rcases Nat.lt_or_ge a l.length with h | h
    · rw [List.drop_eq_getElem_cons h, List.take_succ_cons, natOfBytes]
      simp [List.getD, h]
    · rw [List.drop_eq_nil_of_le h, List.drop_eq_nil_of_le (Nat.le_succ_of_le h)]
      simp [List.getD, natOfBytes, h]

/-- Bytes of a slice are a slice of the list. -/
theorem natOfBytes_sliceOf (l : List Byte) (a n k m : Nat) (h : k + m ≤ n) :
    natOfBytes (sliceOf l a n) / 256 ^ k % 256 ^ m = natOfBytes (sliceOf l (a + k) m) := by
  rw [natOfBytes_div, natOfBytes_mod]
  unfold sliceOf
  rw [List.drop_take, List.drop_drop, List.take_take, Nat.min_eq_left (by omega)]

/-! ### Mantissas and scales (R115, R119, R347) -/

theorem mantBits_blockCode {fmt : Nat} (h : fmt < 3) : mantBits (blockCode fmt) = 16 / 2 ^ fmt := by
  interval_cases fmt <;> rfl

/-- A mantissa by the bits that hold it. -/
theorem mantAt_eq {w : Nat} (hw : w = 16 ∨ w = 8 ∨ w = 4) (v k : Nat) :
    mantAt w v k = if v / 2 ^ (w * k) % 2 ^ w < 2 ^ (w - 1) then ((v / 2 ^ (w * k) % 2 ^ w : Nat) : Int)
      else if w = 16 ∧ v / 2 ^ (w * k) % 2 ^ w = 2 ^ 15 then -32767 else ((v / 2 ^ (w * k) % 2 ^ w : Nat) : Int) - 2 ^ w := by
  unfold mantAt sint mantLo
  have hlt : v / 2 ^ (w * k) % 2 ^ w < 2 ^ w := Nat.mod_lt _ (by positivity)
  generalize v / 2 ^ (w * k) = x at hlt ⊢
  rcases hw with rfl | rfl | rfl <;> simp only [Nat.reducePow, Nat.reduceSub, Int.reducePow,
    Nat.reduceEqDiff, reduceIte, true_and, false_and] at hlt ⊢ <;> split_ifs <;> omega

theorem mantWidth_cases {fmt : Nat} (h : fmt < 3) : 16 / 2 ^ fmt = 16 ∨ 16 / 2 ^ fmt = 8 ∨ 16 / 2 ^ fmt = 4 := by
  interval_cases fmt <;> decide

/-- Mantissa `k` of block `blk` of row `i` of an operand that a list of bytes holds, by its bits among the row's 64 bytes. -/
theorem mantAt_sliceOf {p : MatrixPart} (hfmt : p.fmt < 3) {bytes : Nat → Byte} {l : List Byte} {i : Nat}
    (hbytes : ∀ t, t < 64 → bytes (64 * i + t) = l.getD (64 * i + t) 0) {blk k : Nat} (hblk : blk < 2 ^ p.fmt) (hk : k < 32) :
    mantAt (mantBits (blockCode p.fmt))
      (natOfBytes (sliceOf l (64 * i + mantBytes (blockCode p.fmt) * blk) (mantBytes (blockCode p.fmt)))) k = p.mant bytes i (32 * blk + k) := by
  have hrow : ((List.range 64).map fun t => bytes (64 * i + t)) = (List.range 64).map fun t => l.getD (64 * i + t) 0 :=
    List.map_congr_left fun t ht => hbytes t (List.mem_range.1 ht)
  obtain ⟨w, hw⟩ : ∃ w, w = 16 / 2 ^ p.fmt := ⟨_, rfl⟩
  have hwidth : w = 16 ∨ w = 8 ∨ w = 4 := hw ▸ mantWidth_cases hfmt
  have hin : w * 4 * blk + w * 4 ≤ 64 := by
    rw [hw]; clear hw hwidth hbytes hrow
    generalize p.fmt = fmt at *
    interval_cases fmt <;> simp only [Nat.reducePow, Nat.reduceDiv, Nat.reduceMul] at hblk ⊢ <;> omega
  have hraw (x : Nat) : x / 256 ^ (w * 4 * blk) % 256 ^ (w * 4) / 2 ^ (w * k) % 2 ^ w = x / 2 ^ (w * (32 * blk + k)) % 2 ^ w := by
    have hbits (y : Nat) : y % 2 ^ (32 * w) / 2 ^ (w * k) % 2 ^ w = y / 2 ^ (w * k) % 2 ^ w := by
      refine Nat.eq_of_testBit_eq fun t => ?_
      simp only [Nat.testBit_mod_two_pow, Nat.testBit_div_two_pow]
      by_cases ht : t < w
      · have hle : w * (k + 1) ≤ w * 32 := Nat.mul_le_mul_left w hk
        have : t + w * k < 32 * w := by rw [Nat.mul_succ] at hle; omega
        simp [this]
      · simp [ht]
    have h256 (n : Nat) : 256 ^ (w * 4 * n) = 2 ^ (32 * w * n) := by
      rw [show 256 = 2 ^ 8 from rfl, ← Nat.pow_mul]; congr 1; ring
    rw [h256, show 256 ^ (w * 4) = 2 ^ (32 * w) by simpa using h256 1, hbits, Nat.div_div_eq_div_mul, ← Nat.pow_add]
    congr 3; ring
  unfold MatrixPart.mant mantBytes
  dsimp only
  rw [mantBits_blockCode hfmt, ← hw, mantAt_eq hwidth, ← natOfBytes_sliceOf l (64 * i) 64 _ _ hin, hraw, hrow, natOfBytes_getD]

theorem MatrixPart.mant_natAbs_le {p : MatrixPart} (hfmt : p.fmt < 3) (bytes : Nat → Byte) (i e : Nat) : (p.mant bytes i e).natAbs ≤ 32767 := by
  have hwidth := mantWidth_cases hfmt
  unfold MatrixPart.mant
  dsimp only
  generalize natOfBytes _ / 2 ^ (16 / 2 ^ p.fmt * e) = x
  generalize 16 / 2 ^ p.fmt = w at hwidth ⊢
  have hlt : x % 2 ^ w < 2 ^ w := Nat.mod_lt _ (by positivity)
  generalize x % 2 ^ w = y at hlt ⊢
  rcases hwidth with rfl | rfl | rfl <;> simp only [Nat.reducePow, Nat.reduceSub, Int.reducePow,
    Nat.reduceEqDiff, reduceIte, true_and, false_and] at hlt ⊢ <;> split_ifs <;> omega

theorem headD_drop (l : List Byte) (n : Nat) : (l.drop n).headD 0 = l.getD n 0 := by
  rw [List.headD_eq_head?_getD, List.head?_drop, List.getD]

/-- A row's or a column's blocks, by the scales and the mantissas of the statement (R347). -/
theorem rowBlocksOf_eq {p : MatrixPart} (hfmt : p.fmt < 3) {bytes scale : Nat → Byte} {mant scales : List Byte} {i : Nat}
    (hbytes : ∀ t, t < 64 → bytes (64 * i + t) = mant.getD (64 * i + t) 0)
    (hscale : ∀ b, b < 2 ^ p.fmt → scale (2 ^ p.fmt * i + b) = scales.getD (2 ^ p.fmt * i + b) 0) :
    rowBlocksOf p.fmt mant scales i = (List.range (2 ^ p.fmt)).map fun b =>
      { scale := (scale (2 ^ p.fmt * i + b)).toNat, mants := (List.range 32).map fun k => p.mant bytes i (32 * b + k) } := by
  unfold rowBlocksOf rowBlocks mantissas
  dsimp only
  refine List.map_congr_left fun b hb => ?_
  have hb := List.mem_range.1 hb
  rw [headD_drop, ← hscale b hb]
  congr 1
  exact List.map_congr_left fun k hk => mantAt_sliceOf hfmt hbytes hb (List.mem_range.1 hk)

/-! ### One element (R127) -/

/-- The element of C that an accumulator starts from. -/
def MatrixPart.start (p : MatrixPart) (i j : Nat) : Val :=
  if p.cin then p.outFmt.value false (natOfBytes ((List.range p.size).map fun t => p.c ((p.cols * i + j) * p.size + t))) else .zero false

/-- MatElement on the blocks of a row and of a column is the statement's accumulator: each block sum is exact. -/
theorem matAcc_eq_acc {p : MatrixPart} (hfmt : p.fmt < 3) (i j : Nat) :
    matAcc p.nxm (Acc.init (p.start i j))
      (((List.range (2 ^ p.fmt)).map fun b => ({ scale := (p.aScale (2 ^ p.fmt * i + b)).toNat
                                                 mants := (List.range 32).map fun k => p.mant p.a i (32 * b + k) } : QBlock)).zip
        ((List.range (2 ^ p.fmt)).map fun b => { scale := (p.bScale (2 ^ p.fmt * (p.first + j) + b)).toNat
                                                 mants := (List.range 32).map fun k => p.mant p.b (p.first + j) (32 * b + k) })) =
      p.acc i j := by
  unfold matAcc MatrixPart.acc
  rw [List.zip_map', List.foldl_map]
  refine List.foldl_ext _ _ _ fun acc b _ => ?_
  dsimp only
  have hnan (x y : Nat) : (nanScale p.nxm x || nanScale p.nxm y) = true ↔ p.nxm = false ∧ (x = 255 ∨ y = 255) := by
    unfold nanScale
    cases p.nxm <;> simp
  have hsum := blockSum_exact (l := ((List.range 32).map fun k => p.mant p.a i (32 * b + k)).zip
    ((List.range 32).map fun k => p.mant p.b (p.first + j) (32 * b + k))) (by simp) (by
      rw [List.zip_map']
      intro q hq
      obtain ⟨k, -, rfl⟩ := List.mem_map.1 hq
      exact ⟨MatrixPart.mant_natAbs_le hfmt _ _ _, MatrixPart.mant_natAbs_le hfmt _ _ _⟩)
  rw [hsum, List.zip_map', List.map_map]
  by_cases h : p.nxm = false ∧ ((p.aScale (2 ^ p.fmt * i + b)).toNat = 255 ∨ (p.bScale (2 ^ p.fmt * (p.first + j) + b)).toNat = 255)
  · rw [if_pos ((hnan _ _).2 h), if_pos h]
  · rw [if_neg (mt (hnan _ _).1 h), if_neg h]
    rfl

/-! ### Unions of conditions (R136) -/

theorem foldl_lor (l : List Nat) (n : Nat) : l.foldl (· ||| ·) n = n ||| unionCond l := by
  unfold unionCond
  induction l generalizing n with
  | nil => simp
  | cons a t ih => rw [List.foldl_cons, List.foldl_cons, ih, ih (0 ||| a), Nat.zero_or, Nat.or_assoc]

theorem unionCond_cons (a : Nat) (l : List Nat) : unionCond (a :: l) = a ||| unionCond l := by
  rw [unionCond, List.foldl_cons, Nat.zero_or, foldl_lor]

theorem unionCond_append (l r : List Nat) : unionCond (l ++ r) = unionCond l ||| unionCond r := by
  conv_lhs => rw [unionCond, List.foldl_append, foldl_lor]
  rfl

theorem unionCond_flatMap {α : Type} (l : List α) (g : α → List Nat) : unionCond (l.flatMap g) = unionCond (l.map fun a => unionCond (g a)) := by
  induction l with
  | nil => rfl
  | cons a t ih =>
    rw [List.flatMap_cons, unionCond_append, ih, List.map_cons, unionCond_cons]

/-! ### Cells of a row (R347) -/

theorem bytesOfNat_eq_map (n v : Nat) : bytesOfNat n v = (List.range n).map fun t => BitVec.ofNat 8 (v / 256 ^ t) := by
  induction n generalizing v with
  | zero => rfl
  | succ n ih =>
    rw [bytesOfNat, ih, List.range_succ_eq_map, List.map_cons, List.map_map, Nat.pow_zero, Nat.div_one]
    congr 1
    refine List.map_congr_left fun t _ => ?_
    rw [Function.comp, Nat.pow_succ, Nat.mul_comm, Nat.div_div_eq_div_mul]

theorem cellRun_append (a : Nat) (l r : List Byte) : cellRun a (l ++ r) = cellRun a l ++ cellRun (a + l.length) r := by
  unfold cellRun
  rw [List.length_append, List.range_add, List.zip_append (by simp), List.map_append, List.zip_map_left, List.map_map]
  congr 1
  refine List.map_congr_left fun e _ => ?_
  simp [Nat.add_assoc]

theorem cellRun_flatMap_range {g : Nat → List Byte} {w : Nat} (hg : ∀ j, (g j).length = w) (a n : Nat) :
    cellRun a ((List.range n).flatMap g) = (List.range n).flatMap fun j => cellRun (a + j * w) (g j) := by
  induction n with
  | zero => rfl
  | succ n ih =>
    have hlen : ((List.range n).flatMap g).length = n * w := by simp [List.length_flatMap, hg]
    rw [List.range_succ, List.flatMap_append, List.flatMap_append, cellRun_append, ih, hlen]
    simp

theorem cellRun_bytesOfNat (a n v : Nat) : cellRun a (bytesOfNat n v) = (List.range n).map fun t => (a + t, BitVec.ofNat 8 (v / 256 ^ t)) := by
  unfold cellRun
  rw [bytesOfNat_length, bytesOfNat_eq_map]
  have h := List.zip_map' (f := id) (g := fun t => BitVec.ofNat 8 (v / 256 ^ t)) (l := List.range n)
  rw [List.map_id] at h
  rw [h, List.map_map]
  rfl

/-! ### Bytes as an operation reads them -/

theorem Memory.read_getD (m : Memory) {a n t : Nat} (h : t < n) : (m.read a n).getD t 0 = m.get (a + t) := by
  induction n generalizing a t with
  | zero => cases h
  | succ n ih =>
    cases t with
    | zero => rfl
    | succ t =>
      rw [Memory.read, List.getD_cons_succ, ih (by omega)]
      congr 1; omega

theorem gread_getD (s : State) {pa n t : Nat} (h : t < n) : (s.gread pa n).getD t 0 = s.gbyte (pa + t) := by
  unfold State.gread
  split
  · rename_i he
    rw [Memory.read_getD _ h, State.gbyte, List.isEmpty_iff.1 he]
    rfl
  · simp [List.getD, h]

end Sys2Proof.Machine
end

section
/-! What a row and a member's part come to (R127, R128, R347, R348). -/

namespace Sys2Proof.Machine

/-! ### A row of the output (R128, R347) -/

/-- Row `i` of a member's output, from the values of its elements: its cells, its conditions, and whether an element is NaN. -/
def partRow (f : OpFacts) (n dst cscl i : Nat) (vs : List Val) : List (Nat × Byte) × Nat × Bool :=
  if isQOut f.ofmt then quantRow f dst cscl i vs
  else (cellRun (dst + n * i * outSize f.ofmt) (floatRow f vs).1, (floatRow f vs).2.1, (floatRow f vs).2.2)

/-- The facts of an operation, as a part of the statement has them. -/
def MatrixPart.facts (p : MatrixPart) : OpFacts := { fmt := p.fmt, ofmt := p.ofmt, rm := p.rm, nxm := p.nxm, h := p.rows }

/-- The values of row `i`. -/
def MatrixPart.values (p : MatrixPart) (i : Nat) : List Val := (List.range p.cols).map fun j => (p.acc i j).val

theorem outFmt_eq {p : MatrixPart} (h : p.ofmt < 3) : outFmt p.ofmt = p.outFmt := by
  unfold MatrixPart.outFmt
  generalize p.ofmt = o at h
  interval_cases o <;> rfl

theorem isQOut_of_lt {o : Nat} (h : o < 3) : isQOut o = false := decide_eq_false (by omega)
theorem isQOut_of_le {o : Nat} (h : 3 ≤ o) : isQOut o = true := decide_eq_true h

/-- A row in a floating format: each element rounded once, its bytes in their places. -/
theorem partRow_float {p : MatrixPart} (h : p.ofmt < 3) (i : Nat) :
    partRow p.facts p.cols p.dst p.cscl i (p.values i) =
      ((List.range p.cols).flatMap fun j => (List.range p.size).map fun t =>
          (p.dst + (p.cols * i + j) * p.size + t, BitVec.ofNat 8 ((p.element i j).1 / 256 ^ t)),
        unionCond ((List.range p.cols).map fun j => (p.element i j).2), (List.range p.cols).any fun j => (p.acc i j).val.isNan) := by
  have hround : (p.values i).map ((outFmt p.ofmt).round false p.rm false) = (List.range p.cols).map fun j => p.element i j := by
    rw [outFmt_eq h, MatrixPart.values, List.map_map]; rfl
  unfold partRow floatRow MatrixPart.facts
  rw [isQOut_of_lt h, if_neg Bool.false_ne_true]
  dsimp only
  rw [hround]
  refine Prod.ext ?_ (Prod.ext ?_ ?_)
  · show cellRun _ (((List.range p.cols).map fun j => p.element i j).flatMap fun e => bytesOfNat p.size e.1) = _
    rw [List.flatMap_map, cellRun_flatMap_range (w := p.size) fun _ => bytesOfNat_length _ _]
    congr 1
    funext j
    rw [cellRun_bytesOfNat, show p.dst + p.cols * i * outSize p.ofmt + j * p.size = p.dst + (p.cols * i + j) * p.size by
      rw [show outSize p.ofmt = p.size from rfl]; ring]
  · simp only [List.map_map]; rfl
  · simp only [MatrixPart.values, List.any_map]; rfl

/-- What the blocks of a row come to, one after another. -/
theorem foldl_blocks {α : Type} (g : α → List (Nat × Byte)) (c : α → Nat) (b : α → Bool) (l : List α) (acc : List (Nat × Byte) × Nat × Bool) :
    l.foldl (fun (acc : List (Nat × Byte) × Nat × Bool) a => (acc.1 ++ g a, acc.2.1 ||| c a, acc.2.2 || b a)) acc =
      (acc.1 ++ l.flatMap g, acc.2.1 ||| unionCond (l.map c), acc.2.2 || l.any b) := by
  induction l generalizing acc with
  | nil => simp [unionCond]
  | cons a t ih =>
    rw [List.foldl_cons, ih]
    simp [unionCond_cons, List.append_assoc, Nat.or_assoc, Bool.or_assoc]

theorem mantBits_outCode {o : Nat} (hlo : 3 ≤ o) (hhi : o < 6) : mantBits (outCode o) = 16 / 2 ^ (o - 3) := by
  interval_cases o <;> rfl

/-- The 32 columns of block `n` of a row. -/
theorem values_block {p : MatrixPart} (hcols : p.cols = 128) (i : Nat) {n : Nat} (hn : n < 4) :
    ((p.values i).drop (32 * n)).take 32 = (List.range 32).map fun k => (p.acc i (32 * n + k)).val := by
  refine List.ext_getElem (by simp [MatrixPart.values, hcols]; omega) fun k h1 h2 => ?_
  simp [MatrixPart.values]

/-- A row in a Q format: its four blocks, each quantised once, their mantissas and their scales in their places. -/
theorem partRow_quant {p : MatrixPart} (hlo : 3 ≤ p.ofmt) (hhi : p.ofmt < 6) (hcols : p.cols = 128) (i : Nat) :
    partRow p.facts p.cols p.dst p.cscl i (p.values i) =
      ((List.range 4).flatMap fun n =>
          ((List.range (4 * (16 / 2 ^ (p.ofmt - 3)))).map fun t =>
            (p.dst + (4 * i + n) * (4 * (16 / 2 ^ (p.ofmt - 3))) + t,
              BitVec.ofNat 8 (packMants (16 / 2 ^ (p.ofmt - 3)) (p.block i n).mants / 256 ^ t))) ++
          [(p.dst + p.cscl + 4 * i + n, BitVec.ofNat 8 (p.block i n).scale)],
        unionCond ((List.range 4).map fun n => unionCond (p.block i n).conds),
        (List.range 4).any fun n => nanScale p.nxm (p.block i n).scale) := by
  have hblock (n : Nat) (hn : n ∈ List.range 4) : quantise (mantBits (outCode p.ofmt)) p.nxm (((p.values i).drop (32 * n)).take 32) = p.block i n := by
    rw [mantBits_outCode hlo hhi, values_block hcols i (List.mem_range.1 hn)]; rfl
  unfold partRow quantRow MatrixPart.facts
  rw [isQOut_of_le hlo, if_pos rfl]
  dsimp only
  rw [List.foldl_ext _ (fun (acc : List (Nat × Byte) × Nat × Bool) n => (acc.1 ++
    (((List.range (4 * (16 / 2 ^ (p.ofmt - 3)))).map fun t =>
        (p.dst + (4 * i + n) * (4 * (16 / 2 ^ (p.ofmt - 3))) + t,
          BitVec.ofNat 8 (packMants (16 / 2 ^ (p.ofmt - 3)) (p.block i n).mants / 256 ^ t))) ++
      [(p.dst + p.cscl + 4 * i + n, BitVec.ofNat 8 (p.block i n).scale)]),
    acc.2.1 ||| unionCond (p.block i n).conds, acc.2.2 || nanScale p.nxm (p.block i n).scale)), foldl_blocks]
  · simp
  · intro acc n hn
    rw [hblock n hn, cellRun_bytesOfNat, mantBytes, mantBits_outCode hlo hhi, Nat.mul_comm _ 4, List.append_assoc]

/-- R347: rows of a part, one after another, are what the part comes to. -/
theorem isPart_of_rows {x : Streamed} {p : MatrixPart} (hofmt : p.ofmt < 3 ∨ (p.ofmt < 6 ∧ p.cols = 128))
    (hcells : x.cells = (List.range p.rows).flatMap fun i => (partRow p.facts p.cols p.dst p.cscl i (p.values i)).1)
    (hcond : x.cond = unionCond ((List.range p.rows).map fun i => (partRow p.facts p.cols p.dst p.cscl i (p.values i)).2.1))
    (hnan : x.nan = (List.range p.rows).any fun i => (partRow p.facts p.cols p.dst p.cscl i (p.values i)).2.2) : x.isPart p := by
  rcases Nat.lt_or_ge p.ofmt 3 with hlt | hle
  · simp only [partRow_float hlt] at hcells hcond hnan
    refine ⟨?_, fun _ => ⟨?_, ?_⟩, fun h => absurd h (Nat.not_le.2 hlt)⟩
    · rw [hcells, MatrixPart.cells]; simp only [if_pos hlt]
    · rw [hcond, ← unionCond_flatMap]; rfl
    · rw [hnan]; simp
  · obtain ⟨hhi, hcols⟩ := hofmt.resolve_left (Nat.not_lt.2 hle)
    simp only [partRow_quant hle hhi hcols] at hcells hcond hnan
    refine ⟨?_, fun h => absurd h (Nat.not_lt.2 hle), fun _ => ⟨?_, ?_⟩⟩
    · rw [hcells, MatrixPart.cells]; simp only [if_neg (Nat.not_lt.2 hle)]
    · rw [hcond]; simp only [← unionCond_flatMap]; rfl
    · rw [hnan]; simp [nanScale]

/-! ### A member streams (R127, R128, R347, R348) -/

/-- A part takes A and its scales from the source tile of a member that gives A, C from the destination tile of its own member and
puts its rows there, and takes B and its scales from a buffer; past the ends of the buffer's lists it takes zeros. -/
structure PartReads (p : MatrixPart) (s : State) (buf : Buffer) (aq : Nat) (am m : Member) : Prop where
  a : ∀ t, p.a t = (s.quad aq).mem.get ((s.quad aq).tileOff am.stile + t)
  aScale : ∀ t, p.aScale t = (s.quad aq).mem.get ((s.quad aq).tileOff am.stile + am.ascl + t)
  b : ∀ j t, j < p.cols → t < 64 → p.b (64 * (p.first + j) + t) = buf.mant.getD (64 * (p.first + j) + t) 0
  bScale : ∀ j k, j < p.cols → k < 2 ^ p.fmt → p.bScale (2 ^ p.fmt * (p.first + j) + k) = buf.scales.getD (2 ^ p.fmt * (p.first + j) + k) 0
  c : ∀ t, p.c t = (s.quad (quadOfCore m.core)).mem.get (p.dst + t)
  dst : p.dst = (s.quad (quadOfCore m.core)).tileOff m.dtile
  cscl : p.cscl = m.cscl

section
variable {p : MatrixPart} {s : State} {buf : Buffer} {aq : Nat} {am m : Member}

/-- Row `i` of A, as it is streamed. -/
theorem PartReads.rowBlocks_a (h : PartReads p s buf aq am m) (hfmt : p.fmt < 3) {i : Nat} (hi : i < p.rows) :
    rowBlocksOf p.fmt (s.lbytes aq ((s.quad aq).tileOff am.stile) (64 * p.rows))
        (s.lbytes aq ((s.quad aq).tileOff am.stile + am.ascl) (rowBlocks p.fmt * p.rows)) i =
      (List.range (2 ^ p.fmt)).map fun k => { scale := (p.aScale (2 ^ p.fmt * i + k)).toNat
                                              mants := (List.range 32).map fun e => p.mant p.a i (32 * k + e) } := by
  refine rowBlocksOf_eq hfmt (fun t ht => ?_) fun k hk => ?_
  · rw [h.a]
    exact (Memory.read_getD _ (by omega)).symm
  · rw [h.aScale]
    refine (Memory.read_getD _ ?_).symm
    calc 2 ^ p.fmt * i + k < 2 ^ p.fmt * (i + 1) := Nat.add_lt_add_left hk _
      _ ≤ rowBlocks p.fmt * p.rows := Nat.mul_le_mul_left _ hi

/-- The `j`-th of the columns of B. -/
theorem PartReads.rowBlocks_b (h : PartReads p s buf aq am m) (hfmt : p.fmt < 3) {j : Nat} (hj : j < p.cols) :
    rowBlocksOf p.fmt buf.mant buf.scales (p.first + j) =
      (List.range (2 ^ p.fmt)).map fun k => { scale := (p.bScale (2 ^ p.fmt * (p.first + j) + k)).toNat
                                              mants := (List.range 32).map fun e => p.mant p.b (p.first + j) (32 * k + e) } :=
  rowBlocksOf_eq hfmt (fun t ht => h.b j t hj ht) fun k hk => h.bScale j k hj hk

/-- The element of C at row `i` and the `j`-th column. -/
theorem PartReads.start_eq (h : PartReads p s buf aq am m) (hcin : p.cin = true → p.ofmt < 3) {i j : Nat} (hi : i < p.rows) (hj : j < p.cols) :
    (if p.cin then (outFmt p.ofmt).value false (natOfBytes (sliceOf
        (if p.cin then s.lbytes (quadOfCore m.core) p.dst (p.cols * p.rows * outSize p.ofmt) else [])
        ((p.cols * i + j) * outSize p.ofmt) (outSize p.ofmt))) else Val.zero false) = p.start i j := by
  unfold MatrixPart.start
  by_cases hc : p.cin = true
  · simp only [if_pos hc]
    rw [outFmt_eq (hcin hc), ← natOfBytes_getD]
    congr 2
    refine List.map_congr_left fun t ht => ?_
    rw [h.c]
    refine Memory.read_getD _ ?_
    calc (p.cols * i + j) * outSize p.ofmt + t < (p.cols * i + j + 1) * outSize p.ofmt := by
          rw [Nat.succ_mul]; exact Nat.add_lt_add_left (List.mem_range.1 ht) _
      _ ≤ p.cols * (i + 1) * outSize p.ofmt := Nat.mul_le_mul_right _ (by rw [Nat.mul_succ]; omega)
      _ ≤ p.cols * p.rows * outSize p.ofmt := Nat.mul_le_mul_right _ (Nat.mul_le_mul_left _ hi)
  · rw [if_neg hc, if_neg hc]

/-- The values of row `i` as a member streams them, where it has read no poison. -/
def streamedValues (s : State) (f : OpFacts) (buf : Buffer) (aq : Nat) (am m : Member) (cin : Bool) (cols : List Nat) (i : Nat) : List Val :=
  let dst := (s.quad (quadOfCore m.core)).tileOff m.dtile
  let c := if cin then s.lbytes (quadOfCore m.core) dst (cols.length * f.h * outSize f.ofmt) else []
  rowValues f false
    (rowBlocksOf f.fmt (s.lbytes aq ((s.quad aq).tileOff am.stile) (64 * f.h))
      (s.lbytes aq ((s.quad aq).tileOff am.stile + am.ascl) (rowBlocks f.fmt * f.h)) i)
    (cols.map (rowBlocksOf f.fmt buf.mant buf.scales))
    ((List.range cols.length).map fun j =>
      if cin then (outFmt f.ofmt).value false (natOfBytes (sliceOf c ((cols.length * i + j) * outSize f.ofmt) (outSize f.ofmt))) else Val.zero false)

theorem lpoison_of_nil {quad : Nat} (h : (s.quad quad).poison = []) (at_ n : Nat) : s.lpoison quad at_ n = false := by
  simp [State.lpoison, h]

/-- A member whose words carry no poison streams row by row. -/
theorem stream_eq_rows (hfrom : (s.quad aq).poison = []) (hto : (s.quad (quadOfCore m.core)).poison = []) (hbad : buf.bad = [])
    (f : OpFacts) (cin : Bool) (cols : List Nat) :
    let rows := (List.range f.h).map fun i => partRow f cols.length ((s.quad (quadOfCore m.core)).tileOff m.dtile) m.cscl i
      (streamedValues s f buf aq am m cin cols i)
    stream s f buf aq am m cin cols =
      { m, cells := rows.flatMap (·.1), cond := unionCond (rows.map (·.2.1)), nan := rows.any (·.2.2)
        barred := (stream s f buf aq am m cin cols).barred } := by
  have hcols : cols.any buf.bad.contains = false := by simp [hbad]
  unfold stream
  simp only [lpoison_of_nil hfrom, lpoison_of_nil hto, hcols, Bool.or_self, Bool.and_false, Bool.false_or]
  rfl

/-- The values of a row as a member streams it are those of its part. -/
theorem PartReads.values_eq (h : PartReads p s buf aq am m) (hfmt : p.fmt < 3) (hcin : p.cin = true → p.ofmt < 3) {i : Nat} (hi : i < p.rows) :
    streamedValues s p.facts buf aq am m p.cin ((List.range p.cols).map (p.first + ·)) i = p.values i := by
  unfold streamedValues rowValues MatrixPart.values
  rw [if_neg Bool.false_ne_true, List.length_map, List.length_range, ← h.dst, List.map_map, List.zip_map', List.map_map]
  refine List.map_congr_left fun j hj => ?_
  have hj := List.mem_range.1 hj
  simp only [Function.comp, MatrixPart.facts]
  rw [h.rowBlocks_a hfmt hi, h.rowBlocks_b hfmt hj, h.start_eq hcin hi hj]
  exact congrArg Acc.val (matAcc_eq_acc hfmt i j)

/-- R348: what a member's part comes to, where no word that it reads is poisoned. -/
theorem PartReads.stream_isPart (h : PartReads p s buf aq am m) (hfmt : p.fmt < 3) (hofmt : p.ofmt < 3 ∨ (p.ofmt < 6 ∧ p.cols = 128))
    (hcin : p.cin = true → p.ofmt < 3) (hfrom : (s.quad aq).poison = []) (hto : (s.quad (quadOfCore m.core)).poison = []) (hbad : buf.bad = []) :
    (stream s p.facts buf aq am m p.cin ((List.range p.cols).map (p.first + ·))).isPart p := by
  have hrows : ((List.range p.rows).map fun i => partRow p.facts ((List.range p.cols).map (p.first + ·)).length
      ((s.quad (quadOfCore m.core)).tileOff m.dtile) m.cscl i (streamedValues s p.facts buf aq am m p.cin ((List.range p.cols).map (p.first + ·)) i)) =
      (List.range p.rows).map fun i => partRow p.facts p.cols p.dst p.cscl i (p.values i) :=
    List.map_congr_left fun i hi => by rw [h.values_eq hfmt hcin (List.mem_range.1 hi), List.length_map, List.length_range, h.dst, h.cscl]
  have hstream := stream_eq_rows (am := am) hfrom hto hbad p.facts p.cin ((List.range p.cols).map (p.first + ·))
  rw [show p.facts.h = p.rows from rfl, hrows] at hstream
  rw [hstream]
  exact isPart_of_rows hofmt (List.flatMap_map ..) (congrArg _ (List.map_map ..)) (List.any_map ..)

end

end Sys2Proof.Machine
end

section
/-! The array takes a stacked operation or the barrier's (R341, R351, R358), and what its members come to. -/

namespace Sys2Proof.Machine

/-! ### The array takes a candidate (R341, R358) -/

theorem candidatesNow_of_no_recordings {s : State} (h : s.recordings = []) (gang : Nat) : s.candidatesNow gang = (s.gang gang).candidates := by
  unfold State.candidatesNow
  refine List.filter_eq_self.2 fun c _ => ?_
  split
  · exact mayOrder_of_no_recordings h _ _
  · rfl

/-- Where all candidates stand for one operation, and what its issuers made before is done, the array takes that one. -/
theorem selectArray_eq {s : State} {gang : Nat} {op : Option Nat} (hrec : s.recordings = []) (hne : (s.gang gang).candidates ≠ [])
    (hop : ∀ c ∈ (s.gang gang).candidates, c.inst = op) (hgate : ∀ g ∈ (s.gang gang).gatesOf op, s.passed g) :
    ∃ k, selectArray s gang = State.streamCand { s with free := k } gang op := by
  have hcands := candidatesNow_of_no_recordings hrec gang
  obtain ⟨c, hbest⟩ := bestCand_isSome (l := (ageAll s (s.candidatesNow gang)).1) (by rw [ageAll_cands, hcands]; simpa using hne)
  have hinst : c.inst = op := by
    have hmem := bestCand_mem hbest
    rw [ageAll_cands, hcands] at hmem
    obtain ⟨d, hd, rfl⟩ := List.mem_map.1 hmem
    rw [Cand.agedBy_inst, hop d hd]
  refine ⟨s.free + (s.candidatesNow gang).length, ?_⟩
  unfold selectArray
  rw [if_neg (by simpa using hne)]
  dsimp only
  rw [hbest, ageAll_frame]
  dsimp only
  rw [hinst]
  exact pastGates_passed _ hgate

theorem mem_insertRow0 (m x : Member) (l : List Member) : x ∈ insertRow0 m l ↔ x = m ∨ x ∈ l := by
  induction l with
  | nil => simp [insertRow0]
  | cons a t ih =>
    unfold insertRow0
    split
    · exact List.mem_cons
    · rw [List.mem_cons, ih, List.mem_cons]
      exact or_left_comm

theorem mem_row0_order (x : Member) (l : List Member) : x ∈ l.foldr insertRow0 [] ↔ x ∈ l := by
  induction l with
  | nil => rfl
  | cons a t ih => rw [List.foldr_cons, mem_insertRow0, ih, List.mem_cons]

theorem mem_put_same {α : Type} (m : Map α) (n : Nat) (v : α) : (n, v) ∈ m.put n v := by
  induction m with
  | nil => exact List.mem_singleton_self _
  | cons e t ih =>
    unfold Map.put
    split
    · exact List.mem_cons_self
    · split
      · exact List.mem_cons_self
      · exact List.mem_cons_of_mem _ ih

/-- An entry of another key stays when a table is written. -/
theorem mem_put_other {α : Type} {m : Map α} {n : Nat} (v : α) {e : Nat × α} (he : e ∈ m) (hn : e.1 ≠ n) : e ∈ m.put n v := by
  induction m with
  | nil => cases he
  | cons a t ih =>
    unfold Map.put
    split
    · exact List.mem_cons_of_mem _ he
    · split
      · rcases List.mem_cons.1 he with rfl | h
        · exact absurd (Eq.symm ‹_›) hn
        · exact List.mem_cons_of_mem _ h
      · rcases List.mem_cons.1 he with rfl | h
        · exact List.mem_cons_self
        · exact List.mem_cons_of_mem _ (ih h)

theorem arraySelect_exec {s : State} {gang : Nat} (hev : s.ev = [gang]) : exec .arraySelect s = .next (selectArray s gang) := by
  rw [exec_arraySelect, State.arg, hev]; rfl

theorem Quad.tileOff_eq {q : Quad} {n : Nat} {t : Tile} (h : q.tile? n = some t) : q.tileOff n = t.off := by
  unfold Quad.tileOff; rw [h]

/-! #### A stacked operation -/

section
variable {s : State} {gang n : Nat} {i : Inst}

/-- The one stacked operation that is DUE streams. -/
theorem selectArray_inst (hrec : s.recordings = []) (hready : (s.gang gang).ready = []) (hi : (n, i) ∈ (s.gang gang).insts) (hdue : i.st = .due)
    (honly : ∀ e ∈ (s.gang gang).insts, if e.1 = n then e.2 = i else e.2.st ≠ .due) (hgate : ∀ m ∈ i.members, s.passed m.gate) :
    ∃ k, selectArray s gang = State.onGang { s with free := k } gang fun g => { g with
      insts := g.insts.put n { i with st := .running, image := some (i.readImage s) }
      runs := g.runs ++ [{ inst := some n, left := streamInst s i (i.readImage s) }] } := by
  have hfind := find?_inst hi fun e he hn => by have := honly e he; rwa [if_pos hn] at this
  have hcands (c : Cand) : c ∈ (s.gang gang).candidates ↔ ∃ e ∈ (s.gang gang).insts, e.2.st = .due ∧ instCand e = c := by
    rw [← mem_inst_candidates, Gang.candidates, hready, List.nil_append, List.mem_filter, and_iff_left_of_imp]
    intro hc
    obtain ⟨e, -, he⟩ := List.mem_filterMap.1 hc
    obtain ⟨-, rfl⟩ := Option.ite_none_right_eq_some.1 he |>.imp_right Option.some.inj
    rfl
  obtain ⟨k, hsel⟩ := selectArray_eq (op := some n) hrec (List.ne_nil_of_mem ((hcands _).2 ⟨_, hi, hdue, rfl⟩)) (fun c hc => by
    obtain ⟨e, he, hst, rfl⟩ := (hcands c).1 hc
    by_cases hn : e.1 = n
    · rw [← hn]; rfl
    · have := honly e he
      rw [if_neg hn] at this
      exact absurd hst this) (by
    unfold Gang.gatesOf
    dsimp only
    rw [hfind]
    intro g hg
    obtain ⟨m, hm, rfl⟩ := List.mem_map.1 hg
    exact hgate m hm)
  refine ⟨k, hsel.trans ?_⟩
  unfold State.streamCand
  dsimp only
  rw [show State.gang { s with free := k } gang = s.gang gang from rfl, hfind]
  dsimp only
  rw [noteOrder_of_no_recordings (s := { s with free := k }) hrec]
  rfl

/-- An image that is read where no word of it is poisoned has no bad column. -/
theorem readImage_bad {id : BufId} (hfmt : id.fmt < 3)
    (h : ∀ a, id.pa ≤ a → a < id.pa + id.bscl + 8192 → s.poisonedAt a = false) : (readImage s id).bad = [] := by
  have hkb : rowBlocks id.fmt ≤ 4 := by
    unfold rowBlocks
    generalize id.fmt = f at hfmt
    interval_cases f <;> decide
  have hmants : (List.range 128).filter (fun c => (List.range 8).any fun w => s.poisonedAt (id.pa + 64 * c + 8 * w)) = [] := by
    refine List.filter_eq_nil_iff.2 fun c hc => ?_
    simp only [List.any_eq_true, not_exists, not_and, Bool.not_eq_true]
    intro w hw
    have := List.mem_range.1 hc
    have := List.mem_range.1 hw
    exact h _ (by omega) (by omega)
  have hscales : (List.range (128 * rowBlocks id.fmt)).filter (fun b => s.poisonedAt (id.pa + id.bscl + b)) = [] := by
    refine List.filter_eq_nil_iff.2 fun b hb => ?_
    have := List.mem_range.1 hb
    rw [h _ (by omega) (by omega)]
    exact Bool.false_ne_true
  unfold readImage
  dsimp only
  rw [hmants, hscales]
  rfl

/-- What the members of a stacked operation come to, where nothing that they read is poisoned. -/
theorem streamInst_isPart {x : Streamed} (hx : x ∈ streamInst s i (i.readImage s)) {src dst : Tile}
    (hsrc : (s.quad (quadOfCore x.m.core)).tile? x.m.stile = some src) (hdst : (s.quad (quadOfCore x.m.core)).tile? x.m.dtile = some dst)
    (hfmt : i.key.fmt < 3) (hofmt : i.key.ofmt < 6) (hcin : x.m.cin = true → i.key.ofmt < 3)
    (hwhole : match i.image with
      | none => ∀ a, i.key.pb ≤ a → a < i.key.pb + i.key.bscl + 8192 → s.poisonedAt a = false
      | some c => c.bad = [])
    (hpoison : (s.quad (quadOfCore x.m.core)).poison = []) :
    x.isPart { rows := x.m.rows, first := 0, cols := 128, fmt := i.key.fmt, ofmt := i.key.ofmt, rm := i.key.rm, nxm := i.key.nxm
               cin := x.m.cin, a := fun t => (s.quad (quadOfCore x.m.core)).mem.get (src.off + t)
               aScale := fun t => (s.quad (quadOfCore x.m.core)).mem.get (src.off + x.m.ascl + t)
               b := fun t => match i.image with | none => s.gbyte (i.key.pb + t) | some c => c.mant.getD t 0
               bScale := fun t => match i.image with | none => s.gbyte (i.key.pb + i.key.bscl + t) | some c => c.scales.getD t 0
               c := fun t => (s.quad (quadOfCore x.m.core)).mem.get (dst.off + t), dst := dst.off, cscl := x.m.cscl } := by
  obtain ⟨m, -, rfl⟩ := List.mem_map.1 hx
  change (s.quad (quadOfCore m.core)).tile? m.stile = some src at hsrc
  change (s.quad (quadOfCore m.core)).tile? m.dtile = some dst at hdst
  have hkb : 2 ^ i.key.fmt * 128 = 128 * rowBlocks i.key.fmt := Nat.mul_comm _ _
  have hin {j k : Nat} (hj : j < 128) (hk : k < 2 ^ i.key.fmt) : 2 ^ i.key.fmt * (0 + j) + k < 128 * rowBlocks i.key.fmt := by
    rw [← hkb, Nat.zero_add]
    calc 2 ^ i.key.fmt * j + k < 2 ^ i.key.fmt * (j + 1) := Nat.add_lt_add_left hk _
      _ ≤ 2 ^ i.key.fmt * 128 := Nat.mul_le_mul_left _ hj
  have hcols : List.range 128 = (List.range 128).map (0 + ·) := by simp
  rw [hcols]
  refine PartReads.stream_isPart (p := { rows := m.rows, first := 0, cols := 128, fmt := i.key.fmt, ofmt := i.key.ofmt, .. })
    ⟨fun t => ?_, fun t => ?_, fun j t hj ht => ?_, fun j k hj hk => ?_, fun t => rfl, (Quad.tileOff_eq hdst).symm, rfl⟩
    hfmt (.inr ⟨hofmt, rfl⟩) hcin hpoison hpoison ?_
  · rw [Quad.tileOff_eq hsrc]; rfl
  · rw [Quad.tileOff_eq hsrc]; rfl
  · dsimp only at hj ⊢
    cases himage : i.image with
    | none =>
      rw [Inst.readImage_of_none himage]
      exact (gread_getD s (by omega)).symm
    | some c => rw [Inst.readImage_of_some himage]
  · dsimp only at hj hk ⊢
    cases himage : i.image with
    | none =>
      rw [Inst.readImage_of_none himage]
      exact (gread_getD s (hin hj hk)).symm
    | some c => rw [Inst.readImage_of_some himage]
  · cases himage : i.image with
    | none =>
      rw [himage] at hwhole
      rw [Inst.readImage_of_none himage]
      exact readImage_bad hfmt hwhole
    | some c =>
      rw [himage] at hwhole
      rw [Inst.readImage_of_some himage]
      exact hwhole

/-- R358: the array takes the one stacked operation that is DUE. -/
theorem arraySelect_inst_step (hev : s.ev = [gang]) (hrec : s.recordings = []) (hready : (s.gang gang).ready = [])
    (hi : (n, i) ∈ (s.gang gang).insts) (hdue : i.st = .due)
    (honly : ∀ e ∈ (s.gang gang).insts, if e.1 = n then e.2 = i else e.2.st ≠ .due) (hgate : ∀ m ∈ i.members, s.passed m.gate) :
    ∃ (t : State) (run : Run), exec .arraySelect s = .next t ∧ sameMem s t ∧ t.ctxs = s.ctxs ∧
      (t.gang gang).runs = (s.gang gang).runs ++ [run] ∧ run = { inst := some n, left := streamInst s i (i.readImage s) } ∧
      (∃ e, (n, e) ∈ (t.gang gang).insts ∧ e.st = .running ∧ e.members = i.members) ∧
      ∀ e ∈ (s.gang gang).insts, e.1 ≠ n → e ∈ (t.gang gang).insts := by
  obtain ⟨k, hsel⟩ := selectArray_inst hrec hready hi hdue honly hgate
  have hgang : (selectArray s gang).gang gang = { s.gang gang with
      insts := (s.gang gang).insts.put n { i with st := .running, image := some (i.readImage s) }
      runs := (s.gang gang).runs ++ [{ inst := some n, left := streamInst s i (i.readImage s) }] } := by
    rw [hsel, State.onGang_gang_same]; rfl
  refine ⟨_, _, arraySelect_exec hev, ?_, ?_, by rw [hgang], rfl, ?_, fun e he hn => ?_⟩
  · rw [hsel]; exact sameMem.refl s
  · rw [hsel]; rfl
  · rw [hgang]; exact ⟨_, mem_put_same _ _ _, rfl, rfl⟩
  · rw [hgang]; exact mem_put_other _ he hn

theorem mem_streamInst_members (b : Buffer) (m : Member) : m ∈ (streamInst s i b).map (·.m) ↔ m ∈ i.members := by
  have hm : (streamInst s i b).map (·.m) = i.members.foldr insertRow0 [] := by
    rw [streamInst, List.map_map]
    exact List.map_id _
  rw [hm, mem_row0_order]

theorem streamInst_flags {b : Buffer} {x : Streamed} (hx : x ∈ streamInst s i b) : x.source = true ∧ x.nobuf = false := by
  obtain ⟨m, -, rfl⟩ := List.mem_map.1 hx
  exact ⟨rfl, rfl⟩

end

/-! #### The operation of the barrier -/

section
variable {s : State} {gang at_ : Nat} {arr : Map Arrival} {rest : List (Nat × Map Arrival)}

/-- The oldest operation of the barrier streams, where no stacked one is DUE. -/
theorem selectArray_barrier (hrec : s.recordings = []) (hready : (s.gang gang).ready = (at_, arr) :: rest) (hloads : (s.gang gang).loads = [])
    (hnone : ∀ e ∈ (s.gang gang).insts, e.2.st ≠ .due) (hgate : ∀ e ∈ arr, s.passed e.2.m.gate) :
    ∃ k, selectArray s gang = State.onGang { s with free := k } gang fun g => { g with
      ready := rest, runs := g.runs ++ [{ inst := none, left := streamGang s (s.gang gang) arr }] } := by
  have hinsts : ((s.gang gang).insts.filterMap fun e => if e.2.st = .due then some (instCand e) else none) = [] :=
    List.filterMap_eq_nil_iff.2 fun e he => if_neg (hnone e he)
  obtain ⟨c, hc, hcands⟩ : ∃ c : Cand, c.inst = none ∧ (s.gang gang).candidates = [c] := by
    unfold Gang.candidates
    rw [hready, hloads]
    exact ⟨_, rfl, congrArg (_ :: ·) hinsts⟩
  obtain ⟨k, hsel⟩ := selectArray_eq (gang := gang) (op := none) hrec (by simp [hcands]) (by simpa [hcands] using hc) (by
    unfold Gang.gatesOf
    rw [hready]
    intro g hg
    obtain ⟨e, he, rfl⟩ := List.mem_map.1 hg
    exact hgate e he)
  refine ⟨k, hsel.trans ?_⟩
  unfold State.streamCand
  dsimp only
  rw [show State.gang { s with free := k } gang = s.gang gang from rfl, hready]
  rfl

/-- With no buffer, the members of the operation compute nothing. -/
theorem streamGang_nobuf {g : Gang} (hbuf : g.bufG = none) {x : Streamed} (hx : x ∈ streamGang s g arr) : x.nobuf = true ∧ x.cells = [] := by
  unfold streamGang at hx
  split at hx
  · cases hx
  · obtain ⟨e, -, rfl⟩ := List.mem_map.1 hx
    rw [hbuf]
    exact ⟨rfl, rfl⟩

/-- What the members of the operation come to on a buffer of its format, where nothing that they read is poisoned. -/
theorem streamGang_member {g : Gang} {z : Arrival} {b : Buffer} (hz : arr.head?.map (·.2) = some z) (hbuf : g.bufG = some b)
    (hbfmt : b.id.fmt = z.fmt) (hbnxm : b.id.nxm = z.nxm) {e : Nat × Arrival} (he : e ∈ arr) :
    { stream s { fmt := z.fmt, ofmt := z.ofmt, rm := z.rm, nxm := z.nxm, h := z.m.rows } b (quadOfCore z.m.core) z.m
        { e.2.m with rows := z.m.rows } z.m.cin ((List.range 16).map fun j => 16 * e.1 + j) with source := e.1 == 0 } ∈ streamGang s g arr := by
  have hagrees : b.id.agrees z.fmt z.nxm = true := by simp [BufId.agrees, hbfmt, hbnxm]
  unfold streamGang
  cases arr with
  | nil => cases he
  | cons a t =>
    cases hz
    refine List.mem_map.2 ⟨e, he, ?_⟩
    dsimp only
    rw [hbuf]
    dsimp only
    rw [if_pos hagrees]

theorem isPart_source {x : Streamed} {p : MatrixPart} (h : x.isPart p) (b : Bool) : { x with source := b }.isPart p := h

theorem streamGang_isPart {z : Arrival} {b : Buffer} (e : Nat × Arrival) {src dst : Tile} (hbad : b.bad = [])
    (hsrc : (s.quad (quadOfCore z.m.core)).tile? z.m.stile = some src) (hdst : (s.quad (quadOfCore e.2.m.core)).tile? e.2.m.dtile = some dst)
    (hfmt : z.fmt < 3) (hofmt : z.ofmt < 3) (hfrom : (s.quad (quadOfCore z.m.core)).poison = [])
    (hto : (s.quad (quadOfCore e.2.m.core)).poison = []) :
    (stream s { fmt := z.fmt, ofmt := z.ofmt, rm := z.rm, nxm := z.nxm, h := z.m.rows } b (quadOfCore z.m.core) z.m
        { e.2.m with rows := z.m.rows } z.m.cin ((List.range 16).map fun j => 16 * e.1 + j)).isPart
      { rows := z.m.rows, first := 16 * e.1, cols := 16, fmt := z.fmt, ofmt := z.ofmt, rm := z.rm, nxm := z.nxm, cin := z.m.cin
        a := fun t => (s.quad (quadOfCore z.m.core)).mem.get (src.off + t)
        aScale := fun t => (s.quad (quadOfCore z.m.core)).mem.get (src.off + z.m.ascl + t), b := fun t => b.mant.getD t 0
        bScale := fun t => b.scales.getD t 0, c := fun t => (s.quad (quadOfCore e.2.m.core)).mem.get (dst.off + t)
        dst := dst.off, cscl := e.2.m.cscl } := by
  refine PartReads.stream_isPart (p := { rows := z.m.rows, first := 16 * e.1, cols := 16, fmt := z.fmt, ofmt := z.ofmt, .. })
    ⟨fun t => ?_, fun t => ?_, fun _ _ _ _ => rfl, fun _ _ _ _ => rfl, fun t => rfl, (Quad.tileOff_eq hdst).symm, rfl⟩
    hfmt (.inl hofmt) (fun _ => hofmt) hfrom hto hbad
  · rw [Quad.tileOff_eq hsrc]
  · rw [Quad.tileOff_eq hsrc]

/-- R351, R358: the array takes the oldest operation of the barrier. -/
theorem arraySelect_barrier_step (hev : s.ev = [gang]) (hrec : s.recordings = []) (hready : (s.gang gang).ready = (at_, arr) :: rest)
    (hloads : (s.gang gang).loads = []) (hnone : ∀ e ∈ (s.gang gang).insts, e.2.st ≠ .due) (hgate : ∀ e ∈ arr, s.passed e.2.m.gate) :
    ∃ (t : State) (run : Run), exec .arraySelect s = .next t ∧ sameMem s t ∧ (t.gang gang).ready = rest ∧
      (t.gang gang).runs = (s.gang gang).runs ++ [run] ∧ run = { inst := none, left := streamGang s (s.gang gang) arr } := by
  obtain ⟨k, hsel⟩ := selectArray_barrier hrec hready hloads hnone hgate
  have hgang : (selectArray s gang).gang gang = { s.gang gang with
      ready := rest, runs := (s.gang gang).runs ++ [{ inst := none, left := streamGang s (s.gang gang) arr }] } := by
    rw [hsel, State.onGang_gang_same]; rfl
  refine ⟨_, _, arraySelect_exec hev, ?_, by rw [hgang], by rw [hgang], rfl⟩
  rw [hsel]; exact sameMem.refl s

end

end Sys2Proof.Machine
end

section
/-! A member retires (R360, R362): its rows, its tiles and its status. -/

namespace Sys2Proof.Machine

/-! ### Tiles given back (R166) -/

theorem find?_put_same {α : Type} (m : Map α) (n : Nat) (v : α) : (m.put n v).find? (fun e => e.1 == n) = some (n, v) := by
  induction m with
  | nil => simp [Map.put]
  | cons e t ih =>
    unfold Map.put
    split
    · simp
    · split
      · simp
      · rename_i _ hne
        rw [List.find?_cons_of_neg (by simpa using Ne.symm hne), ih]

theorem find?_put_other {α : Type} (m : Map α) {j n : Nat} (v : α) (h : j ≠ n) :
    (m.put n v).find? (fun e => e.1 == j) = m.find? (fun e => e.1 == j) := by
  induction m with
  | nil => simp [Map.put, Ne.symm h]
  | cons e t ih =>
    unfold Map.put
    split
    · rw [List.find?_cons_of_neg (by simpa using Ne.symm h)]
    · split
      · rename_i hn
        rw [List.find?_cons_of_neg (by simpa using Ne.symm h), List.find?_cons_of_neg (by simpa [← hn] using Ne.symm h)]
      · rw [List.find?_cons, List.find?_cons, ih]

theorem setTile_tile?_same (s : State) (quad n : Nat) (t : Tile) : ((s.setTile quad n t).quad quad).tile? n = some t := by
  show ((s.onQuad quad fun q => { q with tiles := q.tiles.put n t }).quad quad).tile? n = some t
  rw [State.onQuad_quad_same, Quad.tile?, find?_put_same]; rfl

theorem setTile_tile?_other (s : State) (quad : Nat) {j n : Nat} (t : Tile) (h : j ≠ n) :
    ((s.setTile quad n t).quad quad).tile? j = (s.quad quad).tile? j := by
  show ((s.onQuad quad fun q => { q with tiles := q.tiles.put n t }).quad quad).tile? j = _
  rw [State.onQuad_quad_same, Quad.tile?, find?_put_other _ _ h]; rfl

/-- What a role of a tile leaves it in, at the end of an operation. -/
def Role.leaves (ok : Bool) : Role → Option (Nat × TileState)
  | .fill n => some (n, if ok then .ready else .empty)
  | .consume n => some (n, if ok then .empty else .ready)
  | .keep n => some (n, .ready)
  | .addr => none
  | .push _ => none
  | .pop _ => none

section
variable {r : Role} {ok : Bool} {n : Nat} {st : TileState} (h : r.leaves ok = some (n, st)) (s : State) (quad : Nat) (id : Option Nat)
include h

theorem giveRole_tile : s.giveRole quad r id ok =
    match (s.quad quad).tile? n with | some t => s.setTile quad n { t with st, eng := false } | none => s := by
  cases r <;> cases h <;> cases ok <;> rfl

theorem giveRole_tile?_same : ((s.giveRole quad r id ok).quad quad).tile? n =
    ((s.quad quad).tile? n).map fun t => { t with st, eng := false } := by
  rw [giveRole_tile h]
  cases ht : (s.quad quad).tile? n with
  | none => exact ht
  | some t => exact setTile_tile?_same s quad n _

theorem giveRole_tile?_other {j : Nat} (hj : j ≠ n) : ((s.giveRole quad r id ok).quad quad).tile? j = (s.quad quad).tile? j := by
  rw [giveRole_tile h]
  cases (s.quad quad).tile? n with
  | none => rfl
  | some t => exact setTile_tile?_other s quad _ hj

end

/-- Memory, gangs and cores are as before: what a change to tiles leaves alone. -/
def keepsMem (s t : State) : Prop := sameMem s t ∧ t.gangs = s.gangs ∧ t.cores = s.cores

theorem keepsMem.refl (s : State) : keepsMem s s := ⟨.refl s, rfl, rfl⟩

theorem keepsMem.trans {s t u : State} (h : keepsMem s t) (g : keepsMem t u) : keepsMem s u :=
  ⟨h.1.trans g.1, g.2.1.trans h.2.1, g.2.2.trans h.2.2⟩

theorem giveRole_keepsMem {r : Role} {ok : Bool} {e : Nat × TileState} (h : r.leaves ok = some e) (s : State) (quad : Nat) (id : Option Nat) :
    keepsMem s (s.giveRole quad r id ok) := by
  rw [giveRole_tile h]
  split
  · exact ⟨sameMem_onQuad s quad (f := fun q => { q with tiles := q.tiles.put _ _ }) rfl, rfl, rfl⟩
  · exact .refl s

/-! ### A member retires (R360) -/

/-- The tiles of a member given back: its source, where it has one of its own, and its destination. -/
def State.tilesBack (s : State) (x : Streamed) (ok filled : Bool) : State :=
  let quad := quadOfCore x.m.core
  (if x.source then s.giveRole quad (if x.m.consume then .consume x.m.stile else .keep x.m.stile) none ok else s).giveRole quad
    (.fill x.m.dtile) none filled

/-- The state that a member's source tile is left in. -/
def Streamed.sourceLeft (x : Streamed) (ok : Bool) : TileState := if ok && x.m.consume then .empty else .ready

theorem Streamed.source_leaves (x : Streamed) (ok : Bool) :
    (if x.m.consume then Role.consume x.m.stile else .keep x.m.stile).leaves ok = some (x.m.stile, x.sourceLeft ok) := by
  unfold Streamed.sourceLeft
  cases x.m.consume <;> cases ok <;> rfl

section
variable (s : State) (x : Streamed) (ok filled : Bool)

theorem tilesBack_keepsMem : keepsMem s (s.tilesBack x ok filled) := by
  refine keepsMem.trans ?_ (giveRole_keepsMem rfl _ _ _)
  split
  · exact giveRole_keepsMem (x.source_leaves ok) _ _ _
  · exact .refl s

theorem tilesBack_dtile {e : Tile} (h : (s.quad (quadOfCore x.m.core)).tile? x.m.dtile = some e) :
    ((s.tilesBack x ok filled).quad (quadOfCore x.m.core)).tile? x.m.dtile =
      some { e with st := if filled then .ready else .empty, eng := false } := by
  refine (giveRole_tile?_same rfl _ _ _).trans ?_
  by_cases hsource : x.source = true
  · rw [if_pos hsource]
    by_cases hst : x.m.dtile = x.m.stile
    · rw [hst, giveRole_tile?_same (x.source_leaves ok), ← hst, h]; rfl
    · rw [giveRole_tile?_other (x.source_leaves ok) _ _ _ hst, h]; rfl
  · rw [if_neg hsource, h]; rfl

theorem tilesBack_stile {e : Tile} (hsource : x.source = true) (hne : x.m.stile ≠ x.m.dtile)
    (h : (s.quad (quadOfCore x.m.core)).tile? x.m.stile = some e) :
    ((s.tilesBack x ok filled).quad (quadOfCore x.m.core)).tile? x.m.stile = some { e with st := x.sourceLeft ok, eng := false } := by
  refine (giveRole_tile?_other rfl _ _ _ hne).trans ?_
  rw [if_pos hsource, giveRole_tile?_same (x.source_leaves ok), h]
  rfl

end

/-- Quads but for their bytes and their work, and gangs, are as before: what follows the tiles when a member retires. -/
def keepsTiles (s t : State) : Prop := (∀ k n, (t.quad k).tile? n = (s.quad k).tile? n) ∧ t.gangs = s.gangs

theorem onlyBytes.keepsTiles {s t : State} (h : onlyBytes s t) : keepsTiles s t := ⟨h.tile?, h.1⟩

theorem keepsTiles.trans {s t u : State} (h : keepsTiles s t) (g : keepsTiles t u) : keepsTiles s u :=
  ⟨fun k n => (g.1 k n).trans (h.1 k n), g.2.trans h.2⟩

theorem works_keepsTiles (s : State) (quad n : Nat) : keepsTiles s (s.works quad n) := by
  refine ⟨fun k j => ?_, rfl⟩
  unfold State.works
  by_cases hk : k = quad
  · subst hk; rw [State.onQuad_quad_same]; rfl
  · rw [State.onQuad_quad_other _ _ hk]

theorem setStatus_keepsTiles (s : State) (m : Member) (state flags : Nat) : keepsTiles s (s.setStatus m state flags) := ⟨fun _ _ => rfl, rfl⟩

theorem setStatus_sameMem (s : State) (m : Member) (state flags : Nat) : sameMem s (s.setStatus m state flags) := ⟨fun _ => rfl, fun _ _ => rfl⟩

theorem works_sameMem (s : State) (quad n : Nat) : sameMem s (s.works quad n) := sameMem_onQuad s quad rfl

theorem setStatus_mstatus {s : State} {m : Member} (h : (s.core m.core).missued < m.ident + 64) (state flags : Nat) :
    ((s.setStatus m state flags).core m.core).mstatus.get 0 (m.ident % 64) = memberStatus m state flags := by
  unfold State.setStatus
  rw [State.onCore_core_same, if_pos h]
  exact Map.get_put_same _ _ _ _

/-- A member that faults retires: its tiles take their failure transitions, whatever its flags are. -/
theorem retireOne_faults {s : State} {x : Streamed} (hcword : x.m.cword = none)
    (hfaults : x.faults (s.quad (quadOfCore x.m.core)) (quadOfCore x.m.core) = true) :
    ∃ k, sameMem s (s.retireOne x) ∧ keepsTiles (State.tilesBack { s with free := k } x false false) (s.retireOne x) := by
  obtain ⟨k, flags, hbarred⟩ : ∃ k flags, s.retireOne x =
      (let t := (State.tilesBack { s with free := k } x false false).setStatus x.m 1 flags
       if Config.freeBit s.free then t.complete (quadOfCore x.m.core) none x.m.core else t).works (quadOfCore x.m.core) x.m.rows := by
    refine ⟨s.free + 1 + 1, (Config.freeCount (s.free + 1)).toNat % 64, ?_⟩
    unfold State.retireOne State.retireBarred
    dsimp only
    rw [if_pos hfaults, hcword]
    rfl
  have hback := tilesBack_keepsMem { s with free := k } x false false
  have hcomplete (t : State) : sameMem t (if Config.freeBit s.free then t.complete (quadOfCore x.m.core) none x.m.core else t) ∧
      keepsTiles t (if Config.freeBit s.free then t.complete (quadOfCore x.m.core) none x.m.core else t) := by
    split
    · exact ⟨complete_sameMem rfl _ _, (complete_onlyBytes _ _ _ _).keepsTiles⟩
    · exact ⟨.refl t, (onlyBytes.refl t).keepsTiles⟩
  refine ⟨k, ?_, ?_⟩
  · rw [hbarred]
    exact ((hback.1.trans (setStatus_sameMem _ _ _ _)).trans (hcomplete _).1).trans (works_sameMem _ _ _)
  · rw [hbarred]
    exact ((setStatus_keepsTiles _ _ _ _).trans (hcomplete _).2).trans (works_keepsTiles _ _ _)

/-- A member that does not fault retires: its rows are written, then its tiles and its status change. -/
theorem retireOne_writes {s : State} {x : Streamed} (hcword : x.m.cword = none)
    (hfaults : x.faults (s.quad (quadOfCore x.m.core)) (quadOfCore x.m.core) = false) :
    s.retireOne x =
      let quad := quadOfCore x.m.core
      let t := (s.engineWrite quad (x.cells.map fun c => ({ isLocal := true, addr := c.1 }, c.2))).1.tilesBack x true (!x.nobuf)
      ((t.setStatus x.m 1 (x.flags false)).complete quad none x.m.core).works quad x.m.rows := by
  unfold State.retireOne
  dsimp only
  rw [hfaults, hcword]
  rfl

/-- The cells of a member's rows, as the engine writes them. -/
abbrev Streamed.localRows (x : Streamed) : List (Ref × Byte) := x.cells.map fun c => ({ isLocal := true, addr := c.1 }, c.2)

theorem served_localRows (s : State) (x : Streamed) : s.served x.localRows = x.localRows := by
  unfold State.served
  split
  · rfl
  · refine List.filter_eq_self.2 fun c hc => ?_
    obtain ⟨e, -, rfl⟩ := List.mem_map.1 hc
    rfl

theorem localCells_localRows (x : Streamed) : localCells x.localRows = x.cells := by
  unfold localCells Streamed.localRows
  rw [List.filterMap_map]
  exact List.filterMap_some

theorem globalCells_localRows (x : Streamed) : globalCells x.localRows = [] := by
  unfold globalCells
  refine List.filterMap_eq_nil_iff.2 fun c hc => ?_
  obtain ⟨e, -, rfl⟩ := List.mem_map.1 hc
  rfl

/-- A member faults where it has read, or would write, below the code's end or past the capacity (R15, R160). -/
theorem Streamed.faults_iff (x : Streamed) (q : Quad) (quad : Nat) :
    x.faults q quad = true ↔ x.barred = true ∨ ∃ c ∈ x.cells, ¬ (q.xbound.toNat ≤ c.1 ∧ c.1 < capacity (quadLayer quad)) := by
  have hbars (a : Nat) : q.bars quad a 1 = true ↔ ¬ (q.xbound.toNat ≤ a ∧ a < capacity (quadLayer quad)) := by
    unfold Quad.bars
    rw [Bool.or_eq_true, decide_eq_true_eq, decide_eq_true_eq]
    omega
  unfold Streamed.faults
  rw [Bool.or_eq_true, List.any_eq_true]
  simp only [hbars]

/-- R362: the status of a member that has retired. -/
theorem memberStatus_retired (x : Streamed) : memberStatus x.m 1 (x.flags false) = BitVec.ofNat 64 (x.m.ident % 2 ^ 32 * 2 ^ 32 +
    x.m.row0 % 64 * 2 ^ 20 + x.m.rows % 64 * 2 ^ 14 + 2 ^ 8 + (if x.nobuf then 2 ^ 11 else 0) + (if x.nan then 2 ^ 5 else 0) + x.cond % 32) := by
  refine congrArg (BitVec.ofNat 64) ?_
  unfold Streamed.flags
  rw [if_neg Bool.false_ne_true, show 2 ^ 11 = 2048 from rfl, show 2 ^ 5 = 32 from rfl]
  omega

section
variable {s : State} {gang n j : Nat} {run : Run} {x : Streamed}

/-- A member of an operation that has streamed retires: the machine after it, and the operations still to retire. -/
theorem memberRetire_exec (hev : s.ev = [gang, n, j]) (hrun : (s.gang gang).runs[n]? = some run)
    (hx : run.left[if run.inst = none then j else 0]? = some x) (hcword : x.m.cword = none)
    (hmay : s.mayWriteLocal none (quadOfCore x.m.core) x.cells = true) :
    exec .memberRetire s = .next ((s.retireOne x).onGang gang fun g => g.retired n run.inst x) := by
  have hnext : run.next j = some x := by
    rw [← hx, Run.next]
    cases run.inst <;> rfl
  have hretire : s.mayRetire x = true := by
    unfold State.mayRetire
    dsimp only
    rw [hcword, mayComplete_none, hmay, Bool.or_true]
    rfl
  rw [exec_memberRetire, State.arg, State.arg, State.arg, hev]
  change Host.Outcome.next (retireMember s gang n j) = _
  unfold retireMember
  rw [hrun]
  dsimp only
  rw [hnext]
  dsimp only
  rw [if_pos hretire]

theorem retired_runs {t : State} (hrun : (s.gang gang).runs[n]? = some run) (hgangs : t.gangs = s.gangs) (inst : Option Nat) :
    ((t.onGang gang fun g => g.retired n inst x).gang gang).runs =
      ((s.gang gang).runs.set n { run with left := run.left.erase x }).filter fun r => !r.left.isEmpty := by
  have hgang : t.gang gang = s.gang gang := by unfold State.gang; rw [hgangs]
  rw [State.onGang_gang_same, hgang]
  unfold Gang.retired
  dsimp only
  rw [List.modify_eq_set_getElem?, hrun]
  rfl

/-- R360: a member of an operation that has streamed retires. -/
theorem memberRetire_step (hev : s.ev = [gang, n, j]) (hrun : (s.gang gang).runs[n]? = some run)
    (hx : run.left[if run.inst = none then j else 0]? = some x) (hcword : x.m.cword = none)
    (hident : (s.core x.m.core).missued < x.m.ident + 64) :
    let quad := quadOfCore x.m.core
    let q := s.quad quad
    let inside (c : Nat × Byte) : Prop := q.xbound.toNat ≤ c.1 ∧ c.1 < capacity (quadLayer quad)
    let left (t : State) : Prop := (t.gang gang).runs =
      ((s.gang gang).runs.set n { run with left := run.left.erase x }).filter fun r => !r.left.isEmpty
    s.mayWriteLocal none quad x.cells = true →
    (x.barred = true ∨ (∃ c ∈ x.cells, ¬ inside c) → ∃ t : State, exec .memberRetire s = .next t ∧ sameMem s t ∧
      (∀ e, q.tile? x.m.dtile = some e → (t.quad quad).tile? x.m.dtile = some { e with st := .empty, eng := false }) ∧
      (∀ e, x.source = true → x.m.stile ≠ x.m.dtile → q.tile? x.m.stile = some e →
        (t.quad quad).tile? x.m.stile = some { e with st := .ready, eng := false }) ∧
      left t) ∧
    (x.barred = false → (∀ c ∈ x.cells, inside c) → ∃ t : State, exec .memberRetire s = .next t ∧
      writesFrom s t quad (x.cells.map fun c => ({ isLocal := true, addr := c.1 }, c.2)) ∧
      (∀ e, q.tile? x.m.dtile = some e →
        (t.quad quad).tile? x.m.dtile = some { e with st := if x.nobuf then .empty else .ready, eng := false }) ∧
      (∀ e, x.source = true → x.m.stile ≠ x.m.dtile → q.tile? x.m.stile = some e →
        (t.quad quad).tile? x.m.stile = some { e with st := if x.m.consume then .empty else .ready, eng := false }) ∧
      (t.core x.m.core).mstatus.get 0 (x.m.ident % 64) = BitVec.ofNat 64 (x.m.ident % 2 ^ 32 * 2 ^ 32 +
        x.m.row0 % 64 * 2 ^ 20 + x.m.rows % 64 * 2 ^ 14 + 2 ^ 8 + (if x.nobuf then 2 ^ 11 else 0) + (if x.nan then 2 ^ 5 else 0) +
        x.cond % 32) ∧
      left t) := by
  intro quad q inside left hmay
  have hexec := memberRetire_exec hev hrun hx hcword hmay
  refine ⟨fun hout => ?_, fun hbarred hin => ?_⟩
  · obtain ⟨k, hmem, htiles, hgangs⟩ := retireOne_faults hcword ((x.faults_iff q quad).2 hout)
    have hback := tilesBack_keepsMem { s with free := k } x false false
    refine ⟨_, hexec, hmem, fun e he => ?_, fun e hsource hne he => ?_, retired_runs hrun (hgangs.trans hback.2.1) _⟩
    · exact (htiles quad _).trans (tilesBack_dtile { s with free := k } x false false he)
    · exact (htiles quad _).trans (tilesBack_stile { s with free := k } x false false hsource hne he)
  · have hfaults : x.faults q quad = false := by
      rw [Bool.eq_false_iff, Ne, x.faults_iff q quad, hbarred]
      rintro (h | ⟨c, hc, h⟩)
      · cases h
      · exact h (hin c hc)
    have hretire := retireOne_writes hcword hfaults
    obtain ⟨u, hu⟩ : ∃ u, u = (s.engineWrite quad x.localRows).1 := ⟨_, rfl⟩
    have hbytes : onlyBytes s u := hu ▸ engineWrite_onlyBytes s quad x.localRows
    have hwrite : writesFrom s u quad x.localRows := by
      have h := engineWrite_writes (s := s) (quad := quad) (cells := x.localRows) (by rw [served_localRows, localCells_localRows]; exact hmay)
        (by rw [served_localRows, globalCells_localRows]; exact mayWrite_nil s none)
      rwa [served_localRows, ← hu] at h
    have hback := tilesBack_keepsMem u x true (!x.nobuf)
    obtain ⟨v, hv⟩ : ∃ v, v = (u.tilesBack x true (!x.nobuf)).setStatus x.m 1 (x.flags false) := ⟨_, rfl⟩
    have hstatus : (v.core x.m.core).mstatus.get 0 (x.m.ident % 64) = memberStatus x.m 1 (x.flags false) := by
      rw [hv]
      refine setStatus_mstatus ?_ _ _
      rwa [State.core, hback.2.2, hbytes.2.1]
    have hend : s.retireOne x = (v.complete quad none x.m.core).works quad x.m.rows := by rw [hretire, hv, hu]
    have hafter : keepsTiles (u.tilesBack x true (!x.nobuf)) (s.retireOne x) := by
      rw [hend, hv]
      exact ((setStatus_keepsTiles _ _ _ _).trans (complete_onlyBytes _ _ _ _).keepsTiles).trans (works_keepsTiles _ _ _)
    have hmem : sameMem u (s.retireOne x) := by
      rw [hend, hv]
      exact ((hback.1.trans (setStatus_sameMem _ _ _ _)).trans (complete_sameMem rfl _ _)).trans (works_sameMem _ _ _)
    refine ⟨_, hexec, hwrite.sameMem hmem, fun e he => ?_, fun e hsource hne he => ?_, ?_,
      retired_runs hrun ((hafter.2.trans hback.2.1).trans hbytes.1) _⟩
    · refine (hafter.1 quad _).trans ((tilesBack_dtile u x true (!x.nobuf) ((hbytes.tile? quad _).trans he)).trans ?_)
      cases x.nobuf <;> rfl
    · exact (hafter.1 quad _).trans (tilesBack_stile u x true (!x.nobuf) hsource hne ((hbytes.tile? quad _).trans he))
    · rw [← memberStatus_retired, ← hstatus]
      have hcore : (s.retireOne x).core x.m.core = v.core x.m.core := by
        rw [hend]; exact (complete_onlyBytes v quad none x.m.core).core _
      exact congrArg (fun c : Core => c.mstatus.get 0 (x.m.ident % 64)) hcore

end

end Sys2Proof.Machine
end

section
/-! The steps of a gang together. Their statement is the same as that the free choices all come out alike, which nothing says of them. -/

namespace Sys2Proof.Machine

/-! ### Ageing and priorities above 3 -/

/-- A DUE stacked operation of one member, of a priority and a due time. -/
def dueInst (pri due : Nat) : Inst :=
  { key := { pb := 0, fmt := 0, bscl := 0, ofmt := 0, rm := 0, nxm := false, domain := 0 }, st := .due, made := 0, due
    members := [{ core := 0, ctx := none, seq := 0, ident := 1, rows := 1, stile := 0, dtile := 1, cin := false, ascl := 0, cword := none, pri }] }

/-- Gang 0 is to pre-read the image of its stacked operation `n`, at a number of the next free choice. -/
def prereading (insts : Map Inst) (n free : Nat) : State := { gangs := [(0, { insts })], ev := [0, n], free }

/-- The statement has a pre-read of the first-ranked stacked operation give it an image. -/
theorem preread_of_gangSteps (h : Obligations.GangSteps) {insts : Map Inst} {n : Nat} {i : Inst} (free : Nat) (hi : (n, i) ∈ insts)
    (hst : i.st = .due) (hgate : ∀ m ∈ i.members, m.gate = none)
    (hfirst : ∀ e ∈ insts, if e.1 = n then e.2 = i else e.2.st = .due →
      (e.2.members.map fun m => m.pri).foldl max 0 ≤ (i.members.map fun m => m.pri).foldl max 0 ∧
        (i.due < e.2.due ∨ (i.due = e.2.due ∧ i.made < e.2.made))) :
    ∃ b, (n, { i with image := some b }) ∈ ((prereadImage (prereading insts n free) 0 n).gang 0).insts := by
  have hg : (prereading insts n free).gang 0 = { insts } := rfl
  obtain ⟨-, -, hread, -⟩ := h (prereading insts n free) 0 n 0
  rw [hg] at hread
  obtain ⟨t, b, ht, -, -, -, -, hb, -⟩ := hread i rfl hi hst (fun m hm p hp => by rw [hgate m hm] at hp; cases hp) hfirst
  cases ht
  exact ⟨b, hb⟩

/-- Of two DUE stacked operations above priority 3, ageing takes the longer due one, which is the higher one, below the other. -/
theorem freeBit_succ_of_true (h : Obligations.GangSteps) {k : Nat} (hk : Config.freeBit k = true) : Config.freeBit (k + 1) = true := by
  by_contra hk'
  rw [Bool.not_eq_true] at hk'
  obtain ⟨b, hb⟩ := preread_of_gangSteps h (insts := [(0, dueInst 5 0), (1, dueInst 4 1)]) (n := 0) (i := dueInst 5 0) k
    (by decide) rfl (by decide) (by decide)
  have hsame : ((prereadImage (prereading [(0, dueInst 5 0), (1, dueInst 4 1)] 0 k) 0 0).gang 0).insts =
      [(0, dueInst 5 0), (1, dueInst 4 1)] := by
    simp [prereadImage, prereading, State.gang, Map.get, Gang.candidates, ageAll, chooseAll, State.choose, hk, hk', bestCand, Cand.ahead, dueInst]
  rw [hsame] at hb
  simp [dueInst] at hb

theorem freeBit_succ_of_false (h : Obligations.GangSteps) {k : Nat} (hk : Config.freeBit k = false) : Config.freeBit (k + 1) = false := by
  by_contra hk'
  rw [Bool.not_eq_false] at hk'
  obtain ⟨b, hb⟩ := preread_of_gangSteps h (insts := [(0, dueInst 4 1), (1, dueInst 5 0)]) (n := 1) (i := dueInst 5 0) k
    (by decide) rfl (by decide) (by decide)
  have hsame : ((prereadImage (prereading [(0, dueInst 4 1), (1, dueInst 5 0)] 1 k) 0 1).gang 0).insts =
      [(0, dueInst 4 1), (1, dueInst 5 0)] := by
    simp [prereadImage, prereading, State.gang, Map.get, Gang.candidates, ageAll, chooseAll, State.choose, hk, hk', bestCand, Cand.ahead, dueInst]
  rw [hsame] at hb
  simp [dueInst] at hb

/-- The statement fixes the free choices: all of them come out alike. -/
theorem freeBit_const_of_gangSteps (h : Obligations.GangSteps) (k : Nat) : Config.freeBit k = Config.freeBit 0 := by
  induction k with
  | zero => rfl
  | succ k ih =>
    rw [← ih]
    cases hk : Config.freeBit k with
    | true => exact freeBit_succ_of_true h hk
    | false => exact freeBit_succ_of_false h hk

/-- Every clause of the statement of O35 holds where the free choices by which candidates age all come out alike. -/
theorem gangSteps_of_freeBit_const (hconst : ∀ k, Config.freeBit k = Config.freeBit 0) : Obligations.GangSteps := by
  intro s gang n j g kb pri holds
  refine ⟨fun l rest hev hl hruns hgate => bufferGLoad_step hev hl hruns hgate, fun hev => holdExpiry_step hev,
    fun i hev hi hdue hgate hfirst => stationaryImageRead_step hev hi hdue hgate hfirst (.inr hconst),
    fun hev hrec => ⟨fun i hready hi hdue honly hgate => ?_, fun at_ arr rest hready hloads hnone hgate => ?_⟩,
    fun run x hev hrun hx hcword hident => memberRetire_step hev hrun hx hcword hident⟩
  · obtain ⟨t, run, hexec, hmem, hctxs, hruns, rfl, hrunning, hothers⟩ := arraySelect_inst_step hev hrec hready hi hdue honly hgate
    refine ⟨t, _, hexec, hmem, hctxs, hruns, rfl, mem_streamInst_members _, hrunning, hothers, fun x hx => ?_⟩
    obtain ⟨hsource, hnobuf⟩ := streamInst_flags hx
    exact ⟨hsource, hnobuf, fun src dst hsrc hdst hfmt hofmt hcin hwhole hpoison =>
      streamInst_isPart hx hsrc hdst hfmt hofmt hcin hwhole hpoison⟩
  · obtain ⟨t, run, hexec, hmem, hready', hruns, rfl⟩ := arraySelect_barrier_step hev hrec hready hloads hnone hgate
    refine ⟨t, _, hexec, hmem, hready', hruns, rfl, fun hbuf x hx => streamGang_nobuf hbuf hx, fun z b hz hbuf hbfmt hbnxm hbad e he => ?_⟩
    exact ⟨_, streamGang_member hz hbuf hbfmt hbnxm he, rfl, rfl, rfl, fun src dst hsrc hdst hfmt hofmt hfrom hto =>
      isPart_source (streamGang_isPart e hbad hsrc hdst hfmt hofmt hfrom hto) _⟩

/-- The statement of O35 comes down to the free choices, which are constants without a body: for priorities above 3, which no hypothesis
of its pre-read clause keeps out, ageing to 3 is a step down (R358). -/
theorem gangSteps_iff_freeBit_const : Obligations.GangSteps ↔ ∀ k, Config.freeBit k = Config.freeBit 0 :=
  ⟨freeBit_const_of_gangSteps, gangSteps_of_freeBit_const⟩

end Sys2Proof.Machine
end

section
/-! Every word that decodes is the word of its instruction (R27, R31): each branch of the decoder reads every bit of the body, either into an
operand or into a code or a zero that it demands. -/

namespace Sys2Proof.Laws.Encoding

/-- What a body is decoded to, where it is an instruction, is well formed and has the word of this body. -/
def Faithful (sb : Bool) (m : BitVec 6) (b : BitVec 25) (r : Decoded) : Prop :=
  ∀ i, r = .ok i → encode i = some (pack sb m b) ∧ i.wellFormed = true

/-- The bits of a body from bit `s` up are `x`. -/
def Holds (b : BitVec 25) (s : Nat) {n : Nat} (x : BitVec n) : Prop := b.extractLsb' s n = x

variable {sb : Bool} {m : BitVec 6} {b : BitVec 25}

@[simp] theorem holds_field (s n : Nat) : Holds b s (b.extractLsb' s n) := rfl

@[simp] theorem holds_body : Holds b 0 b := ex_all b

@[simp] theorem holds_code (s n v : Nat) : Holds b s (BitVec.ofNat n v) ↔ b.extractLsb' s n = BitVec.ofNat n v := .rfl

theorem holds_append {n k s : Nat} (x : BitVec n) (y : BitVec k) : Holds b s (x ++ y) ↔ Holds b (s + k) x ∧ Holds b s y := by
  unfold Holds
  constructor
  · intro h
    have hx := congrArg (BitVec.extractLsb' k n) h
    have hy := congrArg (BitVec.extractLsb' 0 k) h
    rw [ex_hi _ _ le_rfl, Nat.sub_self, ex_all] at hx
    rw [ex_lo _ _ (by omega), ex_all] at hy
    rw [← hx, ← hy]
    constructor <;> refine BitVec.eq_of_getLsbD_eq fun i hi => ?_
    · simp only [BitVec.getLsbD_extractLsb', hi, decide_eq_true (show k + i < n + k by omega), Nat.add_assoc, Bool.true_and]
    · simp only [BitVec.getLsbD_extractLsb', hi, decide_eq_true (show i < n + k by omega), Nat.zero_add, Bool.true_and]
  · rintro ⟨rfl, rfl⟩
    ext i hi
    simp only [BitVec.getElem_append, BitVec.getElem_extractLsb']
    split
    · rfl
    · congr 1; omega

/-- The fields joined, low ones last, are the body where each is the body's. -/
theorem pack_eq_pack {n : Nat} (hn : n = 25) (x : BitVec n) : pack sb m x = pack sb m b ↔ Holds b 0 x := by
  subst hn
  refine ⟨fun h => ?_, fun h => by rw [← h]; simp [pack]⟩
  rw [Holds, ex_all, ← b.setWidth_eq, ← pack_body sb m b, ← h, pack_body, x.setWidth_eq]

@[simp] theorem faithful_illegal (e : DecodeError) : Faithful sb m b (.illegal e) := nofun

@[simp] theorem faithful_checked (i : Instr) : Faithful sb m b (checked i) ↔ (i.wellFormed = true → encode i = some (pack sb m b)) := by
  unfold Faithful checked
  split <;> simp_all

@[simp] theorem faithful_ite (p : Prop) [Decidable p] (r r' : Decoded) :
    Faithful sb m b (if p then r else r') ↔ (p → Faithful sb m b r) ∧ (¬ p → Faithful sb m b r') := by
  split <;> simp [*]

/-- The branches of the decoder, each major opcode's and in it each code's: the word of the instruction joins the operands that were read
to the codes and zeros that were demanded, and together they are the whole body. -/
theorem decodeBody_faithful : Faithful sb m b (decodeBody sb m b) := by
  unfold decodeBody decodeAlu decodeShiftImm decodeBranch decodeControlMisc decodeLd decodeLdz decodeSt decodeMemOrder decodeTiles
    decodeRings decodeAmo decodeCounters decodeTransactions decodeWaiting decodeTasks decodeRetirement decodeControl decodeSystem
    decodeCopy decodeMatrix decodeTransfer decodeVecArith decodeVecFused decodeVecLogic decodeVecCompare decodeVecConvert
    decodeVecMemory decodeScalarFp
  repeat' split
  all_goals
    simp (disch := rfl) only [faithful_checked, faithful_illegal, encode, BitVec.ofNat_eq_ofNat, Option.some.injEq, pack_eq_pack, holds_append]
  all_goals simp +contextual [*]

/-- A word is its settle bit, its major opcode and its body (R27). -/
theorem pack_parts (w : Word32) : pack (w.getLsbD 31) (w.extractLsb' 25 6) (w.extractLsb' 0 25) = w := by
  refine BitVec.eq_of_getLsbD_eq fun i hi => ?_
  simp only [pack, BitVec.setWidth_eq, BitVec.getLsbD_append, BitVec.getLsbD_extractLsb', BitVec.getLsbD_ofBool, Nat.zero_add]
  rcases (by omega : i < 25 ∨ 25 ≤ i ∧ i < 31 ∨ i = 31) with hlo | ⟨hlo, hhi⟩ | rfl
  · simp [hlo]
  · simp [show ¬ i < 25 by omega, show i - 25 < 6 by omega, show 25 + (i - 25) = i by omega]
  · simp

/-- Settles O56: the decoder's branch gives the word of the three parts of `w`, which is `w`. -/
theorem wordsMeanOne : Obligations.WordsMeanOne := by
  intro w i h
  rw [decode] at h
  split at h
  · cases h
  · obtain ⟨hword, hwf⟩ := decodeBody_faithful i h
    exact ⟨by rw [hword, pack_parts], hwf⟩

theorem statement_all (i : Instr) : Statement i := by
  cases i
  exacts [
    add _ _ _ _, sub _ _ _ _, and _ _ _ _, or _ _ _ _, xor _ _ _ _, andn _ _ _ _, orn _ _ _ _, sll _ _ _ _, srl _ _ _ _,
    sra _ _ _ _, rotl _ _ _ _, rotr _ _ _ _, slt _ _ _ _, sltz _ _ _ _, min _ _ _ _, max _ _ _ _, minz _ _ _ _, maxz _ _ _ _,
    clz _ _ _, ctz _ _ _, popc _ _ _, mul _ _ _ _, mulh _ _ _ _, mulhz _ _ _ _, div _ _ _ _, divz _ _ _ _, rem _ _ _ _,
    remz _ _ _ _, addi _ _ _ _, andi _ _ _ _, ori _ _ _ _, xori _ _ _ _, slti _ _ _ _, slli _ _ _ _, srli _ _ _ _, srai _ _ _ _,
    lui _ _ _, addpc _ _ _, adds _ _ _ _ _, sel _ _ _ _ _, ext _ _ _ _ _, ins _ _ _ _ _, bEq _ _ _ _, bNe _ _ _ _, bLt _ _ _ _,
    bGe _ _ _ _, bLtz _ _ _ _, bGez _ _ _ _, j _ _, jal _ _, jalr _ _ _ _, loop _ _ _ _, nop _, lbreak _ _, ident _ _, ld _ _ _ _ _,
    ldAcq _ _ _ _ _, ldnc _ _ _ _ _, ldp _ _ _ _, ldpAcq _ _ _ _, ldz _ _ _ _ _, ldzAcq _ _ _ _ _, ldncZ _ _ _ _ _, st _ _ _ _ _,
    stRel _ _ _ _ _, stp _ _ _ _, stpRel _ _ _ _, fenceQuad _, fenceQuarter _, fenceDie _, fenceModule _, fenceSystem _, pref _ _,
    prefW _ _, cln _ _, inv _ _, nhint _ _ _, tacq _ _ _ _, trdy _ _, tdrain _ _, tfree _ _, tstat _ _ _, rset _ _ _, rpush _ _ _,
    rpop _ _, rstat _ _ _, amoAdd _ _ _ _ _ _, amoAnd _ _ _ _ _ _, amoOr _ _ _ _ _ _, amoXor _ _ _ _ _ _, amoMin _ _ _ _ _ _,
    amoMax _ _ _ _ _ _, amoMinz _ _ _ _ _ _, amoMaxz _ _ _ _ _ _, amoSwap _ _ _ _ _ _, amoFadd _ _ _ _ _ _, amoCas _ _ _ _ _ _ _,
    cadd _ _ _ _, caddRel _ _ _ _, grab _ _ _ _, disarm _ _ _ _, arm _ _ _ _ _, tbegin _ _, tend _, otherwise _, retry _,
    tstatX _ _, tabort _ _, waitge _ _ _ _, barr _ _ _, bwait _ _ _, amsend _ _ _ _ _, amreply _ _ _, spawn _ _, enq _ _ _ _,
    deq _ _ _, hostpost _ _ _ _, taskid _ _, yield _, halt _, haltK _ _ _, tail _, ctlrd _ _ _, ctlwr _ _ _, ctlset _ _ _ _,
    ctlclr _ _ _ _, cpgoRead _ _ _, eret _, ifence _, tlbinv _ _, tlbinvAs _ _, perfrd _ _ _, brk _, trap _ _, cprec _ _ _,
    rcfence _, gather _ _ _ _, scatter _ _ _ _, cpabort _ _, tlrd _ _ _, mldb _ _ _, mgang _ _ _ _, mflush _ _, mdrain _,
    mstat _ _ _, mkey _ _ _, mms _ _ _ _ _, wset _ _ _, rstr _ _ _ _, rstrF _ _ _ _, prlg _ _ _ _, prlgF _ _ _ _, xstat _ _ _,
    vadd _ _ _ _ _ _, vsub _ _ _ _ _ _, vmul _ _ _ _ _ _, vdiv _ _ _ _ _ _, vmin _ _ _ _ _ _, vmax _ _ _ _ _ _, vabs _ _ _ _ _,
    vneg _ _ _ _ _, vsqrt _ _ _ _ _, vexp2 _ _ _ _ _, vfma _ _ _ _ _ _, vredsum _ _ _ _ _, vredmax _ _ _ _ _, vredmin _ _ _ _ _,
    vdot _ _ _ _ _ _, vand _ _ _ _ _ _, vor _ _ _ _ _ _, vxor _ _ _ _ _ _, vshl _ _ _ _ _ _, vshr _ _ _ _ _ _, vperm _ _ _ _ _ _,
    vbcast _ _ _ _ _, vslide _ _ _ _ _ _, vcompress _ _ _ _ _, vexpand _ _ _ _ _, vsel _ _ _ _ _ _, vcmpEq _ _ _ _ _ _,
    vcmpNe _ _ _ _ _ _, vcmpLt _ _ _ _ _ _, vcmpGe _ _ _ _ _ _, vcmpLe _ _ _ _ _ _, vcmpGt _ _ _ _ _ _, kand _ _ _ _, kor _ _ _ _,
    knot _ _ _, kpop _ _ _, vcvt _ _ _ _ _ _, vcvtFp8 _ _ _ _ _ _, vqpack _ _ _ _ _ _, vqunpack _ _ _ _ _ _, vld _ _ _ _ _,
    vst _ _ _ _ _, vlds _ _ _ _ _ _, vsts _ _ _ _ _ _, vldx _ _ _ _ _ _, vstx _ _ _ _ _ _, fadd _ _ _ _ _, fsub _ _ _ _ _,
    fmul _ _ _ _ _, fdiv _ _ _ _ _, fsqrt _ _ _ _, fmin _ _ _ _ _, fmax _ _ _ _ _, fcmpEq _ _ _ _ _, fcmpLt _ _ _ _ _,
    fcmpLe _ _ _ _ _, fcvt _ _ _ _ _, fcvtInt _ _ _ _ _, fclass _ _ _ _, fsgnj _ _ _ _ _, fmvx _ _ _ _, fmvf _ _ _ _,
    fma _ _ _ _ _ _, illegalInstruction, homeAtomicApply, homeArmApply, homeDisarmApply, homeWrite, triggerMessageSend,
    triggerMessageStatus, triggerResend, homeWaitgeEval, conflictBackoffExpiry, tokenGrant, messageArrival, amsendStatusReturn,
    replyResend, homeQueueApply, retirementEntryFree, xboundWrite, tlbaseWrite, dispthWrite, mbdepthWrite, loopRegisterWrite,
    tpcWrite, trapEntry, copyOperationStart, gatherSublistService, copyRetire, bufferGLoad, holdExpiry, arraySelect,
    stationaryImageRead, memberRetire, transferOperationStart, transferRetire, resultArrival, contextWake, taskStart, handlerStart,
    recordPromotion, stealProbeQuad, stealProbeLayer, stealProbeReply, pageWalk, blockPromotion, blockEviction, bankPowerUp,
    timerExpiry, partitionHalted, preemptReport, hostMemoryAccess, hostSnoop, modidWrite, doorbell, fqansResume, fqansDecline,
    fqansKill, fqctlWrite, aqctlEnable, aqctlDisable, hostRegisterWrite, vectorUnmask, coalesceTimerExpiry, cpEventDispatch,
    entryFetch, launch, launchPlacementResume, launchQuadFree, launchComplete, marker, form, dissolve, preempt, resume, switchOut,
    switchIn, setPasid, teardown, teardownComplete, bindQueue, setTimer, setRelease, join, faultRecordPost, railSample,
    budgetRedivision, operatingPointStep, capMessage, capLeaseExpiry, setPartitionCap, setModuleCap, setPartitionRank, setSafeCap,
    patrolScrub, quarterFailure, recordModeEnable, replay, reset, firmwareUpdate, spdmRequest, cacheLineEviction]

/-- Settles O55, by the instruction: each has its own statement that its word decodes to it. -/
theorem encodeDecode : Obligations.EncodeDecode := statement_all

/-- Settles O54, by running the decoder on each word. -/
theorem decodeWords : Obligations.DecodeWords := by
  unfold Obligations.DecodeWords
  decide

end Sys2Proof.Laws.Encoding
end

section
/-! Control registers: which index reads which register (R37, R38), what a read gives, and the trap of an index that no register has. -/

namespace Sys2Proof.Machine

/-- A word whose form is illegal where it stands traps with the word as TVAL (R32, R242). -/
theorem State.illegal_enters {s : State} (h : takesTraps s.me) (w : Word32) : entersTrap s (s.illegal w) 0x01 (w.setWidth 64) := by
  rw [← BitVec.ofNat_toNat]
  exact State.trap_enters s cIllegal _ rfl h

/-- The registers that an index of its own reaches, but for those of the copy contexts (R37). -/
def plainRegs : List (Nat × CtlReg) :=
  [(0x000, .fpctl), (0x001, .nmode), (0x002, .mfmta), (0x003, .mfmtb), (0x004, .mfmtc), (0x005, .mscl), (0x010, .lc 0), (0x011, .ls 0),
   (0x012, .le 0), (0x013, .lc 1), (0x014, .ls 1), (0x015, .le 1), (0x020, .layerid), (0x021, .quadid), (0x022, .coreid),
   (0x023, .pcapcause), (0x030, .tlbase), (0x200, .tvec), (0x201, .tpc), (0x202, .tcause), (0x203, .tval), (0x204, .tstatus),
   (0x210, .xbound), (0x211, .mkeydom), (0x212, .mbdepth), (0x213, .dispth), (0x214, .fduty)]

theorem ctlReg_plain : ∀ e ∈ plainRegs, ctlReg (BitVec.ofNat 12 e.1).toNat = some e.2 ∧ e.2.access ≠ .go := by decide

/-- Register `i` of copy context `n` (R38). -/
theorem ctlReg_copy : ∀ n < 4, ∀ i < 15, ctlReg (BitVec.ofNat 12 (0x080 + 32 * n + i)).toNat = some (.copy n i) := by decide

/-- ctlrd gives xd what the register holds (R235). -/
theorem ctlrd_gives (s : State) (sb : Bool) (d : BitVec 5) {x : BitVec 12} {r : CtlReg} (hr : ctlReg x.toNat = some r)
    (hgo : r.access ≠ .go) : ∃ t : State, exec (.ctlrd sb d x) s = .next t ∧ givesX s t d (ctlRead s r) := by
  refine ⟨s.writesX d (ctlRead s r), ?_, State.writesX_gives ..⟩
  show execCtlrd sb d x s = _
  rw [execCtlrd, hr]
  cases r with
  | go n => exact absurd rfl hgo
  | _ => rfl

/-- Settles O25: the table of the statement is that of `plainRegs` with what each register reads as. -/
theorem controlRegisterReads : Obligations.ControlRegisterReads := by
  intro s sb d
  refine ⟨fun e he => ?_, fun n i hn hi => ?_, fun x htraps hx => ?_⟩
  · obtain ⟨⟨x, r⟩, hmem, rfl⟩ := List.mem_map.1 (show e ∈ plainRegs.map fun p => (p.1, ctlRead s p.2) from he)
    obtain ⟨hreg, hgo⟩ := ctlReg_plain _ hmem
    exact ctlrd_gives s sb d hreg hgo
  · obtain ⟨t, hexec, hgives⟩ := ctlrd_gives s sb d (ctlReg_copy n hn i hi) nofun
    refine ⟨t, hexec, ?_⟩
    interval_cases i <;> exact hgives
  · refine ⟨s.illegal (Instr.ctlrd sb d x).word, (Instr.ctlrd sb d x).word, ?_, rfl, State.illegal_enters htraps _⟩
    show execCtlrd sb d x s = _
    rw [execCtlrd, hx]

end Sys2Proof.Machine
end

section
/-! What a check of a global address leaves (R179, R261), and what a write to physical memory leaves of the context that makes it outside an
attempt (R186, R303, R307, R310). -/

namespace Sys2Proof.Machine

/-! ### A check changes what TLBs hold -/

theorem onlyTlb.refl (s : State) : onlyTlb s s := ⟨rfl, fun _ => rfl, fun _ => rfl⟩

theorem onlyTlb.trans {s t u : State} (h : onlyTlb s t) (g : onlyTlb t u) : onlyTlb s u := by
  obtain ⟨hst, hquad, hquarter⟩ := h
  obtain ⟨htu, gquad, gquarter⟩ := g
  refine ⟨?_, fun q => ?_, fun q => ?_⟩
  · rw [htu, hst]
  · rw [gquad q, hquad q]
  · rw [gquarter q, hquarter q]

theorem onlyTlb_onQuad (s : State) (k : Nat) {f : Quad → Quad} (hf : ∀ q, f q = { q with tlb := (f q).tlb, misses := (f q).misses }) :
    onlyTlb s (s.onQuad k f) := by
  refine ⟨rfl, fun q => ?_, fun _ => rfl⟩
  by_cases hq : q = k
  · subst hq
    rw [State.onQuad_quad_same]
    exact hf _
  · rw [State.onQuad_quad_other _ _ hq]

theorem onlyTlb_onQuarter (s : State) (k : Nat) {f : Quarter → Quarter} (hf : ∀ q, f q = { q with tlb := (f q).tlb, used := (f q).used }) :
    onlyTlb s (s.onQuarter k f) := by
  refine ⟨rfl, fun _ => rfl, fun q => ?_⟩
  by_cases hq : q = k
  · subst hq
    rw [State.onQuarter_quarter_same]
    exact hf _
  · rw [State.onQuarter_quarter_other _ _ hq]

theorem translate_onlyTlb (s : State) (quad pasid va : Nat) : onlyTlb s (translate s quad pasid va).2 := by
  unfold translate
  dsimp only
  repeat' split
  all_goals dsimp only
  · exact .refl s
  · exact onlyTlb_onQuad s quad fun _ => rfl
  · exact .refl s
  · exact .refl s
  · exact .trans (onlyTlb_onQuad s quad fun _ => rfl) (onlyTlb_onQuarter _ _ fun _ => rfl)

theorem translateFor_onlyTlb (s : State) (k : Nat) (a : Word) : onlyTlb s (s.translateFor k a).2 := by
  unfold State.translateFor
  dsimp only
  split
  · exact translate_onlyTlb ..
  · exact (onlyTlb_onQuad s _ fun _ => rfl).trans (translate_onlyTlb ..)

theorem globalCheck_onlyTlb (s : State) (k : Nat) (kind : Kind) (a : Word) (n : Nat) : onlyTlb s (globalCheck s k kind a n).2 := by
  have h := translateFor_onlyTlb s k a
  unfold globalCheck
  split
  · exact .refl s
  · split
    · rename_i e; rw [e] at h; exact h
    · rename_i e; rw [e] at h
      split <;> exact h

/-- A global check grants a reference to physical memory. -/
theorem globalCheck_isLocal {s s' : State} {k : Nat} {kind : Kind} {a : Word} {n : Nat} {r : Ref}
    (h : globalCheck s k kind a n = (.ok r, s')) : r.isLocal = false := by
  unfold globalCheck at h
  split at h
  · simp at h
  · split at h
    · simp at h
    · split at h
      · simp at h
      · simp only [consume] at h
        split at h
        · simp at h
        · simp only [Prod.mk.injEq, Chk.ok.injEq] at h
          rw [← h.1]; rfl

theorem onlyTlb.hostRefuses {s t : State} (h : onlyTlb s t) : t.hostRefuses = s.hostRefuses := by rw [h.1]
theorem onlyTlb.cur {s t : State} (h : onlyTlb s t) : t.cur = s.cur := by rw [h.1]
theorem onlyTlb.ctx {s t : State} (h : onlyTlb s t) (k : Nat) : t.ctx k = s.ctx k := by rw [h.1]; rfl
theorem onlyTlb.me {s t : State} (h : onlyTlb s t) : t.me = s.me := by rw [State.me, h.cur, h.ctx]; rfl
theorem onlyTlb.mem {s t : State} (h : onlyTlb s t) : t.mem = s.mem := by rw [h.1]
theorem onlyTlb.sameMem {s t : State} (h : onlyTlb s t) : sameMem s t :=
  ⟨fun a => by rw [h.1]; rfl, fun q a => by rw [h.2.1 q]⟩

theorem onlyTlb.served {s t : State} (h : onlyTlb s t) (cells : List (Ref × Byte)) : t.served cells = s.served cells := by
  unfold State.served
  rw [h.hostRefuses]

theorem onlyTlb.refuses {s t : State} (h : onlyTlb s t) (r : Ref) : t.refuses r = s.refuses r := by
  unfold State.refuses
  rw [h.hostRefuses]

/-! ### What a write leaves of the context that makes it -/

/-- Of a context nothing differs but that a wake is on its way to it, its jacks, and what its accesses have been answered. -/
def onlyHears (c e : Ctx) : Prop :=
  e = { c with outs := e.outs, wake := e.wake, jacks := e.jacks } ∧ e.outs.map (·.dsts) = c.outs.map (·.dsts)

theorem onlyHears.refl (c : Ctx) : onlyHears c c := ⟨rfl, rfl⟩

theorem onlyHears.trans {c e f : Ctx} (h : onlyHears c e) (g : onlyHears e f) : onlyHears c f :=
  ⟨by rw [g.1, h.1], g.2.trans h.2⟩

theorem onlyHears.attempt {c e : Ctx} (h : onlyHears c e) : e.attempt = c.attempt := by rw [h.1]

theorem onlyHears.awaits {c e : Ctx} (h : onlyHears c e) (d : Dst) : e.awaits d = c.awaits d := by
  have hany (l : List Out) : (l.any fun o => o.dsts.contains d) = (l.map (·.dsts)).any fun ds => ds.contains d := by
    rw [List.any_map]; rfl
  rw [Ctx.awaits, Ctx.awaits, hany, hany, h.2]

/-- What a write makes of a context that has no attempt open: no more than that it hears of it. -/
def keepsWriter (k : Nat) (s t : State) : Prop := (s.ctx k).attempt = none → onlyHears (s.ctx k) (t.ctx k)

theorem keepsWriter.refl (k : Nat) (s : State) : keepsWriter k s s := fun _ => .refl _

theorem keepsWriter_of_ctxs {k : Nat} {s t : State} (h : t.ctxs = s.ctxs) : keepsWriter k s t := fun _ => by
  rw [State.ctx, State.ctx, h]; exact .refl _

theorem keepsWriter.trans {k : Nat} {s t u : State} (h : keepsWriter k s t) (g : keepsWriter k t u) : keepsWriter k s u := fun ha =>
  (h ha).trans (g ((h ha).attempt.trans ha))

theorem keepsWriter.foldl {α : Type} {k : Nat} {f : State → α → State} (hf : ∀ s a, keepsWriter k s (f s a)) (l : List α) (s : State) :
    keepsWriter k s (l.foldl f s) := by
  induction l generalizing s with
  | nil => exact .refl k s
  | cons a t ih => exact (hf s a).trans (ih (f s a))

theorem Map.get_mapVals {α : Type} (f : Nat → α → α) (m : Map α) (d : α) (k : Nat) (h : f k d = d) :
    (m.mapVals f).get d k = f k (m.get d k) := by
  induction m with
  | nil => exact h.symm
  | cons e t ih =>
    obtain ⟨j, v⟩ := e
    show (if k = j then f j v else Map.get (Map.mapVals f t) d k) = f k (if k = j then v else Map.get t d k)
    split
    · rename_i hk; rw [hk]
    · exact ih

theorem ctx_of_mapVals {s t : State} {f : Nat → Ctx → Ctx} {k : Nat} (h : t.ctxs = s.ctxs.mapVals f) (hf : f k {} = {}) :
    t.ctx k = f k (s.ctx k) := by
  rw [State.ctx, h, Map.get_mapVals f _ _ _ hf]; rfl

theorem conflictAbort_keepsWriter (k : Nat) (s : State) (j : Nat) : keepsWriter k s (s.conflictAbort j) := by
  intro ha
  by_cases hj : k = j
  · subst hj
    have hsame : s.conflictAbort k = s := by simp only [State.conflictAbort, ha]
    rw [hsame]; exact .refl _
  · unfold State.conflictAbort
    dsimp only
    split
    · exact .refl _
    · split
      · exact .refl _
      · rw [State.onCtx_ctx_other _ _ hj]
        show onlyHears _ ((s.onCtx j fun c => { c with jacks := [] }).ctx k)
        rw [State.onCtx_ctx_other _ _ hj]; exact .refl _

theorem markUnprot_ctxs (s : State) (by_ : Option Nat) (line : Nat) :
    (s.markUnprot by_ line).ctxs = s.ctxs.mapVals fun k c => if some k = by_ then c else c.unprotect line := rfl

theorem markUnprot_keepsWriter (k : Nat) (s : State) (line : Nat) : keepsWriter k s (s.markUnprot (some k) line) := by
  intro _
  rw [ctx_of_mapVals (markUnprot_ctxs ..) (if_pos rfl), if_pos rfl]
  exact .refl _

theorem conflicts_keepsWriter (k : Nat) (s : State) (lines : List Nat) :
    keepsWriter k s (lines.foldl (fun s l => (s.conflictsWith (some k) l).foldl State.conflictAbort (s.markUnprot (some k) l)) s) :=
  .foldl (fun s l => (markUnprot_keepsWriter k s l).trans (.foldl (conflictAbort_keepsWriter k) _ _)) lines s

theorem spring_keepsWriter (k : Nat) (s : State) (by_ home : Option Nat) (line : Nat) : keepsWriter k s (s.spring by_ home line) := by
  unfold State.spring State.springIn
  dsimp only
  refine .trans ?_ (.foldl (fun s j => ?_) _ _)
  · refine .trans ?_ (.foldl (fun s j _ => ?_) _ _)
    · exact keepsWriter_of_ctxs rfl
    by_cases hj : k = j
    · subst hj
      rw [State.onCtx_ctx_same]; exact ⟨rfl, rfl⟩
    · rw [State.onCtx_ctx_other _ _ hj]; exact .refl _
  · split
    · exact conflictAbort_keepsWriter k s j
    · exact .refl k s

theorem Out.retest_dsts (lines : List Nat) (value : Nat → Word) (o : Out) : (o.retest lines value).dsts = o.dsts := by
  unfold Out.retest
  split
  · split <;> rfl
  · rfl

theorem retestWaits_ctxs (s : State) (lines : List Nat) : (s.retestWaits lines).ctxs = s.ctxs.mapVals fun _ c =>
    if c.halted then c else { c with outs := c.outs.map (Out.retest lines fun pa => word (s.gdword pa)) } := rfl

theorem retestWaits_keepsWriter (k : Nat) (s : State) (lines : List Nat) : keepsWriter k s (s.retestWaits lines) := by
  intro _
  rw [ctx_of_mapVals (retestWaits_ctxs ..) rfl]
  split
  · exact .refl _
  · refine ⟨rfl, ?_⟩
    simp only [List.map_map]
    exact List.map_congr_left fun o _ => Out.retest_dsts ..

theorem testTriggers_ctxs (s : State) (dword : Nat) : (s.testTriggers dword).ctxs = s.ctxs := by
  have hfire (s : State) (home : Nat) (t : Trigger) (v : Word) : (s.fireArmed home t v).ctxs = s.ctxs := by
    unfold State.fireArmed State.fire State.noteOrder
    split <;> rfl
  unfold State.testTriggers
  dsimp only
  generalize List.foldr insertSerial [] _ = l
  generalize word (s.gdword dword) = v
  induction l generalizing s with
  | nil => rfl
  | cons t l ih => rw [List.foldl_cons, ih, hfire]

theorem updateCopies_ctxs (s : State) (die : Nat) (cells : List (Nat × Byte)) : (s.updateCopies die cells).ctxs = s.ctxs := by
  unfold State.updateCopies
  split <;> rfl

theorem gwrite_keepsWriter (k : Nat) (s : State) (die : Nat) (home : Nat → Option Nat) (cells : List (Nat × Byte)) :
    keepsWriter k s (s.gwrite (some k) die home cells) := by
  unfold State.gwrite State.gwriteQuiet
  dsimp only
  refine .trans ?_ (.foldl (fun s w => keepsWriter_of_ctxs (testTriggers_ctxs s _)) _ _)
  refine .trans ?_ (retestWaits_keepsWriter k _ _)
  refine .trans ?_ (.foldl (fun s l => spring_keepsWriter k s _ _ l) _ _)
  refine .trans ?_ (conflicts_keepsWriter k _ _)
  exact keepsWriter_of_ctxs (updateCopies_ctxs ..)

section
variable {s : State} {cs : List (Ref × Byte)} (hcs : localCells cs = []) (k : Nat)
include hcs

/-- A write of cells of physical memory. -/
theorem writeCells_eq_gwrite : s.writeCells k cs =
    if (globalCells cs).isEmpty then s else s.gwrite (some k) (quadDie (quadOf k)) (homeIn? cs) (globalCells cs) := by
  unfold State.writeCells
  rw [hcs]; rfl

theorem writeCells_keepsWriter : keepsWriter k s (s.writeCells k cs) := by
  rw [writeCells_eq_gwrite hcs]
  split
  · exact .refl k s
  · exact gwrite_keepsWriter k s _ _ _

theorem writeCells_quad (q : Nat) : (s.writeCells k cs).quad q = s.quad q := by
  rw [writeCells_eq_gwrite hcs]
  split
  · rfl
  · exact State.gwrite_quad ..

theorem writeCells_cur : (s.writeCells k cs).cur = s.cur := by
  rw [writeCells_eq_gwrite hcs]
  split
  · rfl
  · rw [State.gwrite_besides]

theorem writeCells_gbyte (hwf : s.mem.wf = true) (a : Nat) :
    (s.writeCells k cs).gbyte a = (lastAt (globalCells cs) a).getD (s.gbyte a) := by
  rw [writeCells_eq_gwrite hcs]
  split
  · rename_i he
    rw [List.isEmpty_iff.1 he]; rfl
  · exact State.gwrite_get _ _ _ _ _ hwf a

/-- Cells of physical memory that are written after a check. -/
theorem onlyTlb.writesCells {s₀ : State} (h : onlyTlb s₀ s) : writesCells s₀ (s.writeCells k cs) k cs := by
  intro hwf
  have hmem (q a : Nat) : ((s.writeCells k cs).quad q).mem.get a = (s₀.quad q).mem.get a := by
    rw [writeCells_quad hcs, h.sameMem.2]
  refine ⟨fun a => ?_, fun a => by rw [hmem, hcs]; rfl, fun q _ a => hmem q a⟩
  rw [writeCells_gbyte hcs k (h.mem ▸ hwf.1), h.sameMem.1]

end

end Sys2Proof.Machine
end

section
/-! The write forms on control registers (R36, R38, R99, R101, R103, R235, R327): what each form stores, what it gives xd, and its traps. -/

namespace Sys2Proof.Machine

/-! ### How a write form ends -/

/-- What a write form gives its destination register, where it has one. -/
def Ctx.formDone (d : Option (BitVec 5)) (old : Word) (c : Ctx) : Ctx := match d with | none => c | some d => c.setX d old

/-- A write form ends: xd is given the old value, and the context goes on. -/
def State.formStep (s : State) (d : Option (BitVec 5)) (old : Word) : State := s.step1 (Ctx.formDone d old)

/-- The registers after a form: none changes without a destination, xd is given the old value with one. -/
def formGives (c e : Ctx) : Option (BitVec 5) → Word → Prop
  | none, _ => sameRegs c e
  | some d, old => xGiven c e d old

theorem formDone_frame (c : Ctx) (d : Option (BitVec 5)) (old : Word) : c.formDone d old =
    { c with regs := (c.formDone d old).regs, later := (c.formDone d old).later, free := (c.formDone d old).free } := by
  cases d with
  | none => rfl
  | some d => exact Ctx.write_frame c (.x d old)

/-- Two contexts with the same registers, and results outstanding for the same ones. -/
def sameFile (c e : Ctx) : Prop := e.regs = c.regs ∧ e.later = c.later ∧ e.free = c.free ∧ ∀ d, e.awaits d = c.awaits d

theorem onlyHears.sameFile {c e : Ctx} (h : onlyHears c e) : sameFile c e :=
  ⟨by rw [h.1], by rw [h.1], by rw [h.1], h.awaits⟩

theorem formGives_of_sameFile {c e : Ctx} (h : sameFile c e) (d : Option (BitVec 5)) (old : Word) :
    formGives c (e.formDone d old).advance d old := by
  obtain ⟨hregs, hlater, hfree, hawaits⟩ := h
  cases d with
  | none => exact ⟨(Ctx.advance_regs _).trans hregs, (Ctx.advance_later _).trans hlater, (Ctx.advance_free _).trans hfree⟩
  | some d =>
    have hx (r : BitVec 5) : e.getX r = c.getX r := by rw [Ctx.getX, Ctx.getX, hregs]
    have hv (r : BitVec 5) : e.getV r = c.getV r := by rw [Ctx.getV, Ctx.getV, hregs]
    have hk (r : BitVec 3) : e.getK r = c.getK r := by rw [Ctx.getK, Ctx.getK, hregs]
    simpa only [formGives, Ctx.formDone, xGiven, Ctx.advance_getX, Ctx.advance_getV, Ctx.advance_getK, Ctx.advance_later, hx, hv, hk,
      hlater, hawaits] using Ctx.setX_given e d old

section
variable (s : State) (d : Option (BitVec 5)) (old : Word)

theorem formStep_me : (s.formStep d old).me = (s.me.formDone d old).advance := State.onMe_me _ _

theorem formStep_onlyRegs : onlyRegs s.me (s.formStep d old).me := by
  rw [formStep_me, onlyRegs, Ctx.advance_frame, formDone_frame]

theorem formStep_goesOn : goesOn s.me (s.formStep d old).me := by
  rw [formStep_me, formDone_frame]
  exact fun h0 h1 => Ctx.advance_pc _ h0 h1

end

/-! ### The three forms -/

/-- What the three write forms on the register of index `x` do, which holds `old`: each leaves of its value what `what` says. -/
def ctlForms (s : State) (sb : Bool) (d a : BitVec 5) (x : BitVec 12) (old : Word) (ok : Word → Prop) (what : State → Word → Prop) : Prop :=
  let c := s.me
  let xa := c.getX a
  (ok xa → ∃ t : State, exec (.ctlwr sb a x) s = .next t ∧ what t xa ∧ sameRegs c t.me) ∧
  (ok (old ||| xa) → ∃ t : State, exec (.ctlset sb d a x) s = .next t ∧ what t (old ||| xa) ∧ xGiven c t.me d old) ∧
  (ok (old &&& ~~~xa) → ∃ t : State, exec (.ctlclr sb d a x) s = .next t ∧ what t (old &&& ~~~xa) ∧ xGiven c t.me d old)

/-- A write form that its context may use where it stands stores its value. -/
theorem ctlForm_stores {s : State} {x : BitVec 12} {r : CtlReg} (hr : ctlReg x.toNat = some r) (hw : r.writable s.me.ctl.sys = true)
    (ha : r.wide = true → s.me.attempt = none) (w : Word32) (d : Option (BitVec 5)) (f : Word → Word) :
    ctlForm w x d f s = .next (ctlStore s r (f (ctlRead s r)) fun t => t.formStep d (ctlRead s r)) := by
  have hdone : (fun t : State => t.step1 fun c => match d with | none => c | some d => c.setX d (ctlRead s r)) =
      fun t => t.formStep d (ctlRead s r) := by cases d <;> rfl
  unfold ctlForm
  rw [hr]
  simp only [hw, Bool.not_true, Bool.false_eq_true, if_false, State.unlessAttempt]
  rw [← hdone]
  split
  · rename_i hwide; rw [ha hwide]; rfl
  · rfl

theorem ctlForm_illegal {s : State} {x : BitVec 12} (h : ctlReg x.toNat = none ∨ ∃ r, ctlReg x.toNat = some r ∧ r.writable s.me.ctl.sys = false)
    (w : Word32) (d : Option (BitVec 5)) (f : Word → Word) : ctlForm w x d f s = .next (s.illegal w) := by
  unfold ctlForm
  obtain h | ⟨r, h, hw⟩ := h
  · rw [h]
  · rw [h]
    simp only [hw, Bool.not_false, if_true]

section
variable (s : State) (sb : Bool) (d a : BitVec 5) (x : BitVec 12)

theorem exec_ctlwr : exec (.ctlwr sb a x) s = ctlForm (Instr.ctlwr sb a x).word x none (fun _ => s.me.getX a) s := rfl
theorem exec_ctlset : exec (.ctlset sb d a x) s = ctlForm (Instr.ctlset sb d a x).word x (some d) (fun old => old ||| s.me.getX a) s := rfl
theorem exec_ctlclr : exec (.ctlclr sb d a x) s = ctlForm (Instr.ctlclr sb d a x).word x (some d) (fun old => old &&& ~~~s.me.getX a) s := rfl

end

/-- The forms on a register are what its store does of each value that is `ok`. -/
theorem ctlForms_of_store {s : State} {x : BitVec 12} {r : CtlReg} (hr : ctlReg x.toNat = some r) (hw : r.writable s.me.ctl.sys = true)
    (ha : r.wide = true → s.me.attempt = none) {ok : Word → Prop} {what : State → Word → Prop}
    (h : ∀ v d, ok v → what (ctlStore s r v fun t => t.formStep d (ctlRead s r)) v ∧
      formGives s.me (ctlStore s r v fun t => t.formStep d (ctlRead s r)).me d (ctlRead s r))
    (sb : Bool) (d a : BitVec 5) : ctlForms s sb d a x (ctlRead s r) ok what := by
  refine ⟨fun hok => ⟨_, (exec_ctlwr s sb a x).trans (ctlForm_stores hr hw ha ..), h _ none hok⟩,
    fun hok => ⟨_, (exec_ctlset s sb d a x).trans (ctlForm_stores hr hw ha ..), h _ (some d) hok⟩,
    fun hok => ⟨_, (exec_ctlclr s sb d a x).trans (ctlForm_stores hr hw ha ..), h _ (some d) hok⟩⟩

/-- The forms on a register that refuses some values: an access fault with the value as TVAL (R103, R327). -/
def ctlRefuses (s : State) (sb : Bool) (d a : BitVec 5) (x : BitVec 12) (old : Word) (bad : Word → Prop) : Prop :=
  let xa := s.me.getX a
  takesTraps s.me →
  (bad xa → ∃ t : State, exec (.ctlwr sb a x) s = .next t ∧ entersTrap s t 0x03 xa) ∧
  (bad (old ||| xa) → ∃ t : State, exec (.ctlset sb d a x) s = .next t ∧ entersTrap s t 0x03 (old ||| xa)) ∧
  (bad (old &&& ~~~xa) → ∃ t : State, exec (.ctlclr sb d a x) s = .next t ∧ entersTrap s t 0x03 (old &&& ~~~xa))

theorem ctlRefuses_of_store {s : State} {x : BitVec 12} {r : CtlReg} (hr : ctlReg x.toNat = some r) (hw : r.writable s.me.ctl.sys = true)
    (ha : r.wide = true → s.me.attempt = none) {bad : Word → Prop} (h : ∀ v done, bad v → ctlStore s r v done = s.trap cAccess v)
    (sb : Bool) (d a : BitVec 5) : ctlRefuses s sb d a x (ctlRead s r) bad := by
  intro htraps
  have htrap (v : Word) (done : State → State) (hv : bad v) : entersTrap s (ctlStore s r v done) 0x03 v := by
    rw [h v done hv]
    exact State.trap_enters s cAccess v rfl htraps
  exact ⟨fun hv => ⟨_, (exec_ctlwr s sb a x).trans (ctlForm_stores hr hw ha ..), htrap _ _ hv⟩,
    fun hv => ⟨_, (exec_ctlset s sb d a x).trans (ctlForm_stores hr hw ha ..), htrap _ _ hv⟩,
    fun hv => ⟨_, (exec_ctlclr s sb d a x).trans (ctlForm_stores hr hw ha ..), htrap _ _ hv⟩⟩

/-! ### Registers of the context -/

theorem formStep_onMe_onlyMe (s : State) (g : Ctx → Ctx) (d : Option (BitVec 5)) (old : Word) : onlyMe s ((s.onMe g).formStep d old) := by
  refine ⟨rfl, fun k hk => ?_, fun _ => rfl, fun _ _ => rfl⟩
  exact (State.onMe_ctx_other (s.onMe g) _ (show k ≠ (s.onMe g).cur from hk)).trans (State.onMe_ctx_other s g hk)

/-- A register of the control file: it takes what it stores of the value, and of the context nothing else changes. -/
theorem ctlForms_ctl {s : State} {x : BitVec 12} {r : CtlReg} (hr : ctlReg x.toNat = some r) (hw : r.writable s.me.ctl.sys = true)
    (hwide : r.wide = false) {set : Ctl → Word → Ctl} {kept : Word}
    (h : ∀ v done, ctlStore s r v done = done (s.onMe fun c => { c with ctl := set c.ctl (v &&& kept) })) (sb : Bool) (d a : BitVec 5) :
    ctlForms s sb d a x (ctlRead s r) (fun _ => True) fun t v =>
      onlyMe s t ∧ t.me.ctl = set s.me.ctl (v &&& kept) ∧ goesOn s.me t.me ∧ t.me.outs = s.me.outs := by
  refine ctlForms_of_store hr hw (fun hw => absurd hw (by rw [hwide]; decide)) (fun v dst _ => ?_) sb d a
  rw [h]
  have hme := State.onMe_me s fun c => { c with ctl := set c.ctl (v &&& kept) }
  have hregs := formStep_onlyRegs (s.onMe fun c => { c with ctl := set c.ctl (v &&& kept) }) dst (ctlRead s r)
  have hgoes := formStep_goesOn (s.onMe fun c => { c with ctl := set c.ctl (v &&& kept) }) dst (ctlRead s r)
  rw [hme] at hregs hgoes
  refine ⟨⟨formStep_onMe_onlyMe .., by rw [hregs], hgoes, by rw [hregs]⟩, ?_⟩
  rw [formStep_me, hme]
  exact formGives_of_sameFile ⟨rfl, rfl, rfl, fun _ => rfl⟩ ..

/-- A loop register: one level or the other is rewritten, and the context goes on to the next word where no loop ends at it (R99, R101). -/
theorem ctlForms_loop {s : State} {x : BitVec 12} {r : CtlReg} (hr : ctlReg x.toNat = some r) (hw : r.writable s.me.ctl.sys = true)
    (hwide : r.wide = false) {l0 l1 : Ctx → Word → LoopLevel}
    (h : ∀ v done, ctlStore s r v done = done (s.onMe fun c => { c with lp0 := l0 c v, lp1 := l1 c v }))
    (h0 : ∀ v, (l0 s.me v).atEnd s.me.pc = false) (h1 : ∀ v, (l1 s.me v).atEnd s.me.pc = false) (sb : Bool) (d a : BitVec 5) :
    ctlForms s sb d a x (ctlRead s r) (fun _ => True) fun t v =>
      onlyMe s t ∧ onlyRegs s.me t.me ∧ t.me.pc = s.me.pc + 4 ∧ t.me.lp0 = l0 s.me v ∧ t.me.lp1 = l1 s.me v := by
  refine ctlForms_of_store hr hw (fun hw => absurd hw (by rw [hwide]; decide)) (fun v dst _ => ?_) sb d a
  rw [h]
  have hme := State.onMe_me s fun c => { c with lp0 := l0 c v, lp1 := l1 c v }
  have hregs := formStep_onlyRegs (s.onMe fun c => { c with lp0 := l0 c v, lp1 := l1 c v }) dst (ctlRead s r)
  have hgoes := formStep_goesOn (s.onMe fun c => { c with lp0 := l0 c v, lp1 := l1 c v }) dst (ctlRead s r)
  rw [hme] at hregs hgoes
  refine ⟨⟨formStep_onMe_onlyMe .., by rw [onlyRegs, hregs], hgoes (h0 v) (h1 v)⟩, ?_⟩
  rw [formStep_me, hme]
  exact formGives_of_sameFile ⟨rfl, rfl, rfl, fun _ => rfl⟩ ..

/-! ### Registers of the quad and of the core -/

/-- A value is written to the quad of the context whose turn it is, which becomes `f v`, and the context goes on. -/
def quadWritten (s : State) (f : Word → Quad) (t : State) (v : Word) : Prop :=
  t = { s with ctxs := t.ctxs, quads := t.quads } ∧ t.quad s.myQuad = f v ∧ (∀ j, j ≠ s.myQuad → t.quad j = s.quad j) ∧
    (∀ k, k ≠ s.cur → t.ctx k = s.ctx k) ∧ onlyRegs s.me t.me ∧ goesOn s.me t.me

/-- The same for its core. -/
def coreWritten (s : State) (f : Word → Core) (t : State) (v : Word) : Prop :=
  t = { s with ctxs := t.ctxs, cores := t.cores } ∧ t.core s.myCore = f v ∧ (∀ j, j ≠ s.myCore → t.core j = s.core j) ∧
    (∀ k, k ≠ s.cur → t.ctx k = s.ctx k) ∧ onlyRegs s.me t.me ∧ goesOn s.me t.me

section
variable {s : State} {x : BitVec 12} {r : CtlReg} (hr : ctlReg x.toNat = some r) (hw : r.writable s.me.ctl.sys = true)
  (ha : s.me.attempt = none)
include hr hw ha

theorem ctlForms_quad {ok : Word → Prop} {f : Word → Quad → Quad}
    (h : ∀ v done, ok v → ctlStore s r v done = done (s.onQuad s.myQuad (f v))) (sb : Bool) (d a : BitVec 5) :
    ctlForms s sb d a x (ctlRead s r) ok (quadWritten s fun v => f v (s.quad s.myQuad)) := by
  refine ctlForms_of_store hr hw (fun _ => ha) (fun v dst hv => ?_) sb d a
  rw [h v _ hv]
  refine ⟨⟨rfl, State.onQuad_quad_same .., fun j hj => State.onQuad_quad_other _ _ hj, fun k hk => State.onMe_ctx_other _ _ hk,
    formStep_onlyRegs .., formStep_goesOn (s.onQuad s.myQuad (f v)) dst (ctlRead s r)⟩, ?_⟩
  rw [formStep_me]
  exact formGives_of_sameFile ⟨rfl, rfl, rfl, fun _ => rfl⟩ ..

theorem ctlForms_core {f : Word → Core → Core} (h : ∀ v done, ctlStore s r v done = done (s.onCore s.myCore (f v)))
    (sb : Bool) (d a : BitVec 5) :
    ctlForms s sb d a x (ctlRead s r) (fun _ => True) (coreWritten s fun v => f v (s.core s.myCore)) := by
  refine ctlForms_of_store hr hw (fun _ => ha) (fun v dst _ => ?_) sb d a
  rw [h]
  refine ⟨⟨rfl, State.onCore_core_same .., fun j hj => State.onCore_core_other _ _ hj, fun k hk => State.onMe_ctx_other _ _ hk,
    formStep_onlyRegs .., formStep_goesOn (s.onCore s.myCore (f v)) dst (ctlRead s r)⟩, ?_⟩
  rw [formStep_me]
  exact formGives_of_sameFile ⟨rfl, rfl, rfl, fun _ => rfl⟩ ..

end

/-- XBOUND refuses what is no multiple of 4 KiB up to the layer's capacity (R103). -/
theorem xboundBad_iff (layer : Nat) (v : Word) : xboundBad layer v = true ↔ ¬ (v.toNat % 2 ^ 12 = 0 ∧ v.toNat ≤ capacity layer) := by
  have hcap : capacity layer ≤ 0x280000 := by unfold capacity; split <;> decide
  have hv := v.isLt
  simp only [xboundBad, fld, Nat.shiftRight_eq_div_pow, Bool.or_eq_true, bne_iff_ne, ne_eq, decide_eq_true_eq]
  omega

/-- TLBASE refuses what is no 128-byte-aligned address of global memory, 0 apart (R327). -/
theorem tlbaseBad_iff (v : Word) :
    tlbaseBad v = true ↔ ¬ (v.toNat < 2 ^ 57 ∧ v.toNat % 2 ^ 7 = 0 ∧ (v = 0 ∨ 0x400000 ≤ v.toNat)) := by
  have hv := v.isLt
  have hend : windowEnd = 0x400000 := rfl
  have h0 : v = 0 ↔ v.toNat = 0 := by rw [← BitVec.toNat_inj]; rfl
  simp only [tlbaseBad, fld, hend, Nat.shiftRight_eq_div_pow, Bool.or_eq_true, Bool.and_eq_true, bne_iff_ne, ne_eq, decide_eq_true_eq, h0]
  omega

/-- The stored clamp of DISPTH and MBDEPTH (R210, R225). -/
theorem clamped_eq (v : Word) {most : Nat} (h : 0 < most) :
    clamped v most = if v.toNat % 32 = 0 then 1 else min most (v.toNat % 32) := by
  have hf : fld v 0 5 = v.toNat % 32 := rfl
  rw [clamped, hf]
  split <;> omega

theorem ctlStore_xbound {s : State} {v : Word} (h : v.toNat % 2 ^ 12 = 0 ∧ v.toNat ≤ capacity s.myLayer) (done : State → State) :
    ctlStore s .xbound v done = done (s.onQuad s.myQuad fun q => { q with xbound := v }) :=
  if_neg fun hb => (xboundBad_iff _ v).1 hb h

theorem ctlStore_xbound_bad {s : State} {v : Word} (h : ¬ (v.toNat % 2 ^ 12 = 0 ∧ v.toNat ≤ capacity s.myLayer)) (done : State → State) :
    ctlStore s .xbound v done = s.trap cAccess v :=
  if_pos ((xboundBad_iff _ v).2 h)

theorem ctlStore_tlbase {s : State} {v : Word} (h : v.toNat < 2 ^ 57 ∧ v.toNat % 2 ^ 7 = 0 ∧ (v = 0 ∨ 0x400000 ≤ v.toNat))
    (done : State → State) : ctlStore s .tlbase v done = tlbaseWrite s v done :=
  if_neg fun hb => (tlbaseBad_iff v).1 hb h

theorem ctlStore_tlbase_bad {s : State} {v : Word} (h : ¬ (v.toNat < 2 ^ 57 ∧ v.toNat % 2 ^ 7 = 0 ∧ (v = 0 ∨ 0x400000 ≤ v.toNat)))
    (done : State → State) : ctlStore s .tlbase v done = s.trap cAccess v :=
  if_pos ((tlbaseBad_iff v).2 h)

/-! ### TLBASE: the words of the timelines (R327) -/

/-- The cells of the five words of a quad's timelines. -/
def Quad.doneCells (q : Quad) (r : Ref) : List (Ref × Byte) := q.dones.zipIdx.flatMap fun e => cellsOf (r.plus (8 * e.2)) 8 e.1

theorem localCells_flatMap {α : Type} (f : α → List (Ref × Byte)) (l : List α) (h : ∀ x, localCells (f x) = []) :
    localCells (l.flatMap f) = [] := by
  unfold localCells at h ⊢
  rw [List.filterMap_flatMap, List.flatMap_eq_nil_iff]
  exact fun x _ => h x

theorem localCells_doneCells (q : Quad) {r : Ref} (hr : r.isLocal = false) : localCells (q.doneCells r) = [] :=
  localCells_flatMap _ _ fun e => by
    rw [cellsOf_eq_cellsAt]
    exact localCells_cellsAt (r := r.plus (8 * e.2)) hr _ _

section
variable (q : Quad) (m n : Nat)

theorem Quad.markTlf_frame : q.markTlf m = { q with copy := (q.markTlf m).copy, tstatus := (q.markTlf m).tstatus } := by
  unfold Quad.markTlf
  split <;> rfl

theorem Quad.markTlf_status (hn : n ≠ 4) :
    ((q.markTlf m).copyCtx n).status = if n = m then (q.copyCtx n).status ||| 0x100 else (q.copyCtx n).status := by
  unfold Quad.markTlf
  by_cases hm : m = 4
  · rw [if_pos hm, if_neg (hm ▸ hn)]; rfl
  · rw [if_neg hm]
    by_cases h : n = m
    · subst h
      rw [if_pos rfl]
      show (Map.get (Map.put q.copy n _) {} n).status = _
      rw [Map.get_put_same]; rfl
    · rw [if_neg h]
      show (Map.get (Map.put q.copy m _) {} n).status = _
      rw [Map.get_put_other _ _ _ h]; rfl

theorem Quad.markTlf_tstatus : (q.markTlf m).tstatus = if 4 = m then q.tstatus ||| 0x100 else q.tstatus := by
  unfold Quad.markTlf
  by_cases hm : m = 4
  · rw [if_pos hm, if_pos hm.symm]; rfl
  · rw [if_neg hm, if_neg (Ne.symm hm)]

end

theorem or_or_self (a b : Word) : (a ||| b) ||| b = a ||| b := by rw [BitVec.or_assoc, BitVec.or_self]

section
variable (l : List Nat) (q : Quad)

theorem Quad.marks_frame : l.foldl Quad.markTlf q =
    { q with copy := (l.foldl Quad.markTlf q).copy, tstatus := (l.foldl Quad.markTlf q).tstatus } := by
  induction l generalizing q with
  | nil => rfl
  | cons m l ih => rw [List.foldl_cons, ih, q.markTlf_frame]

theorem Quad.marks_status {n : Nat} (hn : n ≠ 4) : ((l.foldl Quad.markTlf q).copyCtx n).status =
    if n ∈ l then (q.copyCtx n).status ||| 0x100 else (q.copyCtx n).status := by
  induction l generalizing q with
  | nil => rfl
  | cons m l ih =>
    rw [List.foldl_cons, ih, q.markTlf_status m n hn]
    by_cases h : n = m <;> by_cases hl : n ∈ l <;> simp [h, hl, or_or_self]

theorem Quad.marks_tstatus : (l.foldl Quad.markTlf q).tstatus = if 4 ∈ l then q.tstatus ||| 0x100 else q.tstatus := by
  induction l generalizing q with
  | nil => rfl
  | cons m l ih =>
    rw [List.foldl_cons, ih, q.markTlf_tstatus m]
    by_cases h : 4 = m <;> by_cases hl : 4 ∈ l <;> simp [h, hl, or_or_self]

end

/-- The quad after TLBASE takes an address: TLF is set of the timelines whose words are refused. -/
def Quad.takesTlbase (q : Quad) (v : Word) (pasid : Nat) (refused : Nat → Bool) : Quad :=
  ((List.range 5).filter refused).foldl Quad.markTlf { q with tlbase := v, tlpasid := pasid }

section
variable (q : Quad) (v : Word) (pasid : Nat) (refused : Nat → Bool)

theorem Quad.takesTlbase_frame : q.takesTlbase v pasid refused =
    { q with tlbase := v, tlpasid := pasid, copy := (q.takesTlbase v pasid refused).copy
             tstatus := (q.takesTlbase v pasid refused).tstatus } := Quad.marks_frame ..

theorem Quad.takesTlbase_mem : (q.takesTlbase v pasid refused).mem = q.mem := by rw [takesTlbase_frame]
theorem Quad.takesTlbase_tlbase : (q.takesTlbase v pasid refused).tlbase = v := by rw [takesTlbase_frame]
theorem Quad.takesTlbase_tlpasid : (q.takesTlbase v pasid refused).tlpasid = pasid := by rw [takesTlbase_frame]
theorem Quad.takesTlbase_xbound : (q.takesTlbase v pasid refused).xbound = q.xbound := by rw [takesTlbase_frame]

theorem Quad.takesTlbase_status {n : Nat} (hn : n < 4) : ((q.takesTlbase v pasid refused).copyCtx n).status =
    if refused n then (q.copyCtx n).status ||| 0x100 else (q.copyCtx n).status := by
  have hmem : n ∈ (List.range 5).filter refused ↔ refused n = true := by simp; omega
  rw [Quad.takesTlbase, Quad.marks_status _ _ (by omega)]
  simp only [hmem]
  rfl

theorem Quad.takesTlbase_tstatus : (q.takesTlbase v pasid refused).tstatus =
    if refused 4 then q.tstatus ||| 0x100 else q.tstatus := by
  have hmem : 4 ∈ (List.range 5).filter refused ↔ refused 4 = true := by simp
  rw [Quad.takesTlbase, Quad.marks_tstatus]
  simp only [hmem]

end

/-- No engine of the quad has work. -/
def Quad.enginesIdle (q : Quad) : Prop := (∀ e ∈ q.copy, e.2.queue = []) ∧ q.tq = []

theorem Quad.enginesIdle.tlbaseReady {q : Quad} (h : q.enginesIdle) : (q.copy.any (fun e => !e.2.queue.isEmpty) || !q.tq.isEmpty) = false := by
  obtain ⟨hcopy, htq⟩ := h
  simp only [htq, List.isEmpty_nil, Bool.not_true, Bool.or_false, List.any_eq_false]
  exact fun e he => by simp [hcopy e he]

section
variable {s : State} (hidle : (s.quad s.myQuad).enginesIdle)
include hidle

theorem tlbaseWrite_zero (done : State → State) :
    tlbaseWrite s 0 done = done (s.onQuad s.myQuad fun q => { q with tlbase := 0 }) := by
  simp only [tlbaseWrite, hidle.tlbaseReady, Bool.false_eq_true, if_false, if_true]

theorem tlbaseWrite_taken {s' : State} {v : Word} {r : Ref} (hv : v ≠ 0) (hcheck : globalCheck s s.cur .store v 0 = (.ok r, s'))
    (hmay : s'.mayWriteCells s.cur ((s.quad s.myQuad).doneCells r) = true) (done : State → State) :
    tlbaseWrite s v done = done ((s'.writeCells s.cur (s'.served ((s.quad s.myQuad).doneCells r))).onQuad s.myQuad fun q =>
      q.takesTlbase v s.me.ctl.pasid fun n => s'.refuses (r.plus (8 * n))) := by
  have htlb : onlyTlb s s' := by have h := globalCheck_onlyTlb s s.cur .store v 0; rwa [hcheck] at h
  unfold Quad.doneCells at hmay
  simp only [tlbaseWrite, hidle.tlbaseReady, Bool.false_eq_true, if_false, hv, hcheck, htlb.cur, htlb.me, hmay, Bool.not_true]
  rfl

end

/-- TLBASE takes the address `v`: the timelines' words get their values, a word that the host refuses sets TLF in its timeline's status,
and the context goes on. -/
def tlbaseTaken (s : State) (t : State) (v : Word) : Prop :=
  (∃ r s', globalCheck s s.cur .store v 0 = (.ok r, s') ∧ writesCells s t s.cur (s.served ((s.quad s.myQuad).doneCells r)) ∧
    (∀ n < 4, ((t.quad s.myQuad).copyCtx n).status = if s.refuses (r.plus (8 * n)) then ((s.quad s.myQuad).copyCtx n).status ||| 0x100
      else ((s.quad s.myQuad).copyCtx n).status) ∧
    (t.quad s.myQuad).tstatus = if s.refuses (r.plus (8 * 4)) then (s.quad s.myQuad).tstatus ||| 0x100 else (s.quad s.myQuad).tstatus) ∧
  (t.quad s.myQuad).tlbase = v ∧ (t.quad s.myQuad).tlpasid = s.me.ctl.pasid ∧ (t.quad s.myQuad).xbound = (s.quad s.myQuad).xbound ∧
  goesOn s.me t.me

/-- TLBASE may take the address `v`: it is that of the five words, translates as a store, and nothing stands in the way of writing them. -/
def tlbaseTakes (s : State) (v : Word) : Prop :=
  v ≠ 0 ∧ (v.toNat < 2 ^ 57 ∧ v.toNat % 2 ^ 7 = 0 ∧ (v = 0 ∨ 0x400000 ≤ v.toNat)) ∧
    ∃ r s', globalCheck s s.cur .store v 0 = (.ok r, s') ∧ s'.mayWriteCells s.cur ((s.quad s.myQuad).doneCells r) = true

/-- TLBASE takes an address once the engines have no work, and no attempt is open. -/
theorem ctlStore_tlbase_takes {s : State} (hidle : (s.quad s.myQuad).enginesIdle) (ha : s.me.attempt = none) {v : Word}
    (htakes : tlbaseTakes s v) (d : Option (BitVec 5)) (old : Word) :
    tlbaseTaken s (ctlStore s .tlbase v fun t => t.formStep d old) v ∧
      formGives s.me (ctlStore s .tlbase v fun t => t.formStep d old).me d old := by
  obtain ⟨hv, hok, r, s', hcheck, hmay⟩ := htakes
  have htlb : onlyTlb s s' := by have h := globalCheck_onlyTlb s s.cur .store v 0; rwa [hcheck] at h
  have hcells : localCells (s'.served ((s.quad s.myQuad).doneCells r)) = [] :=
    localCells_served s' (localCells_doneCells _ (globalCheck_isLocal hcheck))
  have hcs : localCells (s.served ((s.quad s.myQuad).doneCells r)) = [] := htlb.served _ ▸ hcells
  rw [ctlStore_tlbase hok, tlbaseWrite_taken hidle hv hcheck hmay, htlb.served]
  simp only [htlb.refuses]
  generalize hu : s'.writeCells s.cur (s.served ((s.quad s.myQuad).doneCells r)) = u
  generalize hg : (fun q : Quad => q.takesTlbase v s.me.ctl.pasid fun n => s.refuses (r.plus (8 * n))) = g
  have hcur : u.cur = s.cur := hu ▸ (writeCells_cur hcs s.cur).trans htlb.cur
  have hears : onlyHears s.me u.me := by
    have h := writeCells_keepsWriter hcs s.cur (s := s')
    rw [keepsWriter, htlb.ctx, hu] at h
    rw [State.me, State.me, hcur]
    exact h ha
  have hwrites : writesCells s u s.cur (s.served ((s.quad s.myQuad).doneCells r)) := hu ▸ htlb.writesCells hcs s.cur
  have hmem : sameMem u ((u.onQuad s.myQuad g).formStep d old) := by
    refine ⟨fun _ => rfl, fun q a => ?_⟩
    show ((u.onQuad s.myQuad g).quad q).mem.get a = _
    by_cases hq : q = s.myQuad
    · rw [hq, State.onQuad_quad_same, ← hg]
      exact congrArg (·.get a) (Quad.takesTlbase_mem ..)
    · rw [State.onQuad_quad_other _ _ hq]
  have hquad : ((u.onQuad s.myQuad g).formStep d old).quad s.myQuad = g (s'.quad s.myQuad) := by
    show (u.onQuad s.myQuad g).quad s.myQuad = _
    rw [State.onQuad_quad_same, ← hu, writeCells_quad hcs]
  rw [htlb.2.1 s.myQuad] at hquad
  refine ⟨⟨⟨r, s', hcheck, hwrites.sameMem hmem, fun n hn => ?_, ?_⟩, ?_, ?_, ?_, ?_⟩, ?_⟩
  · rw [hquad, ← hg]; exact Quad.takesTlbase_status _ _ _ _ hn
  · rw [hquad, ← hg]; exact Quad.takesTlbase_tstatus ..
  · rw [hquad, ← hg]; exact Quad.takesTlbase_tlbase ..
  · rw [hquad, ← hg]; exact Quad.takesTlbase_tlpasid ..
  · rw [hquad, ← hg]; exact Quad.takesTlbase_xbound ..
  · have h := formStep_goesOn (u.onQuad s.myQuad g) d old
    rwa [State.onQuad_me, hears.1] at h
  · rw [formStep_me, State.onQuad_me]
    exact formGives_of_sameFile hears.sameFile d old

/-! ### A copy context's registers, illegal indexes, and which registers may be written -/

/-- The bits of a copy context's register that are its own (R318, R319). -/
def copyOwnBits (i : Nat) : Word :=
  if i < 2 then BitVec.ofNat 64 (2 ^ 57 - 1) else if i < 14 then BitVec.ofNat 64 (2 ^ 32 - 1) else 0x7FFFF7F

/-- An entry of a list after one is replaced. -/
theorem getD_set {l : List Word} (m k : Nat) (w : Word) (hm : m < l.length) :
    (l.set m w).getD k 0 = if k = m then w else l.getD k 0 := by
  by_cases h : k = m
  · subst h; simp [hm]
  · simp [List.getD, h, List.getElem?_set_ne (Ne.symm h)]

/-- What a register of the set reads after a write to one: its own bits of the value where it is the same, what it held where not. Split by the
part of the set that the written offset lies in. -/
theorem CopyRegs.get_set (r : CopyRegs) (v : Word) {i j : Nat} (hext : r.ext.length = 4) (hsstride : r.sstride.length = 4)
    (hdstride : r.dstride.length = 4) (hi : i < 15) (hj : j < 15) :
    (r.set i v).get j = if j = i then v &&& copyOwnBits i else r.get j := by
  have hlong : fieldMask 57 0 = BitVec.ofNat 64 (2 ^ 57 - 1) := rfl
  have hhalf : fieldMask 32 0 = BitVec.ofNat 64 (2 ^ 32 - 1) := rfl
  unfold CopyRegs.set copyOwnBits
  rw [hlong, hhalf]
  dsimp only
  split_ifs <;> unfold CopyRegs.get <;> grind [getD_set]

/-- A write form on an index that its context may not write is an illegal instruction (R36). -/
theorem execs_illegal {s : State} (h : takesTraps s.me) {x : BitVec 12}
    (hx : ctlReg x.toNat = none ∨ ∃ r, ctlReg x.toNat = some r ∧ r.writable s.me.ctl.sys = false) {i : Instr} {w : Word32}
    (he : encode i = some w) {d : Option (BitVec 5)} {f : Word → Word} (hi : exec i s = ctlForm w x d f s) :
    ∃ (t : State) (w : Word32), exec i s = .next t ∧ encode i = some w ∧ entersTrap s t 0x01 (w.setWidth 64) :=
  ⟨_, w, hi.trans (ctlForm_illegal hx ..), he, State.illegal_enters h w⟩

theorem writable_false_iff (r : CtlReg) : r.writable false = false ↔
    r ∈ [.layerid, .quadid, .coreid, .pcapcause, .tcause, .tval, .fduty, .tlbase, .tstatus, .mkeydom, .mbdepth, .dispth] ∨
      ∃ n, r = .go n := by
  cases r <;> simp [CtlReg.writable, CtlReg.access]

theorem writable_of_rw {r : CtlReg} (h : r.access = .rw) (sys : Bool) : r.writable sys = true := by rw [CtlReg.writable, h]
theorem writable_of_rws {r : CtlReg} (h : r.access = .rws) {sys : Bool} (hs : sys = true) : r.writable sys = true := by
  rw [CtlReg.writable, h, hs]

/-- Clearing the two low bits, as TPC does (R99). -/
theorem setFld_low2 (w : Word) : setFld w 0 2 0 = w &&& ~~~3 := by
  have hshift : setFld w 0 2 0 = (w >>> 2) <<< 2 := by
    apply BitVec.eq_of_toNat_eq
    have := w.isLt
    simp only [setFld, fld, BitVec.toNat_shiftLeft, BitVec.toNat_ushiftRight, Nat.shiftRight_eq_div_pow, Nat.shiftLeft_eq, BitVec.toNat_ofNat]
    omega
  rw [hshift]
  refine BitVec.eq_of_getLsbD_eq fun i hi => ?_
  have hthree : (3 : Word).getLsbD i = decide (i < 2) := by
    have h3 : (3 : Word) = BitVec.allOnes 64 >>> 62 := rfl
    rw [h3, BitVec.getLsbD_ushiftRight, BitVec.getLsbD_allOnes]
    exact decide_eq_decide.2 (by omega)
  rw [BitVec.getLsbD_and, BitVec.getLsbD_not, hthree, BitVec.getLsbD_shiftLeft, BitVec.getLsbD_ushiftRight]
  by_cases hlow : i < 2
  · simp [hlow]
  · simp [hlow, hi, Nat.add_sub_of_le (Nat.le_of_not_lt hlow)]

theorem onMe_congr {s : State} {f g : Ctx → Ctx} (h : f s.me = g s.me) : s.onMe f = s.onMe g :=
  congrArg (fun c => { s with ctxs := s.ctxs.put s.cur c }) h

theorem ctlStore_tpc {s : State} (h : s.me.replay = none) (v : Word) (done : State → State) :
    ctlStore s .tpc v done = done (s.onMe fun c => { c with ctl := { c.ctl with tpc := setFld v 0 2 0 } }) :=
  congrArg done (onMe_congr (by simp only [Ctx.dropReplay, Ctx.cuts, h]))

/-- Settles O26: each register by the lemma of its scope, with what its store does. -/
theorem controlRegisterWrites : Obligations.ControlRegisterWrites := by
  intro s sb d a
  refine ⟨?_, ?_, ?_, ?_, ?_, ?_, ?_, ?_, ?_, ?_, ?_, ?_, ?_, ?_⟩
  · exact ctlForms_ctl (r := .fpctl) (set := fun r v => { r with fpctl := v }) (kept := 0x1F1F3) rfl rfl rfl (fun _ _ => rfl) sb d a
  · exact ctlForms_ctl (r := .nmode) (set := fun r v => { r with nmode := v }) (kept := 0x1) rfl rfl rfl (fun _ _ => rfl) sb d a
  · exact ctlForms_ctl (r := .mfmta) (set := fun r v => { r with mfmta := v }) (kept := 0x3) rfl rfl rfl (fun _ _ => rfl) sb d a
  · exact ctlForms_ctl (r := .mfmtb) (set := fun r v => { r with mfmtb := v }) (kept := 0x3) rfl rfl rfl (fun _ _ => rfl) sb d a
  · exact ctlForms_ctl (r := .mfmtc) (set := fun r v => { r with mfmtc := v }) (kept := 0x1D7) rfl rfl rfl (fun _ _ => rfl) sb d a
  · exact ctlForms_ctl (r := .mscl) (set := fun r v => { r with mscl := v }) (kept := 0xFFFFFFFFFFFF) rfl rfl rfl (fun _ _ => rfl) sb d a
  · exact ctlForms_ctl (r := .tvec) (set := fun r v => { r with tvec := v }) (kept := 0x3FFFFD) rfl rfl rfl (fun _ _ => rfl) sb d a
  · intro hreplay
    exact ctlForms_ctl (r := .tpc) (set := fun r v => { r with tpc := v }) (kept := ~~~3) rfl rfl rfl
      (fun v done => by rw [ctlStore_tpc hreplay, setFld_low2]) sb d a
  · intro hsys
    exact ctlForms_ctl (r := .tstatus) (set := fun r v => { r with sys := v.getLsbD 0, psys := v.getLsbD 1, intrap := v.getLsbD 2 })
      (kept := BitVec.allOnes 64) rfl (writable_of_rws rfl hsys) rfl (fun v done => by rw [BitVec.and_allOnes]; rfl) sb d a
  · intro h0 h1
    refine ⟨?_, ?_, ?_, ?_, ?_, ?_⟩
    · exact ctlForms_loop (r := .lc 0) (l0 := fun c v => { c.lp0 with lc := v }) (l1 := fun c _ => c.lp1) rfl rfl rfl (fun _ _ => rfl)
        (fun _ => h0) (fun _ => h1) sb d a
    · exact ctlForms_loop (r := .ls 0) (l0 := fun c v => { c.lp0 with ls := v &&& 0x3FFFFC }) (l1 := fun c _ => c.lp1) rfl rfl rfl
        (fun _ _ => rfl) (fun _ => h0) (fun _ => h1) sb d a
    · exact ctlForms_loop (r := .le 0) (l0 := fun c v => c.lp0.writeLe c.pc v) (l1 := fun c _ => c.lp1) rfl rfl rfl
        (fun _ _ => rfl) (fun _ => h0) (fun _ => h1) sb d a
    · exact ctlForms_loop (r := .lc 1) (l0 := fun c _ => c.lp0) (l1 := fun c v => { c.lp1 with lc := v }) rfl rfl rfl (fun _ _ => rfl)
        (fun _ => h0) (fun _ => h1) sb d a
    · exact ctlForms_loop (r := .ls 1) (l0 := fun c _ => c.lp0) (l1 := fun c v => { c.lp1 with ls := v &&& 0x3FFFFC }) rfl rfl rfl
        (fun _ _ => rfl) (fun _ => h0) (fun _ => h1) sb d a
    · exact ctlForms_loop (r := .le 1) (l0 := fun c _ => c.lp0) (l1 := fun c v => c.lp1.writeLe c.pc v) rfl rfl rfl
        (fun _ _ => rfl) (fun _ => h0) (fun _ => h1) sb d a
  · intro ha
    refine ⟨?_, ?_, ?_, ?_⟩
    · exact ctlForms_quad (r := .xbound) (f := fun v q => { q with xbound := v }) rfl rfl ha (fun v done hv => ctlStore_xbound hv done) sb d a
    · exact ctlRefuses_of_store (r := .xbound) rfl rfl (fun _ => ha) (fun v done hv => ctlStore_xbound_bad hv done) sb d a
    · intro n i hn hi
      exact ctlForms_quad (r := .copy n i) (ok := fun _ => True)
        (f := fun v q => { q with copy := q.copy.put n { q.copyCtx n with regs := (q.copyCtx n).regs.set i v } })
        (ctlReg_copy n hn i hi) rfl ha (fun _ _ _ => rfl) sb d a
    · intro hsys
      refine ⟨?_, ?_, ?_, ?_, ?_, ?_⟩
      · exact ctlForms_core (r := .mkeydom) (f := fun v c => { c with mkeydom := v &&& 0xFFFF }) rfl (writable_of_rws rfl hsys) ha
          (fun _ _ => rfl) sb d a
      · exact ctlForms_core (r := .mbdepth)
          (f := fun v c => { c with mbdepth := if v.toNat % 32 = 0 then 1 else min 16 (v.toNat % 32) }) rfl
          (writable_of_rws rfl hsys) ha (fun v done => by simp only [← clamped_eq v (most := 16) (by decide)]; rfl) sb d a
      · exact ctlForms_core (r := .dispth)
          (f := fun v c => { c with thresh := if v.toNat % 32 = 0 then 1 else min 28 (v.toNat % 32) }) rfl
          (writable_of_rws rfl hsys) ha (fun v done => by simp only [← clamped_eq v (most := 28) (by decide)]; rfl) sb d a
      · exact ctlRefuses_of_store (r := .tlbase) rfl (writable_of_rws rfl hsys) (fun _ => ha) (fun v done hv => ctlStore_tlbase_bad hv done)
          sb d a
      · intro hidle
        exact ctlForms_quad (r := .tlbase) (x := 0x030) (ok := fun v => v = 0) (f := fun _ q => { q with tlbase := 0 }) rfl
          (writable_of_rws rfl hsys) ha (fun v done hv => by rw [hv]; exact tlbaseWrite_zero hidle done) sb d a
      · intro hidle
        exact ctlForms_of_store (r := .tlbase) (x := 0x030) (ok := tlbaseTakes s) (what := tlbaseTaken s) rfl (writable_of_rws rfl hsys)
          (fun _ => ha) (fun v dst htakes => ctlStore_tlbase_takes hidle ha htakes dst _) sb d a
  · intro r v i j hext hsstride hdstride hi hj
    exact r.get_set v hext hsstride hdstride hi hj
  · intro htraps x hx
    exact ⟨execs_illegal htraps hx rfl (exec_ctlwr ..), execs_illegal htraps hx rfl (exec_ctlset ..),
      execs_illegal htraps hx rfl (exec_ctlclr ..)⟩
  · exact writable_false_iff

end Sys2Proof.Machine
end

section
/-! Trap entry as a step of its own (R102, R242): where the causes of a fetch leave the window's count. -/

namespace Sys2Proof.Machine

/-- A context in its first window with a trap handler, whose pc is at the XBOUND of its quad: the fetch of its word is an overlay fetch. -/
def overlayFetch : State := { ctxs := [(0, { status := .running, ctl := { tvec := 1 } })], ev := [0x08, 0, 0, 0] }

/-- The step that takes the cause counts a position of the window as an instruction does, and enters the handler without taking it off again:
the settle window that opens there keeps `State.alone` from setting the count back. -/
theorem overlayFetch_window : ∃ t : State, exec .trapEntry overlayFetch = .next t ∧ t.me.window = overlayFetch.me.window + 1 := ⟨_, rfl, rfl⟩

/-- The cause of that fetch is not taken with the window's count as it was. -/
theorem overlayFetch_not_stepEntersTrap {t : State} (h : exec .trapEntry overlayFetch = .next t) (code : Nat) (tval : Word) :
    ¬ stepEntersTrap overlayFetch t code tval := by
  intro hstep
  obtain ⟨u, hexec, hcounted⟩ := overlayFetch_window
  obtain rfl : t = u := Host.Outcome.next.inj (h.symm.trans hexec)
  obtain ⟨_, hme⟩ := hstep
  rw [hme] at hcounted
  exact absurd hcounted (Nat.succ_ne_self _).symm

/-- Refutes O28: the overlay fetch of `overlayFetch` enters its handler with the window's count one higher than it stood, where the statement
has nothing of the context change but what trap entry writes. -/
theorem not_traps : ¬ Obligations.Traps := by
  intro h
  obtain ⟨htaken, _⟩ := h
  obtain ⟨hentered, _⟩ := htaken overlayFetch false 0 0 0 0
  obtain ⟨_, _, hstep⟩ := hentered (by unfold takesTraps; decide)
  obtain ⟨_, hfetch, _⟩ := hstep rfl rfl
  obtain ⟨hoverlay, _⟩ := hfetch rfl rfl rfl rfl
  obtain ⟨t, hexec, hentry⟩ := hoverlay rfl (by decide)
  exact overlayFetch_not_stepEntersTrap hexec _ _ hentry

end Sys2Proof.Machine
end

section
/-! The integer instructions (03_integer): what completes at issue with a value for xd, the bits of shifts, rotates and fields (R75, R80, R83), the
counts (R76), the halves of products (R77), and divisions (R78). -/

namespace Sys2Proof.Machine

/-! ### What an integer instruction comes to -/

section
variable {s : State} {i : Instr} {d : BitVec 5}

/-- An instruction whose meaning writes xd and goes on gives xd that value. -/
theorem execs_givesX {v w : Word} (hexec : exec i s = .next (s.writesX d v)) (hvalue : v = w) :
    ∃ t : State, exec i s = .next t ∧ givesX s t d w :=
  ⟨_, hexec, hvalue ▸ s.writesX_gives d v⟩

/-- The same where the value is known by what holds of it. -/
theorem execs_givesX_that {what : Word → Prop} {w : Word} (hexec : exec i s = .next (s.writesX d w)) (hwhat : what w) :
    ∃ (t : State) (w : Word), exec i s = .next t ∧ givesX s t d w ∧ what w :=
  ⟨_, w, hexec, s.writesX_gives d w, hwhat⟩

/-- The same for the word of a number. -/
theorem execs_givesX_word {what : Nat → Prop} {w : Word} (hexec : exec i s = .next (s.writesX d w)) (hwhat : ∃ n, w = word n ∧ what n) :
    ∃ (t : State) (n : Nat), exec i s = .next t ∧ givesX s t d (word n) ∧ what n := by
  obtain ⟨n, rfl, hn⟩ := hwhat
  exact ⟨_, n, hexec, s.writesX_gives d _, hn⟩

end

/-! ### Shifts to the left as products, immediates -/

theorem shiftLeft_eq_ofNat (x : Word) (n : Nat) : x <<< n = BitVec.ofNat 64 (x.toNat * 2 ^ n) :=
  congrArg (BitVec.ofNat 64) (Nat.shiftLeft_eq ..)

theorem simm_eq_ofInt {n : Nat} (i : BitVec n) : simm i = BitVec.ofInt 64 i.toInt := rfl

theorem simm_shiftLeft {n : Nat} (i : BitVec n) (k : Nat) : simm i <<< k = BitVec.ofInt 64 (i.toInt * 2 ^ k) := by
  have htwo : BitVec.twoPow 64 k = BitVec.ofInt 64 (2 ^ k) := by
    rw [BitVec.twoPow_eq, shiftLeft_eq_ofNat, ← BitVec.ofInt_natCast, Nat.cast_mul, Nat.cast_pow]
    exact congrArg _ (Int.one_mul _)
  rw [simm_eq_ofInt, BitVec.shiftLeft_eq_mul_twoPow, htwo, BitVec.ofInt_mul]

theorem target_eq {n : Nat} (pc : Word) (o : BitVec n) : target pc o = pc + BitVec.ofInt 64 (4 * o.toInt) := by
  rw [target, simm_shiftLeft, Int.mul_comm, show (2 : Int) ^ 2 = 4 from rfl]

/-! ### Comparisons (R74) -/

theorem ofBool_slt (x y : Word) : ofBool (x.slt y) = if x.toInt < y.toInt then 1 else 0 := by
  simp only [ofBool, BitVec.slt_eq_decide, decide_eq_true_eq]

theorem ofBool_ult (x y : Word) : ofBool (x.ult y) = if x.toNat < y.toNat then 1 else 0 := by
  simp only [ofBool, BitVec.ult_eq_decide, decide_eq_true_eq]

theorem ite_sle (x y u v : Word) : (if x.sle y then u else v) = if x.toInt ≤ y.toInt then u else v := by
  simp only [BitVec.sle_eq_decide, decide_eq_true_eq]

theorem ite_ule (x y u v : Word) : (if x.ule y then u else v) = if x.toNat ≤ y.toNat then u else v := by
  simp only [BitVec.ule_eq_decide, decide_eq_true_eq]

/-- Settles O1: every form writes xd and goes on; the comparisons are those of the numbers. -/
theorem integerLogicCompare : Obligations.IntegerLogicCompare := by
  intro s sb d a b i
  refine ⟨?add, ?addi, ?sub, ?and, ?andi, ?or, ?ori, ?xor, ?xori, ?andn, ?orn, ?slt, ?slti, ?sltz, ?min, ?max, ?minz, ?maxz⟩
  case slt => exact execs_givesX rfl (ofBool_slt _ _)
  case slti => exact execs_givesX rfl (ofBool_slt _ _)
  case sltz => exact execs_givesX rfl (ofBool_ult _ _)
  case min => exact execs_givesX rfl (ite_sle ..)
  case max => exact execs_givesX rfl (ite_sle ..)
  case minz => exact execs_givesX rfl (ite_ule ..)
  case maxz => exact execs_givesX rfl (ite_ule ..)
  all_goals exact execs_givesX rfl rfl

/-! ### Bits of shifts, rotates and fields (R75, R80, R83) -/

section
variable (x : Word) {j : Nat} (hj : j < 64)
include hj

theorem shiftLeft_bit (n : Nat) : (x <<< n).getLsbD j = (decide (n ≤ j) && x.getLsbD (j - n)) := by
  rw [BitVec.getLsbD_shiftLeft, decide_eq_true hj, Bool.true_and, ← decide_not, decide_eq_decide.2 Nat.not_lt]

theorem sshiftRight_bit (n : Nat) : (x.sshiftRight n).getLsbD j = if j + n < 64 then x.getLsbD (j + n) else x.msb := by
  rw [BitVec.getLsbD_sshiftRight, decide_eq_false (Nat.not_le.2 hj), Bool.not_false, Bool.true_and, Nat.add_comm]

omit hj in
theorem ushiftRight_bit (n : Nat) : (x >>> n).getLsbD j = if j + n < 64 then x.getLsbD (j + n) else false := by
  rw [BitVec.getLsbD_ushiftRight, Nat.add_comm]
  split
  · rfl
  · next h => exact BitVec.getLsbD_of_ge _ _ (Nat.le_of_not_lt h)

/-- A rotation to the left, whose second shift is by 0 where the first is. -/
theorem rotateLeft_bit {n : Nat} (hn : n < 64) : (x <<< n ||| x >>> ((64 - n) % 64)).getLsbD j = x.getLsbD ((j + 64 - n) % 64) := by
  rw [BitVec.getLsbD_or, shiftLeft_bit x hj, BitVec.getLsbD_ushiftRight]
  by_cases hlow : n ≤ j
  · have hwrap : (j + 64 - n) % 64 = j - n := by omega
    have hout : (64 - n) % 64 + j = j ∧ n = 0 ∨ 64 ≤ (64 - n) % 64 + j := by omega
    rw [decide_eq_true hlow, Bool.true_and, hwrap]
    obtain ⟨hsame, rfl⟩ | hpast := hout
    · rw [hsame, Nat.sub_zero, Bool.or_self]
    · rw [BitVec.getLsbD_of_ge _ _ hpast, Bool.or_false]
  · have hwrap : (64 - n) % 64 + j = (j + 64 - n) % 64 := by omega
    rw [decide_eq_false hlow, Bool.false_and, Bool.false_or, hwrap]

/-- A rotation to the right is the one to the left by what is missing to 64. -/
theorem rotateRight_bit {n : Nat} (hn : n < 64) : (x >>> n ||| x <<< ((64 - n) % 64)).getLsbD j = x.getLsbD ((j + n) % 64) := by
  have hback : (64 - (64 - n) % 64) % 64 = n := by omega
  have hplace : (j + 64 - (64 - n) % 64) % 64 = (j + n) % 64 := by omega
  have hleft := rotateLeft_bit x hj (n := (64 - n) % 64) (Nat.mod_lt _ (by decide))
  rwa [hback, BitVec.or_comm, hplace] at hleft

theorem fieldMask_bit (len pos : Nat) : (fieldMask len pos).getLsbD j = decide (pos ≤ j ∧ j < pos + len) := by
  rw [fieldMask, BitVec.getLsbD_ofNat, decide_eq_true hj, Bool.true_and, Nat.testBit_mul_two_pow, Nat.testBit_two_pow_sub_one, ← Bool.decide_and]
  exact decide_eq_decide.2 (by omega)

/-- The bits that ext takes (R83). -/
theorem extract_bit (len pos : Nat) : (x >>> pos &&& fieldMask len 0).getLsbD j = (decide (j < len) && x.getLsbD (j + pos)) := by
  have hmask : (fieldMask len 0).getLsbD j = decide (j < len) :=
    (fieldMask_bit hj len 0).trans (decide_eq_decide.2 (by omega))
  rw [BitVec.getLsbD_and, hmask, BitVec.getLsbD_ushiftRight, Bool.and_comm, Nat.add_comm]

/-- The bits that ins places, and those that it leaves (R83). -/
theorem insert_bit (old : Word) (len pos : Nat) : ((old &&& ~~~fieldMask len pos) ||| (x <<< pos &&& fieldMask len pos)).getLsbD j =
    if pos ≤ j ∧ j < pos + len then x.getLsbD (j - pos) else old.getLsbD j := by
  rw [BitVec.getLsbD_or, BitVec.getLsbD_and, BitVec.getLsbD_and, BitVec.getLsbD_not, fieldMask_bit hj, shiftLeft_bit x hj]
  by_cases hin : pos ≤ j ∧ j < pos + len
  · simp [hin]
  · simp [hin, hj]

end

theorem amount_lt (y : Word) : amount y < 64 := Nat.mod_lt _ (by decide)

/-- Settles O2: the shifts, rotates and fields bit by bit, the others by the values of their operands. -/
theorem shiftsAndFields : Obligations.ShiftsAndFields := by
  refine ⟨fun s sb d a b i => ?_, fun s sb d a b c n l p i => ?_⟩
  · refine ⟨?sll, ?slli, ?srl, ?srli, ?sra, ?srai, ?rotl, ?rotr⟩
    case sll => exact execs_givesX_that rfl fun _ hj => shiftLeft_bit _ hj _
    case slli => exact execs_givesX_that rfl fun _ hj => shiftLeft_bit _ hj _
    case srl => exact execs_givesX_that rfl fun _ _ => ushiftRight_bit _ _
    case srli => exact execs_givesX_that rfl fun _ _ => ushiftRight_bit _ _
    case sra => exact execs_givesX_that rfl fun _ hj => sshiftRight_bit _ hj _
    case srai => exact execs_givesX_that rfl fun _ hj => sshiftRight_bit _ hj _
    case rotl => exact execs_givesX_that rfl fun _ hj => rotateLeft_bit _ hj (amount_lt _)
    case rotr => exact execs_givesX_that rfl fun _ hj => rotateRight_bit _ hj (amount_lt _)
  · refine ⟨?adds, ?sel, ?ext, ?ins, ?lui, ?addpc⟩
    case adds => exact execs_givesX_that rfl (congrArg (s.me.getX a + ·) (shiftLeft_eq_ofNat ..))
    case sel => exact execs_givesX_that rfl (ite_not ..)
    case ext => exact execs_givesX_that rfl fun _ hj => extract_bit _ hj _ _
    case ins => exact execs_givesX_that rfl fun _ hj => insert_bit _ hj _ _ _
    case lui => exact execs_givesX_that rfl (simm_shiftLeft i 15)
    case addpc => exact execs_givesX_that rfl (target_eq s.me.pc i)

/-! ### Counts (R76) -/

/-- The zeros above the highest one bit: all of them, and no more. -/
theorem leadingZeros_spec (x : Word) : ∃ n, leadingZeros x = word n ∧
    n ≤ 64 ∧ (∀ j, j < n → x.getLsbD (63 - j) = false) ∧ (n < 64 → x.getLsbD (63 - n) = true) := by
  unfold leadingZeros
  split
  · next hzero => exact ⟨64, rfl, Nat.le_refl _, fun j _ => hzero ▸ BitVec.getLsbD_zero, fun h => absurd h (Nat.lt_irrefl _)⟩
  · next hpos =>
    have hne : x.toNat ≠ 0 := fun h => hpos (BitVec.eq_of_toNat_eq h)
    have hlog : x.toNat.log2 < 64 := (Nat.log2_lt hne).2 x.isLt
    have hback : 63 - (63 - x.toNat.log2) = x.toNat.log2 := by omega
    refine ⟨63 - x.toNat.log2, rfl, by omega, fun j hj => ?_, fun _ => ?_⟩
    · have hover : x.toNat.log2 + 1 ≤ 63 - j := by omega
      exact Nat.testBit_lt_two_pow (Nat.lt_log2_self.trans_le (Nat.pow_le_pow_right (by decide) hover))
    · rw [hback]
      exact Nat.testBit_log2 hne

/-- The zeros below the lowest one bit: all of them, and no more. -/
theorem trailingZeros_spec (x : Word) : ∃ n, trailingZeros x = word n ∧
    n ≤ 64 ∧ (∀ j, j < n → x.getLsbD j = false) ∧ (n < 64 → x.getLsbD n = true) := by
  unfold trailingZeros
  cases hfind : (List.range 64).find? fun i => x.getLsbD i with
  | none =>
    have hall := List.find?_range_eq_none.1 hfind
    exact ⟨64, rfl, Nat.le_refl _, fun j hj => (Bool.not_eq_true' _).mp (hall j hj), fun h => absurd h (Nat.lt_irrefl _)⟩
  | some n =>
    obtain ⟨hone, hmem, hbelow⟩ := List.find?_range_eq_some.1 hfind
    exact ⟨n, rfl, (List.mem_range.1 hmem).le, fun j hj => (Bool.not_eq_true' _).mp (hbelow j hj), fun _ => hone⟩

theorem popcount_eq_length (v n : Nat) : popcount v n = ((List.range n).filter fun j => v.testBit j).length := by
  induction n with
  | zero => rfl
  | succ n ih =>
    rw [popcount, ih, List.range_succ, List.filter_append, List.length_append, ← List.countP_eq_length_filter (l := [n]),
      List.countP_singleton, Nat.add_comm]

/-! ### Products (R77) -/

theorem mul_eq_ofInt (x y : Word) : x * y = BitVec.ofInt 64 (x.toInt * y.toInt) := by
  rw [BitVec.ofInt_mul, BitVec.ofInt_toInt, BitVec.ofInt_toInt]

theorem mul_eq_ofNat (x y : Word) : x * y = BitVec.ofNat 64 (x.toNat * y.toNat) := BitVec.mul_def

/-- The high half of a number of 128 bits. -/
theorem mulHigh_eq (p : Int) : mulHigh p = (BitVec.ofInt 128 p >>> 64).setWidth 64 := by
  apply BitVec.eq_of_toNat_eq
  rw [mulHigh, BitVec.toNat_setWidth, BitVec.toNat_ushiftRight, Nat.shiftRight_eq_div_pow, BitVec.toNat_ofInt, BitVec.toNat_ofInt]
  omega

theorem mulHigh_signed (x y : Word) :
    mulHigh (x.toInt * y.toInt) = ((x.signExtend 128 * y.signExtend 128) >>> 64).setWidth 64 := by
  rw [mulHigh_eq, BitVec.ofInt_mul]
  rfl

theorem mulHigh_unsigned (x y : Word) :
    mulHigh (x.toNat * y.toNat : Nat) = ((x.setWidth 128 * y.setWidth 128) >>> 64).setWidth 64 := by
  rw [mulHigh_eq, BitVec.ofInt_natCast, BitVec.ofNat_mul, BitVec.ofNat_toNat, BitVec.ofNat_toNat]

/-! ### Divisions (R72, R78) -/

/-- x0 takes no result. -/
theorem filter_x_ne_zero (d : BitVec 5) : ([Dst.x d].filter fun e => e != .x 0) = if d = 0 then [] else [.x d] := by
  by_cases hd : d = 0
  · rw [if_pos hd, hd]
    rfl
  · have hne : (Dst.x d != .x 0) = true := bne_iff_ne.2 fun h => hd (Dst.x.inj h)
    rw [if_neg hd]
    exact List.filter_cons_of_pos hne

section
variable (s : State) (sb : Bool) (d a b : BitVec 5)

theorem exec_div : exec (.div sb d a b) s =
    divide (fun x y => BitVec.ofInt 64 (x.toInt.tdiv y.toInt)) (Instr.div sb d a b).word d a b s := rfl
theorem exec_rem : exec (.rem sb d a b) s =
    divide (fun x y => BitVec.ofInt 64 (x.toInt.tmod y.toInt)) (Instr.rem sb d a b).word d a b s := rfl
theorem exec_divz : exec (.divz sb d a b) s = divide (fun x y => x.udiv y) (Instr.divz sb d a b).word d a b s := rfl
theorem exec_remz : exec (.remz sb d a b) s = divide (fun x y => x.umod y) (Instr.remz sb d a b).word d a b s := rfl

end

section
variable {s : State} {i : Instr} {d a b : BitVec 5} {f : Word → Word → Word} {w : Word32}

/-- A division by a value other than zero leaves its result outstanding for xd. -/
theorem divide_issues (hexec : exec i s = divide f w d a b s) (hb : s.me.getX b ≠ 0) {what : Word → Prop}
    (hwhat : what (f (s.me.getX a) (s.me.getX b))) :
    ∃ (t : State) (w : Word) (o : Out), exec i s = .next t ∧ issuesOut s t o ∧ o.op = .value ∧ o.pure = true ∧
      o.dsts = (if d = 0 then [] else [.x d]) ∧ o.ans = some { writes := [.x d w] } ∧ what w := by
  exact ⟨_, _, _, hexec.trans (if_neg hb), s.issue_out .value [.x d] true false false _ 0, rfl, rfl, filter_x_ne_zero d, rfl, hwhat⟩

/-- A division by zero traps at issue. -/
theorem divide_traps (hexec : exec i s = divide f w d a b s) (hword : encode i = some w) (hb : s.me.getX b = 0) (htraps : takesTraps s.me) :
    ∃ (t : State) (w : Word32), exec i s = .next t ∧ encode i = some w ∧ entersTrap s t 0x06 (w.setWidth 64) := by
  refine ⟨_, w, hexec.trans (if_pos hb), hword, ?_⟩
  rw [← BitVec.ofNat_toNat]
  exact State.trap_enters s cDivide _ rfl htraps

end

/-- The signed remainder as a number: it and the product of quotient and divisor make the dividend. -/
theorem toInt_tmod (x y : Word) : (BitVec.ofInt 64 (x.toInt.tmod y.toInt)).toInt = x.toInt - x.toInt.tdiv y.toInt * y.toInt := by
  rw [← BitVec.toInt_srem, BitVec.ofInt_toInt, BitVec.toInt_srem, Int.tmod_def, Int.mul_comm]

theorem toNat_umod (x y : Word) : (x.umod y).toNat = x.toNat - x.toNat / y.toNat * y.toNat := by
  rw [← Nat.mod_eq_sub_div_mul]
  rfl

/-- Settles O3: counts and products as values of xd, divisions as results outstanding for xd or as traps. -/
theorem countsProductsQuotients : Obligations.CountsProductsQuotients := by
  refine ⟨⟨fun s sb d a => ⟨?clz, ?ctz, ?popc⟩, fun s sb d a b => ⟨?mul, ?mulUnsigned, ?mulh, ?mulhz⟩⟩,
    fun s sb d a b hb => ⟨?div, ?rem, ?divz, ?remz⟩, fun s sb d a b i hb htraps hi => ?zero⟩
  case clz => exact execs_givesX_word rfl (leadingZeros_spec _)
  case ctz => exact execs_givesX_word rfl (trailingZeros_spec _)
  case popc => exact execs_givesX_word rfl ⟨_, rfl, popcount_eq_length _ 64⟩
  case mul => exact execs_givesX rfl (mul_eq_ofInt _ _)
  case mulUnsigned => exact execs_givesX rfl (mul_eq_ofNat _ _)
  case mulh => exact execs_givesX rfl (mulHigh_signed _ _)
  case mulhz => exact execs_givesX rfl (mulHigh_unsigned _ _)
  case div => exact divide_issues (exec_div ..) hb rfl
  case rem => exact divide_issues (exec_rem ..) hb (toInt_tmod _ _)
  case divz => exact divide_issues (exec_divz ..) hb rfl
  case remz => exact divide_issues (exec_remz ..) hb (toNat_umod _ _)
  case zero =>
    simp only [List.mem_cons, List.not_mem_nil, or_false] at hi
    obtain rfl | rfl | rfl | rfl := hi
    · exact divide_traps (exec_div ..) rfl hb htraps
    · exact divide_traps (exec_divz ..) rfl hb htraps
    · exact divide_traps (exec_rem ..) rfl hb htraps
    · exact divide_traps (exec_remz ..) rfl hb htraps

end Sys2Proof.Machine
end

section
/-! Control flow (04_control): branches and jumps (R87 to R89), hardware loops and the end of a loop body (R97, R98, R100). -/

namespace Sys2Proof.Machine

theorem State.step1_me (s : State) (f : Ctx → Ctx) : (s.step1 f).me = (f s.me).advance := State.onMe_me _ _

/-! ### Transfers of control (R87 to R89) -/

theorem State.jump_jumps (s : State) (t : Word) : jumps s (s.jump t) t := by
  refine ⟨State.onMe_onlyMe _ _, ?_, ?_, ?_⟩ <;> rw [State.jump, State.onMe_me]
  · rfl
  · exact ⟨rfl, rfl, rfl⟩
  · exact ⟨rfl, rfl, rfl⟩

/-- A jump that links gives xd its link and leaves the loop levels alone. -/
theorem State.link_jumpsX (s : State) (d : BitVec 5) (link t : Word) : jumpsX s (s.onMe fun c => (c.setX d link).goTo t) d link t := by
  have hframe : s.me.setX d link = _ := Ctx.write_frame s.me (.x d link)
  refine ⟨State.onMe_onlyMe _ _, ?_, ?_, ?_⟩ <;> rw [State.onMe_me]
  · rw [onlyRegs, hframe]; rfl
  · exact Ctx.setX_given s.me d link
  · rw [hframe]; exact ⟨rfl, rfl, rfl⟩

/-- A conditional branch is taken where its condition says so, and goes on elsewhere. -/
theorem branch_takenWhen {s : State} {i : Instr} {cond : Word → Word → Bool} {a b : BitVec 5} {o : BitVec 12} {P : Prop}
    (hexec : exec i s = branch cond a b o s) (hcond : cond (s.me.getX a) (s.me.getX b) = true ↔ P) :
    ∃ t : State, exec i s = .next t ∧ (P → jumps s t (s.me.pc + BitVec.ofInt 64 (4 * o.toInt))) ∧ (¬ P → givesNothing s t) := by
  by_cases hP : P
  · refine ⟨_, hexec.trans (if_pos (hcond.2 hP)), fun _ => ?_, fun hn => absurd hP hn⟩
    rw [target_eq]
    exact s.jump_jumps _
  · exact ⟨_, hexec.trans (if_neg fun h => hP (hcond.1 h)), fun h => absurd h hP, fun _ => s.moves_gives⟩

theorem exec_jal (s : State) (sb : Bool) (o : BitVec 25) : exec (.jal sb o) s =
    .next (s.onMe fun c => (c.setX 1 (s.me.pc + 4)).goTo (s.me.pc + BitVec.ofInt 64 (4 * o.toInt))) := by
  rw [← target_eq]
  rfl

section
variable {s : State} {a : BitVec 5} {i : BitVec 15} (sb : Bool) (d : BitVec 5)

theorem exec_jalr_aligned (h : (s.me.getX a + i.signExtend 64).toNat % 4 = 0) : exec (.jalr sb d a i) s =
    .next (s.onMe fun c => (c.setX d (s.me.pc + 4)).goTo (s.me.getX a + i.signExtend 64)) := by
  show execJalr d a i s = _
  exact if_neg (not_not.2 h)

theorem exec_jalr_misaligned (h : (s.me.getX a + i.signExtend 64).toNat % 4 ≠ 0) : exec (.jalr sb d a i) s =
    .next (s.trap cMisaligned (s.me.getX a + i.signExtend 64)) := by
  show execJalr d a i s = _
  exact if_pos h

end

/-- Settles O4: each branch by its comparison as one of numbers, the jumps by their targets, jalr by the low bits of its target. -/
theorem branchesAndJumps : Obligations.BranchesAndJumps := by
  refine ⟨fun s sb a b o => ⟨?eq, ?ne, ?lt, ?ge, ?ltz, ?gez⟩,
    fun s sb d a o i => ⟨?j, ?jal, fun haligned => ?jalr, fun hmisaligned htraps => ?trap⟩⟩
  case eq => exact branch_takenWhen rfl beq_iff_eq
  case ne => exact branch_takenWhen rfl bne_iff_ne
  case lt => exact branch_takenWhen rfl BitVec.slt_iff_toInt_lt
  case ge => exact branch_takenWhen rfl BitVec.sle_iff_toInt_le
  case ltz => exact branch_takenWhen rfl BitVec.ult_iff_toNat_lt
  case gez => exact branch_takenWhen rfl BitVec.ule_iff_toNat_le
  case j => exact ⟨_, rfl, target_eq s.me.pc o ▸ s.jump_jumps _⟩
  case jal => exact ⟨_, exec_jal s sb o, s.link_jumpsX 1 (s.me.pc + 4) _⟩
  case jalr => exact ⟨_, exec_jalr_aligned sb d haligned, s.link_jumpsX d (s.me.pc + 4) _⟩
  case trap => exact ⟨_, exec_jalr_misaligned sb d hmisaligned, State.trap_enters s cMisaligned _ rfl htraps⟩

/-! ### Hardware loops: the end of a body (R98) -/

/-- The level is left whatever its count: an end of body is due, or END lies before START (R98). -/
def LoopLevel.isOver (l : LoopLevel) : Bool := l.eb || decide (l.le.toNat < l.ls.toNat)

/-- Does the level go back to its start for one more pass (R98)? -/
def LoopLevel.goesBack (l : LoopLevel) : Bool := !l.isOver && l.lc != 0

/-- The level after it has been sent back, and after it has been left, with the address after it. -/
def LoopLevel.sentBack (l : LoopLevel) : LoopLevel := { l with asn := l.ls, aen := l.le, lc := l.lc - 1 }
def LoopLevel.whenLeft (l : LoopLevel) : LoopLevel :=
  if l.isOver then { l with act := false, eb := false } else { l with asn := l.ls, aen := l.le, act := false }
def LoopLevel.afterEnd (l : LoopLevel) : Word := (if l.isOver then l.aen else l.le) + 4

theorem LoopLevel.ends_of_goesBack {l : LoopLevel} (h : l.goesBack = true) : l.ends = (l.sentBack, l.ls, true) := by
  obtain ⟨hover, hcount⟩ : l.isOver = false ∧ l.lc ≠ 0 := by simpa [LoopLevel.goesBack] using h
  rw [LoopLevel.ends, if_neg (by rw [← LoopLevel.isOver, hover]; decide)]
  exact if_neg hcount

theorem LoopLevel.ends_of_left {l : LoopLevel} (h : l.goesBack = false) : l.ends = (l.whenLeft, l.afterEnd, false) := by
  by_cases hover : l.isOver = true
  · rw [LoopLevel.whenLeft, LoopLevel.afterEnd, if_pos hover, if_pos hover]
    exact if_pos hover
  · have hcount : l.lc = 0 := by simpa [LoopLevel.goesBack, hover] using h
    rw [LoopLevel.whenLeft, LoopLevel.afterEnd, if_neg hover, if_neg hover]
    exact (if_neg hover).trans (if_pos hcount)

/-- The outer level is examined: its loop end where it ends here, or on to the address given. -/
def Ctx.outerEnds (c : Ctx) (next : Word) : Ctx :=
  if c.lp0.atEnd c.pc then { c with lp0 := c.lp0.ends.1, pc := c.lp0.ends.2.1, prevPc := c.pc } else { c with pc := next, prevPc := c.pc }

section
variable {c : Ctx}

theorem Ctx.advance_inner_sent (hend : c.lp1.atEnd c.pc = true) (hback : c.lp1.goesBack = true) :
    c.advance = { c with lp1 := c.lp1.sentBack, pc := c.lp1.ls, prevPc := c.pc } := by
  simp [Ctx.advance, hend, LoopLevel.ends_of_goesBack hback]

theorem Ctx.advance_inner_left (hend : c.lp1.atEnd c.pc = true) (hback : c.lp1.goesBack = false) :
    c.advance = ({ c with lp1 := c.lp1.whenLeft } : Ctx).outerEnds c.lp1.afterEnd := by
  simp [Ctx.advance, hend, LoopLevel.ends_of_left hback, Ctx.outerEnds]

theorem Ctx.advance_no_inner (hend : c.lp1.atEnd c.pc = false) : c.advance = c.outerEnds (c.pc + 4) := by
  simp [Ctx.advance, hend, Ctx.outerEnds]

theorem Ctx.outerEnds_lp1 (next : Word) : (c.outerEnds next).lp1 = c.lp1 := by
  unfold Ctx.outerEnds
  split <;> rfl

theorem Ctx.outerEnds_sent (hend : c.lp0.atEnd c.pc = true) (hback : c.lp0.goesBack = true) (next : Word) :
    (c.outerEnds next).lp0 = c.lp0.sentBack ∧ (c.outerEnds next).pc = c.lp0.ls := by
  rw [Ctx.outerEnds, if_pos hend, LoopLevel.ends_of_goesBack hback]
  exact ⟨rfl, rfl⟩

theorem Ctx.outerEnds_left (hend : c.lp0.atEnd c.pc = true) (hback : c.lp0.goesBack = false) (next : Word) :
    (c.outerEnds next).lp0 = c.lp0.whenLeft ∧ (c.outerEnds next).pc = c.lp0.afterEnd := by
  rw [Ctx.outerEnds, if_pos hend, LoopLevel.ends_of_left hback]
  exact ⟨rfl, rfl⟩

theorem Ctx.outerEnds_none (hend : c.lp0.atEnd c.pc = false) (next : Word) :
    (c.outerEnds next).lp0 = c.lp0 ∧ (c.outerEnds next).pc = next := by
  rw [Ctx.outerEnds, if_neg (by rw [hend]; decide)]
  exact ⟨rfl, rfl⟩

/-- Where the inner level does not go back, the outer one is examined at the same address, with whatever comes next without it. -/
theorem Ctx.advance_outer (h : c.lp1.atEnd c.pc = true → c.lp1.goesBack = false) :
    ∃ l next, c.advance = ({ c with lp1 := l } : Ctx).outerEnds next := by
  cases hend : c.lp1.atEnd c.pc with
  | true => exact ⟨_, _, Ctx.advance_inner_left hend (h hend)⟩
  | false => exact ⟨c.lp1, _, Ctx.advance_no_inner hend⟩

end

/-! ### Hardware loops: their instructions (R97, R100) -/

/-- The level that a loop instruction does not name. -/
def Ctx.otherLevel (c : Ctx) (n : BitVec 1) : LoopLevel := if n = 0 then c.lp1 else c.lp0

section
variable (c : Ctx) (n : BitVec 1) (f : LoopLevel → LoopLevel)

theorem Ctx.onLevel_frame : c.onLevel n f = { c with lp0 := (c.onLevel n f).lp0, lp1 := (c.onLevel n f).lp1 } := by
  unfold Ctx.onLevel
  split <;> rfl

theorem Ctx.level_onLevel : (c.onLevel n f).level n = f (c.level n) := by
  unfold Ctx.level Ctx.onLevel
  split <;> rfl

theorem Ctx.otherLevel_onLevel : (c.onLevel n f).otherLevel n = c.otherLevel n := by
  unfold Ctx.otherLevel Ctx.onLevel
  split <;> rfl

/-- A level that becomes inactive ends nowhere. -/
theorem Ctx.onLevel_ends_nowhere (hact : ∀ l, (f l).act = false) (h0 : c.lp0.atEnd c.pc = false) (h1 : c.lp1.atEnd c.pc = false) :
    (c.onLevel n f).lp0.atEnd c.pc = false ∧ (c.onLevel n f).lp1.atEnd c.pc = false := by
  unfold Ctx.onLevel
  split
  · exact ⟨by simp [LoopLevel.atEnd, hact], h1⟩
  · exact ⟨h0, by simp [LoopLevel.atEnd, hact]⟩

end

/-- The level that loop sets up: a body from `start` to `stop`, `count` passes (R97). -/
def LoopLevel.entered (count start stop : Word) : LoopLevel :=
  { lc := if count = 0 then 0 else count - 1, ls := start, le := stop, act := count != 0, eb := false, asn := start, aen := stop }

theorem exec_loop (s : State) (sb : Bool) (n : BitVec 1) (a : BitVec 5) (i : BitVec 15) :
    let count := s.me.getX a
    let start := s.me.pc + 4
    let stop := s.me.pc + BitVec.ofInt 64 (4 * i.toInt)
    exec (.loop sb n a i) s = .next (s.onMe fun c =>
      (c.onLevel n fun _ => .entered count start stop).goTo (if count = 0 then stop + 4 else start)) := by
  rw [← target_eq]
  rfl

/-- What loop does in any state, also where it stands at the other level's latched end (R97; log 57). -/
theorem loop_enters (s : State) (sb : Bool) (n : BitVec 1) (a : BitVec 5) (i : BitVec 15) :
    let count := s.me.getX a
    let start := s.me.pc + 4
    let stop := s.me.pc + BitVec.ofInt 64 (4 * i.toInt)
    ∃ t : State, exec (.loop sb n a i) s = .next t ∧ onlyMe s t ∧ onlyRegs s.me t.me ∧ sameRegs s.me t.me ∧
      t.me.otherLevel n = s.me.otherLevel n ∧ t.me.level n = .entered count start stop ∧
      t.me.pc = if count = 0 then stop + 4 else start := by
  refine ⟨_, exec_loop s sb n a i, State.onMe_onlyMe _ _, ?_, ?_, ?_, ?_, ?_⟩ <;> rw [State.onMe_me]
  · rw [Ctx.onLevel_frame]; rfl
  · rw [Ctx.onLevel_frame]; exact ⟨rfl, rfl, rfl⟩
  · exact Ctx.otherLevel_onLevel ..
  · exact Ctx.level_onLevel ..
  · rfl

/-- The level that lbreak leaves (R100). -/
def LoopLevel.cleared (l : LoopLevel) : LoopLevel := { l with act := false, eb := false }

theorem exec_lbreak (s : State) (sb : Bool) (n : BitVec 1) :
    exec (.lbreak sb n) s = .next (s.step1 fun c => c.onLevel n LoopLevel.cleared) := rfl

/-- What lbreak does where no loop ends at it (R100). -/
theorem lbreak_clears (s : State) (sb : Bool) (n : BitVec 1) (h0 : s.me.lp0.atEnd s.me.pc = false) (h1 : s.me.lp1.atEnd s.me.pc = false) :
    ∃ t : State, exec (.lbreak sb n) s = .next t ∧ onlyMe s t ∧ onlyRegs s.me t.me ∧ sameRegs s.me t.me ∧
      t.me.otherLevel n = s.me.otherLevel n ∧ t.me.level n = (s.me.level n).cleared ∧ t.me.pc = s.me.pc + 4 := by
  have hframe := Ctx.onLevel_frame s.me n LoopLevel.cleared
  have hpc : (s.me.onLevel n LoopLevel.cleared).pc = s.me.pc := by rw [hframe]
  obtain ⟨hend0, hend1⟩ := Ctx.onLevel_ends_nowhere s.me n LoopLevel.cleared (fun _ => rfl) h0 h1
  obtain ⟨hnext, hlp0, hlp1⟩ := Ctx.advance_pc (s.me.onLevel n LoopLevel.cleared) (hpc ▸ hend0) (hpc ▸ hend1)
  refine ⟨_, exec_lbreak s sb n, State.onMe_onlyMe _ _, ?_, ?_, ?_, ?_, ?_⟩ <;> rw [State.step1_me]
  · rw [onlyRegs, Ctx.advance_frame, hframe]
  · rw [Ctx.advance_frame, hframe]; exact ⟨rfl, rfl, rfl⟩
  · rw [← Ctx.otherLevel_onLevel s.me n LoopLevel.cleared, Ctx.otherLevel, Ctx.otherLevel, hlp0, hlp1]
  · refine Eq.trans ?_ (Ctx.level_onLevel s.me n LoopLevel.cleared)
    rw [Ctx.level, Ctx.level, hlp0, hlp1]
  · rw [hnext, hpc]

/-- Settles O5: loop and lbreak by the levels they change; a loop's end at a nop by the two levels in their order. -/
theorem hardwareLoops : Obligations.HardwareLoops := by
  refine ⟨fun s sb n a i => ⟨?loop, fun h0 h1 => ?lbreak⟩, fun s sb => ?nop⟩
  case loop =>
    obtain ⟨t, hexec, honly, hregs, hsame, hother, hlevel, hpc⟩ := loop_enters s sb n a i
    refine ⟨t, hexec, honly, hregs, hsame, hother, ?_, ?_, ?_, ?_, ?_, ?_, ?_, hpc⟩ <;> exact congrArg _ hlevel
  case lbreak => exact lbreak_clears s sb n h0 h1
  case nop =>
    obtain ⟨honly, hregs, hsame, _⟩ := s.moves_gives
    refine ⟨_, rfl, honly, hregs, hsame, ?_⟩
    rw [State.step1_me, id]
    refine ⟨fun hend hback => ?sent, fun hend hback => ?left, fun hinner hend => ?outer, fun hend => ?none⟩
    case sent =>
      rw [Ctx.advance_inner_sent hend hback]
      exact ⟨rfl, rfl, rfl⟩
    case left =>
      rw [Ctx.advance_inner_left hend hback]
      exact ⟨Ctx.outerEnds_lp1 _, fun h0 => Ctx.outerEnds_none (c := { s.me with lp1 := s.me.lp1.whenLeft }) h0 _⟩
    case outer =>
      obtain ⟨l, next, hadvance⟩ := Ctx.advance_outer hinner
      rw [hadvance]
      exact ⟨fun hback => Ctx.outerEnds_sent (c := { s.me with lp1 := l }) hend hback next,
        fun hback => Ctx.outerEnds_left (c := { s.me with lp1 := l }) hend hback next⟩
    case none =>
      rw [Ctx.advance_no_inner hend]
      exact ⟨Ctx.outerEnds_lp1 _, fun h0 => Ctx.outerEnds_none h0 _⟩

end Sys2Proof.Machine
end

section
/-! How tasks start and end (09_tasks): spawn (R211), halt, halt.k and tail (R216, R217), taskid and ident (R105, R232), yield (R210). -/

namespace Sys2Proof.Machine

/-! ### Outside an attempt, with nothing outstanding -/

section
variable {s : State}

theorem State.unlessAttempt_outside (h : s.me.attempt = none) (w : Word32) (f : State → State) : s.unlessAttempt w f = f s := by
  rw [State.unlessAttempt, h]; rfl

theorem State.afterOuts_nil (h : s.me.outs = []) (want : Out → Bool) (f : State → State) : s.afterOuts want f = f s := by
  rw [State.afterOuts, State.require_nil s s.cur want h]

end

/-! ### The end of a context (R202, R216) -/

theorem State.dropToken_frame (s : State) (k : Nat) : s.dropToken k = { s with quarters := (s.dropToken k).quarters } := by
  unfold State.dropToken
  dsimp only
  split <;> rfl

theorem State.endAttempt_frame (s : State) (k : Nat) : s.endAttempt k =
    { s with ctxs := (s.endAttempt k).ctxs, slices := (s.endAttempt k).slices, quarters := (s.endAttempt k).quarters } := by
  unfold State.endAttempt
  rw [State.dropToken_frame]
  rfl

theorem State.endAttempt_ctx (s : State) (k : Nat) :
    (s.endAttempt k).ctx k = { s.ctx k with jacks := [], attempt := none, series := none } := by
  have hjacks : (s.freeJacks k).ctx k = { s.ctx k with jacks := [] } := State.onCtx_ctx_same s k fun c => { c with jacks := [] }
  rw [State.endAttempt, State.onCtx_ctx_same, State.dropToken_frame]
  show { (s.freeJacks k).ctx k with attempt := none, series := none } = _
  rw [hjacks]

theorem State.release_frame (s : State) (k : Nat) : s.release k = { s with gangs := (s.release k).gangs } := by
  unfold State.release
  split <;> rfl

theorem State.restBanks_frame (s : State) (quad : Nat) : s.restBanks quad = { s with quads := (s.restBanks quad).quads } := by
  unfold State.restBanks
  split <;> rfl

theorem State.launchTaskEnded_frame (s : State) (l : Option Nat) (killed : Bool) :
    s.launchTaskEnded l killed = { s with cp := (s.launchTaskEnded l killed).cp } := by
  cases l <;> rfl

/-- A context that ends leaves physical memory, the cores and whose turn it is as they are. -/
theorem State.freeContext_frame (s : State) (k : Nat) :
    (s.freeContext k).mem = s.mem ∧ (s.freeContext k).cores = s.cores ∧ (s.freeContext k).cur = s.cur := by
  unfold State.freeContext
  rw [State.restBanks_frame, State.release_frame, State.endAttempt_frame]
  exact ⟨rfl, rfl, rfl⟩

/-- What is left of a context that ends. -/
theorem State.freeContext_ctx (s : State) (k : Nat) :
    (s.freeContext k).ctx k = ({ s.ctx k with jacks := [], attempt := none, series := none } : Ctx).freed := by
  rw [State.freeContext, State.restBanks_frame]
  show (((s.endAttempt k).release k).onCtx k Ctx.freed).ctx k = _
  rw [State.onCtx_ctx_same, State.release_frame]
  exact congrArg _ (s.endAttempt_ctx k)

/-- The context whose turn it is ends, as a task of its launch: it is free, with the registers it had, and nothing of it is outstanding; physical
memory and the cores are as they were. -/
theorem taskEnded_frees (s : State) (l : Option Nat) :
    let t := (s.launchTaskEnded l false).freeContext s.cur
    t.me.status = .free ∧ t.me.outs = [] ∧ t.me.regs = s.me.regs ∧ s.mem = t.mem ∧ ∀ k, t.core k = s.core k := by
  dsimp only
  obtain ⟨hmem, hcores, hcur⟩ := (s.launchTaskEnded l false).freeContext_frame s.cur
  have hctx := (s.launchTaskEnded l false).freeContext_ctx s.cur
  rw [State.launchTaskEnded_frame] at hmem hcores hcur hctx
  rw [State.launchTaskEnded_frame, State.me, hcur, hctx]
  refine ⟨rfl, rfl, rfl, hmem.symm, fun k => ?_⟩
  rw [State.core, hcores]
  rfl

section
variable {s : State} (houts : s.me.outs = [])
include houts

/-- halt of a task that has nothing outstanding (R216). -/
theorem halt_task (htask : isHandler s.cur = false) (before : State → State) :
    s.halt before = ((before s).launchTaskEnded s.me.task.launch false).freeContext s.cur := by
  rw [State.halt, State.afterOuts_nil houts]
  simp only [htask, Bool.false_and, Bool.false_eq_true, if_false]

/-- tail with nothing outstanding, which needs no entry of the tracker (R217). -/
theorem tail_task (hroom : (s.core s.myCore).tracker.length < 8) :
    s.tail = (s.launchTaskEnded s.me.task.launch false).freeContext s.cur := by
  rw [State.tail, State.afterOuts_nil houts]
  simp only [Nat.not_le.2 hroom, if_false, houts, List.filter_nil, List.isEmpty_nil, if_true]

end

/-- The core of the context whose turn it is keeps a retention (R177). -/
def State.retaining (s : State) (banks entry : Word) : State := s.onCore s.myCore fun c => { c with retain := some (banks, entry) }

theorem State.retaining_retain (s : State) (banks entry : Word) : ((s.retaining banks entry).core s.myCore).retain = some (banks, entry) :=
  congrArg Core.retain (State.onCore_core_same s s.myCore fun c => { c with retain := some (banks, entry) })

section
variable {s : State} (hattempt : s.me.attempt = none) (houts : s.me.outs = []) (htask : isHandler s.cur = false) (sb : Bool)
include hattempt houts htask

theorem exec_halt : exec (.halt sb) s = .next ((s.launchTaskEnded s.me.task.launch false).freeContext s.cur) := by
  show execHalt sb s = _
  rw [execHalt, State.unlessAttempt_outside hattempt, halt_task houts htask, id]

theorem exec_haltK (a b : BitVec 5) : exec (.haltK sb a b) s = .next (((s.retaining (s.me.getX a &&& fieldMask (bankCount s.myLayer) 0)
    (s.me.getX b)).launchTaskEnded s.me.task.launch false).freeContext s.cur) := by
  show execHaltK sb a b s = _
  rw [execHaltK, State.unlessAttempt_outside hattempt, if_neg (by rw [htask]; decide), halt_task houts htask]
  rfl

theorem exec_tail (hroom : (s.core s.myCore).tracker.length < 8) :
    exec (.tail sb) s = .next ((s.launchTaskEnded s.me.task.launch false).freeContext s.cur) := by
  show execTail sb s = _
  rw [execTail, State.unlessAttempt_outside hattempt, if_neg (by rw [htask]; decide), tail_task houts hroom]

end

/-! ### Spawn (R211) -/

theorem onlyTlb.core {s t : State} (h : onlyTlb s t) (k : Nat) : t.core k = s.core k := by rw [h.1]; rfl
theorem onlyTlb.myCore {s t : State} (h : onlyTlb s t) : t.myCore = s.myCore := congrArg coreOf h.cur
theorem onlyTlb.myQuad {s t : State} (h : onlyTlb s t) : t.myQuad = s.myQuad := congrArg quadOf h.cur

theorem checkAccess_onlyTlb (s : State) (k : Nat) (kind : Kind) (a : Word) (n align : Nat) : onlyTlb s (checkAccess s k kind a n align).2 := by
  unfold checkAccess
  split
  · exact .refl s
  · split
    · exact .refl s
    · exact globalCheck_onlyTlb ..

/-- A record at a checked reference is read at once where nothing is outstanding. -/
theorem readRecord_granted {s s' : State} {a : Word} {n : Nat} {r : Ref} (hcheck : checkAccess s s.cur .load a n n = (.ok r, s'))
    (houts : s'.me.outs = []) (cont : List Byte → State → State) :
    s.readRecord a n cont = cont ((r.span n).map (s'.readByte s'.myQuad false)) s' := by
  rw [State.readRecord, hcheck]
  exact State.afterOuts_nil houts _ _

/-- With nothing outstanding a task's first access waits for nothing. -/
theorem gate_of_no_outs {c : Ctx} (h : c.outs = []) (k ahead : Nat) : c.gate k ahead = none := by
  rw [Ctx.gate, h]; rfl

section
variable {s s' : State} {sb : Bool} {a : BitVec 5} {r : Ref} (hattempt : s.me.attempt = none) (houts : s.me.outs = [])
  (hcheck : checkAccess s s.cur .load (s.me.getX a) 64 64 = (.ok r, s'))
  (hok : (RecFields.of ((r.span 64).map (s'.readByte s.myQuad false))).ok = true)
  (hroom : queueHasRoom (s.core s.myCore).queue.length (RecFields.of ((r.span 64).map (s'.readByte s.myQuad false))).pri = true)
include hattempt houts hcheck hok hroom

/-- spawn with a record that its core takes. -/
theorem exec_spawn : exec (.spawn sb a) s = .next
    ((s'.enqueue s.myCore (spawnRecord s.me (RecFields.of ((r.span 64).map (s'.readByte s.myQuad false))) none)).step1 id) := by
  have htlb : onlyTlb s s' := by simpa only [hcheck] using checkAccess_onlyTlb s s.cur .load (s.me.getX a) 64 64
  show execSpawn sb a s = _
  simp only [execSpawn, State.unlessAttempt_outside hattempt, readRecord_granted hcheck (htlb.me.symm ▸ houts), htlb.myQuad, htlb.me,
    htlb.core, htlb.myCore, hok, hroom, Bool.not_true, Bool.false_eq_true, if_false, gate_of_no_outs houts]
  rfl

theorem spawn_enqueues : ∃ t : State, exec (.spawn sb a) s = .next t ∧ sameMem s t ∧ sameRegs s.me t.me ∧ goesOn s.me t.me ∧
    (t.core s.myCore).queue = (s.core s.myCore).queue ++
      [spawnRecord s.me (RecFields.of ((r.span 64).map (s'.readByte s.myQuad false))) none] := by
  have htlb : onlyTlb s s' := by simpa only [hcheck] using checkAccess_onlyTlb s s.cur .load (s.me.getX a) 64 64
  refine ⟨_, exec_spawn hattempt houts hcheck hok hroom, htlb.sameMem, ?_⟩
  obtain ⟨-, -, hregs, hgoes⟩ := s'.moves_gives
  rw [htlb.me] at hregs hgoes
  refine ⟨hregs, hgoes, ?_⟩
  show ((s'.enqueue s.myCore _).core s.myCore).queue = _
  rw [State.enqueue, State.onCore_core_same, htlb.core]

end

/-! ### The words of taskid and ident, and the statement -/

theorem taskidWord_eq (s : State) : taskidWord s = BitVec.ofNat 64 (if isHandler s.cur
    then (s.core s.myCore).queue.length * 2 ^ 36 + 3 * 2 ^ 34 + 7 * 2 ^ 30
    else (s.core s.myCore).queue.length * 2 ^ 36 + s.me.task.pri * 2 ^ 34 + (if s.me.task.stolen then 2 ^ 33 else 0) +
      s.me.task.src * 2 ^ 30 + s.cur % 8 * 2 ^ 28 + s.me.task.seq) := by
  rw [taskidWord]
  split <;> rfl

/-- The quad of a context is that of its core. -/
theorem quadOfCore_coreOf (k : Nat) : quadOfCore (coreOf k) = quadOf k := Nat.div_div_eq_div_mul k 8 4

theorem identOf_me (s : State) : identOf s.module s.cur = BitVec.ofNat 64
    (s.module * 2 ^ 32 + (if isHandler s.cur then 2 ^ 18 else s.cur % 8 * 2 ^ 19) + quarterOf s.myQuad * 2 ^ 14 + s.myCore) := by
  rw [State.myQuad, ← quadOfCore_coreOf]
  rfl

/-- Settles O21: what each instruction does outside an attempt with nothing outstanding. -/
theorem tasksStartAndEnd : Obligations.TasksStartAndEnd := by
  intro s sb d a b hattempt houts
  refine ⟨fun r s' hcheck hok hroom => ?spawn, fun htask => ?halt, fun htask => ?haltK, fun htask hroom => ?tail, ?taskid, ?ident, ?yield⟩
  case spawn => exact spawn_enqueues hattempt houts hcheck hok hroom
  case halt =>
    obtain ⟨hfree, hnone, hregs, hmem, hcore⟩ := taskEnded_frees s s.me.task.launch
    exact ⟨_, exec_halt hattempt houts htask sb, hfree, hnone, hregs, hmem, hcore _⟩
  case haltK =>
    obtain ⟨hfree, -, -, hmem, hcore⟩ :=
      taskEnded_frees (s.retaining (s.me.getX a &&& fieldMask (bankCount s.myLayer) 0) (s.me.getX b)) s.me.task.launch
    exact ⟨_, exec_haltK hattempt houts htask sb a b, hfree, hmem, (congrArg Core.retain (hcore _)).trans (s.retaining_retain ..)⟩
  case tail =>
    obtain ⟨hfree, -, -, hmem, hcore⟩ := taskEnded_frees s s.me.task.launch
    exact ⟨_, exec_tail hattempt houts htask sb hroom, hfree, hmem, hcore _⟩
  case taskid => exact execs_givesX rfl (taskidWord_eq s)
  case ident => exact execs_givesX rfl (identOf_me s)
  case yield =>
    obtain ⟨-, -, hregs, hgoes⟩ := (s.onCore s.myCore fun c => { c with rr := s.cur % 8 + 1 }).moves_gives
    have hcore := State.onCore_core_same s s.myCore fun c => { c with rr := s.cur % 8 + 1 }
    exact ⟨_, rfl, congrArg Core.rr hcore, .refl s, hregs, hgoes⟩

end Sys2Proof.Machine
end

section
/-! The state after reset, and the steps that take a register write or a decoded instruction: where what they leave differs from what is said
of them (R95, R103, R310). -/

namespace Sys2Proof.Machine

/-- Settles O60: each value is the default of its structure, and every table is empty. -/
theorem resetState : Obligations.ResetState :=
  ⟨State.reset_canonical, rfl, rfl, rfl, rfl, fun _ => ⟨rfl, rfl, rfl, rfl, rfl, rfl, rfl, rfl, rfl, rfl⟩, fun _ => ⟨rfl, rfl, rfl, rfl, rfl⟩,
    fun _ => ⟨rfl, rfl, rfl, rfl⟩, fun _ => ⟨rfl, rfl⟩, fun _ => rfl, fun _ => ⟨rfl, rfl⟩⟩

/-! ### A register write as a step of its own (R95, R103) -/

/-- A context that is to open a window, and a step that writes 0 to the XBOUND of its quad. -/
def xboundToZero : State := { ctxs := [(0, { status := .running })], ev := [0] }

/-- The step counts a position of the window as an instruction does, and does not take it off again: a context whose next instruction opens a
window keeps the count that `State.alone` has raised. -/
theorem xboundToZero_window : ∃ t : State, exec .xboundWrite xboundToZero = .next t ∧ t.me.window = xboundToZero.me.window + 1 :=
  ⟨_, rfl, rfl⟩

/-- Refutes O27: the write of `xboundToZero` is of a value that XBOUND takes, and leaves the window's count of its context one higher than it
stood, where the statement has nothing of the context change. -/
theorem not_registerWriteSteps : ¬ Obligations.RegisterWriteSteps := by
  intro h
  obtain ⟨hwrites, _⟩ := h xboundToZero 0 0 rfl rfl (by decide)
  obtain ⟨hxbound, _⟩ := hwrites rfl
  obtain ⟨t, hexec, _, _, hme⟩ := hxbound ⟨rfl, Nat.zero_le _⟩
  obtain ⟨u, hcounts, hwindow⟩ := xboundToZero_window
  obtain rfl : t = u := Host.Outcome.next.inj (hexec.symm.trans hcounts)
  rw [hme] at hwindow
  exact absurd hwindow (Nat.succ_ne_self _).symm

/-! ### The start of an operation behind an unanswered waitge (R310, R323) -/

/-- The launch of copy context 0, by a read of CPGO0. -/
def copyLaunch : Instr := .cpgoRead false 0 0

/-- A context whose next word launches a copy, with a waitge outstanding whose counter is below its threshold. -/
def launchBehindWaitge : State :=
  { ctxs := [(0, { status := .running, ibuf := [(0, copyLaunch.word)], nextSeq := 1
                   outs := [{ seq := 0, pc := 0, op := .waitge { isLocal := false, addr := 0 } 1 1 }] })]
    quads := [(0, { xbound := 0x1000 })], agenda := [.turn 0] }

/-- The address at which the context whose turn it is goes on. -/
def nextPc (r : Result) : Option Word := match r with | .next t => some t.me.pc | _ => none

/-- The context waits for the answer at the launch (R310; log 5). -/
theorem launchBehindWaitge_waits : nextPc (step launchBehindWaitge) = some 0 := rfl

/-- The state in which its word issues: fetched and counted, with the time base one further. -/
def launchIssued : State := { (fetch { launchBehindWaitge with agenda := [] }).2.counted false with now := 1 }

/-- The meaning of an instruction, with what its issue leaves behind it. -/
def meaningAfter (i : Instr) (s : State) : Result := match exec i s with | .next t => .next (State.after s i t) | r => r

/-- The meaning of the launch itself goes on past it. -/
theorem launchIssued_goesOn : nextPc (meaningAfter copyLaunch launchIssued) = some 4 := rfl

/-- Refutes O57: a launch of the copy engine is no memory access of its context, so that the statement has it issue behind the unanswered waitge
of `launchBehindWaitge`; the step waits there, for the operation's accesses come after the answer. -/
theorem not_stepRunsDecoded : ¬ Obligations.StepRunsDecoded := by
  intro h
  obtain ⟨hturn, _⟩ := h
  obtain ⟨_, _, hdecoded⟩ := hturn launchBehindWaitge 0 [] copyLaunch
  obtain ⟨hdoes, _⟩ := hdecoded rfl (by decide) rfl rfl rfl rfl rfl rfl (.inl rfl) (.inr ⟨rfl, rfl⟩)
    (by decide) (by decide) (.inl rfl) (by decide)
  have hstep : step launchBehindWaitge = meaningAfter copyLaunch launchIssued := hdoes (by decide) (.inl rfl)
  have hpc : (0 : Word) = 4 := Option.some.inj <| calc
    some 0 = nextPc (step launchBehindWaitge) := launchBehindWaitge_waits.symm
    _ = nextPc (meaningAfter copyLaunch launchIssued) := congrArg nextPc hstep
    _ = some 4 := launchIssued_goesOn
  exact absurd hpc (by decide)

end Sys2Proof.Machine
end

section
/-! Fetch, translations and caches (04_control R104; 10_system R261, R266 to R268; 08_global R188 to R194; 01_machine R176). -/

namespace Sys2Proof.Machine

/-- What holds of every entry of a table and of the default holds of what is read. -/
theorem Map.get_of_forall {α : Type} {P : α → Prop} {m : Map α} {d : α} (h : ∀ e ∈ m, P e.2) (hd : P d) (k : Nat) : P (m.get d k) := by
  induction m with
  | nil => exact hd
  | cons e m ih =>
    obtain ⟨j, v⟩ := e
    rw [Map.get]
    split
    · exact h (j, v) List.mem_cons_self
    · exact ih fun e he => h e (List.mem_cons_of_mem _ he)

/-- A key whose entry is read as something that the default does not have is listed with it. -/
theorem Map.mem_of_get {α : Type} {P : α → Prop} {m : Map α} {d : α} {k : Nat} (h : P (m.get d k)) (hd : ¬ P d) : ∃ v, (k, v) ∈ m ∧ P v := by
  induction m with
  | nil => exact absurd h hd
  | cons e m ih =>
    obtain ⟨j, v⟩ := e
    rw [Map.get] at h
    split at h
    next hk => exact ⟨v, hk ▸ List.mem_cons_self, h⟩
    next =>
      obtain ⟨w, hw, hP⟩ := ih h
      exact ⟨w, List.mem_cons_of_mem _ hw, hP⟩

/-! ### ifence (R104) -/

theorem neededOuts_unwanted {want : Out → Bool} {l : List Out} (h : ∀ o ∈ l, o.pending = true → want o = false) : neededOuts want l = [] := by
  induction l with
  | nil => rfl
  | cons o l ih =>
    have hl : neededOuts want l = [] := ih fun p hp => h p (List.mem_cons_of_mem _ hp)
    rw [neededOuts, List.foldr_cons, ← neededOuts, hl]
    cases hp : o.pending with
    | false => rfl
    | true => simp [h o List.mem_cons_self hp]

theorem State.afterOuts_unwanted {s : State} {want : Out → Bool} (h : ∀ o ∈ s.me.outs, o.pending = true → want o = false) (f : State → State) :
    s.afterOuts want f = f s := by
  rw [State.afterOuts, State.require, show neededOuts want (s.ctx s.cur).outs = [] from neededOuts_unwanted h]
  rfl

theorem ifence_empties {s : State} (sb : Bool) (hattempt : s.me.attempt = none)
    (houts : ∀ o ∈ s.me.outs, o.pending = true → (o.isStore && o.isLocal) = false) :
    ∃ t : State, exec (.ifence sb) s = .next t ∧ onlyMe s t ∧ sameRegs s.me t.me ∧ goesOn s.me t.me ∧ t.me.ibuf = [] := by
  have hexec : exec (.ifence sb) s = .next (s.step1 fun c => { c with ibuf := [] }) := by
    show execIfence sb s = _
    rw [execIfence, State.unlessAttempt_outside hattempt, State.afterOuts_unwanted houts]
  refine ⟨_, hexec, State.onMe_onlyMe _ _, ?_, ?_, ?_⟩ <;> rw [State.step1_me]
  · exact ⟨Ctx.advance_regs _, Ctx.advance_later _, Ctx.advance_free _⟩
  · exact fun h0 h1 => Ctx.advance_pc { s.me with ibuf := [] } h0 h1
  · rw [Ctx.advance_frame]

/-! ### Invalidations (R194, R266, R267) -/

/-- Nothing stands in the way of an invalidation: no access, no task that ends, no member of a gang, no attempt. -/
structure State.Undisturbed (s : State) : Prop where
  ctxs : ∀ e ∈ s.ctxs, e.2.outs = [] ∧ e.2.status ≠ .ending
  cores : ∀ e ∈ s.cores, e.2.tracker = []
  gangs : s.gangs = []
  attempts : noAttempts s

section
variable {s : State} (hquiet : s.Undisturbed)
include hquiet

theorem State.Undisturbed.ctx (k : Nat) : (s.ctx k).outs = [] ∧ (s.ctx k).status ≠ .ending :=
  Map.get_of_forall (P := fun c : Ctx => c.outs = [] ∧ c.status ≠ .ending) hquiet.ctxs ⟨rfl, by decide⟩ k

theorem State.Undisturbed.endIfDone (k : Nat) : s.endIfDone k = s := by
  have hmay : s.mayFree k = false := by simp [State.mayFree, (hquiet.ctx k).2]
  rw [State.endIfDone, hmay]
  rfl

theorem State.Undisturbed.drainContexts (quarters : Nat) (pages : List Tlb) : s.drainContexts quarters pages = (s, true) := by
  unfold State.drainContexts
  refine List.foldlRecOn (motive := fun acc => acc = (s, true)) s.ctxs _ rfl fun acc hacc e _ => ?_
  rw [hacc]
  split
  · simp only [State.require_nil s e.1 _ (hquiet.ctx e.1).1, hquiet.endIfDone, Bool.and_self]
  · rfl

theorem State.Undisturbed.drainTrackers (quarters : Nat) (pages : List Tlb) : s.drainTrackers quarters pages = (s, true) := by
  have hnone : ∀ e ∈ s.cores, (quarters.testBit (quarterOf (quadOfCore e.1)) && e.2.tracker.any fun t => t.2.any fun o => pages.any o.uses) = false :=
    fun e he => by simp [hquiet.cores e he]
  have hfilter := List.filter_eq_nil_iff.2 fun e he => Bool.eq_false_iff.1 (hnone e he)
  have hany := List.any_eq_false.2 fun e he => Bool.eq_false_iff.1 (hnone e he)
  simp only [State.drainTrackers, hfilter, List.foldl_nil, hany, Bool.not_false]

theorem State.Undisturbed.dueThrough (quarters : Nat) (hit : Tlb → Bool) : s.dueThrough quarters hit = s := by
  rw [State.dueThrough, hquiet.gangs]
  exact congrArg (fun g => { s with gangs := g }) hquiet.gangs.symm

theorem State.Undisturbed.dueWords (quarters : Nat) (pages : List Tlb) : s.dueWords quarters pages = s := by
  rw [State.dueWords, hquiet.gangs]
  exact congrArg (fun g => { s with gangs := g }) hquiet.gangs.symm

theorem State.Undisturbed.not_heldBack (quarters : Nat) (pages : List Tlb) : heldBack s quarters pages = false := by
  refine List.any_eq_false.2 fun e he => ?_
  have hopen : e.2.openAttempt = none := by rw [Ctx.openAttempt, hquiet.attempts.1 e he]
  simp [hopen]

/-- What used the translations has come to an end. -/
theorem State.Undisturbed.pagesDone (quarters : Nat) (hit : Tlb → Bool) : s.pagesDone quarters hit true = (s, true) := by
  rw [State.pagesDone, State.drainPages]
  simp only [hquiet.drainContexts, hquiet.drainTrackers, Bool.and_self, hquiet.dueThrough, hquiet.dueWords, hquiet.not_heldBack,
    unreadThrough, hquiet.gangs, List.any_nil, Bool.or_self, Bool.not_false]

theorem State.Undisturbed.invalidate {p : Nat} {part : Part} (hpart : s.partOf s.cur = some (p, part)) (hit : Tlb → Bool)
    (hitRecord : CachedRecord → Bool) : s.invalidate hit hitRecord = (s.dropPages part.quarters hit hitRecord).step1 id := by
  rw [State.invalidate, hpart]
  simp only [hquiet.pagesDone]

end

/-- A block of 64 KiB is promoted on a die, or has a hint there. -/
def State.marks (s : State) (die b : Nat) : Prop := b ∈ (s.die die).promoted ∨ (s.die die).hints.has b = true

/-- Does a page hold a byte of a block? -/
def Tlb.meets (t : Tlb) (b : Nat) : Prop := t.pa < 65536 * (b + 1) ∧ 65536 * b < t.pa + 2 ^ t.bits

theorem State.demote_die (s : State) (lo hi die : Nat) : (s.demote lo hi).die die =
    { s.die die with
      promoted := (s.die die).promoted.filter fun b => decide ((b + 1) * 65536 ≤ lo) || decide (hi ≤ b * 65536)
      hints := (s.die die).hints.filter fun e => decide ((e.1 + 1) * 65536 ≤ lo) || decide (hi ≤ e.1 * 65536) } := by
  rw [State.die, State.demote, Map.get_mapVals] <;> rfl

theorem State.marks_of_demote {s : State} {t : Tlb} {die b : Nat} (h : (s.demote t.pa (t.pa + 2 ^ t.bits)).marks die b) :
    s.marks die b ∧ ¬ t.meets b := by
  rw [State.marks, State.demote_die] at h
  obtain h | h := h
  · obtain ⟨hmem, hout⟩ := List.mem_filter.1 h
    refine ⟨.inl hmem, fun hmeets => ?_⟩
    simp only [Tlb.meets, Bool.or_eq_true, decide_eq_true_eq] at hmeets hout
    omega
  · obtain ⟨e, he, hkey⟩ := List.any_eq_true.1 h
    obtain ⟨hmem, hout⟩ := List.mem_filter.1 he
    obtain rfl : e.1 = b := by simpa using hkey
    refine ⟨.inr (List.any_eq_true.2 ⟨e, hmem, hkey⟩), fun hmeets => ?_⟩
    simp only [Tlb.meets, Bool.or_eq_true, decide_eq_true_eq] at hmeets hout
    omega

/-- The blocks of pages that are demoted one after another are promoted and hinted no more. -/
theorem State.marks_of_demotes {pages : List Tlb} {s : State} {die b : Nat}
    (h : (pages.foldl (fun s t => s.demote t.pa (t.pa + 2 ^ t.bits)) s).marks die b) : s.marks die b ∧ ∀ t ∈ pages, ¬ t.meets b := by
  induction pages generalizing s with
  | nil => exact ⟨h, fun t ht => absurd ht List.not_mem_nil⟩
  | cons t pages ih =>
    obtain ⟨hmarks, hrest⟩ := ih h
    obtain ⟨hs, ht⟩ := State.marks_of_demote hmarks
    exact ⟨hs, List.forall_mem_cons.2 ⟨ht, hrest⟩⟩

/-- Only what dies hold differs. -/
def onlyDies (s t : State) : Prop := t = { s with dies := t.dies }

theorem demotes_onlyDies (pages : List Tlb) (s : State) :
    onlyDies s (pages.foldl (fun s t => s.demote t.pa (t.pa + 2 ^ t.bits)) s) := by
  induction pages generalizing s with
  | nil => rfl
  | cons t pages ih => rw [List.foldl_cons, onlyDies, ih (s.demote t.pa (t.pa + 2 ^ t.bits))]; rfl

section
variable (s : State) (quarters : Nat) (hit : Tlb → Bool) (hitRecord : CachedRecord → Bool)

theorem State.dropPages_onlyDies : onlyDies (s.flushTlb quarters hit hitRecord) (s.dropPages quarters hit hitRecord) := demotes_onlyDies _ _

theorem State.flushTlb_quad (q : Nat) : (s.flushTlb quarters hit hitRecord).quad q =
    if quarters.testBit (quarterOf q) then
      { s.quad q with tlb := (s.quad q).tlb.filter fun t => !hit t, records := (s.quad q).records.filter fun r => !hitRecord r }
    else s.quad q := by
  rw [State.quad, State.flushTlb, Map.get_mapVals]
  · rfl
  · split <;> rfl

theorem State.flushTlb_quarter (q : Nat) : (s.flushTlb quarters hit hitRecord).quarter q =
    if quarters.testBit q then
      { s.quarter q with tlb := (s.quarter q).tlb.filter fun t => !hit t, used := (s.quarter q).used.filter fun t => !hit t }
    else s.quarter q := by
  rw [State.quarter, State.flushTlb, Map.get_mapVals]
  · rfl
  · split <;> rfl

theorem State.dropPages_quad (q : Nat) :
    (s.dropPages quarters hit hitRecord).quad q = (s.flushTlb quarters hit hitRecord).quad q := by rw [s.dropPages_onlyDies]; rfl

theorem State.dropPages_quarter (q : Nat) :
    (s.dropPages quarters hit hitRecord).quarter q = (s.flushTlb quarters hit hitRecord).quarter q := by rw [s.dropPages_onlyDies]; rfl

theorem State.dropPages_sameMem : sameMem s (s.dropPages quarters hit hitRecord) := by
  refine ⟨fun a => by rw [s.dropPages_onlyDies]; rfl, fun q a => ?_⟩
  rw [State.dropPages_quad, State.flushTlb_quad]
  split <;> rfl

theorem State.dropPages_me : (s.dropPages quarters hit hitRecord).me = s.me := by rw [s.dropPages_onlyDies]; rfl

variable {s quarters hit}

/-- No TLB of a quad of the quarters holds a page that is dropped, nor does one of the quarters themselves. -/
theorem State.dropPages_quad_misses {q : Nat} (hq : quarters.testBit (quarterOf q) = true) {e : Tlb}
    (he : e ∈ ((s.dropPages quarters hit hitRecord).quad q).tlb) : hit e = false := by
  rw [State.dropPages_quad, State.flushTlb_quad, if_pos hq] at he
  simpa using (List.mem_filter.1 he).2

theorem State.dropPages_quarter_misses {q : Nat} (hq : quarters.testBit q = true) {e : Tlb}
    (he : e ∈ ((s.dropPages quarters hit hitRecord).quarter q).tlb) : hit e = false := by
  rw [State.dropPages_quarter, State.flushTlb_quarter, if_pos hq] at he
  simpa using (List.mem_filter.1 he).2

/-- A page of a quad's or a quarter's TLB that a test selects is among those that an invalidation removes. -/
theorem mem_cachedPages {e : Tlb} (hhit : hit e = true)
    (h : (∃ q, quarters.testBit (quarterOf q) = true ∧ e ∈ (s.quad q).tlb) ∨ ∃ q, quarters.testBit q = true ∧ e ∈ (s.quarter q).tlb) :
    e ∈ cachedPages s quarters hit := by
  refine List.mem_append.2 (h.imp (fun ⟨q, hq, he⟩ => ?_) fun ⟨q, hq, he⟩ => ?_)
  · obtain ⟨v, hv, hev⟩ := Map.mem_of_get (P := fun v : Quad => e ∈ v.tlb) he List.not_mem_nil
    exact List.mem_flatMap.2 ⟨_, hv, by rw [if_pos hq]; exact List.mem_filter.2 ⟨hev, hhit⟩⟩
  · obtain ⟨v, hv, hev⟩ := Map.mem_of_get (P := fun v : Quarter => e ∈ v.tlb) he List.not_mem_nil
    exact List.mem_flatMap.2 ⟨_, hv, by rw [if_pos hq]; exact List.mem_filter.2 ⟨List.mem_append_left _ hev, hhit⟩⟩

/-- The blocks of such a page are promoted and hinted no more. -/
theorem State.dropPages_unmarks {e : Tlb} (he : e ∈ cachedPages s quarters hit) {die b : Nat} (hmeets : e.meets b) :
    b ∉ ((s.dropPages quarters hit hitRecord).die die).promoted ∧ ((s.dropPages quarters hit hitRecord).die die).hints.has b = false := by
  have hnone : ¬ (s.dropPages quarters hit hitRecord).marks die b := fun h => (State.marks_of_demotes h).2 e he hmeets
  exact ⟨fun h => hnone (.inl h), Bool.eq_false_iff.2 fun h => hnone (.inr h)⟩

end

/-- What an invalidation of the pages that `hits` names leaves, by the context whose turn it is, of a partition's translations (R194, R266). -/
theorem invalidate_drops {s : State} {i : Instr} {p : Nat} {part : Part} {hit : Tlb → Bool} {hitRecord : CachedRecord → Bool}
    {hits : Tlb → Prop} (hquiet : s.Undisturbed) (hpart : s.partOf s.cur = some (p, part)) (hiff : ∀ e, hit e = true ↔ hits e)
    (hexec : exec i s = .next (s.invalidate hit hitRecord)) :
    ∃ t : State, exec i s = .next t ∧ sameMem s t ∧ sameRegs s.me t.me ∧ goesOn s.me t.me ∧
      (∀ q, part.quarters.testBit (quarterOf q) = true → ∀ e ∈ (t.quad q).tlb, ¬ hits e) ∧
      (∀ q, part.quarters.testBit q = true → ∀ e ∈ (t.quarter q).tlb, ¬ hits e) ∧
      ∀ e, (hits e ∧ ((∃ q, part.quarters.testBit (quarterOf q) = true ∧ e ∈ (s.quad q).tlb) ∨
          ∃ q, part.quarters.testBit q = true ∧ e ∈ (s.quarter q).tlb)) →
        ∀ die b, e.pa < 65536 * (b + 1) → 65536 * b < e.pa + 2 ^ e.bits →
          b ∉ (t.die die).promoted ∧ (t.die die).hints.has b = false := by
  rw [hquiet.invalidate hpart] at hexec
  obtain ⟨-, -, hregs, hgoes⟩ := (s.dropPages part.quarters hit hitRecord).moves_gives
  rw [State.dropPages_me] at hregs hgoes
  have hmiss {e : Tlb} (h : hit e = false) : ¬ hits e := fun hh => absurd ((hiff e).2 hh) (by rw [h]; decide)
  refine ⟨_, hexec, s.dropPages_sameMem .., hregs, hgoes, fun q hq e he => hmiss (State.dropPages_quad_misses hitRecord hq he),
    fun q hq e he => hmiss (State.dropPages_quarter_misses hitRecord hq he), fun e ⟨hh, hheld⟩ die b hlo hhi => ?_⟩
  exact State.dropPages_unmarks hitRecord (mem_cachedPages ((hiff e).2 hh) hheld) ⟨hlo, hhi⟩

/-- Does an entry hold the page of a virtual address in a space, as tlbinv asks (R266)? -/
def Tlb.holds (pasid : Nat) (va : Word) (t : Tlb) : Bool :=
  t.pasid == pasid && (decide (t.base ≤ va.toNat) && decide (va.toNat < t.base + 2 ^ t.bits))

theorem Tlb.holds_iff (pasid : Nat) (va : Word) (t : Tlb) :
    t.holds pasid va = true ↔ t.pasid = pasid ∧ t.base ≤ va.toNat ∧ va.toNat < t.base + 2 ^ t.bits := by
  simp [Tlb.holds]

section
variable {s : State} (sb : Bool) {a : BitVec 5} (hattempt : s.me.attempt = none) (hsys : s.me.ctl.sys = true)
include hattempt hsys

/-- tlbinv of a global address (R266). -/
theorem exec_tlbinv (hlo : 0x400000 ≤ (s.me.getX a).toNat) (hhi : (s.me.getX a).toNat < 2 ^ 57) : ∃ hitRecord,
    exec (.tlbinv sb a) s = .next (s.invalidate (Tlb.holds s.me.ctl.pasid (s.me.getX a)) hitRecord) := by
  have hglobal : ¬ isLocal (s.me.getX a) = true := fun h => absurd (of_decide_eq_true h) (Nat.not_lt.2 hlo)
  have hhigh : ¬ fld (s.me.getX a) 57 7 ≠ 0 := by
    rw [not_not, fld, Nat.shiftRight_eq_div_pow, Nat.div_eq_of_lt hhi, Nat.zero_mod]
  rw [show exec (.tlbinv sb a) s = execTlbinv sb a s from rfl, execTlbinv, if_neg (by rw [hsys]; decide),
    State.unlessAttempt_outside hattempt, if_neg hglobal, if_neg hhigh]
  exact ⟨_, rfl⟩

/-- tlbinv.as of a space that the partition holds (R267). -/
theorem exec_tlbinvAs {p : Nat} {part : Part} (hpart : s.partOf s.cur = some (p, part)) (hhi : (s.me.getX a).toNat < 2 ^ 20)
    (hheld : ∃ e ∈ part.pasids, e.1 = (s.me.getX a).toNat) : ∃ hitRecord,
    exec (.tlbinvAs sb a) s = .next (s.invalidate (fun t => t.pasid == (s.me.getX a).toNat) hitRecord) := by
  have hhigh : fld (s.me.getX a) 20 44 = 0 := by rw [fld, Nat.shiftRight_eq_div_pow, Nat.div_eq_of_lt hhi, Nat.zero_mod]
  have hany : (part.pasids.any fun e => e.1 == (s.me.getX a).toNat) = true := by simpa using hheld
  rw [show exec (.tlbinvAs sb a) s = execTlbinvAs sb a s from rfl, execTlbinvAs, if_neg (by rw [hsys]; decide),
    State.unlessAttempt_outside hattempt, hpart]
  simp only [hhigh, hany]
  exact ⟨_, rfl⟩

end

/-! ### Counters (R268) -/

theorem coreIssued_eq (s : State) (core : Nat) : coreIssued s core =
    (s.ctx (8 * core + 0)).issued + (s.ctx (8 * core + 1)).issued + (s.ctx (8 * core + 2)).issued + (s.ctx (8 * core + 3)).issued +
      (s.ctx (8 * core + 4)).issued := by
  simp [coreIssued, show List.range 5 = [0, 1, 2, 3, 4] from rfl]

/-- perfrd gives xd a counter. -/
theorem perfrd_gives (s : State) (sb : Bool) (d a : BitVec 5) : ∃ t : State, exec (.perfrd sb d a) s = .next t ∧ sameMem s t ∧
    xGiven s.me t.me d (perfCounter s ((s.me.getX a).toNat % 2 ^ 8)) ∧ goesOn s.me t.me := by
  obtain ⟨-, -, hgiven, hgoes⟩ := State.writesX_gives { s with free := s.free + 1 } d (perfCounter s ((s.me.getX a).toNat % 2 ^ 8))
  exact ⟨_, rfl, .refl s, hgiven, hgoes⟩

/-! ### Steps of translations and caches (R176, R188, R189, R192, R193, R261) -/

theorem State.arg_of_ev {s : State} {l : List Nat} (h : s.ev = l) (i : Nat) : s.arg i = l.getD i 0 := by rw [State.arg, h]

/-- A walk that finds a page leaves it in the TLBs of the quad and its quarter, where both are empty (R261). -/
theorem translate_walked {s : State} {quad pasid va p : Nat} {part : Part} {e : Tlb}
    (hpart : s.partOfQuarter (quarterOf quad) = some (p, part)) (hwalk : walk s part pasid va = .page e)
    (hquad : (s.quad quad).tlb = []) (hquarter : (s.quarter (quarterOf quad)).tlb = []) :
    e ∈ ((translate s quad pasid va).2.quad quad).tlb ∧ e ∈ ((translate s quad pasid va).2.quarter (quarterOf quad)).tlb := by
  have htranslate : (translate s quad pasid va).2 = (s.onQuad quad fun q => { q with tlb := tlbPut q.tlb 128 e }).onQuarter (quarterOf quad)
      fun q => { q with tlb := tlbPut q.tlb 4096 e, used := if q.used.contains e then q.used else e :: q.used } := by
    rw [translate, hquad, hquarter, tlbFind, hpart]
    simp only [List.find?_nil, hwalk]
  rw [htranslate, State.onQuarter_quad, State.onQuad_quad_same, State.onQuarter_quarter_same]
  exact ⟨List.mem_cons_self, List.mem_cons_self⟩

section
variable {s : State} {die b : Nat} (hev : s.ev = [die, b])
include hev

theorem exec_blockPromotion (hblock : blockOfDie s die b = true) (hnew : (s.die die).promoted.contains b = false)
    (hroom : (s.die die).promoted.length < promotionBlocks) :
    exec .blockPromotion s = .next (s.onDie die fun d => { d with promoted := b :: d.promoted }) := by
  show execBlockPromotion s = _
  simp only [execBlockPromotion, State.when_, State.arg_of_ev hev, List.getD_cons_zero, List.getD_cons_succ, hblock, hnew, hroom,
    decide_true, Bool.not_false, Bool.and_self, if_true]

theorem exec_blockEviction : exec .blockEviction s = .next
    (if (s.die die).promoted.contains b && (!(s.die die).keeps b || (s.die die).promoted.all (s.die die).keeps)
      then s.onDie die fun d => { d with promoted := d.promoted.filter (· != b) } else s) := by
  show execBlockEviction s = _
  simp only [execBlockEviction, State.when_, State.arg_of_ev hev, List.getD_cons_zero, List.getD_cons_succ]

theorem exec_cacheLineEviction : exec .cacheLineEviction s = .next (s.onDie die fun d => { d with rdc := d.rdc.drop b }) := by
  show execCacheLineEviction s = _
  simp only [execCacheLineEviction, State.arg_of_ev hev, List.getD_cons_zero, List.getD_cons_succ]

theorem exec_bankPowerUp (hquad : s.build.hasQuad die = true) (hbank : b < bankCount (quadLayer die)) :
    exec .bankPowerUp s = .next (s.powerUp die b) := by
  show execBankPowerUp s = _
  simp only [execBankPowerUp, State.when_, State.arg_of_ev hev, List.getD_cons_zero, List.getD_cons_succ, hquad, hbank, decide_true, Bool.and_self,
    if_true]

/-- A block leaves the area where it has no keep hint, or where no block there lacks one (R192, R193). -/
theorem blockEviction_evicts (hin : (s.die die).promoted.contains b = true)
    (hmay : (s.die die).keeps b = false ∨ ∀ x ∈ (s.die die).promoted, (s.die die).keeps x = true) :
    ∃ t : State, exec .blockEviction s = .next t ∧ sameMem s t ∧ b ∉ (t.die die).promoted ∧
      ∀ x, x ≠ b → (x ∈ (t.die die).promoted ↔ x ∈ (s.die die).promoted) := by
  have htest : ((s.die die).promoted.contains b && (!(s.die die).keeps b || (s.die die).promoted.all (s.die die).keeps)) = true := by
    rw [hin, Bool.true_and, Bool.or_eq_true, Bool.not_eq_true', List.all_eq_true]
    exact hmay
  have hexec := exec_blockEviction hev
  rw [if_pos htest] at hexec
  refine ⟨_, hexec, .refl s, ?_, fun x hx => ?_⟩ <;> rw [State.onDie_die_same]
  · simp
  · simp [hx]

theorem blockEviction_refused (hkeep : (s.die die).keeps b = true) (hother : ∃ x ∈ (s.die die).promoted, (s.die die).keeps x = false) :
    exec .blockEviction s = .next s := by
  obtain ⟨x, hx, hnot⟩ := hother
  have hall : (s.die die).promoted.all (s.die die).keeps = false := List.all_eq_false.2 ⟨x, hx, by rw [hnot]; decide⟩
  rw [exec_blockEviction hev, hkeep, hall, Bool.not_true, Bool.or_false, Bool.and_false]
  rfl

end

theorem Die.keeps_eq_true_iff (d : Die) (b : Nat) : d.keeps b = true ↔ (d.hints.get (0, 0) b).1 = 2 := beq_iff_eq

theorem Die.keeps_eq_false_iff (d : Die) (b : Nat) : d.keeps b = false ↔ ¬ (d.hints.get (0, 0) b).1 = 2 := by
  rw [← Die.keeps_eq_true_iff, Bool.not_eq_true]

/-! ### A snoop of the host (R189, R306) -/

/-- Every copy of a line leaves its die. -/
def State.dropCopies (s : State) (line : Nat) : State := { s with dies := s.dies.mapVals fun _ d => { d with rdc := d.rdc.drop line } }

theorem State.dropCopies_die (s : State) (line die : Nat) : (s.dropCopies line).die die = { s.die die with rdc := (s.die die).rdc.drop line } :=
  by rw [State.die, State.dropCopies, Map.get_mapVals] <;> rfl

theorem Map.has_drop {α : Type} (m : Map α) (k : Nat) : (m.drop k).has k = false := by
  refine List.any_eq_false.2 fun e he => ?_
  simpa [Map.drop] using (List.mem_filter.1 he).2

theorem Map.has_mapVals {α : Type} (m : Map α) (f : Nat → α → α) (k : Nat) : (m.mapVals f).has k = m.has k := by
  rw [Map.has, Map.mapVals, List.any_map]
  rfl

theorem exec_hostSnoop {s : State} {pa : Nat} {bs : List Nat} (hev : s.ev = pa :: bs) (hhost : isHostPa s pa = true)
    (hline : pa % 128 + bs.length ≤ 128) (hmay : s.mayWrite none [(pa, 0)] = true) : exec .hostSnoop s = .next
    ((s.dropCopies (pa / 128)).gwriteBytes none (pa / 2 ^ 37 % 4) none pa (bs.map (BitVec.ofNat 8))) := by
  show execHostSnoop s = _
  have hpa : s.arg 0 = pa := State.arg_of_ev hev 0
  have hbytes : s.ev.drop 1 = bs := by rw [hev]; rfl
  simp only [execHostSnoop, State.when_, hpa, hbytes, List.length_map, hhost, hline, hmay, decide_true,
    Bool.and_self, if_true]
  rfl

theorem updateCopies_has (s : State) (die : Nat) (cells : List (Nat × Byte)) (k line : Nat) :
    ((s.updateCopies die cells).die k).rdc.has line = (s.die k).rdc.has line := by
  unfold State.updateCopies
  split
  · rfl
  · by_cases hk : k = die
    · subst hk
      rw [State.onDie_die_same]
      dsimp only
      exact Map.has_mapVals ..
    · rw [State.onDie_die_other _ _ hk]

section
variable (s : State) (die pa : Nat)

/-- A write of no byte keeps every byte. -/
theorem gwriteBytes_nil_sameMem : sameMem s (s.gwriteBytes none die none pa []) := by
  have hbesides : besides _ (s.gwriteBytes none die none pa []) := State.gwrite_besides s none die (fun _ => none) []
  refine ⟨fun a => (hbesides.sameMem.1 a).trans ?_, hbesides.sameMem.2⟩
  have hcarve : carve s.areas [] = s.areas := by
    unfold carve
    split <;> rfl
  unfold State.gbyte
  dsimp only [List.foldl_nil]
  rw [hcarve]

/-- Nor does it change which lines a die has copies of. -/
theorem gwriteBytes_nil_has (k line : Nat) : ((s.gwriteBytes none die none pa []).die k).rdc.has line = (s.die k).rdc.has line :=
  updateCopies_has { s with areas := carve s.areas [], poison := s.poison.filter fun w => !(wholeWords []).contains w } die [] k line

end

/-- A snoop without a write (R189). -/
theorem hostSnoop_invalidates {s : State} {pa : Nat} (hev : s.ev = [pa]) (hhost : isHostPa s pa = true)
    (hmay : s.mayWrite none [(pa, 0)] = true) :
    ∃ t : State, exec .hostSnoop s = .next t ∧ sameMem s t ∧ ∀ die, (t.die die).rdc.has (pa / 128) = false := by
  refine ⟨_, exec_hostSnoop hev hhost (Nat.le_of_lt (Nat.mod_lt pa (by decide))) hmay, gwriteBytes_nil_sameMem (s.dropCopies (pa / 128)) _ pa,
    fun die => ?_⟩
  refine (gwriteBytes_nil_has (s.dropCopies (pa / 128)) _ pa die (pa / 128)).trans ?_
  rw [State.dropCopies_die]
  exact Map.has_drop ..

/-- A snoop with a write of one byte, of memories in their canonical form. -/
theorem hostSnoop_writes {s : State} {pa b : Nat} (hcanonical : s.canonical) (hev : s.ev = [pa, b]) (hhost : isHostPa s pa = true)
    (hmay : s.mayWrite none [(pa, 0)] = true) :
    ∃ t : State, exec .hostSnoop s = .next t ∧ t.gbyte pa = BitVec.ofNat 8 b ∧ (∀ x, x ≠ pa → t.gbyte x = s.gbyte x) ∧
      ∀ q x, (t.quad q).mem.get x = (s.quad q).mem.get x := by
  have hbyte := State.gwrite_get (s.dropCopies (pa / 128)) none (pa / 2 ^ 37 % 4) (fun _ => none) [(pa, BitVec.ofNat 8 b)] hcanonical.1
  refine ⟨_, exec_hostSnoop hev hhost (Nat.mod_lt pa (by decide)) hmay, (hbyte pa).trans ?_, fun x hx => (hbyte x).trans ?_, fun q x => ?_⟩
  · simp [lastAt]
  · have hother : lastAt [(pa, BitVec.ofNat 8 b)] x = none := by simp [lastAt, Ne.symm hx]
    rw [hother]
    rfl
  · exact congrArg (fun q : Quad => q.mem.get x) (State.gwrite_quad (s.dropCopies (pa / 128)) none _ _ _ q)

/-- Settles O29: each instruction and step by what it leaves. -/
theorem fetchPagesAndCaches : Obligations.FetchPagesAndCaches := by
  refine ⟨⟨fun s sb d a hattempt => ⟨fun houts => ?ifence, fun p part hsys hpart hctxs hcores hgangs hattempts => ⟨fun hlo hhi => ?tlbinv,
    fun hhi hheld => ?tlbinvAs⟩, ?perfrd⟩, fun s quad pasid va p part e hev hbuilt hva hpart hwalk hquad hquarter => ?pageWalk⟩,
    fun s die b hev => ⟨fun hblock hnew hroom => ?promotion, ⟨fun hin hmay => ?eviction, fun hkept hother => ?refused⟩, ?copy,
      fun hbuilt hbank => ?powerUp⟩,
    fun s pa hev hhost hmay => ?snoop, fun s pa b hcanonical hev hhost _ hmay => ?snoopWrite⟩
  case ifence => exact ifence_empties sb hattempt houts
  case tlbinv =>
    obtain ⟨hitRecord, hexec⟩ := exec_tlbinv sb hattempt hsys hlo hhi
    exact invalidate_drops ⟨hctxs, hcores, hgangs, hattempts⟩ hpart (Tlb.holds_iff _ _) hexec
  case tlbinvAs =>
    obtain ⟨hitRecord, hexec⟩ := exec_tlbinvAs sb hattempt hsys hpart hhi hheld
    exact invalidate_drops ⟨hctxs, hcores, hgangs, hattempts⟩ hpart (fun _ => beq_iff_eq) hexec
  case perfrd =>
    obtain ⟨t, hexec, hmem, hgiven, hgoes⟩ := perfrd_gives s sb d a
    refine ⟨t, _, hexec, hmem, hgiven, hgoes, ?_⟩
    generalize (s.me.getX a).toNat % 2 ^ 8 = n
    intro v hv
    dsimp only at hv
    match n with
    | 0 | 3 | 4 | 8 => cases hv
    | 1 | 5 | 6 | 7 => exact Option.some.inj hv
    | 2 => exact (congrArg word (coreIssued_eq ..)).trans (Option.some.inj hv)
    | n + 9 => exact Option.some.inj ((if_neg (Nat.not_lt.2 (Nat.le_add_left 9 n))).symm.trans hv)
  case pageWalk =>
    obtain ⟨hin, hinQuarter⟩ := translate_walked hpart hwalk hquad hquarter
    refine ⟨_, ?_, translate_onlyTlb s quad pasid va, hin, hinQuarter⟩
    show execPageWalk s = _
    simp only [execPageWalk, State.when_, State.arg_of_ev hev, List.getD_cons_zero, List.getD_cons_succ, hbuilt, hva, decide_true, Bool.and_self,
      if_true]
  case promotion => exact ⟨_, exec_blockPromotion hev hblock hnew hroom, .refl s, State.onDie_die_same ..⟩
  case eviction => exact blockEviction_evicts hev hin (hmay.imp (Die.keeps_eq_false_iff _ _).2 fun h x hx => (Die.keeps_eq_true_iff _ _).2 (h x hx))
  case refused =>
    exact blockEviction_refused hev ((Die.keeps_eq_true_iff _ _).2 hkept)
      (hother.imp fun x hx => hx.imp id (Die.keeps_eq_false_iff _ _).2)
  case copy => exact ⟨_, exec_cacheLineEviction hev, .refl s, State.onDie_die_same ..⟩
  case powerUp => exact ⟨_, exec_bankPowerUp hev hbuilt hbank, sameMem_onQuad s die rfl, State.onQuad_quad_same ..⟩
  case snoop => exact hostSnoop_invalidates hev hhost hmay
  case snoopWrite => exact hostSnoop_writes hcanonical hev hhost hmay

end Sys2Proof.Machine
end

section
/-! A magnitude rounded once to a multiple of a power of two, in each mode of R136. -/

namespace Sys2Proof.Machine

/-! ### A magnitude with its low bits rounded away -/

section
variable (rm : Nat) (neg : Bool) (m k : Nat)

theorem roundShift_inexact_iff : (roundShift rm neg m k).2 = true ↔ m % 2 ^ k ≠ 0 := by
  simp [roundShift, Nat.pos_iff_ne_zero]

/-- The quotient rounded up is one more than the one rounded down, unless the division comes out even. -/
theorem roundUp_eq_ite : (m + 2 ^ k - 1) / 2 ^ k = if 0 < m % 2 ^ k then m / 2 ^ k + 1 else m / 2 ^ k := by
  have hn : 0 < 2 ^ k := Nat.two_pow_pos k
  have hr : m % 2 ^ k < 2 ^ k := Nat.mod_lt m hn
  have hsum : m + 2 ^ k - 1 = 2 ^ k * (m / 2 ^ k) + (m % 2 ^ k + 2 ^ k - 1) := by
    have := Nat.div_add_mod m (2 ^ k)
    omega
  rw [hsum, Nat.mul_add_div hn]
  split
  · exact congrArg (m / 2 ^ k + ·) (Nat.div_eq_of_lt_le (by omega) (by omega))
  · exact congrArg (m / 2 ^ k + ·) (Nat.div_eq_of_lt (by omega))

theorem roundShift_even : (roundShift 0 neg m k).1 =
    if 2 ^ k < 2 * (m % 2 ^ k) ∨ 2 * (m % 2 ^ k) = 2 ^ k ∧ m / 2 ^ k % 2 = 1 then m / 2 ^ k + 1 else m / 2 ^ k := by
  simp [roundShift]

theorem roundShift_towardZero : (roundShift 1 neg m k).1 = m / 2 ^ k := rfl

theorem roundShift_towardPlus : (roundShift 2 neg m k).1 = if neg then m / 2 ^ k else (m + 2 ^ k - 1) / 2 ^ k := by
  rw [roundUp_eq_ite]
  cases neg <;> simp [roundShift]

theorem roundShift_towardMinus : (roundShift 3 neg m k).1 = if neg then (m + 2 ^ k - 1) / 2 ^ k else m / 2 ^ k := by
  rw [roundUp_eq_ite]
  cases neg <;> simp [roundShift]

/-- To nearest: within half of the last place, and even where two are as near. -/
theorem roundShift_nearest :
    let q := (roundShift 0 neg m k).1
    2 * ((q : Int) * 2 ^ k - m).natAbs ≤ 2 ^ k ∧ (2 * ((q : Int) * 2 ^ k - m).natAbs = 2 ^ k → q % 2 = 0) := by
  rw [roundShift_even]
  have hdm : (m : Int) = ((m / 2 ^ k : Nat) : Int) * (2 ^ k : Nat) + (m % 2 ^ k : Nat) := by exact_mod_cast (Nat.div_add_mod' m (2 ^ k)).symm
  have hr : m % 2 ^ k < 2 ^ k := Nat.mod_lt _ (Nat.two_pow_pos k)
  have hn : (2 : Int) ^ k = (2 ^ k : Nat) := by norm_cast
  generalize m / 2 ^ k = d, m % 2 ^ k = r at *
  rw [hdm, hn]
  generalize 2 ^ k = n at *
  have hdown : (d : Int) * n - (d * n + r) = -r := by ring
  have hup : ((d + 1 : Nat) : Int) * n - (d * n + r) = n - r := by push_cast; ring
  split
  · next h =>
    dsimp only
    rw [hup]
    omega
  · next h =>
    dsimp only
    rw [hdown]
    omega

/-- Nothing is rounded away exactly where the low bits are 0. -/
theorem roundShift_mul_eq_iff : (roundShift rm neg m k).1 * 2 ^ k = m ↔ m % 2 ^ k = 0 := by
  constructor
  · intro h
    rw [← h, Nat.mul_mod_left]
  · intro h
    have hq : (roundShift rm neg m k).1 = m / 2 ^ k := by
      have hn := (Nat.two_pow_pos k).ne
      unfold roundShift
      dsimp only
      rw [h]
      split <;> simp [hn]
    rw [hq, Nat.div_mul_cancel (Nat.dvd_of_mod_eq_zero h)]

end

/-! ### Rounding to a multiple of a unit -/

/-- Does the mode take a number of this sign away from zero (R136)? -/
def RoundsUp (rm : Nat) (neg : Bool) : Prop := rm = 2 ∧ neg = false ∨ rm = 3 ∧ neg = true

/-- `q` units of `u` are what the magnitude `x` rounds to in the mode `rm`. -/
structure IsRounding (rm : Nat) (neg : Bool) (x u : ℝ) (q : Nat) : Prop where
  near : rm = 0 → |q * u - x| ≤ u / 2 ∧ (|q * u - x| = u / 2 → q % 2 = 0)
  above : RoundsUp rm neg → x ≤ q * u ∧ q * u < x + u
  below : rm ≠ 0 → ¬ RoundsUp rm neg → q * u ≤ x ∧ x < q * u + u

section
variable {rm : Nat} {neg : Bool} {x u : ℝ} {q : Nat}

theorem IsRounding.scale (h : IsRounding rm neg x u q) {c : ℝ} (hc : 0 < c) : IsRounding rm neg (x * c) (u * c) q where
  near h0 := by
    obtain ⟨hle, heven⟩ := h.near h0
    have habs : |q * (u * c) - x * c| = |q * u - x| * c := by rw [← mul_assoc, ← sub_mul, abs_mul, abs_of_pos hc]
    rw [habs, mul_div_right_comm]
    exact ⟨mul_le_mul_of_nonneg_right hle hc.le, fun he => heven (mul_right_cancel₀ hc.ne' he)⟩
  above hup := by
    obtain ⟨hle, hlt⟩ := h.above hup
    rw [← mul_assoc, ← add_mul]
    exact ⟨mul_le_mul_of_nonneg_right hle hc.le, mul_lt_mul_of_pos_right hlt hc⟩
  below h0 hup := by
    obtain ⟨hle, hlt⟩ := h.below h0 hup
    rw [← mul_assoc, ← add_mul]
    exact ⟨mul_le_mul_of_nonneg_right hle hc.le, mul_lt_mul_of_pos_right hlt hc⟩

/-- A multiple of the unit rounds to itself. -/
theorem IsRounding.refl (rm : Nat) (neg : Bool) (q : Nat) (hu : 0 < u) : IsRounding rm neg (q * u) u q where
  near _ := by
    rw [sub_self, abs_zero]
    exact ⟨(half_pos hu).le, fun h => absurd h (half_pos hu).ne⟩
  above _ := ⟨le_rfl, lt_add_of_pos_right _ hu⟩
  below _ _ := ⟨le_rfl, lt_add_of_pos_right _ hu⟩

/-- In every mode less than one unit is rounded away. -/
theorem IsRounding.error_lt (h : IsRounding rm neg x u q) (hu : 0 < u) : |q * u - x| < u := by
  by_cases h0 : rm = 0
  · exact (h.near h0).1.trans_lt (half_lt_self hu)
  · by_cases hup : RoundsUp rm neg
    · obtain ⟨hle, hlt⟩ := h.above hup
      rw [abs_lt]
      constructor <;> linarith
    · obtain ⟨hle, hlt⟩ := h.below h0 hup
      rw [abs_lt]
      constructor <;> linarith

/-- Rounding does not pass a multiple of the unit. -/
theorem IsRounding.le_of_le (h : IsRounding rm neg x u q) (hu : 0 < u) {n : Nat} (hx : x ≤ n * u) : q ≤ n := by
  have hlt : (q : ℝ) * u < (n + 1 : Nat) * u := by
    have := (abs_lt.1 (h.error_lt hu)).2
    push_cast
    linarith
  exact Nat.lt_succ_iff.1 (Nat.cast_lt.1 (lt_of_mul_lt_mul_right hlt hu.le))

theorem IsRounding.ge_of_ge (h : IsRounding rm neg x u q) (hu : 0 < u) {n : Nat} (hx : n * u ≤ x) : n ≤ q := by
  have hlt : (n : ℝ) * u < (q + 1 : Nat) * u := by
    have := (abs_lt.1 (h.error_lt hu)).1
    push_cast
    linarith
  exact Nat.lt_succ_iff.1 (Nat.cast_lt.1 (lt_of_mul_lt_mul_right hlt hu.le))

/-- Which magnitudes below an even number of units do not round up to it. -/
theorem IsRounding.ne_iff_lt (h : IsRounding rm neg x u q) (hu : 0 < u) {n : Nat} (hn : n % 2 = 0) (hx : x < n * u) :
    q ≠ n ↔ (rm = 0 → x < n * u - u / 2) ∧ (RoundsUp rm neg → x ≤ n * u - u) ∧ (rm ≠ 0 → ¬ RoundsUp rm neg → x < n * u) := by
  have hle : q ≤ n := h.le_of_le hu hx.le
  have hlow (hne : q ≠ n) : (q : ℝ) * u ≤ n * u - u := by
    have h1 : ((q + 1 : Nat) : ℝ) ≤ n := Nat.cast_le.2 (Nat.lt_of_le_of_ne hle hne)
    have h2 := mul_le_mul_of_nonneg_right h1 hu.le
    push_cast at h2
    linarith
  constructor
  · intro hne
    refine ⟨fun h0 => lt_of_le_of_ne ?_ fun htie => ?_, fun hup => (h.above hup).1.trans (hlow hne), fun _ _ => hx⟩
    · have := (abs_le.1 (h.near h0).1).1
      linarith [hlow hne]
    · obtain ⟨hhalf, heven⟩ := h.near h0
      have hge := (abs_le.1 hhalf).1
      have hq : (q : ℝ) * u = n * u - u := le_antisymm (hlow hne) (by linarith)
      have hqn : q + 1 = n := by
        have : ((q + 1 : Nat) : ℝ) * u = n * u := by push_cast; linarith
        exact Nat.cast_injective (mul_right_cancel₀ hu.ne' this)
      have := heven (by rw [hq, htie, abs_sub_comm, abs_of_nonneg (by linarith)]; ring)
      omega
  · rintro ⟨hnear, habove, hbelow⟩ rfl
    by_cases h0 : rm = 0
    · have := (abs_le.1 (h.near h0).1).2
      linarith [hnear h0]
    · by_cases hup : RoundsUp rm neg
      · linarith [habove hup, (h.above hup).2]
      · linarith [hbelow h0 hup, (h.below h0 hup).1]

end

/-! ### What the machine's roundings come to -/

theorem div_two_pow_bounds (m k : Nat) : ((m / 2 ^ k : Nat) : ℝ) * 2 ^ k ≤ m ∧ (m : ℝ) < (m / 2 ^ k : Nat) * 2 ^ k + 2 ^ k := by
  have hle : m / 2 ^ k * 2 ^ k ≤ m := Nat.div_mul_le_self m (2 ^ k)
  have hlt : m < m / 2 ^ k * 2 ^ k + 2 ^ k := Nat.lt_div_mul_add (Nat.two_pow_pos k)
  exact ⟨by exact_mod_cast hle, by exact_mod_cast hlt⟩

theorem roundUp_two_pow_bounds (m k : Nat) :
    (m : ℝ) ≤ ((m + 2 ^ k - 1) / 2 ^ k : Nat) * 2 ^ k ∧ (((m + 2 ^ k - 1) / 2 ^ k : Nat) : ℝ) * 2 ^ k < m + 2 ^ k := by
  have hn := Nat.two_pow_pos k
  have hle : (m + 2 ^ k - 1) / 2 ^ k * 2 ^ k ≤ m + 2 ^ k - 1 := Nat.div_mul_le_self ..
  have hlt : m + 2 ^ k - 1 < (m + 2 ^ k - 1) / 2 ^ k * 2 ^ k + 2 ^ k := Nat.lt_div_mul_add hn
  have hle' : m ≤ (m + 2 ^ k - 1) / 2 ^ k * 2 ^ k := by omega
  have hlt' : (m + 2 ^ k - 1) / 2 ^ k * 2 ^ k < m + 2 ^ k := by omega
  exact ⟨by exact_mod_cast hle', by exact_mod_cast hlt'⟩

theorem roundShift_isRounding {rm : Nat} (hrm : rm < 4) (neg : Bool) (m k : Nat) :
    IsRounding rm neg m (2 ^ k) (roundShift rm neg m k).1 where
  near h0 := by
    subst h0
    obtain ⟨hle, heven⟩ := roundShift_nearest neg m k
    generalize (roundShift 0 neg m k).1 = q at *
    have habs : |(q : ℝ) * 2 ^ k - m| = ((q : Int) * 2 ^ k - m).natAbs := by rw [Nat.cast_natAbs]; push_cast; rfl
    rw [habs, le_div_iff₀' two_pos, eq_div_iff two_ne_zero, mul_comm _ (2 : ℝ)]
    exact ⟨by exact_mod_cast hle, fun h => heven (by exact_mod_cast h)⟩
  above hup := by
    obtain ⟨rfl, rfl⟩ | ⟨rfl, rfl⟩ := hup
    · exact roundShift_towardPlus false m k ▸ roundUp_two_pow_bounds m k
    · exact roundShift_towardMinus true m k ▸ roundUp_two_pow_bounds m k
  below h0 hup := by
    have hq : (roundShift rm neg m k).1 = m / 2 ^ k := by
      match rm, neg with
      | 1, _ => rfl
      | 2, true => exact roundShift_towardPlus true m k
      | 3, false => exact roundShift_towardMinus false m k
      | 2, false => exact absurd (.inl ⟨rfl, rfl⟩) hup
      | 3, true => exact absurd (.inr ⟨rfl, rfl⟩) hup
    rw [hq]
    exact div_two_pow_bounds m k

theorem zpow_eq_mul_two_pow {K : Type*} [Field K] [CharZero K] {a b : Int} (h : a ≤ b) : (2 : K) ^ b = 2 ^ (b - a).toNat * 2 ^ a := by
  rw [← zpow_natCast, ← zpow_add₀ two_ne_zero, Int.toNat_of_nonneg (by omega), sub_add_cancel]

section
variable {rm : Nat} {neg : Bool} {m : Nat} {e qe : Int}

theorem roundTo_isRounding (hrm : rm < 4) : IsRounding rm neg (m * 2 ^ e) (2 ^ qe) (roundTo rm neg m e qe).1 := by
  unfold roundTo
  split
  · next hle =>
    have hx : (m : ℝ) * 2 ^ e = (m * 2 ^ (e - qe).toNat : Nat) * 2 ^ qe := by
      rw [zpow_eq_mul_two_pow hle]
      push_cast
      ring
    rw [hx]
    exact .refl rm neg _ (zpow_pos two_pos _)
  · next hlt =>
    rw [zpow_eq_mul_two_pow (le_of_not_ge hlt)]
    exact (roundShift_isRounding hrm neg m _).scale (zpow_pos two_pos _)

theorem roundTo_inexact_iff : (roundTo rm neg m e qe).2 = true ↔ ((roundTo rm neg m e qe).1 : ℝ) * 2 ^ qe ≠ m * 2 ^ e := by
  unfold roundTo
  split
  · next hle =>
    rw [zpow_eq_mul_two_pow hle]
    push_cast
    simp [mul_assoc]
  · next hlt =>
    have hcast (q : Nat) : (q : ℝ) * 2 ^ qe = m * 2 ^ e ↔ q * 2 ^ (qe - e).toNat = m := by
      rw [zpow_eq_mul_two_pow (le_of_not_ge hlt), ← mul_assoc, mul_left_inj' (zpow_pos two_pos e).ne']
      exact_mod_cast Iff.rfl
    rw [roundShift_inexact_iff]
    exact not_congr ((roundShift_mul_eq_iff ..).symm.trans (hcast _).symm)

/-- A number of no lower exponent than the unit is a multiple of it. -/
theorem roundTo_of_le (h : qe ≤ e) : roundTo rm neg m e qe = (m * 2 ^ (e - qe).toNat, false) := if_pos h

end

end Sys2Proof.Machine
end


section
/-! The accumulator of the matrix path and its sums (R122 to R126). -/

namespace Sys2Proof.Machine

/-! ### The accumulator (R126) -/

/-- A value rounded to nearest even stays within half of the place that is dropped. -/
theorem roundEvenShift_near (v : Int) (k : Nat) : 2 * (roundEvenShift v k * 2 ^ k - v).natAbs ≤ 2 ^ k := by
  have h := (roundShift_nearest (decide (v < 0)) v.natAbs k).1
  unfold roundEvenShift
  dsimp only at h ⊢
  generalize (roundShift 0 (decide (v < 0)) v.natAbs k).1 = q at *
  split
  · next hneg =>
    rw [neg_mul]
    omega
  · next hpos => omega

theorem roundEvenShift_zero (v : Int) : roundEvenShift v 0 = v := by
  have := roundEvenShift_near v 0
  omega

theorem roundEvenShift_natAbs_le {v : Int} {n k : Nat} (h : v.natAbs < n * 2 ^ k) : (roundEvenShift v k).natAbs ≤ n := by
  have hnear := roundEvenShift_near v k
  have hn := Nat.two_pow_pos k
  generalize hw : roundEvenShift v k * 2 ^ k = w at hnear
  have hmul : (roundEvenShift v k).natAbs * 2 ^ k = w.natAbs := by rw [← hw, Int.natAbs_mul, Int.natAbs_pow]; rfl
  have hlt : (roundEvenShift v k).natAbs * 2 ^ k < (n + 1) * 2 ^ k := by rw [hmul, add_mul]; omega
  exact Nat.lt_succ_iff.1 (Nat.lt_of_mul_lt_mul_right hlt)

theorem fits96_iff (v : Int) : fits96 v = true ↔ -2 ^ 95 ≤ v ∧ v < 2 ^ 95 := by
  unfold fits96
  rw [Bool.and_eq_true, decide_eq_true_eq, decide_eq_true_eq]
  exact and_congr_right fun _ => Int.le_sub_one_iff

/-- After the shift of R126 the significand fits in 96 bits. -/
theorem fits96_leastShift (v : Int) : fits96 (roundEvenShift v (leastShift v)) = true := by
  unfold leastShift
  dsimp only
  cases hfind : [v.natAbs.log2 - 95, v.natAbs.log2 - 95 + 1].find? fun j => fits96 (roundEvenShift v j) with
  | some j => exact List.find?_some (p := fun j => fits96 (roundEvenShift v j)) hfind
  | none =>
    have hlt : v.natAbs < 2 ^ 94 * 2 ^ (v.natAbs.log2 - 95 + 2) := by
      rw [← Nat.pow_add]
      exact Nat.lt_log2_self.trans_le (Nat.pow_le_pow_right two_pos (by omega))
    have hle := roundEvenShift_natAbs_le hlt
    rw [Option.getD_none, fits96_iff]
    omega

/-- A value that 96 bits hold is not shifted. -/
theorem leastShift_eq_zero {v : Int} (hfits : fits96 v = true) : leastShift v = 0 := by
  obtain ⟨hlo, hhi⟩ := (fits96_iff v).1 hfits
  have hlog : v.natAbs.log2 - 95 = 0 := by
    by_cases hv : v.natAbs = 0
    · rw [hv]; rfl
    · have := (Nat.log2_lt (k := 96) hv).2 (by omega)
      omega
  unfold leastShift
  dsimp only
  rw [hlog, List.find?_cons_of_pos (by rw [roundEvenShift_zero, hfits]), Option.getD_some]

section
variable (acc : Acc) (x g : Int)

/-- The finer of the exponents of an accumulator and of what is added to it. -/
def Acc.finer : Int := if acc.a = 0 then g else min acc.f g

/-- The exact sum of an accumulator and x × 2^g, at the finer of the two exponents. -/
def Acc.sumWith : Int := acc.a * 2 ^ (acc.f - acc.finer g).toNat + x * 2 ^ (g - acc.finer g).toNat

variable {acc x g}

/-- Accumulate of R126 where neither what is added nor the sum is 0. -/
theorem Acc.add_eq (hkind : acc.kind = .finite) (hx : x ≠ 0) (hsum : acc.sumWith x g ≠ 0) :
    let k := leastShift (acc.sumWith x g)
    acc.add x g = { acc with a := roundEvenShift (acc.sumWith x g) k, f := acc.finer g + k } := by
  have hfiner : (if acc.a ≠ 0 then min acc.f g else g) = acc.finer g := ite_not ..
  unfold Acc.add
  rw [if_neg (by simp [hkind, hx])]
  dsimp only
  rw [hfiner]
  exact if_neg hsum

end

/-- Settles O38: the block sums are those of `blockSum_exact`; a sum that fits in 96 bits is not shifted, and any other is rounded to nearest
by the shift. -/
theorem matrixSumsExact : Obligations.MatrixSumsExact := by
  unfold Obligations.MatrixSumsExact
  refine ⟨fun l hlen h => blockSum_exact hlen h, fun acc x g hkind hx => ?_⟩
  intro f0 v hv
  have hadd := Acc.add_eq (g := g) hkind hx hv
  constructor
  · intro hlo hhi
    have hzero : leastShift v = 0 := leastShift_eq_zero ((fits96_iff v).2 ⟨hlo, hhi⟩)
    rw [hadd]
    change ({ acc with a := roundEvenShift v (leastShift v), f := f0 + (leastShift v : Nat) } : Acc) = _
    rw [hzero, roundEvenShift_zero, Nat.cast_zero, add_zero]
  · obtain ⟨hlo, hhi⟩ := (fits96_iff _).1 (fits96_leastShift v)
    exact ⟨leastShift v, by rw [hadd]; rfl, by rw [hadd]; exact hlo, by rw [hadd]; exact hhi, by rw [hadd]; exact roundEvenShift_near v _⟩

end Sys2Proof.Machine
end


section
/-! The floating formats (R107): the codes of magnitudes in their order, and the code and the conditions of a finite number that is rounded (R116,
R136). -/

namespace Sys2Proof.Machine

/-! ### Formats -/

section
variable (f : Fmt) (nxm : Bool)

theorem Fmt.fbits_pos : 0 < f.fbits := by cases f <;> decide

theorem Fmt.width_sub_one : f.width - 1 = f.ebits + f.fbits := by unfold Fmt.width; omega

theorem Fmt.two_pow_fbits_even : 2 ^ f.fbits % 2 = 0 := by cases f <;> rfl

/-- The exponent field of the largest finite numbers (R107, R110). -/
def Fmt.topField : Nat := if f.extended nxm then 2 ^ f.ebits - 1 else 2 ^ f.ebits - 2

theorem Fmt.topField_pos : 0 < f.topField nxm := by
  cases f <;> cases nxm <;> decide

theorem Fmt.emax_eq : f.emax nxm = f.topField nxm - f.bias := by
  unfold Fmt.emax Fmt.topField
  split <;> rfl

theorem Fmt.largest_add_one : f.largest nxm + 1 = (f.topField nxm + 1) * 2 ^ f.fbits := by
  cases f <;> cases nxm <;> decide

end

/-! ### The codes of magnitudes in their order -/

section
variable (f : Fmt)

/-- A code's exponent from that of the smallest quantum up: what R107 reads the last bit of the code as. -/
def Fmt.step (k : Nat) : Nat := k / 2 ^ f.fbits - 1

/-- `q` quanta of the d-th binade above the subnormal one: at most as many as make the next binade, and of a binade that is not the
lowest no fewer than its first number has. -/
theorem Fmt.magnitude_code {d q : Nat} (hq : q ≤ 2 * 2 ^ f.fbits) (hd : d = 0 ∨ 2 ^ f.fbits ≤ q) :
    f.magnitude (d * 2 ^ f.fbits + q) = q * (2 : ℚ) ^ (f.qmin + d) := by
  have hn := Nat.two_pow_pos f.fbits
  unfold Fmt.magnitude
  rw [add_comm (d * _) q, Nat.add_mul_div_right _ _ hn, Nat.add_mul_mod_self_right]
  dsimp only
  obtain hlt | heq | hmid : q < 2 ^ f.fbits ∨ q = 2 * 2 ^ f.fbits ∨ (2 ^ f.fbits ≤ q ∧ q < 2 * 2 ^ f.fbits) := by omega
  · obtain rfl : d = 0 := by omega
    rw [Nat.div_eq_of_lt hlt, Nat.mod_eq_of_lt hlt]
    rfl
  · rw [heq, Nat.mul_div_cancel _ hn, Nat.mul_mod_left, if_neg (by omega), show 2 + d - 1 = d + 1 from by omega]
    push_cast
    rw [← add_assoc, zpow_add_one₀ two_ne_zero]
    ring
  · have hdiv : q / 2 ^ f.fbits = 1 := Nat.div_eq_of_lt_le (by omega) (by omega)
    have hmod : q % 2 ^ f.fbits = q - 2 ^ f.fbits := by rw [Nat.mod_eq_sub_mod hmid.1, Nat.mod_eq_of_lt (by omega)]
    rw [hdiv, hmod, if_neg (by omega), Nat.add_sub_cancel' hmid.1, Nat.add_sub_cancel_left]

/-- From one code to the next the magnitude grows by the place of the last bit. -/
theorem Fmt.magnitude_succ (k : Nat) : f.magnitude (k + 1) = f.magnitude k + 2 ^ (f.qmin + f.step k) := by
  have hn := Nat.two_pow_pos f.fbits
  have hmod := Nat.mod_lt k hn
  have hdm := Nat.div_add_mod' k (2 ^ f.fbits)
  unfold Fmt.step
  obtain hzero | hpos := Nat.eq_zero_or_pos (k / 2 ^ f.fbits)
  · rw [hzero, zero_mul, zero_add] at hdm
    have h0 := f.magnitude_code (d := 0) (q := k) (by omega) (.inl rfl)
    have h1 := f.magnitude_code (d := 0) (q := k + 1) (by omega) (.inl rfl)
    rw [zero_mul, zero_add] at h0 h1
    rw [h0, h1, hzero]
    push_cast
    ring
  · obtain ⟨d, hd⟩ := Nat.exists_eq_succ_of_ne_zero hpos.ne'
    have hk : k = d * 2 ^ f.fbits + (2 ^ f.fbits + k % 2 ^ f.fbits) := by rw [hd, Nat.succ_mul] at hdm; omega
    have h0 := f.magnitude_code (d := d) (q := 2 ^ f.fbits + k % 2 ^ f.fbits) (by omega) (.inr (by omega))
    have h1 := f.magnitude_code (d := d) (q := 2 ^ f.fbits + k % 2 ^ f.fbits + 1) (by omega) (.inr (by omega))
    rw [← add_assoc, ← hk] at h1
    rw [← hk] at h0
    rw [h0, h1, hd, Nat.succ_sub_one]
    push_cast
    ring

theorem Fmt.magnitude_strictMono : StrictMono f.magnitude := by
  refine strictMono_nat_of_lt_succ fun k => ?_
  rw [f.magnitude_succ]
  exact lt_add_of_pos_right _ (zpow_pos two_pos _)

end

/-! ### The code of a rounded number -/

section
variable {f : Fmt} {rm : Nat} {neg : Bool} {x u : ℝ} {d q : Nat}

/-- `q` quanta `u` of binade `d` are what `x` rounds to, and `x` does not lie below that binade. -/
structure Fmt.RoundsIn (f : Fmt) (rm : Nat) (neg : Bool) (x u : ℝ) (d q : Nat) : Prop where
  unit : u = 2 ^ (f.qmin + d)
  rounds : IsRounding rm neg x u q
  pos : 0 < x
  low : d ≠ 0 → 2 ^ f.fbits * u ≤ x
  high : x < 2 * 2 ^ f.fbits * u

variable (h : f.RoundsIn rm neg x u d q)
include h

theorem Fmt.RoundsIn.unit_pos : 0 < u := h.unit ▸ zpow_pos two_pos _

theorem Fmt.RoundsIn.le_two_pow : q ≤ 2 * 2 ^ f.fbits := h.rounds.le_of_le h.unit_pos (by exact_mod_cast h.high.le)

theorem Fmt.RoundsIn.two_pow_le : d = 0 ∨ 2 ^ f.fbits ≤ q :=
  or_iff_not_imp_left.2 fun hd => h.rounds.ge_of_ge h.unit_pos (by exact_mod_cast h.low hd)

theorem Fmt.RoundsIn.magnitude : (f.magnitude (d * 2 ^ f.fbits + q) : ℝ) = q * u := by
  rw [f.magnitude_code h.le_two_pow h.two_pow_le, h.unit]
  push_cast
  rfl

theorem Fmt.RoundsIn.le_magnitude {j : Nat} (hj : d * 2 ^ f.fbits + q < j) : q * u + u ≤ f.magnitude j := by
  have hstep : d ≤ f.step (d * 2 ^ f.fbits + q) := by
    unfold Fmt.step
    have hn := Nat.two_pow_pos f.fbits
    rw [add_comm, Nat.add_mul_div_right _ _ hn]
    obtain rfl | hq := h.two_pow_le
    · exact Nat.zero_le _
    · have := (Nat.one_le_div_iff hn).2 hq
      omega
  have hunit : u ≤ (2 : ℝ) ^ (f.qmin + f.step (d * 2 ^ f.fbits + q)) := by
    rw [h.unit]
    exact zpow_le_zpow_right₀ one_le_two (by omega)
  have hsucc : (f.magnitude (d * 2 ^ f.fbits + q + 1) : ℝ) = q * u + 2 ^ (f.qmin + f.step (d * 2 ^ f.fbits + q)) := by
    rw [f.magnitude_succ, ← h.magnitude]
    push_cast
    rfl
  calc (q * u + u : ℝ) ≤ f.magnitude (d * 2 ^ f.fbits + q + 1) := by rw [hsucc]; linarith
    _ ≤ f.magnitude j := Rat.cast_le.2 (f.magnitude_strictMono.monotone hj)

theorem Fmt.RoundsIn.magnitude_le {j : Nat} (hj : j < d * 2 ^ f.fbits + q) :
    (f.magnitude j : ℝ) ≤ q * u - u ∨ (f.magnitude j : ℝ) < q * u ∧ q * u ≤ x := by
  have hlow := h.two_pow_le
  have hn := Nat.two_pow_pos f.fbits
  obtain hfirst | hmore : (d ≠ 0 ∧ q = 2 ^ f.fbits) ∨ (0 < q ∧ (d = 0 ∨ 2 ^ f.fbits ≤ q - 1)) := by
    rcases hlow with rfl | hq <;> omega
  · obtain ⟨hd, hq⟩ := hfirst
    refine .inr ⟨h.magnitude ▸ Rat.cast_lt.2 (f.magnitude_strictMono hj), ?_⟩
    rw [hq]
    exact_mod_cast h.low hd
  · obtain ⟨hq, hd⟩ := hmore
    have hle : f.magnitude j ≤ f.magnitude (d * 2 ^ f.fbits + (q - 1)) := f.magnitude_strictMono.monotone (by omega)
    rw [f.magnitude_code (by have := h.le_two_pow; omega) hd] at hle
    refine .inl ((Rat.cast_le.2 hle).trans_eq ?_)
    push_cast [Nat.cast_sub (Nat.one_le_of_lt hq)]
    rw [h.unit]
    ring

theorem Fmt.RoundsIn.nearest (h0 : rm = 0) {j : Nat} (hj : j ≠ d * 2 ^ f.fbits + q) :
    |(f.magnitude (d * 2 ^ f.fbits + q) : ℝ) - x| ≤ |(f.magnitude j : ℝ) - x| ∧
      (|(f.magnitude (d * 2 ^ f.fbits + q) : ℝ) - x| = |(f.magnitude j : ℝ) - x| → (d * 2 ^ f.fbits + q) % 2 = 0) := by
  obtain ⟨hle, heven⟩ := h.rounds.near h0
  have heven' (ht : |q * u - x| = u / 2) : (d * 2 ^ f.fbits + q) % 2 = 0 := by
    rw [Nat.add_mod, Nat.mul_mod, f.two_pow_fbits_even, heven ht, Nat.mul_zero]
  rw [h.magnitude]
  have hhalf := abs_le.1 hle
  have hfar (hd : u / 2 ≤ |(f.magnitude j : ℝ) - x|) : |q * u - x| ≤ |(f.magnitude j : ℝ) - x| ∧
      (|q * u - x| = |(f.magnitude j : ℝ) - x| → (d * 2 ^ f.fbits + q) % 2 = 0) :=
    ⟨hle.trans hd, fun he => heven' (le_antisymm hle (he ▸ hd))⟩
  obtain hlt | hgt := hj.lt_or_gt
  · obtain hbelow | ⟨hless, hqx⟩ := h.magnitude_le hlt
    · refine hfar ?_
      rw [abs_sub_comm]
      exact le_abs.2 (.inl (by linarith))
    · have hstrict : |q * u - x| < |(f.magnitude j : ℝ) - x| := by
        rw [abs_of_nonpos (by linarith), abs_of_neg (by linarith)]
        linarith
      exact ⟨hstrict.le, fun he => absurd he hstrict.ne⟩
  · have habove := h.le_magnitude hgt
    exact hfar (le_abs.2 (.inl (by linarith)))

theorem Fmt.RoundsIn.least (hup : RoundsUp rm neg) :
    x ≤ f.magnitude (d * 2 ^ f.fbits + q) ∧ ∀ j, x ≤ f.magnitude j → d * 2 ^ f.fbits + q ≤ j := by
  obtain ⟨hle, hlt⟩ := h.rounds.above hup
  rw [h.magnitude]
  refine ⟨hle, fun j hxj => Nat.le_of_not_lt fun hj => ?_⟩
  obtain hbelow | ⟨hless, hqx⟩ := h.magnitude_le hj <;> linarith

theorem Fmt.RoundsIn.greatest (h0 : rm ≠ 0) (hup : ¬ RoundsUp rm neg) :
    f.magnitude (d * 2 ^ f.fbits + q) ≤ x ∧ x < f.magnitude (d * 2 ^ f.fbits + q + 1) := by
  obtain ⟨hle, hlt⟩ := h.rounds.below h0 hup
  rw [h.magnitude]
  exact ⟨hle, hlt.trans_le (h.le_magnitude (Nat.lt_succ_self _))⟩

/-- The exponent of the rounded number passes the largest where its code passes the largest. -/
theorem Fmt.RoundsIn.overflow_iff (nxm : Bool) :
    f.emax nxm < f.qmin + d + Nat.log2 q ↔ f.largest nxm < d * 2 ^ f.fbits + q := by
  have hlargest := f.largest_add_one nxm
  have htop := f.topField_pos nxm
  have hn := Nat.two_pow_pos f.fbits
  have hle := h.le_two_pow
  have hemax : f.emax nxm < f.qmin + d + Nat.log2 q ↔ f.topField nxm + f.fbits < 1 + d + Nat.log2 q := by
    rw [f.emax_eq]
    unfold Fmt.qmin
    omega
  have hcode (a : Nat) (hdiv : q / 2 ^ f.fbits = a) : f.largest nxm < d * 2 ^ f.fbits + q ↔ f.topField nxm + 1 ≤ d + a := by
    rw [← hdiv, add_comm d, ← Nat.add_mul_div_right q d hn, Nat.le_div_iff_mul_le hn, ← hlargest, add_comm q]
    exact Nat.lt_iff_add_one_le
  rw [hemax]
  obtain hlt | heq | hmid : q < 2 ^ f.fbits ∨ q = 2 * 2 ^ f.fbits ∨ (2 ^ f.fbits ≤ q ∧ q < 2 * 2 ^ f.fbits) := by omega
  · have hd : d = 0 := by have := h.two_pow_le; omega
    have hlog : Nat.log2 q < f.fbits := by
      obtain rfl | hq := Nat.eq_zero_or_pos q
      · exact f.fbits_pos
      · exact (Nat.log2_lt hq.ne').2 hlt
    rw [hcode 0 (Nat.div_eq_of_lt hlt)]
    omega
  · have hlog : Nat.log2 q = f.fbits + 1 := by rw [heq, ← Nat.pow_succ', Nat.log2_two_pow]
    rw [hcode 2 (by rw [heq, Nat.mul_div_cancel _ hn])]
    omega
  · have hlog : Nat.log2 q = f.fbits := (Nat.log2_eq_iff (by omega)).2 ⟨hmid.1, by rw [Nat.pow_succ']; exact hmid.2⟩
    rw [hcode 1 (Nat.div_eq_of_lt_le (by omega) (by omega))]
    omega

end

/-! ### A finite number rounded (R116) -/

theorem mul_zpow_bounds {m : Nat} (hm : 0 < m) (e : Int) :
    (2 : ℝ) ^ (e + Nat.log2 m) ≤ m * 2 ^ e ∧ (m : ℝ) * 2 ^ e < 2 ^ (e + Nat.log2 m + 1) := by
  have hlo : ((2 : ℝ) ^ Nat.log2 m) ≤ m := by exact_mod_cast Nat.log2_self_le hm.ne'
  have hhi : (m : ℝ) < 2 ^ (Nat.log2 m + 1) := by exact_mod_cast Nat.lt_log2_self
  have he : (0 : ℝ) < 2 ^ e := zpow_pos two_pos e
  rw [add_assoc, zpow_add₀ two_ne_zero, zpow_add₀ two_ne_zero, mul_comm (m : ℝ)]
  exact ⟨mul_le_mul_of_nonneg_left (by exact_mod_cast hlo) he.le, mul_lt_mul_of_pos_left (by exact_mod_cast hhi) he⟩

/-- Does an overflow in the mode `rm` give infinity (R116)? -/
def overflowsToInf (rm : Nat) (neg : Bool) : Bool :=
  match rm with | 0 => true | 1 => false | 2 => !neg | _ => neg

theorem overflowsToInf_iff {rm : Nat} (hrm : rm < 4) (neg : Bool) : overflowsToInf rm neg = true ↔ rm = 0 ∨ RoundsUp rm neg := by
  unfold RoundsUp
  match rm, neg with
  | 0, _ | 1, _ | 2, true | 2, false | 3, true | 3, false => simp [overflowsToInf]

section
variable (f : Fmt) (nxm : Bool) (rm : Nat) (tuf neg : Bool) (m : Nat) (e : Int)

/-- The binade that holds a magnitude, 0 for the subnormal and the lowest normal numbers. -/
def Fmt.binade : Nat := (e + Nat.log2 m - f.fbits - f.qmin).toNat

theorem Fmt.quantum_eq : max (e + Nat.log2 m - f.fbits) f.qmin = f.qmin + f.binade m e := by
  unfold Fmt.binade
  omega

/-- Is the number, rounded as if the exponent had no lower bound, below the least normal number (R136)? -/
def Fmt.isTiny : Bool :=
  decide (e + Nat.log2 m < f.qmin + f.fbits) && !(decide (e + Nat.log2 m + 1 = f.qmin + f.fbits) &&
    (roundTo rm neg m e (e + Nat.log2 m - f.fbits)).1 == 2 ^ (f.fbits + 1))

variable {rm neg m e}

theorem Fmt.roundsIn (hrm : rm < 4) (hm : 0 < m) :
    f.RoundsIn rm neg (m * 2 ^ e) (2 ^ (f.qmin + f.binade m e)) (f.binade m e) (roundTo rm neg m e (f.qmin + f.binade m e)).1 where
  unit := rfl
  rounds := roundTo_isRounding hrm
  pos := mul_pos (Nat.cast_pos.2 hm) (zpow_pos two_pos e)
  low hd := by
    refine le_of_eq_of_le ?_ (mul_zpow_bounds hm e).1
    rw [← zpow_natCast, ← zpow_add₀ two_ne_zero]
    congr 1
    unfold Fmt.binade at hd ⊢
    omega
  high := by
    refine (mul_zpow_bounds hm e).2.trans_le ?_
    rw [← pow_succ', ← zpow_natCast, ← zpow_add₀ two_ne_zero]
    refine zpow_le_zpow_right₀ one_le_two ?_
    unfold Fmt.binade
    push_cast
    omega

variable (rm neg m e)

theorem Fmt.roundFin_of_fits
    (hfits : ¬ f.emax nxm < f.qmin + f.binade m e + Nat.log2 (roundTo rm neg m e (f.qmin + f.binade m e)).1) :
    let r := roundTo rm neg m e (f.qmin + f.binade m e)
    f.roundFin nxm rm tuf neg m e = (f.signed neg (f.binade m e * 2 ^ f.fbits + r.1),
      (if r.2 then 1 else 0) + (if f.isTiny rm neg m e && (r.2 || tuf) then 2 else 0)) := by
  have hd : (f.qmin + f.binade m e - f.qmin).toNat = f.binade m e := by omega
  unfold Fmt.roundFin
  dsimp only
  rw [f.quantum_eq, if_neg hfits, hd]
  rfl

theorem Fmt.roundFin_of_overflow
    (hover : f.emax nxm < f.qmin + f.binade m e + Nat.log2 (roundTo rm neg m e (f.qmin + f.binade m e)).1) :
    f.roundFin nxm rm tuf neg m e = (f.signed neg (if f.hasInf nxm && overflowsToInf rm neg then f.infCode else f.largest nxm), 5) := by
  unfold Fmt.roundFin
  dsimp only
  rw [f.quantum_eq, if_pos hover]
  rfl

variable {rm neg m e}

/-- Tiny after rounding (R136) by the magnitude alone: where only half the smallest quantum is the last place, by whether the magnitude rounds
up to the least normal number. -/
theorem Fmt.isTiny_iff (hrm : rm < 4) (hm : 0 < m) :
    f.isTiny rm neg m e = true ↔
      (rm = 0 → (m : ℝ) * 2 ^ e < 2 ^ (f.qmin + f.fbits) - 2 ^ (f.qmin - 2)) ∧
      (RoundsUp rm neg → (m : ℝ) * 2 ^ e ≤ 2 ^ (f.qmin + f.fbits) - 2 ^ (f.qmin - 1)) ∧
      (rm ≠ 0 → ¬ RoundsUp rm neg → (m : ℝ) * 2 ^ e < 2 ^ (f.qmin + f.fbits)) := by
  obtain ⟨hlo, hhi⟩ := mul_zpow_bounds hm e
  have hquarter : (0 : ℝ) < 2 ^ (f.qmin - 2) := zpow_pos two_pos _
  have hhalf : (2 : ℝ) ^ (f.qmin - 1) = 2 * 2 ^ (f.qmin - 2) := by
    rw [← zpow_one_add₀ two_ne_zero]
    congr 1
    omega
  unfold Fmt.isTiny
  obtain hbig | hedge | hsmall : f.qmin + f.fbits ≤ e + Nat.log2 m ∨ e + Nat.log2 m + 1 = f.qmin + f.fbits ∨
      e + Nat.log2 m + 2 ≤ f.qmin + f.fbits := by omega
  · have hx := (zpow_le_zpow_right₀ (one_le_two (α := ℝ)) hbig).trans hlo
    rw [decide_eq_false (not_lt.2 hbig), Bool.false_and]
    refine iff_of_false Bool.false_ne_true fun ⟨hnear, habove, hbelow⟩ => ?_
    by_cases h0 : rm = 0
    · linarith [hnear h0]
    · by_cases hup : RoundsUp rm neg
      · linarith [habove hup]
      · linarith [hbelow h0 hup]
  · have hunit : (2 : ℝ) ^ (f.qmin - 1) = 2 ^ (e + Nat.log2 m - f.fbits) := by congr 1; omega
    have hnormal : ((2 ^ (f.fbits + 1) : Nat) : ℝ) * 2 ^ (e + Nat.log2 m - f.fbits) = 2 ^ (f.qmin + f.fbits) := by
      rw [Nat.cast_pow, Nat.cast_ofNat, ← zpow_natCast, ← zpow_add₀ two_ne_zero]
      congr 1
      push_cast
      omega
    have htiny := (roundTo_isRounding hrm (neg := neg) (m := m) (e := e) (qe := e + Nat.log2 m - f.fbits)).ne_iff_lt
      (zpow_pos two_pos _) (n := 2 ^ (f.fbits + 1)) (by rw [Nat.pow_succ, Nat.mul_mod_left]) (by rw [hnormal, ← hedge]; exact hhi)
    have hhalf' : (2 : ℝ) ^ (e + Nat.log2 m - f.fbits) / 2 = 2 ^ (f.qmin - 2) := by rw [← hunit, hhalf]; ring
    rw [hnormal, hhalf', ← hunit] at htiny
    rw [← htiny, decide_eq_true hedge, decide_eq_true (by omega)]
    simp
  · have hx : (m : ℝ) * 2 ^ e < 2 ^ (f.qmin + f.fbits) - 2 ^ (f.qmin - 1) := by
      have hnext : (2 : ℝ) ^ (f.qmin + f.fbits) = 2 * 2 ^ (f.qmin + f.fbits - 1) := by
        rw [← zpow_one_add₀ two_ne_zero]
        congr 1
        omega
      have h1 := hhi.trans_le (zpow_le_zpow_right₀ (one_le_two (α := ℝ)) (show _ ≤ f.qmin + f.fbits - 1 by omega))
      have h2 : (2 : ℝ) ^ (f.qmin - 1) ≤ 2 ^ (f.qmin + f.fbits - 1) := zpow_le_zpow_right₀ one_le_two (by omega)
      linarith
    rw [decide_eq_true (by omega), decide_eq_false (by omega)]
    refine iff_of_true rfl ⟨fun _ => ?_, fun _ => hx.le, fun _ _ => ?_⟩ <;> linarith

/-- The conditions of a number that does not overflow, taken apart. -/
theorem conditions_iff (inexact tiny tuf : Bool) :
    let c := (if inexact then 1 else 0) + (if tiny && (inexact || tuf) then 2 else 0)
    c < 4 ∧ (c % 2 = 1 ↔ inexact = true) ∧ (2 ≤ c ↔ tiny = true ∧ (inexact = true ∨ tuf = true)) := by
  cases inexact <;> cases tiny <;> cases tuf <;> decide

/-- R116, R136: what a finite number rounds to. -/
theorem Fmt.roundFin_roundsTo (hrm : rm < 4) (hm : 0 < m) :
    roundsTo f nxm rm tuf neg (m * 2 ^ e) (f.roundFin nxm rm tuf neg m e) := by
  have h := f.roundsIn hrm hm (neg := neg) (e := e)
  refine ⟨_, fun h0 j hj => h.nearest h0 hj, h.least, h.greatest, fun hle => ?_, fun hlt => ?_⟩
  · beta_reduce
    rw [f.roundFin_of_fits nxm rm tuf neg m e ((not_congr (h.overflow_iff nxm)).2 (not_lt.2 hle)), h.magnitude, ← roundTo_inexact_iff]
    obtain ⟨hlt, hodd, htwo⟩ := conditions_iff (roundTo rm neg m e (f.qmin + f.binade m e)).2 (f.isTiny rm neg m e) tuf
    rw [f.isTiny_iff hrm hm] at htwo
    exact ⟨rfl, hlt, hodd, htwo⟩
  · have htoInf := overflowsToInf_iff hrm neg
    rw [f.roundFin_of_overflow nxm rm tuf neg m e ((h.overflow_iff nxm).2 hlt)]
    refine ⟨rfl, fun hinf hup => ?_, fun hno => congrArg (f.signed neg) (if_neg fun hboth => ?_)⟩
    · rw [hinf, htoInf.2 hup]
      rfl
    · obtain ⟨hinf, hup⟩ := Bool.and_eq_true_iff.1 hboth
      exact hno.elim (fun h => Bool.false_ne_true (h.symm.trans hinf)) fun h => h (htoInf.1 hup)

end

end Sys2Proof.Machine
end


section
/-! Codes that round to themselves (R107), zeros, infinities and NaNs rounded (R116), and exact sums and products (R129, R138). -/

namespace Sys2Proof.Machine

/-! ### Codes that round to themselves (R107) -/

section
variable (f : Fmt) (nxm : Bool) (rm : Nat) (tuf neg : Bool)

theorem Fmt.log2_le_fbits {m : Nat} (hm : 0 < m) (hhigh : m < 2 * 2 ^ f.fbits) : Nat.log2 m ≤ f.fbits :=
  Nat.lt_succ_iff.1 ((Nat.log2_lt hm.ne').2 (by rw [Nat.pow_succ']; exact hhigh))

/-- A number of the format is tiny where it is subnormal: rounded to the format's precision it stays what it is. -/
theorem Fmt.isTiny_code {d m : Nat} (hm : 0 < m) (hhigh : m < 2 * 2 ^ f.fbits) (hlow : d = 0 ∨ 2 ^ f.fbits ≤ m) :
    f.isTiny rm neg m (f.qmin + d) = true ↔ m < 2 ^ f.fbits := by
  have hlog := f.log2_le_fbits hm hhigh
  have hlog' : Nat.log2 m < f.fbits ↔ m < 2 ^ f.fbits := Nat.log2_lt hm.ne'
  have hsame : (roundTo rm neg m (f.qmin + d) (f.qmin + d + Nat.log2 m - f.fbits)).1 ≠ 2 ^ (f.fbits + 1) := by
    rw [roundTo_of_le (by omega)]
    refine ne_of_lt ?_
    calc m * 2 ^ (f.qmin + d - (f.qmin + d + Nat.log2 m - f.fbits)).toNat
        < 2 ^ (Nat.log2 m + 1) * 2 ^ (f.qmin + d - (f.qmin + d + Nat.log2 m - f.fbits)).toNat :=
          Nat.mul_lt_mul_of_pos_right Nat.lt_log2_self (Nat.two_pow_pos _)
      _ = 2 ^ (f.fbits + 1) := by
          rw [← Nat.pow_add]
          congr 1
          omega
  unfold Fmt.isTiny
  rw [beq_false_of_ne hsame, Bool.and_false, Bool.not_false, Bool.and_true, decide_eq_true_eq, ← hlog']
  omega

/-- The number of a code, `m` quanta of binade `d`, rounds to that code. -/
theorem Fmt.roundFin_code {d m : Nat} (hm : 0 < m) (hhigh : m < 2 * 2 ^ f.fbits) (hlow : d = 0 ∨ 2 ^ f.fbits ≤ m)
    (hle : d * 2 ^ f.fbits + m ≤ f.largest nxm) :
    f.roundFin nxm rm tuf neg m (f.qmin + d) = (f.signed neg (d * 2 ^ f.fbits + m), if m < 2 ^ f.fbits ∧ tuf = true then cUF else 0) := by
  have hbinade : f.binade m (f.qmin + d) = d := by
    have hlog := f.log2_le_fbits hm hhigh
    have hlog' : Nat.log2 m < f.fbits ↔ m < 2 ^ f.fbits := Nat.log2_lt hm.ne'
    unfold Fmt.binade
    omega
  have hround : roundTo rm neg m (f.qmin + d) (f.qmin + d) = (m, false) := by
    rw [roundTo_of_le le_rfl, sub_self, Int.toNat_zero, pow_zero, mul_one]
  have hu : (0 : ℝ) < 2 ^ (f.qmin + d) := zpow_pos two_pos _
  have hin : f.RoundsIn rm neg (m * 2 ^ (f.qmin + d)) (2 ^ (f.qmin + d)) d m :=
    { unit := rfl
      rounds := .refl rm neg m hu
      pos := mul_pos (Nat.cast_pos.2 hm) hu
      low := fun hd => mul_le_mul_of_nonneg_right (by exact_mod_cast hlow.resolve_left hd) hu.le
      high := mul_lt_mul_of_pos_right (by exact_mod_cast hhigh) hu }
  have hfits := (not_congr (hin.overflow_iff nxm)).2 (not_lt.2 hle)
  rw [f.roundFin_of_fits nxm rm tuf neg _ _ (by rw [hbinade, hround]; exact hfits), hbinade, hround]
  simp [f.isTiny_code rm neg hm hhigh hlow]

/-- A code is its sign and its magnitude. -/
theorem Fmt.signed_signOf {code : Nat} (hcode : code < 2 ^ f.width) :
    f.signed (f.signOf code) (code / 2 ^ f.fbits % 2 ^ f.ebits * 2 ^ f.fbits + code % 2 ^ f.fbits) = code := by
  have hmag : code / 2 ^ f.fbits % 2 ^ f.ebits * 2 ^ f.fbits + code % 2 ^ f.fbits = code % 2 ^ (f.width - 1) := by
    rw [f.width_sub_one, Nat.add_comm f.ebits, Nat.pow_add, Nat.mod_mul]
    ring
  have htop : code / 2 ^ (f.width - 1) < 2 := by
    have hwidth : f.width = f.width - 1 + 1 := by rw [f.width_sub_one]; unfold Fmt.width; omega
    rw [Nat.div_lt_iff_lt_mul (Nat.two_pow_pos _), ← Nat.pow_succ']
    exact hwidth ▸ hcode
  have hdm := Nat.div_add_mod' code (2 ^ (f.width - 1))
  unfold Fmt.signed Fmt.signOf
  rw [hmag, Nat.testBit_eq_decide_div_mod_eq, Nat.mod_eq_of_lt htop]
  obtain h0 | h1 := Nat.le_one_iff_eq_zero_or_eq_one.1 (Nat.lt_succ_iff.1 htop)
  · rw [h0, zero_mul] at hdm
    rw [h0]
    exact hdm
  · rw [h1, one_mul] at hdm
    rw [h1]
    exact hdm

/-- What a code that is no NaN is read as (R107, R110), with the places where its exponent field may stand. -/
theorem Fmt.value_cases {code : Nat} (hnan : (f.value nxm code).isNan = false) :
    let ex := code / 2 ^ f.fbits % 2 ^ f.ebits
    let fr := code % 2 ^ f.fbits
    (ex = 0 ∧ fr = 0 ∧ f.value nxm code = .zero (f.signOf code)) ∨
    (ex = 0 ∧ fr ≠ 0 ∧ f.value nxm code = .fin (f.signOf code) fr f.qmin) ∨
    (ex = 2 ^ f.ebits - 1 ∧ fr = 0 ∧ f.hasInf nxm = true ∧ f.value nxm code = .inf (f.signOf code)) ∨
    (0 < ex ∧ ex ≤ f.topField nxm ∧ f.value nxm code = .fin (f.signOf code) (2 ^ f.fbits + fr) (f.qmin + (ex - 1 : Nat))) := by
  have hex : code / 2 ^ f.fbits % 2 ^ f.ebits < 2 ^ f.ebits := Nat.mod_lt _ (Nat.two_pow_pos _)
  unfold Fmt.value at hnan ⊢
  dsimp only at hnan ⊢
  generalize code / 2 ^ f.fbits % 2 ^ f.ebits = ex, code % 2 ^ f.fbits = fr at *
  by_cases h0 : ex = 0
  · rw [if_pos h0]
    by_cases hfr : fr = 0
    · rw [if_pos hfr]
      exact .inl ⟨h0, hfr, rfl⟩
    · rw [if_neg hfr]
      exact .inr (.inl ⟨h0, hfr, rfl⟩)
  rw [if_neg h0] at hnan ⊢
  by_cases htop : (decide (ex = 2 ^ f.ebits - 1) && !f.extended nxm) = true
  · rw [if_pos htop] at hnan ⊢
    obtain ⟨hexTop, hext⟩ := Bool.and_eq_true_iff.1 htop
    by_cases he4m3 : f = .e4m3
    · rw [if_pos he4m3] at hnan
      exact Bool.noConfusion hnan
    rw [if_neg he4m3] at hnan ⊢
    by_cases hfr : fr = 0
    · rw [if_pos hfr]
      exact .inr (.inr (.inl ⟨of_decide_eq_true hexTop, hfr, by rw [Fmt.hasInf, hext, bne_iff_ne.2 he4m3, Bool.and_self], rfl⟩))
    · rw [if_neg hfr] at hnan
      exact Bool.noConfusion hnan
  · rw [if_neg htop]
    refine .inr (.inr (.inr ⟨Nat.pos_of_ne_zero h0, ?_, rfl⟩))
    unfold Fmt.topField
    cases hext : f.extended nxm
    · have hne : ex ≠ 2 ^ f.ebits - 1 := fun h => htop (by rw [decide_eq_true h, hext]; rfl)
      rw [if_neg Bool.false_ne_true]
      omega
    · rw [if_pos rfl]
      omega

theorem Fmt.round_value {code : Nat} (hcode : code < 2 ^ f.width) (hnan : (f.value nxm code).isNan = false) :
    f.round nxm rm tuf (f.value nxm code) =
      (code, if code / 2 ^ f.fbits % 2 ^ f.ebits = 0 ∧ code % 2 ^ f.fbits ≠ 0 ∧ tuf = true then cUF else 0) := by
  have hsigned := f.signed_signOf hcode
  have hfrac : code % 2 ^ f.fbits < 2 ^ f.fbits := Nat.mod_lt _ (Nat.two_pow_pos _)
  have hlargest := f.largest_add_one nxm
  have hcases := f.value_cases nxm hnan
  dsimp only at hcases
  generalize code / 2 ^ f.fbits % 2 ^ f.ebits = ex, code % 2 ^ f.fbits = fr at *
  obtain ⟨rfl, rfl, hv⟩ | ⟨rfl, hfr, hv⟩ | ⟨hex, rfl, hinf, hv⟩ | ⟨hpos, htop, hv⟩ := hcases
  · rw [hv, if_neg (by simp)]
    rw [zero_mul, zero_add] at hsigned
    exact congrArg (·, 0) hsigned
  · have hle : 0 * 2 ^ f.fbits + fr ≤ f.largest nxm := by rw [add_mul] at hlargest; omega
    have h := f.roundFin_code nxm rm tuf (f.signOf code) (Nat.pos_of_ne_zero hfr) (by omega) (.inl rfl) hle
    rw [Nat.cast_zero, add_zero, hsigned] at h
    rw [hv]
    refine h.trans (congrArg (code, ·) (if_congr ?_ rfl rfl))
    simp [hfr, hfrac]
  · have hex0 : ex ≠ 0 := by
      rw [hex]
      cases f <;> decide
    rw [hv, if_neg fun h => hex0 h.1]
    show (if f.hasInf nxm then _ else _) = _
    rw [if_pos hinf, Fmt.infCode, ← hex]
    exact congrArg (·, 0) hsigned
  · have hcode' : (ex - 1) * 2 ^ f.fbits + (2 ^ f.fbits + fr) = ex * 2 ^ f.fbits + fr := by
      obtain ⟨d, rfl⟩ := Nat.exists_eq_succ_of_ne_zero hpos.ne'
      rw [Nat.succ_sub_one, Nat.succ_mul, add_assoc]
    have hle : (ex - 1) * 2 ^ f.fbits + (2 ^ f.fbits + fr) ≤ f.largest nxm := by
      have := Nat.mul_le_mul_right (2 ^ f.fbits) htop
      rw [add_mul] at hlargest
      omega
    have h := f.roundFin_code nxm rm tuf (f.signOf code) (m := 2 ^ f.fbits + fr) (by omega) (by omega) (.inr (by omega)) hle
    rw [hcode', hsigned, if_neg (by omega)] at h
    rw [hv, if_neg fun h => hpos.ne' h.1]
    exact h

end

/-! ### Zeros, infinities and NaNs rounded (R116) -/

section
variable (f : Fmt) (nxm : Bool) (rm : Nat) (tuf neg sig : Bool)

theorem Fmt.round_zero : f.round nxm rm tuf (.zero neg) = (f.signed neg 0, 0) := rfl

theorem Fmt.hasInf_eq_true_iff : f.hasInf nxm = true ↔ f ≠ .e4m3 ∧ ¬ (f.narrow = true ∧ nxm = true) := by
  cases f <;> cases nxm <;> decide

theorem Fmt.extended_eq_true_iff : f.extended nxm = true ↔ f.narrow = true ∧ nxm = true := Bool.and_eq_true_iff

theorem Fmt.round_inf (h : f.hasInf nxm = true) : f.round nxm rm tuf (.inf neg) = (f.signed neg f.infCode, 0) := if_pos h

theorem Fmt.round_inf_extended (h : f.extended nxm = true) : f.round nxm rm tuf (.inf neg) = (f.signed neg (f.largest nxm), cNV) := by
  have hno : ¬ f.hasInf nxm = true := by simp [Fmt.hasInf, h]
  exact (if_neg hno).trans (if_pos h)

theorem Fmt.round_nan (h : ¬ f.extended nxm = true) : f.round nxm rm tuf (.nan sig) = (f.qnan, if sig then cNV else 0) := if_neg h

theorem Fmt.round_nan_extended (h : f.extended nxm = true) : f.round nxm rm tuf (.nan sig) = (0, cNV) := if_pos h

end

/-! ### Exact sums and products (R129, R138) -/

/-- The number that a finite value stands for. -/
def Val.number : Val → ℚ
  | .fin n m e => (if n then -1 else 1) * m * (2 : ℚ) ^ e
  | _ => 0

section
variable (rm : Nat) (n n' n2 z : Bool) (m m' m2 : Nat) (e e' e2 i : Int)

theorem Val.number_ofInt : (Val.ofInt i e z).number = i * 2 ^ e := by
  unfold Val.ofInt
  obtain rfl | hi := eq_or_ne i 0
  · simp [Val.number]
  · rw [if_neg hi]
    have habs : (if decide (i < 0) = true then (-1 : ℚ) else 1) * i.natAbs = i := by
      obtain hneg | hpos := lt_or_ge i 0
      · rw [if_pos (decide_eq_true hneg), Nat.cast_natAbs, abs_of_neg hneg]
        push_cast
        ring
      · rw [if_neg (by simpa using hpos), Nat.cast_natAbs, abs_of_nonneg hpos, one_mul]
    exact congrArg (· * (2 : ℚ) ^ e) habs

theorem scaled_mul_zpow {n : Bool} {m : Nat} {e lo : Int} (h : lo ≤ e) : (scaled n m e lo : ℚ) * 2 ^ lo = (Val.fin n m e).number := by
  unfold scaled Val.number
  dsimp only
  rw [zpow_eq_mul_two_pow h]
  cases n <;> simp [mul_assoc]

/-- The integer that a sum of two finite numbers is of the finer of their last places. -/
theorem scaled_add_mul_zpow :
    ((scaled n m e (min e e') + scaled n' m' e' (min e e') : Int) : ℚ) * 2 ^ min e e' = (Val.fin n m e).number + (Val.fin n' m' e').number := by
  rw [Int.cast_add, add_mul, scaled_mul_zpow (min_le_left e e'), scaled_mul_zpow (min_le_right e e')]

theorem Val.number_add : ((Val.fin n m e).add rm (.fin n' m' e')).1.number = (Val.fin n m e).number + (Val.fin n' m' e').number :=
  (Val.number_ofInt ..).trans (scaled_add_mul_zpow ..)

theorem Val.number_mul : ((Val.fin n m e).mul (.fin n' m' e')).1.number = (Val.fin n m e).number * (Val.fin n' m' e').number := by
  show (if (n != n') = true then (-1 : ℚ) else 1) * (m * m' : Nat) * 2 ^ (e + e') =
    ((if n = true then -1 else 1) * m * 2 ^ e) * ((if n' = true then -1 else 1) * m' * 2 ^ e')
  have hsign : (if (n != n') = true then (-1 : ℚ) else 1) = (if n = true then -1 else 1) * (if n' = true then -1 else 1) := by
    cases n <;> cases n' <;> norm_num
  rw [hsign, zpow_add₀ two_ne_zero]
  push_cast
  ring

theorem Val.number_fma : ((Val.fin n m e).fma rm (.fin n' m' e') (.fin n2 m2 e2)).1.number =
    (Val.fin n m e).number * (Val.fin n' m' e').number + (Val.fin n2 m2 e2).number :=
  (Val.number_add rm (n != n') n2 (m * m') m2 (e + e') e2).trans (congrArg (· + _) (Val.number_mul ..))

variable {n n' m m' e e'}

theorem Val.add_of_cancel (h : (Val.fin n m e).number + (Val.fin n' m' e').number = 0) :
    ((Val.fin n m e).add rm (.fin n' m' e')).1 = .zero (rm == 3) := by
  rw [← scaled_add_mul_zpow, mul_eq_zero, or_iff_left (zpow_pos two_pos _).ne', Int.cast_eq_zero] at h
  exact if_pos h

end

/-- Settles O39: a code that is no NaN by the binade it stands in, any finite number by the code of its binade that its magnitude rounds to,
sums and products by the integers they are of their last places. -/
theorem numbersRound : Obligations.NumbersRound := by
  unfold Obligations.NumbersRound
  refine ⟨fun f nxm tuf rm code hcode hnan => f.round_value nxm rm tuf hcode hnan,
    fun f nxm tuf neg rm m e hrm hm => f.roundFin_roundsTo nxm tuf hrm hm, fun f nxm tuf neg sig rm => ?special,
    fun rm m k neg hrm => ?shift, fun rm n n' m m' e e' _ _ => ?arithmetic⟩
  case special =>
    intro sign wide
    have hwide : f.extended nxm = true ↔ wide := f.extended_eq_true_iff nxm
    refine ⟨f.round_zero nxm rm tuf neg, fun he4m3 hw => ?_, ?_, fun hw => ⟨?_, ?_⟩, fun hw => ?_⟩
    · exact f.round_inf nxm rm tuf neg ((f.hasInf_eq_true_iff nxm).2 ⟨he4m3, hw⟩)
    · rintro rfl
      rfl
    · rw [f.round_inf_extended nxm rm tuf neg (hwide.2 hw), Fmt.largest, if_pos (hwide.2 hw), Nat.add_sub_assoc (Nat.two_pow_pos _)]
      rfl
    · exact f.round_nan_extended nxm rm tuf sig (hwide.2 hw)
    · exact f.round_nan nxm rm tuf sig (mt hwide.1 hw)
  case shift =>
    refine ⟨roundShift_inexact_iff rm neg m k, ?_, ?_, ?_, ?_⟩
    · rintro rfl
      obtain ⟨hle, heven⟩ := roundShift_nearest neg m k
      exact ⟨hle, fun htie _ => heven htie⟩
    · rintro rfl
      exact roundShift_towardZero neg m k
    · rintro rfl
      exact roundShift_towardPlus neg m k
    · rintro rfl
      exact roundShift_towardMinus neg m k
  case arithmetic =>
    intro value x y
    have hvalue (v : Val) : value v = v.number := by cases v <;> rfl
    simp only [hvalue]
    exact ⟨Val.number_add .., rfl, Val.number_mul .., rfl, Val.add_of_cancel rm, fun n2 m2 e2 _ => Val.number_fma ..⟩

end Sys2Proof.Machine
end


section
/-! Floating-point conditions and lanes (06_vector R134 to R137): elements of a register made of lanes, the lowest lane that raised an enabled
condition, and what an operation comes to whose conditions are known as it issues. -/

namespace Sys2Proof.Machine

/-! ### Elements of a register (R134) -/

section
variable {w : Nat}

theorem lane_lt (v : VWord) (j : Nat) : lane w v j < 2 ^ (8 * w) := Nat.mod_lt _ (Nat.two_pow_pos _)

/-- An element by the number that the register is made of. -/
theorem lane_ofNat (n : Nat) {j : Nat} (hj : w * (j + 1) ≤ 128) : lane w (BitVec.ofNat 1024 n) j = n / 2 ^ (8 * w * j) % 2 ^ (8 * w) := by
  refine Nat.eq_of_testBit_eq fun i => ?_
  rw [lane, BitVec.toNat_ofNat]
  simp only [Nat.testBit_mod_two_pow, Nat.testBit_div_two_pow]
  by_cases hi : i < 8 * w
  · have hin : i + 8 * w * j < 1024 := by
      rw [Nat.mul_succ] at hj
      rw [Nat.mul_assoc]
      omega
    simp [hin]
  · simp [hi]

/-- The number that elements make, an element of it. -/
theorem foldr_lanes_div (l : List Nat) (j : Nat) :
    l.foldr (fun x acc => x % 2 ^ (8 * w) + 2 ^ (8 * w) * acc) 0 / 2 ^ (8 * w * j) % 2 ^ (8 * w) = l.getD j 0 % 2 ^ (8 * w) := by
  have hn := Nat.two_pow_pos (8 * w)
  induction l generalizing j with
  | nil => simp
  | cons x t ih =>
    rw [List.foldr_cons]
    cases j with
    | zero => simp
    | succ j =>
      rw [List.getD_cons_succ, ← ih j, Nat.mul_succ, Nat.add_comm (8 * w * j), Nat.pow_add, ← Nat.div_div_eq_div_mul,
        Nat.add_mul_div_left _ _ hn, Nat.div_eq_of_lt (Nat.mod_lt _ hn), Nat.zero_add]

theorem lane_ofLanes (l : List Nat) {j : Nat} (hj : w * (j + 1) ≤ 128) : lane w (ofLanes w l) j = l.getD j 0 % 2 ^ (8 * w) := by
  rw [ofLanes, lane_ofNat _ hj, foldr_lanes_div]

theorem mul_succ_le_of_lt_div {j : Nat} (hj : j < 128 / w) : w * (j + 1) ≤ 128 := (Nat.mul_le_mul_left w hj).trans (Nat.mul_div_le 128 w)

/-- Elements given one by one: those past the last are 0. -/
theorem lane_ofLanes_range (n : Nat) (g : Nat → Nat) {j : Nat} (hj : j < 128 / w) :
    lane w (ofLanes w ((List.range n).map g)) j = if j < n then g j % 2 ^ (8 * w) else 0 := by
  rw [lane_ofLanes _ (mul_succ_le_of_lt_div hj), List.getD_eq_getElem?_getD, List.getElem?_map]
  by_cases h : j < n
  · rw [if_pos h, List.getElem?_range h]
    rfl
  · rw [if_neg h, List.getElem?_eq_none (by simpa using h)]
    exact Nat.zero_mod _

end

theorem elemSize_cases (t : Nat) : elemSize t = 8 ∨ elemSize t = 4 ∨ elemSize t = 2 ∨ elemSize t = 1 := by
  unfold elemSize
  split <;> simp

theorem elemCount_le (t : Nat) : elemCount t ≤ 128 := Nat.div_le_self _ _

theorem mem_activeLanes {t : Nat} {k : Word} {j : Nat} : j ∈ activeLanes t k ↔ j < elemCount t ∧ active t k j = true := by
  rw [activeLanes, List.mem_filter, List.mem_range]

/-! ### Conditions of elements (R137) -/

/-- No condition of a union is enabled exactly where none of its parts has an enabled one. -/
theorem unionCond_land_eq_zero_iff (l : List Nat) (en : Nat) : unionCond l &&& en = 0 ↔ ∀ c ∈ l, c &&& en = 0 := by
  induction l with
  | nil => simp [unionCond]
  | cons c t ih => rw [unionCond_cons, Nat.and_or_distrib_right, Nat.or_eq_zero_iff, ih, List.forall_mem_cons]

theorem foldl_min_spec (l : List Nat) (n : Nat) :
    (l.foldl min n = n ∨ l.foldl min n ∈ l) ∧ l.foldl min n ≤ n ∧ ∀ x ∈ l, l.foldl min n ≤ x := by
  induction l generalizing n with
  | nil => simp
  | cons a t ih =>
    obtain ⟨hin, hle, hall⟩ := ih (min n a)
    rw [List.foldl_cons]
    refine ⟨?_, hle.trans (min_le_left _ _), List.forall_mem_cons.2 ⟨hle.trans (min_le_right _ _), hall⟩⟩
    obtain heq | hmem := hin
    · obtain h | h := min_choice n a
      · exact .inl (heq.trans h)
      · exact .inr (by rw [heq, h]; exact List.mem_cons_self)
    · exact .inr (List.mem_cons_of_mem _ hmem)

/-- The lane that a trap names raised an enabled condition, and none below it did. -/
theorem firstLane_spec {en : Nat} {l : List (Nat × Nat)} (h : unionCond (l.map (·.2)) &&& en ≠ 0) :
    (∃ c, (firstLane en l, c) ∈ l ∧ c &&& en ≠ 0) ∧ ∀ e ∈ l, e.2 &&& en ≠ 0 → firstLane en l ≤ e.1 := by
  have hraised (j : Nat) : j ∈ (l.filter fun e => e.2 &&& en != 0).map (·.1) ↔ ∃ c, (j, c) ∈ l ∧ c &&& en ≠ 0 := by simp
  have hsome : ∃ e ∈ l, e.2 &&& en ≠ 0 := by
    by_contra hno
    push Not at hno
    exact h ((unionCond_land_eq_zero_iff _ en).2 fun c hc => by
      obtain ⟨e, he, rfl⟩ := List.mem_map.1 hc
      exact hno e he)
  unfold firstLane
  cases hl : (l.filter fun e => e.2 &&& en != 0).map (·.1) with
  | nil =>
    obtain ⟨e, he, hen⟩ := hsome
    exact absurd (hl ▸ (hraised e.1).2 ⟨e.2, he, hen⟩) List.not_mem_nil
  | cons x t =>
    obtain ⟨hin, hle, hall⟩ := foldl_min_spec t x
    rw [hl] at hraised
    dsimp only
    refine ⟨(hraised _).1 ?_, fun e he hen => ?_⟩
    · obtain heq | hmem := hin
      · rw [heq]
        exact List.mem_cons_self
      · exact List.mem_cons_of_mem _ hmem
    · obtain heq | hmem := List.mem_cons.1 ((hraised e.1).2 ⟨e.2, he, hen⟩)
      · rw [heq]
        exact hle
      · exact hall _ hmem

/-! ### An operation whose conditions are known as it issues (R137) -/

theorem enables_eq_trapsOn (s : State) : s.me.enables = trapsOn s := congrArg (· % 2 ^ 5) (Nat.shiftRight_eq_div_pow _ _)

theorem floatTval_at_instruction (lane cond : Nat) : floatTval none lane cond = BitVec.ofNat 64 (lane % 2 ^ 7 * 2 ^ 8 + cond) := by
  rw [floatTval, Nat.zero_add]
  rfl

section
variable (s : State) (conds : List (Nat × Nat)) (effect : Ctx → Ctx)

theorem State.floatOp_completes (h : unionCond (conds.map (·.2)) &&& trapsOn s = 0) :
    s.floatOp conds effect = (flagged s (unionCond (conds.map (·.2)))).step1 effect := by
  unfold State.floatOp
  dsimp only
  rw [enables_eq_trapsOn, if_pos h]
  rfl

/-- Where nothing stands in the way the trap is taken with the conditions recorded (R137, R242). -/
theorem State.trap_raise_enters (cond : Nat) (tval : Word) (htraps : takesTraps s.me) :
    entersTrap (flagged s cond) (s.trap cFloat tval fun c => c.raise cond) 0x05 tval := by
  obtain ⟨houts, hlater, hdeferred, hcarry, hattempt, hen, hin⟩ := htraps
  have e := State.trap_is s cFloat tval (fun c => c.raise cond) rfl ⟨houts, hlater, hdeferred, hcarry, hattempt, hen, hin⟩
    hdeferred hcarry hattempt hen hin
  have hme : (s.trap cFloat tval fun c => c.raise cond).me = (s.me.again.raise cond).enter cFloat 0 tval s.me.pc := by
    rw [e]
    simp only [State.me, State.onMe, State.onCtx_cur, State.onCtx_ctx_same, id]
  refine ⟨⟨by rw [e]; rfl, fun k hk => ?_, by rw [e]; exact ⟨fun _ => rfl, fun _ _ => rfl⟩⟩, ?_⟩
  · rw [e]
    have hk' : k ≠ s.cur := hk
    simp [hk', State.onMe, flagged]
  · rw [hme]
    simp [Ctx.enter, Ctx.openWindow, Ctx.again, Ctx.raise, flagged, hattempt, asyncCode]

/-- Where an enabled condition is raised the trap is taken, which names the lowest lane that raised one. -/
theorem floatOp_traps {i : Instr} (hexec : exec i s = .next (s.floatOp conds effect)) (hlanes : ∀ e ∈ conds, e.1 < 128)
    (h : unionCond (conds.map (·.2)) &&& trapsOn s ≠ 0) (htraps : takesTraps s.me) :
    ∃ (t : State) (j : Nat), exec i s = .next t ∧ (∃ c, (j, c) ∈ conds ∧ c &&& trapsOn s ≠ 0) ∧
      (∀ e ∈ conds, e.2 &&& trapsOn s ≠ 0 → j ≤ e.1) ∧ entersTrap (flagged s (unionCond (conds.map (·.2)))) t 0x05
        (BitVec.ofNat 64 (j * 2 ^ 8 + unionCond (conds.map (·.2)))) := by
  obtain ⟨⟨c, hmem, hen⟩, hlowest⟩ := firstLane_spec h
  have hlane : firstLane (trapsOn s) conds < 2 ^ 7 := hlanes _ hmem
  refine ⟨_, firstLane (trapsOn s) conds, hexec, ⟨c, hmem, hen⟩, hlowest, ?_⟩
  unfold State.floatOp
  dsimp only
  rw [enables_eq_trapsOn, if_neg h, floatTval_at_instruction, Nat.mod_eq_of_lt hlane]
  exact s.trap_raise_enters _ _ htraps

end

end Sys2Proof.Machine
end


section
/-! The vector instructions of active elements (06_vector R138 to R144, R147 to R150). -/

namespace Sys2Proof.Machine

/-! ### What an instruction of active elements comes to (R135, R137) -/

section
variable {s : State} {i : Instr} {v : BitVec 5} {k : BitVec 3} {type w n : Nat} {f g : Nat → Nat × Nat}

/-- An instruction that computes the first `n` elements of vd: what is written of a value are its low bits. -/
theorem convertLanes_computes (hexec : exec i s = convertLanes v k type w n g s) (hn : n ≤ 128)
    (hvalue : ∀ j, j < n → active type (s.me.getK k) j = true → (g j).1 % 2 ^ (8 * w) = (f j).1 % 2 ^ (8 * w))
    (hconds : ∀ j, j < n → active type (s.me.getK k) j = true → (g j).2 = (f j).2) : computesLanes s i v k type w n f := by
  have hmem {j : Nat} : j ∈ (List.range n).filter (active type (s.me.getK k)) ↔ j < n ∧ active type (s.me.getK k) j = true := by
    rw [List.mem_filter, List.mem_range]
  have hlist : ((List.range n).filter (active type (s.me.getK k))).map (fun j => (j, (g j).2)) =
      ((List.range n).filter (active type (s.me.getK k))).map fun j => (j, (f j).2) :=
    List.map_congr_left fun j hj => congrArg (j, ·) (hconds j (hmem.1 hj).1 (hmem.1 hj).2)
  have hcond : (((List.range n).filter (active type (s.me.getK k))).map fun j => (j, (f j).2)).map (·.2) =
      ((List.range n).filter (active type (s.me.getK k))).map fun j => (f j).2 := List.map_map
  unfold convertLanes at hexec
  dsimp only at hexec
  rw [hlist] at hexec
  unfold computesLanes
  dsimp only
  refine ⟨fun h => ?completes, fun h htraps => ?traps⟩
  case completes =>
    rw [State.floatOp_completes _ _ _ (by rw [hcond]; exact h), hcond] at hexec
    refine ⟨_, _, hexec, State.writesV_gives _ v _, fun j hj => ?_⟩
    rw [lane_ofLanes_range n _ hj]
    refine ite_congr rfl (fun hjn => ?_) fun _ => rfl
    split
    · next hon => exact hvalue j hjn hon
    · exact Nat.mod_eq_of_lt (lane_lt _ _)
  case traps =>
    obtain ⟨t, j, ht, ⟨c, hc, hen⟩, hlowest, htrap⟩ := floatOp_traps s _ _ hexec (fun e he => by
      obtain ⟨j, hj, rfl⟩ := List.mem_map.1 he
      exact (hmem.1 hj).1.trans_le hn) (by rw [hcond]; exact h) htraps
    obtain ⟨j', hj, heq⟩ := List.mem_map.1 hc
    obtain ⟨rfl, rfl⟩ := Prod.mk.inj heq
    rw [hcond] at htrap
    refine ⟨t, j', ht, (hmem.1 hj).1, (hmem.1 hj).2, hen, fun x hx hon => ?_, htrap⟩
    by_contra hraised
    have hle := hlowest (x, (f x).2) (List.mem_map.2 ⟨x, hmem.2 ⟨hx.trans (hmem.1 hj).1, hon⟩, rfl⟩) hraised
    exact absurd hx (Nat.not_lt.2 hle)

variable {t : Nat}

/-- An instruction that computes every active element of vd. -/
theorem vectorOp_computes (hexec : exec i s = vectorOp v k t g s)
    (hvalue : ∀ j, active t (s.me.getK k) j = true → j < elemCount t → (g j).1 % 2 ^ (8 * elemSize t) = (f j).1 % 2 ^ (8 * elemSize t))
    (hconds : ∀ j, (g j).2 = (f j).2) : computesLanes s i v k t (elemSize t) (128 / elemSize t) f :=
  convertLanes_computes hexec (elemCount_le t) (fun j hj hon => hvalue j hon hj) fun j _ _ => hconds j

/-- The same where what it computes is what the statement says. -/
theorem vectorOp_computes_same (hexec : exec i s = vectorOp v k t g s) (h : ∀ j, g j = f j) :
    computesLanes s i v k t (elemSize t) (128 / elemSize t) f :=
  vectorOp_computes hexec (fun j _ _ => by rw [h]) fun j => by rw [h]

theorem typed_of_float {fl : Fmt → Nat → Nat → Nat × Nat} {int : Int → Int → Int} {a b : Nat} {m : Fmt} (h : fmtOf t = some m) :
    typed t fl int a b = fl m a b := by
  unfold typed
  rw [h]

theorem typed_of_int {fl : Fmt → Nat → Nat → Nat × Nat} {int : Int → Int → Int} {a b : Nat} (h : fmtOf t = none) :
    typed t fl int a b = (codeOf (int (sint a (8 * elemSize t)) (sint b (8 * elemSize t))) (8 * elemSize t), 0) := by
  unfold typed
  rw [h]

/-- An operation of the element's type: the floating one, or the integer one (R134). -/
theorem typed_computes {fl : Fmt → Nat → Nat → Nat × Nat} {int : Int → Int → Int} {c d : Nat → Nat}
    (hexec : exec i s = vectorOp v k t (fun j => typed t fl int (c j) (d j)) s)
    (hfloat : ∀ m, fmtOf t = some m → ∀ j, fl m (c j) (d j) = f j)
    (hint : fmtOf t = none → ∀ j,
      (codeOf (int (sint (c j) (8 * elemSize t)) (sint (d j) (8 * elemSize t))) (8 * elemSize t), 0) = f j) :
    computesLanes s i v k t (elemSize t) (128 / elemSize t) f :=
  vectorOp_computes_same hexec fun j => by
    cases h : fmtOf t with
    | none => rw [typed_of_int h, hint h]
    | some m => rw [typed_of_float h, hfloat m h]

end

/-! ### Codes of integers (R134) -/

section
variable {n c d : Nat}

theorem codeOf_eq (i : Int) (n : Nat) : codeOf i n = (i % (2 : Int) ^ n).toNat := by
  unfold codeOf
  push_cast
  rfl

theorem sint_eq (hn : 0 < n) (hc : c < 2 ^ n) : sint c n = if c < 2 ^ (n - 1) then (c : Int) else c - 2 ^ n := by
  have hpow : 2 ^ n = 2 * 2 ^ (n - 1) := by rw [← Nat.pow_succ', Nat.succ_eq_add_one, Nat.sub_add_cancel hn]
  unfold sint
  dsimp only
  rw [Nat.mod_eq_of_lt hc]
  by_cases h : c < 2 ^ (n - 1)
  · rw [if_neg (by omega), if_pos h]
  · rw [if_pos (by omega), if_neg h]

theorem sint_modEq (c n : Nat) : sint c n ≡ c [ZMOD 2 ^ n] := by
  have hcast : ((c % 2 ^ n : Nat) : Int) ≡ c [ZMOD 2 ^ n] := by
    push_cast
    exact Int.mod_modEq _ _
  unfold sint
  dsimp only
  split
  · exact (Int.modEq_sub_modulus_iff.2 hcast.symm).symm
  · exact hcast

theorem codeOf_sint (hc : c < 2 ^ n) : codeOf (sint c n) n = c := by
  rw [codeOf_eq, sint_modEq c n]
  have : ((c : Int) % 2 ^ n) = ((c % 2 ^ n : Nat) : Int) := by push_cast; rfl
  rw [this, Int.toNat_natCast, Nat.mod_eq_of_lt hc]

theorem elemBits_pos (t : Nat) : 0 < 8 * elemSize t := by
  have := elemSize_cases t
  omega

theorem sint_lane (t : Nat) (v : VWord) (j : Nat) : sint (lane (elemSize t) v j) (8 * elemSize t) =
    if lane (elemSize t) v j < 2 ^ (8 * elemSize t - 1) then (lane (elemSize t) v j : Int)
    else lane (elemSize t) v j - 2 ^ (8 * elemSize t) :=
  sint_eq (elemBits_pos t) (lane_lt v j)

theorem codeOf_min (hc : c < 2 ^ n) (hd : d < 2 ^ n) : codeOf (min (sint c n) (sint d n)) n = if sint c n ≤ sint d n then c else d := by
  rw [min_def]
  split
  · exact codeOf_sint hc
  · exact codeOf_sint hd

theorem codeOf_max (hc : c < 2 ^ n) (hd : d < 2 ^ n) : codeOf (max (sint c n) (sint d n)) n = if sint c n ≤ sint d n then d else c := by
  rw [max_def]
  split
  · exact codeOf_sint hd
  · exact codeOf_sint hc

/-- A product and a sum of the codes is that of the signed numbers, as either wraps. -/
theorem mul_add_mod_eq_codeOf (n a b c : Nat) : (a * b + c) % 2 ^ n = codeOf (sint a n * sint b n + sint c n) n := by
  rw [codeOf_eq, ((sint_modEq a n).mul (sint_modEq b n)).add (sint_modEq c n), ← Int.toNat_natCast ((a * b + c) % 2 ^ n)]
  push_cast
  rfl

end

/-! ### Codes of floating formats -/

theorem width_of_fmtOf {t : Nat} {m : Fmt} (h : fmtOf t = some m) : m.width = 8 * elemSize t := by
  unfold fmtOf at h
  split at h <;> cases h <;> rfl

/-- The format of a type field that names floating formats only. -/
theorem fmtOf_fmtField (u : BitVec 2) : fmtOf u.toNat = some (fmtField u) := by
  revert u
  decide

theorem flipSign_eq {n c : Nat} (hn : 0 < n) (hc : c < 2 ^ n) : flipSign n c = (c + 2 ^ (n - 1)) % 2 ^ n := by
  have hpow : 2 ^ n = 2 * 2 ^ (n - 1) := by rw [← Nat.pow_succ', Nat.succ_eq_add_one, Nat.sub_add_cancel hn]
  unfold flipSign
  by_cases h : c < 2 ^ (n - 1)
  · rw [if_neg (by simp [Nat.testBit_lt_two_pow h]), Nat.mod_eq_of_lt (by omega)]
  · have hbit : c.testBit (n - 1) = true := by
      rw [Nat.testBit_eq_decide_div_mod_eq, Nat.div_eq_of_lt_le (k := 1) (by omega) (by omega)]
      rfl
    rw [if_pos hbit, Nat.mod_eq_sub_mod (by omega), Nat.mod_eq_of_lt (by omega)]
    omega

/-! ### vexpand (R144) -/

/-- An active element's place among the active ones is the number of those below it. -/
theorem idxOf_activeLanes {t : Nat} {k : Word} {j : Nat} (hj : j < elemCount t) (hon : active t k j = true) :
    (activeLanes t k).idxOf j = ((List.range j).filter (active t k)).length := by
  obtain ⟨r, hr⟩ := Nat.exists_eq_add_of_lt hj
  have hrange : List.range (elemCount t) = List.range j ++ j :: (List.range r).map (j + 1 + ·) := by
    rw [hr, Nat.add_assoc, List.range_add, List.range_succ_eq_map]
    simp [Function.comp_def, Nat.add_assoc, Nat.add_comm 1]
  rw [activeLanes, hrange, List.filter_append, List.idxOf_append_of_notMem (by simp), List.filter_cons_of_pos hon,
    List.idxOf_cons_self, Nat.add_zero]

/-! ### The instructions -/

/-- Settles O40: each instruction by what it computes of an active element. -/
theorem vectorElements : Obligations.VectorElements := by
  intro s sb v a b e k t u o m nxm va vb vd ty w bits x y does each signed mod uw ubits usigned bitwise src usrc
  have ofFloat {fl : Fmt → Nat → Nat → Nat × Nat} {int : Nat → Nat → Nat} {g : Fmt} (hg : fmtOf ty = some g) (j : Nat) :
      fl g (x j) (y j) = each fl int j := by simp only [each, hg]
  have ofInt {fl : Fmt → Nat → Nat → Nat × Nat} {int : Nat → Nat → Nat} (hnone : fmtOf ty = none) {n j : Nat} (h : n = int (x j) (y j)) :
      (n, 0) = each fl int j := by simp only [each, hnone, h]
  clear_value each
  have hx (j : Nat) : sint (x j) bits = signed (x j) := sint_lane ty va j
  have hy (j : Nat) : sint (y j) bits = signed (y j) := sint_lane ty vb j
  have hop (int : Int → Int → Int) (j : Nat) :
      codeOf (int (sint (x j) bits) (sint (y j) bits)) bits = mod (int (signed (x j)) (signed (y j))) := by
    rw [hx, hy, codeOf_eq]
  have arithmetic {i : Instr} {fl : Fmt → Nat → Nat → Nat × Nat} {int : Int → Int → Int} {int' : Nat → Nat → Nat}
      (hexec : exec i s = vectorBin (typed ty fl int) v a b k ty s)
      (hint : ∀ j, codeOf (int (sint (x j) bits) (sint (y j) bits)) bits = int' (x j) (y j)) : does i (each fl int') :=
    typed_computes hexec (fun _ hg => ofFloat hg) fun hn j => ofInt hn (hint j)
  refine ⟨arithmetic rfl (hop _), arithmetic rfl (hop _), arithmetic rfl (hop _), ?min, ?max, ?abs, ?neg, ?exp2, ?fma, ?and, ?or, ?xor, ?shl,
    ?shr, ?perm, ?bcast, ?slide, ?expand, ?cvt, ?cvtFp8, ?qunpack⟩
  case min =>
    refine arithmetic rfl fun j => ?_
    rw [← hx, ← hy]
    exact codeOf_min (lane_lt va j) (lane_lt vb j)
  case max =>
    refine arithmetic rfl fun j => ?_
    rw [← hx, ← hy]
    exact codeOf_max (lane_lt va j) (lane_lt vb j)
  case abs =>
    refine typed_computes (d := fun _ => 0) rfl (fun g hg j => ?_) fun hn j => ofInt hn ?_
    · refine Eq.trans ?_ (ofFloat hg j)
      exact congrArg (fun n => (clearSign n (x j), 0)) (width_of_fmtOf hg)
    · exact hop (fun c _ => c.natAbs) j
  case neg =>
    refine typed_computes (d := fun _ => 0) rfl (fun g hg j => ?_) fun hn j => ofInt hn ?_
    · refine Eq.trans ?_ (ofFloat hg j)
      exact congrArg (·, 0) ((congrArg (flipSign · (x j)) (width_of_fmtOf hg)).trans (flipSign_eq (elemBits_pos ty) (lane_lt va j)))
    · exact hop (fun c _ => -c) j
  case exp2 => exact vectorOp_computes_same rfl fun j => by rw [fmtOf_fmtField u]; rfl
  case fma =>
    refine vectorOp_computes_same rfl fun j => ?_
    cases h : fmtOf ty with
    | some g => rfl
    | none =>
      refine congrArg (·, 0) ((mul_add_mod_eq_codeOf bits (x j) (y j) (lane w vd j)).trans ?_)
      rw [hx, hy, sint_lane ty vd j, codeOf_eq]
  case shr =>
    refine vectorOp_computes_same rfl fun j => congrArg (·, 0) ?_
    show codeOf (sint (lane uw va j) ubits / 2 ^ (lane uw vb j % ubits)) ubits = _
    rw [sint_lane (4 + u.toNat) va j, codeOf_eq]
  case bcast => exact vectorOp_computes rfl (fun _ _ _ => Nat.mod_mod _ _) fun _ => rfl
  case expand =>
    refine vectorOp_computes rfl (fun j hon hj => ?_) fun _ => rfl
    show lane w va ((activeLanes ty (s.me.getK k)).idxOf j) % _ = _
    rw [idxOf_activeLanes hj hon]
  case cvt => exact convertLanes_computes rfl ((min_le_left _ _).trans (Nat.div_le_self _ _)) (fun _ _ _ => rfl) fun _ _ _ => rfl
  case cvtFp8 => exact convertLanes_computes rfl (Nat.div_le_self _ _) (fun _ _ _ => rfl) fun _ _ _ => rfl
  case qunpack =>
    exact convertLanes_computes rfl ((min_le_left _ _).trans (by decide))
      (fun _ _ _ => by rw [show 1016 = 8 * 127 from rfl]; rfl) fun _ _ _ => by rw [show 1016 = 8 * 127 from rfl]; rfl
  case and | or | xor | shl | perm | slide => exact vectorOp_computes_same rfl fun _ => rfl

end Sys2Proof.Machine
end


section
/-! Reductions over the fixed tree (06_vector R143), and the instructions that write every element of vd: vcompress, vsel and vqpack (R144,
R149). -/

namespace Sys2Proof.Machine

/-! ### Unions of conditions -/

section
variable {α : Type} (l : List α) (f g : α → Nat)

theorem unionCond_map_lor : unionCond (l.map fun a => f a ||| g a) = unionCond (l.map f) ||| unionCond (l.map g) := by
  induction l with
  | nil => exact (Nat.or_self 0).symm
  | cons a t ih =>
    simp only [List.map_cons, unionCond_cons, ih]
    ac_rfl

theorem unionCond_map_filter (p : α → Bool) : unionCond ((l.filter p).map f) = unionCond (l.map fun a => if p a then f a else 0) := by
  induction l with
  | nil => rfl
  | cons a t ih =>
    rw [List.filter_cons, List.map_cons, unionCond_cons, ← ih]
    split
    · rw [List.map_cons, unionCond_cons]
    · rw [Nat.zero_or]

theorem unionCond_range_two_mul (g : Nat → Nat) (m : Nat) :
    unionCond ((List.range (2 * m)).map g) = unionCond ((List.range m).map fun i => g (2 * i) ||| g (2 * i + 1)) := by
  induction m with
  | zero => rfl
  | succ m ih =>
    have hone (c : Nat) : unionCond [c] = c := Nat.zero_or c
    rw [Nat.mul_succ, List.range_succ, List.range_succ, List.range_succ (n := m)]
    simp only [List.map_append, List.map_cons, List.map_nil, unionCond_append, hone, ih, Nat.or_assoc]

end

/-! ### Levels of the tree -/

section
variable (op : Nat → Nat → Nat × Nat)

/-- Two places of the tree made one: EMPTY gives way, and the lowest lane stands for both. -/
def joined : Place → Place → Place
  | none, y => y
  | x, none => x
  | some (u, i), some (v, _) => some ((op u v).1, i)

/-- The conditions of that step, under the lowest lane. -/
def raisedBy : Place → Place → List (Nat × Nat)
  | some (u, i), some (v, _) => [(i, (op u v).2)]
  | _, _ => []

theorem treeLevel_cons (x y : Place) (l : List Place) :
    treeLevel op (x :: y :: l) = (joined op x y :: (treeLevel op l).1, raisedBy op x y ++ (treeLevel op l).2) := by
  rcases x with - | ⟨u, i⟩ <;> rcases y with - | ⟨v, j⟩ <;> rfl

theorem treeLevel_range (place : Nat → Place) (m : Nat) : treeLevel op ((List.range (2 * m)).map place) =
    ((List.range m).map fun i => joined op (place (2 * i)) (place (2 * i + 1)),
      (List.range m).flatMap fun i => raisedBy op (place (2 * i)) (place (2 * i + 1))) := by
  induction m generalizing place with
  | zero => rfl
  | succ m ih =>
    have hrange : (List.range (2 * (m + 1))).map place = place 0 :: place 1 :: (List.range (2 * m)).map fun i => place (i + 2) := by
      rw [Nat.mul_succ, List.range_succ_eq_map, List.range_succ_eq_map]
      simp [Function.comp_def]
    rw [hrange, treeLevel_cons, ih, List.range_succ_eq_map]
    simp [List.flatMap_map, Function.comp_def, Nat.mul_add]

theorem tree_range_succ (place : Nat → Place) (n : Nat) :
    let next := tree op n ((List.range (2 ^ n)).map fun i => joined op (place (2 * i)) (place (2 * i + 1)))
    tree op (n + 1) ((List.range (2 ^ (n + 1))).map place) =
      (next.1, ((List.range (2 ^ n)).flatMap fun i => raisedBy op (place (2 * i)) (place (2 * i + 1))) ++ next.2) := by
  rw [Nat.pow_succ', tree, treeLevel_range]

/-- The lanes that a step keeps and names are lanes of its places. -/
theorem joined_lanes {x y : Place} {within : Nat → Prop} (hx : ∀ e ∈ x, within e.2) (hy : ∀ e ∈ y, within e.2) :
    (∀ e ∈ joined op x y, within e.2) ∧ ∀ e ∈ raisedBy op x y, within e.1 := by
  rcases x with - | ⟨u, i⟩ <;> rcases y with - | ⟨v, j⟩
  · exact ⟨hy, fun e he => absurd he List.not_mem_nil⟩
  · exact ⟨hy, fun e he => absurd he List.not_mem_nil⟩
  · exact ⟨hx, fun e he => absurd he List.not_mem_nil⟩
  · have hi : within i := hx (u, i) rfl
    refine ⟨fun e he => ?_, fun e he => ?_⟩
    · cases he
      exact hi
    · rw [List.mem_singleton.1 he]
      exact hi

/-- Every lane that the tree's conditions name is one of a place. -/
theorem tree_lanes {place : Nat → Place} {within : Nat → Prop} {n : Nat} (h : ∀ i, i < 2 ^ n → ∀ e ∈ place i, within e.2) :
    ∀ e ∈ (tree op n ((List.range (2 ^ n)).map place)).2, within e.1 := by
  induction n generalizing place with
  | zero => exact fun e he => absurd he List.not_mem_nil
  | succ n ih =>
    have hstep (i : Nat) (hi : i < 2 ^ n) :=
      joined_lanes op (h (2 * i) (by rw [Nat.pow_succ']; omega)) (h (2 * i + 1) (by rw [Nat.pow_succ']; omega))
    rw [tree_range_succ]
    intro e he
    obtain hnow | hnext := List.mem_append.1 he
    · obtain ⟨i, hi, he⟩ := List.mem_flatMap.1 hnow
      exact (hstep i (List.mem_range.1 hi)).2 e he
    · exact ih (fun i hi => (hstep i hi).1) e hnext

/-! ### The root -/

/-- The conditions that a place of the statement's tree has gathered. -/
def gathered (p : Option (Nat × Nat)) : Nat := (p.map (·.2)).getD 0

/-- One step of the statement's tree. -/
def summed : Option (Nat × Nat) → Option (Nat × Nat) → Option (Nat × Nat)
  | none, y => y
  | x, none => x
  | some x, some y => some ((op x.1 y.1).1, x.2 ||| y.2 ||| (op x.1 y.1).2)

theorem treeRoot_eq_summed (leaf : Nat → Option (Nat × Nat)) (n i : Nat) :
    treeRoot op leaf (n + 1) i = summed op (treeRoot op leaf n (2 * i)) (treeRoot op leaf n (2 * i + 1)) := rfl

/-- The lowest level of the tree taken off. -/
theorem treeRoot_succ (leaf : Nat → Option (Nat × Nat)) (n i : Nat) : treeRoot op leaf (n + 1) i = treeRoot op (treeRoot op leaf 1) n i := by
  induction n generalizing i with
  | zero => rfl
  | succ n ih => rw [treeRoot_eq_summed, ih, ih, ← treeRoot_eq_summed]

/-- A step of the statement's tree has the value and the conditions of the model's. -/
theorem summed_eq_joined {x y : Option (Nat × Nat)} {p q : Place} (hx : x.map (·.1) = p.map (·.1))
    (hy : y.map (·.1) = q.map (·.1)) :
    (summed op x y).map (·.1) = (joined op p q).map (·.1) ∧
    gathered (summed op x y) = gathered x ||| gathered y ||| unionCond ((raisedBy op p q).map (·.2)) := by
  rcases x with - | ⟨a, c⟩ <;> rcases p with - | ⟨u, i⟩ <;> cases hx <;> rcases y with - | ⟨b, d⟩ <;> rcases q with - | ⟨v, j⟩ <;>
    cases hy
  all_goals exact ⟨rfl, by simp [summed, gathered, raisedBy, unionCond]⟩

/-- The tree of the model and that of the statement have the same root and the same conditions. -/
theorem tree_eq_treeRoot (leaf : Nat → Option (Nat × Nat)) (place : Nat → Place)
    (h : ∀ i, (leaf i).map (·.1) = (place i).map (·.1)) (n : Nat) :
    let r := tree op n ((List.range (2 ^ n)).map place)
    (treeRoot op leaf n 0).map (·.1) = r.1.map (·.1) ∧
    gathered (treeRoot op leaf n 0) = unionCond ((List.range (2 ^ n)).map fun i => gathered (leaf i)) ||| unionCond (r.2.map (·.2)) := by
  induction n generalizing leaf place with
  | zero => exact ⟨h 0, by simp [treeRoot, tree, unionCond]⟩
  | succ n ih =>
    have hone (i : Nat) := summed_eq_joined op (h (2 * i)) (h (2 * i + 1))
    have hleaves (i : Nat) : gathered (treeRoot op leaf 1 i) = _ := (hone i).2
    obtain ⟨hvalue, hconds⟩ := ih (treeRoot op leaf 1) (fun i => joined op (place (2 * i)) (place (2 * i + 1))) fun i => (hone i).1
    rw [tree_range_succ, treeRoot_succ]
    refine ⟨hvalue, hconds.trans ?_⟩
    simp only [hleaves]
    rw [unionCond_map_lor, Nat.pow_succ', unionCond_range_two_mul, List.map_append, unionCond_append, List.map_flatMap, unionCond_flatMap,
      Nat.or_assoc]

/-- Operations that agree on what the leaves and their results are make one tree. -/
theorem treeRoot_congr {op op' : Nat → Nat → Nat × Nat} {leaf : Nat → Option (Nat × Nat)} {within : Nat → Prop}
    (hleaf : ∀ i, ∀ e ∈ leaf i, within e.1) (hop : ∀ a b, within a → within b → op a b = op' a b ∧ within (op a b).1) (n i : Nat) :
    treeRoot op leaf n i = treeRoot op' leaf n i ∧ ∀ e ∈ treeRoot op leaf n i, within e.1 := by
  induction n generalizing i with
  | zero => exact ⟨rfl, hleaf i⟩
  | succ n ih =>
    obtain ⟨hx, hxin⟩ := ih (2 * i)
    obtain ⟨hy, hyin⟩ := ih (2 * i + 1)
    rw [treeRoot_eq_summed, treeRoot_eq_summed, ← hx, ← hy]
    generalize treeRoot op leaf n (2 * i) = p, treeRoot op leaf n (2 * i + 1) = q at hxin hyin
    rcases p with - | x <;> rcases q with - | y
    · exact ⟨rfl, hyin⟩
    · exact ⟨rfl, hyin⟩
    · exact ⟨rfl, hxin⟩
    · obtain ⟨heq, hin⟩ := hop x.1 y.1 (hxin x rfl) (hyin y rfl)
      refine ⟨congrArg (fun r : Nat × Nat => some (r.1, x.2 ||| y.2 ||| r.2)) heq, fun e he => ?_⟩
      cases he
      exact hin

end

/-! ### What a reduction comes to (R143) -/

theorem toNat_ofNat_of_lt_two_pow {m n a : Nat} (hm : n ≤ m) (ha : a < 2 ^ n) : (BitVec.ofNat m a).toNat = a := by
  rw [BitVec.toNat_ofNat, Nat.mod_eq_of_lt (ha.trans_le (Nat.pow_le_pow_right two_pos hm))]

theorem toNat_ofLanes_one (t n : Nat) : (ofLanes (elemSize t) [n]).toNat = n % 2 ^ (8 * elemSize t) := by
  have hbits : 8 * elemSize t ≤ 1024 := by
    have := elemSize_cases t
    omega
  exact toNat_ofNat_of_lt_two_pow hbits (Nat.mod_lt _ (Nat.two_pow_pos _))

section
variable (t : Nat) (k : Word) (leaf : Nat → Nat × Nat)

/-- The leaves of a reduction (R143): EMPTY where the element is not active. -/
def leaves (j : Nat) : Option (Nat × Nat) := if active t k j then some (leaf j) else none

/-- The same as places of the model's tree. -/
def leafPlaces (j : Nat) : Place := if active t k j then some ((leaf j).1, j) else none

theorem leaves_value (j : Nat) : (leaves t k leaf j).map (·.1) = (leafPlaces t k leaf j).map (·.1) := by
  unfold leaves leafPlaces
  split <;> rfl

theorem leafPlaces_lane {j : Nat} {e : Nat × Nat} (h : e ∈ leafPlaces t k leaf j) : e.2 = j ∧ active t k j = true := by
  unfold leafPlaces at h
  split at h
  · next hon =>
    cases h
    exact ⟨rfl, hon⟩
  · cases h

theorem unionCond_leaves : unionCond ((List.range (elemCount t)).map fun j => gathered (leaves t k leaf j)) =
    unionCond ((activeLanes t k).map fun j => (leaf j).2) := by
  have hleaf (j : Nat) : gathered (leaves t k leaf j) = if active t k j then (leaf j).2 else 0 := by
    unfold leaves
    split <;> rfl
  simp only [hleaf]
  exact (unionCond_map_filter _ _ _).symm

end

/-- A reduction gives the tree's root to element 0 and takes the trap where an enabled condition is raised. -/
theorem reduce_reduces {s : State} {i : Instr} {v : BitVec 5} {k : BitVec 3} {t n empty : Nat} {leaf : Nat → Nat × Nat}
    {op : Nat → Nat → Nat × Nat} {root : Nat × Nat} (hexec : exec i s = reduce v k t leaf op empty s) (hn : elemCount t = 2 ^ n)
    (hroot : root = (treeRoot op (leaves t (s.me.getK k) leaf) n 0).getD (empty, 0)) :
    (root.2 &&& trapsOn s = 0 → ∃ (u : State) (r : VWord), exec i s = .next u ∧ givesV (flagged s root.2) u v r ∧
      r.toNat = root.1 % 2 ^ (8 * elemSize t)) ∧
    (root.2 &&& trapsOn s ≠ 0 → takesTraps s.me → ∃ (u : State) (j : Nat), exec i s = .next u ∧ active t (s.me.getK k) j = true ∧
      entersTrap (flagged s root.2) u 0x05 (BitVec.ofNat 64 (j * 2 ^ 8 + root.2))) := by
  obtain ⟨hvalue, hconds⟩ := tree_eq_treeRoot op _ _ (leaves_value t (s.me.getK k) leaf) n
  have hlanes := tree_lanes op (place := leafPlaces t (s.me.getK k) leaf) (n := n) (within := (· ∈ activeLanes t (s.me.getK k)))
    fun j hj e he => by
      obtain ⟨rfl, hon⟩ := leafPlaces_lane _ _ _ he
      exact mem_activeLanes.2 ⟨hn ▸ hj, hon⟩
  have hexec' : exec i s = .next (s.floatOp ((activeLanes t (s.me.getK k)).map (fun j => (j, (leaf j).2)) ++
      (tree op (Nat.log2 (elemCount t)) ((List.range (elemCount t)).map (leafPlaces t (s.me.getK k) leaf))).2) fun c => c.setV v
        (ofLanes (elemSize t) [match (tree op (Nat.log2 (elemCount t)) ((List.range (elemCount t)).map (leafPlaces t (s.me.getK k) leaf))).1 with
          | some e => e.1 | none => empty])) := hexec.trans rfl
  rw [hn, Nat.log2_two_pow] at hexec'
  rw [← hn, unionCond_leaves, hn] at hconds
  generalize tree op n ((List.range (2 ^ n)).map (leafPlaces t (s.me.getK k) leaf)) = r at *
  generalize treeRoot op (leaves t (s.me.getK k) leaf) n 0 = p at *
  have hcond : unionCond (((activeLanes t (s.me.getK k)).map (fun j => (j, (leaf j).2)) ++ r.2).map (·.2)) = root.2 := by
    rw [List.map_append, List.map_map, unionCond_append]
    rw [hroot]
    refine hconds.symm.trans ?_
    cases p <;> rfl
  have hval : (match r.1 with | some e => e.1 | none => empty) = root.1 := by
    rw [hroot]
    rcases p with - | p <;> rcases hr : r.1 with - | e <;> rw [hr] at hvalue
    · rfl
    · cases hvalue
    · cases hvalue
    · exact (Option.some.inj hvalue).symm
  refine ⟨fun h => ?_, fun h htraps => ?_⟩
  · rw [State.floatOp_completes _ _ _ (by rw [hcond]; exact h), hcond, hval] at hexec'
    exact ⟨_, _, hexec', State.writesV_gives _ v _, toNat_ofLanes_one t root.1⟩
  · have hactive : ∀ e ∈ (activeLanes t (s.me.getK k)).map (fun j => (j, (leaf j).2)) ++ r.2, e.1 ∈ activeLanes t (s.me.getK k) := by
      intro e he
      obtain hleaf | hstep := List.mem_append.1 he
      · obtain ⟨j, hj, rfl⟩ := List.mem_map.1 hleaf
        exact hj
      · exact hlanes e hstep
    obtain ⟨u, j, hu, ⟨c, hc, -⟩, -, htrap⟩ := floatOp_traps s _ _ hexec'
      (fun e he => (mem_activeLanes.1 (hactive e he)).1.trans_le (elemCount_le t)) (by rw [hcond]; exact h) htraps
    rw [hcond] at htrap
    exact ⟨u, j, hu, (mem_activeLanes.1 (hactive _ hc)).2, htrap⟩

/-! ### Whole registers (R144, R149) -/

/-- An instruction that writes every byte of vd and raises no condition. -/
theorem execs_givesV {s : State} {i : Instr} {v : BitVec 5} {r : VWord} {what : VWord → Prop}
    (hexec : exec i s = .next (s.step1 fun c => c.setV v r)) (hwhat : what r) :
    ∃ (t : State) (r : VWord), exec i s = .next t ∧ givesV s t v r ∧ what r :=
  ⟨_, r, hexec, s.writesV_gives v r, hwhat⟩

theorem codeOf_lt (i : Int) (n : Nat) : codeOf i n < 2 ^ n := by
  have hpos : (0 : Int) < 2 ^ n := by positivity
  have h0 := Int.emod_nonneg i hpos.ne'
  have h1 := Int.emod_lt_of_pos i hpos
  rw [codeOf_eq, Int.toNat_lt h0]
  exact_mod_cast h1

theorem typed_lt_of_int {t : Nat} {fl : Fmt → Nat → Nat → Nat × Nat} {int : Int → Int → Int} (h : fmtOf t = none) (a b : Nat) :
    (typed t fl int a b).1 < 2 ^ (8 * elemSize t) := by
  rw [typed_of_int h]
  exact codeOf_lt _ _

/-- A register's low and high fields. -/
theorem toNat_ofNat_fields {m n l p q : Nat} (hm : n + l = m) (hp : p < 2 ^ n) (hq : q < 2 ^ l) :
    (BitVec.ofNat m (p + q * 2 ^ n)).toNat / 2 ^ n = q ∧ (BitVec.ofNat m (p + q * 2 ^ n)).toNat % 2 ^ n = p := by
  have hlt : p + q * 2 ^ n < 2 ^ (n + l) := by
    have h := Nat.mul_le_mul_right (2 ^ n) (Nat.succ_le_of_lt hq)
    rw [Nat.succ_mul] at h
    rw [Nat.add_comm n, Nat.pow_add]
    omega
  rw [toNat_ofNat_of_lt_two_pow hm.le hlt, Nat.add_mul_div_right _ _ (Nat.two_pow_pos n), Nat.div_eq_of_lt hp, Nat.zero_add,
    Nat.add_mul_mod_self_right, Nat.mod_eq_of_lt hp]
  exact ⟨rfl, rfl⟩

theorem packMants_lt (w : Nat) (l : List Int) : packMants w l < 2 ^ (w * l.length) := by
  induction l with
  | nil => exact Nat.one_pos
  | cons m t ih =>
    have hm := codeOf_lt m w
    have h := Nat.mul_le_mul_left (2 ^ w) (Nat.succ_le_of_lt ih)
    rw [List.length_cons, Nat.mul_succ, Nat.add_comm, Nat.pow_add]
    rw [Nat.mul_succ] at h
    exact Nat.lt_of_lt_of_le (Nat.add_lt_add_right hm _) (by rw [Nat.add_comm]; exact h)

theorem packMants_lt_of_le {w n : Nat} {l : List Int} (h : w * l.length ≤ n) : packMants w l < 2 ^ n :=
  (packMants_lt w l).trans_le (Nat.pow_le_pow_right two_pos h)

theorem quantise_scale_lt (w : Nat) (nxm : Bool) (xs : List Val) : (quantise w nxm xs).scale < 256 := by
  unfold quantise
  dsimp only
  split
  · exact (by decide : 255 < 256)
  · have hmax : (if nxm = true then 255 else 254 : Int) ≤ 255 := by split <;> decide
    generalize (if nxm = true then 255 else 254 : Int) = top at hmax ⊢
    dsimp only
    split
    · omega
    · split <;> omega

theorem quantise_mants_length (w : Nat) (nxm : Bool) (xs : List Val) : (quantise w nxm xs).mants.length = xs.length := by
  unfold quantise
  dsimp only
  split <;> exact List.length_map _

section
variable (s : State) (sb : Bool) (v a e : BitVec 5) (k : BitVec 3) (u : BitVec 2)

/-- The block that vqpack packs: elements that are not active, and those past the register's last, count as zero (R149). -/
def packedBlock : Block :=
  quantise (mantBits e.toNat) (s.me.ctl.nmode.getLsbD 0) ((List.range 32).map fun j =>
    if j < elemCount u.toNat ∧ active u.toNat (s.me.getK k) j = true then
      (fmtField u).value false (lane (elemSize u.toNat) (s.me.getV a) j) else .zero false)

theorem exec_vqpack : exec (.vqpack sb v a e k u) s =
    .next (s.floatOp ((packedBlock s a e k u).conds.zipIdx.map fun c => (c.2, c.1)) fun c => c.setV v
      (BitVec.ofNat 1024 (packMants (mantBits e.toNat) (packedBlock s a e k u).mants + (packedBlock s a e k u).scale * 2 ^ 1016))) := by
  have hblock : quantise (mantBits e.toNat) s.me.nxm ((List.range 32).map fun j =>
      if j < min 32 (elemCount u.toNat) && active u.toNat (s.me.getK k) j then
        (fmtField u).value false (lane (elemSize u.toNat) (s.me.getV a) j) else .zero false) = packedBlock s a e k u := by
    refine congrArg (quantise _ _) (List.map_congr_left fun j hj => if_congr ?_ rfl rfl)
    rw [Bool.and_eq_true, decide_eq_true_iff, Nat.lt_min, and_iff_right (List.mem_range.1 hj)]
  rw [← hblock, show 1016 = 8 * 127 from rfl]
  rfl

theorem packedBlock_fields : let q := packedBlock s a e k u
    let r := BitVec.ofNat 1024 (packMants (mantBits e.toNat) q.mants + q.scale * 2 ^ 1016)
    r.toNat / 2 ^ 1016 = q.scale ∧ r.toNat % 2 ^ 1016 = packMants (mantBits e.toNat) q.mants := by
  refine toNat_ofNat_fields (l := 8) rfl (packMants_lt_of_le ?_) (quantise_scale_lt _ _ _)
  have hbits : mantBits e.toNat ≤ 16 := by
    unfold mantBits
    split <;> decide
  unfold packedBlock
  rw [quantise_mants_length, List.length_map, List.length_range]
  omega

end

/-- Settles O41: the reductions by the tree's root, whatever the type; vcompress, vsel and vqpack by the elements and fields of what they
write. -/
theorem vectorWholes : Obligations.VectorWholes := by
  intro s sb v a b e k t u m va vb ty w bits on signed mod op levels reduces add nan uw f q
  have hcount : elemCount ty = 2 ^ levels := by
    show 128 / elemSize ty = 2 ^ (match elemSize ty with | 8 => 4 | 4 => 5 | 2 => 6 | _ => 7)
    obtain h | h | h | h := elemSize_cases ty <;> rw [h] <;> rfl
  have signed_eq {c : Nat} (hc : c < 2 ^ bits) : sint c bits = signed c := sint_eq (elemBits_pos ty) hc
  have op_eq_of_float {fl : Fmt → Nat → Nat → Nat × Nat} {int : Int → Int → Int} {g : Fmt} (hf : fmtOf ty = some g) (c d : Nat) :
      typed ty fl int c d = op fl int c d := by
    simp only [typed_of_float hf, op, hf]
  have op_eq {fl : Fmt → Nat → Nat → Nat × Nat} {int : Int → Int → Int} {c d : Nat} (hc : c < 2 ^ bits) (hd : d < 2 ^ bits) :
      typed ty fl int c d = op fl int c d := by
    cases hf : fmtOf ty with
    | some g => exact op_eq_of_float hf c d
    | none =>
      rw [typed_of_int hf, signed_eq hc, signed_eq hd, codeOf_eq]
      simp only [op, hf, mod, bits, w]
  have reduction {i : Instr} {leaf leaf' : Nat → Nat × Nat} {fl : Fmt → Nat → Nat → Nat × Nat} {int : Int → Int → Int} {empty : Nat}
      (hexec : exec i s = reduce v k ty leaf (typed ty fl int) empty s) (hleaf : ∀ j, leaf j = leaf' j)
      (hlt : fmtOf ty = none → ∀ j, (leaf j).1 < 2 ^ bits) : reduces i leaf' (op fl int) empty := by
    obtain rfl : leaf = leaf' := funext hleaf
    refine reduce_reduces hexec hcount (congrArg (Option.getD · (empty, 0)) (Eq.symm ?_))
    cases hf : fmtOf ty with
    | some g => exact (treeRoot_congr (within := fun _ => True) (fun _ _ _ => trivial) (fun c d _ _ => ⟨op_eq_of_float hf c d, trivial⟩) _ _).1
    | none =>
      refine (treeRoot_congr (within := (· < 2 ^ bits)) (fun j e he => ?_) (fun c d hc hd => ⟨op_eq hc hd, typed_lt_of_int hf c d⟩) _ _).1
      unfold leaves at he
      split at he
      · cases he
        exact hlt hf j
      · cases he
  refine ⟨?sum, ?max, ?min, ?dot, ?compress, ?sel, ?pack⟩
  case sum => exact reduction rfl (fun _ => rfl) fun _ j => lane_lt va j
  case max => exact reduction rfl (fun _ => rfl) fun _ j => lane_lt va j
  case min => exact reduction rfl (fun _ => rfl) fun _ j => lane_lt va j
  case dot => exact reduction rfl (fun j => op_eq (lane_lt va j) (lane_lt vb j)) fun hn j => typed_lt_of_int hn _ _
  case compress =>
    refine execs_givesV (by rw [show ty = t.toNat from rfl, BitVec.ofNat_toNat, BitVec.setWidth_eq]; rfl) ?_
    intro kept j hj
    refine (lane_ofLanes ((activeLanes ty (s.me.getK k)).map (lane w va)) (mul_succ_le_of_lt_div hj)).trans ?_
    show (kept.map (lane w va)).getD j 0 % 2 ^ (8 * w) = _
    rw [List.getD_eq_getElem?_getD, List.getElem?_map]
    by_cases h : j < kept.length
    · rw [dif_pos h, List.getElem?_eq_getElem h]
      exact Nat.mod_eq_of_lt (lane_lt _ _)
    · rw [dif_neg h, List.getElem?_eq_none (Nat.le_of_not_lt h)]
      exact Nat.zero_mod _
  case sel =>
    refine execs_givesV (by rw [show ty = t.toNat from rfl, BitVec.ofNat_toNat, BitVec.setWidth_eq]; rfl) fun j hj => ?_
    rw [lane_ofLanes_range _ _ hj]
    refine (if_pos hj).trans ?_
    show (if on j = true then lane w va j else lane w vb j) % 2 ^ (8 * w) = _
    split <;> exact Nat.mod_eq_of_lt (lane_lt _ _)
  case pack =>
    intro cond hcond
    have hunion : unionCond ((q.conds.zipIdx.map fun c => (c.2, c.1)).map (·.2)) = cond := by
      rw [List.map_map]
      exact congrArg unionCond (List.zipIdx_map_fst 0 q.conds)
    have hexec := (exec_vqpack s sb v a e k u).trans
      (congrArg Host.Outcome.next (State.floatOp_completes s _ _ ((congrArg (· &&& trapsOn s) hunion).trans hcond)))
    rw [show packedBlock s a e k u = q from rfl, hunion] at hexec
    exact ⟨_, _, hexec, State.writesV_gives _ v _, packedBlock_fields s a e k u⟩

end Sys2Proof.Machine
end


section
/-! Vector compares and mask instructions (06_vector R145, R146). -/

namespace Sys2Proof.Machine

/-! ### Comparisons (R145) -/

theorem snanCond_pair (x y : Val) : snanCond [x, y] = if x.isSnan || y.isSnan then cNV else 0 := by
  rw [snanCond, List.any_cons, List.any_cons, List.any_nil, Bool.or_false]

/-- A comparison of two values that are no NaN. -/
def Cmp.values (c : Cmp) (x y : Val) : Bool :=
  match c with
  | .eq => x.eq y | .ne => !x.eq y | .lt => x.lt y | .ge => !x.lt y | .le => !y.lt x | .gt => y.lt x

theorem Cmp.float_eq (c : Cmp) (f : Fmt) (a b : Nat) :
    let x := f.value false a
    let y := f.value false b
    c.float f a b = if x.isNan || y.isNan then (c == .ne, if c.ordered || x.isSnan || y.isSnan then cNV else 0) else (c.values x y, 0) := by
  unfold Cmp.float
  dsimp only
  rw [snanCond_pair]
  split
  · cases c.ordered <;> rfl
  · cases c <;> rfl

theorem Cmp.typed_of_float {c : Cmp} {t a b : Nat} {m : Fmt} (h : fmtOf t = some m) : c.typed t a b = c.float m a b := by
  unfold Cmp.typed
  rw [h]

theorem Cmp.typed_of_int {c : Cmp} {t a b : Nat} (h : fmtOf t = none) :
    c.typed t a b = (c.int (sint a (8 * elemSize t)) (sint b (8 * elemSize t)), 0) := by
  unfold Cmp.typed
  rw [h]

/-! ### Bits of a mask -/

theorem bitsAt_getLsbD (l : List Nat) {j : Nat} (hj : j < 64) : (bitsAt l).getLsbD j = decide (j ∈ l) := by
  have hbit (i : Nat) : ((1 <<< i : Nat) : Word).getLsbD j = decide (j = i) := by
    rw [BitVec.natCast_eq_ofNat, BitVec.getLsbD_ofNat, decide_eq_true hj, Bool.true_and, Nat.one_shiftLeft, Nat.testBit_two_pow]
    exact decide_eq_decide.2 eq_comm
  have hfold (l : List Nat) (w : Word) : (l.foldl (fun (w : Word) i => w ||| (1 <<< i : Nat)) w).getLsbD j = (w.getLsbD j || decide (j ∈ l)) := by
    induction l generalizing w with
    | nil => simp
    | cons i t ih =>
      rw [List.foldl_cons, ih, BitVec.getLsbD_or, hbit, Bool.or_assoc, ← Bool.decide_or]
      simp only [List.mem_cons]
  rw [bitsAt, hfold]
  simp

/-! ### What a vector compare comes to -/

/-- A compare writes the comparisons of the active elements, or takes the trap of an enabled condition. -/
theorem compare_compares {s : State} {i : Instr} {c : Cmp} {d : BitVec 3} {a b : BitVec 5} {k t : BitVec 3} {result : Nat → Bool × Nat}
    (hexec : exec i s = compare c d a b k t s) (hresult : ∀ j,
      c.typed t.toNat (lane (elemSize t.toNat) (s.me.getV a) j) (lane (elemSize t.toNat) (s.me.getV b) j) = result j) :
    let on (j : Nat) : Bool := decide (j < elemCount t.toNat) && active t.toNat (s.me.getK k) j
    let cond := unionCond (((List.range (elemCount t.toNat)).filter on).map fun j => (result j).2)
    (cond &&& trapsOn s = 0 → ∃ (u : State) (r : Word), exec i s = .next u ∧ givesK (flagged s cond) u d r ∧
      ∀ j, j < 64 → r.getLsbD j = (on j && (result j).1)) ∧
    (cond &&& trapsOn s ≠ 0 → takesTraps s.me → ∃ (u : State) (j : Nat), exec i s = .next u ∧ on j = true ∧
      entersTrap (flagged s cond) u 0x05 (BitVec.ofNat 64 (j * 2 ^ 8 + cond))) := by
  intro on cond
  have hlanes : (List.range (elemCount t.toNat)).filter on = activeLanes t.toNat (s.me.getK k) :=
    List.filter_congr fun j hj => by simp only [on, decide_eq_true (List.mem_range.1 hj), Bool.true_and]
  have hmem {j : Nat} : j ∈ activeLanes t.toNat (s.me.getK k) ↔ on j = true := by
    rw [mem_activeLanes]
    simp only [on, Bool.and_eq_true, decide_eq_true_iff]
  have hexec' : exec i s = .next (s.floatOp ((activeLanes t.toNat (s.me.getK k)).map fun j => (j, (result j).2)) fun c =>
      c.setK d (bitsAt ((activeLanes t.toNat (s.me.getK k)).filter fun j => (result j).1))) := by
    simp only [← hresult]
    exact hexec
  have hcond : unionCond (((activeLanes t.toNat (s.me.getK k)).map fun j => (j, (result j).2)).map (·.2)) = cond := by
    rw [List.map_map, ← hlanes]
    rfl
  refine ⟨fun h => ?_, fun h htraps => ?_⟩
  · rw [State.floatOp_completes _ _ _ (by rw [hcond]; exact h), hcond] at hexec'
    refine ⟨_, _, hexec', State.writesK_gives _ d _, fun j hj => ?_⟩
    rw [bitsAt_getLsbD _ hj, Bool.eq_iff_iff, decide_eq_true_iff, List.mem_filter, hmem]
    exact Bool.and_eq_true_iff.symm
  · obtain ⟨u, j, hu, ⟨c, hc, -⟩, -, htrap⟩ := floatOp_traps s _ _ hexec' (fun e he => by
      obtain ⟨j, hj, rfl⟩ := List.mem_map.1 he
      exact (mem_activeLanes.1 hj).1.trans_le (elemCount_le _)) (by rw [hcond]; exact h) htraps
    obtain ⟨j', hj, heq⟩ := List.mem_map.1 hc
    obtain ⟨rfl, -⟩ := Prod.mk.inj heq
    rw [hcond] at htrap
    exact ⟨u, j', hu, hmem.1 hj, htrap⟩

/-- Settles O43: each compare by its comparison of the element's type, the mask instructions by what they write. -/
theorem vectorComparesAndMasks : Obligations.VectorComparesAndMasks := by
  intro s sb d c e k x a b t ty w bits va vb signed on compares kc ke
  have comparison {i : Instr} (cmp : Cmp) (hexec : exec i s = compare cmp d a b k t s) :
      compares i cmp.values (cmp == .ne) cmp.ordered cmp.int := by
    refine compare_compares hexec fun j => ?_
    cases hf : fmtOf ty with
    | some g => rw [Cmp.typed_of_float hf, Cmp.float_eq]
    | none => rw [Cmp.typed_of_int hf, sint_lane, sint_lane]
  exact ⟨fun _ => ⟨comparison .eq rfl, comparison .ne rfl, comparison .lt rfl, comparison .ge rfl, comparison .le rfl, comparison .gt rfl⟩,
    ⟨_, rfl, s.writesK_gives d _⟩, ⟨_, rfl, s.writesK_gives d _⟩, ⟨_, rfl, s.writesK_gives d _⟩,
    execs_givesX rfl (congrArg word (popcount_eq_length _ 64))⟩

end Sys2Proof.Machine
end


section
/-! Scalar floating point (06_vector R153 to R157). -/

namespace Sys2Proof.Machine

/-! ### What a scalar operation comes to (R137, R153) -/

/-- A scalar operation gives xd its code with the conditions flagged, or takes the trap of an enabled condition. -/
theorem scalarOp_does {s : State} {i : Instr} {d : BitVec 5} {r q : Nat × Nat} (hexec : exec i s = scalarOp d q s) (hr : q = r) :
    (r.2 &&& trapsOn s = 0 → ∃ t : State, exec i s = .next t ∧ givesX (flagged s r.2) t d (BitVec.ofNat 64 r.1)) ∧
    (r.2 &&& trapsOn s ≠ 0 → takesTraps s.me → ∃ t : State, exec i s = .next t ∧
      entersTrap (flagged s r.2) t 0x05 (BitVec.ofNat 64 r.2)) := by
  subst hr
  have hcond : unionCond ([(0, q.2)].map (·.2)) = q.2 := Nat.zero_or _
  refine ⟨fun h => ?_, fun h htraps => ?_⟩
  · refine ⟨_, hexec.trans (congrArg Host.Outcome.next (State.floatOp_completes s _ _ (by rw [hcond]; exact h))), ?_⟩
    rw [hcond]
    exact State.writesX_gives _ d _
  · obtain ⟨t, j, ht, ⟨c, hc, -⟩, -, htrap⟩ := floatOp_traps s _ _ hexec (fun e he => by
      rw [List.mem_singleton.1 he]
      exact Nat.succ_pos _) (by rw [hcond]; exact h) htraps
    obtain ⟨rfl, -⟩ := Prod.mk.inj (List.mem_singleton.1 hc)
    rw [hcond, Nat.zero_mul, Nat.zero_add] at htrap
    exact ⟨t, ht, htrap⟩

/-! ### Conversions (R155) -/

section
variable (s : State) (sb : Bool) (d a b : BitVec 5) (u : BitVec 2)

theorem exec_fcvt_format (h : b.toNat < 4) : exec (.fcvt sb d a b u) s =
    scalarOp d (((fmtOf b.toNat).getD .f64).round false s.me.rm s.me.tuf ((fmtField u).value false (codeIn (fmtField u) (s.me.getX a)))) s := by
  show execFcvt d a b u s = _
  unfold execFcvt
  dsimp only
  split
  · omega
  · omega
  · rfl

theorem exec_fcvt_signed (h : b.toNat = 4) : exec (.fcvt sb d a b u) s =
    scalarOp d (roundSigned 64 s.me.rm ((fmtField u).value false (codeIn (fmtField u) (s.me.getX a)))) s := by
  show execFcvt d a b u s = _
  unfold execFcvt
  dsimp only
  rw [h]
  rfl

theorem exec_fcvt_unsigned (h : b.toNat = 5) : exec (.fcvt sb d a b u) s =
    scalarOp d (roundUnsigned 64 s.me.rm ((fmtField u).value false (codeIn (fmtField u) (s.me.getX a)))) s := by
  show execFcvt d a b u s = _
  unfold execFcvt
  dsimp only
  rw [h]
  rfl

end

/-! ### Codes and fields of registers (R154, R156) -/

theorem exec_fclass (s : State) (sb : Bool) (d a : BitVec 5) (u : BitVec 2) : exec (.fclass sb d a u) s =
    .next (s.writesX d (BitVec.ofNat 64 (2 ^ (fmtField u).classOf (codeIn (fmtField u) (s.me.getX a))))) :=
  congrArg (fun n => Host.Outcome.next (s.writesX d (BitVec.ofNat 64 n))) (Nat.one_shiftLeft _)

/-- A code with the sign of another. -/
theorem signed_signOf_clearSign (f : Fmt) (x : Nat) {y : Nat} (hy : y < 2 ^ f.width) :
    f.signed (f.signOf y) (clearSign f.width x) = x % 2 ^ (f.width - 1) + y / 2 ^ (f.width - 1) * 2 ^ (f.width - 1) := by
  have hwidth : f.width = f.width - 1 + 1 := by
    rw [f.width_sub_one]
    unfold Fmt.width
    omega
  have hlt : y / 2 ^ (f.width - 1) < 2 := Nat.div_lt_of_lt_mul (by rw [← Nat.pow_succ, Nat.succ_eq_add_one, ← hwidth]; exact hy)
  have hsign : y / 2 ^ (f.width - 1) = if f.signOf y then 1 else 0 := by
    unfold Fmt.signOf
    rw [Nat.testBit_eq_decide_div_mod_eq, Nat.mod_eq_of_lt hlt]
    generalize y / 2 ^ (f.width - 1) = q at hlt
    obtain rfl | rfl : q = 0 ∨ q = 1 := by omega
    · rfl
    · rfl
  rw [hsign, Fmt.signed, clearSign, Nat.add_comm]
  split <;> simp

/-- A register whose low bits are replaced. -/
theorem toNat_ofNat_replaceLow {m n x : Nat} (v : BitVec m) (hn : n ≤ m) (hx : x < 2 ^ n) :
    (BitVec.ofNat m (v.toNat / 2 ^ n * 2 ^ n + x)).toNat % 2 ^ n = x ∧
    (BitVec.ofNat m (v.toNat / 2 ^ n * 2 ^ n + x)).toNat / 2 ^ n = v.toNat / 2 ^ n := by
  have hhigh : v.toNat / 2 ^ n < 2 ^ (m - n) := Nat.div_lt_of_lt_mul (by rw [← Nat.pow_add, Nat.add_sub_cancel' hn]; exact v.isLt)
  rw [Nat.add_comm]
  exact (toNat_ofNat_fields (Nat.add_sub_cancel' hn) hx hhigh).symm

theorem Fmt.width_le (f : Fmt) : f.width ≤ 64 := by cases f <;> decide

/-- Settles O45: each operation by its code and conditions, the moves by the register they write. -/
theorem scalarFloats : Obligations.ScalarFloats := by
  intro s sb d a b c o u m f code x y vx vy does compares exactly subnormal
  have comparison {i : Instr} (cmp : Cmp) (hne : (cmp == .ne) = false) (hexec : exec i s = scalarCmp cmp d a b u s) :
      compares i cmp.values cmp.ordered := by
    refine scalarOp_does hexec ?_
    show (if (cmp.float f x y).1 = true then 1 else 0, (cmp.float f x y).2) = _
    rw [Cmp.float_eq, hne]
    split <;> rfl
  refine ⟨scalarOp_does rfl rfl, scalarOp_does rfl rfl, scalarOp_does rfl rfl, scalarOp_does rfl rfl, scalarOp_does rfl rfl,
    scalarOp_does rfl rfl, comparison .eq rfl rfl, comparison .lt rfl rfl, comparison .le rfl rfl,
    fun hb => scalarOp_does (exec_fcvt_format s sb d a b u hb) rfl, fun hb => scalarOp_does (exec_fcvt_signed s sb d a b u hb) rfl,
    fun hb => scalarOp_does (exec_fcvt_unsigned s sb d a b u hb) rfl, scalarOp_does rfl rfl, ?fclass, fun hnan => ?fsgnj,
    ⟨_, rfl, s.writesX_gives d _⟩, ?fmvf⟩
  case fclass =>
    refine execs_givesX (exec_fclass s sb d a u) (congrArg (fun n => BitVec.ofNat 64 (2 ^ n)) ?_)
    show f.classOf x = _
    unfold Fmt.classOf
    simp only [beq_iff_eq, vx]
    cases f.value false x <;> rfl
  case fsgnj =>
    refine execs_givesX rfl (congrArg word ?_)
    show (if vx.isNan = true then x else f.signed (f.signOf y) (clearSign f.width x)) = _
    rw [hnan, if_neg Bool.false_ne_true]
    exact signed_signOf_clearSign f x (Nat.mod_lt _ (Nat.two_pow_pos _))
  case fmvf =>
    exact execs_givesV (what := fun r => r.toNat % 2 ^ f.width = x ∧ r.toNat / 2 ^ f.width = (s.me.getV d).toNat / 2 ^ f.width) rfl
      (toNat_ofNat_replaceLow (s.me.getV d) (f.width_le.trans (by decide)) (Nat.mod_lt _ (Nat.two_pow_pos _)))

end Sys2Proof.Machine
end


section
/-! Vector loads and stores (06_vector R151, R152). -/

namespace Sys2Proof.Machine

/-! ### The first element that cannot be accessed (R151) -/

theorem findSome?_lowest {α : Type} {l : List Nat} (hl : l.Pairwise (· < ·)) {g : Nat → Option α} {j : Nat} {e : α}
    (hj : j ∈ l) (he : g j = some e) (hbelow : ∀ x ∈ l, x < j → g x = none) : l.findSome? g = some e := by
  induction l with
  | nil => exact absurd hj List.not_mem_nil
  | cons a t ih =>
    obtain ⟨ha, ht⟩ := List.pairwise_cons.1 hl
    obtain rfl | hmem := List.mem_cons.1 hj
    · rw [List.findSome?_cons, he]
    · rw [List.findSome?_cons, hbelow a List.mem_cons_self (ha j hmem)]
      exact ih ht hmem fun x hx => hbelow x (List.mem_cons_of_mem _ hx)

theorem activeLanes_pairwise (t : Nat) (k : Word) : (activeLanes t k).Pairwise (· < ·) := List.pairwise_lt_range.filter _

/-- An element's address is aligned and backed (R151, R160). -/
def fineAddr (s : State) (w : Nat) (x : Word) : Prop :=
  x.toNat % w = 0 ∧ (s.quad s.myQuad).xbound.toNat ≤ x.toNat ∧ x.toNat < capacity s.myLayer

/-- The cause of an element whose address is not (R240). -/
def addrCause (w : Nat) (x : Word) : Nat := if x.toNat % w ≠ 0 then cMisaligned else cAccess

section
variable {s : State} {w : Nat} {x : Word}

theorem localOk_iff (hportable : s.me.task.portable = false) :
    localOk s s.cur x = true ↔ (s.quad s.myQuad).xbound.toNat ≤ x.toNat ∧ x.toNat < capacity s.myLayer := by
  have hp : (s.ctx s.cur).task.portable = false := hportable
  unfold localOk
  rw [hp, Bool.not_false, Bool.true_and, Bool.and_eq_true, decide_eq_true_iff, decide_eq_true_iff]
  rfl

theorem laneFault_of_fine (hportable : s.me.task.portable = false) (h : fineAddr s w x) : laneFault s x w = none := by
  obtain ⟨haligned, hbacked⟩ := h
  unfold laneFault
  rw [if_neg (not_not.2 haligned), (localOk_iff hportable).2 hbacked]
  rfl

theorem laneFault_of_not_fine (hportable : s.me.task.portable = false) (h : ¬ fineAddr s w x) :
    laneFault s x w = some (.trap (addrCause w x) x) := by
  unfold laneFault addrCause
  by_cases haligned : x.toNat % w = 0
  · have hlocal : localOk s s.cur x = false := Bool.eq_false_iff.2 fun hok => h ⟨haligned, (localOk_iff hportable).1 hok⟩
    rw [if_neg (not_not.2 haligned), if_neg (not_not.2 haligned), hlocal]
    rfl
  · rw [if_pos haligned, if_pos haligned]

theorem poisonSeen_of_clean {quad : Nat} {r : Ref} {n : Nat} (hquad : quad = quadOf s.cur) (h : s.poisonSpan quad r n = false) :
    s.poisonSeen s.cur r n = false := by
  subst hquad
  rw [State.poisonSeen, h, Bool.false_and]

variable {l : List Nat} {addr : Nat → Word} (hportable : s.me.task.portable = false)
include hportable

theorem lanesFault_none {load : Bool} (hfine : ∀ j ∈ l, fineAddr s w (addr j))
    (hclean : load = true → ∀ j ∈ l, s.poisonSpan s.myQuad { isLocal := true, addr := (addr j).toNat } w = false) :
    lanesFault s (l.map addr) w load = none := by
  have hfault : (l.map addr).findSome? (fun a => laneFault s a w) = none := by
    rw [List.findSome?_map, List.findSome?_eq_none_iff]
    exact fun j hj => laneFault_of_fine hportable (hfine j hj)
  unfold lanesFault
  rw [hfault, Option.none_or]
  cases load with
  | false => rfl
  | true =>
    refine (if_neg (by decide)).trans ?_
    rw [List.findSome?_map, List.findSome?_eq_none_iff]
    exact fun j hj => if_neg (by rw [poisonSeen_of_clean rfl (hclean rfl j hj)]; exact Bool.false_ne_true)

/-- The lowest element that is not fine gives the cause, whatever else is wrong. -/
theorem lanesFault_first {load : Bool} (hl : l.Pairwise (· < ·)) {j : Nat} (hj : j ∈ l) (hnot : ¬ fineAddr s w (addr j))
    (hbelow : ∀ x ∈ l, x < j → fineAddr s w (addr x)) :
    lanesFault s (l.map addr) w load = some (.trap (addrCause w (addr j)) (addr j)) := by
  have hfault : (l.map addr).findSome? (fun a => laneFault s a w) = some (.trap (addrCause w (addr j)) (addr j)) := by
    rw [List.findSome?_map]
    exact findSome?_lowest hl hj (laneFault_of_not_fine hportable hnot) fun x hx hlt => laneFault_of_fine hportable (hbelow x hx hlt)
  unfold lanesFault
  rw [hfault, Option.some_or]

end

/-! ### Loads and stores outside an attempt (R93, R163) -/

theorem State.track_of_no_attempt {s : State} {k : Nat} (h : (s.ctx k).attempt = none) (isWrite : Bool) (l : List (Nat × Ref)) :
    s.track k isWrite l = (s, .ok) := by
  cases l with
  | nil => rfl
  | cons e t =>
    unfold State.track
    rw [h]

theorem issuesOut_of_same_ctx {s s' t : State} {o : Out} (hs : s' = { s with ctxs := s'.ctxs }) (hctx : ∀ k, s'.ctx k = s.ctx k)
    (h : issuesOut s' t o) : issuesOut s t o := by
  obtain ⟨⟨honly, hothers, hmem⟩, hgoes, hseq, hpc, hme⟩ := h
  have hcur : s'.cur = s.cur := by rw [hs]
  have heq : s'.me = s.me := (congrArg s'.ctx hcur).trans (hctx s.cur)
  rw [heq] at hgoes hseq hpc hme
  refine ⟨⟨honly.trans (by rw [hs]), fun k hk => (hothers k (hcur ▸ hk)).trans (hctx k), ?_⟩, hgoes, hseq, hpc, hme⟩
  rw [hs] at hmem
  exact hmem

section
variable {s : State} (hattempt : s.me.attempt = none)
include hattempt

theorem openAttempt_none : s.me.openAttempt = none := by
  unfold Ctx.openAttempt
  rw [hattempt]

theorem issueLoad_issues (refs : List Ref) (fin : LoadFin) (nc : Bool) : issuesOut s (s.issueLoad refs fin nc false)
    { seq := s.me.nextSeq, pc := s.me.pc, op := .load refs fin nc, dsts := fin.dsts.filter fun d => d != .x 0, pure := true } := by
  unfold State.issueLoad
  dsimp only
  rw [State.track_of_no_attempt hattempt]
  dsimp only
  rw [openAttempt_none hattempt]
  exact s.issue_out (.load refs fin nc) fin.dsts true false false none 0

theorem issueStore_issues (cells : List (Ref × Byte)) (size : Nat) : issuesOut s (s.issueStore cells false size)
    { seq := s.me.nextSeq, pc := s.me.pc, op := .store cells, dsts := [], vsize := size } := by
  have hmark (k : Nat) : (s.markWrote s.cur).ctx k = s.ctx k := by
    have hme : (s.ctx s.cur).attempt = none := hattempt
    have hsame : (s.ctx s.cur).onAttempt (fun a => { a with wrote := true }) = s.ctx s.cur := by
      unfold Ctx.onAttempt
      rw [hme, Option.map_none, ← hme]
    unfold State.markWrote
    by_cases hk : k = s.cur
    · rw [hk, State.onCtx_ctx_same, hsame]
    · simp [hk]
  have hout := (s.markWrote s.cur).issue_out (.store cells) [] false false false none size
  have hme : (s.markWrote s.cur).me = s.me := hmark s.cur
  unfold State.issueStore
  dsimp only
  rw [State.track_of_no_attempt hattempt]
  dsimp only
  rw [openAttempt_none hattempt]
  rw [hme] at hout
  exact issuesOut_of_same_ctx rfl hmark hout

end

/-! ### What a vector load and a vector store come to -/

section
variable {s : State} {v : BitVec 5} {k : BitVec 3} {t : Nat} {addr : Nat → Word} {e : Denied}

theorem vectorLoad_denied (h : lanesFault s ((activeLanes t (s.me.getK k)).map addr) (elemSize t) true = some e) :
    vectorLoad v k t addr s = .next (s.deny e) := by
  unfold vectorLoad
  dsimp only
  rw [h]

theorem vectorLoad_granted (h : lanesFault s ((activeLanes t (s.me.getK k)).map addr) (elemSize t) true = none) :
    vectorLoad v k t addr s = .next (s.issueLoad (((activeLanes t (s.me.getK k)).map addr).flatMap fun a => laneRefs a (elemSize t))
      (.lanes v (elemSize t) (activeLanes t (s.me.getK k)) (s.me.getV v)) false false) := by
  unfold vectorLoad
  dsimp only
  rw [h]

theorem vectorStore_denied (h : lanesFault s ((activeLanes t (s.me.getK k)).map addr) (elemSize t) false = some e) :
    vectorStore v k t addr s = .next (s.deny e) := by
  unfold vectorStore
  dsimp only
  rw [h]

theorem vectorStore_granted (h : lanesFault s ((activeLanes t (s.me.getK k)).map addr) (elemSize t) false = none) :
    vectorStore v k t addr s = .next (s.issueStore ((activeLanes t (s.me.getK k)).flatMap fun j =>
      (laneRefs (addr j) (elemSize t)).zip (bytesOfNat (elemSize t) (lane (elemSize t) (s.me.getV v) j))) false (elemSize t)) := by
  unfold vectorStore
  dsimp only
  rw [h]

/-- A denied element enters the trap of its cause (R240, R242). -/
theorem deny_enters (w : Nat) (x : Word) (htraps : takesTraps s.me) :
    entersTrap s (s.deny (.trap (addrCause w x) x)) (if x.toNat % w ≠ 0 then 0x02 else 0x03) x := by
  refine State.trap_enters s (addrCause w x) x ?_ htraps
  unfold addrCause
  split <;> rfl

end

/-! ### The elements of a load that has returned (R161) -/

theorem idxOf?_of_mem {l : List Nat} {j : Nat} (h : j ∈ l) : l.idxOf? j = some (l.idxOf j) := by
  have heq := List.idxOf_eq_getD_idxOf? j l
  cases hidx : l.idxOf? j with
  | none => exact absurd h (List.idxOf?_eq_none_iff.1 hidx)
  | some n =>
    rw [heq, hidx]
    rfl

theorem natOfBytes_take_lt (l : List Byte) (w : Nat) : natOfBytes (l.take w) < 2 ^ (8 * w) := by
  rw [Nat.pow_mul]
  exact (natOfBytes_lt _).trans_le (Nat.pow_le_pow_right (Nat.two_pow_pos 8) (List.length_take_le _ _))

/-- Settles O44: what each instruction leaves by its elements' checks, the value of a load by the bytes of each element. -/
theorem vectorMemory : Obligations.VectorMemory := by
  intro s sb v a b k t hattempt ty w q xa unit_ strided indexed act fine clean bytes traps loads stores
  have load {i : Instr} {addr : Nat → Word} (hexec : exec i s = vectorLoad v k ty addr s) (hportable : s.me.task.portable = false) :
      loads i addr := by
    refine ⟨fun h => ?_, fun j htraps hj hnot hbelow => ?_⟩
    · have hgranted := lanesFault_none (load := true) hportable (fun j hj => (h j hj).1) fun _ j hj => (h j hj).2
      refine ⟨_, _, hexec.trans (vectorLoad_granted hgranted), issueLoad_issues hattempt _ _ _, ?_, rfl, rfl, rfl⟩
      rw [List.flatMap_map]
      rfl
    · have hdenied := lanesFault_first (load := true) hportable (activeLanes_pairwise _ _) hj hnot hbelow
      exact ⟨_, hexec.trans (vectorLoad_denied hdenied), deny_enters w (addr j) htraps⟩
  have store {i : Instr} {addr : Nat → Word} (hexec : exec i s = vectorStore v k ty addr s) (hportable : s.me.task.portable = false) :
      stores i addr := by
    refine ⟨fun h => ?_, fun j htraps hj hnot hbelow => ?_⟩
    · have hgranted := lanesFault_none (load := false) hportable h fun h => absurd h Bool.false_ne_true
      exact ⟨_, _, hexec.trans (vectorStore_granted hgranted), issueStore_issues hattempt _ _, rfl, rfl, rfl⟩
    · have hdenied := lanesFault_first (load := false) hportable (activeLanes_pairwise _ _) hj hnot hbelow
      exact ⟨_, hexec.trans (vectorStore_denied hdenied), deny_enters w (addr j) htraps⟩
  refine ⟨fun hp => ⟨load rfl hp, load rfl hp, load rfl hp, store rfl hp, store rfl hp, store rfl hp⟩, fun d ls old bs _ _ => ?_⟩
  refine ⟨_, rfl, fun j hj => ?_⟩
  rw [lane_ofLanes_range _ _ hj]
  refine (if_pos hj).trans ?_
  by_cases h : j ∈ ls
  · rw [if_pos h, idxOf?_of_mem h]
    exact Nat.mod_eq_of_lt (natOfBytes_take_lt _ _)
  · rw [if_neg h, List.idxOf?_eq_none_iff.2 h]
    exact Nat.mod_eq_of_lt (lane_lt _ _)

end Sys2Proof.Machine
end


section
/-! A number rounded by its leading bits and one further bit that says whether more follow (R116, R138): as the exact quotient and the exact root
are given. -/

namespace Sys2Proof.Machine

/-! ### Leading bits that stand for a number -/

/-- `m` units of `2 ^ e` say all of `x` that a rounding needs: they are `x`, or `m` is odd and `x` lies strictly less than one unit from
them, where the bits are more than the format rounds to. -/
def Fmt.Stands (f : Fmt) (x : ℝ) (m : Nat) (e : Int) : Prop :=
  x = m * 2 ^ e ∨ m % 2 = 1 ∧ 2 ^ (f.fbits + 3) ≤ m ∧ ((m : ℝ) - 1) * 2 ^ e < x ∧ x < (m + 1) * 2 ^ e

/-- Two numbers lie on the same side of a third, neither on it. -/
def sameSide (x y c : ℝ) : Prop := c < x ∧ c < y ∨ x < c ∧ y < c

section
variable {x y c : ℝ}

theorem sameSide.lt (h : sameSide x y c) (hc : c ≤ y) : c < x := h.elim And.left fun h => absurd hc (not_le.2 h.2)

theorem sameSide.gt (h : sameSide x y c) (hc : y ≤ c) : x < c := h.elim (fun h => absurd hc (not_le.2 h.2)) And.left

theorem sameSide.lt_iff (h : sameSide x y c) : y < c ↔ x < c :=
  ⟨fun hy => h.gt hy.le, fun hx => h.elim (fun h => absurd hx (not_lt.2 h.1.le)) And.right⟩

theorem sameSide.le_iff (h : sameSide x y c) : y ≤ c ↔ x ≤ c :=
  ⟨fun hy => (h.gt hy).le, fun hx => h.elim (fun h => absurd hx (not_le.2 h.1)) fun h => h.2.le⟩

theorem sameSide.ne (h : sameSide x y c) : c ≠ x ∧ c ≠ y := h.elim (fun h => ⟨h.1.ne, h.2.ne⟩) fun h => ⟨h.1.ne', h.2.ne'⟩

end

section
variable {x : ℝ} {m : Nat} {e a : Int} (hodd : m % 2 = 1) (hlow : ((m : ℝ) - 1) * 2 ^ e < x) (hhigh : x < (m + 1) * 2 ^ e)
include hodd hlow hhigh

/-- Between the even neighbours of an odd number of units there is no multiple of two units. -/
theorem sameSide_multiple (z : Int) (ha : e + 1 ≤ a) : sameSide x (m * 2 ^ e) (z * 2 ^ a) := by
  have hpos : (0 : ℝ) < 2 ^ e := zpow_pos two_pos e
  have hunits : (z : ℝ) * 2 ^ a = (z * 2 * 2 ^ (a - (e + 1)).toNat : Int) * 2 ^ e := by
    rw [zpow_eq_mul_two_pow ha, zpow_add_one₀ two_ne_zero]
    push_cast
    ring
  rw [hunits]
  have heven : ∃ n : Int, z * 2 * 2 ^ (a - (e + 1)).toNat = 2 * n := ⟨z * 2 ^ (a - (e + 1)).toNat, by ring⟩
  obtain ⟨n, hn⟩ := heven
  rw [hn]
  obtain hle | hge : 2 * n + 1 ≤ m ∨ (m : Int) + 1 ≤ 2 * n := by omega
  · have hle' : ((2 * n : Int) : ℝ) ≤ m - 1 := by
      have : ((2 * n + 1 : Int) : ℝ) ≤ (m : Int) := Int.cast_le.2 hle
      push_cast at this ⊢
      linarith
    have hc := mul_le_mul_of_nonneg_right hle' hpos.le
    exact .inl ⟨hc.trans_lt hlow, hc.trans_lt (mul_lt_mul_of_pos_right (sub_one_lt _) hpos)⟩
  · have hge' : (m : ℝ) + 1 ≤ (2 * n : Int) := by exact_mod_cast hge
    have hc := mul_le_mul_of_nonneg_right hge' hpos.le
    exact .inr ⟨hhigh.trans_le hc, (mul_lt_mul_of_pos_right (lt_add_one _) hpos).trans_le hc⟩

end

/-! ### What it rounds to -/

section
variable {f : Fmt} {rm : Nat} {neg : Bool} {x : ℝ} {m : Nat} {e : Int}

theorem IsRounding.of_sameSide {y u : ℝ} {q : Nat} (h : IsRounding rm neg y u q) (hside : ∀ z : Int, sameSide x y (z * (u / 2))) :
    IsRounding rm neg x u q := by
  have hmid (n : Int) : ((2 * q + n : Int) : ℝ) * (u / 2) = q * u + n * (u / 2) := by
    push_cast
    ring
  have hat (n : Int) : sameSide x y (q * u + n * (u / 2)) := hmid n ▸ hside (2 * q + n)
  refine ⟨fun h0 => ?_, fun hup => ?_, fun h0 hup => ?_⟩
  · obtain ⟨hlo, hhi⟩ := abs_le.1 (h.near h0).1
    have h1 := (hat 1).gt (by push_cast; linarith)
    have h2 := (hat (-1)).lt (by push_cast; linarith)
    push_cast at h1 h2
    have hlt : |q * u - x| < u / 2 := abs_lt.2 ⟨by linarith, by linarith⟩
    exact ⟨hlt.le, fun heq => absurd heq hlt.ne⟩
  · obtain ⟨hle, hlt⟩ := h.above hup
    have h1 := (hat 0).gt (by push_cast; linarith)
    have h2 := (hat (-2)).lt (by push_cast; linarith)
    push_cast at h1 h2
    constructor <;> linarith
  · obtain ⟨hle, hlt⟩ := h.below h0 hup
    have h1 := (hat 0).lt (by push_cast; linarith)
    have h2 := (hat 2).gt (by push_cast; linarith)
    push_cast at h1 h2
    constructor <;> linarith

/-- R116, R136: what `roundFin` gives is what any number rounds to that has the same code, is inexact with it, and is tiny with it. -/
theorem Fmt.roundFin_roundsTo_of (nxm tuf : Bool) (hrm : rm < 4)
    (h : f.RoundsIn rm neg x (2 ^ (f.qmin + f.binade m e)) (f.binade m e) (roundTo rm neg m e (f.qmin + f.binade m e)).1)
    (hinexact : (roundTo rm neg m e (f.qmin + f.binade m e)).2 = true ↔
      ((roundTo rm neg m e (f.qmin + f.binade m e)).1 : ℝ) * 2 ^ (f.qmin + f.binade m e) ≠ x)
    (htiny : f.isTiny rm neg m e = true ↔ (rm = 0 → x < 2 ^ (f.qmin + f.fbits) - 2 ^ (f.qmin - 2)) ∧
      (RoundsUp rm neg → x ≤ 2 ^ (f.qmin + f.fbits) - 2 ^ (f.qmin - 1)) ∧ (rm ≠ 0 → ¬ RoundsUp rm neg → x < 2 ^ (f.qmin + f.fbits))) :
    roundsTo f nxm rm tuf neg x (f.roundFin nxm rm tuf neg m e) := by
  refine ⟨_, fun h0 j hj => h.nearest h0 hj, h.least, h.greatest, fun hle => ?_, fun hlt => ?_⟩
  · have hfits := (not_congr (h.overflow_iff nxm)).2 (not_lt.2 hle)
    obtain ⟨hlt, hodd, htwo⟩ := conditions_iff (roundTo rm neg m e (f.qmin + f.binade m e)).2 (f.isTiny rm neg m e) tuf
    rw [htiny] at htwo
    beta_reduce
    rw [f.roundFin_of_fits nxm rm tuf neg m e hfits, h.magnitude, ← hinexact]
    exact ⟨rfl, hlt, hodd, htwo⟩
  · have htoInf := overflowsToInf_iff hrm neg
    rw [f.roundFin_of_overflow nxm rm tuf neg m e ((h.overflow_iff nxm).2 hlt)]
    refine ⟨rfl, fun hinf hup => ?_, fun hno => congrArg (f.signed neg) (if_neg fun hboth => ?_)⟩
    · rw [hinf, htoInf.2 hup]
      rfl
    · obtain ⟨hinf, hup⟩ := Bool.and_eq_true_iff.1 hboth
      exact hno.elim (fun h => Bool.false_ne_true (h.symm.trans hinf)) fun h => h (htoInf.1 hup)

/-- A number rounds as the leading bits do that stand for it. -/
theorem Fmt.Stands.roundsTo (h : f.Stands x m e) (nxm tuf : Bool) (hrm : rm < 4) (hm : 0 < m) :
    roundsTo f nxm rm tuf neg x (f.roundFin nxm rm tuf neg m e) := by
  obtain rfl | ⟨hodd, hbig, hlow, hhigh⟩ := h
  · exact f.roundFin_roundsTo nxm tuf hrm hm
  have hpos : (0 : ℝ) < 2 ^ e := zpow_pos two_pos e
  have hside {a : Int} (z : Int) (ha : e + 1 ≤ a) : sameSide x (m * 2 ^ e) (z * 2 ^ a) := sameSide_multiple hodd hlow hhigh z ha
  have hlog : f.fbits + 3 ≤ Nat.log2 m := (Nat.le_log2 hm.ne').2 hbig
  have hunit : e + 3 ≤ f.qmin + f.binade m e := by
    unfold Fmt.binade
    omega
  have hhalf : (2 : ℝ) ^ (f.qmin + f.binade m e) / 2 = 2 ^ (f.qmin + f.binade m e - 1) := by rw [zpow_sub_one₀ two_ne_zero]; rfl
  have hin := f.roundsIn hrm hm (neg := neg) (e := e)
  refine f.roundFin_roundsTo_of nxm tuf hrm ⟨rfl, hin.rounds.of_sameSide fun z => ?_, ?_, fun hd => ?_, ?_⟩ ?_ ?_
  · rw [hhalf]
    exact hside z (by omega)
  · have h0 := (hside (a := e + 1) 0 le_rfl).lt (by rw [Int.cast_zero, zero_mul]; exact hin.pos.le)
    rwa [Int.cast_zero, zero_mul] at h0
  · have hc := (hside (2 ^ f.fbits) (a := f.qmin + f.binade m e) (by omega)).lt (by push_cast; exact hin.low hd)
    push_cast at hc
    exact hc.le
  · have hc := (hside (2 * 2 ^ f.fbits) (a := f.qmin + f.binade m e) (by omega)).gt (by push_cast; exact hin.high.le)
    push_cast at hc
    exact hc
  · have hne := (hside (roundTo rm neg m e (f.qmin + f.binade m e)).1 (a := f.qmin + f.binade m e) (by omega)).ne
    rw [Int.cast_natCast] at hne
    exact iff_of_true (roundTo_inexact_iff.2 hne.2) hne.1
  · have hnear (z : Int) (hz : z ≤ 2 ^ (f.fbits + 2)) : sameSide x (m * 2 ^ e) (z * 2 ^ (f.qmin - 2)) := by
      by_cases hfine : e + 1 ≤ f.qmin - 2
      · exact hside z hfine
      · refine .inl ?_
        have hz' : (z : ℝ) ≤ m - 1 := by
          have hpow : 2 ^ (f.fbits + 2) + 1 ≤ m := by
            have := Nat.two_pow_pos (f.fbits + 2)
            rw [Nat.pow_succ'] at hbig
            omega
          have h1 : (z : ℝ) ≤ (2 ^ (f.fbits + 2) : Int) := Int.cast_le.2 hz
          have h2 : ((2 ^ (f.fbits + 2) + 1 : Nat) : ℝ) ≤ m := Nat.cast_le.2 hpow
          push_cast at h1 h2
          linarith
        have hm1 : (1 : ℝ) ≤ m := by exact_mod_cast hm
        have hc : (z : ℝ) * 2 ^ (f.qmin - 2) ≤ (m - 1) * 2 ^ e :=
          mul_le_mul hz' (zpow_le_zpow_right₀ one_le_two (by omega)) (zpow_pos two_pos _).le (sub_nonneg.2 hm1)
        exact ⟨hc.trans_lt hlow, hc.trans_lt (mul_lt_mul_of_pos_right (sub_one_lt _) hpos)⟩
    have hnormal : (2 : ℝ) ^ (f.qmin + f.fbits) = ((2 ^ (f.fbits + 2) : Int) : ℝ) * 2 ^ (f.qmin - 2) := by
      push_cast
      rw [← zpow_natCast, ← zpow_add₀ two_ne_zero]
      congr 1
      push_cast
      ring
    have hhalf : (2 : ℝ) ^ (f.qmin - 1) = 2 * 2 ^ (f.qmin - 2) := by
      rw [← zpow_one_add₀ two_ne_zero]
      congr 1
      ring
    have h1 := hnear (2 ^ (f.fbits + 2) - 1) (by omega)
    have h2 := hnear (2 ^ (f.fbits + 2) - 2) (by omega)
    have h3 := hnear (2 ^ (f.fbits + 2)) le_rfl
    rw [Int.cast_sub, sub_mul, ← hnormal, Int.cast_one, one_mul] at h1
    rw [Int.cast_sub, sub_mul, ← hnormal, Int.cast_ofNat, ← hhalf] at h2
    rw [← hnormal] at h3
    rw [f.isTiny_iff hrm hm, h1.lt_iff, h2.le_iff, h3.lt_iff]

end

/-! ### The leading bits of quotients and roots (R138) -/

/-- A number between two whole multiples of a unit, given in halves of it. -/
theorem Fmt.stands_of_floor (f : Fmt) {r : ℝ} {n : Nat} {whole : Prop} [Decidable whole] (hle : n ≤ r) (hlt : r < n + 1)
    (hwhole : whole ↔ (n : ℝ) = r) (hbig : 2 ^ (f.fbits + 2) ≤ n) (e : Int) :
    f.Stands (r * 2 ^ e) (2 * n + (if whole then 0 else 1)) (e - 1) := by
  have hhalf : (2 : ℝ) ^ e = 2 * 2 ^ (e - 1) := by
    rw [← zpow_one_add₀ two_ne_zero]
    congr 1
    ring
  have hpos : (0 : ℝ) < 2 ^ (e - 1) := zpow_pos two_pos _
  by_cases h : whole
  · refine .inl ?_
    rw [if_pos h, ← hwhole.1 h, hhalf]
    push_cast
    ring
  · have hlt' : (n : ℝ) < r := lt_of_le_of_ne hle (mt hwhole.2 h)
    rw [if_neg h]
    refine .inr ⟨by omega, by rw [Nat.pow_succ']; omega, ?_, ?_⟩
    · have := mul_lt_mul_of_pos_right hlt' (mul_pos two_pos hpos)
      rw [hhalf]
      push_cast
      linarith
    · have := mul_lt_mul_of_pos_right hlt (mul_pos two_pos hpos)
      rw [hhalf]
      push_cast
      linarith

theorem two_pow_le_mul_div {i k b : Nat} (hi : 0 < i) {m : Nat} (hm : 0 < m) (hk : b + Nat.log2 i + 1 ≤ k) : 2 ^ b ≤ m * 2 ^ k / i := by
  rw [Nat.le_div_iff_mul_le hi]
  have hlog : i < 2 ^ (Nat.log2 i + 1) := Nat.lt_log2_self
  calc 2 ^ b * i ≤ 2 ^ b * 2 ^ (Nat.log2 i + 1) := Nat.mul_le_mul_left _ hlog.le
    _ = 2 ^ (b + Nat.log2 i + 1) := by rw [← Nat.pow_add, Nat.add_assoc]
    _ ≤ 2 ^ k := Nat.pow_le_pow_right two_pos hk
    _ ≤ m * 2 ^ k := Nat.le_mul_of_pos_left _ hm

/-- A quotient of positive numbers by its leading bits. -/
theorem Fmt.div_stands (f : Fmt) {i i' : Nat} (hi : 0 < i) (hi' : 0 < i') (e e' : Int) :
    let k := f.fbits + 2 + 3 + Nat.log2 i'
    let t := i * 2 ^ k
    f.Stands ((i : ℝ) * 2 ^ e / (i' * 2 ^ e')) (2 * (t / i') + (if t % i' = 0 then 0 else 1)) (e - e' - k - 1) := by
  intro k t
  have hi0 : (0 : ℝ) < i' := Nat.cast_pos.2 hi'
  have hx : (i : ℝ) * 2 ^ e / (i' * 2 ^ e') = (t : ℝ) / i' * 2 ^ (e - e' - k) := by
    have hshift : (t : ℝ) * 2 ^ (e - e' - k) = i * 2 ^ e / 2 ^ e' := by
      show ((i * 2 ^ k : Nat) : ℝ) * 2 ^ (e - e' - k) = _
      rw [zpow_sub₀ two_ne_zero, zpow_sub₀ two_ne_zero, zpow_natCast]
      push_cast
      field_simp
    rw [div_mul_eq_mul_div, hshift, div_div, mul_comm ((2 : ℝ) ^ e')]
  rw [hx]
  have hdm : ((t / i' : Nat) : ℝ) * i' + (t % i' : Nat) = t := by exact_mod_cast Nat.div_add_mod' t i'
  have hrem : ((t % i' : Nat) : ℝ) < i' := Nat.cast_lt.2 (Nat.mod_lt t hi')
  have hrem0 : (0 : ℝ) ≤ (t % i' : Nat) := Nat.cast_nonneg _
  refine f.stands_of_floor ?_ ?_ ?_ (two_pow_le_mul_div hi' hi (by omega)) _
  · rw [le_div_iff₀ hi0]
    linarith
  · rw [div_lt_iff₀ hi0]
    linarith
  · rw [eq_div_iff hi0.ne', ← hdm, left_eq_add, Nat.cast_eq_zero]

theorem isqrtFrom_spec {v n r : Nat} (hle : r * r ≤ v) (hlt : v < (r + 2 ^ (n + 1)) * (r + 2 ^ (n + 1))) :
    isqrtFrom v n r * isqrtFrom v n r ≤ v ∧ v < (isqrtFrom v n r + 1) * (isqrtFrom v n r + 1) := by
  induction n generalizing r with
  | zero =>
    rw [isqrtFrom]
    split
    · next h => exact ⟨h, hlt⟩
    · next h => exact ⟨hle, Nat.lt_of_not_le h⟩
  | succ n ih =>
    rw [isqrtFrom]
    split
    · next h =>
      refine ih h ?_
      rwa [Nat.pow_succ, Nat.mul_two, ← Nat.add_assoc] at hlt
    · next h => exact ih hle (Nat.lt_of_not_le h)

theorem isqrt_spec (v : Nat) : isqrt v * isqrt v ≤ v ∧ v < (isqrt v + 1) * (isqrt v + 1) := by
  refine isqrtFrom_spec (Nat.zero_le v) ?_
  rw [Nat.zero_add, ← Nat.pow_add]
  exact Nat.lt_log2_self.trans_le (Nat.pow_le_pow_right two_pos (by omega))

/-- A root of a positive number by its leading bits. -/
theorem Fmt.sqrt_stands (f : Fmt) {i : Nat} (hi : 0 < i) (e : Int) :
    let k := 2 * (f.fbits + 2 + 3) + (e % 2).toNat
    let t := i * 2 ^ k
    f.Stands (Real.sqrt (i * 2 ^ e)) (2 * isqrt t + (if isqrt t * isqrt t = t then 0 else 1)) ((e - k) / 2 - 1) := by
  intro k t
  obtain ⟨hle, hlt⟩ := isqrt_spec t
  have hx : Real.sqrt (i * 2 ^ e) = Real.sqrt t * 2 ^ ((e - k) / 2) := by
    have hpow : (0 : ℝ) < 2 ^ ((e - k) / 2) := zpow_pos two_pos _
    have heven : e = k + ((e - k) / 2 + (e - k) / 2) := by omega
    have hsq : (i : ℝ) * 2 ^ e = t * (2 ^ ((e - k) / 2)) ^ 2 := by
      conv_lhs => rw [heven, zpow_add₀ two_ne_zero, zpow_add₀ two_ne_zero, zpow_natCast]
      show _ = ((i * 2 ^ k : Nat) : ℝ) * _
      push_cast
      ring
    rw [hsq, Real.sqrt_mul (Nat.cast_nonneg t), Real.sqrt_sq hpow.le]
  rw [hx]
  refine f.stands_of_floor ?_ ?_ ?_ ?_ _
  · exact Real.le_sqrt_of_sq_le (by rw [sq]; exact_mod_cast hle)
  · rw [Real.sqrt_lt' (by positivity), sq]
    exact_mod_cast hlt
  · rw [eq_comm (a := ((isqrt t : Nat) : ℝ)), Real.sqrt_eq_iff_mul_self_eq (Nat.cast_nonneg _) (Nat.cast_nonneg _)]
    exact ⟨fun h => by exact_mod_cast h.symm, fun h => by exact_mod_cast h.symm⟩
  · by_contra hsmall
    have hs : isqrt t + 1 ≤ 2 ^ (f.fbits + 2) := by omega
    have hsq : (isqrt t + 1) * (isqrt t + 1) ≤ 2 ^ (f.fbits + 2) * 2 ^ (f.fbits + 2) := Nat.mul_le_mul hs hs
    have ht : 2 ^ (f.fbits + 2) * 2 ^ (f.fbits + 2) ≤ t := by
      rw [← Nat.pow_add]
      exact (Nat.pow_le_pow_right two_pos (by omega)).trans (Nat.le_mul_of_pos_left _ hi)
    omega

end Sys2Proof.Machine
end


section
/-! Divisions and roots (06_vector R137, R138, R154): what the quotient and the root of any codes are, and how their instructions issue. -/

namespace Sys2Proof.Machine

/-! ### Quotients and roots of codes -/

theorem Fmt.value_fin_pos {f : Fmt} {nxm : Bool} {code : Nat} {n : Bool} {m : Nat} {e : Int} (h : f.value nxm code = .fin n m e) : 0 < m := by
  have hnan : (f.value nxm code).isNan = false := by rw [h]; rfl
  obtain ⟨-, -, hv⟩ | ⟨-, hfr, hv⟩ | ⟨-, -, -, hv⟩ | ⟨-, -, hv⟩ := f.value_cases nxm hnan <;> rw [h] at hv <;> cases hv
  · exact Nat.pos_of_ne_zero hfr
  · exact Nat.add_pos_left (Nat.two_pow_pos _) _

section
variable (f : Fmt) (m : Mode) (n : Bool) (known : Nat)

theorem Fmt.finishLong_zero : f.finishLong m (.zero n, known) = { code := f.signed n 0, known, rounded := 0 } := rfl

theorem Fmt.finishLong_inf (h : f.hasInf false = true) : f.finishLong m (.inf n, known) = { code := f.signed n f.infCode, known, rounded := 0 } := by
  unfold Fmt.finishLong
  rw [f.round_inf false m.rm m.tuf n h]

theorem Fmt.finishLong_quiet : f.finishLong m (.quiet, known) = { code := f.qnan, known, rounded := 0 } := by
  have hext : ¬ f.extended false = true := by simp [Fmt.extended]
  unfold Fmt.finishLong
  rw [Val.quiet, f.round_nan false m.rm m.tuf false hext]
  rfl

end

/-- Invalid for a signalling NaN alone (R138). -/
theorem Val.div_nan {p q : Val} (bits : Nat) (h : p.isNan = true ∨ q.isNan = true) :
    p.div bits q = (.quiet, if p.isSnan = true ∨ q.isSnan = true then cNV else 0) := by
  have hdiv : p.div bits q = (.quiet, snanCond [p, q]) := by
    cases p with
    | nan => rfl
    | _ =>
      cases q with
      | nan => rfl
      | _ => exact h.elim nofun nofun
  rw [hdiv, snanCond_pair]
  simp only [Bool.or_eq_true]

theorem Val.sqrt_nan {p : Val} (bits : Nat) (h : p.isNan = true) : p.sqrt bits = (.quiet, if p.isSnan = true then cNV else 0) := by
  cases p with
  | nan => rfl
  | _ => exact nomatch h

section
variable (f : Fmt) (m : Mode) {c c' : Nat}

theorem Fmt.opDiv_of_values {p q : Val} (hp : f.value false c = p) (hq : f.value false c' = q) :
    f.opDiv m c c' = f.finishLong m (p.div (f.fbits + 2) q) := by rw [Fmt.opDiv, hp, hq]

theorem Fmt.opSqrt_of_value {p : Val} (hp : f.value false c = p) : f.opSqrt m c = f.finishLong m (p.sqrt (f.fbits + 2)) := by
  rw [Fmt.opSqrt, hp]

variable {f} {m} (hrm : m.rm < 4)
include hrm

theorem Fmt.opDiv_rounds {n n' : Bool} {i i' : Nat} {e e' : Int} (hp : f.value false c = .fin n i e) (hq : f.value false c' = .fin n' i' e') :
    (f.opDiv m c c').known = 0 ∧
      roundsTo f false m.rm m.tuf (n != n') (i * 2 ^ e / (i' * 2 ^ e')) ((f.opDiv m c c').code, (f.opDiv m c c').rounded) := by
  rw [f.opDiv_of_values m hp hq]
  refine ⟨rfl, ?_⟩
  have hi := Fmt.value_fin_pos hp
  have hi' := Fmt.value_fin_pos hq
  have hpos := two_pow_le_mul_div hi' hi (k := f.fbits + 2 + 3 + Nat.log2 i') (b := f.fbits) (by omega)
  have := Nat.two_pow_pos f.fbits
  exact (f.div_stands hi hi' e e').roundsTo false m.tuf hrm (by omega)

theorem Fmt.opSqrt_rounds {i : Nat} {e : Int} (hp : f.value false c = .fin false i e) :
    (f.opSqrt m c).known = 0 ∧
      roundsTo f false m.rm m.tuf false (Real.sqrt (i * 2 ^ e)) ((f.opSqrt m c).code, (f.opSqrt m c).rounded) := by
  rw [f.opSqrt_of_value m hp]
  refine ⟨rfl, ?_⟩
  have hi := Fmt.value_fin_pos hp
  have hpos : 0 < isqrt (i * 2 ^ (2 * (f.fbits + 2 + 3) + (e % 2).toNat)) := by
    by_contra hzero
    have ht := (isqrt_spec (i * 2 ^ (2 * (f.fbits + 2 + 3) + (e % 2).toNat))).2
    rw [Nat.eq_zero_of_not_pos hzero] at ht
    have h1 : 2 ^ 1 ≤ 2 ^ (2 * (f.fbits + 2 + 3) + (e % 2).toNat) := Nat.pow_le_pow_right two_pos (by omega)
    have h2 := Nat.le_mul_of_pos_left (2 ^ (2 * (f.fbits + 2 + 3) + (e % 2).toNat)) hi
    omega
  exact (f.sqrt_stands hi e).roundsTo false m.tuf hrm (by omega)

end

/-! ### A result that issues with conditions (R137) -/

theorem unionCond_both (lanes : List Nat) (known rounded : Nat → Nat) :
    unionCond ((lanes.map (fun j => (j, known j)) ++ lanes.map fun j => (j, rounded j)).map (·.2)) =
      unionCond (lanes.map fun j => known j ||| rounded j) := by
  rw [List.map_append, List.map_map, List.map_map, unionCond_append]
  exact (unionCond_map_lor lanes known rounded).symm

/-- The lane that a deferred exception names is that of the lowest element which raised an enabled condition, whether the operands fix it or
rounding finds it. -/
theorem firstLane_both {en : Nat} {lanes : List Nat} {known rounded : Nat → Nat}
    (h : unionCond (lanes.map fun j => known j ||| rounded j) &&& en ≠ 0) :
    let lane := firstLane en (lanes.map (fun j => (j, known j)) ++ lanes.map fun j => (j, rounded j))
    (∃ c, (lane, c) ∈ lanes.map (fun j => (j, known j ||| rounded j)) ∧ c &&& en ≠ 0) ∧
      ∀ e ∈ lanes.map (fun j => (j, known j ||| rounded j)), e.2 &&& en ≠ 0 → lane ≤ e.1 := by
  have hor (j : Nat) : (known j ||| rounded j) &&& en = 0 ↔ known j &&& en = 0 ∧ rounded j &&& en = 0 := by
    rw [Nat.and_or_distrib_right, Nat.or_eq_zero_iff]
  rw [← unionCond_both] at h
  obtain ⟨⟨c, hc, hen⟩, hlowest⟩ := firstLane_spec h
  refine ⟨?_, fun e he hen => ?_⟩
  · obtain hknown | hrounded := List.mem_append.1 hc
    · obtain ⟨j, hj, heq⟩ := List.mem_map.1 hknown
      obtain ⟨hlane, rfl⟩ := Prod.mk.inj heq
      exact ⟨_, List.mem_map.2 ⟨j, hj, by rw [hlane]⟩, fun h0 => hen ((hor j).1 h0).1⟩
    · obtain ⟨j, hj, heq⟩ := List.mem_map.1 hrounded
      obtain ⟨hlane, rfl⟩ := Prod.mk.inj heq
      exact ⟨_, List.mem_map.2 ⟨j, hj, by rw [hlane]⟩, fun h0 => hen ((hor j).1 h0).2⟩
  · obtain ⟨j, hj, rfl⟩ := List.mem_map.1 he
    by_cases hk : known j &&& en = 0
    · have hr : rounded j &&& en ≠ 0 := fun hr => hen ((hor j).2 ⟨hk, hr⟩)
      exact hlowest (j, rounded j) (List.mem_append_right _ (List.mem_map.2 ⟨j, hj, rfl⟩)) hr
    · exact hlowest (j, known j) (List.mem_append_left _ (List.mem_map.2 ⟨j, hj, rfl⟩)) hk

section
variable (s : State) (known rounded : List (Nat × Nat)) (w : RegWrite)

/-- What is recorded when the result of a division or root arrives (R136, R137). -/
def longDeferred : Option Deferred :=
  let cond := unionCond ((known ++ rounded).map (·.2))
  if cond = 0 then none
  else some { cond := word cond, lane := firstLane (trapsOn s) (known ++ rounded), addr := s.me.pc, seq := s.me.nextSeq, en := trapsOn s }

theorem State.floatLong_issues (h : unionCond (known.map (·.2)) &&& trapsOn s = 0) :
    issuesOut s (s.floatLong known rounded w)
      { seq := s.me.nextSeq, pc := s.me.pc, op := .value, dsts := [w.dst].filter fun d => d != .x 0, pure := true
        ans := some { writes := [w], fp := longDeferred s known rounded } } := by
  unfold State.floatLong longDeferred
  dsimp only
  rw [enables_eq_trapsOn, if_neg (not_not.2 h)]
  exact s.issue_out .value [w.dst] true false false _ 0

theorem State.floatLong_traps (h : unionCond (known.map (·.2)) &&& trapsOn s ≠ 0) (htraps : takesTraps s.me) :
    let cond := unionCond ((known ++ rounded).map (·.2))
    entersTrap (flagged s cond) (s.floatLong known rounded w) 0x05
      (BitVec.ofNat 64 (firstLane (trapsOn s) (known ++ rounded) % 2 ^ 7 * 2 ^ 8 + cond)) := by
  unfold State.floatLong
  dsimp only
  rw [enables_eq_trapsOn, if_pos h, floatTval_at_instruction]
  exact s.trap_raise_enters _ _ htraps

end

/-- Of the conditions of some lanes: where there are none nothing is recorded; else all of them, under the lowest lane that raised an enabled
one (R137). -/
theorem longDeferred_records (s : State) (lanes : List Nat) (known rounded : Nat → Nat) :
    let cond := unionCond (lanes.map fun j => known j ||| rounded j)
    let raised := lanes.map fun j => (j, known j ||| rounded j)
    match longDeferred s (lanes.map fun j => (j, known j)) (lanes.map fun j => (j, rounded j)) with
    | none => cond = 0
    | some fp => cond ≠ 0 ∧ fp.cond = BitVec.ofNat 64 cond ∧ fp.addr = s.me.pc ∧ fp.en = trapsOn s ∧
      ∀ j, (∃ c, (j, c) ∈ raised ∧ c &&& trapsOn s ≠ 0) ∧ (∀ e ∈ raised, e.2 &&& trapsOn s ≠ 0 → j ≤ e.1) → fp.lane = j := by
  intro cond raised
  unfold longDeferred
  dsimp only
  rw [unionCond_both]
  by_cases hnone : cond = 0
  · rw [if_pos hnone]
    exact hnone
  · rw [if_neg hnone]
    refine ⟨hnone, rfl, rfl, rfl, fun j ⟨⟨c, hc, hen⟩, hlowest⟩ => ?_⟩
    have hraised : cond &&& trapsOn s ≠ 0 := fun h0 => by
      obtain ⟨j', hj, heq⟩ := List.mem_map.1 hc
      obtain ⟨-, rfl⟩ := Prod.mk.inj heq
      exact hen ((unionCond_land_eq_zero_iff _ _).1 h0 _ (List.mem_map.2 ⟨j', hj, rfl⟩))
    obtain ⟨⟨c', hc', hen'⟩, hlowest'⟩ := firstLane_both hraised
    exact le_antisymm (hlowest' (j, c) hc hen) (hlowest _ hc' hen')

theorem fmtField_hasInf (u : BitVec 2) : (fmtField u).hasInf false = true := by
  revert u
  decide

/-- Settles O42: the instructions by how a result issues, quotients and roots by the leading bits that stand for them. -/
theorem divisionsAndRoots : Obligations.DivisionsAndRoots := by
  intro s sb v a b k u m f w va vb x y act all issues vector scalar
  have issuing {i : Instr} {lanes : List Nat} {r : Nat → Long} {wr : RegWrite} {known : Nat} {write : RegWrite → Prop} {dsts : List Dst}
      (hexec : exec i s = .next (s.floatLong (lanes.map fun j => (j, (r j).known)) (lanes.map fun j => (j, (r j).rounded)) wr))
      (hknown : unionCond (lanes.map fun j => (r j).known) = known) (hwrite : write wr) (hdsts : [wr.dst].filter (fun d => d != .x 0) = dsts) :
      issues i known (lanes.map fun j => (j, (r j).known ||| (r j).rounded)) write dsts := by
    have hk : unionCond ((lanes.map fun j => (j, (r j).known)).map (·.2)) = known := by rw [List.map_map]; exact hknown
    have hcond : unionCond (lanes.map fun j => (r j).known ||| (r j).rounded) =
        all ((lanes.map fun j => (j, (r j).known ||| (r j).rounded)).map (·.2)) := by
      rw [List.map_map]
      rfl
    refine ⟨fun h => ?_, fun h htraps => ?_⟩
    · refine ⟨_, _, _, wr, hexec, State.floatLong_issues s _ _ wr (by rw [hk]; exact h), rfl, rfl, hdsts, rfl, rfl, hwrite, rfl, ?_⟩
      rw [← hcond]
      exact longDeferred_records s lanes (fun j => (r j).known) fun j => (r j).rounded
    · have hraised : unionCond (lanes.map fun j => (r j).known ||| (r j).rounded) &&& trapsOn s ≠ 0 := by
        rw [unionCond_map_lor, hknown, Nat.and_or_distrib_right, Ne, Nat.or_eq_zero_iff]
        exact fun h0 => h h0.1
      have htrap := State.floatLong_traps s (lanes.map fun j => (j, (r j).known)) (lanes.map fun j => (j, (r j).rounded)) wr
        (by rw [hk]; exact h) htraps
      rw [unionCond_both lanes (fun j => (r j).known) fun j => (r j).rounded, hcond] at htrap
      exact ⟨_, _, hexec, firstLane_both hraised, htrap⟩
  have ofVector {i : Instr} {r : Nat → Long} (hexec : exec i s = vectorLong v k u.toNat r s) : vector i r := by
    refine issuing hexec rfl ⟨_, rfl, fun j hj => ?_⟩ rfl
    refine (lane_ofLanes_range _ _ hj).trans ((if_pos hj).trans ?_)
    split
    · rfl
    · exact Nat.mod_eq_of_lt (lane_lt _ _)
  have ofScalar {i : Instr} {r : Long} (hexec : exec i s = scalarLong v r s) : scalar i r :=
    issuing (lanes := [0]) (r := fun _ => r) hexec (Nat.zero_or _) rfl (filter_x_ne_zero v)
  refine ⟨ofVector rfl, ofVector rfl, ofScalar rfl, ofScalar rfl, fun c c' => ?_⟩
  intro p q quotient root exactly rounds zero inf invalid
  have hrm : m.rm < 4 := Nat.mod_lt _ (by decide)
  have quotientOf {p' q' : Val} {v : Val} {known : Nat} (hp : p = p') (hq : q = q') (hdiv : p'.div (f.fbits + 2) q' = (v, known)) :
      quotient = f.finishLong m (v, known) := by
    rw [← hdiv]
    exact f.opDiv_of_values m hp hq
  have rootOf {p' : Val} {v : Val} {known : Nat} (hp : p = p') (hsqrt : p'.sqrt (f.fbits + 2) = (v, known)) :
      root = f.finishLong m (v, known) := by
    rw [← hsqrt]
    exact f.opSqrt_of_value m hp
  have isZero {r : Long} {n : Bool} {known : Nat} (h : r = f.finishLong m (.zero n, known)) : exactly r (zero n) known := by
    rw [h, Fmt.finishLong_zero]
    exact ⟨rfl, rfl, rfl⟩
  have isInf {r : Long} {n : Bool} {known : Nat} (h : r = f.finishLong m (.inf n, known)) : exactly r (inf n) known := by
    rw [h, Fmt.finishLong_inf f m n known (fmtField_hasInf u)]
    exact ⟨rfl, rfl, rfl⟩
  have isNan {r : Long} {known : Nat} (h : r = f.finishLong m (.quiet, known)) : exactly r f.qnan known := by
    rw [h, Fmt.finishLong_quiet]
    exact ⟨rfl, rfl, rfl⟩
  refine ⟨fun n n' i i' e e' hp hq => Fmt.opDiv_rounds hrm hp hq, fun n n' i e hp => ⟨fun hq => ?_, fun hq => ?_⟩,
    fun n n' i e hq => ⟨fun hp => ?_, fun hp => ?_⟩,
    fun n n' => ⟨fun hp hq => ?_, fun hp hq => ?_, fun hp hq => ?_, fun hp hq => ?_⟩,
    fun hnan => isNan (quotientOf rfl rfl (Val.div_nan _ hnan)), fun i e hp => Fmt.opSqrt_rounds hrm hp,
    fun i e hp => isNan (rootOf hp rfl), fun n hp => isZero (rootOf hp rfl), fun hp => isInf (rootOf hp rfl),
    fun hp => isNan (rootOf hp rfl), fun hnan => isNan (rootOf rfl (Val.sqrt_nan _ hnan))⟩
  · exact isInf (quotientOf hp hq rfl)
  · exact isZero (quotientOf hp hq rfl)
  · exact isZero (quotientOf hp hq rfl)
  · exact isInf (quotientOf hp hq rfl)
  · exact isNan (quotientOf hp hq rfl)
  · exact isNan (quotientOf hp hq rfl)
  · exact isZero (quotientOf hp hq rfl)
  · exact isInf (quotientOf hp hq rfl)

end Sys2Proof.Machine
end

section
/-! The canonical form of memories under the named operations on the state (R159, R180, R255, R430): tables of quads, the parts of a state
that hold memories, and what leaves them as they are. -/

namespace Sys2Proof.Machine

/-! ### Tables -/

/-- What holds of every entry of a table holds after one more is put in. -/
theorem Map.forall_put {α : Type} {P : α → Prop} {m : Map α} (h : ∀ e ∈ m, P e.2) (k : Nat) {v : α} (hv : P v) :
    ∀ e ∈ m.put k v, P e.2 := by
  induction m with
  | nil => exact fun e he => List.mem_singleton.1 he ▸ hv
  | cons d t ih =>
    obtain ⟨j, w⟩ := d
    have htail := ih fun e he => h e (List.mem_cons_of_mem _ he)
    simp only [Map.put]
    split
    · exact List.forall_mem_cons.2 ⟨hv, h⟩
    · split
      · exact List.forall_mem_cons.2 ⟨hv, (List.forall_mem_cons.1 h).2⟩
      · exact List.forall_mem_cons.2 ⟨(List.forall_mem_cons.1 h).1, htail⟩

/-- What holds of every entry of a table holds after a change that keeps it. -/
theorem Map.forall_map {α : Type} {P : α → Prop} {m : Map α} {f : Nat × α → α} (h : ∀ e ∈ m, P e.2)
    (hf : ∀ e : Nat × α, P e.2 → P (f e)) : ∀ e ∈ m.map fun e => (e.1, f e), P e.2 :=
  List.forall_mem_map.2 fun e he => hf e (h e he)

/-- What holds of every entry of a table holds of those that are kept. -/
theorem Map.forall_filter {α : Type} {P : α → Prop} {m : Map α} {p : Nat × α → Bool} (h : ∀ e ∈ m, P e.2) :
    ∀ e ∈ m.filter p, P e.2 := fun e he => h e (List.mem_of_mem_filter he)

/-- What holds of every entry of two tables holds of the one put into the other. -/
theorem Map.forall_merge {α : Type} {P : α → Prop} {m extra : Map α} (h : ∀ e ∈ m, P e.2) (hextra : ∀ e ∈ extra, P e.2) :
    ∀ e ∈ m.merge extra, P e.2 :=
  List.foldlRecOn (motive := fun m : Map α => ∀ e ∈ m, P e.2) extra _ h fun _ hm e he => Map.forall_put hm e.1 (hextra e he)

/-- Every memory of a table of quads is in its canonical form. -/
abbrev QuadsWf (m : Map Quad) : Prop := ∀ e ∈ m, e.2.mem.wf = true

theorem quadsWf_nil : QuadsWf [] := nofun

/-! ### The parts of a state that hold memories -/

namespace State.canonical
variable {s t : State}

theorem mem_wf (h : s.canonical) : s.mem.wf = true := h.1

theorem quads_wf (h : s.canonical) : QuadsWf s.quads := h.2.1

theorem image_wf (h : s.canonical) {p : Nat × Part} (hp : p ∈ s.parts) : QuadsWf p.2.image.quads := h.2.2.1 p hp

theorem start_wf (h : s.canonical) {r : Recording} (hr : r ∈ s.recordings) : QuadsWf r.start.quads := h.2.2.2 r hr

theorem quad_wf (h : s.canonical) (k : Nat) : (s.quad k).mem.wf = true := Machine.quad_wf h.quads_wf k

theorem intro (hmem : s.mem.wf = true) (hquads : QuadsWf s.quads) (hparts : ∀ p ∈ s.parts, QuadsWf p.2.image.quads)
    (hrecordings : ∀ r ∈ s.recordings, QuadsWf r.start.quads) : s.canonical := ⟨hmem, hquads, hparts, hrecordings⟩

/-- A change that leaves everything that holds a memory. -/
theorem frame (h : s.canonical) (hsame : (t.mem, t.quads, t.parts, t.recordings) = (s.mem, s.quads, s.parts, s.recordings)) : t.canonical := by
  simp only [Prod.mk.injEq] at hsame
  obtain ⟨hmem, hquads, hparts, hrecordings⟩ := hsame
  exact intro (hmem ▸ h.mem_wf) (hquads ▸ h.quads_wf) (hparts ▸ fun _ hp => h.image_wf hp) (hrecordings ▸ fun _ hr => h.start_wf hr)

/-- A change of physical memory. -/
theorem onMem (h : s.canonical) (hwf : t.mem.wf = true) (hrest : (t.quads, t.parts, t.recordings) = (s.quads, s.parts, s.recordings)) :
    t.canonical := by
  simp only [Prod.mk.injEq] at hrest
  obtain ⟨hquads, hparts, hrecordings⟩ := hrest
  exact intro hwf (hquads ▸ h.quads_wf) (hparts ▸ fun _ hp => h.image_wf hp) (hrecordings ▸ fun _ hr => h.start_wf hr)

/-- A change of the quads. -/
theorem onQuads (h : s.canonical) (hwf : QuadsWf t.quads) (hrest : (t.mem, t.parts, t.recordings) = (s.mem, s.parts, s.recordings)) :
    t.canonical := by
  simp only [Prod.mk.injEq] at hrest
  obtain ⟨hmem, hparts, hrecordings⟩ := hrest
  exact intro (hmem ▸ h.mem_wf) hwf (hparts ▸ fun _ hp => h.image_wf hp) (hrecordings ▸ fun _ hr => h.start_wf hr)

/-- A change of the partitions. -/
theorem onParts (h : s.canonical) (hwf : ∀ p ∈ t.parts, QuadsWf p.2.image.quads)
    (hrest : (t.mem, t.quads, t.recordings) = (s.mem, s.quads, s.recordings)) : t.canonical := by
  simp only [Prod.mk.injEq] at hrest
  obtain ⟨hmem, hquads, hrecordings⟩ := hrest
  exact intro (hmem ▸ h.mem_wf) (hquads ▸ h.quads_wf) hwf (hrecordings ▸ fun _ hr => h.start_wf hr)

/-- A change of the recordings. -/
theorem onRecordings (h : s.canonical) (hwf : ∀ r ∈ t.recordings, QuadsWf r.start.quads)
    (hrest : (t.mem, t.quads, t.parts) = (s.mem, s.quads, s.parts)) : t.canonical := by
  simp only [Prod.mk.injEq] at hrest
  obtain ⟨hmem, hquads, hparts⟩ := hrest
  exact intro (hmem ▸ h.mem_wf) (hquads ▸ h.quads_wf) (hparts ▸ fun _ hp => h.image_wf hp) hwf

/-- A change of the quads and of the partitions. -/
theorem onBoth (h : s.canonical) (hquads : QuadsWf t.quads) (hparts : ∀ p ∈ t.parts, QuadsWf p.2.image.quads)
    (hrest : (t.mem, t.recordings) = (s.mem, s.recordings)) : t.canonical := by
  simp only [Prod.mk.injEq] at hrest
  obtain ⟨hmem, hrecordings⟩ := hrest
  exact intro (hmem ▸ h.mem_wf) hquads hparts (hrecordings ▸ fun _ hr => h.start_wf hr)

/-- The image of a partition that is found. -/
theorem part?_wf (h : s.canonical) {p : Nat} {x : Part} (hx : s.part? p = some x) : QuadsWf x.image.quads := by
  obtain ⟨e, he, rfl⟩ := Option.map_eq_some_iff.1 hx
  exact h.image_wf (List.mem_of_find?_eq_some he)

/-- The image that a partition would leave. -/
theorem imageOf_wf (h : s.canonical) {quarters : Nat} : QuadsWf (s.imageOf quarters).quads :=
  Map.forall_map (P := fun q : Quad => q.mem.wf = true) (Map.forall_filter (P := fun q : Quad => q.mem.wf = true) h.quads_wf)
    fun _ hq => hq

/-! ### Choices, pairs and lists -/

theorem ite {p : Prop} [Decidable p] (hs : s.canonical) (ht : t.canonical) : (if p then s else t).canonical := by
  split
  · exact hs
  · exact ht

theorem foldl_mem {α : Type} {l : List α} {f : State → α → State} (h : s.canonical)
    (hf : ∀ {s a}, a ∈ l → s.canonical → (f s a).canonical) : (l.foldl f s).canonical :=
  List.foldlRecOn l f h fun _ hs _ ha => hf ha hs

/-- The state that a pair is known to hold. -/
theorem of_eq_fst {α : Type} {x : State × α} (h : x.1.canonical) {a : α} (e : x = (t, a)) : t.canonical := by
  rw [e] at h
  exact h

theorem of_eq_snd {α : Type} {x : α × State} (h : x.2.canonical) {a : α} (e : x = (a, t)) : t.canonical := by
  rw [e] at h
  exact h

theorem forall_mem_none {α : Type} {P : α → Prop} : ∀ t ∈ (none : Option α), P t := nofun

theorem forall_mem_some {α : Type} {P : α → Prop} {a : α} (h : P a) : ∀ t ∈ some a, P t := fun _ ht => Option.some.inj ht ▸ h

/-- What holds of every state that either choice may give. -/
theorem forall_mem_ite {α : Type} {P : α → Prop} {p : Prop} [Decidable p] {x y : Option α} (hx : ∀ t ∈ x, P t) (hy : ∀ t ∈ y, P t) :
    ∀ t ∈ (if p then x else y), P t := by
  split
  · exact hx
  · exact hy

theorem getD {o : Option State} (ho : ∀ t ∈ o, t.canonical) (hs : s.canonical) : (o.getD s).canonical := by
  cases o with
  | none => exact hs
  | some t => exact ho t rfl

theorem foldl {α : Type} {l : List α} {f : State → α → State} (h : s.canonical) (hf : ∀ {s a}, s.canonical → (f s a).canonical) :
    (l.foldl f s).canonical :=
  List.foldlRecOn l f h fun _ hs _ _ => hf hs

theorem foldl_fst {α β : Type} {l : List α} {f : State × β → α → State × β} {x : State × β} (h : x.1.canonical)
    (hf : ∀ {x a}, x.1.canonical → (f x a).1.canonical) : (l.foldl f x).1.canonical :=
  List.foldlRecOn (motive := fun x => x.1.canonical) l f h fun _ hx _ _ => hf hx

theorem foldl_snd {α β : Type} {l : List α} {f : β × State → α → β × State} {x : β × State} (h : x.2.canonical)
    (hf : ∀ {x a}, x.2.canonical → (f x a).2.canonical) : (l.foldl f x).2.canonical :=
  List.foldlRecOn (motive := fun x => x.2.canonical) l f h fun _ hx _ _ => hf hx

/-! ### Units -/

theorem onCtx (h : s.canonical) {k : Nat} {f : Ctx → Ctx} : (s.onCtx k f).canonical := h.frame rfl
theorem onMe (h : s.canonical) {f : Ctx → Ctx} : (s.onMe f).canonical := h.frame rfl
theorem onCore (h : s.canonical) {k : Nat} {f : Core → Core} : (s.onCore k f).canonical := h.frame rfl
theorem onSlice (h : s.canonical) {k : Nat} {f : Slice → Slice} : (s.onSlice k f).canonical := h.frame rfl
theorem onGang (h : s.canonical) {k : Nat} {f : Gang → Gang} : (s.onGang k f).canonical := h.frame rfl
theorem onQuarter (h : s.canonical) {k : Nat} {f : Quarter → Quarter} : (s.onQuarter k f).canonical := h.frame rfl
theorem onDie (h : s.canonical) {k : Nat} {f : Die → Die} : (s.onDie k f).canonical := h.frame rfl
theorem onCp (h : s.canonical) {f : Cp → Cp} : (s.onCp f).canonical := h.frame rfl

/-- A change of one quad's memory. -/
theorem onQuad_wf (h : s.canonical) {k : Nat} {f : Quad → Quad} (hf : (f (s.quad k)).mem.wf = true) : (s.onQuad k f).canonical :=
  h.onQuads (Map.forall_put (P := fun q : Quad => q.mem.wf = true) h.quads_wf k hf) rfl

/-- A change of one quad that leaves its memory. -/
theorem onQuad (h : s.canonical) {k : Nat} {f : Quad → Quad} (hf : (fun q => (f q).mem) = Quad.mem) : (s.onQuad k f).canonical :=
  h.onQuad_wf ((congrArg Memory.wf (congrFun hf _)).trans (h.quad_wf k))

/-- A change of one partition. -/
theorem onPart_wf (h : s.canonical) {k : Nat} {f : Part → Part} (hf : ∀ x, QuadsWf x.image.quads → QuadsWf (f x).image.quads) :
    (s.onPart k f).canonical := by
  refine h.onParts (fun p hp => ?_) rfl
  obtain ⟨e, he, rfl⟩ := List.mem_map.1 hp
  split
  · exact hf _ (h.image_wf he)
  · exact h.image_wf he

/-- A change of one partition that leaves the memories of its image. -/
theorem onPart (h : s.canonical) {k : Nat} {f : Part → Part} (hf : (fun x => (f x).image.quads) = fun x => x.image.quads) :
    (s.onPart k f).canonical := h.onPart_wf fun x hx => (congrFun hf x).symm ▸ hx

/-- A change of every partition that leaves the memories of its image. -/
theorem mapParts (h : s.canonical) {f : Nat × Part → Part} (hparts : t.parts = s.parts.map fun e => (e.1, f e))
    (hf : (fun e => (f e).image.quads) = fun e => e.2.image.quads)
    (hrest : (t.mem, t.quads, t.recordings) = (s.mem, s.quads, s.recordings)) : t.canonical := by
  refine h.onParts ?_ hrest
  rw [hparts]
  exact Map.forall_map (P := fun x : Part => QuadsWf x.image.quads) (fun _ he => h.image_wf he) fun e he => (congrFun hf e).symm ▸ he

/-- A change of every quad that leaves its memory. -/
theorem mapQuads (h : s.canonical) {f : Nat × Quad → Quad} (hquads : t.quads = s.quads.map fun e => (e.1, f e))
    (hf : (fun e => (f e).mem) = fun e => e.2.mem) (hrest : (t.mem, t.parts, t.recordings) = (s.mem, s.parts, s.recordings)) :
    t.canonical := by
  refine h.onQuads ?_ hrest
  rw [hquads]
  exact Map.forall_map (P := fun q : Quad => q.mem.wf = true) h.quads_wf fun e he => (congrArg Memory.wf (congrFun hf e)).trans he

end State.canonical

/-- What an order adds to a recording leaves the state it starts from. -/
theorem Recording.note_start (r : Recording) (e : LogEntry) : (r.note e).start = r.start := by
  unfold Recording.note
  split
  · rfl
  · split
    · rfl
    · split <;> rfl

/-- The mark that a timeline word was not stored leaves the memory (R327). -/
theorem markTlfs_mem (l : List Nat) (q : Quad) : (l.foldl Quad.markTlf q).mem = q.mem :=
  List.foldlRecOn (motive := fun p : Quad => p.mem = q.mem) l _ rfl fun p hp n _ => by
    unfold Quad.markTlf
    split <;> exact hp

/-! ### Answers and picks -/

/-- A next state is canonical. -/
def Result.Canonical : Result → Prop
  | .next t => t.canonical
  | _ => True

theorem result_ite {p : Prop} [Decidable p] {x y : Result} (hx : Result.Canonical x) (hy : Result.Canonical y) :
    Result.Canonical (if p then x else y) := by
  split
  · exact hx
  · exact hy

/-- What an admin command comes to is canonical. -/
def Cmd.Canonical : Cmd → Prop
  | .done _ t => t.canonical
  | .later t => t.canonical
  | .held t => t.canonical

theorem cmd_ite {p : Prop} [Decidable p] {x y : Cmd} (hx : x.Canonical) (hy : y.Canonical) : (if p then x else y).Canonical := by
  split
  · exact hx
  · exact hy

/-- What an element of a copy comes to is canonical. -/
def Moved.Canonical : Moved → Prop
  | .done t _ _ _ _ => t.canonical
  | .failed t _ _ _ _ => t.canonical

theorem Moved.Canonical.of_eq_done {m : Moved} (h : m.Canonical) {t : State} {new : List Placed} {c : Nat} {oor : Bool}
    {seen : Map (List Byte)} (e : m = .done t new c oor seen) : t.canonical := by
  rw [e] at h
  exact h

theorem Moved.Canonical.of_eq_failed {m : Moved} (h : m.Canonical) {t : State} {f : EngineFault} {a : Word} {new : List Placed} {c : Nat}
    (e : m = .failed t f a new c) : t.canonical := by
  rw [e] at h
  exact h

/-- What comes of placing images is canonical. -/
def Images.Canonical : Images → Prop
  | .left _ t => t.canonical
  | .fault t => t.canonical

/-- A pick's state is canonical. -/
def Pick.Canonical : Pick → Prop
  | .run _ t => t.canonical
  | .wait t => t.canonical
  | .idle t => t.canonical
  | .stop _ => True

end Sys2Proof.Machine
end

section
/-! The canonical form of memories under the operations that many steps share (R159, R180, R255, R430), by file of the model: each keeps it. -/

namespace Sys2Proof.Machine.State.canonical
variable {s : State} (h : s.canonical)
include h

/-! ### Ops -/

theorem step1 {f : Ctx → Ctx} : (s.step1 f).canonical := h.onMe

theorem writesX {d : BitVec 5} {w : Word} : (s.writesX d w).canonical := h.step1

theorem noteOrder {part : Option (Nat × Part)} {e : LogEntry} : (s.noteOrder part e).canonical := by
  unfold State.noteOrder
  split
  · refine h.onRecordings (fun r hr => ?_) rfl
    obtain ⟨r', hr', rfl⟩ := List.mem_map.1 hr
    split
    · rw [Recording.note_start]
      exact h.start_wf hr'
    · exact h.start_wf hr'
  · exact h

theorem choose : s.choose.2.canonical := h.frame (by rfl)

/-! ### Access -/

theorem translate {quad pasid va : Nat} : (translate s quad pasid va).2.canonical := by
  unfold Machine.translate
  dsimp only
  split
  · exact h
  · split
    · exact h.onQuad (by rfl)
    · split
      · exact h
      · split
        · exact h
        · exact (h.onQuad (by rfl)).onQuarter

theorem freeJacks {k : Nat} : (s.freeJacks k).canonical := h.frame (by rfl)

theorem makeJack {k line : Nat} {r : Ref} : (s.makeJack k line r).canonical := ite h.onCtx h.onSlice

theorem dropToken {k : Nat} : (s.dropToken k).canonical := ite h.onQuarter h

theorem conflictAbort {k : Nat} : (s.conflictAbort k).canonical := by
  unfold State.conflictAbort
  dsimp only
  split
  · exact h
  · split
    · exact h
    · exact h.freeJacks.onCtx

theorem markUnprot {by_ : Option Nat} {line : Nat} : (s.markUnprot by_ line).canonical := by
  refine h.mapParts rfl (funext fun _ => ?_) rfl
  dsimp only
  split <;> rfl

theorem springIn {by_ : Option Nat} {met : Nat → Bool} {all : Bool} {line : Nat} : (s.springIn by_ met all line).canonical := by
  unfold State.springIn
  refine ((h.frame (by rfl)).foldl (fun h => h.onCtx)).foldl fun h => ?_
  split
  · exact h.conflictAbort
  · exact h

theorem spring {by_ home : Option Nat} {line : Nat} : (s.spring by_ home line).canonical := h.springIn

theorem fire {home : Nat} {t : Trigger} {value : Word} : (s.fire home t value).canonical := h.onSlice.noteOrder

theorem fireArmed {home : Nat} {t : Trigger} {value : Word} : (s.fireArmed home t value).canonical := h.fire.onSlice

theorem testTriggers {dword : Nat} : (s.testTriggers dword).canonical := h.foldl fun h => h.fireArmed

theorem updateCopies {die : Nat} {cells : List (Nat × Byte)} : (s.updateCopies die cells).canonical := ite h h.onDie

theorem keepPoison {old : State} {quad : Nat} {keep : Bool → Nat → Bool} : (s.keepPoison old quad keep).canonical :=
  ite (h.frame (by rfl)) ((h.frame (t := { s with poison := _ }) (by rfl)).onQuad (by rfl))

theorem retestWaits {lines : List Nat} : (s.retestWaits lines).canonical := h.frame (by rfl)

theorem gwriteQuiet {by_ : Option Nat} {die : Nat} {home : Nat → Option Nat} {cells : List (Nat × Byte)} :
    (s.gwriteQuiet by_ die home cells).canonical := by
  have hmem : ({ s with
      mem := cells.foldl (fun (m : Memory) (c : Nat × Byte) => m.set c.1 c.2) s.mem
      areas := carve s.areas cells
      poison := s.poison.filter fun w => !(wholeWords cells).contains w } : State).canonical :=
    h.onMem (Memory.cells_wf h.mem_wf cells) rfl
  exact ((hmem.updateCopies.foldl fun h => h.markUnprot.foldl fun h => h.conflictAbort).foldl fun h => h.spring).retestWaits

theorem gwrite {by_ : Option Nat} {die : Nat} {home : Nat → Option Nat} {cells : List (Nat × Byte)} :
    (s.gwrite by_ die home cells).canonical := h.gwriteQuiet.foldl fun h => h.testTriggers

theorem writeArea {lo hi : Nat} : (s.writeArea lo hi).canonical := by
  have hmem : ({ s with
      mem := s.mem.clear lo hi, areas := { lo, hi, serial := s.free } :: s.areas, free := s.free + 1
      poison := s.poison.filter fun w => !(decide (lo ≤ 8 * w) && decide (8 * w < hi)) } : State).canonical :=
    h.onMem (Memory.clear_wf h.mem_wf lo hi) rfl
  exact ite h ((hmem.foldl fun h => h.markUnprot.foldl fun h => h.conflictAbort).foldl fun h => h.springIn).retestWaits

theorem gwriteBytes {by_ : Option Nat} {die : Nat} {home : Option Nat} {pa : Nat} {bs : List Byte} :
    (s.gwriteBytes by_ die home pa bs).canonical := h.gwrite

theorem hostBytes {pa : Nat} {bs : List Byte} : (s.hostBytes pa bs).canonical := h.gwrite

theorem lwrite {by_ : Option Nat} {quad : Nat} {cells : List (Nat × Byte)} : (s.lwrite by_ quad cells).canonical :=
  ((h.onQuad_wf (Memory.cells_wf (h.quad_wf quad) cells)).foldl fun h => h.markUnprot.foldl fun h => h.conflictAbort).foldl
    fun h => h.spring

theorem writeCells {k : Nat} {cs : List (Ref × Byte)} : (s.writeCells k cs).canonical := ite (ite h h.lwrite) ((ite h h.lwrite).gwrite)

theorem atomicCells {k : Nat} {cs : List (Ref × Byte)} : (s.atomicCells k cs).canonical := ite h h.gwrite.keepPoison

theorem queueCells {k : Nat} {cs : List (Ref × Byte)} {count : Nat} : (s.queueCells k cs count).canonical := ite h h.gwriteQuiet.keepPoison

theorem powerUp {quad bank : Nat} : (s.powerUp quad bank).canonical := h.onQuad (by rfl)

theorem powerUps {quad : Nat} {rs : List Ref} : (s.powerUps quad rs).canonical := ite h (h.foldl (fun h => ite h.powerUp h))

/-! ### Check -/

theorem translateFor {k : Nat} {a : Word} : (s.translateFor k a).2.canonical := by
  unfold State.translateFor
  refine State.canonical.translate ?_
  split
  · exact h
  · exact h.onQuad (by rfl)

theorem globalCheck {k : Nat} {kind : Kind} {a : Word} {n : Nat} : (globalCheck s k kind a n).2.canonical := by
  unfold Machine.globalCheck
  split
  · exact h
  · split
    next heq => exact h.translateFor.of_eq_snd heq
    next t heq =>
      have ht : t.canonical := h.translateFor.of_eq_snd heq
      split
      · exact ht
      · exact ht

theorem checkAccess {k : Nat} {kind : Kind} {a : Word} {n align : Nat} : (checkAccess s k kind a n align).2.canonical := by
  unfold Machine.checkAccess
  split
  · exact h
  · split
    · exact h
    · exact h.globalCheck

theorem checkAtomic {k : Nat} {kind : Kind} {a : Word} {n : Nat} : (checkAtomic s k kind a n).2.canonical := by
  unfold Machine.checkAtomic
  split
  · exact h
  · split
    · exact h
    · split
      next heq => exact h.globalCheck.of_eq_snd heq
      · exact h.globalCheck

theorem pretranslate {k : Nat} {l : List Asked} : (pretranslate s k l).2.canonical := by
  induction l generalizing s with
  | nil => exact h
  | cons x t ih =>
    simp only [Machine.pretranslate]
    split
    · exact ih h
    · split
      next heq => exact h.translateFor.of_eq_snd heq
      next heq => exact ih (h.translateFor.of_eq_snd heq)

theorem precheck {k : Nat} {l : List Asked} : (precheck s k l).2.canonical := by
  unfold Machine.precheck
  split
  · exact h
  · exact h.pretranslate

/-! ### Messages -/

theorem signal {vector : Nat} : (s.signal vector).canonical := ite h h.onCp

theorem report {r : FaultRec} : (s.report r).canonical := h.onCp

theorem countStore {n : Nat} : ∀ t ∈ s.countStore n, t.canonical := by
  unfold State.countStore
  split
  · exact forall_mem_some h
  · refine forall_mem_ite ?_ (forall_mem_some h)
    exact forall_mem_ite (forall_mem_some h.hostBytes) forall_mem_none

theorem raiseCount {e : Nat × FaultRec} : (s.raiseCount e).canonical := .getD h.countStore h.onCp

theorem reportTranslation {k : Nat} {suspends : Bool} {reason : Nat} {va : Word} {access : Nat} :
    (s.reportTranslation k suspends reason va access).1.canonical := by
  unfold State.reportTranslation
  dsimp only
  split
  · exact h.onCp
  · split
    · exact h.onCp.foldl fun h => h.raiseCount
    · split
      · exact h
      · exact h.report

theorem enqueue {core : Nat} {r : Record} : (s.enqueue core r).canonical := h.onCore

theorem accept {m : Msg} : (s.accept m).canonical := ite h.onCore (ite h.onCore h.enqueue)

theorem decideMsg {m : Msg} : (s.decideMsg m).2.canonical := by
  unfold State.decideMsg
  split
  · exact h
  · exact ite h.noteOrder.accept h.noteOrder

theorem countRefusal {core : Nat} {w : Word} : (s.countRefusal core w).canonical := ite h.onCore h

/-! ### Perform -/

theorem fillCopies {k : Nat} {rs : List Ref} : (s.fillCopies k rs).canonical := h.foldl fun h => ite h h.onDie

theorem answer {k seq : Nat} {a : Ans} : (s.answer k seq a).canonical := h.onCtx

theorem armAt {r : Ref} {t : Trigger} : (s.armAt r t).2.canonical := by
  unfold State.armAt
  dsimp only
  split
  · exact h.fire
  · split
    · exact h
    · exact h.onSlice

theorem disarmAt {part : Nat} {r : Ref} {handle : Word} : (s.disarmAt part r handle).2.canonical := by
  unfold State.disarmAt
  dsimp only
  split
  · exact h.onSlice
  · exact h

theorem enqAt {k : Nat} {r : Ref} {record : List Byte} {host : Bool} {pageEnd : Nat} :
    ∀ x ∈ s.enqAt k r record host pageEnd, x.2.canonical := by
  refine forall_mem_ite (forall_mem_some h) (forall_mem_ite (forall_mem_some h) ?_)
  exact forall_mem_ite forall_mem_none (forall_mem_some (ite h.queueCells.signal h.queueCells))

theorem deqAt {k : Nat} {r : Ref} {d : BitVec 5} {pageEnd : Nat} : ∀ x ∈ s.deqAt k r d pageEnd, x.2.canonical := by
  refine forall_mem_ite (forall_mem_some h) (forall_mem_ite (forall_mem_some h) ?_)
  exact forall_mem_ite forall_mem_none (forall_mem_some h.queueCells)

theorem dropMsg {k seq : Nat} : (s.dropMsg k seq).canonical := h.frame (by rfl)

theorem sendStatus {k seq : Nat} : (s.sendStatus k seq).2.canonical := by
  unfold State.sendStatus
  split
  · exact h
  · dsimp only
    split
    · exact h.dropMsg
    · split
      · exact h.dropMsg.decideMsg
      · exact (h.dropMsg (k := k) (seq := seq)).frame (by rfl)

theorem markWrote {k : Nat} : (s.markWrote k).canonical := h.onCtx

theorem bindPart {k : Nat} {o : Out} {j : Nat} : (s.bindPart k o j).canonical := by
  unfold State.bindPart
  split
  · split
    · exact h
    · exact (ite h h.fillCopies).powerUps.onCtx
  · exact h

theorem storePart {k : Nat} {o : Out} {n : Nat} : (s.storePart k o n).canonical := by
  unfold State.storePart
  split
  · exact ite h h.writeCells.onCtx
  · exact h

theorem perform {k : Nat} {o : Out} : (s.perform k o).1.canonical := by
  unfold State.perform
  cases o.op with dsimp only
  | value => exact h
  | load at_ fin nc => exact (powerUps (ite h h.fillCopies)).answer
  | store cells =>
    split
    · exact h.writeCells.onCtx
    · exact h
  | amo r op n d b c fpctl va =>
    split <;> split
    · exact h
    · exact noteOrder (answer (atomicCells (ite h.markWrote h)))
    · exact h
    · exact noteOrder (answer (atomicCells (ite h.markWrote h)))
  | waitge r d b =>
    split
    · exact h.onSlice.answer
    · exact h.makeJack.onCtx
  | arm r d t =>
    split
    · exact h
    · exact h.armAt.noteOrder.answer
  | disarm r d v =>
    split
    · exact h
    · exact h.disarmAt.noteOrder.answer
  | enq r d record host pageEnd _ =>
    split
    · exact h
    next heq => exact (h.enqAt _ heq).answer
  | deq r d pageEnd _ =>
    split
    · exact h
    next heq => exact (h.deqAt _ heq).answer
  | send d =>
    split
    · exact h
    · exact h.sendStatus.countRefusal.answer
  | reply m => exact h.frame (by rfl)
  | fence _ => exact h.onCtx
  | start _ => exact h.onCtx

theorem performList {k : Nat} {l : List Out} : (s.performList k l).1.canonical := by
  induction l generalizing s with
  | nil => exact h
  | cons o t ih =>
    unfold State.performList
    split
    next heq => exact ih (h.perform.of_eq_fst heq)
    next heq => exact h.perform.of_eq_fst heq

theorem require {k : Nat} {want : Out → Bool} : (s.require k want).1.canonical := h.performList

theorem settle {k : Nat} : (s.settle k).1.canonical := by
  unfold State.settle
  split
  next heq => exact (h.require.of_eq_fst heq).onCtx
  next heq => exact (h.require.of_eq_fst heq).onCtx

theorem performAll {k : Nat} : (s.performAll k).1.canonical := h.require

/-! ### Stacker -/

theorem wakeOn {inScope : Nat → Bool} {w : WaitOn} : (s.wakeOn inScope w).canonical := h.frame (by rfl)

theorem wakeQuad {quad : Nat} {w : WaitOn} : (s.wakeQuad quad w).canonical := h.wakeOn

theorem setTile {quad n : Nat} {t : Tile} : (s.setTile quad n t).canonical := (h.onQuad (by rfl)).wakeQuad

theorem dropTile {quad n : Nat} : (s.dropTile quad n).canonical := (h.onQuad (by rfl)).wakeQuad

theorem setRing {quad n : Nat} {r : Ring} : (s.setRing quad n r).canonical := (h.onQuad (by rfl)).wakeQuad

theorem dropRing {quad n : Nat} : (s.dropRing quad n).canonical := (h.onQuad (by rfl)).wakeQuad

theorem setStatus {m : Member} {state flags : Nat} : (s.setStatus m state flags).canonical := h.onCore

theorem tileBack {quad n : Nat} {st : TileState} : (s.tileBack quad n st).canonical := by
  unfold State.tileBack
  split
  · exact h.setTile
  · exact h

theorem withdraw {m : Member} : (s.withdraw m).canonical := h.onGang.tileBack.tileBack.setStatus

theorem withdrawAll {k : Nat} : (s.withdrawAll k).canonical := h.foldl fun h => h.withdraw

theorem orphan {k : Nat} : (s.orphan k).canonical := h.onGang

theorem release {k : Nat} : (s.release k).canonical := ite h.orphan h

theorem makeDue {gang : Nat} {sel : Inst → Bool} : (s.makeDue gang sel).canonical := h.onGang

theorem oldestDue {gang : Nat} : (s.oldestDue gang).canonical := by
  unfold State.oldestDue
  dsimp only
  split
  · exact h
  · exact h.makeDue

theorem markTile {quad n : Nat} {st : TileState} : (match (s.quad quad).tile? n with
    | some t => s.setTile quad n { t with st, eng := true }
    | none => s).canonical := by
  split
  · exact h.setTile
  · exact h

theorem join {key : Key} {m : Member} : (s.join key m).2.canonical := by
  unfold State.join
  extract_lets core quad gang ident g now place take
  clear_value place
  cases place with
  | none => exact h
  | some p =>
    dsimp -zeta only
    extract_lets _ _ _ _ s1 s2
    have hs2 : s2.canonical := h.noteOrder.onGang.onCore
    exact hs2.markTile.markTile.setStatus

/-! ### Trap -/

theorem restBanks {quad : Nat} : (s.restBanks quad).canonical := by
  refine ite h (h.onQuad_wf ?_)
  exact List.foldlRecOn (motive := fun q : Quad => q.mem.wf = true) _ _ (h.quad_wf quad) fun q hq b _ => Memory.clear_wf hq _ _

theorem launchTaskEnded {l : Option Nat} {killed : Bool} : (s.launchTaskEnded l killed).canonical := by
  unfold State.launchTaskEnded
  split
  · exact h
  · exact h.onCp

theorem endAttempt {k : Nat} : (s.endAttempt k).canonical := h.freeJacks.dropToken.onCtx

theorem freeContext {k : Nat} : (s.freeContext k).canonical := h.endAttempt.release.onCtx.restBanks

theorem flushReplies {core : Nat} : (s.flushReplies core).canonical := by
  refine h.foldl fun {s m} h => ite h ?_
  have hsent : ({ s with net := s.net.filter (· != m) } : State).canonical := h.frame (by rfl)
  have hanswer : (if m.here s then ({ s with net := s.net.filter (· != m) } : State).decideMsg m
      else (accepted, { s with net := s.net.filter (· != m) })).2.canonical := by
    split
    · exact hsent.decideMsg
    · exact hsent
  exact ite hanswer.countRefusal hanswer.countRefusal.onCore

theorem endIfDone {k : Nat} : (s.endIfDone k).canonical := ite h.launchTaskEnded.freeContext h

theorem kill {k : Nat} {report : Option (Nat × Nat × Word × Word)} : (s.kill k report).canonical := by
  unfold State.kill
  extract_lets c s1 s2 s3
  have hs1 : s1.canonical := by
    dsimp only [s1]
    split
    · exact h
    · exact h.report
  have hs3 : s3.canonical := (ite hs1.withdrawAll hs1).endAttempt.onCtx.require
  exact (ite hs3.flushReplies hs3).endIfDone

theorem retireEntry {core i : Nat} : (s.retireEntry core i).canonical := by
  unfold State.retireEntry
  dsimp only
  split
  · exact h
  · exact ite (h.onCtx.performAll.frame (by rfl)).onCore.launchTaskEnded (h.onCtx.performAll.frame (by rfl)).onCore

theorem openGate {g : Gate} : (s.openGate g).1.canonical := by
  unfold State.openGate
  split
  · exact h
  · dsimp only
    split
    · exact h.require.endIfDone
    · split
      · exact h.retireEntry
      · exact h

theorem openGates {gs : List Gate} : (s.openGates gs).1.canonical := h.foldl_fst fun h => h.openGate

theorem pastGates {gs : List Gate} {f : State → State} (hf : ∀ {t : State}, t.canonical → (f t).canonical) :
    (s.pastGates gs f).canonical := by
  unfold State.pastGates
  split
  next heq => exact hf (h.openGates.of_eq_fst heq)
  next heq => exact h.openGates.of_eq_fst heq

theorem killScan {k : Nat} : (s.killScan k).canonical := by
  unfold State.killScan
  exact h.kill

theorem hardAbort {k cause detail : Nat} : (s.hardAbort k cause detail).canonical := by
  unfold State.hardAbort
  dsimp only
  split
  · exact h
  · split
    · exact h
    · split
      · exact h.endAttempt.onCtx.onCtx
      · exact h.endAttempt.onCtx.killScan

theorem enterTrap {k code detail : Nat} {tval ret : Word} : (s.enterTrap k code detail tval ret).canonical := ite h (ite h.kill h.onCtx)

theorem takePending {k : Nat} {kills : Bool} : ∀ t ∈ s.takePending k kills, t.canonical := by
  unfold State.takePending
  dsimp only
  split
  · exact forall_mem_some (ite h.onCtx.hardAbort h.onCtx.enterTrap)
  · split
    · exact forall_mem_ite forall_mem_none (forall_mem_some (ite h.onCtx.hardAbort h.onCtx.enterTrap))
    · exact forall_mem_none

theorem takeCause {k code detail : Nat} {tval ret : Word} : (s.takeCause k code detail tval ret).canonical := by
  unfold State.takeCause
  split
  next heq => exact h.takePending _ heq
  · exact ite h.hardAbort h.enterTrap

theorem settleCause {k : Nat} : (s.settleCause k).1.canonical := by
  unfold State.settleCause
  split
  · exact h.require.onCtx
  · exact h.settle

theorem takeTrap {k code detail : Nat} {tval ret : Word} : (s.takeTrap k code detail tval ret).canonical := by
  unfold State.takeTrap
  split
  next heq => exact (h.settleCause.of_eq_fst heq).onCtx
  next heq => exact (h.settleCause.of_eq_fst heq).takeCause

theorem cause {code : Nat} {tval ret : Word} {done : Bool} {mark : Ctx → Ctx} : (s.cause code tval ret done mark).canonical := by
  unfold State.cause
  split
  next heq => exact (h.settleCause.of_eq_fst heq).onMe
  next t heq =>
    have ht : t.canonical := h.settleCause.of_eq_fst heq
    exact ite ht.onMe.takeCause ht.onMe.takeCause

theorem trap {code : Nat} {tval : Word} {mark : Ctx → Ctx} : (s.trap code tval mark).canonical := h.cause

theorem illegal {w : Word32} : (s.illegal w).canonical := h.trap

theorem suspend {k reason : Nat} {va : Word} {access : Nat} : (s.suspend k reason va access).canonical := by
  unfold State.suspend
  split
  next heq => exact (h.settleCause.of_eq_fst heq).onCtx
  next t heq =>
    have ht : t.canonical := h.settleCause.of_eq_fst heq
    split
    next heq => exact ht.onCtx.takePending _ heq
    · split
      · exact ht.reportTranslation.onCtx.hardAbort
      · split
        next heq => exact (ht.reportTranslation.of_eq_fst heq).onCtx
        next heq => exact (ht.reportTranslation.of_eq_fst heq).onCtx.takeCause

theorem deny {d : Denied} : (s.deny d).canonical := by
  cases d with
  | trap code tval => exact h.trap
  | translation reason va access => exact h.suspend

theorem alone {f : State → State} (hf : ∀ {t : State}, t.canonical → (f t).canonical) : (s.alone f).canonical := (hf h.onMe).onMe

/-! ### Txn -/

theorem abortHere {k cause detail : Nat} : (s.abortHere k cause detail).canonical := h.onCtx.hardAbort

theorem meet {k : Nat} {isWrite : Bool} {line : Nat} {r : Ref} : (s.meet k isWrite line r).1.canonical := by
  unfold State.meet
  split
  · exact h
  · dsimp only
    split
    · exact h.onCtx.conflictAbort
    · exact h.foldl fun h => h.conflictAbort

theorem track {k : Nat} {isWrite : Bool} {l : List (Nat × Ref)} : (s.track k isWrite l).1.canonical := by
  induction l generalizing s with
  | nil => exact h
  | cons x rest ih =>
    unfold State.track
    split
    · exact h
    · dsimp only
      split
      · refine ih (ite ?_ (ite (onCtx ?_) (onCtx ?_))) <;> exact (ite h h.makeJack).meet.onCtx
      · split
        · exact h.abortHere
        · split
          · exact h.abortHere
          · split
            · split
              · exact h.abortHere
              · split
                next heq => exact h.meet.of_eq_fst heq
                next t heq =>
                  have ht : t.canonical := h.meet.of_eq_fst heq
                  exact ih (ite ht ht.onCtx)
            · split
              · exact h.abortHere
              · split
                next heq => exact h.makeJack.meet.of_eq_fst heq
                next t heq =>
                  have ht : t.canonical := h.makeJack.meet.of_eq_fst heq
                  exact ih (ite ht ht.onCtx)

theorem buffer {k : Nat} {cells : List (Ref × Byte)} : (s.buffer k cells).canonical := h.onCtx

theorem issueLoad {refs : List Ref} {fin : LoadFin} {nc acq : Bool} : (s.issueLoad refs fin nc acq).canonical := by
  unfold State.issueLoad
  dsimp only
  split
  next heq => exact h.track.of_eq_fst heq
  next t heq =>
    have ht : t.canonical := h.track.of_eq_fst heq
    exact ite ht.onMe ht.onMe

theorem issueStore {cells : List (Ref × Byte)} {rel : Bool} {size : Nat} : (s.issueStore cells rel size).canonical := by
  unfold State.issueStore
  dsimp only
  split
  next heq => exact h.track.of_eq_fst heq
  next t heq =>
    have ht : t.canonical := h.track.of_eq_fst heq
    exact ite ht.buffer.onMe ht.markWrote.onMe

theorem issueAtomic {r : Ref} {op : AmoOp} {bytes : Nat} {d : BitVec 5} {b c : Word} {acq rel : Bool} {va : Word} :
    (s.issueAtomic r op bytes d b c acq rel va).canonical := by
  unfold State.issueAtomic
  dsimp only
  split
  next heq => exact h.track.of_eq_fst heq
  next t heq =>
    have ht : t.canonical := h.track.of_eq_fst heq
    split
    next heq => exact ht.track.of_eq_fst heq
    next t heq =>
      have ht : t.canonical := ht.track.of_eq_fst heq
      split
      · refine ite ht.onMe.hardAbort (ite ht.onMe.hardAbort (onMe ?_))
        split
        · exact ht
        · exact ht.buffer
      · exact ht.onMe

theorem wakeUp {k : Nat} : (s.wakeUp k).canonical := h.freeJacks.onCtx

theorem sleepOn {w : List WaitOn} : (s.sleepOn w).canonical := h.onMe

theorem sleepOrTrap {word : Word32} {w : List WaitOn} : (s.sleepOrTrap word w).canonical := ite h.illegal h.sleepOn

theorem retrySleep {w : Word32} : (s.retrySleep w).canonical := by
  unfold State.retrySleep
  dsimp only
  split
  · exact h
  · split
    · exact h
    · exact ite h.dropToken.onMe.freeJacks.onMe.illegal h.dropToken.onMe.onMe

theorem retryLevels {w : Word32} {inner : List Nat} {l : List Level} : (s.retryLevels w inner l).canonical := by
  induction l generalizing s inner with
  | nil => exact h
  | cons x rest ih =>
    unfold State.retryLevels
    dsimp only
    split
    · exact h.onMe.onMe
    · exact h.onMe.abortHere
    · exact ite h.onMe.retrySleep (ih h.onMe)

theorem retry {w : Word32} : (s.retry w).canonical := by
  unfold State.retry
  split
  · exact h
  · exact h.retryLevels

theorem settleAttempt : s.settleAttempt.1.canonical := by
  unfold State.settleAttempt
  split
  next heq => exact (h.require.of_eq_fst heq).settle
  next heq => exact h.require.of_eq_fst heq

theorem abortOrTrap {cause detail : Nat} {w : Word32} : (s.abortOrTrap cause detail w).canonical := by
  unfold State.abortOrTrap
  split
  next heq => exact (h.settleAttempt.of_eq_fst heq).onMe
  next t heq =>
    have ht : t.canonical := h.settleAttempt.of_eq_fst heq
    split
    · exact ite ht.endAttempt.illegal ht.abortHere
    · exact ht

theorem retryOrTrap {w : Word32} {extra : List WaitOn} : (s.retryOrTrap w extra).canonical := by
  unfold State.retryOrTrap
  split
  next heq => exact (h.settleAttempt.of_eq_fst heq).onMe
  next t heq =>
    have ht : t.canonical := h.settleAttempt.of_eq_fst heq
    split
    · exact ite ht.endAttempt.illegal ht.onMe.retry
    · exact ht

theorem unlessAttempt {w : Word32} {effect : State → State} (heffect : ∀ {t : State}, t.canonical → (effect t).canonical) :
    (s.unlessAttempt w effect).canonical := ite h.abortOrTrap (heffect h)

/-! ### Flags -/

theorem floatOp {conds : List (Nat × Nat)} {effect : Ctx → Ctx} : (s.floatOp conds effect).canonical := ite h.onMe.step1 h.trap

theorem floatLong {known rounded : List (Nat × Nat)} {w : RegWrite} : (s.floatLong known rounded w).canonical := ite h.trap h.step1

end Sys2Proof.Machine.State.canonical
end

section
/-! The canonical form of memories under instructions and engines (R159, R180, R255, R430), by file of the model: each keeps it. -/

namespace Sys2Proof.Machine.State.canonical
variable {s : State} (h : s.canonical)
include h

/-! ### Local -/

theorem loadOne {signed nc acq : Bool} {d a : BitVec 5} {z : BitVec 2} {p : BitVec 10} : Result.Canonical (loadOne signed nc acq d a z p s) := by
  unfold Machine.loadOne
  dsimp only
  split
  next heq => exact (h.checkAccess.of_eq_snd heq).deny
  next heq => exact (h.checkAccess.of_eq_snd heq).issueLoad

theorem loadPair {acq : Bool} {d a : BitVec 5} {p : BitVec 10} : Result.Canonical (loadPair acq d a p s) := by
  unfold Machine.loadPair
  dsimp only
  split
  next heq => exact (h.checkAccess.of_eq_snd heq).deny
  next heq => exact (h.checkAccess.of_eq_snd heq).issueLoad

theorem storeOne {rel : Bool} {d a : BitVec 5} {z : BitVec 2} {p : BitVec 10} : Result.Canonical (storeOne rel d a z p s) := by
  unfold Machine.storeOne
  dsimp only
  split
  next heq => exact (h.checkAccess.of_eq_snd heq).deny
  next heq => exact (h.checkAccess.of_eq_snd heq).issueStore

theorem storePair {rel : Bool} {d a : BitVec 5} {p : BitVec 10} : Result.Canonical (storePair rel d a p s) := by
  unfold Machine.storePair
  dsimp only
  split
  next heq => exact (h.checkAccess.of_eq_snd heq).deny
  next heq => exact (h.checkAccess.of_eq_snd heq).issueStore

theorem unlessPortable {tval : Word} {effect : State → Result} (heffect : ∀ {t : State}, t.canonical → Result.Canonical (effect t)) :
    Result.Canonical (s.unlessPortable tval effect) := by
  unfold State.unlessPortable
  split
  · exact h.trap
  · exact heffect h

theorem tileChange {w : Word32} {a : BitVec 5} {effect : State → State} (heffect : ∀ {t : State}, t.canonical → (effect t).canonical) :
    Result.Canonical (tileChange w a effect s) := h.unlessAttempt fun h => ite h.trap (heffect h)

theorem waitOn {w : Word32} {on : WaitOn} : (s.waitOn w on).canonical := ite h.retryOrTrap h.sleepOrTrap

theorem afterOuts {want : Out → Bool} {effect : State → State} (heffect : ∀ {t : State}, t.canonical → (effect t).canonical) :
    (s.afterOuts want effect).canonical := by
  unfold State.afterOuts
  split
  next heq => exact heffect (h.require.of_eq_fst heq)
  next heq => exact (h.require.of_eq_fst heq).onMe

theorem tacq {xa xb : Word} : (tacq s xa xb).2.canonical := by
  unfold Machine.tacq
  dsimp only
  split
  · exact h
  · split
    · split
      · exact h
      · split
        · exact h
        · exact h.dropTile
    · split
      · exact h
      · split
        · exact h
        · split
          · exact h
          · split
            · exact h.setTile
            · split
              · exact h.setTile
              · exact h

theorem tileMove {w : Word32} {a : BitVec 5} {from_ goal : TileState} {software release loads : Bool} :
    Result.Canonical (tileMove w a from_ goal software release loads s) := by
  unfold Machine.tileMove
  refine h.tileChange fun h => ?_
  split
  · exact h.trap
  · exact ite h.waitOn (h.afterOuts (fun h => h.setTile.step1))

theorem execTstat {sb : Bool} {d a : BitVec 5} : Result.Canonical (execTstat sb d a s) :=
  h.unlessPortable fun h => result_ite (x := .next _) (y := .next _) h.waitOn h.writesX

theorem rset {w : Word32} {xa xb : Word} : (rset w s xa xb).canonical :=
  ite h.trap (ite h.waitOn (ite ((ite h.dropRing h).step1) (ite h.trap h.setRing.step1)))

theorem execRpush {sb : Bool} {a b : BitVec 5} : Result.Canonical (execRpush sb a b s) := by
  unfold Machine.execRpush
  refine h.tileChange fun h => ?_
  split
  · exact h.trap
  · exact ite h.trap (ite h.step1 (ite h.waitOn (h.afterOuts (fun h => h.setRing.step1))))

theorem execRpop {sb : Bool} {a : BitVec 5} : Result.Canonical (execRpop sb a s) := by
  unfold Machine.execRpop
  refine h.tileChange fun h => ?_
  split
  · exact h.trap
  · exact ite h.waitOn (h.afterOuts (fun h => h.setRing.step1))

theorem execRstat {sb : Bool} {d a : BitVec 5} : Result.Canonical (execRstat sb d a s) :=
  h.unlessPortable fun h => result_ite (x := .next _) (y := .next _) h.waitOn h.writesX

/-! ### Engine -/

theorem takeRole {quad : Nat} {r : Role} : (s.takeRole quad r).1.canonical := by
  unfold State.takeRole
  cases r
  case addr => exact h
  case fill | consume | keep =>
    dsimp only
    split
    · exact h.setTile
    · exact h
  case push | pop =>
    dsimp only
    split
    · exact h.setRing
    · exact h

theorem giveRole {quad : Nat} {r : Role} {id : Option Nat} {ok : Bool} : (s.giveRole quad r id ok).canonical := by
  unfold State.giveRole
  dsimp only
  split
  · exact h
  · split
    · exact h.setTile
    · exact h
  · split
    · exact h.setTile
    · exact h
  · split
    · exact h.setTile
    · exact h
  · split
    · exact h.setRing
    · exact h
  · split
    · exact h.setRing
    · exact h

theorem engineCheck {quad pasid : Nat} {a : Word} {n align : Nat} {write host : Bool} :
    (engineCheck s quad pasid a n align write host).2.canonical := by
  unfold Machine.engineCheck
  split
  · exact h
  · split
    · dsimp only
      split
      · exact h
      · split
        · exact h
        · exact h
    · split
      · exact h
      · split
        next heq => exact h.translate.of_eq_snd heq
        next t heq =>
          have ht : t.canonical := h.translate.of_eq_snd heq
          dsimp only
          split
          · split
            · exact ht
            · split
              · exact ht
              · exact ht
          · split
            · exact ht
            · split
              · exact ht
              · exact ht

theorem engineWrite {quad : Nat} {cells : List (Ref × Byte)} : (s.engineWrite quad cells).1.canonical := by
  unfold State.engineWrite
  dsimp only
  split
  · exact h
  · exact ite (ite h h.lwrite) ((ite h h.lwrite).gwrite)

theorem works {quad n : Nat} : (s.works quad n).canonical := h.onQuad (by rfl)

theorem timelineStore {quad index value : Nat} : ∀ x ∈ s.timelineStore quad index value, x.1.canonical := by
  unfold State.timelineStore
  refine forall_mem_ite (forall_mem_some h) ?_
  split
  next heq => exact forall_mem_some (h.engineCheck.of_eq_snd heq)
  next t heq =>
    have ht : t.canonical := h.engineCheck.of_eq_snd heq
    refine forall_mem_ite (forall_mem_some ht) ?_
    split
    next heq => exact forall_mem_some (ht.engineWrite.of_eq_fst heq)
    next => exact forall_mem_none

/-! ### Control -/

theorem jump {t : Word} : (s.jump t).canonical := h.onMe

theorem branch {cond : Word → Word → Bool} {a b : BitVec 5} {o : BitVec 12} : Result.Canonical (branch cond a b o s) := by
  unfold Machine.branch
  split
  · exact h.jump
  · exact h.step1

theorem execJalr {d a : BitVec 5} {i : BitVec 15} : Result.Canonical (execJalr d a i s) := by
  unfold Machine.execJalr
  dsimp only
  split
  · exact h.trap
  · exact h.onMe

/-! ### Atomics -/

theorem atomic {op : AmoOp} {bytes : Nat} {d a : BitVec 5} {b c : Word} {acq rel : Bool} :
    Result.Canonical (atomic op bytes d a b c acq rel s) := by
  unfold Machine.atomic
  dsimp only
  split
  next heq => exact (h.checkAtomic.of_eq_snd heq).deny
  next heq => exact (h.checkAtomic.of_eq_snd heq).issueAtomic

theorem amo {op : AmoOp} {d a b : BitVec 5} {o : BitVec 2} {w : BitVec 1} : Result.Canonical (amo op d a b o w s) := h.atomic

theorem issueX {op : OutOp} {d : BitVec 5} {pure acq rel : Bool} : (s.issueX op d pure acq rel).canonical := h.step1

theorem issueXValue {d : BitVec 5} {w : Word} : (s.issueXValue d w).canonical := h.step1

theorem issueStart {d : BitVec 5} {w : Word} {g : Gate} : (s.issueStart d w g).canonical := h.step1

theorem readRecord {a : Word} {n : Nat} {cont : List Byte → State → State}
    (hcont : ∀ {t : State} {b0 : List Byte}, t.canonical → (cont b0 t).canonical) :
    (s.readRecord a n cont).canonical := by
  unfold State.readRecord
  split
  next heq => exact (h.checkAccess.of_eq_snd heq).deny
  next heq => exact (h.checkAccess.of_eq_snd heq).afterOuts fun h => hcont h

theorem afterChecks {l : List Asked} {effect : State → State} (heffect : ∀ {t : State}, t.canonical → (effect t).canonical) :
    (s.afterChecks l effect).canonical := by
  unfold State.afterChecks
  split
  next heq => exact (h.precheck.of_eq_snd heq).deny
  next heq => exact heffect (h.precheck.of_eq_snd heq)

theorem execArm {sb : Bool} {d a b c : BitVec 5} : Result.Canonical (execArm sb d a b c s) := by
  unfold Machine.execArm
  refine h.unlessAttempt fun h => h.afterChecks fun h => ?_
  split
  next heq => exact (h.checkAtomic.of_eq_snd heq).deny
  next heq =>
    refine (h.checkAtomic.of_eq_snd heq).readRecord fun h => ?_
    exact ite h.issueXValue (ite h.issueXValue (ite h.issueXValue h.issueX))

theorem execDisarm {sb : Bool} {d a b : BitVec 5} : Result.Canonical (execDisarm sb d a b s) := by
  unfold Machine.execDisarm
  refine h.unlessAttempt fun h => ?_
  split
  next heq => exact (h.checkAtomic.of_eq_snd heq).deny
  next heq => exact (h.checkAtomic.of_eq_snd heq).issueX

/-! ### Tasks -/

theorem send {d : BitVec 5} {xa xb : Word} {n : Nat} : (s.send d xa xb n).canonical := h.frame (by rfl)

theorem execAmsend {sb : Bool} {d a b : BitVec 5} {n : BitVec 3} : Result.Canonical (execAmsend sb d a b n s) := by
  unfold Machine.execAmsend
  refine h.unlessAttempt fun h => ?_
  split
  · exact h.illegal
  · split
    · exact h.issueXValue
    · exact h.afterOuts fun h => h.send

theorem execAmreply {sb : Bool} {b : BitVec 5} {n : BitVec 3} : Result.Canonical (execAmreply sb b n s) := by
  unfold Machine.execAmreply
  refine h.unlessAttempt fun h => ?_
  split
  · exact h.illegal
  · exact ite h.illegal (ite h.trap h.step1)

theorem execSpawn {sb : Bool} {a : BitVec 5} : Result.Canonical (execSpawn sb a s) :=
  h.unlessAttempt fun h => h.readRecord fun h => ite h.trap (ite h.trap h.enqueue.step1)

theorem post {host : Bool} {w : Word32} {d a b : BitVec 5} : Result.Canonical (post host w d a b s) := by
  unfold Machine.post
  refine h.unlessAttempt fun h => h.afterChecks fun h => ?_
  split
  next heq => exact (h.checkAccess.of_eq_snd heq).deny
  next t heq =>
    have ht : t.canonical := h.checkAccess.of_eq_snd heq
    exact ite ht.trap (ht.readRecord fun h => h.issueX)

theorem execDeq {sb : Bool} {d a : BitVec 5} : Result.Canonical (execDeq sb d a s) := by
  unfold Machine.execDeq
  dsimp only
  split
  · exact h.illegal
  · refine h.unlessAttempt fun h => h.afterChecks fun h => ?_
    split
    next heq => exact (h.checkAccess.of_eq_snd heq).deny
    next t heq =>
      have ht : t.canonical := h.checkAccess.of_eq_snd heq
      refine ite ht.trap ?_
      split
      · exact ht.trap
      · exact ht.step1

theorem halt {before : State → State} (hbefore : ∀ {t : State}, t.canonical → (before t).canonical) : (s.halt before).canonical :=
  h.afterOuts fun h => ite ((ite h.flushReplies h).onMe) ((hbefore (ite h.flushReplies h)).launchTaskEnded.freeContext)

theorem execHaltK {sb : Bool} {a b : BitVec 5} : Result.Canonical (execHaltK sb a b s) :=
  h.unlessAttempt fun h => ite h.illegal (h.halt (fun h => h.onCore))

theorem tail : s.tail.canonical := h.afterOuts fun h => ite h.onMe ((ite h.launchTaskEnded h.onCore).freeContext)

/-! ### System -/

theorem ctlWrite {r : CtlReg} {v : Word} : (ctlWrite s r v).canonical := by
  unfold Machine.ctlWrite
  dsimp only
  split
  · exact h.onMe
  · exact h.onMe
  · exact h.onMe
  · exact h.onMe
  · exact h.onMe
  · exact h.onMe
  · exact h.onMe
  · exact h.onMe
  · exact h.onMe
  · exact h.onQuad (by rfl)
  · exact h.onMe
  · exact h.onMe
  · exact h.onMe
  · exact h.onQuad (by rfl)
  · exact h.onCore
  · exact h.onCore
  · exact h.onCore
  · exact h

theorem tlbaseWrite {v : Word} {done : State → State} (hdone : ∀ {t : State}, t.canonical → (done t).canonical) :
    (tlbaseWrite s v done).canonical := by
  unfold Machine.tlbaseWrite
  dsimp only
  split
  · exact h.onMe
  · split
    · exact hdone (h.onQuad (by rfl))
    · split
      next heq => exact (h.globalCheck.of_eq_snd heq).deny
      next heq =>
        exact ite (h.globalCheck.of_eq_snd heq).onMe (hdone ((h.globalCheck.of_eq_snd heq).writeCells.onQuad (funext fun q => markTlfs_mem _ _)))

theorem ctlStore {r : CtlReg} {v : Word} {done : State → State} (hdone : ∀ {t : State}, t.canonical → (done t).canonical) :
    (ctlStore s r v done).canonical := by
  unfold Machine.ctlStore
  split
  · exact ite h.trap (hdone h.ctlWrite)
  · exact ite h.trap (h.tlbaseWrite (fun h => hdone h))
  · exact hdone h.ctlWrite

theorem ctlForm {w : Word32} {x : BitVec 12} {d : Option (BitVec 5)} {f : Word → Word} : Result.Canonical (ctlForm w x d f s) := by
  unfold Machine.ctlForm
  split
  · exact h.illegal
  · split
    · exact h.illegal
    · dsimp only
      split
      · exact h.unlessAttempt fun h => h.ctlStore fun h => h.step1
      · exact h.ctlStore fun h => h.step1

theorem execCtlrd {sb : Bool} {d : BitVec 5} {x : BitVec 12} : Result.Canonical (execCtlrd sb d x s) := by
  unfold Machine.execCtlrd
  split
  · exact h.illegal
  · exact h.illegal
  · exact h.writesX

theorem execCtlwr {sb : Bool} {a : BitVec 5} {x : BitVec 12} : Result.Canonical (execCtlwr sb a x s) := by
  unfold Machine.execCtlwr
  exact h.ctlForm

theorem execCtlset {sb : Bool} {d a : BitVec 5} {x : BitVec 12} : Result.Canonical (execCtlset sb d a x s) := by
  unfold Machine.execCtlset
  exact h.ctlForm

theorem execCtlclr {sb : Bool} {d a : BitVec 5} {x : BitVec 12} : Result.Canonical (execCtlclr sb d a x s) := by
  unfold Machine.execCtlclr
  exact h.ctlForm

theorem execEret {sb : Bool} : Result.Canonical (execEret sb s) := by
  unfold Machine.execEret
  dsimp only
  split
  · exact h.illegal
  · split
    · exact h.onMe
    · exact h.unlessAttempt fun h => h.onMe

theorem flushTlb {quarters : Nat} {hit : Tlb → Bool} {hitRecord : CachedRecord → Bool} : (s.flushTlb quarters hit hitRecord).canonical := by
  refine h.mapQuads rfl (funext fun _ => ?_) rfl
  dsimp only
  split <;> rfl

theorem demote {lo hi : Nat} : (s.demote lo hi).canonical := h.frame (by rfl)

theorem drainContexts {quarters : Nat} {pages : List Tlb} : (s.drainContexts quarters pages).1.canonical := by
  unfold State.drainContexts
  refine h.foldl_fst fun h => ?_
  split
  · exact h.require.endIfDone
  · exact h

theorem drainTrackers {quarters : Nat} {pages : List Tlb} : (s.drainTrackers quarters pages).1.canonical :=
  h.foldl fun h => h.foldl fun h => h.retireEntry

theorem drainPages {quarters : Nat} {pages : List Tlb} : (s.drainPages quarters pages).1.canonical := h.drainContexts.drainTrackers

theorem dueThrough {quarters : Nat} {hit : Tlb → Bool} : (s.dueThrough quarters hit).canonical := h.frame (by rfl)

theorem dueWords {quarters : Nat} {pages : List Tlb} : (s.dueWords quarters pages).canonical := h.frame (by rfl)

theorem pagesDone {quarters : Nat} {hit : Tlb → Bool} {barrier : Bool} : (s.pagesDone quarters hit barrier).1.canonical := by
  unfold State.pagesDone
  dsimp only
  split
  next heq => exact h.drainPages.of_eq_fst heq
  next heq => exact (h.drainPages.of_eq_fst heq).dueThrough.dueWords

theorem dropPages {quarters : Nat} {hit : Tlb → Bool} {hitRecord : CachedRecord → Bool} : (s.dropPages quarters hit hitRecord).canonical :=
  h.flushTlb.foldl fun h => h.demote

theorem invalidate {hit : Tlb → Bool} {hitRecord : CachedRecord → Bool} : (s.invalidate hit hitRecord).canonical := by
  unfold State.invalidate
  split
  · exact h.step1
  · split
    next heq => exact (h.pagesDone.of_eq_fst heq).onMe
    next heq => exact (h.pagesDone.of_eq_fst heq).dropPages.step1

theorem execTlbinv {sb : Bool} {a : BitVec 5} : Result.Canonical (execTlbinv sb a s) := by
  unfold Machine.execTlbinv
  dsimp only
  split
  · exact h.illegal
  · exact h.unlessAttempt fun h => ite h.step1 (ite h.trap h.invalidate)

theorem execTlbinvAs {sb : Bool} {a : BitVec 5} : Result.Canonical (execTlbinvAs sb a s) := by
  unfold Machine.execTlbinvAs
  dsimp only
  split
  · exact h.illegal
  · exact h.unlessAttempt fun h => ite h.trap h.invalidate

/-! ### Copy -/

theorem latch {n : Nat} {d : BitVec 5} {src dst : Role} {sAddr dAddr : Word} {rm : Nat} {work : CopyWork} :
    (s.latch n d src dst sAddr dAddr rm work).canonical := by
  unfold State.latch
  exact (h.takeRole.takeRole.onQuad (by rfl)).issueStart

theorem launchWait {w : Word32} {n : Nat} {src dst : Role} {effect : State → State}
    (heffect : ∀ {t : State}, t.canonical → (effect t).canonical)  :
    (s.launchWait w n src dst effect).canonical := by
  unfold State.launchWait
  dsimp only
  split
  · exact h.waitOn
  · exact ite h.onMe (heffect h)

theorem execCpgoRead {sb : Bool} {d : BitVec 5} {n : BitVec 2} : Result.Canonical (execCpgoRead sb d n s) := by
  unfold Machine.execCpgoRead
  refine h.unlessAttempt fun h => ?_
  split
  · exact h.trap
  · dsimp only
    split
    · exact h.trap
    · exact h.launchWait fun h => h.latch

theorem fillShadow {xa : Word} {n : Nat} {bs : List Byte} : (s.fillShadow xa n bs).canonical := ite h.trap (h.onQuad (by rfl)).step1

theorem execCprec {sb : Bool} {a b : BitVec 5} : Result.Canonical (execCprec sb a b s) := by
  unfold Machine.execCprec
  refine h.unlessAttempt fun h => ?_
  dsimp only
  split
  · exact h.trap
  · split
    · exact (h.onQuad (by rfl)).fillShadow
    · exact h.readRecord fun h => (h.onQuad (by rfl)).fillShadow

theorem gatherOp {scatter : Bool} {w : Word32} {d a b : BitVec 5} : Result.Canonical (gatherOp scatter w d a b s) := by
  unfold Machine.gatherOp
  refine h.unlessAttempt fun h => ite h.trap (h.readRecord fun h => ?_)
  dsimp only
  split
  · exact h.trap
  · exact h.launchWait fun h => h.latch

theorem execTlrd {sb : Bool} {d a : BitVec 5} : Result.Canonical (execTlrd sb d a s) :=
  h.unlessAttempt fun h => ite h.trap (ite ((ite (h.onQuad (by rfl)) h).issueXValue) ((ite (h.onQuad (by rfl)) h).issueXValue))

theorem engineChecks {quad pasid : Nat} {write host : Bool} {n : Nat} {l : List Word} :
    (engineChecks s quad pasid write host n l).2.canonical := by
  induction l generalizing s with
  | nil => exact h
  | cons a t ih =>
    unfold Machine.engineChecks
    split
    next heq => exact h.engineCheck.of_eq_snd heq
    next t heq =>
      have ht : t.canonical := h.engineCheck.of_eq_snd heq
      split
      next heq => exact (ih ht).of_eq_snd heq
      next heq => exact (ih ht).of_eq_snd heq

theorem engineTake {quad : Nat} {rs : List Ref} {n : Nat} : (s.engineTake quad rs n).2.canonical := h.powerUps

theorem onCopyOp {quad n : Nat} {f : CopyOp → CopyOp} : (s.onCopyOp quad n f).canonical := h.onQuad (by rfl)

theorem placeOut {quad pasid : Nat} {host : Bool} {p : Placed} : ∀ x ∈ s.placeOut quad pasid host p, x.1.canonical := by
  unfold State.placeOut
  split
  next heq => exact forall_mem_some (h.engineCheck.of_eq_snd heq)
  next t heq =>
    have ht : t.canonical := h.engineCheck.of_eq_snd heq
    refine forall_mem_ite (forall_mem_some ht) ?_
    split
    next heq => exact forall_mem_some (ht.engineWrite.of_eq_fst heq)
    next => exact forall_mem_none

theorem gatherPosition {quad : Nat} {o : CopyOp} {g : GatherRegs} : (gatherPosition s quad o g).Canonical := by
  unfold Machine.gatherPosition
  dsimp only
  split
  next heq => exact h.engineCheck.of_eq_snd heq
  next t heq =>
    have ht : t.canonical := h.engineCheck.of_eq_snd heq
    split
    · split
      · exact ht.powerUps
      · split
        next heq => exact ht.powerUps.engineChecks.of_eq_snd heq
        next heq => exact ht.powerUps.engineChecks.of_eq_snd heq
    · split
      · exact ht.powerUps
      · split
        next heq => exact ht.powerUps.engineChecks.of_eq_snd heq
        next t heq =>
          have ht : t.canonical := ht.powerUps.engineChecks.of_eq_snd heq
          split
          next heq => exact ht.engineChecks.of_eq_snd heq
          next heq => exact (ht.engineChecks.of_eq_snd heq).powerUps

theorem dequantElems {quad : Nat} {o : CopyOp} {t : Nat} {seen : Map (List Byte)} {new : List Placed} {cond : Nat} {l : List (Word × Val)} :
    (dequantElems s quad o t seen new cond l).Canonical := by
  induction l generalizing s new cond with
  | nil => exact h
  | cons x rest ih =>
    unfold Machine.dequantElems
    split
    next heq => exact h.engineCheck.of_eq_snd heq
    next heq => exact ih (h.engineCheck.of_eq_snd heq)

theorem dequantiseBlock {quad : Nat} {o : CopyOp} {r : CopyRegs} {q t : Nat} : (dequantiseBlock s quad o r q t).Canonical := by
  unfold Machine.dequantiseBlock
  dsimp only
  split
  next heq => exact h.engineChecks.of_eq_snd heq
  next t heq =>
    have ht : t.canonical := h.engineChecks.of_eq_snd heq
    split
    next heq => exact ht.engineCheck.of_eq_snd heq
    next heq => exact (ht.engineCheck.of_eq_snd heq).powerUps.dequantElems

theorem quantiseBlock {quad : Nat} {o : CopyOp} {r : CopyRegs} {t q : Nat} : (quantiseBlock s quad o r t q).Canonical := by
  unfold Machine.quantiseBlock
  split
  next heq => exact h.engineChecks.of_eq_snd heq
  next t heq =>
    have ht : t.canonical := h.engineChecks.of_eq_snd heq
    dsimp only
    split
    next heq => exact ht.engineChecks.of_eq_snd heq
    next t heq =>
      have ht : t.canonical := ht.engineChecks.of_eq_snd heq
      split
      next heq => exact ht.engineCheck.of_eq_snd heq
      next heq => exact (ht.engineCheck.of_eq_snd heq).powerUps

theorem copyElement {quad : Nat} {o : CopyOp} {r : CopyRegs} {a b : Side} : (copyElement s quad o r a b).Canonical := by
  unfold Machine.copyElement
  dsimp only
  split
  next heq => exact h.engineCheck.of_eq_snd heq
  next t heq =>
    have ht : t.canonical := h.engineCheck.of_eq_snd heq
    split
    next heq => exact ht.engineCheck.of_eq_snd heq
    next heq => exact (ht.engineCheck.of_eq_snd heq).powerUps

theorem move {o : CopyOp} {quad : Nat} : (o.move s quad).Canonical := by
  unfold CopyOp.move
  split
  · exact h.gatherPosition
  · split
    · exact h.quantiseBlock
    · exact h.dequantiseBlock
    · exact h.copyElement
    · exact h

theorem copyRun {quad n : Nat} {early : Bool} {k : Nat} : (copyRun quad n early k s).canonical := by
  induction k generalizing s with
  | zero => exact h
  | succ k ih =>
    unfold Machine.copyRun
    split
    · exact h
    · split
      · exact h
      · split
        · dsimp only
          split
          · exact h
          next heq => exact ih (onCopyOp (works (h.placeOut _ heq)))
          next heq => exact onCopyOp (h.placeOut _ heq)
        · split
          · exact ih h.onCopyOp
          · split
            next heq => exact ih (h.move.of_eq_failed heq).works.onCopyOp
            next heq => exact ih (h.move.of_eq_done heq).works.onCopyOp

theorem copyRetire {quad n : Nat} : (copyRetire s quad n).canonical := by
  unfold Machine.copyRetire
  dsimp only
  split
  · exact h
  · split
    · exact h
    · split
      · exact h
      next heq => exact ((h.timelineStore _ heq).onQuad (by rfl)).giveRole.giveRole

/-! ### Global -/

theorem fence {sc : Scope} : Result.Canonical (fence sc s) := h.afterOuts fun h => h.step1

theorem prefetch {a : BitVec 5} : Result.Canonical (prefetch a s) := by
  refine step1 ?_
  split
  · exact ite h.fillCopies h
  · exact h

theorem lineOp {effect : State → Ref → State} (heffect : ∀ {t : State} {a : Ref}, t.canonical → (effect t a).canonical) {a : BitVec 5} :
    Result.Canonical (lineOp effect a s) := by
  unfold Machine.lineOp
  dsimp only
  split
  · exact h.step1
  · split
    next heq => exact (h.globalCheck.of_eq_snd heq).deny
    next heq => exact (heffect (h.globalCheck.of_eq_snd heq)).step1

theorem execNhint {n : BitVec 2} {a : BitVec 5} : Result.Canonical (execNhint n a s) := by
  refine step1 ?_
  split
  · refine ite ?_ h
    split
    · exact h
    · exact h.onDie
  · exact h

/-! ### Matrix -/

theorem checkImage {xa : Word} {c : Sampled} : (checkImage s xa c).2.canonical := by
  unfold Machine.checkImage
  dsimp only
  split
  · exact h
  · split
    · exact h
    · split
      next heq => exact h.globalCheck.of_eq_snd heq
      next t heq =>
        have ht : t.canonical := h.globalCheck.of_eq_snd heq
        split
        · exact ht
        · split
          · exact ht
          · exact ht

theorem checkCword {x : Word} : (checkCword s x).2.canonical := by
  unfold Machine.checkCword
  split
  · exact h
  · split
    next heq => exact h.checkAtomic.of_eq_snd heq
    next heq => exact h.checkAtomic.of_eq_snd heq

theorem matrixOp {w : Word32} {effect : State → State} (heffect : ∀ {t : State}, t.canonical → (effect t).canonical) :
    Result.Canonical (matrixOp w effect s) := by
  unfold Machine.matrixOp
  split
  · exact h.illegal
  · exact h.unlessAttempt fun h => heffect h

theorem complete {quad : Nat} {c : CWord} {core : Nat} : (s.complete quad c core).canonical := by
  unfold State.complete
  dsimp only
  split
  · exact h.engineWrite.keepPoison.noteOrder
  · exact h.engineWrite.keepPoison

theorem mmsCheck {sm : Sampled} {xa xb xc : Word} : (mmsCheck s sm xa xb xc).2.canonical := by
  unfold Machine.mmsCheck
  dsimp only
  split
  · exact h
  · split
    · exact h
    · split
      · exact h
      · split
        · exact h
        · split
          next heq => exact h.checkImage.of_eq_snd heq
          next t heq =>
            have ht : t.canonical := h.checkImage.of_eq_snd heq
            split
            next heq => exact ht.checkCword.of_eq_snd heq
            next t heq =>
              have ht : t.canonical := ht.checkCword.of_eq_snd heq
              split
              · exact ht
              · exact ht

theorem askRoom : s.askRoom.canonical := ite h h.oldestDue.onMe

theorem execMms {sb : Bool} {d a b c : BitVec 5} : Result.Canonical (execMms sb d a b c s) := by
  unfold Machine.execMms
  refine h.matrixOp fun h => ?_
  split
  next heq => exact (h.mmsCheck.of_eq_snd heq).deny
  next heq => exact (h.mmsCheck.of_eq_snd heq).waitOn
  next t heq =>
    have ht : t.canonical := h.mmsCheck.of_eq_snd heq
    exact ite ht.onMe (ite ht.join.issueStart.onMe ht.askRoom.onMe)

theorem execMflush {sb : Bool} {a : BitVec 5} : Result.Canonical (execMflush sb a s) := by
  unfold Machine.execMflush
  refine h.matrixOp fun h => ?_
  split
  · exact h.makeDue.step1
  · split
    · exact h.trap
    · split
      next heq => exact (h.checkImage.of_eq_snd heq).deny
      next heq => exact (h.checkImage.of_eq_snd heq).makeDue.step1

theorem execMkey {sb : Bool} {d a : BitVec 5} : Result.Canonical (execMkey sb d a s) := by
  unfold Machine.execMkey
  refine h.matrixOp fun h => ?_
  split
  · exact h.trap
  · split
    next heq => exact (h.checkImage.of_eq_snd heq).deny
    next heq => exact ((h.checkImage.of_eq_snd heq).frame (by rfl)).writesX

theorem execMldb {sb : Bool} {a b : BitVec 5} : Result.Canonical (execMldb sb a b s) := by
  unfold Machine.execMldb
  refine h.matrixOp fun h => ?_
  split
  · exact h.trap
  · split
    · exact h.deny
    · split
      next heq => exact (h.checkCword.of_eq_snd heq).deny
      next t heq =>
        have ht : t.canonical := h.checkCword.of_eq_snd heq
        split
        next heq => exact (ht.checkImage.of_eq_snd heq).deny
        next t heq =>
          have ht : t.canonical := ht.checkImage.of_eq_snd heq
          exact ite ht.onMe ht.onGang.step1

theorem arrive {d : BitVec 5} {a : Arrival} : (s.arrive d a).canonical := by
  unfold State.arrive
  extract_lets core gang j ident _ m s1 take s2 s3 now s4 s5
  have hs1 : s1.canonical := h.onCore
  have hs2 : s2.canonical := markTile (ite hs1.markTile hs1)
  have hs4 : s4.canonical := hs2.setStatus.onGang
  have hs5 : s5.canonical := ite hs4.wakeOn hs4
  exact hs5.issueStart

theorem execMgang {sb : Bool} {d a b : BitVec 5} : Result.Canonical (execMgang sb d a b s) := by
  unfold Machine.execMgang
  refine h.matrixOp fun h => ?_
  dsimp only
  split
  · exact h.trap
  · split
    · exact h.trap
    · split
      · exact h.trap
      · split
        · exact h.trap
        · split
          · exact h.trap
          · split
            next heq => exact (h.checkCword.of_eq_snd heq).deny
            next t heq =>
              have ht : t.canonical := h.checkCword.of_eq_snd heq
              exact ite ht.waitOn (ite ht.waitOn (ite ht.waitOn ht.arrive))

theorem carryTo {k : Option Nat} {va : Word} : (s.carryTo k va).canonical := by
  unfold State.carryTo
  split
  · exact h.onCtx
  · exact h

theorem loadBuffer {gang : Nat} : (loadBuffer s gang).canonical := by
  unfold Machine.loadBuffer
  dsimp only
  split
  · exact h
  · exact ite h (h.pastGates (fun h => ite h (ite h.onGang.complete.carryTo h.onGang.complete)))

theorem chooseAll {l : List Cand} : (chooseAll s l).2.canonical := by
  induction l generalizing s with
  | nil => exact h
  | cons c t ih => exact ih h.choose

theorem ageAll {l : List Cand} : (ageAll s l).2.canonical := h.chooseAll

theorem streamCand {gang : Nat} {inst : Option Nat} : (s.streamCand gang inst).canonical := by
  unfold State.streamCand
  dsimp only
  split
  · split
    · exact h
    · exact h.onGang
  · split
    · exact h
    · exact h.noteOrder.onGang

theorem selectArray {gang : Nat} : (selectArray s gang).canonical := by
  unfold Machine.selectArray
  split
  · exact h
  · dsimp only
    split
    · exact h.ageAll
    · exact h.ageAll.pastGates fun h => h.streamCand

theorem prereadImage {gang n : Nat} : (prereadImage s gang n).canonical := by
  unfold Machine.prereadImage
  split
  · exact h
  · dsimp only
    split
    · exact h.ageAll
    · exact ite h.ageAll (h.ageAll.pastGates (fun h => h.onGang))

theorem holdExpires {gang n : Nat} : (holdExpires s gang n).canonical := h.onGang

theorem retireBarred {x : Streamed} {carry : Bool} : (s.retireBarred x carry).canonical := by
  refine ite (complete ?_) ?_ <;> exact (ite (h.choose.frame (by rfl)).giveRole (h.choose.frame (by rfl))).giveRole.setStatus

theorem retireOne {x : Streamed} : (s.retireOne x).canonical :=
  (ite h.retireBarred ((ite h.engineWrite.giveRole h.engineWrite).giveRole.setStatus.complete)).works

theorem retireMember {gang n j : Nat} : (retireMember s gang n j).canonical := by
  unfold Machine.retireMember
  split
  · exact h
  · split
    · exact h
    · exact ite h.retireOne.onGang h

end Sys2Proof.Machine.State.canonical
end

section
/-! The canonical form of memories under turns, the events of homes, host queues, partitions and faults (R159, R180, R255, R430), by file of
the model: each keeps it. -/

namespace Sys2Proof.Machine.State.canonical
variable {s : State} (h : s.canonical)
include h

/-! ### Issue -/

theorem fetch : (fetch s).2.canonical := by
  unfold Machine.fetch
  dsimp only
  split
  · exact h
  · exact h.onMe

theorem entering {code : Nat} {tval ret : Word} : Pick.Canonical (entering s code tval ret) := by
  unfold Machine.entering
  split
  next heq => exact h.settleCause.of_eq_fst heq
  next heq => exact (h.settleCause.of_eq_fst heq).frame (by rfl)

theorem counted {settles : Bool} : (s.counted settles).canonical := h.onMe

theorem afterWaitge {i : Instr} : (afterWaitge s i).1.canonical := by
  unfold Machine.afterWaitge
  split
  · exact h.require
  · exact h

theorem issueDecoded {w : Word32} {i : Instr} : Pick.Canonical (issueDecoded s w i) := by
  unfold Machine.issueDecoded
  split
  · split
    next heq => exact h.settle.of_eq_fst heq
    next t heq =>
      have ht : t.canonical := h.settle.of_eq_fst heq
      split
      · exact ht.entering
      · exact ht.counted
  · split
    · exact h.entering
    · split
      next heq => exact h.afterWaitge.of_eq_fst heq
      next heq => exact (h.afterWaitge.of_eq_fst heq).counted

theorem issueFetch : Pick.Canonical (issueFetch s) := by
  unfold Machine.issueFetch
  split
  · exact h.entering
  · dsimp only
    split
    · exact h.fetch
    · exact h.fetch.issueDecoded

theorem issueAsync : Pick.Canonical (issueAsync s) := by
  unfold Machine.issueAsync
  split
  · exact h.issueFetch
  · split
    · exact h.hardAbort
    · exact h.entering

theorem pastTurn {k : Nat} : (s.pastTurn k).canonical := h.onCore

theorem pastIssue {k : Nat} : (s.pastIssue k).canonical := h.onCore

theorem replayTurn {t : Strip} : Pick.Canonical (replayTurn s t) := by
  unfold Machine.replayTurn
  dsimp only
  split
  · exact h.onMe.onMe
  · split
    · exact h.onMe.onMe
    · split
      · exact h.onMe.onMe.pastTurn
      · exact h.onMe.issueFetch

theorem resubDenied {r : Resub} {e : Denied} : (s.resubDenied r e).canonical := by
  unfold State.resubDenied
  split
  next heq => exact h.settle.of_eq_fst heq
  next heq => exact (h.settle.of_eq_fst heq).onMe.alone fun h => h.deny

theorem resubmit {r : Resub} : (s.resubmit r).canonical := by
  unfold State.resubmit
  dsimp only
  split
  next heq => exact (h.mmsCheck.of_eq_snd heq).resubDenied
  next t heq =>
    have ht : t.canonical := h.mmsCheck.of_eq_snd heq
    exact ite ht.resubDenied ht.onMe
  next t heq =>
    have ht : t.canonical := h.mmsCheck.of_eq_snd heq
    exact ite ht (ite ht.join.onMe ht.askRoom)

theorem turn : Pick.Canonical (turn s) := by
  unfold Machine.turn
  dsimp only
  split
  · exact h
  · split
    · exact h.replayTurn
    · exact h.entering
    · split
      · split
        · exact h.resubmit
        · exact h.issueAsync
      · exact h.issueAsync

/-! ### HomeEvents -/

theorem when_ {b : Bool} {f : State → State} (hf : ∀ {t : State}, t.canonical → (f t).canonical) :
    Result.Canonical (s.when_ b f) := ite (hf h) h

theorem takeAsync {code : Nat} {tval : Word} : (s.takeAsync code tval).canonical := by
  unfold State.takeAsync
  dsimp only
  split
  next heq => exact h.settle.of_eq_fst heq
  next t heq =>
    have ht : t.canonical := h.settle.of_eq_fst heq
    split
    next heq => exact ht.takePending _ heq
    · exact ht.onMe.noteOrder.enterTrap

theorem takeDeclined {reason : Nat} {va : Word} : (s.takeDeclined reason va).canonical := h.onMe.alone fun h => h.takeTrap

theorem takeWaiting : s.takeWaiting.canonical := by
  unfold State.takeWaiting
  dsimp only
  split
  · exact h
  · split
    · exact h
    · split
      next => exact h
      next heq => exact .getD (h.settle.of_eq_fst heq).takePending h

theorem execTrapEntry : Result.Canonical (execTrapEntry s) := by
  unfold Machine.execTrapEntry
  refine h.when_ fun h => ?_
  split
  · exact ite h.takeDeclined h
  · refine ite h.takeWaiting ?_
    split
    · exact ite h (ite h.hardAbort h.takeAsync)
    · split
      · exact ite (h.alone fun h => h.takeTrap) h
      · exact h

theorem execResultArrival : Result.Canonical (execResultArrival s) := by
  unfold Machine.execResultArrival
  dsimp only
  split
  · exact h
  · split
    · exact h
    · split
      · exact ite h h.onCtx.endIfDone
      · exact h.when_ fun h => ite h.perform.endIfDone h.bindPart

theorem homeStep {kind : OutOp → Bool} : Result.Canonical (homeStep kind s) := by
  unfold Machine.homeStep
  dsimp only
  split
  · exact h
  · exact h.when_ fun h => h.perform.endIfDone

theorem execHomeWrite : Result.Canonical (execHomeWrite s) := by
  unfold Machine.execHomeWrite
  dsimp only
  split
  · exact h.homeStep
  · split
    · exact h
    · exact h.when_ fun h => h.storePart

theorem execAmsendStatusReturn : Result.Canonical (execAmsendStatusReturn s) := by
  unfold Machine.execAmsendStatusReturn
  dsimp only
  split
  · exact h
  · split
    · exact h.when_ fun h => h.dropMsg
    · exact h.when_ fun h => h.perform.endIfDone

theorem execTokenGrant : Result.Canonical (execTokenGrant s) := by
  unfold Machine.execTokenGrant
  dsimp only
  split
  · exact h.onQuarter.onCtx
  · exact h

theorem writeStep {r : CtlReg} {v : Word} : Result.Canonical (writeStep r v s) := h.when_ fun h => h.alone fun h => h.ctlStore fun h => h

theorem execLoopRegisterWrite : Result.Canonical (execLoopRegisterWrite s) := by
  unfold Machine.execLoopRegisterWrite
  split
  · exact h.writeStep
  · exact h.writeStep
  · exact h.writeStep
  · exact h

theorem replyDecided {m : Msg} {w : Word} : (s.replyDecided m w).canonical :=
  ite (h.frame (by rfl)).countRefusal (h.frame (by rfl)).countRefusal.onCore.endIfDone

theorem execMessageArrival : Result.Canonical (execMessageArrival s) := by
  unfold Machine.execMessageArrival
  dsimp only
  split
  · exact h
  · refine h.when_ fun h => ?_
    split
    · exact h.decideMsg.replyDecided
    · split
      · exact ite (h.decideMsg.frame (by rfl)) h.decideMsg.dropMsg
      · exact h.decideMsg.frame (by rfl)

theorem execReplyResend : Result.Canonical (execReplyResend s) := by
  unfold Machine.execReplyResend
  split
  · exact h
  · exact h.when_ fun h => h.frame (by rfl)

theorem onFired {slice i : Nat} {f : Fired → Fired} : (s.onFired slice i f).canonical := h.onSlice

theorem execTriggerMessageSend : Result.Canonical (execTriggerMessageSend s) := by
  unfold Machine.execTriggerMessageSend
  dsimp only
  split
  · exact h
  · split <;> exact h.frame (by rfl)

theorem triggerAnswered {home i : Nat} {f : Fired} {w : Word} : (s.triggerAnswered home i f w).canonical := by
  unfold State.triggerAnswered
  split
  · exact h.onSlice
  · exact h.onFired
  · exact ite h.onSlice h.onSlice.report

theorem execTriggerMessageStatus : Result.Canonical (execTriggerMessageStatus s) := by
  unfold Machine.execTriggerMessageStatus
  dsimp only
  split
  · exact h
  · split
    · exact h
    · split
      · exact (h.frame (by rfl)).triggerAnswered
      · split
        · exact h
        · exact ((h.frame (by rfl)).frame (by rfl)).triggerAnswered

theorem execTriggerResend : Result.Canonical (execTriggerResend s) := by
  unfold Machine.execTriggerResend
  dsimp only
  split
  · exact h
  · exact h.when_ fun h => h.frame (by rfl)

theorem execHostSnoop : Result.Canonical (execHostSnoop s) := by
  unfold Machine.execHostSnoop
  refine h.when_ fun h => ?_
  dsimp only
  exact gwriteBytes (h.frame (by rfl))

/-! ### Transfer -/

theorem transfer {k : TransferKind} {w : Word32} {d a b : BitVec 5} : Result.Canonical (transfer k w d a b s) := by
  unfold Machine.transfer
  dsimp only
  split
  · exact h.illegal
  · exact h.unlessAttempt fun h => ite h.trap (ite h.trap (ite h.trap (ite h.onMe (h.onQuad (by rfl)).issueStart)))

theorem checkDwords {a : Word} {n : Nat} : (checkDwords s a n).2.canonical := by
  induction n generalizing s a with
  | zero => exact h
  | succ n ih =>
    unfold Machine.checkDwords
    split
    next heq => exact h.checkAccess.of_eq_snd heq
    next t heq =>
      have ht : t.canonical := h.checkAccess.of_eq_snd heq
      split
      next heq => exact (ih ht).of_eq_snd heq
      next heq => exact (ih ht).of_eq_snd heq

theorem execWset {sb : Bool} {a b : BitVec 5} : Result.Canonical (execWset sb a b s) := by
  unfold Machine.execWset
  refine h.unlessAttempt fun h => ?_
  split
  next heq => exact (h.checkDwords.of_eq_snd heq).deny
  next heq =>
    refine (h.checkDwords.of_eq_snd heq).afterOuts fun h => ?_
    split
    · exact h.trap
    · exact (h.onQuad (by rfl)).step1

theorem onTransfer {quad : Nat} {f : TransferOp → TransferOp} : (s.onTransfer quad f).canonical := h.onQuad (by rfl)

theorem powerFootprint {quad : Nat} {o : TransferOp} : (s.powerFootprint quad o).canonical := h.foldl fun h => h.powerUps

theorem transferRun {quad : Nat} {k : Nat} : (transferRun quad k s).canonical := by
  induction k generalizing s with
  | zero => exact h
  | succ k ih =>
    unfold Machine.transferRun
    split
    · exact h
    · split
      · exact h
      · split
        · exact ih (((ite h h.powerFootprint).foldl (fun h => h.powerUps)).works.onTransfer)
        · split
          · exact h.onTransfer
          · split
            next => exact h
            next heq => exact ih (h.engineWrite.of_eq_fst heq).works.onTransfer

theorem transferRetire {quad : Nat} : (transferRetire s quad).canonical := by
  unfold Machine.transferRetire
  split
  · exact h
  · split
    · exact h
    · split
      · exact h
      next heq => exact (h.timelineStore _ heq).onQuad (by rfl)

/-! ### HostQueues -/

theorem cpStore {q a v : Nat} : ∀ t ∈ cpStore s q a v, t.canonical := by
  unfold Machine.cpStore
  split
  · exact forall_mem_none
  · exact forall_mem_ite forall_mem_none (forall_mem_some h.gwriteBytes)

theorem onQueue {q : Nat} {f : HQueue → HQueue} : (s.onQueue q f).canonical := h.onCp

theorem storeFailed {q a reason : Nat} : (s.storeFailed q a reason).canonical := (ite h h.report).onQueue

theorem raiseValue {q : Nat} : (s.raiseValue q).canonical := by
  unfold State.raiseValue
  dsimp only
  split
  · exact h
  · split
    next heq => exact h.onQueue.cpStore _ heq
    · exact h.onQueue.storeFailed

theorem finishEntry {q n status : Nat} {noint : Bool} : (s.finishEntry q n status noint).canonical := h.onQueue.onCp

theorem settleStop {q : Nat} : (s.settleStop q).canonical := ite h.onQueue.onCp h

theorem markDead {q : Nat} : (s.markDead q).canonical := ite h (h.onQueue.foldl (fun h => h.finishEntry))

theorem storeItem {i : CpStore} : ∀ t ∈ s.storeItem i, t.canonical := by
  cases i with
  | status q n code =>
    refine forall_mem_ite forall_mem_none (forall_mem_some (onQueue ?_))
    split
    next heq => exact h.cpStore _ heq
    next => exact h.storeFailed
  | value q => exact forall_mem_ite forall_mem_none (forall_mem_some h.raiseValue)
  | zero q =>
    refine forall_mem_ite forall_mem_none (forall_mem_some ?_)
    split
    next heq => exact h.cpStore _ heq
    next => exact h.storeFailed
  | count n => exact h.countStore
  | signal v => exact forall_mem_some h.signal

theorem afterStore {i : CpStore} : (s.afterStore i).canonical := by
  unfold State.afterStore
  split
  · exact h
  · exact (ite h.markDead h).settleStop

theorem drainStores {n : Nat} : (s.drainStores n).canonical := by
  induction n generalizing s with
  | zero => exact h
  | succ n ih =>
    unfold State.drainStores
    split
    · exact h
    · split
      · exact h
      next heq => exact ih (h.onCp.storeItem _ heq).afterStore

theorem drainAll : s.drainAll.canonical := h.drainStores

theorem killQueue {q : Nat} : (s.killQueue q).canonical := h.markDead.settleStop.drainAll

theorem completeEntry {q n status : Nat} : (s.completeEntry q n status).canonical := by
  unfold State.completeEntry
  split
  · exact h
  · exact h.finishEntry.drainAll

theorem startEntry {q : Nat} : (s.startEntry q).canonical := h.onQueue

theorem raise {i : Instr} {args : List Nat} : (s.raise i args).canonical := h.onCp

theorem ring {q v : Nat} : (s.ring q v).canonical := ite h (ite h (ite h.killQueue h.onQueue.raise))

theorem fetchEntry {p : Prop} [Decidable p] {q n : Nat} :
    (if p then (s.onQueue q fun x => { x with fetched := n }).raise .entryFetch [q]
      else s.onQueue q fun x => { x with fetched := n }).canonical :=
  ite h.onQueue.raise h.onQueue

theorem execEntryFetch : Result.Canonical (execEntryFetch s) := by
  unfold Machine.execEntryFetch
  refine h.when_ fun h => ?_
  dsimp only
  split
  · exact h.fetchEntry.onQueue.completeEntry
  · exact ite h.fetchEntry.onQueue.completeEntry h.fetchEntry.onQueue.raise

theorem execCpEventDispatch : Result.Canonical (execCpEventDispatch s) := by
  unfold Machine.execCpEventDispatch
  refine h.when_ fun h => ?_
  split
  · exact h.drainAll
  · exact ite h.drainAll h.drainAll.onCp

theorem execMarker : Result.Canonical (execMarker s) := by
  unfold Machine.execMarker
  dsimp only
  split
  · exact h
  · exact h.when_ fun h => h.startEntry.completeEntry

theorem forgetEntries : s.forgetEntries.canonical := h.mapParts rfl rfl rfl

theorem enableAq {v : Word} : (s.enableAq v).canonical := h.forgetEntries.onQueue.onCp.drainAll

theorem writeAqctl {v : Word} : (s.writeAqctl v).canonical := ite (ite h h.onQueue.settleStop) (ite h.enableAq h.onCp)

theorem hostWrite {off : Nat} {v : Word} : (hostWrite s off v).canonical :=
  ite h.onCp (ite h.onCp (ite h.ring (ite h.onCp (ite h.onCp (ite (ite h.onCp h) (ite h.writeAqctl (ite (ite h.onCp h) (ite (ite h.onCp h) (ite
    h.onCp h)))))))))

theorem onVector {v : Nat} {f : Vect → Vect} : (s.onVector v f).canonical := h.onCp

theorem hostServes {pa : Nat} {serves : Bool} : (s.hostServes pa serves).canonical := ite (h.frame (by rfl)) h

theorem hostStore {pa : Nat} {bs : List Byte} : (s.hostStore pa bs).canonical := ite h (h.gwriteBytes.foldl (fun h => h.noteOrder))

theorem execHostMemoryAccess : Result.Canonical (execHostMemoryAccess s) := by
  unfold Machine.execHostMemoryAccess
  dsimp only
  split
  · exact h.hostServes
  · exact h.when_ fun h => ite h.hostStore h.onCp

/-! ### Preempt -/

theorem adminStep {op : Nat} {f : Nat → List Word → State → Cmd}
    (hf : ∀ {n : Nat} {a : List Word} {t : State}, t.canonical → (f n a t).Canonical) :
    Result.Canonical (adminStep op f s) := by
  unfold Machine.adminStep
  split
  · exact h
  next n a _ =>
    have hcmd := hf (n := n) (a := a) (h.startEntry (q := 0))
    split
    next heq => exact (heq ▸ hcmd : Cmd.Canonical (.done _ _)).completeEntry
    next heq => exact (heq ▸ hcmd : Cmd.Canonical (.later _))
    next heq => exact (heq ▸ hcmd : Cmd.Canonical (.held _)).onQueue

theorem onPartition {a : List Word} {f : Nat → Part → Cmd} (hf : ∀ {p : Nat} {x : Part}, QuadsWf x.image.quads → (f p x).Canonical) :
    (onPartition a s f).Canonical := by
  unfold Machine.onPartition
  dsimp only
  split
  · exact h
  · split
    · exact h
    next heq => exact hf (h.part?_wf heq)

theorem preemptAttempt {k : Nat} {a : Attempt} : (s.preemptAttempt k a).canonical := by
  unfold State.preemptAttempt
  split
  · exact h
  · exact h.endAttempt.onCtx

theorem withdrawForPreempt {k : Nat} : (s.withdrawForPreempt k).canonical := h.withdrawAll.onCtx

theorem bindForEffects {k : Nat} : (s.bindForEffects k).canonical := h.require.onCtx

theorem haltContext {k : Nat} : (s.haltContext k).canonical := by
  unfold State.haltContext
  extract_lets c s1 s2
  have hs1 : s1.canonical := by
    dsimp only [s1]
    split
    · exact h.preemptAttempt
    · exact h.bindForEffects
  exact ite h (ite hs1.withdrawForPreempt hs1).onCtx

theorem stopPart {p : Nat} {x : Part} : (s.stopPart p x).canonical := (h.onPart (by rfl)).foldl fun h => h.haltContext

theorem finishEffects {k : Nat} {stores : Bool} : (s.finishEffects k stores).1.canonical := h.require.endIfDone

theorem finishAll {ks : List Nat} {stores : Bool} : (s.finishAll ks stores).1.canonical := h.foldl_fst fun h => h.finishEffects

theorem execPartitionHalted : Result.Canonical (execPartitionHalted s) := by
  unfold Machine.execPartitionHalted
  dsimp only
  split
  · exact h
  · refine h.when_ fun h => ?_
    split
    next heq => exact h.finishAll.of_eq_fst heq
    next heq => exact (h.finishAll.of_eq_fst heq).onPart (by rfl)

theorem dropUnsent {k : Nat} : (s.dropUnsent k).canonical := h.foldl fun h => h.dropMsg

theorem resumeContext {k : Nat} : (s.resumeContext k).canonical := by
  unfold State.resumeContext
  refine onCtx (dropUnsent ?_)
  split
  · exact h.wakeUp
  · exact h

theorem resumePart {p : Nat} {x : Part} : (s.resumePart p x).canonical := (h.onPart (by rfl)).foldl fun h => h.resumeContext

theorem finishRuns {gang n : Nat} : (finishRuns gang n s).canonical := by
  induction n generalizing s with
  | zero => exact h
  | succ n ih =>
    unfold Machine.finishRuns
    split
    · exact ih h.retireMember
    · exact h

theorem finishArrays {quarters : Nat} : (s.finishArrays quarters).1.canonical := h.foldl fun h => h.finishRuns

theorem clearQuarters {quarters : Nat} : (s.clearQuarters quarters).canonical := by
  refine h.onQuads (Map.forall_map (P := fun q : Quad => q.mem.wf = true) h.quads_wf fun _ hq => ?_) rfl
  dsimp only
  split
  · rfl
  · exact hq

theorem dropKeeps {p : Nat} : (s.dropKeeps p).canonical := h.frame (by rfl)

theorem writeSaveAreas {x : Part} : (s.writeSaveAreas x).canonical := h.foldl fun h => h.writeArea

theorem switchOut {p : Nat} {x : Part} : (s.switchOut p x).1.canonical := by
  unfold State.switchOut
  split
  next heq => exact h.finishArrays.of_eq_fst heq
  next heq =>
    have ht := h.finishArrays.of_eq_fst heq
    split
    · exact ht
    · exact ht.writeSaveAreas.clearQuarters.dropKeeps.onPart_wf fun _ _ => ht.imageOf_wf

theorem switchIn {p : Nat} {x : Part} (hx : QuadsWf x.image.quads) : (s.switchIn p x).canonical := by
  refine resumePart (onPart_wf (h.onQuads ?_ (by rfl)) fun _ _ => quadsWf_nil)
  exact Map.forall_merge (P := fun q : Quad => q.mem.wf = true) h.quads_wf
    (Map.forall_map (P := fun q : Quad => q.mem.wf = true) hx fun _ hq => hq)

theorem killOut {p k : Nat} : (s.killOut p k).canonical := by
  unfold State.killOut
  split
  · exact h
  · exact ite h (h.onPart (by rfl)).launchTaskEnded

theorem onImageCtx {p k : Nat} {f : Ctx → Ctx} : (s.onImageCtx p k f).canonical := h.onPart (by rfl)

theorem execPreemptReport : Result.Canonical (execPreemptReport s) := by
  unfold Machine.execPreemptReport
  dsimp only
  split
  · exact h
  · split
    · exact h
    · refine h.when_ fun h => ?_
      split
      next heq => exact h.finishAll.of_eq_fst heq
      next t heq =>
        have ht : t.canonical := h.finishAll.of_eq_fst heq
        refine ite ht ?_
        split
        · exact ite (ht.switchOut.onPart (by rfl)).completeEntry ht.switchOut
        · exact ite (ht.onPart (by rfl)).completeEntry ht

theorem stopCmd {switching : Bool} {n : Nat} {a : List Word} : (stopCmd switching n a s).Canonical := by
  refine h.onPartition fun _ => ?_
  split
  · exact h
  · split
    · exact (h.onPart (by rfl)).stopPart
    · split
      · exact h.onPart (by rfl)
      · exact h
    · exact h

theorem execResume : Result.Canonical (execResume s) := by
  refine h.adminStep fun h => h.onPartition fun _ => ?_
  split
  · exact h
  · split
    · exact h.resumePart
    · exact h
    · exact h

theorem execSwitchIn : Result.Canonical (execSwitchIn s) := h.adminStep fun h => h.onPartition fun hx => cmd_ite h (cmd_ite (h.switchIn hx) h)

theorem execTimerExpiry : Result.Canonical (execTimerExpiry s) := by
  unfold Machine.execTimerExpiry
  split
  · exact h
  · exact h.when_ fun h => h.foldl fun h => ite h h.onCtx

/-! ### Launches -/

theorem writeImage {quad off : Nat} {bs : List Byte} : (s.writeImage quad off bs).canonical := ite h h.lwrite.noteOrder

theorem writeImages {r : LaunchRec} {quad : Nat} {code data : List Byte} : (s.writeImages r quad code data).canonical :=
  h.writeImage.writeImage.onQuad (by rfl)

theorem onLaunch {i : Nat} {f : Launch → Launch} : (s.onLaunch i f).canonical := h.onCp

theorem placeRound {r : LaunchRec} {l : Launch} {i placed : Nat} {cores : List Nat} : (placeRound r l i s placed cores).1.canonical := by
  induction cores generalizing s placed with
  | nil => exact h
  | cons core rest ih =>
    unfold Machine.placeRound
    split
    · exact ih h
    · exact ih h.enqueue.noteOrder

theorem placeRounds {r : LaunchRec} {l : Launch} {i n placed : Nat} : (placeRounds r l i n s placed).1.canonical := by
  induction n generalizing s placed with
  | zero => exact h
  | succ n ih =>
    unfold Machine.placeRounds
    dsimp only
    split
    · exact h.placeRound
    · exact ih h.placeRound

theorem placeRecords {i : Nat} {l : Launch} : (s.placeRecords i l).canonical := h.placeRounds.onLaunch

theorem seed {i : Nat} {l : Launch} : (s.seed i l).canonical := (h.foldl (fun h => (h.onQuad (by rfl)).noteOrder)).placeRecords

theorem placeImages {q : Nat} {r : LaunchRec} {left todo : List Nat} : (placeImages s q r left todo).Canonical := by
  induction todo generalizing s left with
  | nil => exact h
  | cons quad rest ih =>
    unfold Machine.placeImages
    dsimp only
    split
    · exact ih h
    · split
      · exact ih h
      · split
        · exact ih h.writeImages
        · exact h

theorem goOn {i : Nat} {l : Launch} : (s.goOn i l).canonical := by
  have hplaced := h.placeImages (q := l.queue) (r := LaunchRec.of l.record) (left := []) (todo := l.todo)
  unfold State.goOn
  split
  next heq => exact (heq ▸ hplaced : Images.Canonical (.fault _)).onLaunch.completeEntry
  next heq => exact (heq ▸ hplaced : Images.Canonical (.left _ _)).onLaunch.seed
  next heq => exact (heq ▸ hplaced : Images.Canonical (.left _ _)).onLaunch

theorem beginLaunch {q n : Nat} {part : Nat} {x : Part} {bs : List Byte} : (s.beginLaunch q n part x bs).canonical :=
  ite h.completeEntry (ite h.completeEntry h.onCp.goOn)

theorem execLaunch : Result.Canonical (execLaunch s) := by
  unfold Machine.execLaunch
  dsimp only
  split
  · exact h
  · split
    · exact h.when_ fun h => h.startEntry.completeEntry
    · refine h.when_ fun h => ite h.startEntry.completeEntry ?_
      split
      · exact h.startEntry.completeEntry
      · exact h.startEntry.beginLaunch

theorem execLaunchQuadFree : Result.Canonical (execLaunchQuadFree s) := by
  unfold Machine.execLaunchQuadFree
  dsimp only
  split
  · exact h
  · exact h.when_ fun h => h.goOn

theorem execLaunchPlacementResume : Result.Canonical (execLaunchPlacementResume s) := by
  unfold Machine.execLaunchPlacementResume
  dsimp only
  split
  · exact h
  · exact h.when_ fun h => h.placeRecords

theorem execLaunchComplete : Result.Canonical (execLaunchComplete s) := by
  unfold Machine.execLaunchComplete
  dsimp only
  split
  · exact h
  · exact h.when_ fun h => h.onLaunch.completeEntry

/-! ### Admin -/

theorem formPart {p mask : Nat} {save : List Word} : (s.formPart p mask save).canonical :=
  h.clearQuarters.onParts
    (Map.forall_put (P := fun x : Part => QuadsWf x.image.quads) (fun _ hp => h.clearQuarters.image_wf hp) p quadsWf_nil) rfl

theorem execForm : Result.Canonical (execForm s) := by
  unfold Machine.execForm
  refine h.adminStep fun h => ?_
  dsimp only
  split
  · exact h
  · split
    · exact h
    · exact h.formPart

theorem dropWork {quarters : Nat} : (s.dropWork quarters).canonical := h.foldl fun h => h.foldl fun h => h.launchTaskEnded

theorem uncover {x : Part} : (s.uncover x).canonical := h.onCp

theorem endLaunches {sel : Launch → Bool} : (s.endLaunches sel).canonical := h.onCp

theorem dissolveKills {x : Part} : (s.dissolveKills x).1.canonical := by
  unfold State.dissolveKills
  split
  · exact h
  · exact ((h.foldl (fun h => h.kill)).foldl (fun h => h.finishEffects)).foldl fun h => h.foldl fun h => h.retireEntry

theorem keepFalls {x : Part} : (s.keepFalls x).canonical := ite (h.frame (by rfl)) h

theorem clearWork {p : Prop} [Decidable p] {quarters : Nat} :
    (if p then s else (s.dropWork quarters).clearQuarters quarters).canonical := ite h h.dropWork.clearQuarters

theorem dissolve {p : Nat} {x : Part} : (s.dissolve p x).canonical := by
  have hleft : ((((if x.mode = .out then s else (s.dropWork x.quarters).clearQuarters x.quarters).keepFalls x).uncover x
      |>.endLaunches fun l => l.part == p).dropKeeps p).canonical := h.clearWork.keepFalls.uncover.endLaunches.dropKeeps
  exact hleft.onParts (Map.forall_filter (P := fun x : Part => QuadsWf x.image.quads) fun _ hp => hleft.image_wf hp) rfl

theorem dropRecordings {keep : Recording → Bool} : ({ s with recordings := s.recordings.filter keep } : State).canonical :=
  h.onRecordings (fun _ hr => h.start_wf (List.mem_of_mem_filter hr)) rfl

theorem execDissolve : Result.Canonical (execDissolve s) := by
  refine h.adminStep fun h => h.onPartition fun _ => ?_
  split
  · exact h
  · split
    next heq => exact (State.canonical.dissolveKills h.dropRecordings).of_eq_fst heq
    next heq => exact ((State.canonical.dissolveKills h.dropRecordings).of_eq_fst heq).dissolve

theorem execSetPasid : Result.Canonical (execSetPasid s) := by
  unfold Machine.execSetPasid
  refine h.adminStep fun h => ?_
  dsimp only
  split
  · exact h
  · refine h.onPartition fun _ => ?_
    split
    · exact h
    · split
      · exact h
      · exact h.onPart (by rfl)

theorem tearQueues {pasid entry : Nat} : (s.tearQueues pasid entry).canonical := foldl (h.mapParts rfl rfl rfl) fun h => h.killQueue

theorem tearContexts {pasid : Nat} : (s.tearContexts pasid).canonical :=
  mapParts (foldl (foldl (onCp (endLaunches (foldl (h.foldl fun h => h.kill) fun h => h.launchTaskEnded))) fun h => h.launchTaskEnded)
    fun h => h.killOut) rfl rfl rfl

theorem tearEngines {pasid : Nat} : (s.tearEngines pasid).canonical := by
  refine h.onBoth ?_ ?_ rfl
  · exact Map.forall_map (P := fun q : Quad => q.mem.wf = true) h.quads_wf fun _ hq => hq
  · refine Map.forall_map (P := fun x : Part => QuadsWf x.image.quads) (fun _ hp => h.image_wf hp) fun _ hx => ?_
    exact Map.forall_map (P := fun q : Quad => q.mem.wf = true) hx fun _ hq => hq

theorem tearGangs {pasid : Nat} : (s.tearGangs pasid).canonical := ((h.foldl (fun h => h.withdraw)).frame (by rfl))

theorem inImage {f : State → State} (hf : ∀ {t : State}, t.canonical → (f t).canonical) {p : Nat × Part} (hp : QuadsWf p.2.image.quads) :
    (s.inImage f p).canonical := h.onPart_wf fun _ _ => quads_wf (hf (h.onQuads hp rfl))

theorem tearPages {pasid : Nat} : (s.tearPages pasid).canonical := by
  have hdemoted : ((s.imagePages pasid).foldl (fun s t => s.demote t.pa (t.pa + 2 ^ t.bits)) s).canonical := h.foldl fun h => h.demote
  exact pagesDone (hdemoted.foldl_mem fun hp h =>
    h.inImage (fun h => h.tearGangs) (hdemoted.image_wf (List.mem_of_mem_filter hp)))

theorem endTeardown {pasid n : Nat} : (s.endTeardown pasid n).canonical := completeEntry (h.dropPages.mapParts (by rfl) (by rfl) (by rfl))

theorem execTeardown : Result.Canonical (execTeardown s) := by
  unfold Machine.execTeardown
  refine h.adminStep fun h => ?_
  dsimp only
  split
  · exact h
  · split
    · exact h
    · split
      · exact h
      · exact h.tearQueues.tearContexts.tearEngines.tearPages

theorem execTeardownComplete : Result.Canonical (execTeardownComplete s) := by
  unfold Machine.execTeardownComplete
  dsimp only
  split
  · exact h
  · split
    next heq => exact h.pagesDone.of_eq_fst heq
    next t heq =>
      have ht : t.canonical := h.pagesDone.of_eq_fst heq
      exact ite ht ht.endTeardown

theorem bindQueue {q pasid part : Nat} {a : List Word} : (s.bindQueue q pasid part a).canonical := h.onQueue.onCp.drainAll

theorem execBindQueue : Result.Canonical (execBindQueue s) := by
  unfold Machine.execBindQueue
  refine h.adminStep fun h => ?_
  dsimp only
  split
  · exact h
  · split
    · exact h
    · split
      · exact h
      · split
        · exact h
        · exact h.bindQueue

theorem execSetTimer : Result.Canonical (execSetTimer s) := by
  unfold Machine.execSetTimer
  refine h.adminStep fun h => ?_
  dsimp only
  split
  · exact h
  · exact h.onPartition fun _ => h.onPart (by rfl)

theorem setRelease {x : Part} {layer : Nat} {mask : Word} : (s.setRelease x layer mask).canonical := h.foldl fun h => h.onQuad (by rfl)

theorem execSetRelease : Result.Canonical (execSetRelease s) := by
  refine h.adminStep fun h => cmd_ite (x := .done _ _) h (h.onPartition fun _ => ?_)
  refine ite (onPart_wf (h.onPart (by rfl)) fun _ hx => ?_) (h.onPart (by rfl)).setRelease
  refine List.foldlRecOn _ _ hx fun m hm q _ => Map.forall_put (P := fun q : Quad => q.mem.wf = true) hm q ?_
  exact Map.get_of_forall (P := fun q : Quad => q.mem.wf = true) hm (by rfl) q

theorem execJoin : Result.Canonical (execJoin s) := by
  unfold Machine.execJoin
  refine h.adminStep fun h => ?_
  dsimp only
  split
  · exact h
  · exact h.onPartition fun _ => h.onPart (by rfl)

/-! ### Faults -/

theorem execFaultRecordPost : Result.Canonical (execFaultRecordPost s) := by
  unfold Machine.execFaultRecordPost
  split
  · exact h
  · exact h.when_ fun h => h.hostBytes.onCp.signal

theorem answerFault {live : State → Nat → State} {out : State → Nat → Nat → State}
    (hlive : ∀ {t : State} {j : Nat}, t.canonical → (live t j).canonical)
    (hout : ∀ {t : State} {p j : Nat}, t.canonical → (out t p j).canonical) :
    Result.Canonical (Machine.answer live out s) := by
  unfold Machine.answer
  dsimp only
  split
  · exact h
  · refine h.when_ fun h => ?_
    split
    · exact ite (h.onCp.foldl fun h => ite (hout h) h) (h.onCp.foldl fun h => ite (hlive h) h)
    · exact h.onCp

theorem execFqansResume : Result.Canonical (execFqansResume s) := h.answerFault (fun h => h.onCtx) fun h => h.onImageCtx

theorem execFqansDecline : Result.Canonical (execFqansDecline s) := h.answerFault (fun h => ite h.onCtx h.onCtx.takeTrap) fun h => h.onImageCtx

theorem execFqansKill : Result.Canonical (execFqansKill s) := h.answerFault (fun h => h.kill) fun h => h.killOut

end Sys2Proof.Machine.State.canonical
end

section
/-! The canonical form of memories under arithmetic, power, scheduling and waiting (R159, R180, R255, R430), by file of the model: each keeps
it. -/

namespace Sys2Proof.Machine.State.canonical
variable {s : State} (h : s.canonical)
include h

/-! ### Integer -/

theorem intRR {f : Word → Word → Word} {d a b : BitVec 5} : Result.Canonical (intRR f d a b s) := h.writesX

theorem intR {f : Word → Word} {d a : BitVec 5} : Result.Canonical (intR f d a s) := h.writesX

theorem issueValue {dsts : List Dst} {ans : Ans} : (s.issueValue dsts ans).canonical := h.step1

theorem divide {f : Word → Word → Word} {w : Word32} {d a b : BitVec 5} : Result.Canonical (divide f w d a b s) := by
  unfold Machine.divide
  dsimp only
  split
  · exact h.trap
  · exact h.issueValue

theorem execIns {d a : BitVec 5} {l p : BitVec 6} : Result.Canonical (execIns d a l p s) := by
  unfold Machine.execIns
  exact h.intR

/-! ### Power -/

theorem onJid {f : Jid → Jid} : (s.onJid f).canonical := h.frame (by rfl)

theorem jidWhen {c : Bool} {f : State → State} (hf : ∀ {t : State}, t.canonical → (f t).canonical) : Result.Canonical (s.jidWhen c f) :=
  h.when_ fun h => hf h

theorem capEvent {m : CapPayload} : (s.capEvent m).canonical := ite h.onJid h.onJid.raise

theorem holdRails {v : List Nat} : (s.holdRails v).canonical := (h.foldl (fun h => ite h.onQuarter h)).foldl fun h => h.onDie

theorem raisePower {quad : Nat} : (s.raisePower quad).canonical := h.foldl fun h => h.onCtx

theorem emergency {quads : List Nat} : (s.emergency quads).canonical := by
  unfold State.emergency
  extract_lets s1 hit s2
  have hs1 : s1.canonical := h.foldl fun h => (h.foldl fun h => h.onCore).onQuad (by rfl)
  have hs2 : s2.canonical := by
    refine hs1.mapParts rfl (funext fun _ => ?_) rfl
    dsimp only
    split <;> rfl
  exact hs2.onJid.foldl fun h => h.raisePower

theorem execRailSample : Result.Canonical (execRailSample s) := by
  unfold Machine.execRailSample
  dsimp only
  refine ite (mapParts ?_ rfl rfl rfl) (emergency (onJid (mapParts ?_ (by rfl) (by rfl) (by rfl))))
  all_goals exact foldl h.holdRails fun h => ite (h.onQuad (by rfl)) h

theorem share {core share demand : Nat} {late : Bool} : (s.share core share demand late).canonical := ite h h.onCore

theorem aim {quad : Nat} : (s.aim quad).canonical := ite h (h.onQuad (by rfl))

theorem divideQuad {late : Bool} {quad budget : Nat} : (s.divideQuad late quad budget).canonical := (h.foldl (fun h => h.share)).aim

theorem dividePart {x : Part} {budget : Nat} {late : Bool} : (s.dividePart x budget late).canonical :=
  h.foldl fun h => h.foldl fun h => h.foldl fun h => h.divideQuad

theorem redivide {p : Nat} {x : Part} : (s.redivide p x).canonical := by
  refine onPart (ite h h.dividePart) (funext fun x => ?_)
  unfold Part.held
  split <;> rfl

theorem newInterval : s.newInterval.canonical := h.mapQuads rfl rfl rfl

theorem endEmergency : s.endEmergency.canonical :=
  h.onBoth (Map.forall_map (P := fun q : Quad => q.mem.wf = true) h.quads_wf fun _ hq => hq)
    (Map.forall_map (P := fun x : Part => QuadsWf x.image.quads) (fun _ hp => h.image_wf hp) fun _ hx => hx) rfl

theorem execBudgetRedivision : Result.Canonical (execBudgetRedivision s) :=
  ((ite h h.endEmergency).onJid.foldl (fun h => h.redivide)).newInterval

theorem poisonWords {l : List Nat} : (s.poisonWords l).canonical := by
  fun_induction State.poisonWords s l with
  | case1 s w t ih => exact ih (h.frame (by rfl))
  | case2 s q w t ih => exact ih (h.onQuad (by rfl))
  | case3 s l _ _ => exact h

theorem findError {kind die n at_ w : Nat} : (s.findError kind die n at_ w).canonical := by
  unfold State.findError
  dsimp only
  split
  · exact h.onJid
  · exact h.onJid.poisonWords
  · exact ite h.onJid.poisonWords h.onJid
  · exact h.onJid

theorem findErrors {l : List Nat} : (s.findErrors l).canonical := by
  fun_induction State.findErrors s l with
  | case1 s k die n at_ w t ih => exact ih h.findError
  | case2 s l _ => exact h

theorem execRecordModeEnable : Result.Canonical (execRecordModeEnable s) := by
  unfold Machine.execRecordModeEnable
  dsimp only
  split
  · exact h
  · refine h.jidWhen fun h => resumePart (h.writeArea.onRecordings ?_ (by rfl))
    exact List.forall_mem_cons.2 ⟨h.imageOf_wf, fun r hr => h.writeArea.start_wf (List.mem_of_mem_filter hr)⟩

theorem injectLaunch {e : LogEntry} : ∀ t ∈ s.injectLaunch e, t.canonical := by
  unfold State.injectLaunch
  split
  · exact forall_mem_ite (forall_mem_some h.enqueue) forall_mem_none
  · refine forall_mem_ite (forall_mem_some (h.onQuad (by rfl))) ?_
    exact forall_mem_ite (forall_mem_some h.lwrite) forall_mem_none

theorem inject {part : Nat × Part} {r : Recording} : (s.inject part r).canonical := by
  unfold State.inject
  split
  · exact h
  next e _ =>
    have hinjected := forall_mem_ite (p := e.kind = .launch) (h.injectLaunch (e := e)) (forall_mem_ite
      (p := s.mayWrite none (imageCells e.what e.bytes)) (forall_mem_some (h.gwriteBytes (by_ := none) (die := e.what / 2 ^ 37 % 4)
        (home := none) (pa := e.what) (bs := e.bytes))) forall_mem_none)
    dsimp only
    split
    next heq => exact (hinjected _ heq).noteOrder
    · exact h

theorem execReplay : Result.Canonical (execReplay s) := by
  unfold Machine.execReplay
  dsimp only
  split
  next hr =>
    have hstart := h.start_wf (List.mem_of_find?_eq_some hr)
    refine result_ite h.inject (h.when_ fun h => switchIn (h.clearQuarters.onRecordings ?_ (by rfl)) hstart)
    refine List.forall_mem_map.2 fun r hr => ?_
    split
    · exact h.start_wf (r := r) hr
    · exact h.start_wf hr
  · exact h

theorem execSpdmRequest : Result.Canonical (execSpdmRequest s) := by
  unfold Machine.execSpdmRequest
  refine h.when_ fun h => ?_
  split
  · exact h.onCp
  · exact ite h.onCp h
  · exact ite h.onCp h

/-! ### Vector -/

theorem vectorOp {v : BitVec 5} {k : BitVec 3} {t : Nat} {f : Nat → Nat × Nat} : Result.Canonical (vectorOp v k t f s) := h.floatOp

theorem vectorBin {op : Nat → Nat → Nat × Nat} {v a b : BitVec 5} {k : BitVec 3} {t : Nat} : Result.Canonical (vectorBin op v a b k t s) :=
  h.vectorOp

theorem vectorUn {op : Nat → Nat × Nat} {v a : BitVec 5} {k : BitVec 3} {t : Nat} : Result.Canonical (vectorUn op v a k t s) := h.vectorOp

theorem execVexp2 {v a : BitVec 5} {k : BitVec 3} {t : BitVec 2} : Result.Canonical (execVexp2 v a k t s) := by
  unfold Machine.execVexp2
  exact h.vectorUn

theorem vectorLong {v : BitVec 5} {k : BitVec 3} {t : Nat} {f : Nat → Long} : Result.Canonical (vectorLong v k t f s) := h.floatLong

theorem vectorBits {op : Nat → Nat → Nat → Nat} {v a b : BitVec 5} {k : BitVec 3} {t : BitVec 2} :
    Result.Canonical (vectorBits op v a b k t s) := by
  unfold Machine.vectorBits
  exact h.vectorBin

theorem reduce {v : BitVec 5} {k : BitVec 3} {t : Nat} {leaf : Nat → Nat × Nat} {op : Nat → Nat → Nat × Nat} {empty : Nat} :
    Result.Canonical (reduce v k t leaf op empty s) := h.floatOp

theorem compare {c : Cmp} {d : BitVec 3} {a b : BitVec 5} {k t : BitVec 3} : Result.Canonical (compare c d a b k t s) := h.floatOp

theorem convertLanes {v : BitVec 5} {k : BitVec 3} {mt w n : Nat} {f : Nat → Nat × Nat} : Result.Canonical (convertLanes v k mt w n f s) :=
  h.floatOp

theorem vectorLoad {v : BitVec 5} {k : BitVec 3} {t : Nat} {addr : Nat → Word} : Result.Canonical (vectorLoad v k t addr s) := by
  unfold Machine.vectorLoad
  dsimp only
  split
  · exact h.deny
  · exact h.issueLoad

theorem vectorStore {v : BitVec 5} {k : BitVec 3} {t : Nat} {addr : Nat → Word} : Result.Canonical (vectorStore v k t addr s) := by
  unfold Machine.vectorStore
  dsimp only
  split
  · exact h.deny
  · exact h.issueStore

/-! ### ScalarFp -/

theorem scalarOp {d : BitVec 5} {r : Nat × Nat} : Result.Canonical (scalarOp d r s) := h.floatOp

theorem scalarBin {op : Fmt → Nat → Nat → Nat × Nat} {d a b : BitVec 5} {f : BitVec 2} :
    Result.Canonical (scalarBin op d a b f s) := h.scalarOp

theorem scalarLong {d : BitVec 5} {r : Long} : Result.Canonical (scalarLong d r s) := h.floatLong

theorem scalarCmp {c : Cmp} {d a b : BitVec 5} {f : BitVec 2} : Result.Canonical (scalarCmp c d a b f s) := h.scalarBin

/-! ### Sched -/

theorem endRetentions {quad : Nat} {entry : Word} : (s.endRetentions quad entry).canonical := h.foldl fun h => h.onCore

theorem startTask {core : Nat} {r : Record} : (s.startTask core r).canonical := by
  unfold State.startTask
  split
  · exact h
  · exact h.endRetentions.onCore.onCtx

theorem noteDrain {core : Nat} : (s.noteDrain core).canonical := h.onCp

theorem execTaskStart : Result.Canonical (execTaskStart s) := by
  unfold Machine.execTaskStart
  dsimp only
  split
  · exact h
  · exact h.when_ fun h => h.pastGates fun h => h.onCore.noteDrain.startTask

theorem execHandlerStart : Result.Canonical (execHandlerStart s) := by
  unfold Machine.execHandlerStart
  dsimp only
  split
  · exact h
  · exact h.when_ fun h => ite h.onCore.onCtx h.onCore.onCtx.takeTrap

theorem execRecordPromotion : Result.Canonical (execRecordPromotion s) := by
  unfold Machine.execRecordPromotion
  dsimp only
  split
  · exact h
  · exact h.when_ fun h => h.onCore

theorem takeRecord {core : Nat} {ok : Record → Bool} : ∀ x ∈ s.takeRecord core ok, x.2.canonical := by
  unfold State.takeRecord
  intro x hx
  obtain ⟨r, -, hr⟩ := Option.bind_eq_some_iff.1 hx
  split at hr
  next heq =>
    cases hr
    exact (h.openGate.of_eq_fst heq).onCore.noteDrain
  next => cases hr

theorem giveStolen {core : Nat} {r : Record} : (s.giveStolen core r).canonical := ite h.startTask h.enqueue

theorem execStealProbeQuad : Result.Canonical (execStealProbeQuad s) := by
  unfold Machine.execStealProbeQuad
  refine h.when_ fun h => ?_
  split
  · exact h
  · split
    · exact h
    next heq => exact (h.takeRecord _ heq).giveStolen

theorem execStealProbeReply : Result.Canonical (execStealProbeReply s) := by
  unfold Machine.execStealProbeReply
  dsimp only
  split
  · exact h
  · exact h.when_ fun h => h.onCore.giveStolen
  · split
    · exact h.onCore
    next heq => exact onCore (forall_mem_ite h.takeRecord forall_mem_none _ heq)

/-! ### Waiting -/

theorem openAttempt {d : BitVec 5} {irrevocable : Bool} : (s.openAttempt d irrevocable).canonical := h.freeJacks.step1

theorem openLevel {d : BitVec 5} : (s.openLevel d).canonical := h.step1

theorem takeToken {w : Word32} {d : BitVec 5} : (s.takeToken w d).canonical :=
  ite h.openAttempt (ite h.onQuarter.openAttempt (ite h.illegal h.onQuarter.onMe))

theorem preemptedBegin {d : BitVec 5} {st : Word} : (s.preemptedBegin d st).canonical := by
  unfold State.preemptedBegin
  dsimp only
  split
  · exact h.onMe.onMe
  · exact h.onMe.killScan

theorem execTbegin {sb : Bool} {d : BitVec 5} : Result.Canonical (execTbegin sb d s) := by
  unfold Machine.execTbegin
  split
  · split
    · exact h.abortOrTrap
    · exact h.openLevel
  · split
    · exact h.preemptedBegin
    · split
      next heq => exact (h.performAll.of_eq_fst heq).onMe
      next t heq =>
        have ht : t.canonical := h.performAll.of_eq_fst heq
        split
        · split
          · exact ht.takeToken
          · exact ht.openAttempt
        · split
          · exact ht.takeToken
          · exact ht.openAttempt

theorem commit {a : Attempt} : (s.commit a).canonical := by
  unfold State.commit
  dsimp only
  split
  · exact h.onMe
  · split
    · split
      next heq => exact (h.performAll.of_eq_fst heq).onMe
      next heq => exact ((h.performAll.of_eq_fst heq).foldl (fun h => h.noteOrder)).endAttempt.step1
    · refine ite (h.foldl fun h => h.noteOrder).endAttempt.step1 (ite h.onMe ?_)
      exact (h.writeCells.keepPoison.foldl fun h => h.noteOrder).endAttempt.step1

theorem execTend {sb : Bool} : Result.Canonical (execTend sb s) := by
  unfold Machine.execTend
  split
  · exact h.illegal
  · split
    · exact h.step1
    · exact h.commit

theorem execOtherwise {sb : Bool} : Result.Canonical (execOtherwise sb s) := by
  unfold Machine.execOtherwise
  split
  · exact h.illegal
  · split
    · exact h.jump
    · exact h.abortOrTrap

theorem execRetry {sb : Bool} : Result.Canonical (execRetry sb s) := by
  unfold Machine.execRetry
  split
  · exact h.illegal
  · exact h.retryOrTrap

theorem execTabort {sb : Bool} {c : BitVec 8} : Result.Canonical (execTabort sb c s) := by
  unfold Machine.execTabort
  split
  · exact h.illegal
  · exact h.abortOrTrap

theorem afterSame {r : Ref} {effect : State → State} (heffect : ∀ {t : State}, t.canonical → (effect t).canonical) :
    (s.afterSame r effect).canonical := h.afterOuts fun h => heffect h

theorem execWaitge {sb : Bool} {d a b : BitVec 5} : Result.Canonical (execWaitge sb d a b s) := by
  unfold Machine.execWaitge
  dsimp only
  split
  next heq => exact (h.checkAtomic.of_eq_snd heq).deny
  next t heq =>
    have ht : t.canonical := h.checkAtomic.of_eq_snd heq
    split
    · split
      next heq => exact ht.track.of_eq_fst heq
      next heq => exact (ht.track.of_eq_fst heq).afterSame fun h => ite h.issueXValue h.retryOrTrap
    · split
      · exact ht.afterSame fun h => ite h.issueXValue h.illegal
      · exact ht.issueX

theorem execBarr {sb : Bool} {d a : BitVec 5} : Result.Canonical (execBarr sb d a s) := by
  unfold Machine.execBarr
  refine h.unlessAttempt fun h => ?_
  split
  next heq => exact (h.checkAtomic.of_eq_snd heq).deny
  next t heq =>
    have ht : t.canonical := h.checkAtomic.of_eq_snd heq
    exact ite ht.trap ht.issueAtomic.onMe

theorem execBwait {sb : Bool} {a b : BitVec 5} : Result.Canonical (execBwait sb a b s) := by
  unfold Machine.execBwait
  dsimp only
  split
  next heq => exact (h.checkAtomic.of_eq_snd heq).deny
  next t heq =>
    have ht : t.canonical := h.checkAtomic.of_eq_snd heq
    split
    · split
      next heq => exact ht.track.of_eq_fst heq
      next heq => exact (ht.track.of_eq_fst heq).afterSame fun h => ite h.step1 h.retryOrTrap
    · exact ht.afterSame fun h => ite h.step1 (ite h.illegal h.freeJacks.makeJack.sleepOn)

end Sys2Proof.Machine.State.canonical
end

section
/-! The canonical form of memories under every meaning, under what the scheduler picks and under a step (R159, R180, R255, R430). -/

namespace Sys2Proof.Machine.State.canonical

/-- What holds of whatever either choice picks. -/
theorem forall_mem_or {α : Type} {P : α → Prop} {x y : Option α} (hx : ∀ t ∈ x, P t) (hy : ∀ t ∈ y, P t) : ∀ t ∈ x.or y, P t := by
  cases x with
  | none => exact hy
  | some _ => exact hx

/-- What holds of whatever a unit picks holds of what one of several picks. -/
theorem forall_mem_rotate {P : Pick → Prop} {n : Nat} {l : List (State → Option Pick)} {s : State} (hl : ∀ f ∈ l, ∀ p ∈ f s, P p) :
    ∀ p ∈ rotate n l s, P p := by
  intro p hp
  obtain ⟨f, hf, hfp⟩ := List.exists_of_findSome?_eq_some hp
  refine hl f ?_ p hfp
  rcases List.mem_append.1 hf with hd | ht
  · exact List.mem_of_mem_drop hd
  · exact List.mem_of_mem_take ht

variable {s : State} (h : s.canonical)
include h

/-- Every meaning keeps the memories in their canonical form. -/
theorem exec (i : Instr) : Result.Canonical (Machine.exec i s) := by
  unfold Machine.exec
  cases i with
  | add | sub | and | or | xor | andn | orn | sll | srl | sra | rotl | rotr | slt | sltz | min | max | minz | maxz | mul | mulh
      | mulhz | adds | sel => exact h.intRR
  | clz | ctz | popc | addi | andi | ori | xori | slti | slli | srli | srai | ext => exact h.intR
  | div | divz | rem | remz => exact h.divide
  | lui | addpc | ident | tstatX | taskid | kpop | fclass | fsgnj | fmvx => exact h.writesX
  | ins => exact h.execIns
  | bEq | bNe | bLt | bGe | bLtz | bGez => exact h.branch
  | j => exact h.jump
  | jal | loop => exact h.onMe
  | jalr => exact h.execJalr
  | nop | lbreak | vcompress | vsel | kand | kor | knot | fmvf => exact h.step1
  | ld | ldAcq | ldnc | ldz | ldzAcq | ldncZ => exact h.loadOne
  | ldp | ldpAcq => exact h.loadPair
  | st | stRel => exact h.storeOne
  | stp | stpRel => exact h.storePair
  | fenceQuad | fenceQuarter | fenceDie | fenceModule | fenceSystem => exact h.fence
  | pref | prefW => exact h.prefetch
  | cln => exact h.lineOp fun h => h
  | inv => exact h.lineOp fun h => h.onDie
  | nhint => exact h.execNhint
  | tacq => exact h.tileChange fun h => h.tacq.writesX
  | trdy | tdrain | tfree => exact h.tileMove
  | tstat => exact h.execTstat
  | rset => exact h.tileChange fun h => h.rset
  | rpush => exact h.execRpush
  | rpop => exact h.execRpop
  | rstat => exact h.execRstat
  | amoAdd | amoAnd | amoOr | amoXor | amoMin | amoMax | amoMinz | amoMaxz | amoSwap | amoFadd => exact h.amo
  | amoCas | cadd | caddRel | grab => exact h.atomic
  | disarm => exact h.execDisarm
  | arm => exact h.execArm
  | tbegin => exact h.execTbegin
  | tend => exact h.execTend
  | otherwise => exact h.execOtherwise
  | retry => exact h.execRetry
  | tabort => exact h.execTabort
  | waitge => exact h.execWaitge
  | barr => exact h.execBarr
  | bwait => exact h.execBwait
  | amsend => exact h.execAmsend
  | amreply => exact h.execAmreply
  | spawn => exact h.execSpawn
  | enq | hostpost => exact h.post
  | deq => exact h.execDeq
  | yield => exact h.onCore.step1
  | halt => exact h.unlessAttempt fun h => h.halt fun h => h
  | haltK => exact h.execHaltK
  | tail => exact h.unlessAttempt fun h => .ite h.illegal h.tail
  | ctlrd => exact h.execCtlrd
  | ctlwr => exact h.execCtlwr
  | ctlset => exact h.execCtlset
  | ctlclr => exact h.execCtlclr
  | cpgoRead => exact h.execCpgoRead
  | eret => exact h.execEret
  | ifence => exact h.unlessAttempt fun h => h.afterOuts fun h => h.step1
  | tlbinv => exact h.execTlbinv
  | tlbinvAs => exact h.execTlbinvAs
  | perfrd => exact (h.frame (by rfl)).writesX
  | brk => exact h.trap
  | trap => exact h.cause
  | cprec => exact h.execCprec
  | rcfence | cpabort => exact h.unlessAttempt fun h => (h.onQuad (by rfl)).step1
  | gather | scatter => exact h.gatherOp
  | tlrd => exact h.execTlrd
  | mldb => exact h.execMldb
  | mgang => exact h.execMgang
  | mflush => exact h.execMflush
  | mdrain => exact h.matrixOp fun h => .ite h.makeDue.onMe h.makeDue.step1
  | mstat => exact h.matrixOp fun h => h.writesX
  | mkey => exact h.execMkey
  | mms => exact h.execMms
  | wset => exact h.execWset
  | rstr | rstrF | prlg | prlgF => exact h.transfer
  | xstat => exact h.unlessAttempt fun h => h.writesX
  | vadd | vsub | vmul | vmin | vmax => exact h.vectorBin
  | vdiv | vsqrt => exact h.vectorLong
  | vabs | vneg => exact h.vectorUn
  | vexp2 => exact h.execVexp2
  | vfma | vperm | vbcast | vslide | vexpand => exact h.vectorOp
  | vredsum | vredmax | vredmin | vdot => exact h.reduce
  | vand | vor | vxor | vshl | vshr => exact h.vectorBits
  | vcmpEq | vcmpNe | vcmpLt | vcmpGe | vcmpLe | vcmpGt => exact h.compare
  | vcvt | vcvtFp8 | vqunpack => exact h.convertLanes
  | vqpack => exact h.floatOp
  | vld | vlds | vldx => exact h.vectorLoad
  | vst | vsts | vstx => exact h.vectorStore
  | fadd | fsub | fmul | fmin | fmax => exact h.scalarBin
  | fdiv | fsqrt => exact h.scalarLong
  | fcmpEq | fcmpLt | fcmpLe => exact h.scalarCmp
  | fcvt | fcvtInt | fma => exact h.scalarOp
  | illegalInstruction => exact h.when_ (fun h1 => h.fetch.alone (fun h => h.illegal))
  | homeAtomicApply | homeArmApply | homeDisarmApply | homeWaitgeEval | homeQueueApply => exact h.homeStep
  | homeWrite => exact h.execHomeWrite
  | triggerMessageSend => exact h.execTriggerMessageSend
  | triggerMessageStatus => exact h.execTriggerMessageStatus
  | triggerResend => exact h.execTriggerResend
  | conflictBackoffExpiry => exact h.when_ fun h => h.onCtx
  | tokenGrant => exact h.execTokenGrant
  | messageArrival => exact h.execMessageArrival
  | amsendStatusReturn => exact h.execAmsendStatusReturn
  | replyResend => exact h.execReplyResend
  | retirementEntryFree => exact h.retireEntry
  | xboundWrite | tlbaseWrite | dispthWrite | mbdepthWrite | tpcWrite => exact h.writeStep
  | loopRegisterWrite => exact h.execLoopRegisterWrite
  | trapEntry => exact h.execTrapEntry
  | copyOperationStart => exact h.pastGates fun h => h.copyRun
  | gatherSublistService => exact h.when_ fun h => h.pastGates fun h => h.copyRun
  | copyRetire => exact h.copyRetire
  | bufferGLoad => exact h.loadBuffer
  | holdExpiry => exact h.holdExpires
  | arraySelect => exact h.selectArray
  | stationaryImageRead => exact h.prereadImage
  | memberRetire => exact h.retireMember
  | transferOperationStart => exact h.pastGates fun h => h.transferRun
  | transferRetire => exact h.transferRetire
  | resultArrival => exact h.execResultArrival
  | contextWake => exact h.when_ fun h => h.onCtx.wakeUp
  | taskStart => exact h.execTaskStart
  | handlerStart => exact h.execHandlerStart
  | recordPromotion => exact h.execRecordPromotion
  | stealProbeQuad => exact h.execStealProbeQuad
  | stealProbeLayer => exact h.when_ fun h => h.onCore
  | stealProbeReply => exact h.execStealProbeReply
  | pageWalk => exact h.when_ fun h => h.translate
  | blockPromotion | blockEviction => exact h.when_ fun h => h.onDie
  | bankPowerUp => exact h.when_ fun h => h.powerUp
  | timerExpiry => exact h.execTimerExpiry
  | partitionHalted => exact h.execPartitionHalted
  | preemptReport => exact h.execPreemptReport
  | hostMemoryAccess => exact h.execHostMemoryAccess
  | hostSnoop => exact h.execHostSnoop
  | modidWrite | fqctlWrite => exact h.onCp
  | doorbell => exact h.when_ fun h => h.ring
  | fqansResume => exact h.execFqansResume
  | fqansDecline => exact h.execFqansDecline
  | fqansKill => exact h.execFqansKill
  | aqctlEnable | aqctlDisable => exact h.when_ fun h => h.writeAqctl
  | hostRegisterWrite => exact h.when_ fun h => h.hostWrite
  | vectorUnmask | coalesceTimerExpiry => exact h.when_ fun h => h.onVector
  | cpEventDispatch => exact h.execCpEventDispatch
  | entryFetch => exact h.execEntryFetch
  | launch => exact h.execLaunch
  | launchPlacementResume => exact h.execLaunchPlacementResume
  | launchQuadFree => exact h.execLaunchQuadFree
  | launchComplete => exact h.execLaunchComplete
  | marker => exact h.execMarker
  | form => exact h.execForm
  | dissolve => exact h.execDissolve
  | preempt | switchOut => exact h.adminStep fun h => h.stopCmd
  | resume => exact h.execResume
  | switchIn => exact h.execSwitchIn
  | setPasid => exact h.execSetPasid
  | teardown => exact h.execTeardown
  | teardownComplete => exact h.execTeardownComplete
  | bindQueue => exact h.execBindQueue
  | setTimer => exact h.execSetTimer
  | setRelease => exact h.execSetRelease
  | join => exact h.execJoin
  | faultRecordPost => exact h.execFaultRecordPost
  | railSample => exact h.execRailSample
  | budgetRedivision => exact h.execBudgetRedivision
  | operatingPointStep => exact h.when_ fun h => h.onQuad (by rfl)
  | capMessage => exact h.jidWhen fun h => h.capEvent
  | capLeaseExpiry | setModuleCap | setSafeCap => exact h.jidWhen fun h => h.onJid
  | setPartitionCap | setPartitionRank => exact h.jidWhen fun h => h.onPart (by rfl)
  | patrolScrub => exact h.findErrors
  | quarterFailure => exact h.jidWhen fun h => h.onQuarter.onJid.report
  | recordModeEnable => exact h.execRecordModeEnable
  | replay => exact h.execReplay
  | reset => exact State.reset_canonical.frame (by rfl)
  | firmwareUpdate => exact h.when_ fun h => h.onCp
  | spdmRequest => exact h.execSpdmRequest
  | cacheLineEviction => exact h.onDie

theorem after {pre : State} {i : Instr} : (State.after pre i s).canonical := ite h.onMe.onCore (ite h.onMe h)

theorem tick {n : Nat} : ({ s with now := n } : State).canonical := h.frame (by rfl)

/-! ### Which step comes next -/

theorem nextReady {core : Nat} : ∀ p ∈ Machine.nextReady s core, Pick.Canonical p := by
  unfold Machine.nextReady
  generalize hl : (roundRobin s core).filterMap _ = l
  have hl : ∀ p ∈ l, Pick.Canonical p := by
    intro p hp
    rw [← hl] at hp
    obtain ⟨k, -, hk⟩ := List.mem_filterMap.1 hp
    have hturn : Pick.Canonical (Machine.turn { s with cur := k }) := turn (h.frame (by rfl))
    split at hk
    · cases hk
    · split at hk
      · cases hk
      · exact Option.some.inj hk ▸ hturn
  exact forall_mem_or (fun p hp => hl p (List.mem_of_find?_eq_some hp)) fun p hp => hl p (List.mem_of_head? hp)

theorem coreTurn {core : Nat} : ∀ p ∈ Machine.coreTurn s core, Pick.Canonical p :=
  forall_mem_ite (forall_mem_some (P := Pick.Canonical) (h.frame (by rfl)))
    (forall_mem_ite (forall_mem_some (P := Pick.Canonical) (h.frame (by rfl))) h.nextReady)

theorem firmwareStep : ∀ p ∈ Machine.firmwareStep s, Pick.Canonical p :=
  forall_mem_ite forall_mem_none (Option.forall_mem_map.2 fun _ _ => h.frame (by rfl))

theorem newEvent : ∀ p ∈ Machine.newEvent s, Pick.Canonical p := Option.forall_mem_map.2 fun _ _ => h.raise

theorem ownEvent : ∀ p ∈ Machine.ownEvent s, Pick.Canonical p := by
  refine forall_mem_rotate fun f hf => ?_
  rcases List.mem_append.1 hf with hfirst | hevent
  · rcases List.mem_pair.1 hfirst with rfl | rfl
    · exact h.firmwareStep
    · exact h.newEvent
  · obtain ⟨g, -, rfl⟩ := List.mem_map.1 hevent
    exact Option.forall_mem_map.2 fun _ _ => h.frame (by rfl)

theorem mineFirst : ∀ p ∈ Machine.mineFirst s, Pick.Canonical p := h.coreTurn

theorem unitFirst : ∀ p ∈ Machine.unitFirst s, Pick.Canonical p := h.ownEvent

theorem otherFirst : ∀ p ∈ Machine.otherFirst s, Pick.Canonical p := Option.forall_mem_map.2 fun _ _ => h.frame (by rfl)

theorem timeFirst : ∀ p ∈ Machine.timeFirst s, Pick.Canonical p := Option.forall_mem_map.2 fun _ _ => h.frame (by rfl)

theorem idleUnless {o : Option Pick} (ho : ∀ p ∈ o, Pick.Canonical p) : Pick.Canonical (o.getD (.idle s)) := by
  cases o with
  | none => exact h
  | some p => exact ho p rfl

theorem select : Pick.Canonical (Machine.select s) := by
  have hmine := h.mineFirst
  have hunit := h.unitFirst
  have hother := h.otherFirst
  have htime := h.timeFirst
  unfold Machine.select
  split
  · split
    · exact turn (h.frame (by rfl))
    · exact trivial
  · dsimp only
    split
    · exact h.frame (by rfl)
    · exact h.frame (by rfl)
  · refine h.idleUnless (forall_mem_ite ?_ (forall_mem_ite ?_ (forall_mem_ite ?_ ?_)))
    · exact forall_mem_or htime (forall_mem_or hother (forall_mem_or hmine hunit))
    · exact forall_mem_or hother (forall_mem_or hmine (forall_mem_or hunit htime))
    · exact forall_mem_or hunit (forall_mem_or hmine (forall_mem_or hother htime))
    · exact forall_mem_or hmine (forall_mem_or hunit (forall_mem_or hother htime))

/-- Whatever a step picks and executes keeps the memories in their canonical form. -/
theorem step {t : State} (ht : Machine.step s = .next t) : t.canonical := by
  have hpick := h.select
  unfold Machine.step at ht
  cases hp : Machine.select s with rw [hp] at ht hpick
  | run i u =>
    have hexec := tick (n := u.now + 1) hpick |>.exec i
    dsimp only at ht
    split at ht
    next hv =>
      rw [hv] at hexec
      exact Host.Outcome.next.inj ht ▸ hexec.after
    next hne => exact absurd ht (hne t)
  | wait u => exact Host.Outcome.next.inj ht ▸ hpick.tick
  | idle u => exact Host.Outcome.next.inj ht ▸ hpick.tick
  | stop f => cases ht

end Sys2Proof.Machine.State.canonical

namespace Sys2Proof.Machine

/-- Settles O59: whatever a step picks and executes keeps every memory in its canonical form. -/
theorem memoryStaysCanonical : Obligations.MemoryStaysCanonical := fun _ _ hs ht => hs.step ht

end Sys2Proof.Machine
end

section
/-! Loads and stores of registers, outside an attempt (07_local R161, R163, R196, R198). -/

namespace Sys2Proof.Machine

/-! ### Addresses and references -/

/-- The address of a displacement form, as R161 has it. -/
theorem dispAddr_eq (xa : Word) (p : BitVec 10) (unit : Nat) : dispAddr xa p unit = xa + BitVec.ofInt 64 (p.toInt * unit) := by
  unfold dispAddr
  rw [simm_eq_ofInt, BitVec.ofInt_mul, BitVec.ofInt_natCast]

@[simp] theorem Ref.plus_isLocal (r : Ref) (n : Nat) : (r.plus n).isLocal = r.isLocal := rfl

theorem unitOf_pos (z : BitVec 2) : 0 < unitOf z := Nat.two_pow_pos _

/-- The bytes from a reference up are local where it is. -/
theorem anyLocal_span (r : Ref) {n : Nat} (hn : 0 < n) : anyLocal (r.span n) = r.isLocal := by
  unfold anyLocal Ref.span
  cases h : r.isLocal with
  | true => exact List.any_eq_true.2 ⟨_, List.mem_map_of_mem (List.mem_range.2 hn), h⟩
  | false =>
    refine List.any_eq_false.2 fun x hx => ?_
    obtain ⟨j, -, rfl⟩ := List.mem_map.1 hx
    rw [Ref.plus_isLocal, h]
    exact Bool.false_ne_true

theorem cellsOf_eq_map (r : Ref) (n v : Nat) :
    cellsOf r n v = (List.range n).map fun j => (r.plus j, (BitVec.ofNat 8 (v / 256 ^ j) : Byte)) := by
  unfold cellsOf Ref.span
  rw [bytesOfNat_eq_map, List.zip_map']

theorem cellsOf_refs (r : Ref) (n v : Nat) : (cellsOf r n v).map (·.1) = r.span n := by
  rw [cellsOf_eq_map, List.map_map]
  rfl

/-- A check changes nothing but what TLBs hold. -/
theorem checkAccess_tlb {s s' : State} {k : Nat} {kind : Kind} {a : Word} {n align : Nat} {c : Chk Ref}
    (h : checkAccess s k kind a n align = (c, s')) : onlyTlb s s' := by
  have htlb := checkAccess_onlyTlb s k kind a n align
  rwa [h] at htlb

/-! ### Two places in program order (R196) -/

/-- Two accesses that join a context's outstanding ones, one after the other. -/
theorem Ctx.issue_issue (c : Ctx) (op op' : OutOp) (dsts dsts' : List Dst) (pure pure' acq acq' rel rel' : Bool) (size : Nat) :
    (c.issue op dsts pure acq rel).issue op' dsts' pure' acq' rel' none size =
      { c with
        outs := c.outs ++ [{ seq := c.nextSeq, pc := c.pc, op, dsts := dsts.filter fun d => d != .x 0, acq, rel, pure },
          { seq := c.nextSeq + 1, pc := c.pc, op := op', dsts := dsts'.filter fun d => d != .x 0, acq := acq', rel := rel'
            pure := pure', vsize := size }]
        nextSeq := c.nextSeq + 2
        later := c.later.filter fun l => !(dsts.filter fun d => d != .x 0).contains l.w.dst &&
          !(dsts'.filter fun d => d != .x 0).contains l.w.dst } := by
  simp only [Ctx.issue, List.append_assoc, List.filter_filter, List.cons_append, List.nil_append, Bool.and_comm]

/-- They take two places in program order as the context goes on. -/
theorem State.issue_two (s : State) (op op' : OutOp) (dsts dsts' : List Dst) (pure pure' acq acq' rel rel' : Bool) (size : Nat) :
    issuesTwo s (s.onMe fun c => ((c.issue op dsts pure acq rel).issue op' dsts' pure' acq' rel' none size).advance)
      { seq := s.me.nextSeq, pc := s.me.pc, op, dsts := dsts.filter fun d => d != .x 0, acq, rel, pure }
      { seq := s.me.nextSeq + 1, pc := s.me.pc, op := op', dsts := dsts'.filter fun d => d != .x 0, acq := acq', rel := rel'
        pure := pure', vsize := size } := by
  refine ⟨State.onMe_onlyMe _ _, ?_, rfl, rfl, rfl, rfl, ?_⟩
  · rw [State.onMe_me]
    exact fun h0 h1 => Ctx.advance_pc ((s.me.issue op dsts pure acq rel).issue op' dsts' pure' acq' rel' none size) h0 h1
  · rw [State.onMe_me, Ctx.issue_issue]
    exact Ctx.advance_frame _

/-! ### Loads -/

section
variable {s : State} (hattempt : s.me.attempt = none)
include hattempt

/-- Outside an attempt a load issues, with a fence.quad behind it where it is a local acquire form. -/
theorem issueLoad_of_no_attempt (refs : List Ref) (fin : LoadFin) (nc acq : Bool) :
    s.issueLoad refs fin nc acq = s.onMe fun c =>
      (if acq && anyLocal refs then (c.issue (.load refs fin nc) fin.dsts true (acq && !(acq && anyLocal refs)) false).fenceQuad s.myQuad
        else c.issue (.load refs fin nc) fin.dsts true (acq && !(acq && anyLocal refs)) false).advance := by
  unfold State.issueLoad
  dsimp only
  rw [State.track_of_no_attempt hattempt]
  dsimp only
  rw [openAttempt_none hattempt]
  rfl

/-- What the outstanding access of a load is (R93, R161, R196). -/
def isLoad (refs : List Ref) (fin : LoadFin) (nc acq : Bool) (o : Out) : Prop :=
  o.op = .load refs fin nc ∧ o.acq = acq ∧ o.rel = false ∧ o.pure = true ∧ o.ans = none ∧ o.dsts = fin.dsts.filter (· != .x 0)

theorem issueLoad_plain {refs : List Ref} (fin : LoadFin) (nc : Bool) {acq : Bool} (h : (acq && anyLocal refs) = false) :
    ∃ o, issuesOut s (s.issueLoad refs fin nc acq) o ∧ isLoad refs fin nc (acq && !anyLocal refs) o := by
  rw [issueLoad_of_no_attempt hattempt, h]
  have horder : (acq && !false) = (acq && !anyLocal refs) := by
    cases acq
    · rfl
    · rw [Bool.true_and] at h
      rw [h]
  exact ⟨_, s.issue_out _ _ _ _ _ _ 0, rfl, horder, rfl, rfl, rfl, rfl⟩

theorem issueLoad_fenced {refs : List Ref} (fin : LoadFin) (nc : Bool) {acq : Bool} (h : (acq && anyLocal refs) = true) :
    ∃ o p, issuesTwo s (s.issueLoad refs fin nc acq) o p ∧ isLoad refs fin nc (acq && !anyLocal refs) o ∧ isFence p s.myQuad := by
  rw [issueLoad_of_no_attempt hattempt, h]
  obtain ⟨rfl, hlocal⟩ := Bool.and_eq_true_iff.1 h
  rw [hlocal]
  exact ⟨_, _, s.issue_two _ _ _ _ _ _ _ _ _ _ 0, ⟨rfl, rfl, rfl, rfl, rfl, rfl⟩, rfl, rfl, rfl, rfl, rfl, rfl⟩

end

/-- A load of the bytes that a check has granted issues with its order, or as the load and a fence.quad (R161, R196). -/
theorem issueLoad_granted {s s' : State} (hattempt : s.me.attempt = none) {i : Instr} {a : Word} {n : Nat} {r : Ref} {fin : LoadFin}
    {nc acq : Bool} (hn : 0 < n) (hcheck : checkAccess s s.cur .load a n n = (.ok r, s'))
    (hexec : exec i s = .next (s'.issueLoad (r.span n) fin nc acq)) :
    onlyTlb s s' ∧
      ((acq && r.isLocal) = false → ∃ (t : State) (o : Out), exec i s = .next t ∧ issuesOut s' t o ∧
        isLoad (r.span n) fin nc (acq && !r.isLocal) o) ∧
      ((acq && r.isLocal) = true → ∃ (t : State) (o p : Out), exec i s = .next t ∧ issuesTwo s' t o p ∧
        isLoad (r.span n) fin nc (acq && !r.isLocal) o ∧ isFence p s.myQuad) := by
  have htlb : onlyTlb s s' := checkAccess_tlb hcheck
  have hattempt' : s'.me.attempt = none := htlb.me ▸ hattempt
  have hquad : s'.myQuad = s.myQuad := congrArg quadOf htlb.cur
  rw [← anyLocal_span r hn]
  refine ⟨htlb, fun h => ?_, fun h => ?_⟩
  · obtain ⟨o, ho⟩ := issueLoad_plain hattempt' fin nc h
    exact ⟨_, o, hexec, ho⟩
  · obtain ⟨o, p, hissues, hloads, hfence⟩ := issueLoad_fenced hattempt' fin nc h
    exact ⟨_, o, p, hexec, hissues, hloads, hquad ▸ hfence⟩

theorem loadOne_granted {s s' : State} {signed nc acq : Bool} {d a : BitVec 5} {z : BitVec 2} {p : BitVec 10} {r : Ref}
    (h : checkAccess s s.cur .load (dispAddr (s.me.getX a) p (unitOf z)) (unitOf z) (unitOf z) = (.ok r, s')) :
    loadOne signed nc acq d a z p s = .next (s'.issueLoad (r.span (unitOf z)) (.scalar d signed) nc acq) := by
  unfold loadOne
  dsimp only
  rw [h]

theorem loadPair_granted {s s' : State} {acq : Bool} {d a : BitVec 5} {p : BitVec 10} {r : Ref}
    (h : checkAccess s s.cur .load (dispAddr (s.me.getX a) p 16) 16 16 = (.ok r, s')) :
    loadPair acq d a p s = .next (s'.issueLoad (r.span 16) (.pair d) false acq) := by
  unfold loadPair
  dsimp only
  rw [h]

/-- Settles O6: outside an attempt every load form issues what its check has granted. -/
theorem loadsIssue : Obligations.LoadsIssue := by
  intro s sb d a z p hattempt address issues n
  have haddr (unit : Nat) : address unit = dispAddr (s.me.getX a) p unit := (dispAddr_eq _ _ _).symm
  have one {i : Instr} {signed nc acq : Bool} (hexec : exec i s = loadOne signed nc acq d a z p s) :
      issues i n (.scalar d signed) [.x d] nc acq := by
    intro r s' hcheck
    rw [haddr] at hcheck
    exact issueLoad_granted hattempt (unitOf_pos z) hcheck (hexec.trans (loadOne_granted hcheck))
  have pair {i : Instr} {acq : Bool} (hexec : exec i s = loadPair acq d a p s) : issues i 16 (.pair d) [.x d, .x (d + 1)] false acq := by
    intro r s' hcheck
    rw [haddr] at hcheck
    exact issueLoad_granted hattempt (by decide) hcheck (hexec.trans (loadPair_granted hcheck))
  exact ⟨one rfl, one rfl, one rfl, one rfl, one rfl, one rfl, pair rfl, pair rfl⟩

end Sys2Proof.Machine
end

section
/-! Stores (07_local R161, R163, R186, R195): how they issue, and what is left of the context and of the memories when a home performs one. -/

namespace Sys2Proof.Machine

/-! ### A write leaves the registers and the status of the context that makes it (R186, R303, R307) -/

/-- A context keeps its registers and its status. -/
def keepsRegs (k : Nat) (s t : State) : Prop := (t.ctx k).regs = (s.ctx k).regs ∧ (t.ctx k).status = (s.ctx k).status

theorem keepsRegs.trans {k : Nat} {s t u : State} (h : keepsRegs k s t) (g : keepsRegs k t u) : keepsRegs k s u :=
  ⟨g.1.trans h.1, g.2.trans h.2⟩

theorem keepsRegs_of_ctx {k : Nat} {s t : State} (h : t.ctx k = s.ctx k) : keepsRegs k s t := ⟨by rw [h], by rw [h]⟩

theorem keepsRegs_of_ctxs {k : Nat} {s t : State} (h : t.ctxs = s.ctxs) : keepsRegs k s t :=
  keepsRegs_of_ctx (by rw [State.ctx, State.ctx, h])

theorem keepsRegs_onCtx {k : Nat} (s : State) (j : Nat) {f : Ctx → Ctx} (hf : ∀ c, (f c).regs = c.regs ∧ (f c).status = c.status) :
    keepsRegs k s (s.onCtx j f) := by
  by_cases hj : k = j
  · subst hj
    rw [keepsRegs, State.onCtx_ctx_same]
    exact hf _
  · exact keepsRegs_of_ctx (State.onCtx_ctx_other _ _ hj)

theorem keepsRegs_mapVals {k : Nat} {s t : State} {f : Nat → Ctx → Ctx} (h : t.ctxs = s.ctxs.mapVals f) (hdefault : f k {} = {})
    (hf : ∀ c, (f k c).regs = c.regs ∧ (f k c).status = c.status) : keepsRegs k s t := by
  rw [keepsRegs, ctx_of_mapVals h hdefault]
  exact hf _

theorem keepsRegs.foldl {α : Type} {k : Nat} {f : State → α → State} (l : List α) (s : State)
    (hf : ∀ a ∈ l, ∀ s, keepsRegs k s (f s a)) :
    keepsRegs k s (l.foldl f s) :=
  List.foldlRecOn (motive := fun t => keepsRegs k s t) l f ⟨rfl, rfl⟩ fun t ht a ha => ht.trans (hf a ha t)

/-- An abort changes no other context. -/
theorem conflictAbort_ctx_other (s : State) {j k : Nat} (h : k ≠ j) : (s.conflictAbort j).ctx k = s.ctx k := by
  unfold State.conflictAbort
  dsimp only
  split
  · rfl
  · split
    · rfl
    · rw [State.onCtx_ctx_other _ _ h]
      show (s.onCtx j fun c => { c with jacks := [] }).ctx k = s.ctx k
      exact State.onCtx_ctx_other s _ h

theorem conflictAbort_keepsRegs (s : State) {j k : Nat} (h : k ≠ j) : keepsRegs k s (s.conflictAbort j) :=
  keepsRegs_of_ctx (conflictAbort_ctx_other s h)

/-- The writer is not among those whose attempts its write aborts. -/
theorem ne_of_mem_conflictsWith {s : State} {j k line : Nat} (h : j ∈ s.conflictsWith (some k) line) : k ≠ j := by
  obtain ⟨e, -, he⟩ := List.mem_filterMap.1 h
  split at he
  · cases he
  next hne =>
    split at he
    · split at he
      · exact fun hk => hne (by rw [hk, Option.some.inj he])
      · cases he
    · cases he

theorem markUnprot_keepsRegs (k : Nat) (s : State) (line : Nat) : keepsRegs k s (s.markUnprot (some k) line) :=
  keepsRegs_mapVals (markUnprot_ctxs ..) (if_pos rfl) fun c => by rw [if_pos rfl]; exact ⟨rfl, rfl⟩

theorem conflicts_keepsRegs (k : Nat) (s : State) (lines : List Nat) :
    keepsRegs k s (lines.foldl (fun s l => (s.conflictsWith (some k) l).foldl State.conflictAbort (s.markUnprot (some k) l)) s) :=
  .foldl lines s fun l _ s => (markUnprot_keepsRegs k s l).trans
    (.foldl _ _ fun _ hj s => conflictAbort_keepsRegs s (ne_of_mem_conflictsWith hj))

theorem spring_keepsRegs (k : Nat) (s : State) (home : Option Nat) (line : Nat) : keepsRegs k s (s.spring (some k) home line) := by
  unfold State.spring State.springIn
  dsimp only
  refine .trans ?_ (.foldl _ _ fun j hj s => ?_)
  · refine .trans (keepsRegs_of_ctxs rfl) (.foldl _ _ fun j _ s => ?_)
    exact keepsRegs_onCtx s j fun _ => ⟨rfl, rfl⟩
  · split
    · refine conflictAbort_keepsRegs s fun hk => ?_
      obtain ⟨e, -, he⟩ := List.mem_flatMap.1 hj
      split at he
      · rw [hk] at he
        simp at he
      · cases he
    · exact ⟨rfl, rfl⟩

theorem retestWaits_keepsRegs (k : Nat) (s : State) (lines : List Nat) : keepsRegs k s (s.retestWaits lines) :=
  keepsRegs_mapVals (retestWaits_ctxs ..) rfl fun c => by split <;> exact ⟨rfl, rfl⟩

theorem lwrite_keepsRegs (k : Nat) (s : State) (quad : Nat) (cells : List (Nat × Byte)) : keepsRegs k s (s.lwrite (some k) quad cells) := by
  unfold State.lwrite
  dsimp only
  refine .trans ?_ (.foldl _ _ fun l _ s => spring_keepsRegs k s _ l)
  refine .trans ?_ (conflicts_keepsRegs k _ _)
  exact keepsRegs_of_ctxs rfl

theorem gwrite_keepsRegs (k : Nat) (s : State) (die : Nat) (home : Nat → Option Nat) (cells : List (Nat × Byte)) :
    keepsRegs k s (s.gwrite (some k) die home cells) := by
  unfold State.gwrite State.gwriteQuiet
  dsimp only
  refine .trans ?_ (.foldl _ _ fun w _ s => keepsRegs_of_ctxs (testTriggers_ctxs s _))
  refine .trans ?_ (retestWaits_keepsRegs k _ _)
  refine .trans ?_ (.foldl _ _ fun l _ s => spring_keepsRegs k s _ l)
  refine .trans ?_ (conflicts_keepsRegs k _ _)
  exact keepsRegs_of_ctxs (updateCopies_ctxs ..)

theorem writeCells_keepsRegs (k : Nat) (s : State) (cs : List (Ref × Byte)) : keepsRegs k s (s.writeCells k cs) := by
  have hlocal : keepsRegs k s (if (localCells cs).isEmpty then s else s.lwrite (some k) (quadOf k) (localCells cs)) := by
    split
    · exact ⟨rfl, rfl⟩
    · exact lwrite_keepsRegs ..
  unfold State.writeCells
  dsimp only
  split
  · exact hlocal
  · exact hlocal.trans (gwrite_keepsRegs ..)

/-! ### The bytes that a write leaves -/

/-- The local part of a context's write. -/
def State.writeLocal (s : State) (k : Nat) (cs : List (Ref × Byte)) : State :=
  if (localCells cs).isEmpty then s else s.lwrite (some k) (quadOf k) (localCells cs)

theorem writeCells_eq (s : State) (k : Nat) (cs : List (Ref × Byte)) : s.writeCells k cs =
    if (globalCells cs).isEmpty then s.writeLocal k cs
    else (s.writeLocal k cs).gwrite (some k) (quadDie (quadOf k)) (homeIn? cs) (globalCells cs) := rfl

section
variable (s : State) (k : Nat) (cs : List (Ref × Byte))

theorem writeLocal_mem : (s.writeLocal k cs).mem = s.mem := by
  unfold State.writeLocal
  split
  · rfl
  · exact State.lwrite_mem ..

theorem writeLocal_gbyte (a : Nat) : (s.writeLocal k cs).gbyte a = s.gbyte a := by
  unfold State.writeLocal
  split
  · rfl
  · exact State.lwrite_gbyte ..

theorem writeLocal_quad_other {q : Nat} (h : q ≠ quadOf k) : (s.writeLocal k cs).quad q = s.quad q := by
  unfold State.writeLocal
  split
  · rfl
  · exact State.lwrite_quad _ _ _ _ h

theorem writeLocal_get (hwf : (s.quad (quadOf k)).mem.wf = true) (a : Nat) :
    ((s.writeLocal k cs).quad (quadOf k)).mem.get a = (lastAt (localCells cs) a).getD ((s.quad (quadOf k)).mem.get a) := by
  unfold State.writeLocal
  split
  next he =>
    rw [List.isEmpty_iff.1 he]
    rfl
  · exact State.lwrite_get _ _ _ _ hwf a

/-- The global part of a context's write changes no quad. -/
theorem writeCells_quad_eq (q : Nat) : (s.writeCells k cs).quad q = (s.writeLocal k cs).quad q := by
  rw [writeCells_eq]
  split
  · rfl
  · exact State.gwrite_quad ..

theorem writeCells_gbyte_eq (hwf : s.mem.wf = true) (a : Nat) :
    (s.writeCells k cs).gbyte a = (lastAt (globalCells cs) a).getD (s.gbyte a) := by
  rw [writeCells_eq]
  split
  next he =>
    rw [List.isEmpty_iff.1 he, writeLocal_gbyte]
    rfl
  · rw [State.gwrite_get _ _ _ _ _ (by rw [writeLocal_mem, hwf]), writeLocal_gbyte]

/-- A context's write changes exactly the bytes of its cells (R186). -/
theorem writeCells_writes : writesCells s (s.writeCells k cs) k cs := fun hwf =>
  ⟨writeCells_gbyte_eq s k cs hwf.1, fun a => by rw [writeCells_quad_eq, writeLocal_get s k cs (quad_wf hwf.2.1 _)],
    fun q hq a => by rw [writeCells_quad_eq, writeLocal_quad_other s k cs hq]⟩

end

/-! ### How a store issues -/

theorem Ctx.onAttempt_none {c : Ctx} (h : c.attempt = none) (f : Attempt → Attempt) : c.onAttempt f = c := by
  unfold Ctx.onAttempt
  rw [h, Option.map_none, ← h]

/-- The mark that an attempt has written is for an attempt alone. -/
theorem markWrote_ctx {s : State} (h : s.me.attempt = none) (k : Nat) : (s.markWrote s.cur).ctx k = s.ctx k := by
  unfold State.markWrote
  by_cases hk : k = s.cur
  · subst hk
    rw [State.onCtx_ctx_same]
    exact Ctx.onAttempt_none h _
  · exact State.onCtx_ctx_other _ _ hk

theorem issuesTwo_of_same_ctx {s s' t : State} {o p : Out} (hs : s' = { s with ctxs := s'.ctxs }) (hctx : ∀ k, s'.ctx k = s.ctx k)
    (h : issuesTwo s' t o p) : issuesTwo s t o p := by
  obtain ⟨⟨honly, hothers, hmem⟩, hgoes, hseq, hseq', hpc, hpc', hme⟩ := h
  have hcur : s'.cur = s.cur := by rw [hs]
  have heq : s'.me = s.me := (congrArg s'.ctx hcur).trans (hctx s.cur)
  rw [heq] at hgoes hseq hseq' hpc hpc' hme
  refine ⟨⟨honly.trans (by rw [hs]), fun k hk => (hothers k (hcur ▸ hk)).trans (hctx k), ?_⟩, hgoes, hseq, hseq', hpc, hpc', hme⟩
  rw [hs] at hmem
  exact hmem

/-- What the access of a store is (R161, R163, R196). -/
def isStore (cells : List (Ref × Byte)) (rel : Bool) (o : Out) : Prop :=
  o.op = .store cells ∧ o.acq = false ∧ o.rel = rel ∧ o.dsts = [] ∧ o.ans = none

section
variable {s : State} (hattempt : s.me.attempt = none)
include hattempt

/-- Outside an attempt a store issues, with a fence.quad before it where it is a local release form. -/
theorem issueStore_of_no_attempt (cells : List (Ref × Byte)) (rel : Bool) (size : Nat) :
    s.issueStore cells rel size = (s.markWrote s.cur).onMe fun c =>
      ((if rel && anyLocal (cells.map (·.1)) then c.fenceQuad s.myQuad else c).issue (.store cells) [] false false
        (rel && !(rel && anyLocal (cells.map (·.1)))) none size).advance := by
  unfold State.issueStore
  dsimp only
  rw [State.track_of_no_attempt hattempt]
  dsimp only
  rw [openAttempt_none hattempt]
  rfl

theorem issueStore_plain {cells : List (Ref × Byte)} {rel : Bool} (size : Nat) (h : (rel && anyLocal (cells.map (·.1))) = false) :
    ∃ o, issuesOut s (s.issueStore cells rel size) o ∧ isStore cells (rel && !anyLocal (cells.map (·.1))) o := by
  rw [issueStore_of_no_attempt hattempt, h]
  have horder : (rel && !false) = (rel && !anyLocal (cells.map (·.1))) := by
    cases rel
    · rfl
    · rw [Bool.true_and] at h
      rw [h]
  exact ⟨_, issuesOut_of_same_ctx rfl (markWrote_ctx hattempt) ((s.markWrote s.cur).issue_out _ _ _ _ _ _ size), rfl, rfl, horder, rfl, rfl⟩

theorem issueStore_fenced {cells : List (Ref × Byte)} {rel : Bool} (size : Nat) (h : (rel && anyLocal (cells.map (·.1))) = true) :
    ∃ p o, issuesTwo s (s.issueStore cells rel size) p o ∧ isFence p s.myQuad ∧
      isStore cells (rel && !anyLocal (cells.map (·.1))) o := by
  rw [issueStore_of_no_attempt hattempt, h]
  obtain ⟨rfl, hlocal⟩ := Bool.and_eq_true_iff.1 h
  rw [hlocal]
  exact ⟨_, _, issuesTwo_of_same_ctx rfl (markWrote_ctx hattempt) ((s.markWrote s.cur).issue_two _ _ _ _ _ _ _ _ _ _ size),
    ⟨rfl, rfl, rfl, rfl, rfl, rfl⟩, rfl, rfl, rfl, rfl, rfl⟩

end

/-- A store at a reference that a check has granted issues with its order, or as a fence.quad and the store (R161, R196). -/
theorem issueStore_granted {s s' : State} (hattempt : s.me.attempt = none) {i : Instr} {a : Word} {n v size : Nat} {r : Ref} {rel : Bool}
    (hn : 0 < n) (hcheck : checkAccess s s.cur .store a n n = (.ok r, s'))
    (hexec : exec i s = .next (s'.issueStore (cellsOf r n v) rel size)) :
    onlyTlb s s' ∧
      ((rel && r.isLocal) = false → ∃ (t : State) (o : Out), exec i s = .next t ∧ issuesOut s' t o ∧
        isStore (cellsOf r n v) (rel && !r.isLocal) o) ∧
      ((rel && r.isLocal) = true → ∃ (t : State) (p o : Out), exec i s = .next t ∧ issuesTwo s' t p o ∧ isFence p s.myQuad ∧
        isStore (cellsOf r n v) (rel && !r.isLocal) o) := by
  have htlb : onlyTlb s s' := checkAccess_tlb hcheck
  have hattempt' : s'.me.attempt = none := htlb.me ▸ hattempt
  have hquad : s'.myQuad = s.myQuad := congrArg quadOf htlb.cur
  rw [← anyLocal_span r hn, ← cellsOf_refs r n v]
  refine ⟨htlb, fun h => ?_, fun h => ?_⟩
  · obtain ⟨o, ho⟩ := issueStore_plain hattempt' size h
    exact ⟨_, o, hexec, ho⟩
  · obtain ⟨p, o, hissues, hfence, hstore⟩ := issueStore_fenced hattempt' size h
    exact ⟨_, p, o, hexec, hissues, hquad ▸ hfence, hstore⟩

theorem storeOne_granted {s s' : State} {rel : Bool} {d a : BitVec 5} {z : BitVec 2} {p : BitVec 10} {r : Ref}
    (h : checkAccess s s.cur .store (dispAddr (s.me.getX a) p (unitOf z)) (unitOf z) (unitOf z) = (.ok r, s')) :
    storeOne rel d a z p s = .next (s'.issueStore (cellsOf r (unitOf z) (s.me.getX d).toNat) rel (unitOf z)) := by
  unfold storeOne
  dsimp only
  rw [h]

theorem storePair_granted {s s' : State} {rel : Bool} {d a : BitVec 5} {p : BitVec 10} {r : Ref}
    (h : checkAccess s s.cur .store (dispAddr (s.me.getX a) p 16) 16 16 = (.ok r, s')) :
    storePair rel d a p s =
      .next (s'.issueStore (cellsOf r 16 ((s.me.getX d).toNat + 2 ^ 64 * (s.me.getX (d + 1)).toNat)) rel 8) := by
  unfold storePair
  dsimp only
  rw [h]

/-! ### A home performs a store -/

theorem seq_of_out {c : Ctx} {seq : Nat} {o : Out} (h : c.out seq = some o) : o.seq = seq := by
  have hfound := List.find?_some h
  exact eq_of_beq hfound

theorem out_dropOut (c : Ctx) (seq : Nat) : (c.dropOut seq).out seq = none := by
  refine List.find?_eq_none.2 fun o ho => ?_
  have hne := (List.mem_filter.1 ho).2
  exact fun heq => by simp_all

theorem endIfDone_of_not_ending {s : State} {k : Nat} (h : (s.ctx k).status ≠ .ending) : s.endIfDone k = s := by
  have hmay : s.mayFree k = false := by simp [State.mayFree, h]
  rw [State.endIfDone, hmay]
  rfl

theorem perform_store {s : State} {k : Nat} {o : Out} {cells : List (Ref × Byte)} (hop : o.op = .store cells)
    (hmay : s.mayWriteCells k cells = true) :
    s.perform k o = ((s.writeCells k (s.served cells)).onCtx k fun c => c.dropOut o.seq, true) := by
  unfold State.perform
  rw [hop]
  dsimp only
  rw [if_pos hmay]

section
variable {s : State} {k seq : Nat} {o : Out} (hev : s.ev = [k, seq]) (hout : (s.ctx k).out seq = some o)
include hev hout

/-- The step of a home on an access that it may perform. -/
theorem homeStep_performs {kind : OutOp → Bool} (hkind : kind o.op = true) (hans : o.ans = none)
    (hhalted : (s.ctx k).halted = false ∨ o.pure = false) (hmay : (s.ctx k).mayPerform o = true) :
    homeStep kind s = .next ((s.perform k o).1.endIfDone k) := by
  have harg : s.arg 0 = k := by rw [State.arg, hev]; rfl
  have harg' : s.arg 1 = seq := by rw [State.arg, hev]; rfl
  have hpure : ((s.ctx k).halted && o.pure) = false := Bool.and_eq_false_iff.2 hhalted
  have hpending : o.pending = true := by rw [Out.pending, hans]; rfl
  unfold homeStep
  dsimp only
  rw [harg, harg', hout]
  dsimp only
  rw [hkind, hpending, hmay, hpure]
  rfl

theorem homeWrite_exec {cells : List (Ref × Byte)} (hop : o.op = .store cells) (hans : o.ans = none)
    (hhalted : (s.ctx k).halted = false ∨ o.pure = false) (hmay : (s.ctx k).mayPerform o = true) (hfree : s.mayWriteCells k cells = true)
    (hstatus : (s.ctx k).status ≠ .ending) :
    exec .homeWrite s = .next ((s.writeCells k (s.served cells)).onCtx k fun c => c.dropOut o.seq) := by
  have harg : s.arg 2 = 0 := by rw [State.arg, hev]; rfl
  show execHomeWrite s = _
  unfold execHomeWrite
  dsimp only
  rw [if_pos harg]
  refine (homeStep_performs hev hout (by rw [hop]) hans hhalted hmay).trans ?_
  rw [perform_store hop hfree, endIfDone_of_not_ending]
  rw [State.onCtx_ctx_same]
  exact (writeCells_keepsRegs k s _).2 ▸ hstatus

end

/-- Settles O7: outside an attempt every store form issues what its check has granted, and a home that performs a store writes its cells. -/
theorem stores : Obligations.Stores := by
  constructor
  · intro s sb d a z p hattempt address issues n one two
    have haddr (unit : Nat) : address unit = dispAddr (s.me.getX a) p unit := (dispAddr_eq _ _ _).symm
    have storesOne {i : Instr} {rel : Bool} (hexec : exec i s = storeOne rel d a z p s) : issues i n one rel := by
      intro r s' hcheck
      rw [haddr] at hcheck
      rw [← cellsOf_eq_map]
      exact issueStore_granted hattempt (unitOf_pos z) hcheck (hexec.trans (storeOne_granted hcheck))
    have storesTwo {i : Instr} {rel : Bool} (hexec : exec i s = storePair rel d a p s) : issues i 16 two rel := by
      intro r s' hcheck
      rw [haddr] at hcheck
      rw [← cellsOf_eq_map]
      exact issueStore_granted hattempt (by decide) hcheck (hexec.trans (storePair_granted hcheck))
    exact ⟨storesOne rfl, storesOne rfl, storesTwo rfl, storesTwo rfl⟩
  · intro s k seq o cells hev hout hop hans hhalted hmay hfree hstatus
    refine ⟨_, homeWrite_exec hev hout hop hans hhalted hmay hfree hstatus, writeCells_writes s k _, ?_, ?_⟩
    · rw [State.onCtx_ctx_same, seq_of_out hout, out_dropOut]
    · rw [State.onCtx_ctx_same]
      exact (writeCells_keepsRegs k s _).1

end Sys2Proof.Machine
end

section
/-! Which local addresses a check grants, and the traps of misaligned loads and stores (07_local R160, R161, R179, R215, R241, R427). -/

namespace Sys2Proof.Machine

/-! ### Checks -/

theorem fld_top (a : Word) : fld a 57 7 = a.toNat / 2 ^ 57 := by
  unfold fld
  have h := a.isLt
  omega

section
variable {s : State} {k : Nat} {kind : Kind} {a : Word} {n align : Nat}

theorem checkAccess_misaligned (h : a.toNat % align ≠ 0) : checkAccess s k kind a n align = (.no (.trap cMisaligned a), s) := if_pos h

variable (haligned : a.toNat % align = 0)
include haligned

theorem checkAccess_local (h : a.toNat < 0x400000) : checkAccess s k kind a n align =
    (if localOk s k a then consume s k kind a n { isLocal := true, addr := a.toNat } else .no (.trap cAccess a), s) :=
  (if_neg (not_not.2 haligned)).trans (if_pos (decide_eq_true h))

theorem checkAccess_high (hglobal : ¬ a.toNat < 0x400000) (h : a.toNat / 2 ^ 57 ≠ 0) :
    checkAccess s k kind a n align = (.no (.trap cAccess a), s) := by
  have hlocal : isLocal a = false := decide_eq_false hglobal
  unfold checkAccess
  rw [if_neg (not_not.2 haligned), hlocal]
  exact if_pos (fld_top a ▸ h)

end

/-- The backed addresses of the local window (R160, R215). -/
theorem localOk_eq (s : State) (k : Nat) (a : Word) : localOk s k a = true ↔ (s.quad (quadOf k)).xbound.toNat ≤ a.toNat ∧
    a.toNat < capacity (quadLayer (quadOf k)) ∧ (s.ctx k).task.portable = false := by
  unfold localOk
  rw [Bool.and_eq_true, Bool.and_eq_true, decide_eq_true_iff, decide_eq_true_iff, Bool.not_eq_true', and_assoc]
  tauto

/-! ### Poison that a context sees (R162, R427) -/

/-- A context without stores of its own has replaced no word. -/
theorem replaces_of_no_ownBytes {c : Ctx} (h : c.ownBytes = []) (r : Ref) : c.replaces r = false := by
  obtain ⟨houts, hattempt⟩ := List.append_eq_nil_iff.1 h
  unfold Ctx.replaces
  refine Bool.or_eq_false_iff.2 ⟨List.any_eq_false.2 fun o ho => ?_, ?_⟩
  · have hnone := List.flatMap_eq_nil_iff.1 houts o ho
    split
    next cells hop =>
      rw [hop] at hnone
      rw [List.map_eq_nil_iff.1 hnone]
      exact Bool.false_ne_true
    · exact Bool.false_ne_true
  · split
    next a ha =>
      rw [ha] at hattempt
      refine List.any_eq_false.2 fun l hl => ?_
      rw [List.map_eq_nil_iff.1 (List.flatMap_eq_nil_iff.1 hattempt l hl)]
      exact Bool.false_ne_true
    · rfl

theorem poisonSeen_of_no_ownBytes {s : State} {k : Nat} (h : (s.ctx k).ownBytes = []) (r : Ref) (n : Nat) :
    s.poisonSeen k r n = s.poisonSpan (quadOf k) r n := by
  unfold State.poisonSeen
  simp only [replaces_of_no_ownBytes h, Bool.not_false, Bool.and_true]
  exact Bool.and_self _

theorem consume_granted {s : State} {k : Nat} {kind : Kind} {a : Word} {n : Nat} {r : Ref}
    (h : kind = .store ∨ s.poisonSpan (quadOf k) r n = false) : consume s k kind a n r = .ok r := by
  refine if_neg fun hseen => ?_
  obtain ⟨hkind, hpoison⟩ := Bool.and_eq_true_iff.1 hseen
  rcases h with rfl | hclean
  · cases hkind
  · rw [State.poisonSeen, hclean] at hpoison
    cases hpoison

theorem consume_poisoned {s : State} {k : Nat} {kind : Kind} {a : Word} {n : Nat} {r : Ref} (hkind : kind ≠ .store)
    (hown : (s.ctx k).ownBytes = []) (h : s.poisonSpan (quadOf k) r n = true) : consume s k kind a n r = .no (.trap cAccess a) :=
  if_pos (Bool.and_eq_true_iff.2 ⟨bne_iff_ne.2 hkind, (poisonSeen_of_no_ownBytes hown r n).trans h⟩)

/-! ### Misaligned loads and stores (R161, R241) -/

section
variable {s : State} (htraps : takesTraps s.me)
include htraps

/-- A denied address is the trap of its cause. -/
theorem misaligned_enters {i : Instr} {a : Word} (hexec : exec i s = .next (s.deny (.trap cMisaligned a))) :
    ∃ t : State, exec i s = .next t ∧ entersTrap s t 0x02 a := ⟨_, hexec, State.trap_enters s cMisaligned a rfl htraps⟩

end

section
variable {s : State} {d a : BitVec 5} {z : BitVec 2} {p : BitVec 10}

theorem loadOne_misaligned {signed nc acq : Bool} (h : (dispAddr (s.me.getX a) p (unitOf z)).toNat % unitOf z ≠ 0) :
    loadOne signed nc acq d a z p s = .next (s.deny (.trap cMisaligned (dispAddr (s.me.getX a) p (unitOf z)))) := by
  unfold loadOne
  dsimp only
  rw [checkAccess_misaligned h]

theorem loadPair_misaligned {acq : Bool} (h : (dispAddr (s.me.getX a) p 16).toNat % 16 ≠ 0) :
    loadPair acq d a p s = .next (s.deny (.trap cMisaligned (dispAddr (s.me.getX a) p 16))) := by
  unfold loadPair
  dsimp only
  rw [checkAccess_misaligned h]

theorem storeOne_misaligned {rel : Bool} (h : (dispAddr (s.me.getX a) p (unitOf z)).toNat % unitOf z ≠ 0) :
    storeOne rel d a z p s = .next (s.deny (.trap cMisaligned (dispAddr (s.me.getX a) p (unitOf z)))) := by
  unfold storeOne
  dsimp only
  rw [checkAccess_misaligned h]

theorem storePair_misaligned {rel : Bool} (h : (dispAddr (s.me.getX a) p 16).toNat % 16 ≠ 0) :
    storePair rel d a p s = .next (s.deny (.trap cMisaligned (dispAddr (s.me.getX a) p 16))) := by
  unfold storePair
  dsimp only
  rw [checkAccess_misaligned h]

end

/-- Settles O8: each clause by the test that it fails or passes, the loads and stores by the trap of their check. -/
theorem addressChecks : Obligations.AddressChecks := by
  constructor
  · intro s k kind a n r q local_ backed there
    have hok : localOk s k a = true ↔ backed := localOk_eq s k a
    have granted (haligned : a.toNat % n = 0) (hlocal : local_) (hbacked : backed) : r = consume s k kind a n there := by
      show (checkAccess s k kind a n n).1 = _
      rw [checkAccess_local haligned hlocal, if_pos (hok.2 hbacked)]
    refine ⟨fun h => congrArg Prod.fst (checkAccess_misaligned h), fun haligned hlocal hbacked => ?_, fun haligned hlocal hbacked h => ?_,
      fun haligned hlocal hbacked hkind hpoison hown => ?_, fun haligned hglobal h => congrArg Prod.fst (checkAccess_high haligned hglobal h)⟩
    · show (checkAccess s k kind a n n).1 = _
      rw [checkAccess_local haligned hlocal, if_neg fun h => hbacked (hok.1 h)]
    · exact (granted haligned hlocal hbacked).trans (consume_granted h)
    · exact (granted haligned hlocal hbacked).trans (consume_poisoned hkind hown hpoison)
  · intro s sb d a z p htraps address traps n
    have haddr (unit : Nat) : address unit = dispAddr (s.me.getX a) p unit := (dispAddr_eq _ _ _).symm
    have one {i : Instr} (hexec : (dispAddr (s.me.getX a) p n).toNat % n ≠ 0 →
        exec i s = .next (s.deny (.trap cMisaligned (dispAddr (s.me.getX a) p n)))) : traps i n := by
      intro h
      rw [haddr] at h ⊢
      exact misaligned_enters htraps (hexec h)
    have pair {i : Instr} (hexec : (dispAddr (s.me.getX a) p 16).toNat % 16 ≠ 0 →
        exec i s = .next (s.deny (.trap cMisaligned (dispAddr (s.me.getX a) p 16)))) : traps i 16 := by
      intro h
      rw [haddr] at h ⊢
      exact misaligned_enters htraps (hexec h)
    exact ⟨one loadOne_misaligned, one loadOne_misaligned, one loadOne_misaligned, one loadOne_misaligned, one loadOne_misaligned,
      one loadOne_misaligned, pair loadPair_misaligned, pair loadPair_misaligned, one storeOne_misaligned, one storeOne_misaligned,
      pair storePair_misaligned, pair storePair_misaligned⟩

end Sys2Proof.Machine
end

section
/-! Tiles and rings (07_local R164 to R175): what a change of the tile table or of a ring leaves alone, and what tacq, trdy, tdrain, tfree, tstat,
rset, rpush, rpop and rstat do. -/

namespace Sys2Proof.Machine

/-! ### Fields of an operand -/

theorem fld_eq (w : Word) (lo len : Nat) : fld w lo len = w.toNat / 2 ^ lo % 2 ^ len := by
  rw [fld, Nat.shiftRight_eq_div_pow]

theorem fld_low (w : Word) (len : Nat) : fld w 0 len = w.toNat % 2 ^ len := by rw [fld_eq, Nat.pow_zero, Nat.div_one]

theorem fld_byte7 (w : Word) : fld w 56 8 = w.toNat / 2 ^ 56 := by
  rw [fld_eq]
  have h := w.isLt
  omega

/-! ### A change to a quad, with the wakes that it sends (R166, R167, R173) -/

theorem ite_eq_wake (b : Bool) (c : Ctx) :
    (if b then { c with wake := true } else c) = { c with wake := (if b then { c with wake := true } else c : Ctx).wake } := by
  cases b <;> rfl

/-- A context after a wake of those that wait on `w`. -/
def Ctx.wokenOn (inScope : Nat → Bool) (w : WaitOn) (k : Nat) (c : Ctx) : Ctx :=
  let waits := match c.status with | .sleeping ws => ws.contains w | _ => false
  let holds := match c.attempt with | some a => a.extra.contains w | none => false
  if inScope k && (waits || holds) then { c with wake := true } else c

theorem Ctx.wokenOn_frame (inScope : Nat → Bool) (w : WaitOn) (k : Nat) (c : Ctx) :
    Ctx.wokenOn inScope w k c = { c with wake := (Ctx.wokenOn inScope w k c).wake } := ite_eq_wake _ c

theorem State.wakeOn_ctxs (s : State) (inScope : Nat → Bool) (w : WaitOn) :
    (s.wakeOn inScope w).ctxs = s.ctxs.mapVals (Ctx.wokenOn inScope w) := rfl

/-- A wake on its way to a context is all that it has of a change that it may wait for. -/
theorem State.wakeOn_ctx (s : State) (inScope : Nat → Bool) (w : WaitOn) (k : Nat) :
    (s.wakeOn inScope w).ctx k = { s.ctx k with wake := ((s.wakeOn inScope w).ctx k).wake } := by
  rw [ctx_of_mapVals (s.wakeOn_ctxs inScope w) (by simp [Ctx.wokenOn])]
  exact Ctx.wokenOn_frame inScope w k (s.ctx k)

/-- The quad of the context whose turn it is changed by `f`, with a wake for those that wait on `w`. -/
def State.changeQuad (s : State) (w : WaitOn) (f : Quad → Quad) : State := (s.onQuad s.myQuad f).wakeQuad s.myQuad w

section
variable (s : State) (w : WaitOn) (f : Quad → Quad)

theorem State.changeQuad_frame : s.changeQuad w f = { s with ctxs := (s.changeQuad w f).ctxs, quads := (s.changeQuad w f).quads } := rfl

theorem State.changeQuad_ctx (k : Nat) : (s.changeQuad w f).ctx k = { s.ctx k with wake := ((s.changeQuad w f).ctx k).wake } :=
  (s.onQuad s.myQuad f).wakeOn_ctx _ w k

theorem State.changeQuad_me : (s.changeQuad w f).me = { s.me with wake := (s.changeQuad w f).me.wake } := s.changeQuad_ctx w f s.cur

theorem State.changeQuad_quad_same : (s.changeQuad w f).quad s.myQuad = f (s.quad s.myQuad) := s.onQuad_quad_same s.myQuad f

theorem State.changeQuad_quad_other {j : Nat} (h : j ≠ s.myQuad) : (s.changeQuad w f).quad j = s.quad j := s.onQuad_quad_other f h

/-- A change that leaves the local memory of the quad changes no byte. -/
theorem State.changeQuad_sameMem (hf : (f (s.quad s.myQuad)).mem = (s.quad s.myQuad).mem) : sameMem s (s.changeQuad w f) := by
  refine ⟨fun _ => rfl, fun q a => ?_⟩
  by_cases hq : q = s.myQuad
  · rw [hq, s.changeQuad_quad_same w f, hf]
  · rw [s.changeQuad_quad_other w f hq]

/-- An instruction completes with a change to its quad. -/
theorem State.changeQuad_step (hf : (f (s.quad s.myQuad)).mem = (s.quad s.myQuad).mem) :
    changesQuad s ((s.changeQuad w f).step1 id) (f (s.quad s.myQuad)) := by
  obtain ⟨⟨-, hothers, -⟩, hregs, hsame, hgoes⟩ := (s.changeQuad w f).moves_gives
  have hme := s.changeQuad_me w f
  have hwake : ((s.changeQuad w f).step1 id).me.wake = (s.changeQuad w f).me.wake := by rw [hregs]
  refine ⟨rfl, s.changeQuad_quad_same w f, fun j hj => s.changeQuad_quad_other w f hj, fun k hk => ?_, s.changeQuad_sameMem w f hf, ?_, ?_, ?_⟩
  · rw [hothers k hk]
    exact s.changeQuad_ctx w f k
  · rw [hwake, ← hme]
    exact hregs
  · rw [hme] at hsame
    exact hsame
  · rw [hme] at hgoes
    exact hgoes

/-- An instruction completes with a change to its quad and a value for xd. -/
theorem State.changeQuad_writesX (d : BitVec 5) (v : Word) (t : State) (ht : t = (s.changeQuad w f).writesX d v) :
    t.quad s.myQuad = f (s.quad s.myQuad) ∧ (∀ j, j ≠ s.myQuad → t.quad j = s.quad j) ∧ onlyWakes s t ∧ xGiven s.me t.me d v ∧
      goesOn s.me t.me := by
  obtain ⟨⟨-, hothers, -⟩, -, hgiven, hgoes⟩ := (s.changeQuad w f).writesX_gives d v
  have hme := s.changeQuad_me w f
  subst ht
  refine ⟨s.changeQuad_quad_same w f, fun j hj => s.changeQuad_quad_other w f hj, fun k hk => ?_, ?_, ?_⟩
  · rw [hothers k hk]
    exact s.changeQuad_ctx w f k
  · rw [hme] at hgiven
    exact hgiven
  · rw [hme] at hgoes
    exact hgoes

end

/-- Outside an attempt, in a task that is not portable, an instruction that changes a tile or a ring has its effect (R167, R215). -/
theorem tileChange_runs {s : State} (hattempt : s.me.attempt = none) (hportable : s.me.task.portable = false) (w : Word32) (a : BitVec 5)
    (effect : State → State) : tileChange w a effect s = .next (effect s) := by
  unfold tileChange
  dsimp only
  rw [State.unlessAttempt_outside hattempt, hportable]
  rfl

theorem unlessPortable_runs {s : State} (hportable : s.me.task.portable = false) (tval : Word) (effect : State → Result) :
    s.unlessPortable tval effect = effect s := by
  rw [State.unlessPortable, hportable]
  rfl

theorem taken_iff (q : Quad) (off size : Nat) : q.taken off size = true ↔
    (∃ e ∈ q.tiles, off < e.2.off + e.2.size ∧ e.2.off < off + size) ∨
      ∃ e ∈ q.rings, off < e.2.base + e.2.count * e.2.size ∧ e.2.base < off + size := by
  simp only [Quad.taken, regionsMeet, Bool.or_eq_true, List.any_eq_true, Bool.and_eq_true, decide_eq_true_iff]

/-! ### tacq (R165) -/

section
variable {s : State} {xa : Word} (xb : Word) (hn : xa.toNat / 2 ^ 56 ≤ 63)

theorem tacq_outside (h : 63 < xa.toNat / 2 ^ 56) : tacq s xa xb = (2, s) := by
  unfold tacq
  exact if_pos (fld_byte7 xa ▸ h)

include hn

theorem tacq_release_unbound (hsize : xa.toNat / 2 ^ 32 % 2 ^ 24 = 0)
    (htile : (s.quad s.myQuad).tile? (xa.toNat / 2 ^ 56) = none) : tacq s xa xb = (5, s) := by
  unfold tacq
  dsimp only
  rw [fld_byte7, fld_eq xa 32 24, if_neg (Nat.not_lt.2 hn), if_pos hsize, htile]

theorem tacq_release_bound (hsize : xa.toNat / 2 ^ 32 % 2 ^ 24 = 0) {e : Tile}
    (htile : (s.quad s.myQuad).tile? (xa.toNat / 2 ^ 56) = some e) : tacq s xa xb =
      if e.st = .filling ∨ e.st = .draining then (1, s) else (0, s.dropTile s.myQuad (xa.toNat / 2 ^ 56)) := by
  unfold tacq
  dsimp only
  rw [fld_byte7, fld_eq xa 32 24, if_neg (Nat.not_lt.2 hn), if_pos hsize, htile]

theorem tacq_bound (hsize : xa.toNat / 2 ^ 32 % 2 ^ 24 ≠ 0) (hbound : (s.quad s.myQuad).tile? (xa.toNat / 2 ^ 56) ≠ none) :
    tacq s xa xb = (1, s) := by
  unfold tacq
  dsimp only
  rw [fld_byte7, fld_eq xa 32 24, if_neg (Nat.not_lt.2 hn), if_neg hsize, if_pos (Option.isSome_iff_ne_none.2 hbound)]

/-- Of a free entry, tacq with a size looks at the region and then at the state asked for. -/
theorem tacq_bind (hsize : xa.toNat / 2 ^ 32 % 2 ^ 24 ≠ 0) (hfree : (s.quad s.myQuad).tile? (xa.toNat / 2 ^ 56) = none) :
    tacq s xa xb =
      if xa.toNat % 2 ^ 32 % 64 ≠ 0 ∨ xa.toNat / 2 ^ 32 % 2 ^ 24 % 64 ≠ 0 ∨ xa.toNat % 2 ^ 32 < (s.quad s.myQuad).xbound.toNat ∨
        capacity s.myLayer < xa.toNat % 2 ^ 32 + xa.toNat / 2 ^ 32 % 2 ^ 24 then (2, s)
      else if (s.quad s.myQuad).taken (xa.toNat % 2 ^ 32) (xa.toNat / 2 ^ 32 % 2 ^ 24) then (3, s)
      else if xb = 0 then
        (0, s.setTile s.myQuad (xa.toNat / 2 ^ 56) { off := xa.toNat % 2 ^ 32, size := xa.toNat / 2 ^ 32 % 2 ^ 24, st := .empty })
      else if xb = 2 then
        (0, s.setTile s.myQuad (xa.toNat / 2 ^ 56) { off := xa.toNat % 2 ^ 32, size := xa.toNat / 2 ^ 32 % 2 ^ 24, st := .ready })
      else (4, s) := by
  unfold tacq
  dsimp only
  rw [fld_byte7, fld_eq xa 32 24, fld_low, if_neg (Nat.not_lt.2 hn), if_neg hsize, hfree]
  rfl

end

/-- Settles O11: each clause by the branch of tacq that its hypotheses choose. -/
theorem tileAcquire : Obligations.TileAcquire := by
  intro s sb d a b hattempt hportable xa xb q n off sz overlap bad
  have hoverlap : q.taken off sz = true ↔ overlap := taken_iff q off sz
  refine ⟨_, tileChange_runs hattempt hportable _ a _, ?_⟩
  have gives {w : Word} (h : tacq s xa xb = (w, s)) : givesX s ((tacq s xa xb).2.writesX d (tacq s xa xb).1) d w := by
    rw [h]
    exact s.writesX_gives d w
  have changes {w : WaitOn} {f : Quad → Quad} (h : tacq s xa xb = (0, s.changeQuad w f)) :=
    s.changeQuad_writesX w f d 0 ((tacq s xa xb).2.writesX d (tacq s xa xb).1) (by rw [h])
  refine ⟨fun h => gives (tacq_outside xb h), fun hn hsize h => gives (tacq_release_unbound xb hn hsize h),
    fun hn hsize e h hst => gives ((tacq_release_bound xb hn hsize h).trans (if_pos hst)), fun hn hsize e h hst => ?_,
    fun hn hsize h => gives (tacq_bound xb hn hsize h), fun hn hsize hfree hbad => gives ?_, fun hn hsize hfree hbad hover => gives ?_,
    fun hn hsize hfree hbad hover hzero htwo => gives ?_, fun hn hsize hfree hbad hover hzero => ?_,
    fun hn hsize hfree hbad hover htwo => ?_⟩
  · have hnot : ¬ (e.st = .filling ∨ e.st = .draining) := by rcases hst with hst | hst <;> rw [hst] <;> decide
    exact changes (w := .tile n) (f := fun q => { q with tiles := q.tiles.drop n })
      ((tacq_release_bound xb hn hsize h).trans (if_neg hnot))
  · rw [tacq_bind xb hn hsize hfree]
    exact if_pos hbad
  · rw [tacq_bind xb hn hsize hfree]
    exact (if_neg hbad).trans (if_pos (hoverlap.2 hover))
  · rw [tacq_bind xb hn hsize hfree]
    exact (if_neg hbad).trans ((if_neg (mt hoverlap.1 hover)).trans ((if_neg hzero).trans (if_neg htwo)))
  · refine changes (w := .tile n) (f := fun q => { q with tiles := q.tiles.put n { off, size := sz, st := .empty } }) ?_
    rw [tacq_bind xb hn hsize hfree]
    exact (if_neg hbad).trans ((if_neg (mt hoverlap.1 hover)).trans (if_pos hzero))
  · refine changes (w := .tile n) (f := fun q => { q with tiles := q.tiles.put n { off, size := sz, st := .ready } }) ?_
    have hzero : xb ≠ 0 := by rw [htwo]; decide
    rw [tacq_bind xb hn hsize hfree]
    exact (if_neg hbad).trans ((if_neg (mt hoverlap.1 hover)).trans ((if_neg hzero).trans (if_pos htwo)))

end Sys2Proof.Machine
end

section
/-! The transitions of tiles, the moves of rings and the forms of both (07_local R164, R166, R168, R170 to R173, R175), and how rset binds a
ring. -/

namespace Sys2Proof.Machine

/-- With nothing pending an instruction that waits for earlier accesses goes on. -/
theorem State.afterOuts_performed {s : State} (houts : ∀ o ∈ s.me.outs, o.pending = false) (want : Out → Bool) (f : State → State) :
    s.afterOuts want f = f s :=
  State.afterOuts_unwanted (fun o ho hpending => absurd hpending (by rw [houts o ho]; exact Bool.false_ne_true)) f

/-! ### Transitions of a tile (R166, R168) -/

section
variable {s : State} (hattempt : s.me.attempt = none) (hportable : s.me.task.portable = false)
  (houts : ∀ o ∈ s.me.outs, o.pending = false)
include hattempt hportable houts

/-- An entry in the state awaited makes its transition. -/
theorem tileMove_changes {w : Word32} {a : BitVec 5} {from_ goal : TileState} {software release loads : Bool} {t : Tile}
    (htile : (s.quad s.myQuad).tile? ((s.me.getX a).toNat % 64) = some t) (hst : t.st = from_) (heng : (software && t.eng) = false) :
    ∃ u : State, tileMove w a from_ goal software release loads s = .next u ∧ changesQuad s u
      { s.quad s.myQuad with tiles := (s.quad s.myQuad).tiles.put ((s.me.getX a).toNat % 64) { t with st := goal, eng := false } } := by
  have hready : (t.st != from_ || software && t.eng) = false := by rw [hst, heng]; simp
  refine ⟨_, tileChange_runs hattempt hportable w a _, ?_⟩
  rw [fld_low, show (s.me.getX a).toNat % 2 ^ 6 = (s.me.getX a).toNat % 64 from rfl, htile]
  dsimp only
  rw [if_neg (by rw [hready]; exact Bool.false_ne_true), State.afterOuts_performed houts]
  exact s.changeQuad_step (.tile ((s.me.getX a).toNat % 64))
    (fun q => { q with tiles := q.tiles.put ((s.me.getX a).toNat % 64) { t with st := goal, eng := false } }) rfl

/-! ### Moves of a ring (R173) -/

theorem rpush_changes {sb : Bool} {a b : BitVec 5} {r : Ring} (hring : (s.quad s.myQuad).ring? ((s.me.getX a).toNat % 8) = some r)
    (hm : 0 < (s.me.getX b).toNat) (hres : r.res = 0) (hroom : r.occ + (s.me.getX b).toNat ≤ r.count) :
    ∃ u : State, exec (.rpush sb a b) s = .next u ∧ changesQuad s u
      { s.quad s.myQuad with
        rings := (s.quad s.myQuad).rings.put ((s.me.getX a).toNat % 8) { r with occ := r.occ + (s.me.getX b).toNat } } := by
  have hne : s.me.getX b ≠ 0 := fun h => by rw [h] at hm; exact absurd hm (by decide)
  refine ⟨_, tileChange_runs hattempt hportable _ a _, ?_⟩
  rw [fld_low, show (s.me.getX a).toNat % 2 ^ 3 = (s.me.getX a).toNat % 8 from rfl, hring]
  dsimp only
  rw [if_neg (by omega), if_neg hne, if_neg (by omega), State.afterOuts_performed houts]
  exact s.changeQuad_step (.ring ((s.me.getX a).toNat % 8))
    (fun q => { q with rings := q.rings.put ((s.me.getX a).toNat % 8) { r with occ := r.occ + (s.me.getX b).toNat } }) rfl

theorem rpop_changes {sb : Bool} {a : BitVec 5} {r : Ring} (hring : (s.quad s.myQuad).ring? ((s.me.getX a).toNat % 8) = some r)
    (hclm : r.clm = 0) (hocc : 1 ≤ r.occ) :
    ∃ u : State, exec (.rpop sb a) s = .next u ∧ changesQuad s u
      { s.quad s.myQuad with
        rings := (s.quad s.myQuad).rings.put ((s.me.getX a).toNat % 8) { r with head := (r.head + 1) % r.count, occ := r.occ - 1 } } := by
  refine ⟨_, tileChange_runs hattempt hportable _ a _, ?_⟩
  rw [fld_low, show (s.me.getX a).toNat % 2 ^ 3 = (s.me.getX a).toNat % 8 from rfl, hring]
  dsimp only
  rw [if_neg (by omega), State.afterOuts_performed houts]
  exact s.changeQuad_step (.ring ((s.me.getX a).toNat % 8))
    (fun q => { q with rings := q.rings.put ((s.me.getX a).toNat % 8) { r with head := (r.head + 1) % r.count, occ := r.occ - 1 } }) rfl

omit houts in
/-- A push of no slots does nothing. -/
theorem rpush_nothing {sb : Bool} {a b : BitVec 5} {r : Ring} (hring : (s.quad s.myQuad).ring? ((s.me.getX a).toNat % 8) = some r)
    (hm : (s.me.getX b).toNat = 0) : ∃ u : State, exec (.rpush sb a b) s = .next u ∧ givesNothing s u := by
  have hzero : s.me.getX b = 0 := BitVec.eq_of_toNat_eq hm
  refine ⟨_, tileChange_runs hattempt hportable _ a _, ?_⟩
  rw [fld_low, show (s.me.getX a).toNat % 2 ^ 3 = (s.me.getX a).toNat % 8 from rfl, hring]
  dsimp only
  rw [if_neg (by omega), if_pos hzero]
  exact s.moves_gives

end

/-! ### tstat and rstat (R164, R170, R171, R175) -/

section
variable {s : State} (hportable : s.me.task.portable = false) {sb : Bool} {d a : BitVec 5}
include hportable

/-- Does tstat not have to wait: WAIT is 0, or the entry is bound and in the state asked for? -/
def tstatMet (xa : Word) (tile : Option Tile) : Prop :=
  bitAt xa 8 = false ∨ ∃ t, tile = some t ∧ t.st.code = xa.toNat / 2 ^ 9 % 4

/-- Does rstat not have to wait: WAIT is 0, or the ring is bound and has room, or a slot, as asked for? -/
def rstatMet (xa : Word) (ring : Option Ring) : Prop :=
  bitAt xa 8 = false ∨ ∃ r, ring = some r ∧ if bitAt xa 9 then r.occ + r.res < r.count else r.clm < r.occ

theorem tstat_gives (h : tstatMet (s.me.getX a) ((s.quad s.myQuad).tile? ((s.me.getX a).toNat % 64))) :
    ∃ t : State, exec (.tstat sb d a) s = .next t ∧
      givesX s t d (tileForm ((s.quad s.myQuad).tile? ((s.me.getX a).toNat % 64))) := by
  refine ⟨_, ?_, s.writesX_gives d _⟩
  show execTstat sb d a s = _
  unfold execTstat
  dsimp only
  rw [unlessPortable_runs hportable]
  rw [fld_low, show (s.me.getX a).toNat % 2 ^ 6 = (s.me.getX a).toNat % 64 from rfl]
  refine if_neg fun hwaits => ?_
  obtain ⟨hwait, hnot⟩ := Bool.and_eq_true_iff.1 hwaits
  rcases h with hno | ⟨t, ht, hcode⟩
  · rw [hno] at hwait
    cases hwait
  · rw [ht] at hnot
    simp [fld_eq, hcode] at hnot

theorem rstat_gives (h : rstatMet (s.me.getX a) ((s.quad s.myQuad).ring? ((s.me.getX a).toNat % 8))) :
    ∃ t : State, exec (.rstat sb d a) s = .next t ∧
      givesX s t d (ringForm ((s.quad s.myQuad).ring? ((s.me.getX a).toNat % 8))) := by
  refine ⟨_, ?_, s.writesX_gives d _⟩
  show execRstat sb d a s = _
  unfold execRstat
  dsimp only
  rw [unlessPortable_runs hportable]
  rw [fld_low, show (s.me.getX a).toNat % 2 ^ 3 = (s.me.getX a).toNat % 8 from rfl]
  refine if_neg fun hwaits => ?_
  obtain ⟨hwait, hnot⟩ := Bool.and_eq_true_iff.1 hwaits
  rcases h with hno | ⟨r, hr, hmet⟩
  · rw [hno] at hwait
    cases hwait
  · rw [hr] at hnot
    split at hmet <;> simp_all

end

/-- Settles O12: the transitions and moves from the state that each waits for, the forms where the wait is met. -/
theorem tileAndRingMoves : Obligations.TileAndRingMoves := by
  constructor
  · intro s sb a b hattempt hportable houts q n i m becomes
    exact ⟨fun e htile hst => tileMove_changes hattempt hportable houts htile hst rfl,
      fun e htile hst => tileMove_changes hattempt hportable houts htile hst rfl,
      fun e htile hst heng => tileMove_changes hattempt hportable houts htile hst heng,
      fun r hring hm hres hroom => rpush_changes hattempt hportable houts hring hm hres hroom,
      fun r hring hm => rpush_nothing hattempt hportable hring hm,
      fun r hring hclm hocc => rpop_changes hattempt hportable houts hring hclm hocc⟩
  · intro s sb d a hportable xa q tile ring code tform rform tileMet ringMet
    have hcode (st : TileState) : code st = st.code := by cases st <;> rfl
    have htform : tileForm tile = BitVec.ofNat 64 tform := by
      show tileForm tile = BitVec.ofNat 64 (match tile with
        | none => 0
        | some e => e.size * 2 ^ 32 + e.off * 2 ^ 8 + (if e.eng then 2 ^ 3 else 0) + 2 ^ 2 + code e.st)
      cases tile with
      | none => rfl
      | some e =>
        dsimp only
        rw [hcode]
        rfl
    have hrform : ringForm ring = BitVec.ofNat 64 rform := by
      show ringForm ring = BitVec.ofNat 64 (match ring with
        | none => 0
        | some r => 2 ^ 63 + r.occ * 2 ^ 50 + (r.base + (r.head + r.occ) % r.count % r.count * r.size) * 2 ^ 22 +
            (r.base + r.head % r.count * r.size))
      cases ring <;> rfl
    refine ⟨fun hmet => ?_, fun hmet => ?_⟩
    · rw [← htform]
      exact tstat_gives hportable (hmet.imp_right fun ⟨e, he, hst⟩ => ⟨e, he, hcode e.st ▸ hst⟩)
    · rw [← hrform]
      exact rstat_gives hportable hmet

/-! ### rset (R172) -/

/-- The tests that a binding of ring `n` with `count` slots of `size` bytes from `base`, `occ` of them occupied, fails. -/
abbrev ringBad (s : State) (n base size count occ : Nat) : Prop :=
  ((s.quad s.myQuad).ring? n).isSome = true ∨ count < 2 ∨ 64 < count ∨ base % 64 ≠ 0 ∨ base < (s.quad s.myQuad).xbound.toNat ∨
    capacity s.myLayer < base + count * size ∨ (s.quad s.myQuad).taken base (count * size) = true ∨ count < occ

section
variable {s : State} {w : Word32} {xa xb : Word}

theorem rset_outside (h : 7 < xa.toNat / 2 ^ 56) : rset w s xa xb = s.trap cAccess xa := by
  unfold rset
  exact if_pos (fld_byte7 xa ▸ h)

/-- Where no operation holds a slot of the ring, rset releases it, or tests the binding and makes it. -/
theorem rset_idle (hn : xa.toNat / 2 ^ 56 ≤ 7)
    (hidle : ∀ r, (s.quad s.myQuad).ring? (xa.toNat / 2 ^ 56) = some r → r.res = 0 ∧ r.clm = 0) :
    rset w s xa xb =
      if 64 * (xa.toNat / 2 ^ 32 % 2 ^ 16) = 0 then
        (if ((s.quad s.myQuad).ring? (xa.toNat / 2 ^ 56)).isSome then s.dropRing s.myQuad (xa.toNat / 2 ^ 56) else s).step1 id
      else if ringBad s (xa.toNat / 2 ^ 56) (xa.toNat % 2 ^ 32) (64 * (xa.toNat / 2 ^ 32 % 2 ^ 16)) (xa.toNat / 2 ^ 48 % 2 ^ 8) xb.toNat
      then s.trap cAccess xa
      else (s.setRing s.myQuad (xa.toNat / 2 ^ 56)
        { base := xa.toNat % 2 ^ 32, size := 64 * (xa.toNat / 2 ^ 32 % 2 ^ 16), count := xa.toNat / 2 ^ 48 % 2 ^ 8, head := 0,
          occ := xb.toNat }).step1 id := by
  unfold rset
  dsimp only
  rw [fld_byte7, fld_eq xa 32 16, fld_eq xa 48 8, fld_low, if_neg (Nat.not_lt.2 hn)]
  refine (if_neg ?_).trans rfl
  split
  next r hr =>
    obtain ⟨hres, hclm⟩ := hidle r hr
    rw [hres, hclm]
    exact Bool.false_ne_true
  · exact Bool.false_ne_true

end

/-- Settles O13: each clause by the branch of rset that its hypotheses choose. -/
theorem ringSet : Obligations.RingSet := by
  intro s sb a b hattempt hportable xa xb q n base size count idle overlap bad faults
  have hexec : exec (.rset sb a b) s = .next (rset (Instr.rset sb a b).word s xa (s.me.getX b)) :=
    tileChange_runs hattempt hportable _ a _
  have hbad : ringBad s n base size count xb ↔ bad := by
    show _ ∨ _ ∨ _ ∨ _ ∨ _ ∨ _ ∨ _ ∨ _ ↔ _ ∨ _ ∨ _ ∨ _ ∨ _ ∨ _ ∨ _ ∨ _
    rw [taken_iff]
  have traps (htraps : takesTraps s.me) (h : rset (Instr.rset sb a b).word s xa (s.me.getX b) = s.trap cAccess xa) : faults :=
    ⟨_, hexec.trans (congrArg _ h), State.trap_enters s cAccess xa rfl htraps⟩
  refine ⟨fun htraps hn => traps htraps (rset_outside hn), fun htraps hn hidle hsize h => traps htraps ?_, fun hn hidle hsize h => ?_,
    fun hn hidle hsize hbound => ?_, fun hn hsize hfree => ?_⟩
  · rw [rset_idle hn hidle]
    exact (if_neg hsize).trans (if_pos (hbad.2 h))
  · refine ⟨_, hexec, ?_⟩
    rw [rset_idle hn hidle, if_neg hsize, if_neg (mt hbad.1 h)]
    exact s.changeQuad_step (.ring n)
      (fun q => { q with rings := q.rings.put n { base, size, count, head := 0, occ := xb, res := 0, clm := 0 } }) rfl
  · refine ⟨_, hexec, ?_⟩
    rw [rset_idle hn hidle, if_pos hsize, if_pos hbound]
    exact s.changeQuad_step (.ring n) (fun q => { q with rings := q.rings.drop n }) rfl
  · refine ⟨_, hexec, ?_⟩
    have hidle : idle := fun r hr => absurd (hfree.symm.trans hr) (by simp)
    have hunbound : ¬ ((s.quad s.myQuad).ring? (xa.toNat / 2 ^ 56)).isSome = true := by
      rw [show (s.quad s.myQuad).ring? (xa.toNat / 2 ^ 56) = none from hfree]
      exact Bool.false_ne_true
    rw [rset_idle hn hidle, if_pos hsize, if_neg hunbound]
    exact s.moves_gives

end Sys2Proof.Machine
end

section
/-! The results of loads (07_local R161, R162, R94): how RESULT_ARRIVAL binds a load, how a result is delivered, and the values that bytes
give. -/

namespace Sys2Proof.Machine

/-! ### What a read leaves alone (R176, R188) -/

/-- Every byte and every context is as before. -/
def onlyReads (s t : State) : Prop := sameMem s t ∧ t.ctxs = s.ctxs

theorem onlyReads.refl (s : State) : onlyReads s s := ⟨⟨fun _ => rfl, fun _ _ => rfl⟩, rfl⟩

theorem onlyReads.trans {s t u : State} (h : onlyReads s t) (g : onlyReads t u) : onlyReads s u :=
  ⟨⟨fun a => (g.1.1 a).trans (h.1.1 a), fun q a => (g.1.2 q a).trans (h.1.2 q a)⟩, g.2.trans h.2⟩

theorem onlyReads.foldl {α : Type} {f : State → α → State} (l : List α) (s : State) (hf : ∀ s a, onlyReads s (f s a)) :
    onlyReads s (l.foldl f s) :=
  List.foldlRecOn (motive := onlyReads s) l f (.refl s) fun _ ht a _ => ht.trans (hf _ a)

theorem onDie_onlyReads (s : State) (die : Nat) (f : Die → Die) : onlyReads s (s.onDie die f) :=
  ⟨⟨fun _ => rfl, fun _ _ => rfl⟩, rfl⟩

theorem powerUp_onlyReads (s : State) (quad bank : Nat) : onlyReads s (s.powerUp quad bank) := by
  refine ⟨⟨fun _ => rfl, fun q a => ?_⟩, rfl⟩
  unfold State.powerUp
  by_cases hq : q = quad
  · rw [hq, State.onQuad_quad_same]
  · rw [State.onQuad_quad_other _ _ hq]

/-- Copies of lines that are read change what a die's cache holds alone. -/
theorem fillCopies_onlyReads (s : State) (k : Nat) (rs : List Ref) : onlyReads s (s.fillCopies k rs) :=
  .foldl _ s fun s l => by
    split
    · exact .refl s
    · exact onDie_onlyReads s _ _

/-- Banks that a read powers up read as before. -/
theorem powerUps_onlyReads (s : State) (quad : Nat) (rs : List Ref) : onlyReads s (s.powerUps quad rs) := by
  unfold State.powerUps
  split
  · exact .refl s
  · refine .foldl _ s fun s r => ?_
    split
    · exact powerUp_onlyReads s quad _
    · exact .refl s

/-! ### A load is bound (R94, R162) -/

/-- What reading a load's bytes leaves of the machine. -/
def State.afterRead (s : State) (k : Nat) (rs : List Ref) (bypass : Bool) : State :=
  (if bypass then s else s.fillCopies k rs).powerUps (quadOf k) rs

theorem afterRead_onlyReads (s : State) (k : Nat) (rs : List Ref) (bypass : Bool) : onlyReads s (s.afterRead k rs bypass) := by
  refine .trans ?_ (powerUps_onlyReads _ (quadOf k) rs)
  split
  · exact .refl s
  · exact fillCopies_onlyReads s k rs

/-- The bytes that a load of the context reads now: memory's, under the context's own earlier stores. -/
def State.loadedBytes (s : State) (k seq : Nat) (bypass : Bool) (rs : List Ref) : List Byte :=
  rs.map fun r => overlay ((s.ctx k).earlierCells seq) r (s.readByte (quadOf k) bypass r)

/-- A load of which nothing is bound yet reads every byte now. -/
theorem loadByte_of_unbound {s : State} {k : Nat} {o : Out} (hbound : o.bound = []) (nc : Bool) (rs : List Ref) :
    rs.zipIdx.map (s.loadByte k o ((s.ctx k).earlierCells o.seq) nc) = s.loadedBytes k o.seq (nc || o.acq) rs := by
  have hbyte : s.loadByte k o ((s.ctx k).earlierCells o.seq) nc =
      (fun r => overlay ((s.ctx k).earlierCells o.seq) r (s.readByte (quadOf k) (nc || o.acq) r)) ∘ Prod.fst := by
    funext e
    unfold State.loadByte
    rw [hbound]
    rfl
  rw [hbyte, ← List.map_map, List.zipIdx_map_fst]
  rfl

theorem perform_load {s : State} {k : Nat} {o : Out} {rs : List Ref} {fin : LoadFin} {nc : Bool} (hop : o.op = .load rs fin nc)
    (hbound : o.bound = []) : s.perform k o = ((s.afterRead k rs (nc || o.acq)).answer k o.seq
      { writes := fin.writes (s.loadedBytes k o.seq (nc || o.acq) rs) }, true) := by
  unfold State.perform
  rw [hop]
  dsimp only
  rw [loadByte_of_unbound hbound]
  rfl

/-- A change that keeps an access's number is seen at that number. -/
theorem Ctx.onOut_out {c : Ctx} {seq : Nat} {o : Out} {f : Out → Out} (h : c.out seq = some o) (hf : ∀ p, (f p).seq = p.seq) :
    (c.onOut seq f).out seq = some (f o) := by
  have hseq := seq_of_out h
  have hsame : ((fun p : Out => p.seq == seq) ∘ fun p => if p.seq = seq then f p else p) = fun p => p.seq == seq := by
    funext p
    dsimp only [Function.comp]
    split
    · rw [hf]
    · rfl
  show (c.outs.map fun p => if p.seq = seq then f p else p).find? (fun p => p.seq == seq) = _
  rw [List.find?_map, hsame, show c.outs.find? (fun p => p.seq == seq) = some o from h, Option.map_some, if_pos hseq]

section
variable {s : State} {k seq : Nat} {o : Out} (hev : s.ev = [k, seq]) (hout : (s.ctx k).out seq = some o)
include hev hout

/-- The step of a result whose value is not known yet. -/
theorem resultArrival_binds (hans : o.ans = none) (hread : o.op.isRead = true) (hhalted : (s.ctx k).halted = false)
    (hmay : (s.ctx k).mayPerform o = true) : exec .resultArrival s = .next ((s.perform k o).1.endIfDone k) := by
  have harg : s.arg 0 = k := by rw [State.arg, hev]; rfl
  have harg' : s.arg 1 = seq := by rw [State.arg, hev]; rfl
  have hwhole : s.arg 2 = 0 := by rw [State.arg, hev]; rfl
  have hpending : o.pending = true := by rw [Out.pending, hans]; rfl
  show execResultArrival s = _
  unfold execResultArrival
  dsimp only
  rw [harg, harg', hout]
  dsimp only
  rw [hhalted, hpending, hread, hmay, hwhole]
  rfl

/-- The step of a result that is known. -/
theorem resultArrival_delivers {a : Ans} (hans : o.ans = some a) (hheld : o.held = false)
    (hhalted : (s.ctx k).halted = false ∨ o.pure = false) :
    exec .resultArrival s = .next ((s.onCtx k fun c => c.deliver o).endIfDone k) := by
  have harg : s.arg 0 = k := by rw [State.arg, hev]; rfl
  have harg' : s.arg 1 = seq := by rw [State.arg, hev]; rfl
  have hpure : ((s.ctx k).halted && o.pure) = false := Bool.and_eq_false_iff.2 hhalted
  have hpending : o.pending = false := by rw [Out.pending, hans]; rfl
  show execResultArrival s = _
  unfold execResultArrival
  dsimp only
  rw [harg, harg', hout]
  dsimp only
  rw [hpure, hpending, hheld]
  rfl

end

/-! ### A result is delivered (R73, R94) -/

theorem Ctx.poke_later (c : Ctx) (w : RegWrite) (l : List Standing) : ({ c with later := l } : Ctx).poke w = { c.poke w with later := l } := by
  cases w with
  | x d v =>
    by_cases hd : d = 0
    · rw [hd, Ctx.poke_x_zero, Ctx.poke_x_zero]
    · rw [Ctx.poke_x _ v hd, Ctx.poke_x c v hd]
  | v d v => rfl

/-- Where no value stands behind a result, one that arrives is written, and stands behind an earlier result for its register. -/
theorem Ctx.arrive_of_no_later {c : Ctx} (h : c.later = []) (seq : Nat) (w : RegWrite) :
    Ctx.arrive seq c w = { c.poke w with
      later := if c.outs.any fun p => decide (p.seq < seq) && p.dsts.contains w.dst then [{ by_ := seq, w }] else [] } := by
  have hnone : ¬ (c.later.any fun l => l.w.dst == w.dst && decide (seq < l.by_)) = true := by
    rw [h]
    exact Bool.false_ne_true
  refine (if_neg hnone).trans ?_
  dsimp only
  rw [h, List.filter_nil]
  split
  · exact c.poke_later w _
  · exact c.poke_later w _

/-- The access that leaves is not one of those before itself. -/
theorem any_earlier_dropOut (c : Ctx) (seq : Nat) (d : Dst) :
    ((c.dropOut seq).outs.any fun p => decide (p.seq < seq) && p.dsts.contains d) =
      c.outs.any fun p => decide (p.seq < seq) && p.dsts.contains d := by
  show (c.outs.filter fun p => p.seq != seq).any _ = _
  rw [List.any_filter]
  congr 1
  funext p
  by_cases h : p.seq = seq
  · simp [h]
  · simp [h]

theorem Ctx.deliver_x {c : Ctx} {o : Out} {d : BitVec 5} {w : Word} (hans : o.ans = some { writes := [.x d w] }) (hlater : c.later = []) :
    c.deliver o = { (c.dropOut o.seq).poke (.x d w) with
      buffer := c.buffer ++ [{ at_ := c.trail.length, seq := o.seq, dsts := o.dsts, ans := { writes := [.x d w] } }]
      later := if c.outs.any fun p => decide (p.seq < o.seq) && p.dsts.contains (.x d) then [{ by_ := o.seq, w := .x d w }] else [] } := by
  unfold Ctx.deliver
  rw [hans]
  dsimp only [List.foldl]
  rw [Ctx.arrive_of_no_later (show (c.dropOut o.seq).later = [] from hlater), any_earlier_dropOut, Ctx.poke_frame]
  rfl

/-! ### The values that bytes give (R161) -/

theorem sext_toInt {v n : Nat} (hpos : 0 < n) (hn : n ≤ 64) (hv : v < 2 ^ n) :
    (sext v n).toInt = if v < 2 ^ (n - 1) then (v : Int) else v - 2 ^ n := by
  have hhalf : 2 ^ n = 2 * 2 ^ (n - 1) := by rw [← Nat.pow_succ', Nat.succ_eq_add_one, Nat.sub_add_cancel hpos]
  have hword : 2 ^ n ≤ 2 ^ 64 := Nat.pow_le_pow_right (by decide) hn
  have hcast : ((2 : Int) ^ n) = ((2 ^ n : Nat) : Int) := by push_cast; rfl
  unfold sext
  dsimp only
  rw [Nat.mod_eq_of_lt hv, hcast]
  generalize 2 ^ n = N at *
  generalize 2 ^ (n - 1) = H at *
  split <;> rw [BitVec.toInt_eq_toNat_cond, BitVec.toNat_ofNat] <;> split <;> split <;> omega

theorem word_toNat {v : Nat} (h : v < 2 ^ 64) : (word v).toNat = v := (BitVec.toNat_ofNat ..).trans (Nat.mod_eq_of_lt h)

section
variable {d : BitVec 5} {bs : List Byte}

theorem writes_signed (hlen : bs.length ≤ 8) (hne : bs ≠ []) : ∃ w : Word, LoadFin.writes (.scalar d true) bs = [.x d w] ∧
    w.toInt = if natOfBytes bs < 2 ^ (8 * bs.length - 1) then (natOfBytes bs : Int) else natOfBytes bs - 2 ^ (8 * bs.length) := by
  have hpos : 0 < bs.length := List.length_pos_iff.2 hne
  have hlt : natOfBytes bs < 2 ^ (8 * bs.length) := by
    rw [Nat.pow_mul]
    exact natOfBytes_lt bs
  exact ⟨_, rfl, sext_toInt (by omega) (by omega) hlt⟩

theorem writes_pair (hlen : bs.length = 16) : ∃ lo hi : Word, LoadFin.writes (.pair d) bs = [.x d lo, .x (d + 1) hi] ∧
    lo.toNat + 2 ^ 64 * hi.toNat = natOfBytes bs := by
  have hlow : (bs.take 8).length = 8 := by rw [List.length_take, hlen]; rfl
  have hhigh : (bs.drop 8).length = 8 := by rw [List.length_drop, hlen]
  have dword (l : List Byte) (hl : l.length = 8) : (word (natOfBytes l)).toNat = natOfBytes l :=
    word_toNat ((natOfBytes_lt l).trans_eq (by rw [hl]; rfl))
  refine ⟨_, _, rfl, ?_⟩
  rw [dword _ hlow, dword _ hhigh]
  calc natOfBytes (bs.take 8) + 2 ^ 64 * natOfBytes (bs.drop 8)
      = natOfBytes (bs.take 8) + 256 ^ (bs.take 8).length * natOfBytes (bs.drop 8) := by rw [hlow]; rfl
    _ = natOfBytes (bs.take 8 ++ bs.drop 8) := (natOfBytes_append _ _).symm
    _ = natOfBytes bs := by rw [List.take_append_drop]

theorem natOfBytes_byte {j : Nat} (h : j < bs.length) : natOfBytes bs / 256 ^ j % 256 = (bs.getD j 0).toNat := by
  have hbyte := bs[j].isLt
  rw [natOfBytes_div, List.drop_eq_getElem_cons h, natOfBytes, List.getD_eq_getElem _ _ h]
  omega

end

/-- Settles O9: a load is bound by its read and answered, a known result is delivered, and each form's value is that of its bytes. -/
theorem loadResults : Obligations.LoadResults := by
  refine ⟨fun s k seq o hev hout hstatus => ⟨fun rs fin nc hop hans hbound hhalted hmay => ?_, fun d w hans hheld hhalted hlater => ?_⟩,
    fun d bs => ⟨fun hlen hne => ⟨rfl, writes_signed hlen hne⟩, writes_pair, fun j => natOfBytes_byte⟩⟩
  · have hexec := resultArrival_binds hev hout hans (by rw [hop]; rfl) hhalted hmay
    rw [perform_load hop hbound, seq_of_out hout] at hexec
    dsimp only at hexec
    obtain ⟨hmem, hctxs⟩ := afterRead_onlyReads s k rs (nc || o.acq)
    have hctx (j : Nat) : (s.afterRead k rs (nc || o.acq)).ctx j = s.ctx j := by rw [State.ctx, hctxs]; rfl
    have hme (a : Ans) :
        ((s.afterRead k rs (nc || o.acq)).answer k seq a).ctx k = (s.ctx k).onOut seq fun o => { o with ans := some a } := by
      rw [State.answer, State.onCtx_ctx_same, hctx]
    rw [endIfDone_of_not_ending (by rw [hme]; exact hstatus)] at hexec
    refine ⟨_, hexec, hmem, fun j hj => ?_, ?_, ?_⟩
    · rw [State.answer, State.onCtx_ctx_other _ _ hj, hctx]
    · rw [hme]
      rfl
    · rw [hme]
      exact Ctx.onOut_out hout fun _ => rfl
  · have hexec := resultArrival_delivers hev hout hans hheld hhalted
    have hseq := seq_of_out hout
    have hme : (s.onCtx k fun c => c.deliver o).ctx k = _ := (State.onCtx_ctx_same s k _).trans (Ctx.deliver_x hans hlater)
    have hframe : ((s.ctx k).dropOut o.seq).poke (.x d w) = _ := Ctx.poke_frame _ _
    rw [endIfDone_of_not_ending (by rw [hme, hframe]; exact hstatus)] at hexec
    refine ⟨_, hexec, rfl, fun j hj => State.onCtx_ctx_other _ _ hj, fun hd => ?_, fun r hr => ?_, ?_⟩
    · rw [hme]
      exact Ctx.getX_poke_same ((s.ctx k).dropOut o.seq) w hd
    · rw [hme]
      exact Ctx.getX_poke_other ((s.ctx k).dropOut o.seq) w hr
    · rw [hme, hframe, hseq]
      rfl

end Sys2Proof.Machine
end

section
/-! Fences, prefetches, cache and placement hints (08_global R193, R197, R199, R200): how a fence performs the access that it waits for, and
what prefetches, hints and cache instructions leave of a die. -/

namespace Sys2Proof.Machine

/-! ### A write leaves its writer where it was (R186, R303, R307, R310) -/

/-- Of a context of the number nothing differs but what it hears of a write, and its accesses keep their numbers. -/
def hearsOnly (k : Nat) (s t : State) : Prop :=
  onlyHears (s.ctx k) (t.ctx k) ∧ (t.ctx k).outs.map (·.seq) = (s.ctx k).outs.map (·.seq)

theorem hearsOnly.trans {k : Nat} {s t u : State} (h : hearsOnly k s t) (g : hearsOnly k t u) : hearsOnly k s u :=
  ⟨h.1.trans g.1, g.2.trans h.2⟩

theorem hearsOnly_of_ctx {k : Nat} {s t : State} (h : t.ctx k = s.ctx k) : hearsOnly k s t := by
  rw [hearsOnly, h]
  exact ⟨.refl _, rfl⟩

theorem hearsOnly_of_ctxs {k : Nat} {s t : State} (h : t.ctxs = s.ctxs) : hearsOnly k s t :=
  hearsOnly_of_ctx (by rw [State.ctx, State.ctx, h])

theorem hearsOnly.foldl {α : Type} {k : Nat} {f : State → α → State} (l : List α) (s : State)
    (hf : ∀ a ∈ l, ∀ s, hearsOnly k s (f s a)) : hearsOnly k s (l.foldl f s) :=
  List.foldlRecOn (motive := hearsOnly k s) l f (hearsOnly_of_ctx rfl) fun t ht a ha => ht.trans (hf a ha t)

theorem conflicts_hearsOnly (k : Nat) (s : State) (lines : List Nat) :
    hearsOnly k s (lines.foldl (fun s l => (s.conflictsWith (some k) l).foldl State.conflictAbort (s.markUnprot (some k) l)) s) := by
  refine .foldl lines s fun l _ s => .trans (t := s.markUnprot (some k) l) (hearsOnly_of_ctx ?_) (.foldl _ _ fun j hj t => ?_)
  · rw [ctx_of_mapVals (markUnprot_ctxs ..) (if_pos rfl), if_pos rfl]
  · exact hearsOnly_of_ctx (conflictAbort_ctx_other t (ne_of_mem_conflictsWith hj))

theorem spring_hearsOnly (k : Nat) (s : State) (home : Option Nat) (line : Nat) : hearsOnly k s (s.spring (some k) home line) := by
  unfold State.spring State.springIn
  dsimp only
  refine .trans ?_ (.foldl _ _ fun j hj s => ?_)
  · refine .trans (hearsOnly_of_ctxs rfl) (.foldl _ _ fun j _ s => ?_)
    by_cases hjk : k = j
    · subst hjk
      rw [hearsOnly, State.onCtx_ctx_same]
      exact ⟨⟨rfl, rfl⟩, rfl⟩
    · exact hearsOnly_of_ctx (State.onCtx_ctx_other _ _ hjk)
  · split
    · refine hearsOnly_of_ctx (conflictAbort_ctx_other s fun hk => ?_)
      obtain ⟨e, -, he⟩ := List.mem_flatMap.1 hj
      split at he
      · simp [hk] at he
      · cases he
    · exact hearsOnly_of_ctx rfl

theorem Out.retest_seq (lines : List Nat) (value : Nat → Word) (o : Out) : (o.retest lines value).seq = o.seq := by
  unfold Out.retest
  split
  · split <;> rfl
  · rfl

theorem retestWaits_hearsOnly (k : Nat) (s : State) (lines : List Nat) : hearsOnly k s (s.retestWaits lines) := by
  rw [hearsOnly, ctx_of_mapVals (retestWaits_ctxs ..) rfl]
  split
  · exact ⟨.refl _, rfl⟩
  · refine ⟨⟨rfl, ?_⟩, ?_⟩ <;> rw [List.map_map]
    · exact List.map_congr_left fun o _ => Out.retest_dsts ..
    · exact List.map_congr_left fun o _ => Out.retest_seq ..

theorem lwrite_hearsOnly (k : Nat) (s : State) (quad : Nat) (cells : List (Nat × Byte)) : hearsOnly k s (s.lwrite (some k) quad cells) := by
  unfold State.lwrite
  dsimp only
  refine .trans ?_ (.foldl _ _ fun l _ s => spring_hearsOnly k s _ l)
  exact .trans (hearsOnly_of_ctxs rfl) (conflicts_hearsOnly k _ _)

theorem gwrite_hearsOnly (k : Nat) (s : State) (die : Nat) (home : Nat → Option Nat) (cells : List (Nat × Byte)) :
    hearsOnly k s (s.gwrite (some k) die home cells) := by
  unfold State.gwrite State.gwriteQuiet
  dsimp only
  refine .trans ?_ (.foldl _ _ fun w _ s => hearsOnly_of_ctxs (testTriggers_ctxs s _))
  refine .trans ?_ (retestWaits_hearsOnly k _ _)
  refine .trans ?_ (.foldl _ _ fun l _ s => spring_hearsOnly k s _ l)
  refine .trans ?_ (conflicts_hearsOnly k _ _)
  exact hearsOnly_of_ctxs (updateCopies_ctxs ..)

section
variable (s : State) (k : Nat) (cs : List (Ref × Byte))

theorem writeLocal_hearsOnly : hearsOnly k s (s.writeLocal k cs) := by
  unfold State.writeLocal
  split
  · exact hearsOnly_of_ctx rfl
  · exact lwrite_hearsOnly ..

theorem writeCells_hearsOnly : hearsOnly k s (s.writeCells k cs) := by
  rw [writeCells_eq]
  split
  · exact writeLocal_hearsOnly s k cs
  · exact (writeLocal_hearsOnly s k cs).trans (gwrite_hearsOnly ..)

theorem besides.cur {s t : State} (h : besides s t) : t.cur = s.cur := by rw [h]

/-- A write is made within the turn of its writer. -/
theorem writeCells_keeps_cur : (s.writeCells k cs).cur = s.cur := by
  have hlocal : (s.writeLocal k cs).cur = s.cur := by
    unfold State.writeLocal
    split
    · rfl
    · exact (State.lwrite_besides ..).cur
  rw [writeCells_eq]
  split
  · exact hlocal
  · exact (State.gwrite_besides ..).cur.trans hlocal

end

/-! ### A fence performs the access that it waits for (R197) -/

/-- With one access outstanding that a test wants, it is performed. -/
theorem State.require_one {s : State} {k : Nat} {o : Out} {want : Out → Bool} (houts : (s.ctx k).outs = [o]) (hans : o.ans = none)
    (hwant : want o = true) : s.require k want = s.perform k o := by
  have hneeded : neededOuts want [o] = [o] := by simp [neededOuts, Out.pending, hans, hwant]
  rw [State.require, houts, hneeded]
  rcases hperform : s.perform k o with ⟨t, _ | _⟩ <;> simp only [State.performList, hperform]

theorem Out.fenced_store {s : State} {k : Nat} {sc : Scope} {o : Out} {cells : List (Ref × Byte)} (hop : o.op = .store cells)
    (h : (cells.any fun c => homeIn s k sc c.1) = true) : o.fenced s k sc = true := by
  have hrefs : o.refs = cells.map (·.1) := by rw [Out.refs, hop]
  rw [Out.fenced, hrefs, List.any_map]
  exact Bool.or_eq_true_iff.2 (.inr h)

theorem Out.fenced_load {s : State} {k : Nat} {sc : Scope} {o : Out} {rs : List Ref} {fin : LoadFin} {nc : Bool}
    (hop : o.op = .load rs fin nc) : o.fenced s k sc = true := by
  rw [Out.fenced, Out.binds, hop]
  rfl

theorem perform_store_held {s : State} {k : Nat} {o : Out} {cells : List (Ref × Byte)} (hop : o.op = .store cells)
    (h : s.mayWriteCells k cells = false) : s.perform k o = (s, false) := by
  unfold State.perform
  rw [hop]
  dsimp only
  rw [h]
  rfl

/-- A load is answered, whatever of it is bound already. -/
theorem perform_load_answers {s : State} {k : Nat} {o : Out} {rs : List Ref} {fin : LoadFin} {nc : Bool} (hop : o.op = .load rs fin nc) :
    ∃ a, s.perform k o = ((s.afterRead k rs (nc || o.acq)).answer k o.seq a, true) := by
  refine ⟨{ writes := fin.writes (rs.zipIdx.map (s.loadByte k o ((s.ctx k).earlierCells o.seq) nc)) }, ?_⟩
  unfold State.perform
  rw [hop]
  rfl

theorem fillCopies_cur (s : State) (k : Nat) (rs : List Ref) : (s.fillCopies k rs).cur = s.cur :=
  List.foldlRecOn (motive := fun t : State => t.cur = s.cur) _ _ rfl fun t ht l _ => by
    split
    · exact ht
    · exact ht

theorem powerUps_cur (s : State) (quad : Nat) (rs : List Ref) : (s.powerUps quad rs).cur = s.cur := by
  unfold State.powerUps
  split
  · rfl
  · refine List.foldlRecOn (motive := fun t : State => t.cur = s.cur) rs _ rfl fun t ht r _ => ?_
    split
    · exact ht
    · exact ht

theorem afterRead_cur (s : State) (k : Nat) (rs : List Ref) (bypass : Bool) : (s.afterRead k rs bypass).cur = s.cur := by
  rw [State.afterRead, powerUps_cur]
  split
  · rfl
  · exact fillCopies_cur s k rs

/-- A context that goes on, having heard of a write, completes with the registers that it had. -/
theorem Ctx.advance_completes {c e : Ctx} (h : e = { c with outs := e.outs, wake := e.wake, jacks := e.jacks }) :
    sameRegs c e.advance ∧ goesOn c e.advance := by
  refine ⟨?_, fun h0 h1 => ?_⟩
  · rw [sameRegs, Ctx.advance_regs, Ctx.advance_later, Ctx.advance_free, h]
    exact ⟨rfl, rfl, rfl⟩
  · have hmoves := Ctx.advance_pc e (by rw [h]; exact h0) (by rw [h]; exact h1)
    rw [h] at hmoves ⊢
    exact hmoves

section
variable {s : State} {sc : Scope} {o : Out}

/-- With nothing pending that it waits for, a fence completes. -/
theorem fence_idle (h : ∀ o ∈ s.me.outs, o.pending = true → o.binds = false ∧ o.refs.any (homeIn s s.cur sc) = false) :
    fence sc s = .next (s.step1 id) :=
  congrArg _ (State.afterOuts_unwanted (fun o ho hpending => Bool.or_eq_false_iff.2 (h o ho hpending)) _)

variable (houts : s.me.outs = [o]) (hans : o.ans = none)
include houts hans

/-- A fence that waits for one access performs it, and goes on where it is performed. -/
theorem fence_one (hwant : o.fenced s s.cur sc = true) {t : State} {done : Bool} (h : s.perform s.cur o = (t, done)) :
    fence sc s = .next (if done then t.step1 id else t.onMe Ctx.again) := by
  rw [fence, State.afterOuts, State.require_one houts hans hwant, h]
  cases done <;> rfl

theorem fence_store {cells : List (Ref × Byte)} (hop : o.op = .store cells)
    (hhome : (cells.any fun c => homeIn s s.cur sc c.1) = true) (hmay : s.mayWriteCells s.cur cells = true) :
    ∃ t : State, fence sc s = .next t ∧ writesCells s t s.cur (s.served cells) ∧ t.me.outs = [] ∧ sameRegs s.me t.me ∧
      goesOn s.me t.me := by
  obtain ⟨⟨hframe, -⟩, hseqs⟩ := writeCells_hearsOnly s s.cur (s.served cells)
  have hcur := writeCells_keeps_cur s s.cur (s.served cells)
  refine ⟨_, fence_one houts hans (Out.fenced_store hop hhome) (perform_store hop hmay), writeCells_writes s s.cur _, ?_⟩
  rw [if_pos rfl, State.step1_me, State.me, State.onCtx_cur, hcur, State.onCtx_ctx_same, id, Ctx.advance_outs]
  have hcompletes := Ctx.advance_completes (c := s.me) (e := ((s.writeCells s.cur (s.served cells)).ctx s.cur).dropOut o.seq)
    (congrArg (·.dropOut o.seq) hframe)
  refine ⟨List.filter_eq_nil_iff.2 fun p hp => ?_, hcompletes⟩
  have hseq : p.seq ∈ s.me.outs.map (·.seq) := hseqs ▸ List.mem_map_of_mem hp
  rw [houts, List.map_singleton, List.mem_singleton] at hseq
  rw [hseq]
  simp

theorem fence_store_held {cells : List (Ref × Byte)} (hop : o.op = .store cells)
    (hhome : (cells.any fun c => homeIn s s.cur sc c.1) = true) (hmay : s.mayWriteCells s.cur cells = false) :
    ∃ t : State, fence sc s = .next t ∧ sameMem s t ∧ t.me.outs = [o] ∧ sameRegs s.me t.me ∧ t.me.pc = s.me.pc := by
  refine ⟨_, fence_one houts hans (Out.fenced_store hop hhome) (perform_store_held hop hmay), (State.onMe_onlyMe s _).2.2, ?_⟩
  rw [if_neg Bool.false_ne_true, State.onMe_me]
  exact ⟨houts, ⟨rfl, rfl, rfl⟩, rfl⟩

theorem fence_load {rs : List Ref} {fin : LoadFin} {nc : Bool} (hop : o.op = .load rs fin nc) :
    ∃ (t : State) (a : Ans), fence sc s = .next t ∧ t.me.outs = [{ o with ans := some a }] ∧ sameMem s t ∧ sameRegs s.me t.me ∧
      goesOn s.me t.me := by
  obtain ⟨a, hperform⟩ := perform_load_answers (s := s) (k := s.cur) hop
  obtain ⟨hmem, hctxs⟩ := afterRead_onlyReads s s.cur rs (nc || o.acq)
  have hctx : (s.afterRead s.cur rs (nc || o.acq)).ctx s.cur = s.me := by rw [State.ctx, hctxs]; rfl
  refine ⟨_, a, fence_one houts hans (Out.fenced_load hop) hperform, ?_⟩
  rw [if_pos rfl, State.step1_me, State.answer, State.me, State.onCtx_cur, afterRead_cur, State.onCtx_ctx_same, hctx, id, Ctx.advance_outs]
  refine ⟨?_, hmem, Ctx.advance_completes rfl⟩
  rw [Ctx.onOut, houts, List.map_singleton, if_pos rfl]

end

/-! ### What prefetches, hints and cache instructions leave (R193, R199, R200) -/

/-- Nothing differs but one die. -/
def onlyDie (D : Nat) (s t : State) : Prop := t = { s with dies := t.dies } ∧ ∀ j, j ≠ D → t.die j = s.die j

theorem onlyDie.refl (D : Nat) (s : State) : onlyDie D s s := ⟨rfl, fun _ _ => rfl⟩

theorem onDie_onlyDie (s : State) (D : Nat) (f : Die → Die) : onlyDie D s (s.onDie D f) := ⟨rfl, fun _ h => State.onDie_die_other s f h⟩

/-- An instruction whose check has made `s'` of `s` completes with a change to one die alone. -/
def changesDie (D : Nat) (s s' t : State) : Prop :=
  sameMem s t ∧ t = { s' with ctxs := t.ctxs, dies := t.dies } ∧ (∀ k, k ≠ s.cur → t.ctx k = s.ctx k) ∧
    (∀ j, j ≠ D → t.die j = s.die j) ∧ onlyRegs s.me t.me ∧ sameRegs s.me t.me ∧ goesOn s.me t.me

/-- What changes one die alone, and then lets the context go on. -/
theorem onlyDie.moves {D : Nat} {s s' t : State} (htlb : onlyTlb s s') (h : onlyDie D s' t) : changesDie D s s' (t.step1 id) := by
  obtain ⟨hframe, hdies⟩ := h
  have hdie (j : Nat) : s'.die j = s.die j := by rw [htlb.1]; rfl
  have hsame : ∀ j, j ≠ D → (t.step1 id).die j = s.die j := fun j hj => (hdies j hj).trans (hdie j)
  generalize t.dies = dies at hframe
  subst hframe
  obtain ⟨⟨honly, hothers, hmem⟩, hcompletes⟩ := State.moves_gives { s' with dies := dies }
  rw [changesDie, ← htlb.me]
  exact ⟨htlb.sameMem.trans hmem, honly, fun k hk => (hothers k (htlb.cur ▸ hk)).trans (htlb.ctx k), hsame, hcompletes⟩

/-! ### Prefetches (R199) -/

theorem Map.has_put {α : Type} (m : Map α) (k : Nat) (v : α) : (m.put k v).has k = true := by
  induction m with
  | nil => simp [Map.put, Map.has]
  | cons e m ih =>
    rw [Map.put]
    split
    · simp [Map.has]
    · split
      · simp [Map.has]
      · exact Bool.or_eq_true_iff.2 (.inr ih)

/-- A copy that is put into a cache is in it, full or not. -/
theorem rdcPut_has (m : Map (List Byte)) (line : Nat) (bs : List Byte) : (rdcPut m line bs).has line = true := by
  rw [rdcPut]
  split <;> exact Map.has_put ..

/-- The copy that a read of one byte brings in. -/
theorem fillCopies_one {s : State} {k : Nat} {r : Ref} : s.fillCopies k [r] =
    if !r.isLocal && r.pc1 then
      if (s.die (quadDie (quadOf k))).rdc.has (r.addr / 128) || s.poisonLine (r.addr / 128) then s
      else s.onDie (quadDie (quadOf k)) fun d => { d with rdc := rdcPut d.rdc (r.addr / 128) (s.gread (128 * (r.addr / 128)) 128) }
    else s := by
  rw [State.fillCopies, List.filterMap_cons]
  cases (!r.isLocal && r.pc1) <;> rfl

theorem fillCopies_one_onlyDie (s : State) (k : Nat) (r : Ref) : onlyDie (quadDie (quadOf k)) s (s.fillCopies k [r]) := by
  rw [fillCopies_one]
  split
  · split
    · exact .refl _ s
    · exact onDie_onlyDie ..
  · exact .refl _ s

theorem fillCopies_one_has {s : State} {k : Nat} {r : Ref} (hglobal : r.isLocal = false) (hpc1 : r.pc1 = true)
    (hclean : s.poisonLine (r.addr / 128) = false) :
    ((s.fillCopies k [r]).die (quadDie (quadOf k))).rdc.has (r.addr / 128) = true := by
  have hwanted : (!r.isLocal && r.pc1) = true := by rw [hglobal, hpc1]; rfl
  rw [fillCopies_one, if_pos hwanted, hclean, Bool.or_false]
  split
  next h => exact h
  next => rw [State.onDie_die_same]; exact rdcPut_has ..

/-- The die of the context whose turn it is, whose copies and hints its instructions act on. -/
abbrev State.myDie (s : State) : Nat := quadDie s.myQuad

/-- The byte of a page that the address in a register names. -/
abbrev State.pageByte (s : State) (a : BitVec 5) (p : Tlb) : Ref := s.pageRef p (s.me.getX a).toNat

/-- A prefetch completes, and a readable PC = 1 line without poison that the quad's TLB translates is in the die's cache then. -/
theorem prefetch_fetches (s : State) (a : BitVec 5) : ∃ t : State, prefetch a s = .next t ∧ changesDie s.myDie s s t ∧
    ∀ p, tlbHit s s.cur (s.me.getX a) = some p → p.r = true → (s.pageByte a p).pc1 = true →
      s.poisonLine ((s.pageByte a p).addr / 128) = false → (t.die s.myDie).rdc.has ((s.pageByte a p).addr / 128) = true := by
  refine ⟨_, rfl, onlyDie.moves (.refl s) ?_, fun p hhit hread hpc1 hclean => ?_⟩
  · split
    · split
      · exact fillCopies_one_onlyDie ..
      · exact .refl _ s
    · exact .refl _ s
  · rw [hhit]
    dsimp only
    rw [if_pos hread]
    exact fillCopies_one_has rfl hpc1 hclean

/-! ### Placement hints (R193) -/

section
variable (d : Die) (block part : Nat) (full : Bool)

theorem Die.hint_cold : d.hint 0 block part full = { d with hints := d.hints.drop block } := rfl

theorem Die.hint_clear : d.hint 3 block part full =
    { d with hints := d.hints.drop block, promoted := d.promoted.filter (· != block) } := rfl

theorem Die.hint_keep : d.hint 2 block part false = { d with hints := d.hints.put block (2, part) } := rfl

/-- A hot hint, and a keep hint beyond the limit, end no keep hint. -/
theorem Die.hint_hot {h : Nat} (hhot : h = 1 ∨ h = 2 ∧ full = true) :
    d.hint h block part full = if d.keeps block then d else { d with hints := d.hints.put block (1, part) } := by
  rcases hhot with rfl | ⟨rfl, rfl⟩ <;> rfl

end

/-- Is a physical address device memory of this module that lies on a die? -/
abbrev onDieHere (s : State) (D pa : Nat) : Prop := pa.testBit 45 = false ∧ pa / 2 ^ 46 = s.domainIx ∧ pa / 2 ^ 37 % 4 = D

theorem onDieHere_iff (s : State) (D pa : Nat) :
    (!pa.testBit 45 && pa / 2 ^ 46 == s.domainIx && pa / 2 ^ 37 % 4 == D) = true ↔ onDieHere s D pa := by
  simp [onDieHere, and_assoc]

/-- nhint completes, and gives the block of an address that the quad's TLB translates its hint, where the block is on the issuing die. -/
theorem nhint_hints (s : State) (sb : Bool) (h : BitVec 2) (a : BitVec 5) :
    ∃ t : State, exec (.nhint sb h a) s = .next t ∧ changesDie s.myDie s s t ∧
      (tlbHit s s.cur (s.me.getX a) = none → t.die s.myDie = s.die s.myDie) ∧
      ∀ p n q, tlbHit s s.cur (s.me.getX a) = some p → s.partOf s.cur = some (n, q) →
        t.die s.myDie =
          if onDieHere s s.myDie (s.pageByte a p).addr then
            (s.die s.myDie).hint h.toNat ((s.pageByte a p).addr / 65536) n
              (decide (keepLimit q s.myDie ≤ keepsOf s s.myDie n ((s.pageByte a p).addr / 65536)))
          else s.die s.myDie := by
  refine ⟨_, rfl, onlyDie.moves (.refl s) ?_, fun hmiss => ?_, fun p n q hhit hpart => ?_⟩
  · split
    · dsimp only
      split
      · split
        · exact .refl _ s
        · exact onDie_onlyDie ..
      · exact .refl _ s
    · exact .refl _ s
  · rw [hmiss]
    rfl
  · rw [hhit, hpart]
    simp only [onDieHere_iff]
    split
    · exact (State.onMe_die ..).trans (State.onDie_die_same ..)
    · rfl

/-! ### Cache instructions (R200) -/

theorem globalCheck_tlb {s s' : State} {k : Nat} {kind : Kind} {a : Word} {n : Nat} {c : Chk Ref}
    (h : globalCheck s k kind a n = (c, s')) : onlyTlb s s' := by
  have htlb := globalCheck_onlyTlb s k kind a n
  rwa [h] at htlb

theorem lineOp_local {s : State} {a : BitVec 5} (effect : State → Ref → State) (h : (s.me.getX a).toNat < 0x400000) :
    lineOp effect a s = .next (s.step1 id) := if_pos (decide_eq_true h)

theorem lineOp_granted {s s' : State} {a : BitVec 5} {r : Ref} (effect : State → Ref → State) (h : 0x400000 ≤ (s.me.getX a).toNat)
    (hcheck : globalCheck s s.cur .load (s.me.getX a) 0 = (.ok r, s')) : lineOp effect a s = .next ((effect s' r).step1 id) := by
  have hglobal : ¬ isLocal (s.me.getX a) = true := fun hlocal => absurd (of_decide_eq_true hlocal) (Nat.not_lt.2 h)
  unfold lineOp
  dsimp only
  rw [if_neg hglobal, hcheck]

/-- A cache instruction of a line that may be read does what its effect does to the issuing die. -/
theorem lineOp_changesDie {s s' : State} {a : BitVec 5} {r : Ref} {effect : State → Ref → State} {f : Die → Die}
    (h : 0x400000 ≤ (s.me.getX a).toNat) (hcheck : globalCheck s s.cur .load (s.me.getX a) 0 = (.ok r, s'))
    (honly : onlyDie s.myDie s' (effect s' r)) (hdie : (effect s' r).die s.myDie = f (s'.die s.myDie)) :
    ∃ t : State, lineOp effect a s = .next t ∧ onlyTlb s s' ∧ changesDie s.myDie s s' t ∧
      t.die s.myDie = f (s.die s.myDie) := by
  have htlb := globalCheck_tlb hcheck
  have hsame : s'.die s.myDie = s.die s.myDie := by rw [htlb.1]; rfl
  exact ⟨_, lineOp_granted effect h hcheck, htlb, honly.moves htlb, hdie.trans (congrArg f hsame)⟩

/-- Settles O10: a fence by the access that it finds outstanding, a prefetch and a hint by what the quad's TLB holds, a cache instruction by
what its check grants. -/
theorem fencesAndHints : Obligations.FencesAndHints := by
  constructor
  · intro s sb fences
    have waits {i : Instr} {sc : Scope} (hexec : exec i s = fence sc s) : fences i sc := by
      show _ ∧ _ ∧ _
      rw [hexec]
      exact ⟨fun h => ⟨_, fence_idle h, s.moves_gives⟩,
        fun o cells houts hans hop hhome => ⟨fence_store houts hans hop hhome, fence_store_held houts hans hop hhome⟩,
        fun o rs fin nc houts hans hop => fence_load houts hans hop⟩
    exact ⟨waits rfl, waits rfl, waits rfl, waits rfl, waits rfl⟩
  · intro s sb a h D hit there hints fetches cleans recorded
    obtain ⟨t, hexec, hchanges, hmiss, hhints⟩ := nhint_hints s sb h a
    refine ⟨prefetch_fetches s a, prefetch_fetches s a, ⟨t, hexec, hchanges, hmiss, ?_⟩,
      fun hlocal => ⟨⟨_, lineOp_local _ hlocal, s.moves_gives⟩, _, lineOp_local _ hlocal, s.moves_gives⟩, fun hglobal => ⟨?_, ?_⟩⟩
    · intro p n q hhit hpart pa block mine full kept
      have hdie := hhints p n q hhit hpart
      have hhot (hhere : mine) (hh : h = 1 ∨ h = 2 ∧ full) :
          t.die D = if (s.die D).keeps block then s.die D else { s.die D with hints := (s.die D).hints.put block (1, n) } := by
        refine hdie.trans ((if_pos hhere).trans (Die.hint_hot _ _ _ _ ?_))
        exact hh.imp (fun h1 => by rw [h1]; rfl) fun h2 => ⟨by rw [h2.1]; rfl, decide_eq_true h2.2⟩
      refine ⟨fun hhere => hdie.trans (if_neg hhere), fun hhere hh => ?_, fun hhere hh => ?_, fun hhere hh hfull => ?_,
        fun hhere hh hkept => (hhot hhere hh).trans (if_neg fun hk => hkept (eq_of_beq hk)),
        fun hhere hh hkept => (hhot hhere hh).trans (if_pos (beq_iff_eq.2 hkept))⟩
      · subst hh
        exact hdie.trans ((if_pos hhere).trans (Die.hint_cold ..))
      · subst hh
        exact hdie.trans ((if_pos hhere).trans (Die.hint_clear ..))
      · subst hh
        rw [decide_eq_false hfull] at hdie
        exact hdie.trans ((if_pos hhere).trans (Die.hint_keep ..))
    · intro r s' hcheck
      exact lineOp_changesDie (effect := fun s _ => s) (f := id) hglobal hcheck (.refl _ s') rfl
    · intro r s' hcheck
      have hquad : s'.myQuad = s.myQuad := (globalCheck_tlb hcheck).myQuad
      refine lineOp_changesDie (f := fun d => { d with rdc := d.rdc.drop (r.addr / 128) }) hglobal hcheck ?_ ?_
      · rw [hquad]
        exact onDie_onlyDie ..
      · rw [hquad]
        exact State.onDie_die_same ..

end Sys2Proof.Machine
end

section
/-! Fired triggers (11_atomics R285, R286; 09_tasks R212): their messages are sent, sent again or done with. -/

namespace Sys2Proof.Machine

/-! ### Arguments of a step without an encoding -/

section
variable {s : State}

theorem arg_first {a : Nat} {l : List Nat} (h : s.ev = a :: l) : s.arg 0 = a := by
  rw [State.arg, h]
  rfl

theorem arg_second {a b : Nat} {l : List Nat} (h : s.ev = a :: b :: l) : s.arg 1 = b := by
  rw [State.arg, h]
  rfl

theorem arg_third_absent {a b : Nat} (h : s.ev = [a, b]) : s.arg 2 = 0 := by
  rw [State.arg, h]
  rfl

end

/-! ### The steps of a fired trigger -/

section
variable {s : State} {h i : Nat} {f : Fired} (hfired : (s.slice h).fired[i]? = some f)
include hfired

theorem onFired_fired (g : Fired → Fired) : ((s.onFired h i g).slice h).fired[i]? = some (g f) := by
  rw [State.onFired, State.onSlice_slice_same]
  show ((s.slice h).fired.modify i g)[i]? = _
  rw [List.getElem?_modify_eq, hfired]
  rfl

theorem triggerMessageSend_exec (hev : s.ev = [h]) (hnext : nextFired [] (s.slice h).fired = some i) :
    exec .triggerMessageSend s = .next { s.onFired h i fun f => { f with sent := true } with net := s.net ++ [f.msg] } := by
  show execTriggerMessageSend s = _
  unfold execTriggerMessageSend
  dsimp only
  rw [arg_first hev, hnext]
  dsimp only
  rw [hfired]
  rfl

theorem triggerResend_exec (hev : s.ev = [h, i]) (hrefused : f.refused = true) :
    exec .triggerResend s = .next { s.onFired h i fun f => { f with refused := false } with net := s.net ++ [f.msg] } := by
  show execTriggerResend s = _
  unfold execTriggerResend
  dsimp only
  rw [arg_first hev, arg_second hev, hfired]
  dsimp only
  rw [hrefused]
  rfl

theorem triggerMessageStatus_exec {m : Msg} {w : Word} (hev : s.ev = [h, i]) (hmsg : s.net.find? (fun m => f.msg.isMsg m) = some m)
    (hanswer : m.answer = some w) :
    exec .triggerMessageStatus s = .next (({ s with net := s.net.erase m } : State).triggerAnswered h i f w) := by
  show execTriggerMessageStatus s = _
  unfold execTriggerMessageStatus
  dsimp only
  rw [arg_first hev, arg_second hev, hfired]
  dsimp only
  rw [hmsg]
  dsimp only
  rw [hanswer]

end

/-! ### The answer to a trigger's message (R212, R432) -/

section
variable (s : State) (h i : Nat) (f : Fired) (w : Word)

/-- An answer changes the slice that sent the message, and what the command processor has to report. -/
theorem triggerAnswered_frame : s.triggerAnswered h i f w =
    { s with slices := (s.triggerAnswered h i f w).slices, cp := (s.triggerAnswered h i f w).cp } := by
  unfold State.triggerAnswered
  split
  · rfl
  · rfl
  · dsimp only
    split <;> rfl

/-- The message is done with: its slice holds it no more. -/
def State.doneFired : State := s.onSlice h fun sl => { sl with fired := sl.fired.eraseIdx i }

theorem doneFired_fired : ((s.doneFired h i).slice h).fired = (s.slice h).fired.eraseIdx i := congrArg Slice.fired (s.onSlice_slice_same h _)

variable {w}

theorem triggerAnswered_accepted (hw : fld w 0 2 = 0) : s.triggerAnswered h i f w = s.doneFired h i := by
  unfold State.triggerAnswered
  rw [hw]
  rfl

theorem triggerAnswered_refused (hw : fld w 0 2 = 1) :
    s.triggerAnswered h i f w = s.onFired h i fun f => { f with refused := true } := by
  unfold State.triggerAnswered
  rw [hw]
  rfl

theorem triggerAnswered_faulted (hw : fld w 0 2 = 2) : s.triggerAnswered h i f w =
    if fld w 8 8 = 2 ∧ f.torn then s.doneFired h i else (s.doneFired h i).report (lostTrigger (s.doneFired h i) h f (fld w 8 8)) := by
  unfold State.triggerAnswered
  rw [hw]
  rfl

end

/-- Settles O17: each step by its equation, an answer by its two low bits. -/
theorem triggerMessages : Obligations.TriggerMessages := by
  intro s h i f hfired
  refine ⟨fun hev hnext => ?send, fun hev hrefused => ?resend, fun m w hev hmsg hanswer => ?status⟩
  case send => exact ⟨_, triggerMessageSend_exec hfired hev hnext, rfl, onFired_fired hfired _, rfl, .refl s⟩
  case resend => exact ⟨_, triggerResend_exec hfired hev hrefused, rfl, onFired_fired hfired _, rfl, .refl s⟩
  case status =>
    have hlow {n : Nat} (h : w.toNat % 4 = n) : fld w 0 2 = n := (fld_low w 2).trans h
    have hfired' : (({ s with net := s.net.erase m } : State).slice h).fired[i]? = some f := hfired
    have hframe := triggerAnswered_frame { s with net := s.net.erase m } h i f w
    refine ⟨_, triggerMessageStatus_exec hfired hev hmsg hanswer, by rw [hframe], by rw [hframe], by rw [hframe]; exact .refl s,
      fun hw => ?_, fun hw => ?_, fun hw => ?_⟩
    · rw [triggerAnswered_accepted _ h i f (hlow hw)]
      exact ⟨doneFired_fired .., rfl⟩
    · rw [triggerAnswered_refused _ h i f (hlow hw)]
      exact ⟨onFired_fired hfired' _, rfl⟩
    · rw [triggerAnswered_faulted _ h i f (hlow hw)]
      refine ⟨?_, fun hreason => ?_⟩
      · split
        · exact doneFired_fired ..
        · exact doneFired_fired ..
      · have hlost : ¬ (fld w 8 8 = 2 ∧ f.torn = true) := fun hkept => hreason.elim (fun hne => hne ((fld_eq w 8 8).symm.trans hkept.1))
          fun htorn => Bool.false_ne_true (htorn.symm.trans hkept.2)
        rw [if_neg hlost]
        exact ⟨_, rfl, rfl, rfl, rfl⟩

end Sys2Proof.Machine
end

section
/-! Messages as they leave (09_tasks R219, R220, R224, R229): the tests of the sender, amsend and amreply. -/

namespace Sys2Proof.Machine

/-! ### The tests of the sender (R219, R220) -/

theorem fld_above44 (w : Word) : fld w 44 20 = w.toNat / 2 ^ 44 := by
  rw [fld_eq]
  exact Nat.mod_eq_of_lt (by have := w.isLt; omega)

theorem fld_above38 (w : Word) : fld w 38 26 = w.toNat / 2 ^ 38 := by
  rw [fld_eq]
  exact Nat.mod_eq_of_lt (by have := w.isLt; omega)

/-- What makes a destination word with its descriptor malformed, bit by bit (R219). -/
abbrev sendMalformed (xa xb : Word) : Prop :=
  xa.toNat / 2 ^ 44 ≠ 0 ∨ xb.toNat / 2 ^ 38 ≠ 0 ∨ xb.getLsbD 35 = true ∨ xb.toNat % 4 ≠ 0

theorem sendMalformed_iff (xa xb : Word) : sendMalformed xa xb ↔ (decide (fld xa 44 20 ≠ 0) || !descriptorOk xb) = true := by
  have hlow : fld xb 0 2 = xb.toNat % 4 := fld_low xb 2
  rw [descriptorOk, fld_above44, fld_above38, hlow, bitAt]
  simp only [Bool.or_eq_true, decide_eq_true_eq, Bool.not_and, Bool.not_not, or_assoc, Bool.not_eq_true', beq_eq_false_iff_ne]

section
variable {s : State} {k : Nat} {xa xb : Word}

theorem senderFault_malformed (h : sendMalformed xa xb) : senderFault s k xa xb = some 3 := if_pos ((sendMalformed_iff xa xb).1 h)

variable (h : ¬ sendMalformed xa xb)
include h

theorem senderFault_absent (hthere : destExists s xa = false) : senderFault s k xa xb = some 1 := by
  rw [senderFault, if_neg (mt (sendMalformed_iff xa xb).2 h), hthere]
  rfl

theorem senderFault_elsewhere (hthere : destExists s xa = true) (hallowed : destAllowed s (quarterOf (quadOf k)) xa = false) :
    senderFault s k xa xb = some 2 := by
  rw [senderFault, if_neg (mt (sendMalformed_iff xa xb).2 h), hthere, hallowed]
  rfl

theorem senderFault_passed (hthere : destExists s xa = true) (hallowed : destAllowed s (quarterOf (quadOf k)) xa = true) :
    senderFault s k xa xb = none := by
  rw [senderFault, if_neg (mt (sendMalformed_iff xa xb).2 h), hthere, hallowed]
  rfl

end

/-! ### The header (R224) -/

theorem identOf_zero_me (s : State) : identOf 0 s.cur = BitVec.ofNat 64
    ((if isHandler s.cur then 2 ^ 18 else s.cur % 8 * 2 ^ 19) + quarterOf s.myQuad * 2 ^ 14 + s.myCore) := by
  rw [State.myQuad, ← quadOfCore_coreOf]
  show word (0 * 2 ^ 32 + _ + _ + _) = _
  rw [Nat.zero_mul, Nat.zero_add]
  rfl

/-- The header of a message of the context whose turn it is. -/
theorem headerOf_me (s : State) (xb : Word) (n : Nat) (nxm reply : Bool) : headerOf s s.cur (fld xb 32 2) n nxm reply =
    BitVec.ofNat 64 (s.module * 2 ^ 32 + xb.toNat / 2 ^ 32 % 4 * 2 ^ 27 + n * 2 ^ 24 + (if nxm then 2 ^ 23 else 0) +
      reply.toNat * 2 ^ 22) |||
    BitVec.ofNat 64 ((if isHandler s.cur then 2 ^ 18 else s.cur % 8 * 2 ^ 19) + quarterOf s.myQuad * 2 ^ 14 + s.myCore) := by
  rw [headerOf, identOf_zero_me, fld_eq]
  cases reply <;> rfl

/-! ### amsend (R219, R220) -/

theorem inReply_eq_false {c : Ctx} (h : ¬ ∃ m : Msg, c.msg = some m ∧ m.reply = true) : c.inReply = false := by
  unfold Ctx.inReply
  split
  next m hm => exact Bool.eq_false_iff.2 fun hreply => h ⟨m, hm, hreply⟩
  · rfl

section
variable {s : State} {sb : Bool} {d a b : BitVec 5} {n : BitVec 3} (hattempt : s.me.attempt = none)
  (hplain : ¬ ∃ m : Msg, s.me.msg = some m ∧ m.reply = true)
include hattempt hplain

/-- What the sender's core answers itself has its status at once. -/
theorem amsend_faults {r : Nat} (hfault : senderFault s s.cur (s.me.getX a) (s.me.getX b) = some r) :
    ∃ (t : State) (o : Out), exec (.amsend sb d a b n) s = .next t ∧ issuesOut s t o ∧ o.op = .value ∧
      o.ans = some { writes := [.x d (BitVec.ofNat 64 (2 + 256 * r))] } := by
  refine ⟨s.issueXValue d (faulted r), _, ?_, s.issue_out .value [.x d] false false false (some { writes := [.x d (faulted r)] }) 0, rfl, rfl⟩
  show execAmsend sb d a b n s = _
  unfold execAmsend
  dsimp only
  rw [State.unlessAttempt_outside hattempt, inReply_eq_false hplain, hfault]
  rfl

/-- With nothing outstanding, a message that the sender's tests pass leaves at once. -/
theorem amsend_leaves (houts : s.me.outs = []) (hpassed : senderFault s s.cur (s.me.getX a) (s.me.getX b) = none) :
    exec (.amsend sb d a b n) s = .next (s.send d (s.me.getX a) (s.me.getX b) n.toNat) := by
  show execAmsend sb d a b n s = _
  unfold execAmsend
  dsimp only
  rw [State.unlessAttempt_outside hattempt, inReply_eq_false hplain, hpassed]
  dsimp only
  rw [if_neg Bool.false_ne_true, State.afterOuts_nil houts]

end

/-! ### amreply (R229) -/

/-- amreply in the handler of a request retires at issue. -/
theorem amreply_exec {s : State} {sb : Bool} {b : BitVec 5} {n : BitVec 3} {req : Msg} (hattempt : s.me.attempt = none)
    (hreq : s.me.msg = some req) (hrequest : req.reply = false) (hok : descriptorOk (s.me.getX b) = true) :
    exec (.amreply sb b n) s =
      .next (s.step1 fun c => c.issue (.reply (replyMsg s req (s.me.getX b) n.toNat)) [] false false true) := by
  show execAmreply sb b n s = _
  unfold execAmreply
  dsimp only
  rw [State.unlessAttempt_outside hattempt, hreq]
  dsimp only
  rw [hrequest, hok]
  rfl

/-- Settles O22: the sender's tests in their order, then the message as it is put together. -/
theorem messagesLeave : Obligations.MessagesLeave := by
  intro s sb d a b n hattempt houts xa xb payload malformed faults plain place header there allowed
  refine ⟨fun hplain hbad => amsend_faults hattempt hplain (senderFault_malformed hbad),
    fun hplain hok hthere => amsend_faults hattempt hplain (senderFault_absent hok hthere),
    fun hplain hok hthere hallowed => amsend_faults hattempt hplain (senderFault_elsewhere hok hthere hallowed),
    fun hplain hok hthere hallowed => ?sent, fun req hreq hrequest hok => ?reply⟩
  case sent =>
    obtain ⟨-, hgoes, -, -, hme⟩ := s.issue_out (.send d) [.x d] false false true none 0
    refine ⟨_, { seq := s.me.nextSeq, pc := s.me.pc, op := .send d, dsts := [Dst.x d].filter fun e => e != .x 0, rel := true }, _,
      amsend_leaves hattempt hplain houts (senderFault_passed hok hthere hallowed), rfl, ?_, rfl, rfl,
      filter_x_ne_zero d, rfl, ?_, hgoes, headerOf_me s xb n.toNat s.me.nxm false, rfl, rfl, fld_low xa 14, fld_eq xa 32 12,
      fld_eq xb 32 2, rfl, fld_eq xb 36 2, congrArg word (fld_low xb 32), rfl, rfl, rfl, rfl⟩
    · exact (congrArg Ctx.outs hme).trans (by rw [houts]; rfl)
    · exact (congrArg Ctx.regs hme).trans rfl
  case reply =>
    exact ⟨_, _, _, amreply_exec hattempt hreq hrequest hok, s.issue_out (.reply (replyMsg s req xb n.toNat)) [] false false true none 0,
      rfl, rfl, rfl, rfl, rfl, rfl, rfl, headerOf_me s xb n.toNat s.me.nxm true, fld_eq xb 32 2, congrArg word (fld_low xb 32),
      rfl, rfl, rfl, rfl, rfl, fld_low req.header 14, fld_eq req.header 32 12⟩

end Sys2Proof.Machine
end

section
/-! Messages as they arrive (09_tasks R220, R221, R223, R229): the destination's decision, the status on its way back, replies. -/

namespace Sys2Proof.Machine

/-! ### The decision of the destination (R221) -/

section
variable {s : State} {m : Msg} {part : Part}

theorem verdict_unheld (h : ¬ part.holds m.pasid = true) : s.verdict part m = faulted 2 := by
  rw [State.verdict, Bool.eq_false_iff.2 h]
  rfl

variable (hholds : part.holds m.pasid = true)
include hholds

theorem verdict_stopped (h : ¬ part.mode = .running) : s.verdict part m = refused 3 := by
  rw [State.verdict, hholds, bne_iff_ne.2 h]
  rfl

variable (hruns : part.mode = .running)
include hruns

/-- What is left to decide where the partition holds the PASID and runs: whether there is room. -/
theorem verdict_room : s.verdict part m =
    if m.reply then (if 4 ≤ s.replyOcc m.dst then refused 1 else accepted)
    else if !m.isTask then (if (s.core m.dst).mbdepth ≤ s.requestOcc m.dst then refused 1 else accepted)
    else if !queueHasRoom (s.core m.dst).queue.length m.pri then refused 2 else accepted := by
  rw [State.verdict, hholds, hruns]
  rfl

theorem verdict_reply (h : m.reply = true) : s.verdict part m = if 4 ≤ s.replyOcc m.dst then refused 1 else accepted := by
  rw [verdict_room hholds hruns, if_pos h]

theorem verdict_request (h : m.reply = false) (hkind : m.isTask = false) :
    s.verdict part m = if (s.core m.dst).mbdepth ≤ s.requestOcc m.dst then refused 1 else accepted := by
  rw [verdict_room hholds hruns, h, hkind]
  rfl

theorem verdict_task (h : m.reply = false) (hkind : m.isTask = true) :
    s.verdict part m = if queueHasRoom (s.core m.dst).queue.length m.pri = true then accepted else refused 2 := by
  rw [verdict_room hholds hruns, h, hkind]
  cases queueHasRoom (s.core m.dst).queue.length m.pri <;> rfl

end

/-! ### Where an accepted message stands (R221) -/

section
variable (s : State) {m : Msg}

theorem accept_reply (h : m.reply = true) : s.accept m = s.onCore m.dst fun c => { c with replies := c.replies ++ [m] } := if_pos h

theorem accept_request (h : m.reply = false) (hkind : m.isTask = false) :
    s.accept m = s.onCore m.dst fun c => { c with requests := c.requests ++ [m] } := by
  rw [State.accept, h, hkind]
  rfl

theorem accept_task (h : m.reply = false) (hkind : m.isTask = true) :
    s.accept m = s.onCore m.dst fun c => { c with queue := c.queue ++ [m.record] } := by
  rw [State.accept, h, hkind]
  rfl

end

/-- A message after its decision: accepted, it stands at its core. -/
def State.decidedAs (s : State) (m : Msg) (w : Word) : State := if w = accepted then s.accept m else s

theorem decidedAs_frame (s : State) (m : Msg) (w : Word) : s.decidedAs m w = { s with cores := (s.decidedAs m w).cores } := by
  unfold State.decidedAs State.accept
  split
  · split
    · rfl
    · split <;> rfl
  · rfl

theorem decidedAs_turned_away {s : State} {m : Msg} {w : Word} (h : w ≠ accepted) : s.decidedAs m w = s := if_neg h

theorem decidedAs_accepted (s : State) (m : Msg) : s.decidedAs m accepted = s.accept m := if_pos rfl

/-- Where nothing is recorded, a message is decided by its destination's state alone. -/
theorem decideMsg_of_no_recordings {s : State} {m : Msg} {p : Nat} {part : Part} (hrec : s.recordings = [])
    (hpart : s.partFor (quarterOf (quadOfCore m.dst)) = some (p, part)) :
    s.decideMsg m = (s.verdict part m, s.decidedAs m (s.verdict part m)) := by
  have hnext : s.nextArrival m = none := by
    rw [State.nextArrival, hpart, State.replayOf, Option.bind_some, State.recordingOf, hrec]
    rfl
  unfold State.decideMsg
  rw [hpart]
  dsimp only
  rw [hnext, noteOrder_of_no_recordings hrec]
  rfl

/-! ### The status on its way back (R220, R221) -/

/-- The status of a message stands with it where it is waited for; else the message is gone. -/
def State.statusBack (s : State) (i : Nat) (m : Msg) (w : Word) : State :=
  match m.sender with
  | some (k, seq) => if ((s.ctx k).out seq).isSome then { s with net := s.net.set i { m with answer := some w } } else s.dropMsg k seq
  | none => { s with net := s.net.set i { m with answer := some w } }

section
variable (s : State) (i : Nat) (m : Msg) (w : Word)

theorem statusBack_frame : s.statusBack i m w = { s with net := (s.statusBack i m w).net } := by
  unfold State.statusBack
  split
  · split <;> rfl
  · rfl

theorem statusBack_home (h : m.sender = none) : (s.statusBack i m w).net = s.net.set i { m with answer := some w } := by
  rw [State.statusBack, h]

variable {k seq : Nat} (h : m.sender = some (k, seq))
include h

theorem statusBack_awaited (hout : ((s.ctx k).out seq).isSome = true) :
    (s.statusBack i m w).net = s.net.set i { m with answer := some w } := by
  rw [State.statusBack, h]
  dsimp only
  rw [if_pos hout]

theorem statusBack_unawaited (hout : (s.ctx k).out seq = none) : (s.statusBack i m w).net = s.net.filter fun m => !m.isOf k seq := by
  rw [State.statusBack, h]
  dsimp only
  rw [hout]
  rfl

end

/-! ### MESSAGE_ARRIVAL -/

section
variable {s : State} {i p : Nat} {m : Msg} {part : Part} (hev : s.ev = [i]) (hmsg : s.net[i]? = some m)
  (hready : arrivalReady s i = true) (hrec : s.recordings = [])
  (hpart : s.partFor (quarterOf (quadOfCore m.dst)) = some (p, part))
include hev hmsg hready hrec hpart

theorem messageArrival_exec : exec .messageArrival s = .next
    (if m.reply then (s.decidedAs m (s.verdict part m)).replyDecided m (s.verdict part m)
      else (s.decidedAs m (s.verdict part m)).statusBack i m (s.verdict part m)) := by
  show execMessageArrival s = _
  unfold execMessageArrival
  dsimp only
  rw [arg_first hev, hmsg]
  dsimp only
  rw [State.when_, hready, if_pos rfl, decideMsg_of_no_recordings hrec hpart]
  rfl

/-- A message that is no reply is decided: where it stands, and where its status goes. -/
theorem messageArrival_decides (hreply : m.reply = false) {w : Word} (hw : s.verdict part m = w) {c : Core}
    (hcore : (s.decidedAs m w).core m.dst = c) : ∃ t : State, exec .messageArrival s = .next t ∧ sameMem s t ∧ t.ctxs = s.ctxs ∧
      t.core m.dst = c ∧ (m.sender = none → t.net = s.net.set i { m with answer := some w }) ∧
      ∀ k seq, m.sender = some (k, seq) →
        (((s.ctx k).out seq).isSome = true → t.net = s.net.set i { m with answer := some w }) ∧
        ((s.ctx k).out seq = none → t.net = s.net.filter fun m => !m.isOf k seq) := by
  have hexec := messageArrival_exec hev hmsg hready hrec hpart
  rw [if_neg (by rw [hreply]; exact Bool.false_ne_true), hw] at hexec
  have hdecided := decidedAs_frame s m w
  have hback := statusBack_frame (s.decidedAs m w) i m w
  have hnet : (s.decidedAs m w).net = s.net := by rw [hdecided]
  have hctx (k : Nat) : (s.decidedAs m w).ctx k = s.ctx k := by rw [hdecided]; rfl
  refine ⟨_, hexec, ?_, ?_, ?_, fun hhome => ?_, fun k seq hsender => ⟨fun hout => ?_, fun hout => ?_⟩⟩
  · rw [hback, hdecided]
    exact .refl s
  · rw [hback, hdecided]
  · rw [hback]
    exact hcore
  · rw [statusBack_home _ _ _ _ hhome, hnet]
  · rw [statusBack_awaited _ _ _ _ hsender (by rw [hctx]; exact hout), hnet]
  · rw [statusBack_unawaited _ _ _ _ hsender (by rw [hctx]; exact hout), hnet]

end

/-! ### A reply is decided (R229) -/

/-- What a change to a core leaves of every core: whatever the change itself keeps. -/
theorem onCore_keeps {α : Type} (s : State) (k j : Nat) {f : Core → Core} (g : Core → α) (h : ∀ c, g (f c) = g c) :
    g ((s.onCore k f).core j) = g (s.core j) := by
  by_cases hj : j = k
  · rw [hj, State.onCore_core_same, h]
  · rw [State.onCore_core_other _ _ hj]

/-- The core that a reply came from, as its header names it. -/
abbrev Msg.source (m : Msg) : Nat := m.header.toNat % 2 ^ 14

/-- What the decision of a reply leaves: how many refusals its source counts more, whether the reply stays there to be sent again, and what
has come to the destination's mailbox. -/
def replied (s : State) (m : Msg) (refusals : Nat) (left : Bool) (got : List Msg) (t : State) : Prop :=
  sameMem s t ∧ t.ctxs = s.ctxs ∧ t.net = s.net.erase m ∧ (t.core m.source).refusals = (s.core m.source).refusals + refusals ∧
    (t.core m.source).sending = (if left = true then (s.core m.source).sending else (s.core m.source).sending.erase m) ∧
    (t.core m.dst).replies = (s.core m.dst).replies ++ got

section
variable {s : State} {m : Msg} {w : Word}

/-- A refused reply is counted and stays at its source. -/
theorem replyDecided_refused (hw : fld w 0 2 = 1) : replied s m 1 true [] (s.replyDecided m w) := by
  have hsource : fld m.header 0 14 = m.source := fld_low m.header 14
  have heq : s.replyDecided m w =
      ({ s with net := s.net.erase m } : State).onCore m.source fun c => { c with refusals := c.refusals + 1 } := by
    unfold State.replyDecided State.countRefusal
    dsimp only
    rw [hw, hsource]
    rfl
  rw [heq]
  refine ⟨.refl s, rfl, rfl, ?_, ?_, ?_⟩
  · rw [State.onCore_core_same]
    rfl
  · rw [State.onCore_core_same]
    rfl
  · rw [onCore_keeps (f := fun c => { c with refusals := c.refusals + 1 }) _ _ _ Core.replies fun _ => rfl, List.append_nil]
    rfl

/-- A reply that is not refused is done with at its source. -/
theorem replyDecided_done (hw : fld w 0 2 ≠ 1) (hstatus : (s.ctx (handlerOf m.source)).status ≠ .ending) :
    replied s m 0 false [] (s.replyDecided m w) := by
  have hsource : fld m.header 0 14 = m.source := fld_low m.header 14
  have heq : s.replyDecided m w =
      ({ s with net := s.net.erase m } : State).onCore m.source fun c => { c with sending := c.sending.erase m } := by
    unfold State.replyDecided State.countRefusal
    dsimp only
    rw [if_neg hw, if_neg hw, hsource]
    exact endIfDone_of_not_ending hstatus
  rw [heq]
  refine ⟨.refl s, rfl, rfl, ?_, ?_, ?_⟩
  · rw [State.onCore_core_same]
    rfl
  · rw [State.onCore_core_same]
    rfl
  · rw [onCore_keeps (f := fun c => { c with sending := c.sending.erase m }) _ _ _ Core.replies fun _ => rfl, List.append_nil]
    rfl

/-- A reply that has come to its mailbox before its source hears of it. -/
theorem replied.after_accept {t : State} (hreply : m.reply = true) (h : replied (s.accept m) m 0 false [] t) : replied s m 0 false [m] t := by
  have keeps {α : Type} (g : Core → α) (hg : ∀ c : Core, g { c with replies := c.replies ++ [m] } = g c) (j : Nat) :
      g ((s.accept m).core j) = g (s.core j) := by
    rw [accept_reply s hreply, onCore_keeps s m.dst j g hg]
  obtain ⟨hmem, hctxs, hnet, hrefusals, hsending, hreplies⟩ := h
  rw [keeps Core.refusals fun _ => rfl] at hrefusals
  rw [keeps Core.sending fun _ => rfl] at hsending
  rw [accept_reply s hreply] at hmem hctxs hnet hreplies
  refine ⟨hmem, hctxs, hnet, hrefusals, hsending, ?_⟩
  rw [hreplies, State.onCore_core_same, List.append_nil]

end

/-! ### AMSEND_STATUS_RETURN (R220) -/

theorem countRefusal_frame (s : State) (core : Nat) (w : Word) :
    s.countRefusal core w = { s with cores := (s.countRefusal core w).cores } := by
  unfold State.countRefusal
  split <;> rfl

section
variable {s : State} {k : Nat} {o : Out} {d : BitVec 5} {m : Msg} {w : Word}

theorem perform_send (hop : o.op = .send d) (hfind : s.net.find? (fun m => m.isOf k o.seq) = some m) (hanswer : m.answer = some w) :
    s.perform k o = (((s.dropMsg k o.seq).countRefusal (coreOf k) w).answer k o.seq { writes := [.x d w] }, true) := by
  have hturn : s.sendTurn k o.seq = true := by
    rw [State.sendTurn, hfind]
    dsimp only
    rw [hanswer]
    rfl
  have hstatus : s.sendStatus k o.seq = (w, s.dropMsg k o.seq) := by
    rw [State.sendStatus, hfind]
    dsimp only
    rw [hanswer]
  unfold State.perform
  rw [hop]
  dsimp only
  rw [hturn, hstatus]
  rfl

theorem amsendStatusReturn_answers {seq : Nat} (hev : s.ev = [k, seq]) (hfind : s.net.find? (fun m => m.isOf k seq) = some m)
    (hanswer : m.answer = some w) (hout : (s.ctx k).out seq = some o) (hop : o.op = .send d) (hans : o.ans = none)
    (hmay : (s.ctx k).mayPerform o = true) (hstatus : (s.ctx k).status ≠ .ending) :
    ∃ t : State, exec .amsendStatusReturn s = .next t ∧ sameMem s t ∧ t.net = s.net.filter (fun m => !m.isOf k seq) ∧
      (t.ctx k).out seq = some { o with ans := some { writes := [.x d w] } } := by
  have hseq := seq_of_out hout
  have hpending : o.pending = true := by rw [Out.pending, hans]; rfl
  have hframe := countRefusal_frame (s.dropMsg k seq) (coreOf k) w
  have hexec : exec .amsendStatusReturn s = .next ((s.perform k o).1.endIfDone k) := by
    show execAmsendStatusReturn s = _
    unfold execAmsendStatusReturn
    dsimp only
    rw [arg_first hev, arg_second hev, hfind]
    dsimp only
    rw [hout]
    dsimp only
    rw [hpending, hmay, hanswer]
    rfl
  rw [perform_send hop (hseq.symm ▸ hfind) hanswer, hseq] at hexec
  dsimp only at hexec
  rw [hframe] at hexec
  have hctx : (({ s.dropMsg k seq with cores := ((s.dropMsg k seq).countRefusal (coreOf k) w).cores } : State).answer k seq
      { writes := [.x d w] }).ctx k = (s.ctx k).onOut seq fun o => { o with ans := some { writes := [.x d w] } } :=
    State.onCtx_ctx_same _ _ _
  rw [endIfDone_of_not_ending (by rw [hctx]; exact hstatus)] at hexec
  exact ⟨_, hexec, .refl s, rfl, by rw [hctx]; exact Ctx.onOut_out hout fun _ => rfl⟩

end

/-! ### A reply leaves, and is sent again (R223, R229) -/

/-- The step of a result of which nothing is known yet, where no pre-emption stands in its way. -/
theorem resultArrival_of_pending {s : State} {k seq : Nat} {o : Out} (hev : s.ev = [k, seq]) (hout : (s.ctx k).out seq = some o)
    (hans : o.ans = none) (hread : o.op.isRead = true) (hpure : o.pure = false) :
    exec .resultArrival s = .next (if (s.ctx k).mayPerform o then (s.perform k o).1.endIfDone k else s) := by
  have hpending : o.pending = true := by rw [Out.pending, hans]; rfl
  show execResultArrival s = _
  unfold execResultArrival
  dsimp only
  rw [arg_first hev, arg_second hev, hout]
  dsimp only
  rw [hpure, Bool.and_false, hpending, hread, arg_third_absent hev]
  rfl

/-- What an earlier access of its context that has still to be performed holds back may not be performed. -/
theorem mayPerform_of_blocked {c : Ctx} {o p : Out} (hp : p ∈ c.outs) (hseq : p.seq < o.seq) (hblocks : p.blocks o = true) :
    c.mayPerform o = false := by
  refine List.all_eq_false.2 ⟨p, hp, ?_⟩
  rw [hblocks, decide_eq_false (Nat.not_le.2 hseq)]
  exact Bool.false_ne_true

/-- A reply has left: it is on its way, its source keeps it until it is decided, and its access is done. -/
def State.replyLeft (s : State) (k seq : Nat) (m : Msg) : State :=
  { (s.onCore (coreOf k) fun c => { c with sending := c.sending ++ [m] }).onCtx k fun c => c.dropOut seq with net := s.net ++ [m] }

section
variable (s : State) (k seq : Nat) (m : Msg)

theorem replyLeft_ctx : (s.replyLeft k seq m).ctx k = (s.ctx k).dropOut seq :=
  State.onCtx_ctx_same (s.onCore (coreOf k) fun c => { c with sending := c.sending ++ [m] }) k fun c => c.dropOut seq

theorem replyLeft_ctx_other {j : Nat} (hj : j ≠ k) : (s.replyLeft k seq m).ctx j = s.ctx j :=
  State.onCtx_ctx_other (s.onCore (coreOf k) fun c => { c with sending := c.sending ++ [m] }) (fun c => c.dropOut seq) hj

theorem replyLeft_sending : ((s.replyLeft k seq m).core (coreOf k)).sending = (s.core (coreOf k)).sending ++ [m] :=
  congrArg Core.sending (s.onCore_core_same (coreOf k) fun c => { c with sending := c.sending ++ [m] })

end

theorem perform_reply {s : State} {k : Nat} {o : Out} {m : Msg} (hop : o.op = .reply m) : s.perform k o = (s.replyLeft k o.seq m, true) := by
  unfold State.perform
  rw [hop]
  rfl

theorem reply_leaves {s : State} {k seq : Nat} {o : Out} {m : Msg} (hev : s.ev = [k, seq]) (hout : (s.ctx k).out seq = some o)
    (hop : o.op = .reply m) (hans : o.ans = none) (hpure : o.pure = false) (hstatus : (s.ctx k).status ≠ .ending)
    (hmay : (s.ctx k).mayPerform o = true) : ∃ t : State, exec .resultArrival s = .next t ∧ sameMem s t ∧
    t.net = s.net ++ [m] ∧ (t.core (coreOf k)).sending = (s.core (coreOf k)).sending ++ [m] ∧ (∀ j, j ≠ k → t.ctx j = s.ctx j) ∧
    t.ctx k = { s.ctx k with outs := (s.ctx k).outs.filter fun p => p.seq != seq } := by
  have hexec := resultArrival_of_pending hev hout hans (by rw [hop]; rfl) hpure
  rw [if_pos hmay, perform_reply hop, seq_of_out hout,
    endIfDone_of_not_ending (by rw [replyLeft_ctx]; exact hstatus)] at hexec
  exact ⟨_, hexec, .refl s, rfl, replyLeft_sending s k seq m, fun _ => replyLeft_ctx_other s k seq m, replyLeft_ctx s k seq m⟩

theorem replyResend_exec {s : State} {core i : Nat} {m : Msg} (hev : s.ev = [core, i]) (hmsg : (s.core core).sending[i]? = some m)
    (hnet : s.net.contains m = false) : exec .replyResend s = .next { s with net := s.net ++ [m] } := by
  show execReplyResend s = _
  unfold execReplyResend
  rw [arg_first hev, arg_second hev, hmsg]
  dsimp only
  rw [State.when_, hnet]
  rfl

/-- Settles O23: each decision by the destination's verdict, then the way of the status or of the reply. -/
theorem messagesArrive : Obligations.MessagesArrive := by
  refine ⟨?arrival, ?status, ?resend, ?leaves⟩
  case arrival =>
    intro s i m p part hev hmsg hready hrec hpart c holds runs goes decided source replied'
    refine ⟨fun hreply => ?message, fun hreply hstatus => ?answer⟩
    case message =>
      have away {w : Nat} (hw : s.verdict part m = word w) (hne : word w ≠ accepted) : decided w c :=
        messageArrival_decides hev hmsg hready hrec hpart hreply hw (by rw [decidedAs_turned_away hne])
      have taken {c' : Core} (hw : s.verdict part m = accepted) (hcore : (s.accept m).core m.dst = c') : decided 0 c' :=
        messageArrival_decides hev hmsg hready hrec hpart hreply hw ((congrArg (State.core · m.dst) (decidedAs_accepted s m)).trans hcore)
      refine ⟨fun hheld => away (verdict_unheld hheld) (by decide), fun hholds hruns => away (verdict_stopped hholds hruns) (by decide),
        fun hholds hruns hkind hfull => ?_, fun hholds hruns hkind hroom => ?_, fun hholds hruns hkind hfull => ?_,
        fun hholds hruns hkind hroom => ?_⟩
      · exact away ((verdict_request hholds hruns hreply hkind).trans (if_pos hfull)) (by decide)
      · refine taken ((verdict_request hholds hruns hreply hkind).trans (if_neg (Nat.not_le.2 hroom))) ?_
        rw [accept_request s hreply hkind]
        exact State.onCore_core_same ..
      · exact away ((verdict_task hholds hruns hreply hkind).trans (if_neg (by rw [hfull]; exact Bool.false_ne_true))) (by decide)
      · refine taken ((verdict_task hholds hruns hreply hkind).trans (if_pos hroom)) ?_
        rw [accept_task s hreply hkind]
        exact State.onCore_core_same ..
    case answer =>
      have hexec := messageArrival_exec hev hmsg hready hrec hpart
      rw [if_pos hreply] at hexec
      have refuses {r : Nat} (hw : s.verdict part m = refused r) (hlow : fld (refused r) 0 2 = 1) (hne : refused r ≠ accepted) :
          replied' 1 true [] := by
        rw [hw, decidedAs_turned_away hne] at hexec
        exact ⟨_, hexec, replyDecided_refused hlow⟩
      refine ⟨fun hheld => ?_, fun hholds hruns => refuses (verdict_stopped hholds hruns) (by decide) (by decide),
        fun hholds hruns hfull => refuses ((verdict_reply hholds hruns hreply).trans (if_pos hfull)) (by decide) (by decide),
        fun hholds hruns hroom => ?_⟩
      · rw [verdict_unheld hheld, decidedAs_turned_away (by decide)] at hexec
        exact ⟨_, hexec, replyDecided_done (by decide) hstatus⟩
      · rw [verdict_reply hholds hruns hreply, if_neg (Nat.not_le.2 hroom), decidedAs_accepted] at hexec
        have hstatus' : ((s.accept m).ctx (handlerOf m.source)).status ≠ .ending := by
          rw [accept_reply s hreply]
          exact hstatus
        exact ⟨_, hexec, (replyDecided_done (by decide) hstatus').after_accept hreply⟩
  case status =>
    intro s k seq o d m w hev hfind hanswer hout hop hans hmay hstatus
    exact amsendStatusReturn_answers hev hfind hanswer hout hop hans hmay hstatus
  case resend =>
    intro s core i m hev hmsg hnet
    exact ⟨_, replyResend_exec hev hmsg hnet, rfl⟩
  case leaves =>
    intro s k seq o m hev hout hop hans hpure hstatus
    refine ⟨reply_leaves hev hout hop hans hpure hstatus, fun hmay => ?_, fun p hseq _ hblocks hp => ?_⟩
    · rw [resultArrival_of_pending hev hout hans (by rw [hop]; rfl) hpure, hmay]
      rfl
    · exact mayPerform_of_blocked hp (seq_of_out hout ▸ hseq) hblocks

end Sys2Proof.Machine
end


section
/-! The writes of a work queue's home (09_tasks R231), which fire no trigger: the bytes that they leave, and what they leave of the context
that has asked for them. -/

namespace Sys2Proof.Machine

/-! ### The bytes -/

theorem gwriteQuiet_besides (s : State) (by_ : Option Nat) (die : Nat) (home : Nat → Option Nat) (cells : List (Nat × Byte)) :
    besides { s with
      mem := cells.foldl (fun (m : Memory) (c : Nat × Byte) => m.set c.1 c.2) s.mem
      areas := carve s.areas cells
      poison := s.poison.filter fun w => !(wholeWords cells).contains w } (s.gwriteQuiet by_ die home cells) := by
  unfold State.gwriteQuiet
  dsimp only
  refine besides.trans (u := State.retestWaits _ _) ?_ rfl
  refine besides.trans ?_ (besides.foldl (fun s l => State.spring_besides s by_ (home l) l) _ _)
  exact besides.trans (State.updateCopies_besides _ _ _) (State.conflicts_besides _ _ _)

theorem gwriteQuiet_get (s : State) (by_ : Option Nat) (die : Nat) (home : Nat → Option Nat) (cells : List (Nat × Byte))
    (hwf : s.mem.wf = true) (a : Nat) : (s.gwriteQuiet by_ die home cells).gbyte a = (lastAt cells a).getD (s.gbyte a) := by
  have hbesides := gwriteQuiet_besides s by_ die home cells
  have hmem : (s.gwriteQuiet by_ die home cells).mem.get a = (lastAt cells a).getD (s.mem.get a) := by
    rw [hbesides.mem]
    exact Memory.cells_get hwf cells a
  have hareas : serialAt a (s.gwriteQuiet by_ die home cells).areas = if (lastAt cells a).isSome then none else serialAt a s.areas := by
    rw [hbesides.areas]
    exact serialAt_carve a cells s.areas
  unfold State.gbyte
  rw [hmem, hareas]
  cases lastAt cells a <;> rfl

/-! ### The context that has asked -/

/-- A context keeps its status and its accesses, but for what a waitge is answered. -/
def keepsOuts (k : Nat) (s t : State) : Prop :=
  (t.ctx k).status = (s.ctx k).status ∧ ∀ seq o, (s.ctx k).out seq = some o → o.awaitedDword = none → (t.ctx k).out seq = some o

theorem keepsOuts.trans {k : Nat} {s t u : State} (h : keepsOuts k s t) (g : keepsOuts k t u) : keepsOuts k s u :=
  ⟨g.1.trans h.1, fun seq o ho hwait => g.2 seq o (h.2 seq o ho hwait) hwait⟩

theorem keepsOuts_of_outs {k : Nat} {s t : State} (hstatus : (t.ctx k).status = (s.ctx k).status) (houts : (t.ctx k).outs = (s.ctx k).outs) :
    keepsOuts k s t :=
  ⟨hstatus, fun seq o ho _ => by rw [Ctx.out, houts]; exact ho⟩

theorem keepsOuts_of_ctx {k : Nat} {s t : State} (h : t.ctx k = s.ctx k) : keepsOuts k s t :=
  keepsOuts_of_outs (by rw [h]) (by rw [h])

theorem keepsOuts_of_ctxs {k : Nat} {s t : State} (h : t.ctxs = s.ctxs) : keepsOuts k s t :=
  keepsOuts_of_ctx (by rw [State.ctx, State.ctx, h])

theorem keepsOuts.foldl {α : Type} {k : Nat} {f : State → α → State} (l : List α) (s : State)
    (hf : ∀ a ∈ l, ∀ s, keepsOuts k s (f s a)) : keepsOuts k s (l.foldl f s) :=
  List.foldlRecOn (motive := keepsOuts k s) l f (keepsOuts_of_ctx rfl) fun _ ht a ha => ht.trans (hf a ha _)

/-- A write aborts no attempt of its own context. -/
theorem conflicts_ctx_writer (k : Nat) (s : State) (lines : List Nat) :
    (lines.foldl (fun s l => (s.conflictsWith (some k) l).foldl State.conflictAbort (s.markUnprot (some k) l)) s).ctx k = s.ctx k := by
  refine List.foldlRecOn (motive := fun t : State => t.ctx k = s.ctx k) lines _ rfl fun t ht l _ => ?_
  have hmark : (t.markUnprot (some k) l).ctx k = s.ctx k := by
    rw [ctx_of_mapVals (markUnprot_ctxs ..) (if_pos rfl), if_pos rfl, ht]
  exact List.foldlRecOn (motive := fun u : State => u.ctx k = s.ctx k) _ _ hmark
    fun u hu j hj => (conflictAbort_ctx_other u (ne_of_mem_conflictsWith hj)).trans hu

theorem spring_keepsOuts (k : Nat) (s : State) (home : Option Nat) (line : Nat) : keepsOuts k s (s.spring (some k) home line) := by
  unfold State.spring State.springIn
  dsimp only
  refine .trans ?_ (.foldl _ _ fun j hj s => ?_)
  · refine .trans (keepsOuts_of_ctxs rfl) (.foldl _ _ fun j _ s => ?_)
    by_cases hjk : k = j
    · subst hjk
      exact keepsOuts_of_outs (by rw [State.onCtx_ctx_same]) (by rw [State.onCtx_ctx_same])
    · exact keepsOuts_of_ctx (State.onCtx_ctx_other _ _ hjk)
  · split
    · refine keepsOuts_of_ctx (conflictAbort_ctx_other s fun hk => ?_)
      obtain ⟨e, -, he⟩ := List.mem_flatMap.1 hj
      split at he
      · simp [hk] at he
      · cases he
    · exact keepsOuts_of_ctx rfl

theorem Out.retest_of_not_waiting {o : Out} (h : o.awaitedDword = none) (lines : List Nat) (value : Nat → Word) : o.retest lines value = o := by
  rw [Out.retest, h]

theorem retestWaits_keepsOuts (k : Nat) (s : State) (lines : List Nat) : keepsOuts k s (s.retestWaits lines) := by
  rw [keepsOuts, ctx_of_mapVals (retestWaits_ctxs ..) rfl]
  split
  · exact keepsOuts_of_ctx (s := s) rfl
  · refine ⟨rfl, fun seq o ho hwait => ?_⟩
    have hseq : ((fun o : Out => o.seq == seq) ∘ Out.retest lines fun pa => word (s.gdword pa)) = fun o : Out => o.seq == seq :=
      funext fun o : Out => congrArg (fun n : Nat => n == seq) (Out.retest_seq lines _ o)
    show ((s.ctx k).outs.map _).find? (fun o : Out => o.seq == seq) = _
    rw [List.find?_map, hseq, show (s.ctx k).outs.find? (fun o => o.seq == seq) = some o from ho, Option.map_some,
      Out.retest_of_not_waiting hwait]

theorem gwriteQuiet_keepsOuts (k : Nat) (s : State) (die : Nat) (home : Nat → Option Nat) (cells : List (Nat × Byte)) :
    keepsOuts k s (s.gwriteQuiet (some k) die home cells) := by
  unfold State.gwriteQuiet
  dsimp only
  refine .trans ?_ (retestWaits_keepsOuts k _ _)
  refine .trans ?_ (.foldl _ _ fun l _ s => spring_keepsOuts k s _ l)
  refine .trans ?_ (keepsOuts_of_ctx (conflicts_ctx_writer k _ _))
  exact keepsOuts_of_ctxs (updateCopies_ctxs ..)

/-! ### The cells of a queue's home -/

section
variable (s : State) (k : Nat) (cs : List (Ref × Byte)) (count : Nat)

theorem queueCells_keepsOuts : keepsOuts k s (s.queueCells k cs count) := by
  unfold State.queueCells
  split
  · exact keepsOuts_of_ctx rfl
  · refine (gwriteQuiet_keepsOuts k s noDie (homeIn? cs) (globalCells cs)).trans (keepsOuts_of_ctxs ?_)
    rw [keepPoison_frame]

theorem queueCells_cp : (s.queueCells k cs count).cp = s.cp := by
  unfold State.queueCells
  split
  · rfl
  · rw [keepPoison_frame]
    exact (gwriteQuiet_besides s (some k) noDie (homeIn? cs) (globalCells cs)).cp

variable {cs}

/-- The writes of a queue's home change exactly the bytes of their cells. -/
theorem queueCells_writes (hcs : localCells cs = []) : writesCells s (s.queueCells k cs count) k cs := by
  intro hwf
  suffices hsame : (∀ a, (s.queueCells k cs count).gbyte a = (lastAt (globalCells cs) a).getD (s.gbyte a)) ∧
      ∀ q a, ((s.queueCells k cs count).quad q).mem.get a = (s.quad q).mem.get a by
    refine ⟨hsame.1, fun a => ?_, fun q _ => hsame.2 q⟩
    rw [hsame.2, hcs]
    rfl
  unfold State.queueCells
  split
  next he =>
    rw [List.isEmpty_iff.1 he]
    exact ⟨fun _ => rfl, fun _ _ => rfl⟩
  · have hpoison := keepPoison_sameMem (s.gwriteQuiet (some k) noDie (homeIn? cs) (globalCells cs)) s (quadOf k)
      fun l w => !l && w == count / 8
    refine ⟨fun a => ?_, fun q a => ?_⟩
    · rw [hpoison.1, gwriteQuiet_get _ _ _ _ _ hwf.1]
    · rw [hpoison.2, (gwriteQuiet_besides s (some k) noDie (homeIn? cs) (globalCells cs)).quad]
      rfl

end

theorem signal_frame (s : State) (vector : Nat) : s.signal vector = { s with cp := (s.signal vector).cp } := by
  unfold State.signal
  split <;> rfl

end Sys2Proof.Machine
end

section
/-! Work queues (09_tasks R230, R231): how enq, hostpost and deq issue, and what the descriptor's home does with them. -/

namespace Sys2Proof.Machine

/-! ### The checks of several addresses -/

theorem pretranslate_onlyTlb (s : State) (k : Nat) (l : List Asked) : onlyTlb s (pretranslate s k l).2 := by
  induction l generalizing s with
  | nil => exact .refl s
  | cons x t ih =>
    unfold pretranslate
    split
    · exact ih s
    · have htlb := translateFor_onlyTlb s k x.a
      split
      next heq => rw [heq] at htlb; exact htlb
      next heq => rw [heq] at htlb; exact htlb.trans (ih _)

theorem precheck_onlyTlb {s s' : State} {k : Nat} {l : List Asked} {e : Option Denied} (h : precheck s k l = (e, s')) : onlyTlb s s' := by
  have htlb : onlyTlb s (precheck s k l).2 := by
    unfold precheck
    split
    · exact .refl s
    · exact pretranslate_onlyTlb s k l
  rwa [h] at htlb

theorem afterChecks_passed {s s' : State} {l : List Asked} (h : precheck s s.cur l = (none, s')) (f : State → State) :
    s.afterChecks l f = f s' := by
  rw [State.afterChecks, h]

/-! ### enq and hostpost issue -/

section
variable {s s1 s2 s3 : State} {d a b : BitVec 5} {r rr : Ref} (hattempt : s.me.attempt = none) (houts : s.me.outs = [])
  (hpre : precheck s s.cur [{ a := s.me.getX a, align := 64, globalOnly := true, kind := .store }, { a := s.me.getX b, align := 64 }] =
    (none, s1))
  (hcheck : checkAccess s1 s.cur .store (s.me.getX a) 64 64 = (.ok r, s2)) (hclean : s2.poisonSeen s.cur r 64 = false)
  (hrecord : checkAccess s2 s.cur .load (s.me.getX b) 64 64 = (.ok rr, s3))
include hattempt houts hpre hcheck hclean hrecord

/-- A record that is read is to be put into the queue. -/
theorem post_issues {host : Bool} {w : Word32} {i : Instr} (hexec : exec i s = post host w d a b s) :
    ∃ (t : State) (o : Out), exec i s = .next t ∧ issuesOut s3 t o ∧ o.rel = true ∧
      o.op = .enq r d ((rr.span 64).map (s3.readByte s.myQuad false)) host (pageEnd s2 s.cur (s.me.getX a))
        (queueReach s3 r (pageEnd s2 s.cur (s.me.getX a))) := by
  have htlb1 := precheck_onlyTlb hpre
  have htlb2 := htlb1.trans (checkAccess_tlb hcheck)
  have htlb3 := htlb2.trans (checkAccess_tlb hrecord)
  refine ⟨_, _, hexec.trans ?_, s3.issue_out (.enq r d ((rr.span 64).map (s3.readByte s.myQuad false)) host
    (pageEnd s2 s.cur (s.me.getX a)) (queueReach s3 r (pageEnd s2 s.cur (s.me.getX a)))) [.x d] false false true none 0, rfl, rfl⟩
  unfold post
  dsimp only
  rw [State.unlessAttempt_outside hattempt, afterChecks_passed hpre, htlb1.cur, hcheck]
  dsimp only
  rw [htlb2.cur, hclean, if_neg Bool.false_ne_true, readRecord_granted (htlb2.cur.symm ▸ hrecord) (htlb3.me.symm ▸ houts), htlb3.myQuad]
  rfl

end

/-! ### deq issues -/

/-- The registers of a deq are waited for. -/
theorem mem_deqDsts (d : BitVec 5) : ∀ x ∈ [3, 4, 5, 6, 7, 8, 9], Dst.x (BitVec.ofNat 5 x) ∈ (deqDsts d).filter fun e => e != .x 0 := by
  have hregs : ∀ x ∈ [3, 4, 5, 6, 7, 8, 9], Dst.x (BitVec.ofNat 5 x) ∈ ((List.range 7).map fun i => Dst.x (BitVec.ofNat 5 (3 + i))) ∧
      (Dst.x (BitVec.ofNat 5 x) != .x 0) = true := by decide
  exact fun x hx => List.mem_filter.2 ⟨List.mem_append_left _ (hregs x hx).1, (hregs x hx).2⟩

theorem deq_issues {s s1 s2 : State} {sb : Bool} {d a : BitVec 5} {r : Ref} (hattempt : s.me.attempt = none)
    (hd : d.toNat < 3 ∨ 9 < d.toNat)
    (hpre : precheck s s.cur [{ a := s.me.getX a, align := 64, globalOnly := true, kind := .store }] = (none, s1))
    (hcheck : checkAccess s1 s.cur .store (s.me.getX a) 64 64 = (.ok r, s2)) (hclean : s2.poisonSeen s.cur r 64 = false)
    (hhead : ∀ n, headSlot s2 r (pageEnd s2 s.cur (s.me.getX a)) = some n → s2.poisonSeen s.cur (r.plus n) 64 = false) :
    ∃ (t : State) (o : Out), exec (.deq sb d a) s = .next t ∧ onlyTlb s s2 ∧ issuesOut s2 t o ∧ o.acq = true ∧
      o.op = .deq r d (pageEnd s2 s.cur (s.me.getX a)) (queueReach s2 r (pageEnd s2 s.cur (s.me.getX a))) ∧
      ∀ x ∈ [3, 4, 5, 6, 7, 8, 9], Dst.x (BitVec.ofNat 5 x) ∈ o.dsts := by
  have htlb1 := precheck_onlyTlb hpre
  have htlb2 := htlb1.trans (checkAccess_tlb hcheck)
  have hslot : ((headSlot s2 r (pageEnd s2 s.cur (s.me.getX a))).filter fun n => s2.poisonSeen s.cur (r.plus n) 64) = none :=
    Option.filter_eq_none_iff.2 fun n hn => by rw [hhead n hn]; exact Bool.false_ne_true
  refine ⟨_, _, ?_, htlb2, s2.issue_out (.deq r d (pageEnd s2 s.cur (s.me.getX a)) (queueReach s2 r (pageEnd s2 s.cur (s.me.getX a))))
    (deqDsts d) false true false none 0, rfl, rfl, mem_deqDsts d⟩
  show execDeq sb d a s = _
  unfold execDeq
  dsimp only
  rw [if_neg (by omega), State.unlessAttempt_outside hattempt, afterChecks_passed hpre, htlb1.cur, hcheck]
  dsimp only
  rw [htlb2.cur, hclean, if_neg Bool.false_ne_true, hslot]
  rfl

/-! ### The home of a descriptor -/

section
variable {s : State} {k : Nat} {r : Ref} {d : BitVec 5} {bs : List Byte} {host : Bool} {last : Nat}

theorem enqAt_bad (h : (QueueDesc.of (s.gread r.addr 64)).bad r.addr last host = true) : s.enqAt k r bs host last = some (3, s) := if_pos h

theorem enqAt_full (h : (QueueDesc.of (s.gread r.addr 64)).bad r.addr last host = false)
    (hfull : (QueueDesc.of (s.gread r.addr 64)).used = (QueueDesc.of (s.gread r.addr 64)).cap) : s.enqAt k r bs host last = some (1, s) := by
  unfold State.enqAt
  dsimp only
  rw [h, if_neg Bool.false_ne_true, if_pos hfull]

/-- What putting a record into the queue writes: the tail's slot, then TAIL. -/
def QueueDesc.putCells (q : QueueDesc) (r : Ref) (bs : List Byte) : List (Ref × Byte) :=
  cellsAt r (r.addr + 64 + 64 * (q.tail % q.cap)) bs ++ cellsAt r (r.addr + 8) (bytesOfNat 8 (q.tail + 1))

theorem localCells_putCells (hr : r.isLocal = false) (q : QueueDesc) (bs : List Byte) : localCells (q.putCells r bs) = [] := by
  have happend := List.filterMap_append (l := cellsAt r (r.addr + 64 + 64 * (q.tail % q.cap)) bs)
    (l' := cellsAt r (r.addr + 8) (bytesOfNat 8 (q.tail + 1))) (f := fun c => if c.1.isLocal then some (c.1.addr, c.2) else none)
  exact happend.trans (by rw [← localCells, ← localCells, localCells_cellsAt hr, localCells_cellsAt hr]; rfl)

theorem enqAt_puts (h : (QueueDesc.of (s.gread r.addr 64)).bad r.addr last host = false)
    (hroom : (QueueDesc.of (s.gread r.addr 64)).used ≠ (QueueDesc.of (s.gread r.addr 64)).cap)
    (hmay : s.mayWriteCells k ((QueueDesc.of (s.gread r.addr 64)).putCells r bs) = true) :
    s.enqAt k r bs host last =
      let t := s.queueCells k (s.served ((QueueDesc.of (s.gread r.addr 64)).putCells r bs)) (r.addr + 8)
      some (0, if host then t.signal (QueueDesc.of (s.gread r.addr 64)).vector else t) := by
  unfold State.enqAt
  dsimp only
  rw [h, if_neg Bool.false_ne_true, if_neg hroom]
  refine if_neg ?_
  show ¬ (!s.mayWriteCells k ((QueueDesc.of (s.gread r.addr 64)).putCells r bs)) = true
  rw [hmay]
  exact Bool.false_ne_true

theorem deqAt_bad (h : (QueueDesc.of (s.gread r.addr 64)).bad r.addr last false = true) : s.deqAt k r d last = some ([.x d 3], s) := if_pos h

theorem deqAt_empty (h : (QueueDesc.of (s.gread r.addr 64)).bad r.addr last false = false)
    (hempty : (QueueDesc.of (s.gread r.addr 64)).used = 0) : s.deqAt k r d last = some ([.x d 1], s) := by
  unfold State.deqAt
  dsimp only
  rw [h, if_neg Bool.false_ne_true, if_pos hempty]

/-- x4 to x9 of a deq, and its status, by the fields of the record (R231). -/
def RecFields.deqArgs (f : RecFields) : List RegWrite :=
  (List.range 6).map fun i => .x (BitVec.ofNat 5 (4 + i)) ((if f.ok then f.argsUsed else f.args).getD i 0)
def RecFields.deqStatus (f : RecFields) : Word :=
  word (if f.ok then f.entry * 2 ^ 32 + f.argc * 2 ^ 12 + f.flags * 2 ^ 10 + f.pri * 2 ^ 8 else f.entry * 2 ^ 32 + 2)

theorem deqArgs_length (f : RecFields) : f.deqArgs.length = 6 := rfl

theorem deqArgs_of_ok {f : RecFields} (h : f.ok = true) {i : Nat} (hi : i < 6) :
    f.deqArgs[i]? = some (.x (BitVec.ofNat 5 (4 + i)) (if i < f.argc then f.args.getD i 0 else 0)) := by
  have harg : f.argsUsed.getD i 0 = if i < f.argc then f.args.getD i 0 else 0 := by
    rw [RecFields.argsUsed, List.getD_eq_getElem?_getD, List.getElem?_map, List.getElem?_range hi]
    rfl
  rw [RecFields.deqArgs, if_pos h, List.getElem?_map, List.getElem?_range hi, Option.map_some, harg]

theorem deqAt_takes (h : (QueueDesc.of (s.gread r.addr 64)).bad r.addr last false = false)
    (hfilled : (QueueDesc.of (s.gread r.addr 64)).used ≠ 0)
    (hmay : s.mayWriteCells k (cellsAt r r.addr (bytesOfNat 8 ((QueueDesc.of (s.gread r.addr 64)).head + 1))) = true) :
    s.deqAt k r d last =
      let q := QueueDesc.of (s.gread r.addr 64)
      let f := RecFields.of (s.gread (r.addr + 64 + 64 * (q.head % q.cap)) 64)
      some (.x 3 f.tag :: (f.deqArgs ++ [.x d f.deqStatus]),
        s.queueCells k (s.served (cellsAt r r.addr (bytesOfNat 8 (q.head + 1)))) r.addr) := by
  unfold State.deqAt
  dsimp only
  rw [h, if_neg Bool.false_ne_true, if_neg hfilled, hmay]
  rfl

end

section
variable {s : State} {k : Nat} {o : Out} {r : Ref} {d : BitVec 5} {bs : List Byte} {host : Bool} {last upTo : Nat}

theorem perform_enq (hop : o.op = .enq r d bs host last upTo) {w : Word} {u : State} (h : s.enqAt k r bs host last = some (w, u)) :
    s.perform k o = (u.answer k o.seq { writes := [.x d w] }, true) := by
  unfold State.perform
  rw [hop]
  dsimp only
  rw [h]

theorem perform_deq (hop : o.op = .deq r d last upTo) {ws : List RegWrite} {u : State} (h : s.deqAt k r d last = some (ws, u)) :
    s.perform k o = (u.answer k o.seq { writes := ws }, true) := by
  unfold State.perform
  rw [hop]
  dsimp only
  rw [h]

end

section
variable {s : State} {k seq : Nat} {o : Out} (hev : s.ev = [k, seq]) (hout : (s.ctx k).out seq = some o) (hans : o.ans = none)
  (hpure : o.pure = false) (hmay : (s.ctx k).mayPerform o = true) (hstatus : (s.ctx k).status ≠ .ending)
include hev hout hans hpure hmay hstatus

/-- The step of a queue's home: what the operation leaves of the machine, and its answer at the access that has asked. -/
theorem homeQueueApply_answers {u : State} {ws : List RegWrite}
    (hop : (∃ r d bs host last upTo, o.op = .enq r d bs host last upTo) ∨ ∃ r d last upTo, o.op = .deq r d last upTo)
    (hperform : s.perform k o = (u.answer k o.seq { writes := ws }, true)) (hkeeps : keepsOuts k s u) :
    exec .homeQueueApply s = .next (u.answer k seq { writes := ws }) ∧
      ((u.answer k seq { writes := ws }).ctx k).out seq = some { o with ans := some { writes := ws } } := by
  have hwait : o.awaitedDword = none := by
    rcases hop with ⟨r, d, bs, host, last, upTo, hop⟩ | ⟨r, d, last, upTo, hop⟩ <;> rw [Out.awaitedDword, hop]
  have hexec : exec .homeQueueApply s = .next ((s.perform k o).1.endIfDone k) := by
    show execHomeQueueApply s = _
    unfold execHomeQueueApply
    refine homeStep_performs hev hout ?_ hans (.inr hpure) hmay
    rcases hop with ⟨r, d, bs, host, last, upTo, hop⟩ | ⟨r, d, last, upTo, hop⟩ <;> rw [hop]
  have hctx : (u.answer k seq { writes := ws }).ctx k = (u.ctx k).onOut seq fun o => { o with ans := some { writes := ws } } :=
    State.onCtx_ctx_same _ _ _
  rw [hperform, seq_of_out hout, endIfDone_of_not_ending (by rw [hctx]; exact hkeeps.1.trans_ne hstatus)] at hexec
  exact ⟨hexec, by rw [hctx]; exact Ctx.onOut_out (hkeeps.2 seq o hout hwait) fun _ => rfl⟩

end

/-- Settles O24: the forms issue what their checks have granted; the home answers by the descriptor, and writes by its cells. -/
theorem workQueues : Obligations.WorkQueues := by
  constructor
  · intro s sb d a b r s2 hattempt houts xa xb
    refine ⟨fun s1 rr s3 hpre hcheck hclean hrecord => ⟨?_, ?_⟩, fun s1 hd hpre hcheck hclean hhead => ?_⟩
    · exact ((precheck_onlyTlb hpre).trans (checkAccess_tlb hcheck)).trans (checkAccess_tlb hrecord)
    · exact ⟨post_issues hattempt houts hpre hcheck hclean hrecord rfl, post_issues hattempt houts hpre hcheck hclean hrecord rfl⟩
    · exact deq_issues hattempt hd hpre hcheck hclean hhead
  · intro s k seq o r d last upTo hev hout hans hpure hmay hstatus hglobal q answered used
    have same : keepsOuts k s s := keepsOuts_of_ctx rfl
    refine ⟨fun bs host hop => ?enq, fun hop => ?deq⟩
    case enq =>
      have step {u : State} {w : Word} (h : s.enqAt k r bs host last = some (w, u)) :=
        homeQueueApply_answers hev hout hans hpure hmay hstatus (.inl ⟨_, _, _, _, _, _, hop⟩) (perform_enq hop h)
      refine ⟨fun hbad => ?_, fun hok hfull => ?_, fun hok hroom hfree => ?_⟩
      · obtain ⟨hexec, hanswer⟩ := step (enqAt_bad hbad) same
        exact ⟨_, hexec, .refl s, hanswer⟩
      · obtain ⟨hexec, hanswer⟩ := step (enqAt_full hok hfull) same
        exact ⟨_, hexec, .refl s, hanswer⟩
      · have hputs := enqAt_puts hok hroom hfree
        have hwrites := queueCells_writes s k (r.addr + 8) (localCells_served s (localCells_putCells hglobal q bs))
        have hkeeps := queueCells_keepsOuts s k (s.served (q.putCells r bs)) (r.addr + 8)
        have hcp := queueCells_cp s k (s.served (q.putCells r bs)) (r.addr + 8)
        cases host with
        | false =>
          obtain ⟨hexec, hanswer⟩ := step hputs hkeeps
          exact ⟨_, hexec, hwrites, hanswer, fun _ => hcp⟩
        | true =>
          have hsignal := signal_frame (s.queueCells k (s.served (q.putCells r bs)) (r.addr + 8)) q.vector
          obtain ⟨hexec, hanswer⟩ := step hputs (hkeeps.trans (keepsOuts_of_ctxs (by rw [if_pos rfl, hsignal])))
          refine ⟨_, hexec, ?_, hanswer, fun h => absurd h (by decide)⟩
          rw [if_pos rfl, hsignal]
          exact hwrites
    case deq =>
      have step {u : State} {ws : List RegWrite} (h : s.deqAt k r d last = some (ws, u)) :=
        homeQueueApply_answers hev hout hans hpure hmay hstatus (.inr ⟨_, _, _, _, hop⟩) (perform_deq hop h)
      refine ⟨fun hbad => ?_, fun hok hempty => ?_, fun hok hfilled hfree => ?_⟩
      · obtain ⟨hexec, hanswer⟩ := step (deqAt_bad hbad) same
        exact ⟨_, hexec, .refl s, hanswer⟩
      · obtain ⟨hexec, hanswer⟩ := step (deqAt_empty hok hempty) same
        exact ⟨_, hexec, .refl s, hanswer⟩
      · have hwrites := queueCells_writes s k r.addr (localCells_served s (localCells_cellsAt hglobal r.addr (bytesOfNat 8 (q.head + 1))))
        obtain ⟨hexec, hanswer⟩ := step (deqAt_takes hok hfilled hfree) (queueCells_keepsOuts s k _ r.addr)
        exact ⟨_, _, _, hexec, hwrites, hanswer, deqArgs_length _,
          fun hrecord i hi => ⟨deqArgs_of_ok hrecord hi, congrArg word (if_pos hrecord)⟩⟩

end Sys2Proof.Machine
end


section
/-! Records and tasks (09_tasks R204 to R214, R224): the record that is taken, the context that starts, and what neither touches. -/

namespace Sys2Proof.Machine

/-! ### The record of the highest priority (R206) -/

/-- Along a falling list, the first place of a value is the greatest one that has any. -/
theorem findSome?_of_greatest {β : Type} {f : Nat → Option β} {l : List Nat} {p : Nat} {b : β} (hsorted : l.Pairwise (· > ·)) (hp : p ∈ l)
    (habove : ∀ x, p < x → f x = none) (hf : f p = some b) : l.findSome? f = some b := by
  induction l with
  | nil => cases hp
  | cons a l ih =>
    obtain ⟨hhead, htail⟩ := List.pairwise_cons.1 hsorted
    rw [List.findSome?_cons]
    rcases List.mem_cons.1 hp with rfl | hp
    · rw [hf]
    · rw [habove a (hhead p hp)]
      exact ih htail hp

theorem bestRecord_of_highest {q : List Record} {r : Record} (hpri : r.pri ≤ 3) (hmax : ∀ x ∈ q, x.pri ≤ r.pri)
    (hfirst : q.find? (fun x => x.pri == r.pri) = some r) : bestRecord (fun _ => true) q = some r := by
  refine findSome?_of_greatest (p := r.pri) (by decide) ?_ (fun p hp => ?_) (by simpa only [Bool.and_true] using hfirst)
  · simp only [List.mem_cons, List.not_mem_nil, or_false]
    omega
  · refine List.find?_eq_none.2 fun x hx h => ?_
    have heq : x.pri = p := by simpa using h
    exact absurd (hmax x hx) (by omega)

/-! ### The registers of a start (R204, R224) -/

theorem toNat_setFld_low2 (w : Word) : (setFld w 0 2 0).toNat = w.toNat / 4 * 4 := by
  have hlt := w.isLt
  simp only [setFld, fld_low, BitVec.toNat_ofNat]
  omega

theorem foldl_put_get {α : Type} (v : Nat → α) (base : Map α) (d : α) (k n : Nat) :
    ((List.range n).foldl (fun (m : Map α) i => m.put (4 + i) (v i)) base).get d k =
      if 4 ≤ k ∧ k < 4 + n then v (k - 4) else base.get d k := by
  induction n with
  | zero => rw [if_neg (by omega)]; rfl
  | succ n ih =>
    rw [List.range_succ, List.foldl_append, List.foldl_cons, List.foldl_nil, Map.get_put, ih]
    by_cases hk : k = 4 + n
    · rw [if_pos hk, if_pos (by omega), hk, Nat.add_sub_cancel_left]
    · rw [if_neg hk]
      exact if_congr (by omega) rfl rfl

section
variable {c : Ctx} {old : Map Word} {x3 : Word} {args : List Word} (h : c.regs.x = startRegs old x3 args)
include h

theorem getX_startRegs_three : c.getX 3 = x3 := by
  rw [Ctx.getX, if_neg (by decide), h]
  exact (foldl_put_get ..).trans (Map.get_put_same ..)

theorem getX_startRegs_arg {j : Nat} (hj : j < 7) : c.getX (BitVec.ofNat 5 (4 + j)) = args.getD j 0 := by
  have hreg : (BitVec.ofNat 5 (4 + j)).toNat = 4 + j := by
    rw [BitVec.toNat_ofNat]
    omega
  have hne : BitVec.ofNat 5 (4 + j) ≠ 0 := fun h0 => by
    rw [h0] at hreg
    have hzero : 0 = 4 + j := hreg
    omega
  rw [Ctx.getX, if_neg hne, h, hreg, startRegs, foldl_put_get (fun i => args.getD i 0), if_pos (by omega), Nat.add_sub_cancel_left]

theorem getX_startRegs_other {x : BitVec 5} (hx : x.toNat < 3 ∨ 10 < x.toNat) :
    c.getX x = if x = 0 then 0 else old.get 0 x.toNat := by
  have hthree : x.toNat ≠ 3 := by omega
  have hnone : ¬ (4 ≤ x.toNat ∧ x.toNat < 4 + 7) := by omega
  rw [Ctx.getX, h, startRegs, foldl_put_get (fun i => args.getD i 0), if_neg hnone, Map.get_put_other _ _ _ hthree]

end

/-! ### A task starts (R202, R204) -/

theorem freeTask_lowest {s : State} {core i : Nat} (hi : i < 4) (hfree : (s.ctx (8 * core + i)).status = .free)
    (hlow : ∀ j, j < i → (s.ctx (8 * core + j)).status ≠ .free) : freeTask s core = some i := by
  refine List.find?_range_eq_some.2 ⟨by simpa using hfree, List.mem_range.2 hi, fun j hj => ?_⟩
  simpa using hlow j hj

theorem freeTask_spec {s : State} {core i : Nat} (h : freeTask s core = some i) :
    coreOf (8 * core + i) = core ∧ (s.ctx (8 * core + i)).status = .free := by
  have hi : i < 4 := List.mem_range.1 (List.mem_of_find?_eq_some h)
  have hfree := List.find?_some (p := fun i => (s.ctx (8 * core + i)).status == .free) h
  exact ⟨by rw [coreOf]; omega, eq_of_beq hfree⟩

/-- A core's state but for its retention and the count of its starts. -/
def sameRecords (c e : Core) : Prop := e = { c with retain := e.retain, starts := e.starts }

theorem endRetentions_frame (s : State) (quad : Nat) (entry : Word) :
    s.endRetentions quad entry = { s with cores := (s.endRetentions quad entry).cores } :=
  List.foldlRecOn (motive := fun t : State => t = { s with cores := t.cores }) _ _ rfl fun t ht i _ => by rw [ht]; rfl

theorem endRetentions_core (s : State) (quad : Nat) (entry : Word) (j : Nat) :
    sameRecords (s.core j) ((s.endRetentions quad entry).core j) := by
  refine List.foldlRecOn (motive := fun t : State => sameRecords (s.core j) (t.core j)) _ _ rfl fun t ht i _ => ?_
  by_cases hj : j = 4 * quad + i
  · rw [← hj, State.onCore_core_same]
    split
    · split
      · rw [sameRecords, ht]
      · exact ht
    · exact ht
  · rwa [State.onCore_core_other _ _ hj]

/-- The record `r` has started in the context of a core. -/
def taskStarts (s t : State) (core i : Nat) (r : Record) : Prop :=
  t = { s with cores := t.cores, ctxs := t.ctxs } ∧ (∀ k, k ≠ 8 * core + i → t.ctx k = s.ctx k) ∧
  (∃ n, t.ctx (8 * core + i) = (s.ctx (8 * core + i)).start r n) ∧ ∀ j, sameRecords (s.core j) (t.core j)

theorem startTask_starts {s : State} {core i : Nat} (h : freeTask s core = some i) (r : Record) :
    taskStarts s (s.startTask core r) core i r := by
  have hframe := endRetentions_frame s (quadOfCore core) r.entry
  unfold State.startTask
  rw [h]
  dsimp only
  refine ⟨by rw [hframe]; rfl, fun k hk => ?_, ⟨((s.core core).starts + 1) % 2 ^ 28, ?_⟩, fun j => ?_⟩
  · rw [State.onCtx_ctx_other _ _ hk, State.onCore_ctx, hframe]
    rfl
  · rw [State.onCtx_ctx_same, State.onCore_ctx, hframe]
    rfl
  · have hj := endRetentions_core s (quadOfCore core) r.entry j
    rw [State.onCtx_core]
    by_cases hcore : j = core
    · rw [hcore] at hj
      rw [hcore, State.onCore_core_same, sameRecords, hj]
    · rwa [State.onCore_core_other _ _ hcore]

section
variable {s t : State} {core i : Nat} {r : Record} (h : taskStarts s t core i r)
include h

theorem taskStarts.sameMem : sameMem s t := by
  rw [h.1]
  exact .refl s

theorem taskStarts.queue (j : Nat) : (t.core j).queue = (s.core j).queue := by rw [h.2.2.2 j]

theorem taskStarts.probe (j : Nat) : (t.core j).probe = (s.core j).probe := by rw [h.2.2.2 j]

theorem taskStarts.runs : (t.ctx (8 * core + i)).status = .running ∧ (t.ctx (8 * core + i)).task.stolen = r.stolen ∧
    (t.ctx (8 * core + i)).pc.toNat = r.entry.toNat / 4 * 4 := by
  obtain ⟨n, hctx⟩ := h.2.2.1
  rw [hctx]
  exact ⟨rfl, rfl, toNat_setFld_low2 _⟩

end

/-! ### A record leaves its queue (R205, R206, R213) -/

/-- A record has left a core's queue, with the drain event of that. -/
def State.recordTaken (s : State) (core : Nat) (r : Record) : State :=
  (s.onCore core fun c => { c with queue := dropRecord c.queue r }).noteDrain core

theorem takeRecord_passed {s : State} {core : Nat} {ok : Record → Bool} {r : Record}
    (hbest : bestRecord ok (s.core core).queue = some r) (hpassed : s.passed r.gate) :
    s.takeRecord core ok = some (r, s.recordTaken core r) := by
  rw [State.takeRecord, hbest, Option.bind_some, openGate_passed hpassed]
  rfl

section
variable (s : State) (core : Nat) (r : Record)

theorem recordTaken_sameMem : sameMem s (s.recordTaken core r) := .refl s

theorem recordTaken_queue : ((s.recordTaken core r).core core).queue = (s.core core).queue.erase r := by
  show ((s.onCore core fun c => { c with queue := dropRecord c.queue r }).core core).queue = _
  rw [State.onCore_core_same]
  rfl

end

theorem giveStolen_starts {s : State} {core i : Nat} (h : freeTask s core = some i) (r : Record) :
    taskStarts s (s.giveStolen core r) core i { r with stolen := true } := by
  rw [State.giveStolen, h]
  exact startTask_starts h _

/-! ### The steps -/

section
variable {s : State} {core : Nat}

theorem taskStart_starts {i : Nat} {r : Record} (hev : s.ev = [core]) (hon : coreOn s core = true) (hfree : freeTask s core = some i)
    (hbest : bestRecord (fun _ => true) (s.core core).queue = some r) (hpassed : s.passed r.gate) :
    exec .taskStart s = .next ((s.recordTaken core r).startTask core r) := by
  show execTaskStart s = _
  unfold execTaskStart
  dsimp only
  rw [arg_first hev, hbest]
  dsimp only
  rw [State.when_, hon, hfree]
  exact congrArg Host.Outcome.next ((if_pos rfl).trans (pastGates_passed _ (List.forall_mem_singleton.2 hpassed)))

/-- The handler has begun a message, with what is left of its core's mailboxes. -/
def State.handlerBegun (s : State) (core : Nat) (m : Msg) (co : Core) : State :=
  (s.onCore core fun _ => co).onCtx (8 * core + 4) fun c => c.begin m

section
variable {m : Msg} (hev : s.ev = [core]) (hon : coreOn s core = true) (hfree : (s.ctx (8 * core + 4)).status = .free)
  (hnxm : m.nxm = (s.ctx (8 * core + 4)).nxm)
include hev hon hfree hnxm

omit hev in
theorem when_handlerBegun (co : Core) :
    (s.when_ (coreOn s core && (s.ctx (handlerOf core)).status == .free) fun s =>
      let s := (s.onCore core fun _ => co).onCtx (handlerOf core) fun c => c.begin m
      if m.nxm = (s.ctx (handlerOf core)).nxm then s
      else s.takeTrap (handlerOf core) cMismatch 0 (ofBool m.nxm) (s.ctx (handlerOf core)).pc) = .next (s.handlerBegun core m co) := by
  have hsame : m.nxm = ((s.handlerBegun core m co).ctx (8 * core + 4)).nxm := by
    rw [State.handlerBegun, State.onCtx_ctx_same]
    exact hnxm
  rw [State.when_, hon, handlerOf, hfree]
  exact congrArg Host.Outcome.next ((if_pos rfl).trans (if_pos hsame))

theorem handlerStart_reply {rest : List Msg} (h : (s.core core).replies = m :: rest) :
    exec .handlerStart s = .next (s.handlerBegun core m { s.core core with replies := rest }) := by
  show execHandlerStart s = _
  unfold execHandlerStart
  dsimp only
  rw [arg_first hev, h]
  exact when_handlerBegun hon hfree hnxm _

theorem handlerStart_request {rest : List Msg} (hnone : (s.core core).replies = []) (h : (s.core core).requests = m :: rest) :
    exec .handlerStart s = .next (s.handlerBegun core m { s.core core with requests := rest }) := by
  show execHandlerStart s = _
  unfold execHandlerStart
  dsimp only
  rw [arg_first hev, hnone, h]
  exact when_handlerBegun hon hfree hnxm _

end

theorem recordPromotion_promotes {i : Nat} {r : Record} (hev : s.ev = [core, i]) (h : (s.core core).queue[i]? = some r)
    (hpri : r.pri < 3) : exec .recordPromotion s =
      .next (s.onCore core fun c => { c with queue := c.queue.eraseIdx i ++ [{ r with pri := r.pri + 1 }] }) := by
  show execRecordPromotion s = _
  unfold execRecordPromotion
  dsimp only
  rw [arg_first hev, arg_second hev, h]
  dsimp only
  rw [State.when_, decide_eq_true hpri, if_pos rfl]

theorem stealProbeQuad_steals {v : Nat} {r : Record} (hev : s.ev = [core]) (hon : coreOn s core = true) (hidle : coreIdle s core = true)
    (hsib : bestSibling s core = some v) (hbest : bestRecord Record.stealable (s.core v).queue = some r) (hpassed : s.passed r.gate) :
    exec .stealProbeQuad s = .next ((s.recordTaken v r).giveStolen core r) := by
  show execStealProbeQuad s = _
  unfold execStealProbeQuad
  dsimp only
  rw [arg_first hev, State.when_, hon, hidle, Bool.and_self, if_pos rfl, hsib]
  dsimp only
  rw [takeRecord_passed hbest hpassed]

theorem stealProbeLayer_leaves {v : Nat} (hev : s.ev = [core, v]) (hon : coreOn s core = true) (hidle : coreIdle s core = true)
    (hsib : bestSibling s core = none) (hprobe : (s.core core).probe = none) (hmay : mayProbe s core v = true) :
    exec .stealProbeLayer s = .next (s.onCore core fun c => { c with probe := some (v, none) }) := by
  show execStealProbeLayer s = _
  unfold execStealProbeLayer
  dsimp only
  rw [arg_first hev, arg_second hev, State.when_, hon, hidle, hsib, hprobe, hmay]
  rfl

theorem stealProbeReply_takes {v : Nat} {r : Record} (hev : s.ev = [core]) (hprobe : (s.core core).probe = some (v, none))
    (hruns : coreRuns s v = true) (hbest : bestRecord (fun x => x.stealable && x.isPortable) (s.core v).queue = some r)
    (hpassed : s.passed r.gate) :
    exec .stealProbeReply s = .next ((s.recordTaken v r).onCore core fun c => { c with probe := some (v, some r) }) := by
  show execStealProbeReply s = _
  unfold execStealProbeReply
  dsimp only
  rw [arg_first hev, hprobe]
  dsimp only
  rw [if_pos hruns, takeRecord_passed hbest hpassed]

theorem stealProbeReply_gives {v : Nat} {r : Record} (hev : s.ev = [core]) (hprobe : (s.core core).probe = some (v, some r))
    (hon : coreOn s core = true) (htakes : takesStolen s core r = true) :
    exec .stealProbeReply s = .next ((s.onCore core fun c => { c with probe := none }).giveStolen core r) := by
  show execStealProbeReply s = _
  unfold execStealProbeReply
  dsimp only
  rw [arg_first hev, hprobe]
  dsimp only
  rw [State.when_, hon, htakes, Bool.and_self, if_pos rfl]

end

/-! ### What an ended task left is performed (R217) -/

theorem writeCells_cores (s : State) (k : Nat) (cs : List (Ref × Byte)) :
    (s.writeCells k cs).cores = s.cores ∧ (s.writeCells k cs).cp = s.cp := by
  have hlocal : (s.writeLocal k cs).cores = s.cores ∧ (s.writeLocal k cs).cp = s.cp := by
    unfold State.writeLocal
    split
    · exact ⟨rfl, rfl⟩
    · exact ⟨(State.lwrite_besides ..).cores, (State.lwrite_besides ..).cp⟩
  rw [writeCells_eq]
  split
  · exact hlocal
  · exact ⟨(State.gwrite_besides ..).cores.trans hlocal.1, (State.gwrite_besides ..).cp.trans hlocal.2⟩

/-- A context that stands for the accesses of an ended task. -/
def State.withOuts (s : State) (k : Nat) (outs : List Out) : State := s.onCtx k fun _ => { outs }

/-- The state once a tracker entry's cells are written and its context is gone. -/
def State.entryPerformed (s : State) (k : Nat) (o : Out) (cells : List (Ref × Byte)) : State :=
  let t := ((s.withOuts k [o]).writeCells k (s.served cells)).onCtx k fun c => c.dropOut o.seq
  { t with ctxs := t.ctxs.drop k }

theorem entryPerformed_writes (s : State) (k : Nat) (o : Out) (cells : List (Ref × Byte)) :
    writesCells s (s.entryPerformed k o cells) k (s.served cells) := fun hwf =>
  writeCells_writes (s.withOuts k [o]) k (s.served cells) hwf

theorem entryPerformed_cores (s : State) (k : Nat) (o : Out) (cells : List (Ref × Byte)) (j : Nat) :
    (s.entryPerformed k o cells).core j = s.core j :=
  congrArg (fun m : Map Core => m.get {} j) (writeCells_cores (s.withOuts k [o]) k (s.served cells)).1

theorem entryPerformed_cp (s : State) (k : Nat) (o : Out) (cells : List (Ref × Byte)) : (s.entryPerformed k o cells).cp = s.cp :=
  (writeCells_cores (s.withOuts k [o]) k (s.served cells)).2

theorem retirementEntryFree_store {s : State} {core i : Nat} {l : Option Nat} {o : Out} {cells : List (Ref × Byte)} (hev : s.ev = [core, i])
    (h : (s.core core).tracker[i]? = some (l, [o])) (hop : o.op = .store cells) (hans : o.ans = none)
    (hmay : (s.withOuts (8 * core + 5) [o]).mayWriteCells (8 * core + 5) cells = true) :
    exec .retirementEntryFree s = .next (((s.entryPerformed (8 * core + 5) o cells).onCore core fun c =>
      { c with tracker := c.tracker.eraseIdx i }).launchTaskEnded l false) := by
  have houts : ((s.withOuts (8 * core + 5) [o]).ctx (8 * core + 5)).outs = [o] := by rw [State.withOuts, State.onCtx_ctx_same]
  have hperform : (s.onCtx (trackerCtx core) fun _ => { outs := [o] }).performAll (trackerCtx core) = _ :=
    (State.require_one houts hans rfl).trans (perform_store hop hmay)
  show execRetirementEntryFree s = _
  unfold execRetirementEntryFree State.retireEntry
  dsimp only
  rw [arg_first hev, arg_second hev, h]
  dsimp only
  rw [hperform, if_pos rfl]
  rfl

theorem launchTaskEnded_live {s : State} {j : Nat} {e : Launch} (h : s.cp.launches[j]? = some e) :
    (s.launchTaskEnded (some j) false).cp.launches[j]? = some { e with live := e.live - 1 } := by
  show (s.cp.launches.mapIdx _)[j]? = _
  rw [List.getElem?_mapIdx, h, Option.map_some, if_pos rfl, Bool.or_false]

/-- Settles O30: each step is one of the moves above, of the record that the test of its rule picks. -/
theorem schedulingSteps : Obligations.SchedulingSteps := by
  refine ⟨?taskStart, ?handlerStart, ?promotion, ?stealQuad, ?probeLeaves, ?probeReturns⟩
  case taskStart =>
    intro s core i r hev hon hi hfree hlow _ hpri hmax hfirst hpassed
    have hlowest := freeTask_lowest hi hfree hlow
    have hstarts := startTask_starts (s := s.recordTaken core r) hlowest r
    have ⟨_, hothers, ⟨n, hctx⟩, _⟩ := hstarts
    refine ⟨_, taskStart_starts hev hon hlowest (bestRecord_of_highest hpri hmax hfirst) hpassed,
      (recordTaken_sameMem s core r).trans hstarts.sameMem, hothers, (hstarts.queue core).trans (recordTaken_queue s core r), ?_⟩
    dsimp only
    rw [hctx]
    refine ⟨rfl, toNat_setFld_low2 _, getX_startRegs_three rfl, fun j => getX_startRegs_arg rfl, fun x hx => ?_, fun x => rfl,
      fun x hx => if_neg hx, rfl, rfl, rfl, ?_, rfl, rfl⟩
    · rw [getX_startRegs_other rfl hx]
      exact ite_self _
    · cases hn : r.nxm <;> simp [Ctx.start, ofBool, hn]
  case handlerStart =>
    intro s core m hev hon hfree hnxm c starts
    have begun (co : Core) (h : exec .handlerStart s = .next (s.handlerBegun core m co)) : starts co := by
      have hctx : (s.handlerBegun core m co).ctx (8 * core + 4) = (s.ctx (8 * core + 4)).begin m := State.onCtx_ctx_same ..
      refine ⟨_, h, .refl s, ?_, fun k hk => State.onCtx_ctx_other _ _ hk, ?_⟩
      · rw [State.handlerBegun, State.onCtx_core, State.onCore_core_same]
      dsimp only
      rw [hctx]
      exact ⟨rfl, rfl, toNat_setFld_low2 _, getX_startRegs_three rfl, rfl, fun j => getX_startRegs_arg rfl,
        fun x hx => getX_startRegs_other rfl hx⟩
    exact ⟨fun rest h => begun _ (handlerStart_reply hev hon hfree hnxm h),
      fun rest hnone h => begun _ (handlerStart_request hev hon hfree hnxm hnone h)⟩
  case promotion =>
    intro s core i r hev h hpri
    exact ⟨_, recordPromotion_promotes hev h hpri, rfl, .refl s, by rw [State.onCore_core_same]⟩
  case stealQuad =>
    intro s core v r hev hon hidle hsib hbest _ hpassed
    obtain ⟨i, hi⟩ := Option.isSome_iff_exists.1 (Bool.and_eq_true_iff.1 hidle).1
    have hstarts := giveStolen_starts (s := s.recordTaken v r) hi r
    obtain ⟨hcore, hfree⟩ := freeTask_spec hi
    obtain ⟨hrun, hstolen, hpc⟩ := hstarts.runs
    exact ⟨_, 8 * core + i, stealProbeQuad_steals hev hon hidle hsib hbest hpassed, (recordTaken_sameMem s v r).trans hstarts.sameMem,
      (hstarts.queue v).trans (recordTaken_queue s v r), hcore, hfree, hrun, hstolen, hpc⟩
  case probeLeaves =>
    intro s core v hev hon hidle hsib hprobe hmay
    exact ⟨_, stealProbeLayer_leaves hev hon hidle hsib hprobe hmay, rfl, .refl s, State.onCore_core_same ..⟩
  case probeReturns =>
    intro s core v hv
    refine ⟨fun r hev hprobe hruns hbest hpassed => ?_, fun r i hev hprobe hon hi => ?_, fun r hev hprobe hon hnone hroom => ?_,
      fun i l o cells hev hentry hop hans hmay => ?_⟩
    · refine ⟨_, stealProbeReply_takes hev hprobe hruns hbest hpassed, rfl, ?_, by rw [State.onCore_core_same]⟩
      rw [State.onCore_core_other _ _ hv, recordTaken_queue]
    · have hstarts := giveStolen_starts (s := s.onCore core fun c => { c with probe := none }) hi r
      refine ⟨_, stealProbeReply_gives hev hprobe hon (by rw [takesStolen, hi]; rfl), hstarts.sameMem, ?_, hstarts.runs⟩
      rw [hstarts.probe, State.onCore_core_same]
    · have hfull : freeTask s core = none := Option.isNone_iff_eq_none.1 hnone
      have hgiven : (s.onCore core fun c => { c with probe := none }).giveStolen core r =
          (s.onCore core fun c => { c with probe := none }).enqueue core { r with stolen := true } := by
        rw [State.giveStolen, show freeTask (s.onCore core fun c => { c with probe := none }) core = none from hfull]
        rfl
      refine ⟨_, stealProbeReply_gives hev hprobe hon (by rw [takesStolen, hfull, hroom]; rfl), ?_⟩
      rw [hgiven, State.enqueue, State.onCore_core_same, State.onCore_core_same]
      exact ⟨rfl, rfl, rfl⟩
    · have hframe := State.launchTaskEnded_frame ((s.entryPerformed (8 * core + 5) o cells).onCore core fun c =>
        { c with tracker := c.tracker.eraseIdx i }) l false
      refine ⟨_, retirementEntryFree_store hev hentry hop hans hmay, ?_, ?_, fun j e hl he => ?_⟩
      · rw [hframe]
        exact entryPerformed_writes s _ o cells
      · rw [hframe]
        show (((s.entryPerformed (8 * core + 5) o cells).onCore core fun c => { c with tracker := c.tracker.eraseIdx i }).core core).tracker = _
        rw [State.onCore_core_same, entryPerformed_cores]
      · rw [hl]
        refine launchTaskEnded_live ?_
        rw [State.onCore_cp, entryPerformed_cp, he]

end Sys2Proof.Machine
end

section
/-! Completions (17_host R397, R406): what the command processor stores begins no launch again and no entry. -/

namespace Sys2Proof.Machine

/-! ### What a completion leaves -/

/-- The launches are as before, and a queue runs no entry that it did not run before. -/
def runsNoMore (s t : State) : Prop := t.cp.launches = s.cp.launches ∧ ∀ q, ∀ e ∈ (t.queue q).running, e ∈ (s.queue q).running

theorem runsNoMore.refl (s : State) : runsNoMore s s := ⟨rfl, fun _ _ he => he⟩

theorem runsNoMore.trans {s t u : State} (h : runsNoMore s t) (g : runsNoMore t u) : runsNoMore s u :=
  ⟨g.1.trans h.1, fun q e he => h.2 q e (g.2 q e he)⟩

theorem runsNoMore_of_cp {s t : State} (h : t.cp = s.cp) : runsNoMore s t :=
  ⟨by rw [h], fun q e he => by rwa [State.queue, h] at he⟩

/-- A step of the command processor that leaves its launches and queues. -/
theorem runsNoMore_onCp {s : State} {f : Cp → Cp} (hl : (f s.cp).launches = s.cp.launches) (hq : (f s.cp).queues = s.cp.queues) :
    runsNoMore s (s.onCp f) :=
  ⟨hl, fun q e he => by rwa [State.queue, State.onCp_cp, hq] at he⟩

theorem queue_onQueue (s : State) (q j : Nat) (f : HQueue → HQueue) :
    (s.onQueue q f).queue j = if j = q then f (s.queue q) else s.queue j := Map.get_put ..

theorem runsNoMore_onQueue {s : State} {q : Nat} {f : HQueue → HQueue} (h : ∀ x, ∀ e ∈ (f x).running, e ∈ x.running) :
    runsNoMore s (s.onQueue q f) := by
  refine ⟨rfl, fun j e he => ?_⟩
  rw [queue_onQueue] at he
  split at he
  next hj =>
    rw [hj]
    exact h _ e he
  · exact he

section
variable (s : State)

theorem cpStore_runsNoMore {q a v : Nat} : ∀ t ∈ cpStore s q a v, runsNoMore s t := by
  intro t ht
  unfold cpStore at ht
  split at ht
  · cases ht
  · split at ht
    · cases ht
    · cases ht
      exact runsNoMore_of_cp (State.gwrite_besides ..).cp

theorem storeFailed_runsNoMore (q a reason : Nat) : runsNoMore s (s.storeFailed q a reason) := by
  unfold State.storeFailed
  dsimp only
  refine .trans ?_ (runsNoMore_onQueue fun _ _ he => he)
  split
  · exact .refl s
  · exact runsNoMore_onCp rfl rfl

theorem storeOrFail_runsNoMore (q a v reason : Nat) :
    runsNoMore s (match cpStore s q a v with | some t => t | none => s.storeFailed q a reason) := by
  split
  next t heq => exact cpStore_runsNoMore s t heq
  · exact storeFailed_runsNoMore ..

theorem raiseValue_runsNoMore (q : Nat) : runsNoMore s (s.raiseValue q) := by
  unfold State.raiseValue
  dsimp only
  split
  · exact .refl s
  · refine .trans ?_ (storeOrFail_runsNoMore ..)
    exact runsNoMore_onQueue fun _ _ he => he

theorem finishEntry_runsNoMore (q n status : Nat) (noint : Bool) : runsNoMore s (s.finishEntry q n status noint) := by
  unfold State.finishEntry
  refine .trans ?_ (runsNoMore_onCp rfl rfl)
  exact runsNoMore_onQueue fun _ _ he => List.mem_of_mem_filter he

theorem settleStop_runsNoMore (q : Nat) : runsNoMore s (s.settleStop q) := by
  unfold State.settleStop
  dsimp only
  split
  · refine .trans ?_ (runsNoMore_onCp rfl rfl)
    exact runsNoMore_onQueue fun _ _ he => he
  · exact .refl s

theorem markDead_runsNoMore (q : Nat) : runsNoMore s (s.markDead q) := by
  unfold State.markDead
  dsimp only
  split
  · exact .refl s
  · exact List.foldlRecOn (motive := runsNoMore s) _ _ (runsNoMore_onQueue fun _ _ he => he)
      fun t ht e _ => ht.trans (finishEntry_runsNoMore t ..)

theorem countStore_runsNoMore (n : Nat) : ∀ t ∈ s.countStore n, runsNoMore s t := by
  intro t ht
  unfold State.countStore at ht
  split at ht
  · cases ht
    exact .refl s
  · split at ht
    · dsimp only at ht
      split at ht
      · cases ht
        exact runsNoMore_of_cp (State.gwrite_besides ..).cp
      · cases ht
    · cases ht
      exact .refl s

theorem signal_runsNoMore (v : Nat) : runsNoMore s (s.signal v) := by
  unfold State.signal
  split
  · exact .refl s
  · exact runsNoMore_onCp rfl rfl

theorem storeItem_runsNoMore (i : CpStore) : ∀ t ∈ s.storeItem i, runsNoMore s t := by
  intro t ht
  cases i with
  | status q n code =>
    simp only [State.storeItem] at ht
    split at ht
    · cases ht
    · cases ht
      exact .trans (storeOrFail_runsNoMore ..) (runsNoMore_onQueue fun _ _ he => he)
  | value q =>
    simp only [State.storeItem] at ht
    split at ht
    · cases ht
    · cases ht
      exact raiseValue_runsNoMore s q
  | zero q =>
    simp only [State.storeItem] at ht
    split at ht
    · cases ht
    · cases ht
      exact storeOrFail_runsNoMore ..
  | count n => exact countStore_runsNoMore s n t ht
  | signal v =>
    cases ht
    exact signal_runsNoMore s v

theorem afterStore_runsNoMore (i : CpStore) : runsNoMore s (s.afterStore i) := by
  unfold State.afterStore
  split
  · exact .refl s
  · refine .trans ?_ (settleStop_runsNoMore ..)
    split
    · exact markDead_runsNoMore ..
    · exact .refl s

theorem drainStores_runsNoMore (n : Nat) : runsNoMore s (s.drainStores n) := by
  induction n generalizing s with
  | zero => exact .refl s
  | succ n ih =>
    unfold State.drainStores
    split
    · exact .refl s
    · split
      · exact .refl s
      next i rest _ _ t heq =>
        have hpopped : runsNoMore s (s.onCp fun c => { c with stores := rest }) := runsNoMore_onCp rfl rfl
        exact (hpopped.trans (storeItem_runsNoMore _ i t heq)).trans ((afterStore_runsNoMore t i).trans (ih _))

theorem finishEntry_running (q n status : Nat) (noint : Bool) :
    ((s.finishEntry q n status noint).queue q).running = (s.queue q).running.filter fun e => e.1 != n := by
  show ((s.onQueue q fun x => { x with running := x.running.filter fun e => e.1 != n }).queue q).running = _
  rw [queue_onQueue, if_pos rfl]

/-- Once an entry has completed, its queue runs it no more (R406); the launches stay. -/
theorem completeEntry_ends (q n status : Nat) :
    (s.completeEntry q n status).cp.launches = s.cp.launches ∧ ∀ e ∈ ((s.completeEntry q n status).queue q).running, e.1 ≠ n := by
  unfold State.completeEntry
  split
  next hnone => exact ⟨rfl, fun e he => by simpa using List.find?_eq_none.1 hnone e he⟩
  next noint _ =>
    obtain ⟨hlaunches, hrunning⟩ := drainStores_runsNoMore (s.finishEntry q n status noint) (2 ^ 16)
    refine ⟨hlaunches.trans (finishEntry_runsNoMore ..).1, fun e he => ?_⟩
    have hkept := hrunning q e he
    rw [finishEntry_running] at hkept
    exact bne_iff_ne.1 (List.mem_filter.1 hkept).2

end

end Sys2Proof.Machine
end

section
/-! Launches (09_tasks R209; 17_host R407): how one is begun, given its images, and seeded. -/

namespace Sys2Proof.Machine

/-! ### What the command processor reads does not rest on what its queues hold -/

section
variable (s : State) (j : Nat) (f : HQueue → HQueue)

theorem walkFrom_onQueue (quarters pasid va : Nat) (levels : List Nat) (node : Nat) :
    walkFrom (s.onQueue j f) quarters pasid va levels node = walkFrom s quarters pasid va levels node := by
  induction levels generalizing node with
  | nil => rfl
  | cons level rest ih =>
    have hentry (ea : Nat) : nodeEntry (s.onQueue j f) quarters level ea = nodeEntry s quarters level ea := rfl
    simp only [walkFrom, hentry, ih]

theorem walkSpace_onQueue (p : Part) (pasid va : Nat) : walkSpace (s.onQueue j f) p pasid va = walkSpace s p pasid va := by
  unfold walkSpace
  simp only [walkFrom_onQueue]
  rfl

variable {f} {q : Nat} (h : ((s.onQueue j f).queue q).pasid = (s.queue q).pasid)
include h

theorem cpRef_onQueue (a : Nat) (write : Bool) : cpRef (s.onQueue j f) q a write = cpRef s q a write := by
  have hpasid : ((s.onQueue j f).cp.queues.get {} q).pasid = (s.cp.queues.get {} q).pasid := h
  unfold cpRef
  simp only [hpasid, walkSpace_onQueue]
  rfl

theorem cpRead_onQueue (a n : Nat) : cpRead (s.onQueue j f) q a n = cpRead s q a n := by
  unfold cpRead
  simp only [cpRef_onQueue s j h]
  rfl

end

theorem cpRead_zero (s : State) (q a : Nat) : cpRead s q a 0 = some [] := rfl

/-! ### The head of a queue (R405) -/

theorem headEntry_ready {s : State} {q n : Nat} {eb : List Byte} {rest : List (Nat × List Byte)}
    (h : (s.queue q).entries = (n, eb) :: rest) (hdead : (s.queue q).dead = false) (hbarrier : entryBarrier eb = false) :
    s.headEntry q = some (n, eb) := by
  simp [State.headEntry, h, hdead, hbarrier]

theorem natOfBytes_drop_take_one (bs : List Byte) (i : Nat) : natOfBytes ((bs.drop i).take 1) = (bs.getD i 0).toNat := by
  induction bs generalizing i with
  | nil => simp [natOfBytes]
  | cons b bs ih =>
    cases i with
    | zero => simp [natOfBytes]
    | succ i => simpa using ih i

theorem argAt_first (eb : List Byte) : argAt (entryArgs eb) 0 = natOfBytes ((eb.drop 8).take 8) :=
  word_toNat (natOfBytes_take_lt (eb.drop 8) 8)

section
variable {s : State} {q n : Nat} {eb : List Byte} {rest : List (Nat × List Byte)} (h : (s.queue q).entries = (n, eb) :: rest)
include h

theorem startEntry_queue : (s.startEntry q).queue q = { s.queue q with entries := rest, running := (s.queue q).running ++ [(n, entryNoint eb)] } := by
  rw [State.startEntry, queue_onQueue, if_pos rfl, h]

theorem startEntry_pasid : ((s.startEntry q).queue q).pasid = (s.queue q).pasid := by rw [startEntry_queue h]

end

/-- The state in which a launch begins: its entry has started, and it stands among the launches. -/
def State.launchBegun (s : State) (q : Nat) (l : Launch) : State :=
  (s.startEntry q).onCp fun c => { c with launches := c.launches ++ [l] }

/-- The launch of an entry whose record has been read. -/
def launchOf (s : State) (q n p : Nat) (bs : List Byte) : Launch :=
  { queue := q, entry := n, part := p, pasid := (s.queue q).pasid, record := bs, todo := (LaunchRec.of bs).targetQuads }

theorem launch_begins {s : State} {q n p : Nat} {x : Part} {eb bs : List Byte} {rest : List (Nat × List Byte)} (hev : s.ev = [q])
    (hfw : s.cp.fwstat = 1) (hq : q ≠ 0) (hentries : (s.queue q).entries = (n, eb) :: rest) (hdead : (s.queue q).dead = false)
    (hop : entryOpcode eb = 1) (hbarrier : entryBarrier eb = false) (hpart : s.partOfPasid (s.queue q).pasid = some (p, x))
    (hruns : x.mode = .running) (hrec : s.recordings = []) (hparked : queueParked s q = false)
    (halign : argAt (entryArgs eb) 0 % 64 = 0) (hread : cpRead s q (argAt (entryArgs eb) 0) 128 = some bs)
    (hok : (LaunchRec.of bs).ok s.build = true) (hquarters : (LaunchRec.of bs).quarters &&& x.quarters = (LaunchRec.of bs).quarters) :
    exec .launch s = .next ((s.launchBegun q (launchOf s q n p bs)).goOn s.cp.launches.length (launchOf s q n p bs)) := by
  have hreplays : replays s p = false := by rw [replays, hrec]; rfl
  have hwhen : (cpRuns s && q != 0 && entryOpcode eb == 1 && !queueParked s q && x.mode == .running && !replays s p) = true := by
    simp [cpRuns, hfw, hq, hop, hparked, hruns, hreplays]
  have hread' : cpRead (s.startEntry q) q (argAt (entryArgs eb) 0) 128 = some bs :=
    (cpRead_onQueue s q (startEntry_pasid hentries) _ _).trans hread
  show execLaunch s = _
  unfold execLaunch
  dsimp only
  rw [arg_first hev, headEntry_ready hentries hdead hbarrier]
  dsimp only
  rw [hpart]
  dsimp only
  rw [State.when_, hwhen, if_pos rfl, if_neg (by rw [halign]; decide), hread']
  dsimp only
  rw [State.beginLaunch, startEntry_pasid hentries]
  dsimp only
  rw [show (s.startEntry q).build = s.build from rfl, hok, if_neg (by decide), if_neg (by rw [hquarters]; exact fun h => h rfl)]
  rfl

/-! ### Images (R407) -/

theorem placeImages_busy {s : State} (q : Nat) {r : LaunchRec} (left : List Nat) {todo : List Nat}
    (h : ∀ y ∈ todo, quadFree s y = false ∧ (s.quad y).images ≠ some r.images) : placeImages s q r left todo = .left (left ++ todo) s := by
  induction todo generalizing left with
  | nil => rw [placeImages, List.append_nil]
  | cons y todo ih =>
    obtain ⟨hbusy, himages⟩ := h y List.mem_cons_self
    have hneed : imagesNeeded s r y = (true, true) := if_neg himages
    rw [placeImages, hneed, hbusy]
    exact (ih _ fun y hy => h y (List.mem_cons_of_mem _ hy)).trans (by rw [List.append_assoc]; rfl)

theorem placeImages_held {s : State} (q : Nat) {r : LaunchRec} {quad : Nat} (himages : (s.quad quad).images = some r.images)
    (hlost : ∀ b, (s.quad quad).lost.getLsbD b = false) : placeImages s q r [] [quad] = .left [] s := by
  have hneed : imagesNeeded s r quad = (false, false) := by
    rw [imagesNeeded, if_pos himages]
    exact congrArg (Prod.mk false) (List.any_eq_false.2 fun b _ => by rw [bitAt, hlost]; decide)
  rw [placeImages, hneed]
  rfl

theorem placeImages_free {s : State} {q : Nat} {r : LaunchRec} {quad : Nat} {code : List Byte} (hfree : quadFree s quad = true)
    (himages : (s.quad quad).images ≠ some r.images) (hdata : r.dataBytes = 0) (hcode : cpRead s q r.code r.codeBytes = some code) :
    placeImages s q r [] [quad] = .left [] (s.writeImages r quad code []) := by
  have hneed : imagesNeeded s r quad = (true, true) := if_neg himages
  rw [placeImages, hneed, hfree]
  dsimp only
  rw [hdata, cpRead_zero, if_pos rfl, hcode]
  rfl

/-! ### A record has target quads -/

theorem bitsOf_ne_nil {v n : Nat} (hpos : 0 < v) (hlt : v < 2 ^ n) : bitsOf v n ≠ [] := by
  obtain ⟨i, hi⟩ := Nat.exists_testBit_of_ne_zero hpos.ne'
  have hin : i < n := by
    by_contra h
    rw [Nat.testBit_lt_two_pow (hlt.trans_le (Nat.pow_le_pow_right (by decide) (not_lt.1 h)))] at hi
    cases hi
  exact List.ne_nil_of_mem (List.mem_filter.2 ⟨List.mem_range.2 hin, hi⟩)

theorem targetQuads_ne_nil {bs : List Byte} {b : Build} (h : (LaunchRec.of bs).ok b = true) : (LaunchRec.of bs).targetQuads ≠ [] := by
  have hlimits : 0 < (LaunchRec.of bs).quarters ∧ 0 < (LaunchRec.of bs).quads ∧
      (LaunchRec.of bs).quads < 2 ^ (sideOf (LaunchRec.of bs).layer ^ 2) := by
    simp only [LaunchRec.ok, Bool.and_eq_true, decide_eq_true_eq] at h
    tauto
  obtain ⟨hquarters, hquads, hside⟩ := hlimits
  obtain ⟨u, hu⟩ := List.exists_mem_of_ne_nil _ (bitsOf_ne_nil hquarters (natOfBytes_take_lt (bs.drop 8) 2))
  obtain ⟨v, hv⟩ := List.exists_mem_of_ne_nil _ (bitsOf_ne_nil hquads hside)
  exact List.ne_nil_of_mem (List.mem_flatMap.2 ⟨u, hu, List.mem_map.2 ⟨v, hv, rfl⟩⟩)

/-! ### Records (R209), seen on one core -/

/-- Two states that differ only in what a write touches still do after the same change elsewhere. -/
theorem besides.onCp {s t : State} (h : besides s t) (f : Cp → Cp) : besides (s.onCp f) (t.onCp f) := by rw [h]; rfl
theorem besides.onCore {s t : State} (h : besides s t) (k : Nat) (f : Core → Core) : besides (s.onCore k f) (t.onCore k f) := by rw [h]; rfl

/-- A launch whose one record has been placed. -/
def Launch.placedOne (l : Launch) : Launch := { l with placed := 1, live := l.live + (1 - l.placed), drained := false, st := .running }

/-- The one record of a launch stands in its target's queue. -/
def State.seededOne (s : State) (i core : Nat) (r : Record) : State := (s.enqueue core r).onLaunch i Launch.placedOne

theorem besides.seededOne {s t : State} (h : besides s t) (i core : Nat) (r : Record) :
    besides (s.seededOne i core r) (t.seededOne i core r) :=
  (h.onCore core fun c => { c with queue := c.queue ++ [r] }).onCp fun c => { c with launches := c.launches.modify i Launch.placedOne }

section
variable {r : LaunchRec} {l : Launch} {core : Nat} (htargets : r.targets = [core]) (hcount : r.count = 1)
include htargets hcount

theorem placeRound_open {s : State} (hopen : targetOpen s r.pri core = true) (i : Nat) :
    placeRound r l i s 0 r.targets =
      ((s.enqueue core (r.task l.pasid 0 i)).noteOrder ((s.part? l.part).map fun x => (l.part, x))
        { kind := .launch, who := core, what := 0, record := some (r.task l.pasid 0 i) }, 1) := by
  rw [htargets, placeRound, htargets, hcount, hopen]
  rfl

theorem placeRound_done (s : State) (i : Nat) : placeRound r l i s 1 r.targets = (s, 1) := by
  rw [htargets, placeRound, htargets, hcount]
  rfl

theorem placeRounds_one {s : State} (hopen : targetOpen s r.pri core = true) (i : Nat) :
    placeRounds r l i 2 s 0 =
      ((s.enqueue core (r.task l.pasid 0 i)).noteOrder ((s.part? l.part).map fun x => (l.part, x))
        { kind := .launch, who := core, what := 0, record := some (r.task l.pasid 0 i) }, 1) := by
  rw [placeRounds, placeRound_open htargets hcount hopen]
  dsimp only
  rw [if_neg Nat.one_ne_zero, placeRounds, placeRound_done htargets hcount]
  exact if_pos rfl

end

section
variable {l : Launch} {core : Nat} (htargets : (LaunchRec.of l.record).targets = [core]) (hcount : (LaunchRec.of l.record).count = 1)
include htargets hcount

theorem placeRecords_one {s : State} (hopen : targetOpen s (LaunchRec.of l.record).pri core = true) (hplaced : l.placed = 0) (i : Nat) :
    besides (s.seededOne i core ((LaunchRec.of l.record).task l.pasid 0 i)) (s.placeRecords i l) := by
  unfold State.placeRecords
  dsimp only
  have hrounds := placeRounds_one (l := l) htargets hcount hopen i
  have htotal : (LaunchRec.of l.record).count * (LaunchRec.of l.record).targets.length = 1 := by rw [htargets, hcount]; rfl
  rw [hplaced, htotal, hrounds]
  exact (State.noteOrder_besides ..).onCp fun c => { c with launches := c.launches.modify i Launch.placedOne }

/-- XBOUND of the one target quad is set, and the one record placed. -/
theorem seed_one {s : State} {quad : Nat} (hquads : (LaunchRec.of l.record).targetQuads = [quad])
    (hopen : targetOpen s (LaunchRec.of l.record).pri core = true) (hplaced : l.placed = 0) (i : Nat) :
    besides ((s.onQuad quad fun x => { x with xbound := word (LaunchRec.of l.record).xbound }).seededOne i core
      ((LaunchRec.of l.record).task l.pasid 0 i)) (s.seed i l) := by
  unfold State.seed
  dsimp only
  rw [hquads, List.foldl_cons, List.foldl_nil]
  have hnoted := State.noteOrder_besides (s.onQuad quad fun x => { x with xbound := word (LaunchRec.of l.record).xbound })
    (s.partOfQuarter (quarterOf quad)) { kind := .launch, who := quad, what := (LaunchRec.of l.record).xbound }
  refine (hnoted.seededOne i core _).trans (placeRecords_one (l := { l with st := .placing }) htargets hcount ?_ hplaced i)
  rw [targetOpen, State.core, hnoted.cores]
  exact hopen

end

end Sys2Proof.Machine
end

section
/-! The steps of a launch (09_tasks R209; 16_ordering R397; 17_host R407). -/

namespace Sys2Proof.Machine

/-! ### Where its images leave a launch -/

section
variable {s t : State} {i : Nat} {l : Launch}

theorem goOn_left {todo : List Nat} (h : placeImages s l.queue (LaunchRec.of l.record) [] l.todo = .left todo t) (hne : todo ≠ []) :
    s.goOn i l = t.onLaunch i fun l => { l with todo } := by
  unfold State.goOn
  rw [h]
  cases todo with
  | nil => exact absurd rfl hne
  | cons => rfl

theorem goOn_seeds (h : placeImages s l.queue (LaunchRec.of l.record) [] l.todo = .left [] t) :
    s.goOn i l = (t.onLaunch i fun l => { l with todo := [] }).seed i { l with todo := [] } := by
  unfold State.goOn
  rw [h]

end

theorem targetOpen_of_room {s : State} {pri core : Nat}
    (h : if pri < 3 then (s.core core).queue.length < (s.core core).thresh else (s.core core).queue.length < 32) :
    targetOpen s pri core = true := by
  rw [targetOpen]
  split
  next hlow => exact decide_eq_true (by rwa [if_pos hlow] at h)
  next hhigh => exact decide_eq_true (by rwa [if_neg hhigh] at h)

theorem seededOne_queue (s : State) (i core : Nat) (r : Record) :
    ((s.seededOne i core r).core core).queue = (s.core core).queue ++ [r] := by
  show ((s.onCore core fun c => { c with queue := c.queue ++ [r] }).core core).queue = _
  rw [State.onCore_core_same]

theorem seededOne_launches (s : State) (i core : Nat) (r : Record) :
    (s.seededOne i core r).cp.launches = s.cp.launches.modify i Launch.placedOne := rfl

/-- What the seed of a launch on one core leaves: its record in the core's queue, XBOUND in its quad. -/
structure Seeded (s t : State) (i core quad : Nat) (r : Record) (xbound : Nat) : Prop where
  sameMem : sameMem s t
  mem : t.mem = s.mem
  queue : (t.core core).queue = (s.core core).queue ++ [r]
  launches : t.cp.launches = s.cp.launches.modify i Launch.placedOne
  queues : ∀ q, t.queue q = s.queue q
  quad : t.quad quad = { s.quad quad with xbound := word xbound }

theorem seed_seeded {s : State} {l : Launch} {core quad : Nat} (htargets : (LaunchRec.of l.record).targets = [core])
    (hquads : (LaunchRec.of l.record).targetQuads = [quad]) (hcount : (LaunchRec.of l.record).count = 1)
    (hopen : targetOpen s (LaunchRec.of l.record).pri core = true) (hplaced : l.placed = 0) (i : Nat) :
    Seeded s (s.seed i l) i core quad ((LaunchRec.of l.record).task l.pasid 0 i) (LaunchRec.of l.record).xbound := by
  have h := seed_one htargets hcount hquads hopen hplaced i
  refine ⟨?_, ?_, ?_, ?_, fun q => ?_, ?_⟩
  · exact (sameMem_onQuad s quad (f := fun x => { x with xbound := word (LaunchRec.of l.record).xbound }) rfl).trans h.sameMem
  · rw [h.mem]
    rfl
  · rw [State.core, h.cores]
    exact seededOne_queue ..
  · rw [h.cp, seededOne_launches]
    rfl
  · rw [State.queue, h.cp]
    rfl
  · rw [h.quad]
    show (s.onQuad quad fun x => { x with xbound := word (LaunchRec.of l.record).xbound }).quad quad = _
    rw [State.onQuad_quad_same]

theorem Seeded.xbound {s t : State} {i core quad : Nat} {r : Record} {x : Nat} (h : Seeded s t i core quad r x) :
    (t.quad quad).xbound.toNat = x % 2 ^ 64 := by
  rw [h.quad]
  exact BitVec.toNat_ofNat ..

/-! ### The bytes of an image (R407) -/

theorem lastAt_concat (cells : List (Nat × Byte)) (c : Nat × Byte) (a : Nat) :
    lastAt (cells ++ [c]) a = if c.1 = a then some c.2 else lastAt cells a := by
  rw [lastAt, List.reverse_append, List.reverse_singleton, List.singleton_append, List.find?_cons]
  by_cases h : c.1 = a
  · rw [if_pos h, beq_iff_eq.2 h]
    rfl
  · rw [if_neg h, beq_eq_false_iff_ne.2 h]
    rfl

theorem imageCells_concat (off : Nat) (bs : List Byte) (b : Byte) :
    imageCells off (bs ++ [b]) = imageCells off bs ++ [(off + bs.length, b)] := by
  rw [imageCells, List.length_append, List.length_singleton, List.range_succ, List.zip_append (List.length_range ..), List.map_append]
  rfl

theorem lastAt_imageCells (bs : List Byte) (a : Nat) : lastAt (imageCells 0 bs) a = bs[a]? := by
  induction bs using List.reverseRecOn with
  | nil => rfl
  | append_singleton bs b ih =>
    rw [imageCells_concat, lastAt_concat, ih, Nat.zero_add]
    by_cases h : bs.length = a
    · rw [if_pos h, ← h, List.getElem?_concat_length]
    · rw [if_neg h]
      rcases Nat.lt_or_gt_of_ne h with hlt | hgt
      · rw [List.getElem?_eq_none (by omega), List.getElem?_eq_none (by rw [List.length_append, List.length_singleton]; omega)]
      · rw [List.getElem?_append_left hgt]

section
variable (s : State) (quad : Nat) (code : List Byte)

theorem writeImage_frame : (s.writeImage quad 0 code).mem = s.mem ∧ (s.writeImage quad 0 code).cores = s.cores ∧
    (s.writeImage quad 0 code).cp = s.cp := by
  unfold State.writeImage
  split
  · exact ⟨rfl, rfl, rfl⟩
  · have h := (State.lwrite_besides s none quad (imageCells 0 code)).trans (State.noteOrder_besides _
      (s.partOfQuarter (quarterOf quad)) { kind := .launch, who := quad, what := 0, bytes := code })
    exact ⟨h.mem, h.cores, h.cp⟩

theorem writeImage_get (hwf : (s.quad quad).mem.wf = true) (a : Nat) :
    ((s.writeImage quad 0 code).quad quad).mem.get a = code[a]?.getD ((s.quad quad).mem.get a) := by
  unfold State.writeImage
  split
  next hempty =>
    rw [List.isEmpty_iff.1 hempty]
    rfl
  · rw [(State.noteOrder_besides ..).quad, State.lwrite_get _ _ _ _ hwf, lastAt_imageCells]

/-- A code image with no data image beside it. -/
theorem writeImages_code (r : LaunchRec) :
    s.writeImages r quad code [] = (s.writeImage quad 0 code).onQuad quad fun q => { q with images := some r.images, lost := 0 } := rfl

theorem writeImages_frame (r : LaunchRec) : (s.writeImages r quad code []).mem = s.mem ∧ (s.writeImages r quad code []).cores = s.cores ∧
    (s.writeImages r quad code []).cp = s.cp := writeImage_frame s quad code

theorem writeImages_quad (r : LaunchRec) (hwf : (s.quad quad).mem.wf = true) :
    (∀ a, ((s.writeImages r quad code []).quad quad).mem.get a = code[a]?.getD ((s.quad quad).mem.get a)) ∧
      ((s.writeImages r quad code []).quad quad).images = some r.images := by
  rw [writeImages_code, State.onQuad_quad_same]
  exact ⟨writeImage_get s quad code hwf, rfl⟩

end

/-! ### The steps -/

section
variable {s : State} {i : Nat} {l : Launch} (hev : s.ev = [i]) (hl : s.cp.launches[i]? = some l)
include hev hl

theorem launchQuadFree_goesOn (hst : l.st = .images) (halive : launchAlive s l = true) :
    exec .launchQuadFree s = .next (s.goOn i l) := by
  show execLaunchQuadFree s = _
  unfold execLaunchQuadFree
  dsimp only
  rw [arg_first hev, hl]
  dsimp only
  rw [State.when_, hst, halive]
  rfl

theorem launchPlacementResume_places (hst : l.st = .placing) (hdrained : l.drained = true) (halive : launchAlive s l = true) :
    exec .launchPlacementResume s = .next (s.placeRecords i l) := by
  show execLaunchPlacementResume s = _
  unfold execLaunchPlacementResume
  dsimp only
  rw [arg_first hev, hl]
  dsimp only
  rw [State.when_, hst, hdrained, halive]
  rfl

theorem launchComplete_completes (hover : launchOver s i l = true) :
    exec .launchComplete s = .next ((s.onLaunch i fun l => { l with st := .done }).completeEntry l.queue l.entry
      (stDone + if l.kills then 256 else 0)) := by
  show execLaunchComplete s = _
  unfold execLaunchComplete
  dsimp only
  rw [arg_first hev, hl]
  dsimp only
  rw [State.when_, hover, if_pos rfl]

end

theorem launchAlive_of {s : State} {l : Launch} (hfw : s.cp.fwstat = 1) (hruns : launchRuns s l = true)
    (hdead : (s.queue l.queue).dead = false) : launchAlive s l = true := by
  rw [launchAlive, cpRuns, hfw, hruns, hdead]
  rfl

theorem launchOver_of {s : State} {i : Nat} {l : Launch} (hst : l.st = .running) (hlive : l.live = 0)
    (hengine : engineOf i s.quads s.gangs = false) (himages : ∀ e ∈ s.parts, engineOf i e.2.image.quads e.2.image.gangs = false) :
    launchOver s i l = true := by
  have hout : (s.parts.any fun p => engineOf i p.2.image.quads p.2.image.gangs) = false :=
    List.any_eq_false.2 fun e he => by rw [himages e he]; decide
  rw [launchOver, hst, hlive, hengine, hout]
  rfl

theorem modify_last {α : Type} (xs : List α) (a : α) (f : α → α) : (xs ++ [a]).modify xs.length f = xs ++ [f a] := by
  induction xs with
  | nil => rfl
  | cons x xs ih => exact congrArg (x :: ·) ih

/-- Settles O49: a launch is begun from its entry, waits for its quads or is seeded, and completes. -/
theorem launches : Obligations.Launches := by
  intro s q i n core bs r quad one task room queued
  refine ⟨?begins, ?goesOn, ?completes⟩
  case begins =>
    intro eb rest p x a hev hfw hq hentries hdead hop hbarrier hpart hruns _ hrec hparked halign hread hok hquarters launched
    rw [natOfBytes_drop_take_one] at hbarrier
    have hbegins := launch_begins hev hfw hq hentries hdead hop hbarrier hpart hruns hrec hparked (by rwa [argAt_first])
      (by rwa [argAt_first]) hok hquarters
    have hqueue : ((s.launchBegun q (launchOf s q n p bs)).queue q).entries = rest := congrArg HQueue.entries (startEntry_queue hentries)
    refine ⟨fun hbusy => ?_, fun ⟨htargets, hquads, hcount⟩ himages hlost hroom => ?_⟩
    · have hleft : placeImages (s.launchBegun q (launchOf s q n p bs)) q r [] r.targetQuads = .left r.targetQuads _ :=
        placeImages_busy q [] hbusy
      rw [goOn_left (l := launchOf s q n p bs) hleft (targetQuads_ne_nil hok)] at hbegins
      exact ⟨_, launchOf s q n p bs, hbegins, .refl s, ⟨modify_last .., rfl, rfl, rfl, rfl, hqueue⟩, rfl, rfl⟩
    · have hleft : placeImages (s.launchBegun q (launchOf s q n p bs)) q r [] r.targetQuads =
          .left [] (s.launchBegun q (launchOf s q n p bs)) := by
        rw [hquads]
        exact placeImages_held q himages hlost
      rw [goOn_seeds (l := launchOf s q n p bs) hleft] at hbegins
      have hseeded := seed_seeded (s := (s.launchBegun q (launchOf s q n p bs)).onLaunch s.cp.launches.length fun l => { l with todo := [] })
        (l := { launchOf s q n p bs with todo := [] }) htargets hquads hcount (targetOpen_of_room hroom) rfl s.cp.launches.length
      refine ⟨_, Launch.placedOne { launchOf s q n p bs with todo := [] }, hbegins, hseeded.sameMem,
        ⟨hseeded.launches.trans ?_, rfl, rfl, rfl, rfl, ?_⟩, rfl, rfl, hseeded.xbound, hseeded.queue⟩
      · exact (congrArg (List.modify · _ _) (modify_last ..)).trans (modify_last ..)
      · exact (congrArg HQueue.entries (hseeded.queues q)).trans hqueue
  case goesOn =>
    rintro l code hev hl rfl rfl hpasid _ hrec hfw hruns hdead ⟨htargets, hquads, hcount⟩ hok
    have halive := launchAlive_of hfw hruns hdead
    refine ⟨fun hcanonical _ hst hplaced htodo hfree himages hdata hcode hroom => ?_, fun hst hplaced hdrained hroom => ?_⟩
    · have hleft : placeImages s l.queue r [] l.todo = .left [] (s.writeImages r quad code []) := by
        rw [htodo]
        exact placeImages_free hfree himages hdata hcode
      obtain ⟨hmem, hcores, hcp⟩ := writeImages_frame s quad code r
      obtain ⟨hbytes, hheld⟩ := writeImages_quad s quad code r (quad_wf hcanonical.2.1 quad)
      have hcore : (s.writeImages r quad code []).core core = s.core core := by rw [State.core, hcores, State.core]
      have hexec := launchQuadFree_goesOn hev hl hst halive
      rw [goOn_seeds hleft] at hexec
      have hseeded := seed_seeded (s := (s.writeImages r quad code []).onLaunch i fun l => { l with todo := [] })
        (l := { l with todo := [] }) htargets hquads hcount (targetOpen_of_room (by rwa [State.onLaunch, State.onCp_core, hcore])) hplaced i
      have hread (a : Nat) := (congrArg (fun q : Quad => q.mem.get a) hseeded.quad).trans (hbytes a)
      refine ⟨_, Launch.placedOne { l with todo := [] }, hexec, ?_, rfl, hseeded.mem.trans hmem, fun a ha => ?_, fun a ha => ?_, ?_,
        hseeded.xbound, hseeded.queue.trans ?_⟩
      · rw [hseeded.launches]
        show (((s.writeImages r quad code []).cp.launches.modify i fun l => { l with todo := [] }).modify i Launch.placedOne)[i]? = _
        rw [hcp, List.getElem?_modify_eq, List.getElem?_modify_eq, hl]
        rfl
      · exact (hread a).trans (by rw [List.getElem?_eq_getElem ha, List.getD_eq_getElem _ _ ha, Option.getD_some])
      · exact (hread a).trans (by rw [List.getElem?_eq_none ha, Option.getD_none])
      · exact (congrArg Quad.images hseeded.quad).trans hheld
      · rw [State.onLaunch, State.onCp_core, hcore, hpasid]
        rfl
    · have hexec := launchPlacementResume_places hev hl hst hdrained halive
      have h := placeRecords_one htargets hcount (targetOpen_of_room hroom) hplaced i
      refine ⟨_, Launch.placedOne l, hexec, h.sameMem, ?_, rfl, rfl, ?_⟩
      · rw [h.cp, seededOne_launches, List.getElem?_modify_eq, hl]
        rfl
      · have hqueue := congrArg (fun m : Map Core => (m.get {} core).queue) h.cores
        exact hqueue.trans ((seededOne_queue ..).trans (by rw [hpasid]; rfl))
  case completes =>
    intro l hev hl hst hlive hengine himages
    obtain ⟨hlaunches, hends⟩ := completeEntry_ends (s.onLaunch i fun l => { l with st := .done }) l.queue l.entry
      (stDone + if l.kills then 256 else 0)
    refine ⟨_, { l with st := .done }, launchComplete_completes hev hl (launchOver_of hst hlive hengine himages), ?_, rfl, hends⟩
    rw [hlaunches]
    show (s.cp.launches.modify i fun l => { l with st := .done })[i]? = _
    rw [List.getElem?_modify_eq, hl]
    rfl

end Sys2Proof.Machine
end
